-- ==== Sys2Proof/Word.lean ====
section
/-! DEFINITION. The word types of the AZM-940 (R6, R165): bytes, 32-bit registers, 64-bit pairs, lane masks. -/

namespace Sys2Proof

/-- A byte of memory. -/
abbrev Byte := BitVec 8

/-- A 32-bit register word. -/
abbrev Word := BitVec 32

/-- A 64-bit value: a register pair, an address, a wide field. -/
abbrev DWord := BitVec 64

/-- A set of lanes of a warp: bit n stands for lane n (R165). -/
abbrev Lanes := BitVec 32

/-- A register number, as a register field encodes it (R278). -/
abbrev Reg := BitVec 8

end Sys2Proof
end

