-- ==== Sys2Proof/Syntax.lean ====
section
/-! DEFINITION. The steps of the AZM-940 as syntax: one constructor of Instr for each row of spec/opcode_table.json.
Instructions carry their encoded fields (R277-R282); events carry what reaches the module from outside. -/

namespace Sys2Proof

/-! ## Encoded subfields -/

/-- TYPE codes 0 to 15 (R280). -/
inductive Ty where
  | b32 | i8 | i16 | i32 | i64 | n8 | n16 | n32 | n64 | f32 | f16 | bf16 | e4m3 | e5m2 | ds8 | sp4
  deriving DecidableEq, Repr

/-- Scope codes 0 to 5 (R208). -/
inductive Scope where
  | wp | co | cl | di | dv | sy
  deriving DecidableEq, Repr

/-- Rounding modes (R237, R281). -/
inductive Rnd where
  | rne | rz | rp | rm
  deriving DecidableEq, Repr

/-- Ordering subfield of class M (R281). -/
inductive Ordr where
  | none | poll | acq | rel
  deriving DecidableEq, Repr

/-- Hint subfield of class M (R281). -/
inductive Hint where
  | none | ro | nl1 | str
  deriving DecidableEq, Repr

/-- The source a HOLD field names (R184). -/
inductive Hold where
  | none | a | b | c
  deriving DecidableEq, Repr

/-- Address spaces an instruction can name (R193, R341, R375). -/
inductive Spc where
  | va | ls | cw
  deriving DecidableEq, Repr

/-- Integer compare conditions (R319). -/
inductive ICond where
  | eq | ne | lt | le | gt | ge
  deriving DecidableEq, Repr

/-- Floating-point compare conditions (R320). -/
inductive FCond where
  | eq | ne | lt | le | gt | ge | un | ord
  deriving DecidableEq, Repr

/-- Three-input bit functions of `lmix` (R318). -/
inductive LFn where
  | andor | orand | xor3 | maj | mux | andxor | orxor | xorand
  deriving DecidableEq, Repr

/-- Reduction operators of `wred` and `wscan` (R325). -/
inductive RedOp where
  | add | min | max | and | or | xor
  deriving DecidableEq, Repr

/-- Operators of deterministic reductions and reduce-scatter (R350, R379). -/
inductive SumOp where
  | add | min | max
  deriving DecidableEq, Repr

/-- Operators of `alog` (R345). -/
inductive LogOp where
  | and | or | xor
  deriving DecidableEq, Repr

/-- Matrix operand formats, codes 0 to 4 of AF and BF (R394). -/
inductive MFmt where
  | bf16 | f16 | e4m3 | e5m2 | i8
  deriving DecidableEq, Repr

/-- A guard `?vN` or `?!vN` (R175). -/
structure Guard where
  reg : BitVec 7
  neg : Bool
  deriving DecidableEq, Repr

/-- The control fields of the base layout every instruction has: guard, HOLD, FS (R277). -/
structure Ctl where
  guard : Option Guard
  hold : Hold
  fs : Bool
  deriving DecidableEq, Repr

/-- The count operand of a shift, rotate or shuffle: a register, or an immediate n when I is set (R315, R322). -/
inductive Count (w : Nat) where
  | reg (b : Reg)
  | imm (n : BitVec w)
  deriving DecidableEq, Repr

/-- Inversions of `lmix` (R318). -/
structure LInv where
  a : Bool
  b : Bool
  c : Bool
  d : Bool
  deriving DecidableEq, Repr

/-- TYPE, SCOPE, ORD and HINT of a load or store (R331, R334, R335). -/
structure MemF where
  ty : Ty
  scope : Scope
  ord : Ordr
  hint : Hint
  deriving DecidableEq, Repr

/-- The fields every atomic has: TYPE, SCOPE, ORD, SPACE and NR (R345, R347). -/
structure AtomF where
  ty : Ty
  scope : Scope
  ord : Ordr
  space : Spc
  nr : Bool
  deriving DecidableEq, Repr

/-- The shape of a tile: encoded in EXT and IMM32, or read from registers C and X (R341). -/
inductive TileShape where
  | imm (rowsM1 : BitVec 6) (rowb : BitVec 4) (stride : BitVec 32)
  | reg (c x : Reg)
  deriving DecidableEq, Repr

/-- Fields of a tile access: SPACE, SCOPE, HINT and shape (R341). -/
structure TileF where
  space : Spc
  scope : Scope
  hint : Hint
  shape : TileShape
  deriving DecidableEq, Repr

/-- The byte-barrier cell an engine operation names (cell address / 16), or none when BB is clear (R372). -/
abbrev CellRef := Option (BitVec 15)

/-- Destination region and formats of a matrix operation (R394). -/
structure MmaF where
  dslot : BitVec 6
  q : BitVec 2
  sh : Bool
  af : MFmt
  bf : MFmt
  za : Bool
  deriving DecidableEq, Repr

/-- Source slot fields of a chained operation (R394). -/
structure ChainF where
  sslot : BitVec 6
  hs : Bool
  deriving DecidableEq, Repr

/-- The scope operand of `fin.close` and `fin.wait` (R363). -/
inductive FsRef where
  | imm (s : BitVec 8)
  | reg (a : Reg)
  deriving DecidableEq, Repr

/-- The element formats `acc.st` writes, its T field (R405). -/
inductive AccT where
  | b32 | f16 | bf16 | e4m3 | e5m2
  deriving DecidableEq, Repr

/-- A special register reached by `movs`, by its number (R296). -/
inductive SReg where
  | lane | warp | team | core | cluster | die | device | clock | prio | fpstat | frameDepth | capacity | noteSeq
  | xsteal | trapvec | faultPc | faultCause | faultLanes | faultAddr | asid | partition | inbox | mtime | accOwner
  | leaseState
  deriving DecidableEq, Repr

/-! ## Inputs of events -/

/-- A unit of the module: kind, die or link, number within it (R437). -/
structure UnitRef where
  kind : Nat
  die : Nat
  unit : Nat
  deriving DecidableEq, Repr

/-- What the host link trained to (R25). -/
structure HostLink where
  width : Nat
  slow : Bool
  deriving DecidableEq, Repr

/-- The register a host write reaches: BAR0 (R66) or a management register (R79). -/
inductive RegAddr where
  | bar0 (offset : Nat)
  | mgmt (die port offset : Nat)
  | hdm
  deriving DecidableEq, Repr

/-- The common header of a command entry (R72), the queue it came from, its entry number, and whether a reserved
bit of the entry was nonzero. -/
structure CmdHdr where
  queue : Nat
  entry : Nat
  fence : Bool
  quiet : Bool
  tag : Word
  part : Nat
  evq : Nat
  resv : Bool
  deriving DecidableEq, Repr

/-- The quota payload of PART_CREATE and PART_SET (R90). -/
structure Quota where
  weight : Nat
  clusters : DWord
  warps : Nat
  accslots : Nat
  granules : Nat
  lskib : Nat
  deque : Nat
  spill : Nat
  deriving DecidableEq, Repr

/-- What a corrected error or score event is charged for (R145). -/
inductive ScoreEvent where
  | coreEcc | sliceEcc | channelRead | channelHourly | linkRetry | laneMoved | shadowMismatch
  deriving DecidableEq, Repr

/-- Where an uncorrectable error is found (R155). -/
inductive ErrPlace where
  | line (pa : Nat)
  | block (pa : Nat)
  | localStore (team off : Nat)
  | coreStore (core : Nat) (team : Option Nat)
  deriving DecidableEq, Repr

/-- What an atomic computes (R346). -/
inductive AtomFn where
  | add | min (signed : Bool) | max (signed : Bool) | log (op : LogOp) | xchg | cas
  | fadd (r : Rnd) | fmin | fmax
  deriving DecidableEq, Repr

/-- What a peer answers (R31): bytes, and whether they are poisoned (R155). -/
structure PeerData where
  bytes : List Byte
  poison : Bool
  deriving DecidableEq, Repr

/-- A memory request of a peer (R31): a read, a write and whether its data is poisoned (R155), an atomic of a size in bytes with its
operands, and the rows of a tile read or written whole (R216): their addresses, the bytes of a row. -/
inductive PeerReq where
  | read (size : Nat)
  | write (bytes : List Byte) (poison : Bool)
  | atom (fn : AtomFn) (size : Nat) (b c : DWord)
  | readTile (rows : List Nat) (rowlen : Nat)
  | writeTile (rows : List Nat) (rowlen : Nat) (bytes : List Byte)
  deriving DecidableEq, Repr

/-- What a unit's test found (R149): a result that differs from its stored signature, uncorrectable and corrected errors, for
links the bits sent, those in error, and whether training succeeded. -/
structure TestResult where
  mismatch : Bool
  uncorrectable : Bool
  corrected : Nat
  bits : Nat
  bitErrors : Nat
  trained : Bool
  deriving DecidableEq, Repr

/-- Choices the device makes while serving an operation: replica or home, replica grant, lines leaving the L1D
(R45, R46, R205). -/
structure Serve where
  replica : Bool
  grant : Bool
  evict : List Nat
  deriving DecidableEq, Repr

end Sys2Proof

/-! ## The steps -/

namespace Sys2Proof

/-- The steps of the module, one constructor for each row of spec/opcode_table.json. An event that names only numbers
(a team, a warp, a unit) has no argument: its numbers stand in the state's subject (x, y, z), set by the turn that brings
it; these events stand last. -/
inductive Instr where
  /-- `POWER_ON` (R24). -/
  | powerOn (bad moved : List UnitRef) (link : HostLink)
  /-- `HOST_LINK_TRAIN` (R25). -/
  | hostLinkTrain (link : HostLink)
  /-- `REGISTER_WRITE` (R79). -/
  | registerWrite (reg : RegAddr) (value : DWord)
  /-- `RPLCTL_WRITE` (R48). -/
  | rplctlWrite (die : Nat) (value : Word)
  /-- `TAIL_WRITE` (R69). -/
  | tailWrite (queue : Nat) (tail : Word)
  /-- `EVENT_HEAD_WRITE` (R82). -/
  | eventHeadWrite (queue : Nat) (head : Word)
  /-- `UNKNOWN_COMMAND` (R72). -/
  | unknownCommand (h : CmdHdr) (opcode : Nat)
  /-- `QUEUE_CREATE` (R74). -/
  | queueCreate (h : CmdHdr) (num kind logn vector base : Nat) (bind : Bool)
  /-- `QUEUE_DESTROY` (R73). -/
  | queueDestroy (h : CmdHdr) (num kind : Nat)
  /-- `PART_CREATE` (R90). -/
  | partCreate (h : CmdHdr) (q : Quota)
  /-- `PART_SET` (R91). -/
  | partSet (h : CmdHdr) (q : Quota)
  /-- `PART_DESTROY` (R73). -/
  | partDestroy (h : CmdHdr)
  /-- `CTX_CREATE` (R73). -/
  | ctxCreate (h : CmdHdr) (root : Nat)
  /-- `CTX_DESTROY` (R73). -/
  | ctxDestroy (h : CmdHdr) (asid : Nat)
  /-- `MAP` (R198). -/
  | mapPages (h : CmdHdr) (asid attrs va pa size : Nat)
  /-- `UNMAP` (R75). -/
  | unmapPages (h : CmdHdr) (asid va size : Nat)
  /-- `DISCARD` (R76). -/
  | discardRange (h : CmdHdr) (asid va size : Nat)
  /-- `LAUNCH` (R80). -/
  | launch (h : CmdHdr) (record : Nat)
  /-- `CANCEL` (R77). -/
  | cancel (h : CmdHdr) (number : Nat)
  /-- `LEASE_POLICY` (R146). -/
  | leasePolicy (h : CmdHdr) (threshold inflight interval : Nat)
  /-- `LEASE_NOW` (R146). -/
  | leaseNow (h : CmdHdr) (u : UnitRef)
  /-- `RETIRE_READ` (R73). -/
  | retireRead (h : CmdHdr) (first buffer count : Nat)
  /-- `ATTEST` (R87). -/
  | attest (h : CmdHdr) (nonce buffer : Nat)
  /-- `DOMAIN_SPLIT` (R50). -/
  | domainSplit (h : CmdHdr) (die k newEntry base : Nat) (mask : DWord)
  /-- `DOMAIN_MERGE` (R50). -/
  | domainMerge (h : CmdHdr) (die k absorb : Nat) (mask : DWord)
  /-- `PATCH_STAGE` (R73); `slotB`: the slot the hub takes where both are inactive (R88). -/
  | patchStage (h : CmdHdr) (addr len : Nat) (slotB : Bool)
  /-- `RESET_WARM` (R439). -/
  | resetWarm (h : CmdHdr)
  /-- `RESET_FULL` (R439). -/
  | resetFull (h : CmdHdr)
  /-- `MGMT_READ` (R79). -/
  | mgmtRead (h : CmdHdr) (target offset : Nat)
  /-- `MGMT_WRITE` (R79). -/
  | mgmtWrite (h : CmdHdr) (target offset : Nat) (value : Word)
  /-- `CORRECTED_ERROR` (R145). -/
  | correctedError (u : UnitRef) (k : ScoreEvent)
  /-- `UNCORRECTABLE_ERROR` (R155). -/
  | uncorrectableError (u : UnitRef) (p : ErrPlace)
  /-- `SCRUB_PASS` (R55). -/
  | scrubPass (stack channel corrected : Nat) (bad : List Nat)
  /-- `SCRUB_YIELD` (R56). -/
  | scrubYield (stack demand : Nat)
  /-- `LEASE_TEST_DONE` (R149). -/
  | leaseTestDone (lease : Nat) (r : TestResult)
  /-- `HOST_SNOOP` (R27). -/
  | hostSnoop (line : Nat) (data : Option (List Byte))
  /-- `HOST_HDM_ACCESS` (R26). -/
  | hostHdmAccess (pa size : Nat) (data : Option (List Byte))
  /-- `PEER_MEMORY_REQUEST` (R31). -/
  | peerMemoryRequest (module pa : Nat) (req : PeerReq)
  /-- `PEER_REPLY` (R31). -/
  | peerReply (op : Nat) (data : PeerData)
  /-- `PEER_TASK` (R142). -/
  | peerTask (module handle : Nat) (desc : List Byte)
  /-- `PEER_FUTURE` (R143). -/
  | peerFuture (module va : Nat) (faulted : Bool) (value : DWord)
  /-- `OPERATION_COMPLETE` (R185). -/
  | operationComplete (op : Nat) (serve : Serve)
  /-- `NOP` (R311). -/
  | nop (c : Ctl)
  /-- `BRA` (R302). -/
  | bra (c : Ctl) (target : BitVec 24)
  /-- `BRA_ANY` (R302). -/
  | braAny (c : Ctl) (a : Reg) (target : BitVec 24)
  /-- `BRA_ALL` (R302). -/
  | braAll (c : Ctl) (a : Reg) (target : BitVec 24)
  /-- `JMP` (R303). -/
  | jmp (c : Ctl) (a : Reg)
  /-- `CALL` (R261). -/
  | call (c : Ctl) (mk : Bool) (f : BitVec 5) (w : Reg) (target : BitVec 24)
  /-- `CALL_I` (R263). -/
  | callI (c : Ctl) (mk : Bool) (f : BitVec 5) (a w : Reg)
  /-- `RET` (R262). -/
  | ret (c : Ctl)
  /-- `UNWIND_TO` (R266). -/
  | unwindTo (c : Ctl) (sb : Reg)
  /-- `EXIT` (R306). -/
  | exit (c : Ctl)
  /-- `YIELD` (R307). -/
  | yield (c : Ctl)
  /-- `SETPRI` (R308). -/
  | setpri (c : Ctl) (n : BitVec 3)
  /-- `WFLAG` (R309). -/
  | wflag (c : Ctl) (mask : BitVec 12)
  /-- `TRAP` (R310). -/
  | trap (c : Ctl) (code : BitVec 7) (ad : Option Reg)
  /-- `IADD` (R313). -/
  | iadd (c : Ctl) (t : Ty) (sat : Bool) (d a b : Reg)
  /-- `ISUB` (R313). -/
  | isub (c : Ctl) (t : Ty) (sat : Bool) (d a b : Reg)
  /-- `IMUL` (R313). -/
  | imul (c : Ctl) (t : Ty) (sat : Bool) (d a b : Reg)
  /-- `IMULHI` (R313). -/
  | imulhi (c : Ctl) (t : Ty) (d a b : Reg)
  /-- `IMAD` (R313). -/
  | imad (c : Ctl) (t : Ty) (sat : Bool) (d a b e : Reg)
  /-- `INEG` (R313). -/
  | ineg (c : Ctl) (sat : Bool) (d a : Reg)
  /-- `IABS` (R313). -/
  | iabs (c : Ctl) (sat : Bool) (d a : Reg)
  /-- `IMIN` (R313). -/
  | imin (c : Ctl) (t : Ty) (d a b : Reg)
  /-- `IMAX` (R313). -/
  | imax (c : Ctl) (t : Ty) (d a b : Reg)
  /-- `IADD_W` (R313). -/
  | iaddW (c : Ctl) (t : Ty) (sat : Bool) (d a b : Reg)
  /-- `ISUB_W` (R313). -/
  | isubW (c : Ctl) (t : Ty) (sat : Bool) (d a b : Reg)
  /-- `IMUL_W` (R313). -/
  | imulW (c : Ctl) (t : Ty) (d a b : Reg)
  /-- `IMAD_W` (R313). -/
  | imadW (c : Ctl) (t : Ty) (d a b e : Reg)
  /-- `LEA` (R313). -/
  | lea (c : Ctl) (t : Ty) (sh : BitVec 3) (d a b : Reg) (imm : BitVec 24)
  /-- `MOV` (R313). -/
  | mov (c : Ctl) (d a : Reg)
  /-- `MOV_W` (R313). -/
  | movW (c : Ctl) (d a : Reg)
  /-- `MOVI` (R313). -/
  | movi (c : Ctl) (d : Reg) (imm : BitVec 24)
  /-- `MOVI_L` (R313). -/
  | moviL (c : Ctl) (t : Ty) (d : Reg) (imm : BitVec 32)
  /-- `IADDI` (R313). -/
  | iaddi (c : Ctl) (t : Ty) (sat : Bool) (d a : Reg) (imm : BitVec 24)
  /-- `IDIV` (R314). -/
  | idiv (c : Ctl) (t : Ty) (sat : Bool) (d a b : Reg)
  /-- `IREM` (R314). -/
  | irem (c : Ctl) (t : Ty) (d a b : Reg)
  /-- `SAD` (R313). -/
  | sad (c : Ctl) (t : Ty) (d a b e : Reg)
  /-- `AND` (R315). -/
  | and (c : Ctl) (d a b : Reg)
  /-- `OR` (R315). -/
  | or (c : Ctl) (d a b : Reg)
  /-- `XOR` (R315). -/
  | xor (c : Ctl) (d a b : Reg)
  /-- `NOT` (R315). -/
  | not (c : Ctl) (d a : Reg)
  /-- `LMIX` (R318). -/
  | lmix (c : Ctl) (fn : LFn) (inv : LInv) (d a b e : Reg)
  /-- `SHL` (R316). -/
  | shl (c : Ctl) (d a : Reg) (k : Count 5)
  /-- `SHR` (R316). -/
  | shr (c : Ctl) (d a : Reg) (k : Count 5)
  /-- `SAR` (R316). -/
  | sar (c : Ctl) (d a : Reg) (k : Count 5)
  /-- `ROT` (R315). -/
  | rot (c : Ctl) (d a : Reg) (k : Count 5)
  /-- `SHL_W` (R316). -/
  | shlW (c : Ctl) (d a : Reg) (k : Count 6)
  /-- `SHR_W` (R316). -/
  | shrW (c : Ctl) (t : Ty) (d a : Reg) (k : Count 6)
  /-- `BFE` (R317). -/
  | bfe (c : Ctl) (t : Ty) (d a : Reg) (pos : BitVec 5) (len : BitVec 6)
  /-- `BFI` (R317). -/
  | bfi (c : Ctl) (d a b : Reg) (pos : BitVec 5) (len : BitVec 6)
  /-- `POPC` (R315). -/
  | popc (c : Ctl) (d a : Reg)
  /-- `CLZ` (R315). -/
  | clz (c : Ctl) (d a : Reg)
  /-- `BREV` (R315). -/
  | brev (c : Ctl) (d a : Reg)
  /-- `ICMP` (R319). -/
  | icmp (c : Ctl) (t : Ty) (cond : ICond) (d a b : Reg)
  /-- `ICMP_W` (R319). -/
  | icmpW (c : Ctl) (t : Ty) (cond : ICond) (d a b : Reg)
  /-- `FCMP` (R320). -/
  | fcmp (c : Ctl) (cond : FCond) (d a b : Reg)
  /-- `SEL` (R321). -/
  | sel (c : Ctl) (t : Ty) (d a b e : Reg)
  /-- `BALLOT` (R324). -/
  | ballot (c : Ctl) (d a : Reg)
  /-- `SHFL` (R323). -/
  | shfl (c : Ctl) (d a : Reg) (k : Count 5)
  /-- `SHFL_UP` (R323). -/
  | shflUp (c : Ctl) (d a : Reg) (k : Count 5)
  /-- `SHFL_DOWN` (R323). -/
  | shflDown (c : Ctl) (d a : Reg) (k : Count 5)
  /-- `SHFL_XOR` (R323). -/
  | shflXor (c : Ctl) (d a : Reg) (k : Count 5)
  /-- `BCAST` (R324). -/
  | bcast (c : Ctl) (d a : Reg) (k : Option (BitVec 5))
  /-- `WRED` (R325). -/
  | wred (c : Ctl) (op : RedOp) (t : Ty) (rnd : Rnd) (d a : Reg)
  /-- `WSCAN` (R325). -/
  | wscan (c : Ctl) (ex : Bool) (op : RedOp) (t : Ty) (rnd : Rnd) (d a : Reg)
  /-- `FADD` (R383). -/
  | fadd (c : Ctl) (rnd : Rnd) (d a b : Reg)
  /-- `FSUB` (R383). -/
  | fsub (c : Ctl) (rnd : Rnd) (d a b : Reg)
  /-- `FMUL` (R383). -/
  | fmul (c : Ctl) (rnd : Rnd) (d a b : Reg)
  /-- `FFMA` (R383). -/
  | ffma (c : Ctl) (rnd : Rnd) (d a b e : Reg)
  /-- `FMIN` (R242). -/
  | fmin (c : Ctl) (d a b : Reg)
  /-- `FMAX` (R242). -/
  | fmax (c : Ctl) (d a b : Reg)
  /-- `FABS` (R383). -/
  | fabs (c : Ctl) (d a : Reg)
  /-- `FNEG` (R383). -/
  | fneg (c : Ctl) (d a : Reg)
  /-- `FFLOOR` (R385). -/
  | ffloor (c : Ctl) (d a : Reg)
  /-- `FCEIL` (R385). -/
  | fceil (c : Ctl) (d a : Reg)
  /-- `FTRUNC` (R385). -/
  | ftrunc (c : Ctl) (d a : Reg)
  /-- `FRINT` (R385). -/
  | frint (c : Ctl) (rnd : Rnd) (d a : Reg)
  /-- `FCLASS` (R384). -/
  | fclass (c : Ctl) (d a : Reg)
  /-- `FSCALE` (R385). -/
  | fscale (c : Ctl) (rnd : Rnd) (d a b : Reg)
  /-- `FFRAC` (R385). -/
  | ffrac (c : Ctl) (rnd : Rnd) (d a : Reg)
  /-- `FRCP` (R386). -/
  | frcp (c : Ctl) (rnd : Rnd) (d a : Reg)
  /-- `FRSQ` (R386). -/
  | frsq (c : Ctl) (rnd : Rnd) (d a : Reg)
  /-- `FSQRT` (R386). -/
  | fsqrt (c : Ctl) (rnd : Rnd) (d a : Reg)
  /-- `FDIV` (R386). -/
  | fdiv (c : Ctl) (rnd : Rnd) (d a b : Reg)
  /-- `FEXP2` (R386). -/
  | fexp2 (c : Ctl) (d a : Reg)
  /-- `FLOG2` (R386). -/
  | flog2 (c : Ctl) (d a : Reg)
  /-- `FSIN` (R386). -/
  | fsin (c : Ctl) (d a : Reg)
  /-- `FCOS` (R386). -/
  | fcos (c : Ctl) (d a : Reg)
  /-- `FTANH` (R386). -/
  | ftanh (c : Ctl) (d a : Reg)
  /-- `HADD` (R387). -/
  | hadd (c : Ctl) (t : Ty) (rnd : Rnd) (d a b : Reg)
  /-- `HSUB` (R387). -/
  | hsub (c : Ctl) (t : Ty) (rnd : Rnd) (d a b : Reg)
  /-- `HMUL` (R387). -/
  | hmul (c : Ctl) (t : Ty) (rnd : Rnd) (d a b : Reg)
  /-- `HFMA` (R387). -/
  | hfma (c : Ctl) (t : Ty) (rnd : Rnd) (d a b e : Reg)
  /-- `HMIN` (R387). -/
  | hmin (c : Ctl) (t : Ty) (d a b : Reg)
  /-- `HMAX` (R387). -/
  | hmax (c : Ctl) (t : Ty) (d a b : Reg)
  /-- `HDOT2` (R388). -/
  | hdot2 (c : Ctl) (t : Ty) (rnd : Rnd) (d a b e : Reg)
  /-- `HCMP` (R387). -/
  | hcmp (c : Ctl) (t : Ty) (cond : FCond) (d a b : Reg)
  /-- `CVT` (R389). -/
  | cvt (c : Ctl) (dst src : Ty) (rnd : Rnd) (sat : Bool) (d a : Reg)
  /-- `CVT_W` (R389). -/
  | cvtW (c : Ctl) (dst src : Ty) (rnd : Rnd) (sat : Bool) (d a : Reg)
  /-- `ICVT` (R389). -/
  | icvt (c : Ctl) (dst src : Ty) (rnd : Rnd) (sat : Bool) (d a : Reg)
  /-- `CVT_X2` (R390). -/
  | cvtX2 (c : Ctl) (dst src : Ty) (rnd : Rnd) (sat : Bool) (d a b : Reg)
  /-- `CVT_X4` (R390). -/
  | cvtX4 (c : Ctl) (dst src : Ty) (rnd : Rnd) (sat : Bool) (d a b e x : Reg)
  /-- `CVT_EL` (R391). -/
  | cvtEl (c : Ctl) (src : Ty) (d a b : Reg)
  /-- `CVT_PK` (R392). -/
  | cvtPk (c : Ctl) (d a b : Reg)
  /-- `LD` (R333). -/
  | ld (c : Ctl) (m : MemF) (d a : Reg) (off : BitVec 24)
  /-- `LD_X4` (R332). -/
  | ldX4 (c : Ctl) (m : MemF) (d a : Reg) (off : BitVec 24)
  /-- `ST` (R333). -/
  | st (c : Ctl) (m : MemF) (a b : Reg) (off : BitVec 24)
  /-- `LDL` (R336). -/
  | ldl (c : Ctl) (m : MemF) (d a : Reg) (off : BitVec 24)
  /-- `LDL_X4` (R336). -/
  | ldlX4 (c : Ctl) (m : MemF) (d a : Reg) (off : BitVec 24)
  /-- `STL` (R336). -/
  | stl (c : Ctl) (m : MemF) (a b : Reg) (off : BitVec 24)
  /-- `LDW` (R336). -/
  | ldw (c : Ctl) (m : MemF) (d a : Reg) (off : BitVec 24)
  /-- `LDW_X4` (R336). -/
  | ldwX4 (c : Ctl) (m : MemF) (d a : Reg) (off : BitVec 24)
  /-- `STW` (R336). -/
  | stw (c : Ctl) (m : MemF) (a b : Reg) (off : BitVec 24)
  /-- `PF` (R337). -/
  | pf (c : Ctl) (hint : Hint) (a : Reg) (off : BitVec 24)
  /-- `TLD` (R343). -/
  | tld (c : Ctl) (t : TileF) (a b : Reg)
  /-- `TST` (R343). -/
  | tst (c : Ctl) (t : TileF) (a b : Reg)
  /-- `PFT` (R337). -/
  | pft (c : Ctl) (hint : Hint) (a b : Reg) (rowsM1 : BitVec 6) (rowb : BitVec 4)
  /-- `DCINV` (R338). -/
  | dcinv (c : Ctl)
  /-- `ICINV` (R338). -/
  | icinv (c : Ctl)
  /-- `DSC` (R339). -/
  | dsc (c : Ctl) (a b : Reg)
  /-- `CWB` (R340). -/
  | cwb (c : Ctl) (a b : Reg)
  /-- `AADD` (R346). -/
  | aadd (c : Ctl) (m : AtomF) (d a b : Reg) (off : BitVec 20)
  /-- `AMIN` (R346). -/
  | amin (c : Ctl) (m : AtomF) (d a b : Reg) (off : BitVec 20)
  /-- `AMAX` (R346). -/
  | amax (c : Ctl) (m : AtomF) (d a b : Reg) (off : BitVec 20)
  /-- `ALOG` (R346). -/
  | alog (c : Ctl) (op : LogOp) (m : AtomF) (d a b : Reg) (off : BitVec 20)
  /-- `AXCHG` (R346). -/
  | axchg (c : Ctl) (m : AtomF) (d a b : Reg) (off : BitVec 20)
  /-- `ACAS` (R346). -/
  | acas (c : Ctl) (m : AtomF) (d a b e : Reg) (off : BitVec 32)
  /-- `AFADD` (R348). -/
  | afadd (c : Ctl) (rnd : Rnd) (m : AtomF) (d a b : Reg) (off : BitVec 20)
  /-- `AFMIN` (R348). -/
  | afmin (c : Ctl) (m : AtomF) (d a b : Reg) (off : BitVec 20)
  /-- `AFMAX` (R348). -/
  | afmax (c : Ctl) (m : AtomF) (d a b : Reg) (off : BitVec 20)
  /-- `RCTX` (R350). -/
  | rctx (c : Ctl) (op : SumOp) (t : Ty) (scope : Scope) (ctx : BitVec 4) (d a b e : Reg)
  /-- `RDET` (R352). -/
  | rdet (c : Ctl) (t : Ty) (ctx : BitVec 4) (a b e : Reg)
  /-- `RCLOSE` (R354). -/
  | rclose (c : Ctl) (ctx : BitVec 4) (d : Reg)
  /-- `FENCE` (R355). -/
  | fence (c : Ctl) (scope : Scope)
  /-- `ACQ` (R355). -/
  | acq (c : Ctl) (scope : Scope)
  /-- `REL` (R355). -/
  | rel (c : Ctl) (scope : Scope)
  /-- `ACQ_RP` (R356). -/
  | acqRp (c : Ctl) (t : Ty) (scope : Scope) (d a : Reg) (off : BitVec 24)
  /-- `BAR` (R358). -/
  | bar (c : Ctl) (b : BitVec 4) (a : Reg)
  /-- `BAR_ARR` (R358). -/
  | barArr (c : Ctl) (b : BitVec 4) (d a : Reg)
  /-- `BAR_WAIT` (R358). -/
  | barWait (c : Ctl) (b : BitVec 4) (a : Reg)
  /-- `BB_INIT` (R361). -/
  | bbInit (c : Ctl) (a : Reg)
  /-- `BB_EXP` (R361). -/
  | bbExp (c : Ctl) (d a b : Reg)
  /-- `BB_WAIT` (R361). -/
  | bbWait (c : Ctl) (scope : Scope) (a b : Reg)
  /-- `SPAWN` (R364). -/
  | spawn (c : Ctl) (d a : Reg)
  /-- `SPAWN_R` (R365). -/
  | spawnR (c : Ctl) (d a b : Reg)
  /-- `JOIN` (R366). -/
  | join (c : Ctl) (d a : Reg)
  /-- `JOIN_T` (R366). -/
  | joinT (c : Ctl) (d a : Reg)
  /-- `RESOLVE` (R367). -/
  | resolve (c : Ctl) (d a b : Reg)
  /-- `TASK_END` (R368). -/
  | taskEnd (c : Ctl) (v : Option Reg)
  /-- `FIN_OPEN` (R369). -/
  | finOpen (c : Ctl) (d a b : Reg)
  /-- `FIN_CLOSE` (R369). -/
  | finClose (c : Ctl) (sc : FsRef)
  /-- `FIN_WAIT` (R369). -/
  | finWait (c : Ctl) (sc : FsRef)
  /-- `CAPQ` (R370). -/
  | capq (c : Ctl) (n : BitVec 4) (d : Reg)
  /-- `BCOPY` (R375). -/
  | bcopy (c : Ctl) (dst src : Spc) (scope : Scope) (a b e : Reg) (cell : CellRef)
  /-- `BCOPY2D` (R375). -/
  | bcopy2d (c : Ctl) (dst src : Spc) (scope : Scope) (a b e x : Reg) (cell : CellRef)
  /-- `GATH` (R376). -/
  | gath (c : Ctl) (p : Spc) (scope : Scope) (a b e : Reg) (count : BitVec 12) (sh : BitVec 4) (es : BitVec 3) (cell : CellRef)
  /-- `SCAT` (R376). -/
  | scat (c : Ctl) (p : Spc) (scope : Scope) (a b e : Reg) (count : BitVec 12) (sh : BitVec 4) (es : BitVec 3) (cell : CellRef)
  /-- `STAGE` (R377). -/
  | stage (c : Ctl) (scope : Scope) (a b : Reg) (cell : CellRef)
  /-- `CGRP` (R378). -/
  | cgrp (c : Ctl) (scope : Scope) (g : BitVec 5) (d a b : Reg)
  /-- `CAG` (R380). -/
  | cag (c : Ctl) (dst src : Spc) (a b e x : Reg) (g : BitVec 5) (bb : Bool)
  /-- `CRS` (R380). -/
  | crs (c : Ctl) (op : SumOp) (t : Ty) (dst src : Spc) (a b e x : Reg) (g : BitVec 5) (bb : Bool)
  /-- `CA2A` (R380). -/
  | ca2a (c : Ctl) (dst src : Spc) (a b e x : Reg) (g : BitVec 5) (bb : Bool)
  /-- `CBAR` (R380). -/
  | cbar (c : Ctl) (a b : Reg) (bb : Bool)
  /-- `MMA` (R396). -/
  | mma (c : Ctl) (f : MmaF) (aw bw : Bool) (a b : Reg)
  /-- `MMA_C` (R397). -/
  | mmaC (c : Ctl) (f : MmaF) (ch : ChainF) (bw : Bool) (b : Reg)
  /-- `MMA_S` (R396). -/
  | mmaS (c : Ctl) (f : MmaF) (aw bw : Bool) (a b : Reg)
  /-- `MMA_DS` (R396). -/
  | mmaDs (c : Ctl) (f : MmaF) (aw bw : Bool) (a b : Reg)
  /-- `MMA_G` (R399). -/
  | mmaG (c : Ctl) (f : MmaF) (aw : Bool) (a e x : Reg) (kb nadp : BitVec 16)
  /-- `MMA_GC` (R399). -/
  | mmaGc (c : Ctl) (f : MmaF) (ch : ChainF) (e x : Reg) (nb nadp : BitVec 16)
  /-- `ACC_ACQ` (R403). -/
  | accAcq (c : Ctl) (slot : BitVec 6)
  /-- `ACC_REL` (R404). -/
  | accRel (c : Ctl) (slot : BitVec 6)
  /-- `ACC_LD` (R407). -/
  | accLd (c : Ctl) (slot : BitVec 6) (quad : BitVec 3) (d : Reg)
  /-- `ACC_ST` (R407). -/
  | accSt (c : Ctl) (slot : BitVec 6) (q : BitVec 2) (sh sat : Bool) (t : AccT) (a : Reg) (stride : BitVec 16)
  /-- `ACC_ZERO` (R407). -/
  | accZero (c : Ctl) (slot : BitVec 6) (q : BitVec 2) (sh : Bool)
  /-- `ACC_Q` (R407). -/
  | accQ (c : Ctl) (slot : BitVec 6) (d : Reg)
  /-- `MOVS_READ` (R326). -/
  | movsRead (c : Ctl) (r : SReg) (idx : BitVec 6) (d : Reg)
  /-- `MOVS_WRITE` (R326). -/
  | movsWrite (c : Ctl) (r : SReg) (idx : BitVec 6) (a : Reg)
  /-- `SLEEP` (R381). -/
  | sleep (c : Ctl) (n : BitVec 24)
  /-- `CTX_SAVE` (R381). -/
  | ctxSave (c : Ctl) (d a b : Reg)
  /-- `CTX_LOAD` (R381). -/
  | ctxLoad (c : Ctl) (d a b : Reg)
  /-- `FREC_RD` (R381). -/
  | frecRd (c : Ctl) (a : Reg)
  /-- `LEASE_TST` (R381). -/
  | leaseTst (c : Ctl) (d a : Reg) (pat : BitVec 24)
  /-- `LEASE_REL` (R381). -/
  | leaseRel (c : Ctl) (d a : Reg)
  /-- `TLB_INV` (R381). -/
  | tlbInv (c : Ctl) (a b : Reg)
  /-- `BEZEL_RD` (R381). -/
  | bezelRd (c : Ctl) (d a : Reg) (off : BitVec 24)
  /-- `BEZEL_WR` (R381). -/
  | bezelWr (c : Ctl) (a b : Reg) (off : BitVec 24)
  /-- `UNDERVOLTAGE` (R21). -/
  | undervoltage
  /-- `PEER_LINK_UP` (R29); subject: x the link, y the module. -/
  | peerLinkUp
  /-- `PEER_LINK_RECOVERING` (R32); subject: x the module. -/
  | peerLinkRecovering
  /-- `PEER_LINK_DOWN` (R33); subject: x the module. -/
  | peerLinkDown
  /-- `THERMAL_STEP_DOWN` (R23); subject: x the temp. -/
  | thermalStepDown
  /-- `THERMAL_STEP_UP` (R23); subject: x the temp. -/
  | thermalStepUp
  /-- `THERMAL_HALT` (R23); subject: x the temp. -/
  | thermalHalt
  /-- `MTIME_RECORD` (R67). -/
  | mtimeRecord
  /-- `HOURLY_SCORE_DECAY` (R145). -/
  | hourlyScoreDecay
  /-- `ADMIN_QUEUE_START` (R66). -/
  | adminQueueStart
  /-- `ADMIN_QUEUE_STOP` (R66). -/
  | adminQueueStop
  /-- `SCRUB_FORCE` (R57); subject: x the stack. -/
  | scrubForce
  /-- `LEASE_START` (R147); subject: x the lease. -/
  | leaseStart
  /-- `LEASE_DRAIN_DONE` (R148); subject: x the lease. -/
  | leaseDrainDone
  /-- `LEASE_RETURN` (R150); subject: x the lease. -/
  | leaseReturn
  /-- `LEASE_RETIRE` (R151); subject: x the lease. -/
  | leaseRetire
  /-- `MIGRATION_SWITCH` (R161); subject: x the mig. -/
  | migrationSwitch
  /-- `PEER_HOLD_EXPIRY` (R161); subject: x the mig, y the module. -/
  | peerHoldExpiry
  /-- `DOMAIN_WRITEBACK_DONE` (R50); subject: x the die, y the k. -/
  | domainWritebackDone
  /-- `DOMAIN_SWITCH_DONE` (R50); subject: x the die, y the k. -/
  | domainSwitchDone
  /-- `DOMAIN_REPLAY_DONE` (R50); subject: x the die, y the k. -/
  | domainReplayDone
  /-- `STALE_GEN_RETURN` (R50); subject: x the die, y the k. -/
  | staleGenReturn
  /-- `WAKE` (R39); subject: x the die, y the stop. -/
  | wake
  /-- `WAKE_RELEASE` (R39); subject: x the msg. -/
  | wakeRelease
  /-- `REPLICA_EVICT` (R45); subject: x the line, y the die. -/
  | replicaEvict
  /-- `INBOX_DELIVER` (R141); subject: x the launch. -/
  | inboxDeliver
  /-- `ACCOUNTING_WINDOW` (R96). -/
  | accountingWindow
  /-- `DRAIN_DONE` (R102); subject: x the team. -/
  | drainDone
  /-- `DRAIN_LIMIT` (R102); subject: x the team. -/
  | drainLimit
  /-- `SAVE_COMPLETE` (R108); subject: x the team. -/
  | saveComplete
  /-- `RESTORE_COMPLETE` (R108); subject: x the team. -/
  | restoreComplete
  /-- `GANG_KILL` (R157); subject: x the launch, y the gang. -/
  | gangKill
  /-- `GANG_RELAUNCH` (R159); subject: x the launch, y the gang. -/
  | gangRelaunch
  /-- `LAUNCH_COMPLETION` (R113); subject: x the launch. -/
  | launchCompletion
  /-- `ACC_FIRSTUSE` (R111); subject: x the team, y the slot. -/
  | accFirstuse
  /-- `STAGING_START` (R124); subject: x the team. -/
  | stagingStart
  /-- `STAGING_COMPLETE` (R130); subject: x the task. -/
  | stagingComplete
  /-- `LS_SHORTAGE` (R127); subject: x the team. -/
  | lsShortage
  /-- `TASK_START` (R128); subject: x the team, y the warp. -/
  | taskStart
  /-- `STEAL_REQUEST` (R138); subject: x the team, y the victim. -/
  | stealRequest
  /-- `STEAL_REQUEST_RECEIVE` (R140); subject: x the thief. -/
  | stealRequestReceive
  /-- `STEAL_REPLY` (R140); subject: x the thief. -/
  | stealReply
  /-- `STEAL_BACKOFF` (R138); subject: x the team. -/
  | stealBackoff
  /-- `STEAL_IDLE_THRESHOLD` (R139); subject: x the team. -/
  | stealIdleThreshold
  /-- `FRAME_STARVED` (R268); subject: x the team. -/
  | frameStarved
  /-- `FRAME_GRANT` (R261); subject: x the team. -/
  | frameGrant
  /-- `PATH_SELECTION` (R169); subject: x the team, y the warp. -/
  | pathSelection
  /-- `STORE_ACK` (R205); subject: x the core, y the store. -/
  | storeAck
  /-- `ENGINE_COMPLETE` (R219); subject: x the op. -/
  | engineComplete
  /-- `COLLECTIVE_COMMIT` (R61); subject: x the launch, y the group. -/
  | collectiveCommit
  /-- `COLLECTIVE_TIMEOUT` (R62); subject: x the launch, y the group. -/
  | collectiveTimeout
  /-- `REDUCTION_ELEMENT_APPLY` (R353); subject: x the launch, y the ctx, z the elem. -/
  | reductionElementApply
  /-- `ACC_SLOT_UPDATE` (R401); subject: x the op. -/
  | accSlotUpdate
  /-- `JOIN_WAKE` (R132); subject: x the cell. -/
  | joinWake
  /-- `DEMAND_ZERO_FILL` (R203); subject: x the asid, y the va. -/
  | demandZeroFill
  /-- `WATCHDOG` (R163); subject: x the task. -/
  | watchdog
  /-- `RECOVERY_CAP_EXPIRY` (R164); subject: x the op. -/
  | recoveryCapExpiry
  /-- `SLEEP_EXPIRY` (R381); subject: x the team, y the warp. -/
  | sleepExpiry
  /-- `POWER_GATE` (R39); subject: x the die, y the stop. -/
  | powerGate
  deriving DecidableEq, Repr

end Sys2Proof
end

