-- ==== Sys2Proof/Decode.lean ====
section
/-! DEFINITION. Encodings (R273-R283, R297): operand shapes, permitted values, the encoder and the decoder. -/

namespace Sys2Proof

/-! ## Codes -/

/-- TYPE code of a type (R280). -/
def Ty.code (t : Ty) : Nat := t.ctorIdx

/-- The type of a TYPE code; 16 to 31 are reserved (R280). -/
def Ty.ofCode : Nat → Option Ty
  | 0 => some .b32 | 1 => some .i8 | 2 => some .i16 | 3 => some .i32 | 4 => some .i64 | 5 => some .n8 | 6 => some .n16
  | 7 => some .n32 | 8 => some .n64 | 9 => some .f32 | 10 => some .f16 | 11 => some .bf16 | 12 => some .e4m3
  | 13 => some .e5m2 | 14 => some .ds8 | 15 => some .sp4 | _ => none

/-- Scope code (R208). -/
def Scope.code (s : Scope) : Nat := s.ctorIdx

/-- The scope of a code; 6 and 7 are reserved (R208). -/
def Scope.ofCode : Nat → Option Scope
  | 0 => some .wp | 1 => some .co | 2 => some .cl | 3 => some .di | 4 => some .dv | 5 => some .sy | _ => none

/-- RND code (R281). -/
def Rnd.code (r : Rnd) : Nat := r.ctorIdx

/-- Rounding mode of a 2-bit code (R281). -/
def Rnd.ofCode (n : Nat) : Rnd :=
  match n % 4 with
  | 0 => .rne | 1 => .rz | 2 => .rp | _ => .rm

/-- ORD code (R281). -/
def Ordr.code (o : Ordr) : Nat := o.ctorIdx

/-- Ordering of a 2-bit code (R281). -/
def Ordr.ofCode (n : Nat) : Ordr :=
  match n % 4 with
  | 0 => .none | 1 => .poll | 2 => .acq | _ => .rel

/-- HINT code (R281). -/
def Hint.code (h : Hint) : Nat := h.ctorIdx

/-- Hint of a 2-bit code (R281). -/
def Hint.ofCode (n : Nat) : Hint :=
  match n % 4 with
  | 0 => .none | 1 => .ro | 2 => .nl1 | _ => .str

/-- HOLD code (R184). -/
def Hold.code (h : Hold) : Nat := h.ctorIdx

/-- Held source of a 2-bit code (R184). -/
def Hold.ofCode (n : Nat) : Hold :=
  match n % 4 with
  | 0 => .none | 1 => .a | 2 => .b | _ => .c

/-- SPACE code (R341, R375). -/
def Spc.code (s : Spc) : Nat := s.ctorIdx

/-- Space of a 2-bit code; 3 is illegal (R341, R375). -/
def Spc.ofCode : Nat → Option Spc
  | 0 => some .va | 1 => some .ls | 2 => some .cw | _ => none

/-- Condition code of `icmp` (R319). -/
def ICond.code (c : ICond) : Nat := c.ctorIdx

/-- Integer condition of a code; 6 and 7 are illegal (R319). -/
def ICond.ofCode : Nat → Option ICond
  | 0 => some .eq | 1 => some .ne | 2 => some .lt | 3 => some .le | 4 => some .gt | 5 => some .ge | _ => none

/-- Condition code of `fcmp` (R320). -/
def FCond.code (c : FCond) : Nat := c.ctorIdx

/-- Floating-point condition of a 3-bit code (R320). -/
def FCond.ofCode (n : Nat) : FCond :=
  match n % 8 with
  | 0 => .eq | 1 => .ne | 2 => .lt | 3 => .le | 4 => .gt | 5 => .ge | 6 => .un | _ => .ord

/-- FN code of `lmix` (R318). -/
def LFn.code (f : LFn) : Nat := f.ctorIdx

/-- Function of a 3-bit FN code (R318). -/
def LFn.ofCode (n : Nat) : LFn :=
  match n % 8 with
  | 0 => .andor | 1 => .orand | 2 => .xor3 | 3 => .maj | 4 => .mux | 5 => .andxor | 6 => .orxor | _ => .xorand

/-- op code of `wred` and `wscan` (R325). -/
def RedOp.code (o : RedOp) : Nat := o.ctorIdx

/-- Operator of an op code; 6 and 7 are illegal (R325). -/
def RedOp.ofCode : Nat → Option RedOp
  | 0 => some .add | 1 => some .min | 2 => some .max | 3 => some .and | 4 => some .or | 5 => some .xor | _ => none

/-- op code of `rctx` and `crs` (R350, R379). -/
def SumOp.code (o : SumOp) : Nat := o.ctorIdx

/-- Operator of an op code; 3 to 7 are illegal (R350, R379). -/
def SumOp.ofCode : Nat → Option SumOp
  | 0 => some .add | 1 => some .min | 2 => some .max | _ => none

/-- SUB code of `alog` (R345). -/
def LogOp.code (o : LogOp) : Nat := o.ctorIdx

/-- Operator of a SUB code; 3 is illegal (R345). -/
def LogOp.ofCode : Nat → Option LogOp
  | 0 => some .and | 1 => some .or | 2 => some .xor | _ => none

/-- AF and BF code (R394). -/
def MFmt.code (f : MFmt) : Nat := f.ctorIdx

/-- Matrix format of a code; 5 to 7 are illegal (R394). -/
def MFmt.ofCode : Nat → Option MFmt
  | 0 => some .bf16 | 1 => some .f16 | 2 => some .e4m3 | 3 => some .e5m2 | 4 => some .i8 | _ => none

/-- T code of `acc.st` (R405). -/
def AccT.code : AccT → Nat
  | .b32 => 0 | .f16 => 10 | .bf16 => 11 | .e4m3 => 12 | .e5m2 => 13

/-- Element format of a T code (R405). -/
def AccT.ofCode : Nat → Option AccT
  | 0 => some .b32 | 10 => some .f16 | 11 => some .bf16 | 12 => some .e4m3 | 13 => some .e5m2 | _ => none

/-- Number of a special register (R296). -/
def SReg.code : SReg → Nat
  | .lane => 0x00 | .warp => 0x01 | .team => 0x02 | .core => 0x03 | .cluster => 0x04 | .die => 0x05 | .device => 0x06
  | .clock => 0x08 | .prio => 0x0A | .fpstat => 0x0B | .frameDepth => 0x0C | .capacity => 0x0E | .noteSeq => 0x10
  | .xsteal => 0x11 | .trapvec => 0x12 | .faultPc => 0x14 | .faultCause => 0x16 | .faultLanes => 0x17
  | .faultAddr => 0x18 | .asid => 0x1A | .partition => 0x1B | .inbox => 0x1C | .mtime => 0x1E | .accOwner => 0x20
  | .leaseState => 0x21

/-- Special register of a number; the numbers not listed are reserved (R296). -/
def SReg.ofCode : Nat → Option SReg
  | 0x00 => some .lane | 0x01 => some .warp | 0x02 => some .team | 0x03 => some .core | 0x04 => some .cluster
  | 0x05 => some .die | 0x06 => some .device | 0x08 => some .clock | 0x0A => some .prio | 0x0B => some .fpstat
  | 0x0C => some .frameDepth | 0x0E => some .capacity | 0x10 => some .noteSeq | 0x11 => some .xsteal
  | 0x12 => some .trapvec | 0x14 => some .faultPc | 0x16 => some .faultCause | 0x17 => some .faultLanes
  | 0x18 => some .faultAddr | 0x1A => some .asid | 0x1B => some .partition | 0x1C => some .inbox | 0x1E => some .mtime
  | 0x20 => some .accOwner | 0x21 => some .leaseState | _ => none

/-- Special registers that are pairs (R296). -/
def SReg.isPair (r : SReg) : Bool :=
  r matches .clock | .capacity | .trapvec | .faultPc | .faultAddr | .inbox | .mtime

/-- Privileged special registers (R296). -/
def SReg.isPriv (r : SReg) : Bool := r matches .accOwner | .leaseState

/-! ## Types -/

/-- 64-bit integer types (R280). -/
def Ty.is64 (t : Ty) : Bool := t matches .i64 | .n64

/-- The 32-bit integer types. -/
def Ty.is32 (t : Ty) : Bool := t matches .i32 | .n32

/-- The six types of `iadd` (R313). -/
def Ty.isInt6 (t : Ty) : Bool := t matches .i8 | .i16 | .i32 | .n8 | .n16 | .n32

/-- The packed 16-bit formats (R387). -/
def Ty.isHalf (t : Ty) : Bool := t matches .f16 | .bf16

/-- The types of scalar loads and stores (R332). -/
def Ty.isMem (t : Ty) : Bool := t matches .i8 | .n8 | .i16 | .n16 | .b32 | .i64 | .n64

/-- The types of `aadd`, `amin` and `amax` (R345). -/
def Ty.isAtomInt (t : Ty) : Bool := t matches .i32 | .n32 | .i64 | .n64

/-- The types of `alog`, `axchg` and `acas` (R345). -/
def Ty.isAtomBits (t : Ty) : Bool := t matches .b32 | .n64

/-! ## Bit fields -/

/-- Bit n of a field. -/
def bit (w n : Nat) : Bool := w / 2 ^ n % 2 = 1

/-- MOD of class A (R279). -/
def modA (t : Ty) (rnd : Rnd) (sat : Bool) (opx : Nat) : Nat := 2048 * t.code + 512 * rnd.code + 256 * sat.toNat + opx

/-- MOD of class M (R279). -/
def modM (t : Ty) (s : Scope) (o : Ordr) (h : Hint) (opx : Nat) : Nat :=
  2048 * t.code + 256 * s.code + 64 * o.code + 16 * h.code + opx

/-- OPX of a count operand: I above n (R315, R322). -/
def Count.opx {w : Nat} : Count w → Nat
  | .reg _ => 0
  | .imm n => 2 ^ w + n.toNat

/-- The register of a count operand. -/
def Count.breg {w : Nat} : Count w → Option Reg
  | .reg b => some b
  | .imm _ => none

/-- The count operand of OPX and field B. -/
def Count.of (w opx b : Nat) : Count w := if bit opx w then .imm (.ofNat w opx) else .reg (.ofNat 8 b)

/-- OPX of `bcast` (R322). -/
def bcastOpx : Option (BitVec 5) → Nat
  | none => 0
  | some n => 32 + n.toNat

/-- EXT or IMM24 bits of a cell reference (R372). -/
def cellBits : CellRef → Nat
  | none => 0
  | some n => 2 ^ 15 + n.toNat

/-- The cell reference of EXT or IMM24 bits (R372). -/
def cellOf (e : Nat) : CellRef := if bit e 15 then some (.ofNat 15 e) else none

/-- EXT of a tile shape (R341). -/
def TileShape.ext : TileShape → Nat
  | .imm r b _ => r.toNat + 64 * b.toNat
  | .reg _ _ => 2 ^ 15

/-- IMM32 of a tile shape (R341). -/
def TileShape.imm32 : TileShape → Nat
  | .imm _ _ s => s.toNat
  | .reg _ _ => 0

/-- Register C of a tile shape (R341). -/
def TileShape.creg : TileShape → Option Reg
  | .imm .. => none
  | .reg c _ => some c

/-- Register X of a tile shape (R341). -/
def TileShape.xreg : TileShape → Option Reg
  | .imm .. => none
  | .reg _ x => some x

/-- The tile shape of EXT, IMM32, C and X (R341). -/
def TileShape.of (ext imm c x : Nat) : TileShape :=
  if bit ext 15 then .reg (.ofNat 8 c) (.ofNat 8 x)
  else .imm (.ofNat 6 ext) (.ofNat 4 (ext / 64)) (.ofNat 32 imm)

/-- OPX of a scope operand (R363). -/
def FsRef.opx : FsRef → Nat
  | .imm s => s.toNat
  | .reg _ => 256

/-- Register A of a scope operand (R363). -/
def FsRef.areg : FsRef → Option Reg
  | .imm _ => none
  | .reg a => some a

/-- The scope operand of OPX and field A (R363). -/
def FsRef.of (opx a : Nat) : FsRef := if bit opx 8 then .reg (.ofNat 8 a) else .imm (.ofNat 8 opx)

/-- OPX of a matrix operation (R394). -/
def MmaF.opx (f : MmaF) : Nat :=
  f.dslot.toNat + 64 * f.q.toNat + 256 * f.sh.toNat + 512 * f.af.code + 4096 * f.bf.code + 2 ^ 15 * f.za.toNat

/-- EXT of a chained operation (R394). -/
def ChainF.ext (s : ChainF) : Nat := s.sslot.toNat + 64 * s.hs.toNat

/-! ## Operand shapes -/

/-- What a register field holds (R299, R327): unused, destination, destination pair, four destinations, source, source
pair, window base. -/
inductive Opd where
  | none
  | d (r : Reg)
  | dp (r : Reg)
  | d4 (r : Reg)
  | src (r : Reg)
  | pair (r : Reg)
  | win (r : Reg)
  deriving DecidableEq, Repr

/-- The number a field holds; unused fields hold zero (R182). -/
def Opd.field : Opd → Nat
  | .none => 0
  | .d r | .dp r | .d4 r | .src r | .pair r | .win r => r.toNat

/-- A destination of type t: a pair for a 64-bit type (R280). -/
def Opd.dst (t : Ty) (r : Reg) : Opd := if t.is64 then .dp r else .d r

/-- A source of type t: a pair for a 64-bit type (R280). -/
def Opd.srcOf (t : Ty) (r : Reg) : Opd := if t.is64 then .pair r else .src r

/-- An address: a pair in the virtual space, one register otherwise (R329). -/
def Opd.inSpace (s : Spc) (r : Reg) : Opd := if s = .va then .pair r else .src r

/-- A source pair that may be absent. -/
def Opd.optPair : Option Reg → Opd
  | .none => .none
  | some r => .pair r

/-- A source that may be absent. -/
def Opd.count : Option Reg → Opd
  | .none => .none
  | some r => .src r

/-- Whether the field names a register that is read as a source (R184). -/
def Opd.isSource : Opd → Bool
  | .src _ | .pair _ => true
  | _ => false

/-- Alignment of the register number: pairs are even (R180), groups of four a multiple of 4 (R327, R362). -/
def Opd.aligned : Opd → Bool
  | .dp r | .pair r => r.toNat % 2 == 0
  | .d4 r => r.toNat % 4 == 0
  | _ => true

/-- Registers a field names; the base alone for a window (R180, R299). -/
def Opd.regs : Opd → List Nat
  | .none => []
  | .d r | .src r | .win r => [r.toNat]
  | .dp r | .pair r => [r.toNat, r.toNat + 1]
  | .d4 r => [r.toNat, r.toNat + 1, r.toNat + 2, r.toNat + 3]

/-- Latency classes (R282). -/
inductive Lat where
  | f | l | w
  deriving DecidableEq, Repr

/-- The operand fields of an instruction, its control fields, latency class and whether it is privileged. -/
structure Shape where
  ctl : Ctl := ⟨none, .none, false⟩
  d : Opd := .none
  a : Opd := .none
  b : Opd := .none
  c : Opd := .none
  x : Opd := .none
  lat : Lat := .f
  priv : Bool := false
  deriving DecidableEq, Repr, Inhabited

/-- Whether an event is a command of a queue (R72, R73). -/
def Instr.isCommand : Instr → Bool
  | .unknownCommand .. | .queueCreate .. | .queueDestroy .. | .partCreate .. | .partSet .. | .partDestroy ..
  | .ctxCreate .. | .ctxDestroy .. | .mapPages .. | .unmapPages .. | .discardRange .. | .launch ..
  | .cancel .. | .leasePolicy .. | .leaseNow .. | .retireRead .. | .attest .. | .domainSplit ..
  | .domainMerge .. | .patchStage .. | .resetWarm .. | .resetFull .. | .mgmtRead .. | .mgmtWrite .. => true
  | _ => false

/-- The operand fields, latency class and privilege of each instruction (R282, R299, R327, R362 and the tables of each
group). An event has none. -/
def Instr.shape : Instr → Shape
  | .powerOn .. | .hostLinkTrain .. | .registerWrite .. | .rplctlWrite .. | .tailWrite .. | .eventHeadWrite ..
  | .unknownCommand .. | .queueCreate .. | .queueDestroy .. | .partCreate .. | .partSet .. | .partDestroy ..
  | .ctxCreate .. | .ctxDestroy .. | .mapPages .. | .unmapPages .. | .discardRange .. | .launch ..
  | .cancel .. | .leasePolicy .. | .leaseNow .. | .retireRead .. | .attest .. | .domainSplit ..
  | .domainMerge .. | .patchStage .. | .resetWarm .. | .resetFull .. | .mgmtRead .. | .mgmtWrite ..
  | .correctedError .. | .uncorrectableError .. | .scrubPass .. | .scrubYield .. | .leaseTestDone .. | .hostSnoop ..
  | .hostHdmAccess .. | .peerMemoryRequest .. | .peerReply .. | .peerTask .. | .peerFuture .. | .operationComplete ..
  | .undervoltage | .peerLinkUp | .peerLinkRecovering | .peerLinkDown | .thermalStepDown | .thermalStepUp
  | .thermalHalt | .mtimeRecord | .hourlyScoreDecay | .adminQueueStart | .adminQueueStop | .scrubForce
  | .leaseStart | .leaseDrainDone | .leaseReturn | .leaseRetire | .migrationSwitch | .peerHoldExpiry
  | .domainWritebackDone | .domainSwitchDone | .domainReplayDone | .staleGenReturn | .wake | .wakeRelease
  | .replicaEvict | .inboxDeliver | .accountingWindow | .drainDone | .drainLimit | .saveComplete
  | .restoreComplete | .gangKill | .gangRelaunch | .launchCompletion | .accFirstuse | .stagingStart
  | .stagingComplete | .lsShortage | .taskStart | .stealRequest | .stealRequestReceive | .stealReply
  | .stealBackoff | .stealIdleThreshold | .frameStarved | .frameGrant | .pathSelection | .storeAck
  | .engineComplete | .collectiveCommit | .collectiveTimeout | .reductionElementApply | .accSlotUpdate | .joinWake
  | .demandZeroFill | .watchdog | .recoveryCapExpiry | .sleepExpiry | .powerGate => default
  | .nop c => { ctl := c }
  | .bra c _ => { ctl := c }
  | .braAny c a _ => { ctl := c, a := .src a }
  | .braAll c a _ => { ctl := c, a := .src a }
  | .jmp c a => { ctl := c, a := .pair a }
  | .call c _ _ w _ => { ctl := c, a := .win w }
  | .callI c _ _ a w => { ctl := c, a := .pair a, b := .win w }
  | .ret c => { ctl := c }
  | .unwindTo c s => { ctl := c, a := .win s }
  | .exit c => { ctl := c }
  | .yield c => { ctl := c }
  | .setpri c _ => { ctl := c }
  | .wflag c _ => { ctl := c }
  | .trap c _ ad => { ctl := c, a := .optPair ad }
  | .iadd c _ _ d a b => { ctl := c, d := .d d, a := .src a, b := .src b }
  | .isub c _ _ d a b => { ctl := c, d := .d d, a := .src a, b := .src b }
  | .imul c _ _ d a b => { ctl := c, d := .d d, a := .src a, b := .src b }
  | .imulhi c _ d a b => { ctl := c, d := .d d, a := .src a, b := .src b }
  | .imad c _ _ d a b e => { ctl := c, d := .d d, a := .src a, b := .src b, c := .src e }
  | .ineg c _ d a => { ctl := c, d := .d d, a := .src a }
  | .iabs c _ d a => { ctl := c, d := .d d, a := .src a }
  | .imin c _ d a b => { ctl := c, d := .d d, a := .src a, b := .src b }
  | .imax c _ d a b => { ctl := c, d := .d d, a := .src a, b := .src b }
  | .iaddW c _ _ d a b => { ctl := c, d := .dp d, a := .pair a, b := .pair b }
  | .isubW c _ _ d a b => { ctl := c, d := .dp d, a := .pair a, b := .pair b }
  | .imulW c _ d a b => { ctl := c, d := .dp d, a := .src a, b := .src b }
  | .imadW c _ d a b e => { ctl := c, d := .dp d, a := .src a, b := .src b, c := .pair e }
  | .lea c _ _ d a b _ => { ctl := c, d := .dp d, a := .pair a, b := .src b }
  | .mov c d a => { ctl := c, d := .d d, a := .src a }
  | .movW c d a => { ctl := c, d := .dp d, a := .pair a }
  | .movi c d _ => { ctl := c, d := .d d }
  | .moviL c t d _ => { ctl := c, d := .dst t d }
  | .iaddi c _ _ d a _ => { ctl := c, d := .d d, a := .src a }
  | .idiv c _ _ d a b => { ctl := c, d := .d d, a := .src a, b := .src b, lat := .l }
  | .irem c _ d a b => { ctl := c, d := .d d, a := .src a, b := .src b, lat := .l }
  | .sad c _ d a b e => { ctl := c, d := .d d, a := .src a, b := .src b, c := .src e }
  | .and c d a b => { ctl := c, d := .d d, a := .src a, b := .src b }
  | .or c d a b => { ctl := c, d := .d d, a := .src a, b := .src b }
  | .xor c d a b => { ctl := c, d := .d d, a := .src a, b := .src b }
  | .not c d a => { ctl := c, d := .d d, a := .src a }
  | .lmix c _ _ d a b e => { ctl := c, d := .d d, a := .src a, b := .src b, c := .src e }
  | .shl c d a k => { ctl := c, d := .d d, a := .src a, b := .count k.breg }
  | .shr c d a k => { ctl := c, d := .d d, a := .src a, b := .count k.breg }
  | .sar c d a k => { ctl := c, d := .d d, a := .src a, b := .count k.breg }
  | .rot c d a k => { ctl := c, d := .d d, a := .src a, b := .count k.breg }
  | .shlW c d a k => { ctl := c, d := .dp d, a := .pair a, b := .count k.breg }
  | .shrW c _ d a k => { ctl := c, d := .dp d, a := .pair a, b := .count k.breg }
  | .bfe c _ d a _ _ => { ctl := c, d := .d d, a := .src a }
  | .bfi c d a b _ _ => { ctl := c, d := .d d, a := .src a, b := .src b }
  | .popc c d a => { ctl := c, d := .d d, a := .src a }
  | .clz c d a => { ctl := c, d := .d d, a := .src a }
  | .brev c d a => { ctl := c, d := .d d, a := .src a }
  | .icmp c _ _ d a b => { ctl := c, d := .d d, a := .src a, b := .src b }
  | .icmpW c _ _ d a b => { ctl := c, d := .d d, a := .pair a, b := .pair b }
  | .fcmp c _ d a b => { ctl := c, d := .d d, a := .src a, b := .src b }
  | .sel c t d a b e => { ctl := c, d := .dst t d, a := .srcOf t a, b := .srcOf t b, c := .src e }
  | .ballot c d a => { ctl := c, d := .d d, a := .src a }
  | .shfl c d a k => { ctl := c, d := .d d, a := .src a, b := .count k.breg }
  | .shflUp c d a k => { ctl := c, d := .d d, a := .src a, b := .count k.breg }
  | .shflDown c d a k => { ctl := c, d := .d d, a := .src a, b := .count k.breg }
  | .shflXor c d a k => { ctl := c, d := .d d, a := .src a, b := .count k.breg }
  | .bcast c d a _ => { ctl := c, d := .d d, a := .src a }
  | .wred c _ _ _ d a => { ctl := c, d := .d d, a := .src a }
  | .wscan c _ _ _ _ d a => { ctl := c, d := .d d, a := .src a }
  | .fadd c _ d a b => { ctl := c, d := .d d, a := .src a, b := .src b }
  | .fsub c _ d a b => { ctl := c, d := .d d, a := .src a, b := .src b }
  | .fmul c _ d a b => { ctl := c, d := .d d, a := .src a, b := .src b }
  | .ffma c _ d a b e => { ctl := c, d := .d d, a := .src a, b := .src b, c := .src e }
  | .fmin c d a b => { ctl := c, d := .d d, a := .src a, b := .src b }
  | .fmax c d a b => { ctl := c, d := .d d, a := .src a, b := .src b }
  | .fabs c d a => { ctl := c, d := .d d, a := .src a }
  | .fneg c d a => { ctl := c, d := .d d, a := .src a }
  | .ffloor c d a => { ctl := c, d := .d d, a := .src a }
  | .fceil c d a => { ctl := c, d := .d d, a := .src a }
  | .ftrunc c d a => { ctl := c, d := .d d, a := .src a }
  | .frint c _ d a => { ctl := c, d := .d d, a := .src a }
  | .fclass c d a => { ctl := c, d := .d d, a := .src a }
  | .fscale c _ d a b => { ctl := c, d := .d d, a := .src a, b := .src b }
  | .ffrac c _ d a => { ctl := c, d := .d d, a := .src a }
  | .frcp c _ d a => { ctl := c, d := .d d, a := .src a, lat := .l }
  | .frsq c _ d a => { ctl := c, d := .d d, a := .src a, lat := .l }
  | .fsqrt c _ d a => { ctl := c, d := .d d, a := .src a, lat := .l }
  | .fdiv c _ d a b => { ctl := c, d := .d d, a := .src a, b := .src b, lat := .l }
  | .fexp2 c d a => { ctl := c, d := .d d, a := .src a, lat := .l }
  | .flog2 c d a => { ctl := c, d := .d d, a := .src a, lat := .l }
  | .fsin c d a => { ctl := c, d := .d d, a := .src a, lat := .l }
  | .fcos c d a => { ctl := c, d := .d d, a := .src a, lat := .l }
  | .ftanh c d a => { ctl := c, d := .d d, a := .src a, lat := .l }
  | .hadd c _ _ d a b => { ctl := c, d := .d d, a := .src a, b := .src b }
  | .hsub c _ _ d a b => { ctl := c, d := .d d, a := .src a, b := .src b }
  | .hmul c _ _ d a b => { ctl := c, d := .d d, a := .src a, b := .src b }
  | .hfma c _ _ d a b e => { ctl := c, d := .d d, a := .src a, b := .src b, c := .src e }
  | .hmin c _ d a b => { ctl := c, d := .d d, a := .src a, b := .src b }
  | .hmax c _ d a b => { ctl := c, d := .d d, a := .src a, b := .src b }
  | .hdot2 c _ _ d a b e => { ctl := c, d := .d d, a := .src a, b := .src b, c := .src e }
  | .hcmp c _ _ d a b => { ctl := c, d := .d d, a := .src a, b := .src b }
  | .cvt c _ _ _ _ d a => { ctl := c, d := .d d, a := .src a }
  | .cvtW c dst src _ _ d a => { ctl := c, d := .dst dst d, a := .srcOf src a }
  | .icvt c _ _ _ _ d a => { ctl := c, d := .d d, a := .src a }
  | .cvtX2 c dst _ _ _ d a b => { ctl := c, d := if dst == .f32 then .dp d else .d d, a := .src a, b := if dst == .f32 then .none else .src b }
  | .cvtX4 c dst _ _ _ d a b e x => { ctl := c, d := if dst == .f32 then .d4 d else .d d, a := .src a, b := if dst == .f32 then .none else .src b, c := if dst == .f32 then .none else .src e, x := if dst == .f32 then .none else .src x }
  | .cvtEl c _ d a b => { ctl := c, d := .d d, a := .src a, b := .src b }
  | .cvtPk c d a b => { ctl := c, d := .d d, a := .src a, b := .src b, lat := .l }
  | .ld c m d a _ => { ctl := c, d := .dst m.ty d, a := .pair a, lat := .l }
  | .ldX4 c _ d a _ => { ctl := c, d := .d4 d, a := .pair a, lat := .l }
  | .st c m a b _ => { ctl := c, a := .pair a, b := .srcOf m.ty b }
  | .ldl c m d a _ => { ctl := c, d := .dst m.ty d, a := .src a, lat := .l }
  | .ldlX4 c _ d a _ => { ctl := c, d := .d4 d, a := .src a, lat := .l }
  | .stl c m a b _ => { ctl := c, a := .src a, b := .srcOf m.ty b }
  | .ldw c m d a _ => { ctl := c, d := .dst m.ty d, a := .src a, lat := .l }
  | .ldwX4 c _ d a _ => { ctl := c, d := .d4 d, a := .src a, lat := .l }
  | .stw c m a b _ => { ctl := c, a := .src a, b := .srcOf m.ty b }
  | .pf c _ a _ => { ctl := c, a := .pair a }
  | .tld c t a b => { ctl := c, a := .inSpace t.space a, b := .src b, c := .count t.shape.creg, x := .count t.shape.xreg, lat := .l }
  | .tst c t a b => { ctl := c, a := .inSpace t.space a, b := .src b, c := .count t.shape.creg, x := .count t.shape.xreg, lat := .l }
  | .pft c _ a b _ _ => { ctl := c, a := .pair a, b := .src b }
  | .dcinv c => { ctl := c }
  | .icinv c => { ctl := c }
  | .dsc c a b => { ctl := c, a := .pair a, b := .src b, lat := .l }
  | .cwb c a b => { ctl := c, a := .pair a, b := .src b, lat := .l }
  | .aadd c m d a b _ => { ctl := c, d := if m.nr then .none else .dst m.ty d, a := .inSpace m.space a, b := .srcOf m.ty b, lat := .l }
  | .amin c m d a b _ => { ctl := c, d := if m.nr then .none else .dst m.ty d, a := .inSpace m.space a, b := .srcOf m.ty b, lat := .l }
  | .amax c m d a b _ => { ctl := c, d := if m.nr then .none else .dst m.ty d, a := .inSpace m.space a, b := .srcOf m.ty b, lat := .l }
  | .alog c _ m d a b _ => { ctl := c, d := if m.nr then .none else .dst m.ty d, a := .inSpace m.space a, b := .srcOf m.ty b, lat := .l }
  | .axchg c m d a b _ => { ctl := c, d := if m.nr then .none else .dst m.ty d, a := .inSpace m.space a, b := .srcOf m.ty b, lat := .l }
  | .acas c m d a b e _ => { ctl := c, d := if m.nr then .none else .dst m.ty d, a := .inSpace m.space a, b := .srcOf m.ty b, c := .srcOf m.ty e, lat := .l }
  | .afadd c _ m d a b _ => { ctl := c, d := if m.nr then .none else .dst m.ty d, a := .inSpace m.space a, b := .srcOf m.ty b, lat := .l }
  | .afmin c m d a b _ => { ctl := c, d := if m.nr then .none else .dst m.ty d, a := .inSpace m.space a, b := .srcOf m.ty b, lat := .l }
  | .afmax c m d a b _ => { ctl := c, d := if m.nr then .none else .dst m.ty d, a := .inSpace m.space a, b := .srcOf m.ty b, lat := .l }
  | .rctx c _ _ _ _ d a b e => { ctl := c, d := .d d, a := .pair a, b := .pair b, c := .src e }
  | .rdet c _ _ a b e => { ctl := c, a := .src a, b := .src b, c := .src e, lat := .l }
  | .rclose c _ d => { ctl := c, d := .d d, lat := .l }
  | .fence c _ => { ctl := c }
  | .acq c _ => { ctl := c }
  | .rel c _ => { ctl := c }
  | .acqRp c t _ d a _ => { ctl := c, d := .dst t d, a := .pair a, lat := .l }
  | .bar c _ a => { ctl := c, a := .src a, lat := .w }
  | .barArr c _ d a => { ctl := c, d := .d d, a := .src a }
  | .barWait c _ a => { ctl := c, a := .src a, lat := .w }
  | .bbInit c a => { ctl := c, a := .src a }
  | .bbExp c d a b => { ctl := c, d := .d d, a := .src a, b := .src b }
  | .bbWait c _ a b => { ctl := c, a := .src a, b := .src b, lat := .w }
  | .spawn c d a => { ctl := c, d := .d d, a := .src a }
  | .spawnR c d a b => { ctl := c, d := .d d, a := .src a, b := .pair b, lat := .l }
  | .join c d a => { ctl := c, d := .dp d, a := .pair a, lat := .w }
  | .joinT c d a => { ctl := c, d := .d4 d, a := .pair a, lat := .w }
  | .resolve c d a b => { ctl := c, d := .d d, a := .pair a, b := .pair b, lat := .l }
  | .taskEnd c v => { ctl := c, a := .optPair v }
  | .finOpen c d a b => { ctl := c, d := .d d, a := .src a, b := .src b, lat := .l }
  | .finClose c s => { ctl := c, a := .count s.areg }
  | .finWait c s => { ctl := c, a := .count s.areg, lat := .w }
  | .capq c _ d => { ctl := c, d := .d d }
  | .bcopy c dst src _ a b e _ => { ctl := c, a := .inSpace dst a, b := .inSpace src b, c := .src e, lat := .l }
  | .bcopy2d c dst src _ a b e x _ => { ctl := c, a := .inSpace dst a, b := .inSpace src b, c := .src e, x := .src x, lat := .l }
  | .gath c p _ a b e _ _ _ _ => { ctl := c, a := .inSpace p a, b := .pair b, c := .src e, lat := .l }
  | .scat c p _ a b e _ _ _ _ => { ctl := c, a := .inSpace p a, b := .pair b, c := .src e, lat := .l }
  | .stage c _ a b _ => { ctl := c, a := .src a, b := .src b, lat := .l }
  | .cgrp c _ _ d a b => { ctl := c, d := .d d, a := .pair a, b := .src b }
  | .cag c dst src a b e x _ _ => { ctl := c, a := .inSpace dst a, b := .inSpace src b, c := .src e, x := .src x, lat := .l }
  | .crs c _ _ dst src a b e x _ _ => { ctl := c, a := .inSpace dst a, b := .inSpace src b, c := .src e, x := .src x, lat := .l }
  | .ca2a c dst src a b e x _ _ => { ctl := c, a := .inSpace dst a, b := .inSpace src b, c := .src e, x := .src x, lat := .l }
  | .cbar c a b _ => { ctl := c, a := .src a, b := .src b, lat := .l }
  | .mma c _ _ _ a b => { ctl := c, a := .src a, b := .src b, lat := .l }
  | .mmaS c _ _ _ a b => { ctl := c, a := .src a, b := .src b, lat := .l }
  | .mmaDs c _ _ _ a b => { ctl := c, a := .src a, b := .src b, lat := .l }
  | .mmaC c _ _ _ b => { ctl := c, b := .src b, lat := .l }
  | .mmaG c _ _ a e x _ _ => { ctl := c, a := .src a, c := .src e, x := .pair x, lat := .l }
  | .mmaGc c _ _ e x _ _ => { ctl := c, c := .src e, x := .pair x, lat := .l }
  | .accAcq c _ => { ctl := c, lat := .l }
  | .accRel c _ => { ctl := c }
  | .accLd c _ _ d => { ctl := c, d := .d4 d, lat := .l }
  | .accSt c _ _ _ _ _ a _ => { ctl := c, a := .src a, lat := .l }
  | .accZero c _ _ _ => { ctl := c }
  | .accQ c _ d => { ctl := c, d := .d d }
  | .movsRead c r _ d => { ctl := c, d := if r.isPair then .dp d else .d d, priv := r.isPriv }
  | .movsWrite c r _ a => { ctl := c, a := if r.isPair then .pair a else .src a, priv := r.isPriv }
  | .sleep c _ => { ctl := c }
  | .ctxSave c d a b => { ctl := c, d := .d d, a := .pair a, b := .src b, lat := .l, priv := true }
  | .ctxLoad c d a b => { ctl := c, d := .d d, a := .pair a, b := .src b, lat := .l, priv := true }
  | .frecRd c a => { ctl := c, a := .pair a, lat := .l, priv := true }
  | .leaseTst c d a _ => { ctl := c, d := .d d, a := .src a, lat := .l, priv := true }
  | .leaseRel c d a => { ctl := c, d := .d d, a := .src a, lat := .l, priv := true }
  | .tlbInv c a b => { ctl := c, a := .pair a, b := .src b, lat := .l, priv := true }
  | .bezelRd c d a _ => { ctl := c, d := .d d, a := .src a, lat := .l, priv := true }
  | .bezelWr c a b _ => { ctl := c, a := .src a, b := .src b, lat := .l, priv := true }

/-! ## Permitted values -/

/-- Cause codes `trap` permits (R310). -/
def trapCode (n : Nat) : Bool := (1 ≤ n && n ≤ 7) || n == 9 || (11 ≤ n && n ≤ 17) || n == 22 || n == 23

/-- Pairings of op, TYPE and RND in `wred` and `wscan` (R325). -/
def redOk (op : RedOp) (t : Ty) (rnd : Rnd) : Bool :=
  match op with
  | .add => t.is32 && rnd == .rne || t == .f32
  | .min | .max => (t.is32 || t == .f32) && rnd == .rne
  | .and | .or | .xor => t == .b32 && rnd == .rne

/-- Narrow floating formats that SAT may serve (R389). -/
def Ty.isNarrow (t : Ty) : Bool := t matches .f16 | .bf16 | .e4m3 | .e5m2

/-- Pairs of `cvt` (R389). -/
def cvtOk (dst src : Ty) (rnd : Rnd) (sat : Bool) : Bool :=
  if dst == .f32 then (src.isNarrow || src == .ds8 || src == .sp4) && rnd == .rne && !sat
  else if src == .f32 then dst.isNarrow || ((dst == .ds8 || dst == .sp4) && !sat)
  else (src == .f16 && dst == .bf16) || (src == .bf16 && dst == .f16)

/-- Pairs of `icvt` (R389). -/
def icvtOk (dst src : Ty) (rnd : Rnd) (sat : Bool) : Bool :=
  if dst == .f32 then src.isInt6 && !sat
  else if src == .f32 then dst.is32 && !sat
  else rnd == .rne &&
    ((src.is32 && (dst matches .i8 | .n8 | .i16 | .n16)) || ((src matches .i16 | .n16) && (dst matches .i8 | .n8)))

/-- Pairs of `cvt.w` (R389). -/
def cvtWOk (dst src : Ty) (rnd : Rnd) (sat : Bool) : Bool :=
  (src.is64 && dst == .f32 && !sat) || (src == .f32 && dst.is64 && !sat) || (src.is64 && dst.is32 && rnd == .rne)

/-- Pairs of `cvt.x2` (R390). -/
def cvtX2Ok (dst src : Ty) (rnd : Rnd) (sat : Bool) : Bool :=
  (dst == .f32 && src.isNarrow && rnd == .rne && !sat) || (src == .f32 && dst.isNarrow)

/-- Pairs of `cvt.x4` (R390). -/
def cvtX4Ok (dst src : Ty) (rnd : Rnd) (sat : Bool) : Bool :=
  (dst == .f32 && (src matches .e4m3 | .e5m2 | .ds8 | .sp4) && rnd == .rne && !sat) ||
    (src == .f32 && ((dst matches .e4m3 | .e5m2) || ((dst matches .ds8 | .sp4) && !sat)))

/-- ORD, SCOPE and HINT of a load (R334, R335). -/
def MemF.loadOk (m : MemF) : Bool :=
  match m.ord with
  | .none => m.scope == .wp
  | .poll | .acq => true
  | .rel => false

/-- ORD, SCOPE and HINT of a store (R334, R335). -/
def MemF.storeOk (m : MemF) : Bool :=
  (m.hint == .none || m.hint == .str) && ((m.ord == .none && m.scope == .wp) || m.ord == .rel)

/-- HINT and shape of a tile access (R341). -/
def TileF.ok (t : TileF) : Bool :=
  t.hint != .nl1 &&
  match t.shape with
  | .imm r b s => r == 0 || (b.toNat + 1) * 16 ≤ s.toNat
  | .reg .. => true

/-- ORD of an atomic (R347). -/
def AtomF.ok (m : AtomF) : Bool := m.ord != .poll

/-- Q is zero unless SH is set (R394). -/
def MmaF.qOk (f : MmaF) : Bool := f.sh || f.q == 0

/-- Matrix formats of 16 bits. -/
def MFmt.is16 (f : MFmt) : Bool := f matches .bf16 | .f16

/-- Floating-point matrix formats of 8 bits. -/
def MFmt.is8 (f : MFmt) : Bool := f matches .e4m3 | .e5m2

/-- AF and BF of one class of floating-point formats (R395). -/
def MmaF.floatOk (f : MmaF) : Bool := (f.af.is16 && f.bf.is16) || (f.af.is8 && f.bf.is8)

/-- `mma` (R394, R395). -/
def MmaF.denseOk (f : MmaF) : Bool := f.qOk && (f.floatOk || (f.af == .i8 && f.bf == .i8))

/-- `mma.s` and `mma.ds` (R394, R395). -/
def MmaF.packedOk (f : MmaF) : Bool := f.qOk && f.bf == .bf16 && f.af != .i8

/-- Formats of a down-converter target and the slots' distance (R394, R395). -/
def MmaF.chainFmt (f : MmaF) (s : ChainF) : Bool :=
  f.qOk && (f.sh || !s.hs) && ((f.af == .bf16 && f.bf.is16) || (f.af.is8 && f.bf.is8))

/-- `mma.c` (R395, R397). -/
def MmaF.chainedOk (f : MmaF) (s : ChainF) : Bool :=
  f.chainFmt s && f.dslot != s.sslot &&
    (!f.af.is8 || (s.sslot.toNat != 63 && f.dslot.toNat != s.sslot.toNat + 1))

/-- `mma.gc` (R395, R399). -/
def MmaF.gatherChainedOk (f : MmaF) (s : ChainF) : Bool := f.chainFmt s && f.dslot != s.sslot

/-- Element size in bytes of an `acc.st` format (R407). -/
def AccT.size : AccT → Nat
  | .b32 => 4
  | .f16 | .bf16 => 2
  | .e4m3 | .e5m2 => 1

/-- `acc.st` (R405). -/
def accStOk (q : BitVec 2) (sh sat : Bool) (t : AccT) (stride : Nat) : Bool :=
  (sh || q == 0) && !(sat && t == .b32) && stride % 16 == 0 &&
    (stride == 0 || (if sh then 16 else 32) * t.size ≤ stride)

/-- Which values of its own fields an instruction permits (R283 and the entry of each instruction). -/
def Instr.permitted : Instr → Bool
  | .trap _ code _ => trapCode code.toNat
  | .iadd _ t _ _ _ _ => t.isInt6
  | .isub _ t _ _ _ _ => t.isInt6
  | .imul _ t _ _ _ _ => t.is32
  | .imulhi _ t _ _ _ => t.is32
  | .imad _ t _ _ _ _ _ => t.is32
  | .imin _ t _ _ _ => t.isInt6
  | .imax _ t _ _ _ => t.isInt6
  | .iaddW _ t _ _ _ _ => t.is64
  | .isubW _ t _ _ _ _ => t.is64
  | .imulW _ t _ _ _ => t.is32
  | .imadW _ t _ _ _ _ => t.is32
  | .lea _ t _ _ _ _ _ => t.is32
  | .moviL _ t _ _ => (t == .b32 || t.is64)
  | .iaddi _ t _ _ _ _ => t.is32
  | .idiv _ t sat _ _ _ => (t == .i32 || (t == .n32 && !sat))
  | .irem _ t _ _ _ => t.is32
  | .sad _ t _ _ _ _ => t.is32
  | .shrW _ t _ _ _ => t.is64
  | .bfe _ t _ _ _ len => (t.is32 && len.toNat ≤ 32)
  | .bfi _ _ _ _ _ len => len.toNat ≤ 32
  | .icmp _ t _ _ _ _ => t.isInt6
  | .icmpW _ t _ _ _ _ => t.is64
  | .sel _ t _ _ _ _ => (t == .b32 || t == .n64)
  | .wred _ op t rnd _ _ => redOk op t rnd
  | .wscan _ _ op t rnd _ _ => redOk op t rnd
  | .hadd _ t _ _ _ _ => t.isHalf
  | .hsub _ t _ _ _ _ => t.isHalf
  | .hmul _ t _ _ _ _ => t.isHalf
  | .hfma _ t _ _ _ _ _ => t.isHalf
  | .hmin _ t _ _ _ => t.isHalf
  | .hmax _ t _ _ _ => t.isHalf
  | .hdot2 _ t _ _ _ _ _ => t.isHalf
  | .hcmp _ t _ _ _ _ => t.isHalf
  | .cvt _ dst src rnd sat _ _ => cvtOk dst src rnd sat
  | .cvtW _ dst src rnd sat _ _ => cvtWOk dst src rnd sat
  | .icvt _ dst src rnd sat _ _ => icvtOk dst src rnd sat
  | .cvtX2 _ dst src rnd sat _ _ b => (cvtX2Ok dst src rnd sat && (dst != .f32 || b == 0))
  | .cvtX4 _ dst src rnd sat _ _ b e x => (cvtX4Ok dst src rnd sat && (dst != .f32 || (b == 0 && e == 0 && x == 0)))
  | .cvtEl _ src _ _ _ => (src == .e4m3 || src == .e5m2 || src == .i8 || src == .ds8 || src == .sp4)
  | .ld _ m _ _ _ => (m.ty.isMem && m.loadOk)
  | .ldX4 _ m _ _ _ => (m.ty == .b32 && m.loadOk)
  | .st _ m _ _ _ => (m.ty.isMem && m.storeOk)
  | .ldl _ m _ _ _ => (m.ty.isMem && m.loadOk && m.hint == .none)
  | .ldlX4 _ m _ _ _ => (m.ty == .b32 && m.loadOk && m.hint == .none)
  | .stl _ m _ _ _ => (m.ty.isMem && m.storeOk && m.hint == .none)
  | .ldw _ m _ _ _ => (m.ty.isMem && m.loadOk && m.hint == .none)
  | .ldwX4 _ m _ _ _ => (m.ty == .b32 && m.loadOk && m.hint == .none)
  | .stw _ m _ _ _ => (m.ty.isMem && m.storeOk && m.hint == .none)
  | .tld _ t _ _ => t.ok
  | .tst _ t _ _ => t.ok
  | .aadd _ m d _ _ _ => (m.ty.isAtomInt && m.ok && (!m.nr || d == 0))
  | .amin _ m d _ _ _ => (m.ty.isAtomInt && m.ok && (!m.nr || d == 0))
  | .amax _ m d _ _ _ => (m.ty.isAtomInt && m.ok && (!m.nr || d == 0))
  | .alog _ _ m d _ _ _ => (m.ty.isAtomBits && m.ok && (!m.nr || d == 0))
  | .axchg _ m d _ _ _ => (m.ty.isAtomBits && m.ok && (!m.nr || d == 0))
  | .acas _ m d _ _ _ _ => (m.ty.isAtomBits && m.ok && (!m.nr || d == 0))
  | .afadd _ _ m d _ _ _ => (m.ty == .f32 && m.ok && (!m.nr || d == 0))
  | .afmin _ m d _ _ _ => (m.ty == .f32 && m.ok && (!m.nr || d == 0))
  | .afmax _ m d _ _ _ => (m.ty == .f32 && m.ok && (!m.nr || d == 0))
  | .rctx _ _ t scope _ _ _ _ _ => ((t == .f32 || t == .bf16 || t == .i32) && (scope == .cl || scope == .di || scope == .dv))
  | .rdet _ t _ _ _ _ => (t == .f32 || t == .bf16 || t == .i32)
  | .acqRp _ t scope _ _ _ => ((t == .b32 || t == .n64) && scope != .wp && scope != .co)
  | .bbWait _ scope _ _ => scope != .wp
  | .capq _ n _ => n.toNat ≤ 6
  | .bcopy _ _ _ scope _ _ _ _ => scope != .wp
  | .bcopy2d _ _ _ scope _ _ _ _ _ => scope != .wp
  | .gath _ _ scope _ _ _ _ _ es _ => (scope != .wp && es.toNat ≤ 5)
  | .scat _ _ scope _ _ _ _ _ es _ => (scope != .wp && es.toNat ≤ 5)
  | .stage _ scope _ _ _ => scope != .wp
  | .cgrp _ scope _ _ _ _ => (scope == .cl || scope == .di || scope == .dv)
  | .cag _ dst src _ _ _ _ _ _ => (dst != .cw && src != .cw)
  | .crs _ _ t dst src _ _ _ _ _ _ => (dst != .cw && src != .cw && (t == .f32 || t == .bf16 || t == .i32))
  | .ca2a _ dst src _ _ _ _ _ _ => (dst != .cw && src != .cw)
  | .mma _ f _ _ _ _ => f.denseOk
  | .mmaS _ f _ _ _ _ => f.packedOk
  | .mmaDs _ f _ _ _ _ => f.packedOk
  | .mmaC _ f s _ _ => f.chainedOk s
  | .mmaG _ f _ _ _ _ _ _ => (f.floatOk && f.qOk)
  | .mmaGc _ f s _ _ _ _ => f.gatherChainedOk s
  | .accSt _ _ q sh sat t _ stride => accStOk q sh sat t stride.toNat
  | .accZero _ _ q sh => (sh || q == 0)
  | .movsRead _ r idx _ => (idx == 0 || r == .accOwner)
  | .movsWrite _ r idx _ => (idx == 0 || r == .accOwner)
  | .powerOn .. | .hostLinkTrain .. | .registerWrite .. | .rplctlWrite .. | .tailWrite .. | .eventHeadWrite ..
  | .unknownCommand .. | .queueCreate .. | .queueDestroy .. | .partCreate .. | .partSet .. | .partDestroy ..
  | .ctxCreate .. | .ctxDestroy .. | .mapPages .. | .unmapPages .. | .discardRange .. | .launch ..
  | .cancel .. | .leasePolicy .. | .leaseNow .. | .retireRead .. | .attest .. | .domainSplit ..
  | .domainMerge .. | .patchStage .. | .resetWarm .. | .resetFull .. | .mgmtRead .. | .mgmtWrite ..
  | .correctedError .. | .uncorrectableError .. | .scrubPass .. | .scrubYield .. | .leaseTestDone .. | .hostSnoop ..
  | .hostHdmAccess .. | .peerMemoryRequest .. | .peerReply .. | .peerTask .. | .peerFuture .. | .operationComplete ..
  | .undervoltage | .peerLinkUp | .peerLinkRecovering | .peerLinkDown | .thermalStepDown | .thermalStepUp
  | .thermalHalt | .mtimeRecord | .hourlyScoreDecay | .adminQueueStart | .adminQueueStop | .scrubForce
  | .leaseStart | .leaseDrainDone | .leaseReturn | .leaseRetire | .migrationSwitch | .peerHoldExpiry
  | .domainWritebackDone | .domainSwitchDone | .domainReplayDone | .staleGenReturn | .wake | .wakeRelease
  | .replicaEvict | .inboxDeliver | .accountingWindow | .drainDone | .drainLimit | .saveComplete
  | .restoreComplete | .gangKill | .gangRelaunch | .launchCompletion | .accFirstuse | .stagingStart
  | .stagingComplete | .lsShortage | .taskStart | .stealRequest | .stealRequestReceive | .stealReply
  | .stealBackoff | .stealIdleThreshold | .frameStarved | .frameGrant | .pathSelection | .storeAck
  | .engineComplete | .collectiveCommit | .collectiveTimeout | .reductionElementApply | .accSlotUpdate | .joinWake
  | .demandZeroFill | .watchdog | .recoveryCapExpiry | .sleepExpiry | .powerGate => true
  | .nop .. | .bra .. | .braAny .. | .braAll .. | .jmp .. | .call .. | .callI .. | .ret ..
  | .unwindTo .. | .exit .. | .yield .. | .setpri .. | .wflag .. | .ineg .. | .iabs .. | .mov ..
  | .movW .. | .movi .. | .and .. | .or .. | .xor .. | .not .. | .lmix .. | .shl ..
  | .shr .. | .sar .. | .rot .. | .shlW .. | .popc .. | .clz .. | .brev .. | .fcmp ..
  | .ballot .. | .shfl .. | .shflUp .. | .shflDown .. | .shflXor .. | .bcast .. | .fadd .. | .fsub ..
  | .fmul .. | .ffma .. | .fmin .. | .fmax .. | .fabs .. | .fneg .. | .ffloor .. | .fceil ..
  | .ftrunc .. | .frint .. | .fclass .. | .fscale .. | .ffrac .. | .frcp .. | .frsq .. | .fsqrt ..
  | .fdiv .. | .fexp2 .. | .flog2 .. | .fsin .. | .fcos .. | .ftanh .. | .cvtPk .. | .pf ..
  | .pft .. | .dcinv .. | .icinv .. | .dsc .. | .cwb .. | .rclose .. | .fence .. | .acq ..
  | .rel .. | .bar .. | .barArr .. | .barWait .. | .bbInit .. | .bbExp .. | .spawn .. | .spawnR ..
  | .join .. | .joinT .. | .resolve .. | .taskEnd .. | .finOpen .. | .finClose .. | .finWait .. | .cbar ..
  | .accAcq .. | .accRel .. | .accLd .. | .accQ .. | .sleep .. | .ctxSave .. | .ctxLoad .. | .frecRd ..
  | .leaseTst .. | .leaseRel .. | .tlbInv .. | .bezelRd .. | .bezelWr .. => true

/-! ## The encoder -/

/-- What an instruction's opcode fixes beside its registers: opcode, LEN, MOD, IMM24 or IMM32, EXT (R277). -/
structure Enc where
  opc : Nat
  len : Nat
  mod : Nat
  imm : Nat
  ext : Nat
  deriving DecidableEq, Repr

/-- Opcode, length class, MOD, immediate and extension of each instruction (R282). -/
def Instr.enc : Instr → Option Enc
  | .powerOn .. | .hostLinkTrain .. | .registerWrite .. | .rplctlWrite .. | .tailWrite .. | .eventHeadWrite ..
  | .unknownCommand .. | .queueCreate .. | .queueDestroy .. | .partCreate .. | .partSet .. | .partDestroy ..
  | .ctxCreate .. | .ctxDestroy .. | .mapPages .. | .unmapPages .. | .discardRange .. | .launch ..
  | .cancel .. | .leasePolicy .. | .leaseNow .. | .retireRead .. | .attest .. | .domainSplit ..
  | .domainMerge .. | .patchStage .. | .resetWarm .. | .resetFull .. | .mgmtRead .. | .mgmtWrite ..
  | .correctedError .. | .uncorrectableError .. | .scrubPass .. | .scrubYield .. | .leaseTestDone .. | .hostSnoop ..
  | .hostHdmAccess .. | .peerMemoryRequest .. | .peerReply .. | .peerTask .. | .peerFuture .. | .operationComplete ..
  | .undervoltage | .peerLinkUp | .peerLinkRecovering | .peerLinkDown | .thermalStepDown | .thermalStepUp
  | .thermalHalt | .mtimeRecord | .hourlyScoreDecay | .adminQueueStart | .adminQueueStop | .scrubForce
  | .leaseStart | .leaseDrainDone | .leaseReturn | .leaseRetire | .migrationSwitch | .peerHoldExpiry
  | .domainWritebackDone | .domainSwitchDone | .domainReplayDone | .staleGenReturn | .wake | .wakeRelease
  | .replicaEvict | .inboxDeliver | .accountingWindow | .drainDone | .drainLimit | .saveComplete
  | .restoreComplete | .gangKill | .gangRelaunch | .launchCompletion | .accFirstuse | .stagingStart
  | .stagingComplete | .lsShortage | .taskStart | .stealRequest | .stealRequestReceive | .stealReply
  | .stealBackoff | .stealIdleThreshold | .frameStarved | .frameGrant | .pathSelection | .storeAck
  | .engineComplete | .collectiveCommit | .collectiveTimeout | .reductionElementApply | .accSlotUpdate | .joinWake
  | .demandZeroFill | .watchdog | .recoveryCapExpiry | .sleepExpiry | .powerGate => none
  | .nop _ => some ⟨0x000, 0, 0, 0, 0⟩
  | .bra _ target => some ⟨0x001, 1, 0, target.toNat, 0⟩
  | .braAny _ _ target => some ⟨0x002, 1, 0, target.toNat, 0⟩
  | .braAll _ _ target => some ⟨0x003, 1, 0, target.toNat, 0⟩
  | .jmp _ _ => some ⟨0x004, 0, 0, 0, 0⟩
  | .call _ mk f _ target => some ⟨0x005, 1, 32 * mk.toNat + f.toNat, target.toNat, 0⟩
  | .callI _ mk f _ _ => some ⟨0x006, 0, 32 * mk.toNat + f.toNat, 0, 0⟩
  | .ret _ => some ⟨0x007, 0, 0, 0, 0⟩
  | .unwindTo _ _ => some ⟨0x008, 0, 0, 0, 0⟩
  | .exit _ => some ⟨0x009, 0, 0, 0, 0⟩
  | .yield _ => some ⟨0x00A, 0, 0, 0, 0⟩
  | .setpri _ n => some ⟨0x00B, 0, n.toNat, 0, 0⟩
  | .wflag _ mask => some ⟨0x00C, 0, mask.toNat, 0, 0⟩
  | .trap _ code ad => some ⟨0x00D, 0, 128 * ad.isSome.toNat + code.toNat, 0, 0⟩
  | .iadd _ t sat _ _ _ => some ⟨0x040, 0, modA t .rne sat 0, 0, 0⟩
  | .isub _ t sat _ _ _ => some ⟨0x041, 0, modA t .rne sat 0, 0, 0⟩
  | .imul _ t sat _ _ _ => some ⟨0x042, 0, modA t .rne sat 0, 0, 0⟩
  | .imulhi _ t _ _ _ => some ⟨0x043, 0, modA t .rne false 0, 0, 0⟩
  | .imad _ t sat _ _ _ _ => some ⟨0x044, 1, modA t .rne sat 0, 0, 0⟩
  | .ineg _ sat _ _ => some ⟨0x045, 0, modA .i32 .rne sat 0, 0, 0⟩
  | .iabs _ sat _ _ => some ⟨0x046, 0, modA .i32 .rne sat 0, 0, 0⟩
  | .imin _ t _ _ _ => some ⟨0x047, 0, modA t .rne false 0, 0, 0⟩
  | .imax _ t _ _ _ => some ⟨0x048, 0, modA t .rne false 0, 0, 0⟩
  | .iaddW _ t sat _ _ _ => some ⟨0x049, 0, modA t .rne sat 0, 0, 0⟩
  | .isubW _ t sat _ _ _ => some ⟨0x04A, 0, modA t .rne sat 0, 0, 0⟩
  | .imulW _ t _ _ _ => some ⟨0x04B, 0, modA t .rne false 0, 0, 0⟩
  | .imadW _ t _ _ _ _ => some ⟨0x04C, 1, modA t .rne false 0, 0, 0⟩
  | .lea _ t sh _ _ _ imm => some ⟨0x04D, 1, modA t .rne false (sh.toNat), imm.toNat, 0⟩
  | .mov _ _ _ => some ⟨0x04E, 0, modA .b32 .rne false 0, 0, 0⟩
  | .movW _ _ _ => some ⟨0x04F, 0, modA .b32 .rne false 0, 0, 0⟩
  | .movi _ _ imm => some ⟨0x050, 1, modA .b32 .rne false 0, imm.toNat, 0⟩
  | .moviL _ t _ imm => some ⟨0x051, 2, modA t .rne false 0, imm.toNat, 0⟩
  | .iaddi _ t sat _ _ imm => some ⟨0x052, 1, modA t .rne sat 0, imm.toNat, 0⟩
  | .idiv _ t sat _ _ _ => some ⟨0x053, 0, modA t .rne sat 0, 0, 0⟩
  | .irem _ t _ _ _ => some ⟨0x054, 0, modA t .rne false 0, 0, 0⟩
  | .sad _ t _ _ _ _ => some ⟨0x055, 1, modA t .rne false 0, 0, 0⟩
  | .and _ _ _ _ => some ⟨0x080, 0, modA .b32 .rne false 0, 0, 0⟩
  | .or _ _ _ _ => some ⟨0x081, 0, modA .b32 .rne false 0, 0, 0⟩
  | .xor _ _ _ _ => some ⟨0x082, 0, modA .b32 .rne false 0, 0, 0⟩
  | .not _ _ _ => some ⟨0x083, 0, modA .b32 .rne false 0, 0, 0⟩
  | .lmix _ fn inv _ _ _ _ => some ⟨0x084, 1, modA .b32 .rne false (fn.code + 8 * inv.a.toNat + 16 * inv.b.toNat + 32 * inv.c.toNat + 64 * inv.d.toNat), 0, 0⟩
  | .shl _ _ _ k => some ⟨0x085, 0, modA .b32 .rne false (k.opx), 0, 0⟩
  | .shr _ _ _ k => some ⟨0x086, 0, modA .b32 .rne false (k.opx), 0, 0⟩
  | .sar _ _ _ k => some ⟨0x087, 0, modA .b32 .rne false (k.opx), 0, 0⟩
  | .rot _ _ _ k => some ⟨0x088, 0, modA .b32 .rne false (k.opx), 0, 0⟩
  | .shlW _ _ _ k => some ⟨0x089, 0, modA .b32 .rne false (k.opx), 0, 0⟩
  | .shrW _ t _ _ k => some ⟨0x08A, 0, modA t .rne false (k.opx), 0, 0⟩
  | .bfe _ t _ _ pos len => some ⟨0x08B, 1, modA t .rne false 0, pos.toNat + 256 * len.toNat, 0⟩
  | .bfi _ _ _ _ pos len => some ⟨0x08C, 1, modA .b32 .rne false 0, pos.toNat + 256 * len.toNat, 0⟩
  | .popc _ _ _ => some ⟨0x08D, 0, modA .b32 .rne false 0, 0, 0⟩
  | .clz _ _ _ => some ⟨0x08E, 0, modA .b32 .rne false 0, 0, 0⟩
  | .brev _ _ _ => some ⟨0x08F, 0, modA .b32 .rne false 0, 0, 0⟩
  | .icmp _ t cond _ _ _ => some ⟨0x0C0, 0, modA t .rne false (cond.code), 0, 0⟩
  | .icmpW _ t cond _ _ _ => some ⟨0x0C1, 0, modA t .rne false (cond.code), 0, 0⟩
  | .fcmp _ cond _ _ _ => some ⟨0x0C2, 0, modA .f32 .rne false (cond.code), 0, 0⟩
  | .sel _ t _ _ _ _ => some ⟨0x0C3, 1, modA t .rne false 0, 0, 0⟩
  | .ballot _ _ _ => some ⟨0x0C4, 0, modA .b32 .rne false 0, 0, 0⟩
  | .shfl _ _ _ k => some ⟨0x0C5, 0, modA .b32 .rne false (k.opx), 0, 0⟩
  | .shflUp _ _ _ k => some ⟨0x0C6, 0, modA .b32 .rne false (k.opx), 0, 0⟩
  | .shflDown _ _ _ k => some ⟨0x0C7, 0, modA .b32 .rne false (k.opx), 0, 0⟩
  | .shflXor _ _ _ k => some ⟨0x0C8, 0, modA .b32 .rne false (k.opx), 0, 0⟩
  | .bcast _ _ _ k => some ⟨0x0C9, 0, modA .b32 .rne false (bcastOpx k), 0, 0⟩
  | .wred _ op t rnd _ _ => some ⟨0x0CA, 0, modA t rnd false (op.code), 0, 0⟩
  | .wscan _ ex op t rnd _ _ => some ⟨0x0CB, 0, modA t rnd false (8 * ex.toNat + op.code), 0, 0⟩
  | .fadd _ rnd _ _ _ => some ⟨0x100, 0, modA .f32 rnd false 0, 0, 0⟩
  | .fsub _ rnd _ _ _ => some ⟨0x101, 0, modA .f32 rnd false 0, 0, 0⟩
  | .fmul _ rnd _ _ _ => some ⟨0x102, 0, modA .f32 rnd false 0, 0, 0⟩
  | .ffma _ rnd _ _ _ _ => some ⟨0x103, 1, modA .f32 rnd false 0, 0, 0⟩
  | .fmin _ _ _ _ => some ⟨0x104, 0, modA .f32 .rne false 0, 0, 0⟩
  | .fmax _ _ _ _ => some ⟨0x105, 0, modA .f32 .rne false 0, 0, 0⟩
  | .fabs _ _ _ => some ⟨0x106, 0, modA .f32 .rne false 0, 0, 0⟩
  | .fneg _ _ _ => some ⟨0x107, 0, modA .f32 .rne false 0, 0, 0⟩
  | .ffloor _ _ _ => some ⟨0x108, 0, modA .f32 .rne false 0, 0, 0⟩
  | .fceil _ _ _ => some ⟨0x109, 0, modA .f32 .rne false 0, 0, 0⟩
  | .ftrunc _ _ _ => some ⟨0x10A, 0, modA .f32 .rne false 0, 0, 0⟩
  | .frint _ rnd _ _ => some ⟨0x10B, 0, modA .f32 rnd false 0, 0, 0⟩
  | .fclass _ _ _ => some ⟨0x10C, 0, modA .f32 .rne false 0, 0, 0⟩
  | .fscale _ rnd _ _ _ => some ⟨0x10D, 0, modA .f32 rnd false 0, 0, 0⟩
  | .ffrac _ rnd _ _ => some ⟨0x10E, 0, modA .f32 rnd false 0, 0, 0⟩
  | .frcp _ rnd _ _ => some ⟨0x10F, 0, modA .f32 rnd false 0, 0, 0⟩
  | .frsq _ rnd _ _ => some ⟨0x110, 0, modA .f32 rnd false 0, 0, 0⟩
  | .fsqrt _ rnd _ _ => some ⟨0x111, 0, modA .f32 rnd false 0, 0, 0⟩
  | .fdiv _ rnd _ _ _ => some ⟨0x112, 0, modA .f32 rnd false 0, 0, 0⟩
  | .fexp2 _ _ _ => some ⟨0x113, 0, modA .f32 .rne false 0, 0, 0⟩
  | .flog2 _ _ _ => some ⟨0x114, 0, modA .f32 .rne false 0, 0, 0⟩
  | .fsin _ _ _ => some ⟨0x115, 0, modA .f32 .rne false 0, 0, 0⟩
  | .fcos _ _ _ => some ⟨0x116, 0, modA .f32 .rne false 0, 0, 0⟩
  | .ftanh _ _ _ => some ⟨0x117, 0, modA .f32 .rne false 0, 0, 0⟩
  | .hadd _ t rnd _ _ _ => some ⟨0x140, 0, modA t rnd false 0, 0, 0⟩
  | .hsub _ t rnd _ _ _ => some ⟨0x141, 0, modA t rnd false 0, 0, 0⟩
  | .hmul _ t rnd _ _ _ => some ⟨0x142, 0, modA t rnd false 0, 0, 0⟩
  | .hfma _ t rnd _ _ _ _ => some ⟨0x143, 1, modA t rnd false 0, 0, 0⟩
  | .hmin _ t _ _ _ => some ⟨0x144, 0, modA t .rne false 0, 0, 0⟩
  | .hmax _ t _ _ _ => some ⟨0x145, 0, modA t .rne false 0, 0, 0⟩
  | .hdot2 _ t rnd _ _ _ _ => some ⟨0x146, 1, modA t rnd false 0, 0, 0⟩
  | .hcmp _ t cond _ _ _ => some ⟨0x147, 0, modA t .rne false (cond.code), 0, 0⟩
  | .cvt _ dst src rnd sat _ _ => some ⟨0x148, 0, modA dst rnd sat (src.code), 0, 0⟩
  | .cvtW _ dst src rnd sat _ _ => some ⟨0x149, 0, modA dst rnd sat (src.code), 0, 0⟩
  | .icvt _ dst src rnd sat _ _ => some ⟨0x14A, 0, modA dst rnd sat (src.code), 0, 0⟩
  | .cvtX2 _ dst src rnd sat _ _ _ => some ⟨0x14B, 0, modA dst rnd sat (src.code), 0, 0⟩
  | .cvtX4 _ dst src rnd sat _ _ _ _ _ => some ⟨0x14C, 2, modA dst rnd sat (src.code), 0, 0⟩
  | .cvtEl _ src _ _ _ => some ⟨0x14D, 0, modA .f32 .rne false (src.code), 0, 0⟩
  | .cvtPk _ _ _ _ => some ⟨0x14E, 1, modA .f32 .rne false 0, 0, 0⟩
  | .ld _ m _ _ off => some ⟨0x180, 1, modM m.ty m.scope m.ord m.hint 0, off.toNat, 0⟩
  | .ldX4 _ m _ _ off => some ⟨0x181, 1, modM m.ty m.scope m.ord m.hint 0, off.toNat, 0⟩
  | .st _ m _ _ off => some ⟨0x182, 1, modM m.ty m.scope m.ord m.hint 0, off.toNat, 0⟩
  | .ldl _ m _ _ off => some ⟨0x183, 1, modM m.ty m.scope m.ord m.hint 0, off.toNat, 0⟩
  | .ldlX4 _ m _ _ off => some ⟨0x184, 1, modM m.ty m.scope m.ord m.hint 0, off.toNat, 0⟩
  | .stl _ m _ _ off => some ⟨0x185, 1, modM m.ty m.scope m.ord m.hint 0, off.toNat, 0⟩
  | .ldw _ m _ _ off => some ⟨0x186, 1, modM m.ty m.scope m.ord m.hint 0, off.toNat, 0⟩
  | .ldwX4 _ m _ _ off => some ⟨0x187, 1, modM m.ty m.scope m.ord m.hint 0, off.toNat, 0⟩
  | .stw _ m _ _ off => some ⟨0x188, 1, modM m.ty m.scope m.ord m.hint 0, off.toNat, 0⟩
  | .pf _ hint _ off => some ⟨0x189, 1, modM .b32 .wp .none hint 0, off.toNat, 0⟩
  | .tld _ t _ _ => some ⟨0x1C0, 2, modM .b32 t.scope .none t.hint (t.space.code), t.shape.imm32, t.shape.ext⟩
  | .tst _ t _ _ => some ⟨0x1C1, 2, modM .b32 t.scope .none t.hint (t.space.code), t.shape.imm32, t.shape.ext⟩
  | .pft _ hint _ _ rowsM1 rowb => some ⟨0x1C2, 1, modM .b32 .wp .none hint 0, rowsM1.toNat + 64 * rowb.toNat, 0⟩
  | .dcinv _ => some ⟨0x1C3, 0, modM .b32 .wp .none .none 0, 0, 0⟩
  | .icinv _ => some ⟨0x1C4, 0, modM .b32 .wp .none .none 0, 0, 0⟩
  | .dsc _ _ _ => some ⟨0x1C5, 1, modM .b32 .wp .none .none 0, 0, 0⟩
  | .cwb _ _ _ => some ⟨0x1C6, 1, modM .b32 .wp .none .none 0, 0, 0⟩
  | .aadd _ m _ _ _ off => some ⟨0x200, 1, modM m.ty m.scope m.ord .none (m.space.code + 4 * m.nr.toNat), off.toNat, 0⟩
  | .amin _ m _ _ _ off => some ⟨0x201, 1, modM m.ty m.scope m.ord .none (m.space.code + 4 * m.nr.toNat), off.toNat, 0⟩
  | .amax _ m _ _ _ off => some ⟨0x202, 1, modM m.ty m.scope m.ord .none (m.space.code + 4 * m.nr.toNat), off.toNat, 0⟩
  | .alog _ op m _ _ _ off => some ⟨0x203, 1, modM m.ty m.scope m.ord .none (m.space.code + 4 * m.nr.toNat), off.toNat + 2 ^ 20 * op.code, 0⟩
  | .axchg _ m _ _ _ off => some ⟨0x204, 1, modM m.ty m.scope m.ord .none (m.space.code + 4 * m.nr.toNat), off.toNat, 0⟩
  | .acas _ m _ _ _ _ off => some ⟨0x205, 2, modM m.ty m.scope m.ord .none (m.space.code + 4 * m.nr.toNat), off.toNat, 0⟩
  | .afadd _ rnd m _ _ _ off => some ⟨0x206, 1, modM m.ty m.scope m.ord .none (m.space.code + 4 * m.nr.toNat), off.toNat + 2 ^ 20 * rnd.code, 0⟩
  | .afmin _ m _ _ _ off => some ⟨0x207, 1, modM m.ty m.scope m.ord .none (m.space.code + 4 * m.nr.toNat), off.toNat, 0⟩
  | .afmax _ m _ _ _ off => some ⟨0x208, 1, modM m.ty m.scope m.ord .none (m.space.code + 4 * m.nr.toNat), off.toNat, 0⟩
  | .rctx _ op t scope ctx _ _ _ _ => some ⟨0x209, 2, modM t scope .none .none (ctx.toNat), 0, op.code⟩
  | .rdet _ t ctx _ _ _ => some ⟨0x20A, 1, modM t .wp .none .none (ctx.toNat), 0, 0⟩
  | .rclose _ ctx _ => some ⟨0x20B, 0, modM .b32 .wp .none .none (ctx.toNat), 0, 0⟩
  | .fence _ scope => some ⟨0x240, 0, modM .b32 scope .none .none 0, 0, 0⟩
  | .acq _ scope => some ⟨0x241, 0, modM .b32 scope .none .none 0, 0, 0⟩
  | .rel _ scope => some ⟨0x242, 0, modM .b32 scope .none .none 0, 0, 0⟩
  | .acqRp _ t scope _ _ off => some ⟨0x243, 1, modM t scope .none .none 0, off.toNat, 0⟩
  | .bar _ b _ => some ⟨0x244, 0, modM .b32 .wp .none .none (b.toNat), 0, 0⟩
  | .barArr _ b _ _ => some ⟨0x245, 0, modM .b32 .wp .none .none (b.toNat), 0, 0⟩
  | .barWait _ b _ => some ⟨0x246, 0, modM .b32 .wp .none .none (b.toNat), 0, 0⟩
  | .bbInit _ _ => some ⟨0x247, 1, modM .b32 .wp .none .none 0, 0, 0⟩
  | .bbExp _ _ _ _ => some ⟨0x248, 1, modM .b32 .wp .none .none 0, 0, 0⟩
  | .bbWait _ scope _ _ => some ⟨0x249, 0, modM .b32 scope .none .none 0, 0, 0⟩
  | .spawn _ _ _ => some ⟨0x280, 0, 0, 0, 0⟩
  | .spawnR _ _ _ _ => some ⟨0x281, 0, 0, 0, 0⟩
  | .join _ _ _ => some ⟨0x282, 0, 0, 0, 0⟩
  | .joinT _ _ _ => some ⟨0x283, 0, 0, 0, 0⟩
  | .resolve _ _ _ _ => some ⟨0x284, 0, 0, 0, 0⟩
  | .taskEnd _ v => some ⟨0x285, 0, v.isSome.toNat, 0, 0⟩
  | .finOpen _ _ _ _ => some ⟨0x286, 0, 0, 0, 0⟩
  | .finClose _ s => some ⟨0x287, 0, s.opx, 0, 0⟩
  | .finWait _ s => some ⟨0x288, 0, s.opx, 0, 0⟩
  | .capq _ n _ => some ⟨0x289, 0, n.toNat, 0, 0⟩
  | .bcopy _ dst src scope _ _ _ cell => some ⟨0x2C0, 2, modM .b32 scope .none .none (dst.code + 4 * src.code), 0, cellBits cell⟩
  | .bcopy2d _ dst src scope _ _ _ _ cell => some ⟨0x2C1, 2, modM .b32 scope .none .none (dst.code + 4 * src.code), 0, cellBits cell⟩
  | .gath _ p scope _ _ _ count sh es cell => some ⟨0x2C2, 2, modM .b32 scope .none .none (p.code), count.toNat + 2 ^ 12 * sh.toNat + 2 ^ 16 * es.toNat, cellBits cell⟩
  | .scat _ p scope _ _ _ count sh es cell => some ⟨0x2C3, 2, modM .b32 scope .none .none (p.code), count.toNat + 2 ^ 12 * sh.toNat + 2 ^ 16 * es.toNat, cellBits cell⟩
  | .stage _ scope _ _ cell => some ⟨0x2C4, 1, modM .b32 scope .none .none 0, cellBits cell, 0⟩
  | .cgrp _ scope g _ _ _ => some ⟨0x2C5, 2, modM .b32 scope .none .none 0, 0, g.toNat⟩
  | .cag _ dst src _ _ _ _ g bb => some ⟨0x2C6, 2, modM .b32 .wp .none .none (dst.code + 4 * src.code), 0, 2 ^ 15 * bb.toNat + g.toNat⟩
  | .crs _ op t dst src _ _ _ _ g bb => some ⟨0x2C7, 2, modM t .wp .none .none (dst.code + 4 * src.code), 0, 2 ^ 15 * bb.toNat + 32 * op.code + g.toNat⟩
  | .ca2a _ dst src _ _ _ _ g bb => some ⟨0x2C8, 2, modM .b32 .wp .none .none (dst.code + 4 * src.code), 0, 2 ^ 15 * bb.toNat + g.toNat⟩
  | .cbar _ _ _ bb => some ⟨0x2C9, 0, modM .b32 .wp .none .none (bb.toNat), 0, 0⟩
  | .mma _ f aw bw _ _ => some ⟨0x300, 2, f.opx, 0, 2 ^ 14 * bw.toNat + 2 ^ 15 * aw.toNat⟩
  | .mmaS _ f aw bw _ _ => some ⟨0x302, 2, f.opx, 0, 2 ^ 14 * bw.toNat + 2 ^ 15 * aw.toNat⟩
  | .mmaDs _ f aw bw _ _ => some ⟨0x303, 2, f.opx, 0, 2 ^ 14 * bw.toNat + 2 ^ 15 * aw.toNat⟩
  | .mmaC _ f s bw _ => some ⟨0x301, 2, f.opx, 0, s.ext + 2 ^ 14 * bw.toNat⟩
  | .mmaG _ f aw _ _ _ kb nadp => some ⟨0x304, 2, f.opx, kb.toNat + 2 ^ 16 * nadp.toNat, 2 ^ 15 * aw.toNat⟩
  | .mmaGc _ f s _ _ nb nadp => some ⟨0x305, 2, f.opx, nb.toNat + 2 ^ 16 * nadp.toNat, s.ext⟩
  | .accAcq _ slot => some ⟨0x340, 0, slot.toNat, 0, 0⟩
  | .accRel _ slot => some ⟨0x341, 0, slot.toNat, 0, 0⟩
  | .accLd _ slot quad _ => some ⟨0x342, 0, slot.toNat + 64 * quad.toNat, 0, 0⟩
  | .accSt _ slot q sh sat t _ stride => some ⟨0x343, 1, slot.toNat + 64 * q.toNat + 256 * sh.toNat + 2 ^ 11 * sat.toNat + 2 ^ 12 * t.code, stride.toNat, 0⟩
  | .accZero _ slot q sh => some ⟨0x344, 0, slot.toNat + 64 * q.toNat + 256 * sh.toNat, 0, 0⟩
  | .accQ _ slot _ => some ⟨0x345, 0, slot.toNat, 0, 0⟩
  | .movsRead _ r idx _ => some ⟨0x380, 0, r.code + 256 * idx.toNat, 0, 0⟩
  | .movsWrite _ r idx _ => some ⟨0x380, 0, r.code + 256 * idx.toNat + 2 ^ 15, 0, 0⟩
  | .sleep _ n => some ⟨0x381, 1, 0, n.toNat, 0⟩
  | .ctxSave _ _ _ _ => some ⟨0x382, 0, 0, 0, 0⟩
  | .ctxLoad _ _ _ _ => some ⟨0x383, 0, 0, 0, 0⟩
  | .frecRd _ _ => some ⟨0x384, 0, 0, 0, 0⟩
  | .leaseTst _ _ _ pat => some ⟨0x385, 1, 0, pat.toNat, 0⟩
  | .leaseRel _ _ _ => some ⟨0x386, 0, 0, 0, 0⟩
  | .tlbInv _ _ _ => some ⟨0x387, 1, 0, 0, 0⟩
  | .bezelRd _ _ _ off => some ⟨0x388, 1, 0, off.toNat, 0⟩
  | .bezelWr _ _ _ off => some ⟨0x389, 1, 0, off.toNat, 0⟩

/-- The fields of an instruction word (R277). -/
structure Raw where
  len : Nat
  opc : Nat
  ctl : Ctl
  mod : Nat
  d : Nat
  a : Nat
  b : Nat
  c : Nat
  x : Nat
  imm : Nat
  ext : Nat
  deriving DecidableEq, Repr

/-- The fields of an instruction's word; none for an event. -/
def Instr.raw (i : Instr) : Option Raw :=
  i.enc.map fun e =>
    let h := i.shape
    ⟨e.len, e.opc, h.ctl, e.mod, h.d.field, h.a.field, h.b.field, h.c.field, h.x.field, e.imm, e.ext⟩

/-- Bits [36], [43:37] and [44] of the guard (R175). -/
def guardBits : Option Guard → Nat
  | none => 0
  | some g => 1 + 2 * g.reg.toNat + 256 * g.neg.toNat

/-- The base layout (R277). -/
def Raw.base (r : Raw) : Nat :=
  r.len + 2 ^ 2 * r.opc + 2 ^ 12 * r.d + 2 ^ 20 * r.a + 2 ^ 28 * r.b + 2 ^ 36 * guardBits r.ctl.guard +
    2 ^ 45 * r.ctl.hold.code + 2 ^ 47 * r.ctl.fs.toNat + 2 ^ 48 * r.mod

/-- The word of the fields, in the form LEN names (R277). -/
def Raw.toNat (r : Raw) : Nat :=
  match r.len with
  | 0 => r.base
  | 1 => r.base + 2 ^ 64 * (r.c + 2 ^ 8 * r.imm)
  | _ => r.base + 2 ^ 64 * (r.c + 2 ^ 8 * r.x + 2 ^ 16 * r.ext + 2 ^ 32 * r.imm)

/-- The word of an instruction, its first 32-bit word lowest; none for an event. -/
def encode (i : Instr) : Option Nat := i.raw.map Raw.toNat

/-! ## The decoder -/

/-- Why a word is no instruction: each raises ILLEGAL (R274, R283). -/
inductive Reject where
  | header
  | guard
  | unassigned
  | reserved
  | value
  deriving DecidableEq, Repr

/-- Length in bytes of the item that bits [1:0] announce (R273). -/
def itemLen (w : Nat) : Nat :=
  match w % 4 with
  | 1 => 12
  | 2 => 16
  | _ => 8

/-- The guard of a word; GR and GN must be zero when G is zero (R175). -/
def guardOf (w : Nat) : Except Reject (Option Guard) :=
  let g := w / 2 ^ 36 % 2 ^ 9
  if g % 2 = 1 then .ok (some ⟨.ofNat 7 (g / 2), bit g 8⟩)
  else if g = 0 then .ok none
  else .error .guard

/-- The fields of a word (R277). -/
def rawOf (w : Nat) : Except Reject Raw :=
  let f (lo n : Nat) := w / 2 ^ lo % 2 ^ n
  match guardOf w with
  | .error e => .error e
  | .ok g =>
    let ctl : Ctl := ⟨g, .ofCode (f 45 2), bit w 47⟩
    match w % 4 with
    | 0 => .ok ⟨0, f 2 10, ctl, f 48 16, f 12 8, f 20 8, f 28 8, 0, 0, 0, 0⟩
    | 1 => .ok ⟨1, f 2 10, ctl, f 48 16, f 12 8, f 20 8, f 28 8, f 64 8, 0, f 72 24, 0⟩
    | 2 => .ok ⟨2, f 2 10, ctl, f 48 16, f 12 8, f 20 8, f 28 8, f 64 8, f 72 8, f 96 32, f 80 16⟩
    | _ => .error .header

/-- Register fields and shared subfields as the decoder reads them (R279). -/
def Raw.D (r : Raw) : Reg := .ofNat 8 r.d
/-- Field A. -/
def Raw.A (r : Raw) : Reg := .ofNat 8 r.a
/-- Field B. -/
def Raw.B (r : Raw) : Reg := .ofNat 8 r.b
/-- Field C. -/
def Raw.C (r : Raw) : Reg := .ofNat 8 r.c
/-- Field X. -/
def Raw.X (r : Raw) : Reg := .ofNat 8 r.x
/-- IMM24. -/
def Raw.imm24 (r : Raw) : BitVec 24 := .ofNat 24 r.imm
/-- IMM32. -/
def Raw.imm32 (r : Raw) : BitVec 32 := .ofNat 32 r.imm
/-- TYPE. -/
def Raw.ty (r : Raw) : Option Ty := Ty.ofCode (r.mod / 2048)
/-- RND. -/
def Raw.rnd (r : Raw) : Rnd := Rnd.ofCode (r.mod / 512)
/-- SAT. -/
def Raw.sat (r : Raw) : Bool := bit r.mod 8
/-- SCOPE. -/
def Raw.scope (r : Raw) : Option Scope := Scope.ofCode (r.mod / 256 % 8)
/-- ORD. -/
def Raw.ord (r : Raw) : Ordr := Ordr.ofCode (r.mod / 64)
/-- HINT. -/
def Raw.hint (r : Raw) : Hint := Hint.ofCode (r.mod / 16)

/-- Opcodes of the control (R300) group. -/
def Raw.group0 (r : Raw) : Option Instr :=
  match r.opc with
  | 0x000 => some (.nop r.ctl)
  | 0x001 => some (.bra r.ctl r.imm24)
  | 0x002 => some (.braAny r.ctl r.A r.imm24)
  | 0x003 => some (.braAll r.ctl r.A r.imm24)
  | 0x004 => some (.jmp r.ctl r.A)
  | 0x005 => some (.call r.ctl (bit r.mod 5) (.ofNat 5 r.mod) r.A r.imm24)
  | 0x006 => some (.callI r.ctl (bit r.mod 5) (.ofNat 5 r.mod) r.A r.B)
  | 0x007 => some (.ret r.ctl)
  | 0x008 => some (.unwindTo r.ctl r.A)
  | 0x009 => some (.exit r.ctl)
  | 0x00A => some (.yield r.ctl)
  | 0x00B => some (.setpri r.ctl (.ofNat 3 r.mod))
  | 0x00C => some (.wflag r.ctl (.ofNat 12 r.mod))
  | 0x00D => some (.trap r.ctl (.ofNat 7 r.mod) (if bit r.mod 7 then some r.A else none))
  | _ => none

/-- Opcodes of the integer (R313) group. -/
def Raw.group1 (r : Raw) : Option Instr :=
  match r.opc with
  | 0x040 => do return .iadd r.ctl (← r.ty) r.sat r.D r.A r.B
  | 0x041 => do return .isub r.ctl (← r.ty) r.sat r.D r.A r.B
  | 0x042 => do return .imul r.ctl (← r.ty) r.sat r.D r.A r.B
  | 0x043 => do return .imulhi r.ctl (← r.ty) r.D r.A r.B
  | 0x044 => do return .imad r.ctl (← r.ty) r.sat r.D r.A r.B r.C
  | 0x045 => some (.ineg r.ctl r.sat r.D r.A)
  | 0x046 => some (.iabs r.ctl r.sat r.D r.A)
  | 0x047 => do return .imin r.ctl (← r.ty) r.D r.A r.B
  | 0x048 => do return .imax r.ctl (← r.ty) r.D r.A r.B
  | 0x049 => do return .iaddW r.ctl (← r.ty) r.sat r.D r.A r.B
  | 0x04A => do return .isubW r.ctl (← r.ty) r.sat r.D r.A r.B
  | 0x04B => do return .imulW r.ctl (← r.ty) r.D r.A r.B
  | 0x04C => do return .imadW r.ctl (← r.ty) r.D r.A r.B r.C
  | 0x04D => do return .lea r.ctl (← r.ty) (.ofNat 3 r.mod) r.D r.A r.B r.imm24
  | 0x04E => some (.mov r.ctl r.D r.A)
  | 0x04F => some (.movW r.ctl r.D r.A)
  | 0x050 => some (.movi r.ctl r.D r.imm24)
  | 0x051 => do return .moviL r.ctl (← r.ty) r.D r.imm32
  | 0x052 => do return .iaddi r.ctl (← r.ty) r.sat r.D r.A r.imm24
  | 0x053 => do return .idiv r.ctl (← r.ty) r.sat r.D r.A r.B
  | 0x054 => do return .irem r.ctl (← r.ty) r.D r.A r.B
  | 0x055 => do return .sad r.ctl (← r.ty) r.D r.A r.B r.C
  | _ => none

/-- Opcodes of the logic (R315) group. -/
def Raw.group2 (r : Raw) : Option Instr :=
  match r.opc with
  | 0x080 => some (.and r.ctl r.D r.A r.B)
  | 0x081 => some (.or r.ctl r.D r.A r.B)
  | 0x082 => some (.xor r.ctl r.D r.A r.B)
  | 0x083 => some (.not r.ctl r.D r.A)
  | 0x084 => some (.lmix r.ctl (LFn.ofCode (r.mod % 8)) ⟨bit r.mod 3, bit r.mod 4, bit r.mod 5, bit r.mod 6⟩ r.D r.A r.B r.C)
  | 0x085 => some (.shl r.ctl r.D r.A (Count.of 5 r.mod r.b))
  | 0x086 => some (.shr r.ctl r.D r.A (Count.of 5 r.mod r.b))
  | 0x087 => some (.sar r.ctl r.D r.A (Count.of 5 r.mod r.b))
  | 0x088 => some (.rot r.ctl r.D r.A (Count.of 5 r.mod r.b))
  | 0x089 => some (.shlW r.ctl r.D r.A (Count.of 6 r.mod r.b))
  | 0x08A => do return .shrW r.ctl (← r.ty) r.D r.A (Count.of 6 r.mod r.b)
  | 0x08B => do return .bfe r.ctl (← r.ty) r.D r.A (.ofNat 5 r.imm) (.ofNat 6 (r.imm / 256))
  | 0x08C => some (.bfi r.ctl r.D r.A r.B (.ofNat 5 r.imm) (.ofNat 6 (r.imm / 256)))
  | 0x08D => some (.popc r.ctl r.D r.A)
  | 0x08E => some (.clz r.ctl r.D r.A)
  | 0x08F => some (.brev r.ctl r.D r.A)
  | _ => none

/-- Opcodes of the compare and lane (R319-R325) group. -/
def Raw.group3 (r : Raw) : Option Instr :=
  match r.opc with
  | 0x0C0 => do return .icmp r.ctl (← r.ty) (← ICond.ofCode (r.mod % 8)) r.D r.A r.B
  | 0x0C1 => do return .icmpW r.ctl (← r.ty) (← ICond.ofCode (r.mod % 8)) r.D r.A r.B
  | 0x0C2 => some (.fcmp r.ctl (FCond.ofCode (r.mod % 8)) r.D r.A r.B)
  | 0x0C3 => do return .sel r.ctl (← r.ty) r.D r.A r.B r.C
  | 0x0C4 => some (.ballot r.ctl r.D r.A)
  | 0x0C5 => some (.shfl r.ctl r.D r.A (Count.of 5 r.mod r.b))
  | 0x0C6 => some (.shflUp r.ctl r.D r.A (Count.of 5 r.mod r.b))
  | 0x0C7 => some (.shflDown r.ctl r.D r.A (Count.of 5 r.mod r.b))
  | 0x0C8 => some (.shflXor r.ctl r.D r.A (Count.of 5 r.mod r.b))
  | 0x0C9 => some (.bcast r.ctl r.D r.A (if bit r.mod 5 then some (.ofNat 5 r.mod) else none))
  | 0x0CA => do return .wred r.ctl (← RedOp.ofCode (r.mod % 8)) (← r.ty) r.rnd r.D r.A
  | 0x0CB => do return .wscan r.ctl (bit r.mod 3) (← RedOp.ofCode (r.mod % 8)) (← r.ty) r.rnd r.D r.A
  | _ => none

/-- Opcodes of the FP32 (R383) group. -/
def Raw.group4 (r : Raw) : Option Instr :=
  match r.opc with
  | 0x100 => some (.fadd r.ctl r.rnd r.D r.A r.B)
  | 0x101 => some (.fsub r.ctl r.rnd r.D r.A r.B)
  | 0x102 => some (.fmul r.ctl r.rnd r.D r.A r.B)
  | 0x103 => some (.ffma r.ctl r.rnd r.D r.A r.B r.C)
  | 0x104 => some (.fmin r.ctl r.D r.A r.B)
  | 0x105 => some (.fmax r.ctl r.D r.A r.B)
  | 0x106 => some (.fabs r.ctl r.D r.A)
  | 0x107 => some (.fneg r.ctl r.D r.A)
  | 0x108 => some (.ffloor r.ctl r.D r.A)
  | 0x109 => some (.fceil r.ctl r.D r.A)
  | 0x10A => some (.ftrunc r.ctl r.D r.A)
  | 0x10B => some (.frint r.ctl r.rnd r.D r.A)
  | 0x10C => some (.fclass r.ctl r.D r.A)
  | 0x10D => some (.fscale r.ctl r.rnd r.D r.A r.B)
  | 0x10E => some (.ffrac r.ctl r.rnd r.D r.A)
  | 0x10F => some (.frcp r.ctl r.rnd r.D r.A)
  | 0x110 => some (.frsq r.ctl r.rnd r.D r.A)
  | 0x111 => some (.fsqrt r.ctl r.rnd r.D r.A)
  | 0x112 => some (.fdiv r.ctl r.rnd r.D r.A r.B)
  | 0x113 => some (.fexp2 r.ctl r.D r.A)
  | 0x114 => some (.flog2 r.ctl r.D r.A)
  | 0x115 => some (.fsin r.ctl r.D r.A)
  | 0x116 => some (.fcos r.ctl r.D r.A)
  | 0x117 => some (.ftanh r.ctl r.D r.A)
  | _ => none

/-- Opcodes of the packed and conversion (R387-R392) group. -/
def Raw.group5 (r : Raw) : Option Instr :=
  match r.opc with
  | 0x140 => do return .hadd r.ctl (← r.ty) r.rnd r.D r.A r.B
  | 0x141 => do return .hsub r.ctl (← r.ty) r.rnd r.D r.A r.B
  | 0x142 => do return .hmul r.ctl (← r.ty) r.rnd r.D r.A r.B
  | 0x143 => do return .hfma r.ctl (← r.ty) r.rnd r.D r.A r.B r.C
  | 0x144 => do return .hmin r.ctl (← r.ty) r.D r.A r.B
  | 0x145 => do return .hmax r.ctl (← r.ty) r.D r.A r.B
  | 0x146 => do return .hdot2 r.ctl (← r.ty) r.rnd r.D r.A r.B r.C
  | 0x147 => do return .hcmp r.ctl (← r.ty) (FCond.ofCode (r.mod % 8)) r.D r.A r.B
  | 0x148 => do return .cvt r.ctl (← r.ty) (← Ty.ofCode (r.mod % 16)) r.rnd r.sat r.D r.A
  | 0x149 => do return .cvtW r.ctl (← r.ty) (← Ty.ofCode (r.mod % 16)) r.rnd r.sat r.D r.A
  | 0x14A => do return .icvt r.ctl (← r.ty) (← Ty.ofCode (r.mod % 16)) r.rnd r.sat r.D r.A
  | 0x14B => do return .cvtX2 r.ctl (← r.ty) (← Ty.ofCode (r.mod % 16)) r.rnd r.sat r.D r.A r.B
  | 0x14C => do return .cvtX4 r.ctl (← r.ty) (← Ty.ofCode (r.mod % 16)) r.rnd r.sat r.D r.A r.B r.C r.X
  | 0x14D => do return .cvtEl r.ctl (← Ty.ofCode (r.mod % 16)) r.D r.A r.B
  | 0x14E => some (.cvtPk r.ctl r.D r.A r.B)
  | _ => none

/-- Opcodes of the load and store (R331) group. -/
def Raw.group6 (r : Raw) : Option Instr :=
  match r.opc with
  | 0x180 => do return .ld r.ctl ⟨(← r.ty), (← r.scope), r.ord, r.hint⟩ r.D r.A r.imm24
  | 0x181 => do return .ldX4 r.ctl ⟨(← r.ty), (← r.scope), r.ord, r.hint⟩ r.D r.A r.imm24
  | 0x182 => do return .st r.ctl ⟨(← r.ty), (← r.scope), r.ord, r.hint⟩ r.A r.B r.imm24
  | 0x183 => do return .ldl r.ctl ⟨(← r.ty), (← r.scope), r.ord, r.hint⟩ r.D r.A r.imm24
  | 0x184 => do return .ldlX4 r.ctl ⟨(← r.ty), (← r.scope), r.ord, r.hint⟩ r.D r.A r.imm24
  | 0x185 => do return .stl r.ctl ⟨(← r.ty), (← r.scope), r.ord, r.hint⟩ r.A r.B r.imm24
  | 0x186 => do return .ldw r.ctl ⟨(← r.ty), (← r.scope), r.ord, r.hint⟩ r.D r.A r.imm24
  | 0x187 => do return .ldwX4 r.ctl ⟨(← r.ty), (← r.scope), r.ord, r.hint⟩ r.D r.A r.imm24
  | 0x188 => do return .stw r.ctl ⟨(← r.ty), (← r.scope), r.ord, r.hint⟩ r.A r.B r.imm24
  | 0x189 => some (.pf r.ctl r.hint r.A r.imm24)
  | _ => none

/-- Opcodes of the tile and cache (R337-R341) group. -/
def Raw.group7 (r : Raw) : Option Instr :=
  match r.opc with
  | 0x1C0 => do return .tld r.ctl ⟨(← Spc.ofCode (r.mod % 4)), (← r.scope), r.hint, TileShape.of r.ext r.imm r.c r.x⟩ r.A r.B
  | 0x1C1 => do return .tst r.ctl ⟨(← Spc.ofCode (r.mod % 4)), (← r.scope), r.hint, TileShape.of r.ext r.imm r.c r.x⟩ r.A r.B
  | 0x1C2 => some (.pft r.ctl r.hint r.A r.B (.ofNat 6 r.imm) (.ofNat 4 (r.imm / 64)))
  | 0x1C3 => some (.dcinv r.ctl)
  | 0x1C4 => some (.icinv r.ctl)
  | 0x1C5 => some (.dsc r.ctl r.A r.B)
  | 0x1C6 => some (.cwb r.ctl r.A r.B)
  | _ => none

/-- Opcodes of the atomic and reduction (R345-R354) group. -/
def Raw.group8 (r : Raw) : Option Instr :=
  match r.opc with
  | 0x200 => do return .aadd r.ctl ⟨(← r.ty), (← r.scope), r.ord, (← Spc.ofCode (r.mod % 4)), bit r.mod 2⟩ r.D r.A r.B (.ofNat 20 r.imm)
  | 0x201 => do return .amin r.ctl ⟨(← r.ty), (← r.scope), r.ord, (← Spc.ofCode (r.mod % 4)), bit r.mod 2⟩ r.D r.A r.B (.ofNat 20 r.imm)
  | 0x202 => do return .amax r.ctl ⟨(← r.ty), (← r.scope), r.ord, (← Spc.ofCode (r.mod % 4)), bit r.mod 2⟩ r.D r.A r.B (.ofNat 20 r.imm)
  | 0x203 => do return .alog r.ctl (← LogOp.ofCode (r.imm / 2 ^ 20 % 4)) ⟨(← r.ty), (← r.scope), r.ord, (← Spc.ofCode (r.mod % 4)), bit r.mod 2⟩ r.D r.A r.B (.ofNat 20 r.imm)
  | 0x204 => do return .axchg r.ctl ⟨(← r.ty), (← r.scope), r.ord, (← Spc.ofCode (r.mod % 4)), bit r.mod 2⟩ r.D r.A r.B (.ofNat 20 r.imm)
  | 0x205 => do return .acas r.ctl ⟨(← r.ty), (← r.scope), r.ord, (← Spc.ofCode (r.mod % 4)), bit r.mod 2⟩ r.D r.A r.B r.C r.imm32
  | 0x206 => do return .afadd r.ctl (Rnd.ofCode (r.imm / 2 ^ 20)) ⟨(← r.ty), (← r.scope), r.ord, (← Spc.ofCode (r.mod % 4)), bit r.mod 2⟩ r.D r.A r.B (.ofNat 20 r.imm)
  | 0x207 => do return .afmin r.ctl ⟨(← r.ty), (← r.scope), r.ord, (← Spc.ofCode (r.mod % 4)), bit r.mod 2⟩ r.D r.A r.B (.ofNat 20 r.imm)
  | 0x208 => do return .afmax r.ctl ⟨(← r.ty), (← r.scope), r.ord, (← Spc.ofCode (r.mod % 4)), bit r.mod 2⟩ r.D r.A r.B (.ofNat 20 r.imm)
  | 0x209 => do return .rctx r.ctl (← SumOp.ofCode (r.ext % 8)) (← r.ty) (← r.scope) (.ofNat 4 r.mod) r.D r.A r.B r.C
  | 0x20A => do return .rdet r.ctl (← r.ty) (.ofNat 4 r.mod) r.A r.B r.C
  | 0x20B => some (.rclose r.ctl (.ofNat 4 r.mod) r.D)
  | _ => none

/-- Opcodes of the fence and barrier (R355-R360) group. -/
def Raw.group9 (r : Raw) : Option Instr :=
  match r.opc with
  | 0x240 => do return .fence r.ctl (← r.scope)
  | 0x241 => do return .acq r.ctl (← r.scope)
  | 0x242 => do return .rel r.ctl (← r.scope)
  | 0x243 => do return .acqRp r.ctl (← r.ty) (← r.scope) r.D r.A r.imm24
  | 0x244 => some (.bar r.ctl (.ofNat 4 r.mod) r.A)
  | 0x245 => some (.barArr r.ctl (.ofNat 4 r.mod) r.D r.A)
  | 0x246 => some (.barWait r.ctl (.ofNat 4 r.mod) r.A)
  | 0x247 => some (.bbInit r.ctl r.A)
  | 0x248 => some (.bbExp r.ctl r.D r.A r.B)
  | 0x249 => do return .bbWait r.ctl (← r.scope) r.A r.B
  | _ => none

/-- Opcodes of the task (R363) group. -/
def Raw.group10 (r : Raw) : Option Instr :=
  match r.opc with
  | 0x280 => some (.spawn r.ctl r.D r.A)
  | 0x281 => some (.spawnR r.ctl r.D r.A r.B)
  | 0x282 => some (.join r.ctl r.D r.A)
  | 0x283 => some (.joinT r.ctl r.D r.A)
  | 0x284 => some (.resolve r.ctl r.D r.A r.B)
  | 0x285 => some (.taskEnd r.ctl (if bit r.mod 0 then some r.A else none))
  | 0x286 => some (.finOpen r.ctl r.D r.A r.B)
  | 0x287 => some (.finClose r.ctl (FsRef.of r.mod r.a))
  | 0x288 => some (.finWait r.ctl (FsRef.of r.mod r.a))
  | 0x289 => some (.capq r.ctl (.ofNat 4 r.mod) r.D)
  | _ => none

/-- Opcodes of the engine (R375-R379) group. -/
def Raw.group11 (r : Raw) : Option Instr :=
  match r.opc with
  | 0x2C0 => do return .bcopy r.ctl (← Spc.ofCode (r.mod % 4)) (← Spc.ofCode (r.mod / 4 % 4)) (← r.scope) r.A r.B r.C (cellOf r.ext)
  | 0x2C1 => do return .bcopy2d r.ctl (← Spc.ofCode (r.mod % 4)) (← Spc.ofCode (r.mod / 4 % 4)) (← r.scope) r.A r.B r.C r.X (cellOf r.ext)
  | 0x2C2 => do return .gath r.ctl (← Spc.ofCode (r.mod % 4)) (← r.scope) r.A r.B r.C (.ofNat 12 r.imm) (.ofNat 4 (r.imm / 2 ^ 12)) (.ofNat 3 (r.imm / 2 ^ 16)) (cellOf r.ext)
  | 0x2C3 => do return .scat r.ctl (← Spc.ofCode (r.mod % 4)) (← r.scope) r.A r.B r.C (.ofNat 12 r.imm) (.ofNat 4 (r.imm / 2 ^ 12)) (.ofNat 3 (r.imm / 2 ^ 16)) (cellOf r.ext)
  | 0x2C4 => do return .stage r.ctl (← r.scope) r.A r.B (cellOf r.imm)
  | 0x2C5 => do return .cgrp r.ctl (← r.scope) (.ofNat 5 r.ext) r.D r.A r.B
  | 0x2C6 => do return .cag r.ctl (← Spc.ofCode (r.mod % 4)) (← Spc.ofCode (r.mod / 4 % 4)) r.A r.B r.C r.X (.ofNat 5 r.ext) (bit r.ext 15)
  | 0x2C7 => do return .crs r.ctl (← SumOp.ofCode (r.ext / 32 % 8)) (← r.ty) (← Spc.ofCode (r.mod % 4)) (← Spc.ofCode (r.mod / 4 % 4)) r.A r.B r.C r.X (.ofNat 5 r.ext) (bit r.ext 15)
  | 0x2C8 => do return .ca2a r.ctl (← Spc.ofCode (r.mod % 4)) (← Spc.ofCode (r.mod / 4 % 4)) r.A r.B r.C r.X (.ofNat 5 r.ext) (bit r.ext 15)
  | 0x2C9 => some (.cbar r.ctl r.A r.B (bit r.mod 0))
  | _ => none

/-- Opcodes of the matrix (R394) group. -/
def Raw.group12 (r : Raw) : Option Instr :=
  match r.opc with
  | 0x300 => do return .mma r.ctl ⟨.ofNat 6 r.mod, .ofNat 2 (r.mod / 64), bit r.mod 8, (← MFmt.ofCode (r.mod / 512 % 8)), (← MFmt.ofCode (r.mod / 4096 % 8)), bit r.mod 15⟩ (bit r.ext 15) (bit r.ext 14) r.A r.B
  | 0x302 => do return .mmaS r.ctl ⟨.ofNat 6 r.mod, .ofNat 2 (r.mod / 64), bit r.mod 8, (← MFmt.ofCode (r.mod / 512 % 8)), (← MFmt.ofCode (r.mod / 4096 % 8)), bit r.mod 15⟩ (bit r.ext 15) (bit r.ext 14) r.A r.B
  | 0x303 => do return .mmaDs r.ctl ⟨.ofNat 6 r.mod, .ofNat 2 (r.mod / 64), bit r.mod 8, (← MFmt.ofCode (r.mod / 512 % 8)), (← MFmt.ofCode (r.mod / 4096 % 8)), bit r.mod 15⟩ (bit r.ext 15) (bit r.ext 14) r.A r.B
  | 0x301 => do return .mmaC r.ctl ⟨.ofNat 6 r.mod, .ofNat 2 (r.mod / 64), bit r.mod 8, (← MFmt.ofCode (r.mod / 512 % 8)), (← MFmt.ofCode (r.mod / 4096 % 8)), bit r.mod 15⟩ ⟨.ofNat 6 r.ext, bit r.ext 6⟩ (bit r.ext 14) r.B
  | 0x304 => do return .mmaG r.ctl ⟨.ofNat 6 r.mod, .ofNat 2 (r.mod / 64), bit r.mod 8, (← MFmt.ofCode (r.mod / 512 % 8)), (← MFmt.ofCode (r.mod / 4096 % 8)), bit r.mod 15⟩ (bit r.ext 15) r.A r.C r.X (.ofNat 16 r.imm) (.ofNat 16 (r.imm / 2 ^ 16))
  | 0x305 => do return .mmaGc r.ctl ⟨.ofNat 6 r.mod, .ofNat 2 (r.mod / 64), bit r.mod 8, (← MFmt.ofCode (r.mod / 512 % 8)), (← MFmt.ofCode (r.mod / 4096 % 8)), bit r.mod 15⟩ ⟨.ofNat 6 r.ext, bit r.ext 6⟩ r.C r.X (.ofNat 16 r.imm) (.ofNat 16 (r.imm / 2 ^ 16))
  | _ => none

/-- Opcodes of the accumulator (R405) group. -/
def Raw.group13 (r : Raw) : Option Instr :=
  match r.opc with
  | 0x340 => some (.accAcq r.ctl (.ofNat 6 r.mod))
  | 0x341 => some (.accRel r.ctl (.ofNat 6 r.mod))
  | 0x342 => some (.accLd r.ctl (.ofNat 6 r.mod) (.ofNat 3 (r.mod / 64)) r.D)
  | 0x343 => do return .accSt r.ctl (.ofNat 6 r.mod) (.ofNat 2 (r.mod / 64)) (bit r.mod 8) (bit r.mod 11) (← AccT.ofCode (r.mod / 4096 % 16)) r.A (.ofNat 16 r.imm)
  | 0x344 => some (.accZero r.ctl (.ofNat 6 r.mod) (.ofNat 2 (r.mod / 64)) (bit r.mod 8))
  | 0x345 => some (.accQ r.ctl (.ofNat 6 r.mod) r.D)
  | _ => none

/-- Opcodes of the system (R297, R381) group. -/
def Raw.group14 (r : Raw) : Option Instr :=
  match r.opc with
  | 0x380 => do
    let s ← SReg.ofCode (r.mod % 256)
    if bit r.mod 15 then return .movsWrite r.ctl s (.ofNat 6 (r.mod / 256)) r.A
    else return .movsRead r.ctl s (.ofNat 6 (r.mod / 256)) r.D
  | 0x381 => some (.sleep r.ctl r.imm24)
  | 0x382 => some (.ctxSave r.ctl r.D r.A r.B)
  | 0x383 => some (.ctxLoad r.ctl r.D r.A r.B)
  | 0x384 => some (.frecRd r.ctl r.A)
  | 0x385 => some (.leaseTst r.ctl r.D r.A r.imm24)
  | 0x386 => some (.leaseRel r.ctl r.D r.A)
  | 0x387 => some (.tlbInv r.ctl r.A r.B)
  | 0x388 => some (.bezelRd r.ctl r.D r.A r.imm24)
  | 0x389 => some (.bezelWr r.ctl r.A r.B r.imm24)
  | _ => none

/-- The instruction the fields suggest, before reserved bits and permitted values are checked. -/
def Raw.candidate (r : Raw) : Option Instr :=
  match r.opc / 64 with
  | 0 => r.group0 | 1 => r.group1 | 2 => r.group2 | 3 => r.group3 | 4 => r.group4 | 5 => r.group5 | 6 => r.group6
  | 7 => r.group7 | 8 => r.group8 | 9 => r.group9 | 10 => r.group10 | 11 => r.group11 | 12 => r.group12
  | 13 => r.group13 | 14 => r.group14 | _ => none

/-- The instruction of the fields: every bit it does not use is zero and every value is permitted (R283). -/
def Raw.instr (r : Raw) : Except Reject Instr :=
  match r.candidate with
  | none => .error .unassigned
  | some i => if i.raw = some r then (if i.permitted then .ok i else .error .value) else .error .reserved

/-- The instruction of a word whose lowest 32 bits come first; bits above its length are not read (R273). -/
def decode (w : Nat) : Except Reject Instr :=
  match rawOf w with
  | .error e => .error e
  | .ok r => r.instr

/-- Operand position (R192) of the first register field that a word's instruction does not use and that is not zero (R278); 0 where
there is none. -/
def unusedField (w : Nat) : Nat :=
  match rawOf w with
  | .error _ => 0
  | .ok r => match r.candidate.bind Instr.raw with
    | none => 0
    | some q =>
      if q.len ≠ r.len then 0
      else (([(1, q.d, r.d), (2, q.a, r.a), (3, q.b, r.b), (4, q.c, r.c), (5, q.x, r.x)].find? fun p => p.2.1 ≠ p.2.2).map (·.1)).getD 0

/-- The number that little-endian bytes hold (R6). -/
def bytesNat : List Byte → Nat
  | [] => 0
  | b :: bs => b.toNat + 256 * bytesNat bs

/-- The little-endian bytes of a number (R6). -/
def natBytes : Nat → Nat → List Byte
  | 0, _ => []
  | n + 1, v => .ofNat 8 v :: natBytes n (v / 256)

/-- The instruction at the head of a list of bytes, and the bytes after it. -/
def decodeBytes (bs : List Byte) : Except Reject (Instr × List Byte) :=
  let n := itemLen (bytesNat (bs.take 1))
  match decode (bytesNat (bs.take n)) with
  | .ok i => .ok (i, bs.drop n)
  | .error e => .error e

/-- The instruction the decoder reads from a word of nbits bits, the bits above them zero. -/
def decodeTableWord (nbits w : Nat) : Option Instr :=
  match decodeBytes (natBytes 16 (w % 2 ^ nbits)) with
  | .ok (i, _) => some i
  | .error _ => none

/-! ## Clause headers -/

/-- A clause header (R275). -/
structure Header where
  nres : Nat
  narg : Nat
  frame : Nat
  fn : Bool
  setb : Option Nat
  seta : Option Nat
  wait : Nat
  nblk : Nat
  deriving DecidableEq, Repr

/-- A SETA or SETB field: valid names a flag 0 to 11, otherwise the number is 0 (R185). -/
def setField (n : Nat) : Option (Option Nat) :=
  if n / 16 = 1 then (if n % 16 < 12 then some (some (n % 16)) else none)
  else if n = 0 then some none else none

/-- The header of a 64-bit word, if it is one that R275, R276 and R185 permit; an NRES above 8 is found by the checks of R261. -/
def headerOf (w : Nat) : Option Header := do
  let f (lo n : Nat) := w / 2 ^ lo % 2 ^ n
  let seta ← setField (f 16 5)
  let setb ← setField (f 21 5)
  let h : Header := ⟨f 36 4, f 32 4, f 27 5, bit w 26, setb, seta, f 4 12, f 2 2⟩
  if w % 4 = 3 && f 40 24 == 0 && (h.fn || (h.nres == 0 && h.narg == 0 && h.frame == 0)) &&
      (seta.isNone || seta != setb) then some h else none

end Sys2Proof
end

