-- ==== Sys2Proof/Config.lean ====
section
/-! DEFINITION. What an implementation fixes, and the free values of the manual: opaque constants that nothing can
evaluate (R3). A free value is taken at a counter the state holds, so each use has one of its own. -/

namespace Sys2Proof.Config

/-- A byte the manual leaves unspecified (R3). Log entry 1. -/
opaque freeByte : Nat → BitVec 8

/-- A 32-bit value the manual leaves unspecified (R3). Log entry 1. -/
opaque freeWord : Nat → BitVec 32

/-- A 64-bit value the manual leaves unspecified, such as the DATA of an event whose layout is not given (R84).
Log entry 1. -/
opaque freeDWord : Nat → BitVec 64

/-- A number the manual leaves unspecified. Log entry 1. -/
opaque freeNat : Nat → Nat

/-- The security version a patch image carries, as a number its bytes hold at a place the manual does not name (R65). Log
entry 1. -/
opaque imageSecver : List (BitVec 8) → Nat

/-- The stepping field of a patch image, at a place the manual does not name (R65). Log entry 1. -/
opaque imageStepping : List (BitVec 8) → Nat

/-- Whether PATCH_STAGE writes slot B where neither slot holds the running patch, as a value of the command's entry (R73, R88). Log
entry 74. -/
opaque stageB : List (BitVec 8) → Bool

/-- DATA of an event whose contents the manual names and whose layout it does not give (R84), as a value of its contents. Log
entry 1. -/
opaque eventData : List Nat → BitVec 64

/-- The 8 bytes of code a peer holds at an address of its aperture when they are read, at a counter of the state. Log entry 108. -/
opaque peerUnit : Nat → Nat → BitVec 64

/-- The set of a slice that a line lies in, by line number: the manual gives 8,192 sets and no index (R40). Log entry 1. -/
opaque setOf : Nat → Nat

/-- Device physical address where the table reserve of R196 is taken to lie: the spec gives it none.
DESIGN CHOICE, log entry 5. -/
def tableReserve : Nat := 0x00C000000000

/-- Tables in the reserve (R196). -/
def tableCount : Nat := 2 ^ 20

/-- Words the configuration default of LEASE_POLICY holds before a LEASE_POLICY command (R88, R146); the manual gives
no number. DESIGN CHOICE, log entry 6. -/
def defaultThreshold : Nat := 0

end Sys2Proof.Config
end

