-- ==== Sys2Proof/Machine/Crypto.lean ====
section
/-! DEFINITION. SHA-512 and Ed25519, which R85 names for every signed object: a digest of the bytes, a key pair from a
32-byte seed, the signature of an object and its check. The manual takes both functions as known; the text is that of
FIPS 180-4 and RFC 8032 (PRESUMED, log entry 89). -/

namespace Sys2Proof.Machine

/-! ## Bytes -/

/-- Bytes as a number, the first one highest. -/
def bigNat (bs : List Byte) : Nat := bs.foldl (fun n b => n * 256 + b.toNat) 0

/-- The n low bytes of a number, the highest first. -/
def bigBytes (n v : Nat) : List Byte := (natBytes n v).reverse

/-! ## SHA-512 -/

/-- The round constants of SHA-512. -/
def shaK : List Nat :=
  [0x428A2F98D728AE22, 0x7137449123EF65CD, 0xB5C0FBCFEC4D3B2F, 0xE9B5DBA58189DBBC,
    0x3956C25BF348B538, 0x59F111F1B605D019, 0x923F82A4AF194F9B, 0xAB1C5ED5DA6D8118,
    0xD807AA98A3030242, 0x12835B0145706FBE, 0x243185BE4EE4B28C, 0x550C7DC3D5FFB4E2,
    0x72BE5D74F27B896F, 0x80DEB1FE3B1696B1, 0x9BDC06A725C71235, 0xC19BF174CF692694,
    0xE49B69C19EF14AD2, 0xEFBE4786384F25E3, 0x0FC19DC68B8CD5B5, 0x240CA1CC77AC9C65] ++
  [0x2DE92C6F592B0275, 0x4A7484AA6EA6E483, 0x5CB0A9DCBD41FBD4, 0x76F988DA831153B5,
    0x983E5152EE66DFAB, 0xA831C66D2DB43210, 0xB00327C898FB213F, 0xBF597FC7BEEF0EE4,
    0xC6E00BF33DA88FC2, 0xD5A79147930AA725, 0x06CA6351E003826F, 0x142929670A0E6E70,
    0x27B70A8546D22FFC, 0x2E1B21385C26C926, 0x4D2C6DFC5AC42AED, 0x53380D139D95B3DF,
    0x650A73548BAF63DE, 0x766A0ABB3C77B2A8, 0x81C2C92E47EDAEE6, 0x92722C851482353B] ++
  [0xA2BFE8A14CF10364, 0xA81A664BBC423001, 0xC24B8B70D0F89791, 0xC76C51A30654BE30,
    0xD192E819D6EF5218, 0xD69906245565A910, 0xF40E35855771202A, 0x106AA07032BBD1B8,
    0x19A4C116B8D2D0C8, 0x1E376C085141AB53, 0x2748774CDF8EEB99, 0x34B0BCB5E19B48A8,
    0x391C0CB3C5C95A63, 0x4ED8AA4AE3418ACB, 0x5B9CCA4F7763E373, 0x682E6FF3D6B2B8A3,
    0x748F82EE5DEFB2FC, 0x78A5636F43172F60, 0x84C87814A1F0AB72, 0x8CC702081A6439EC] ++
  [0x90BEFFFA23631E28, 0xA4506CEBDE82BDE9, 0xBEF9A3F7B2C67915, 0xC67178F2E372532B,
    0xCA273ECEEA26619C, 0xD186B8C721C0C207, 0xEADA7DD6CDE0EB1E, 0xF57D4F7FEE6ED178,
    0x06F067AA72176FBA, 0x0A637DC5A2C898A6, 0x113F9804BEF90DAE, 0x1B710B35131C471B,
    0x28DB77F523047D84, 0x32CAAB7B40C72493, 0x3C9EBE0A15C9BEBC, 0x431D67C49C100D4C,
    0x4CC5D4BECB3E42B6, 0x597F299CFC657E2A, 0x5FCB6FAB3AD6FAEC, 0x6C44198C4A475817]

/-- The initial hash value of SHA-512. -/
def shaH : List Nat :=
  [0x6A09E667F3BCC908, 0xBB67AE8584CAA73B, 0x3C6EF372FE94F82B, 0xA54FF53A5F1D36F1,
    0x510E527FADE682D1, 0x9B05688C2B3E6C1F, 0x1F83D9ABFB41BD6B, 0x5BE0CD19137E2179]

/-- A 64-bit word turned right by n. -/
def rotr64 (x n : Nat) : Nat := x / 2 ^ n + x % 2 ^ n * 2 ^ (64 - n)

/-- The sum of 64-bit words. -/
def add64 (xs : List Nat) : Nat := xs.foldl (· + ·) 0 % 2 ^ 64

/-- The next word of the message schedule, from the sixteen before it. -/
def shaNext (w : List Nat) : Nat :=
  let s0 (x : Nat) : Nat := rotr64 x 1 ^^^ rotr64 x 8 ^^^ x / 2 ^ 7
  let s1 (x : Nat) : Nat := rotr64 x 19 ^^^ rotr64 x 61 ^^^ x / 2 ^ 6
  add64 [s1 (w.getD 14 0), w.getD 9 0, s0 (w.getD 1 0), w.getD 0 0]

/-- One round: the eight working words after round constant k and schedule word w. -/
def shaRound (k w : Nat) : List Nat → List Nat
  | [a, b, c, d, e, f, g, h] =>
    let big1 := rotr64 e 14 ^^^ rotr64 e 18 ^^^ rotr64 e 41
    let ch := (e &&& f) ^^^ ((2 ^ 64 - 1 - e) &&& g)
    let t1 := add64 [h, big1, ch, k, w]
    let big0 := rotr64 a 28 ^^^ rotr64 a 34 ^^^ rotr64 a 39
    let maj := (a &&& b) ^^^ (a &&& c) ^^^ (b &&& c)
    [add64 [t1, big0, maj], a, b, c, add64 [d, t1], e, f, g]
  | v => v

/-- The rounds of a block, the schedule going on from the sixteen words given. -/
def shaRounds : List Nat → List Nat → List Nat → List Nat
  | [], _, v => v
  | k :: ks, w, v => shaRounds ks (w.drop 1 ++ [shaNext w]) (shaRound k (w.getD 0 0) v)

/-- The list cut into pieces of n, of which there are at most as many as the fuel. -/
def pieces {α : Type} (n : Nat) : Nat → List α → List (List α)
  | 0, _ => []
  | fuel + 1, l => if l.isEmpty then [] else l.take n :: pieces n fuel (l.drop n)

/-- The hash value after one block of 128 bytes. -/
def shaBlock (h : List Nat) (blk : List Byte) : List Nat :=
  let w := (pieces 8 16 blk).map bigNat
  (h.zip (shaRounds shaK w h)).map fun p => (p.1 + p.2) % 2 ^ 64

/-- The bytes of a message with their padding. -/
def shaPad (bs : List Byte) : List Byte :=
  let n := bs.length
  bs ++ [0x80] ++ List.replicate ((239 - n % 128) % 128) 0 ++ bigBytes 16 (8 * n)

/-- The SHA-512 digest of bytes, 64 bytes. -/
def sha512 (bs : List Byte) : List Byte :=
  let m := shaPad bs
  ((pieces 128 (m.length / 128) m).foldl shaBlock shaH).flatMap (bigBytes 8)

/-! ## Ed25519 -/

/-- The prime of the field. -/
def edP : Nat := 2 ^ 255 - 19

/-- The order of the base point. -/
def edL : Nat := 2 ^ 252 + 27742317777372353535851937790883648493

/-- b to the power e modulo the prime, by n squarings. -/
def powP (b : Nat) : Nat → Nat → Nat
  | 0, _ => 1
  | n + 1, e =>
    let r := powP b n (e / 2)
    let s := r * r % edP
    if e % 2 = 1 then s * b % edP else s

/-- The inverse of a number modulo the prime. -/
def invP (a : Nat) : Nat := powP a 255 (edP - 2)

/-- The curve constant d. -/
def edD : Nat := 37095705934669439343138083508754565189542113879843219016388785533085940283555

/-- A point in extended coordinates. -/
structure EdPoint where
  x : Nat
  y : Nat
  z : Nat
  t : Nat
  deriving DecidableEq, Repr

/-- The neutral point. -/
def EdPoint.zero : EdPoint := ⟨0, 1, 1, 0⟩

/-- The sum of two points. -/
def EdPoint.add (p q : EdPoint) : EdPoint :=
  let a := (p.y + edP - p.x) * (q.y + edP - q.x) % edP
  let b := (p.y + p.x) * (q.y + q.x) % edP
  let c := 2 * p.t * q.t % edP * edD % edP
  let d := 2 * p.z * q.z % edP
  let e := (b + edP - a) % edP
  let f := (d + edP - c) % edP
  let g := (d + c) % edP
  let h := (b + a) % edP
  ⟨e * f % edP, g * h % edP, f * g % edP, e * h % edP⟩

/-- A multiple of a point, over n bits of the factor. -/
def EdPoint.mul (p : EdPoint) : Nat → Nat → EdPoint
  | 0, _ => .zero
  | n + 1, k =>
    let r := p.mul n (k / 2)
    let s := r.add r
    if k % 2 = 1 then s.add p else s

/-- Whether two points are the same. -/
def EdPoint.same (p q : EdPoint) : Bool := p.x * q.z % edP = q.x * p.z % edP && p.y * q.z % edP = q.y * p.z % edP

/-- The base point. -/
def edBase : EdPoint :=
  let x := 15112221349535400772501151409588531511454012693041857206046113283949847762202
  let y := 46316835694926478169428394003475163141307993866256225615783033603165251855960
  ⟨x, y, 1, x * y % edP⟩

/-- The 32 bytes of a point. -/
def EdPoint.bytes (p : EdPoint) : List Byte :=
  let zi := invP p.z
  natBytes 32 (p.y * zi % edP + p.x * zi % edP % 2 * 2 ^ 255)

/-- The point of 32 bytes, where they name one. -/
def edPoint (bs : List Byte) : Option EdPoint :=
  let v := bytesNat bs
  let y := v % 2 ^ 255
  let sign := v / 2 ^ 255 % 2
  if bs.length ≠ 32 || edP ≤ y then none
  else
    let x2 := (y * y + edP - 1) % edP * invP ((edD * (y * y % edP) + 1) % edP) % edP
    let r := powP x2 252 ((edP + 3) / 8)
    let r := if r * r % edP = x2 then r else r * powP 2 255 ((edP - 1) / 4) % edP
    if r * r % edP ≠ x2 || (x2 = 0 && sign = 1) then none
    else
      let x := if r % 2 = sign then r else edP - r
      some ⟨x, y, 1, x * y % edP⟩

/-- The secret scalar of a seed, and the bytes that salt its signatures. -/
def edSecret (seed : List Byte) : Nat × List Byte :=
  let h := sha512 seed
  (bytesNat (h.take 32) / 8 * 8 % 2 ^ 254 + 2 ^ 254, h.drop 32)

/-- The public key of a seed. -/
def edPublic (seed : List Byte) : List Byte := (edBase.mul 255 (edSecret seed).1).bytes

/-- The Ed25519 signature of a message. -/
def edSign (seed msg : List Byte) : List Byte :=
  let (a, salt) := edSecret seed
  let key := (edBase.mul 255 a).bytes
  let r := bytesNat (sha512 (salt ++ msg)) % edL
  let rb := (edBase.mul 253 r).bytes
  rb ++ natBytes 32 ((r + bytesNat (sha512 (rb ++ key ++ msg)) % edL * a) % edL)

/-- Whether 64 bytes are the signature of a message under a public key. -/
def edVerify (key msg sig : List Byte) : Bool :=
  match edPoint key, edPoint (sig.take 32) with
  | some a, some r =>
    let s := bytesNat (sig.drop 32)
    sig.length = 64 && s < edL &&
      (edBase.mul 253 s).same (r.add (a.mul 253 (bytesNat (sha512 (sig.take 32 ++ key ++ msg)) % edL)))
  | _, _ => false

/-! ## Signed objects (R85) -/

/-- The signature of an object: of the digest of its bytes before the signature (R85). -/
def signObject (seed bytes : List Byte) : List Byte := edSign seed (sha512 bytes)

/-- Whether the signature of an object verifies (R85). -/
def objectOk (key bytes sig : List Byte) : Bool := edVerify key (sha512 bytes) sig

end Sys2Proof.Machine
end

