-- ==== Sys2Proof/Machine/Signed.lean ====
section
/-! DEFINITION. The hub's flash store and fixed store (R65, R85-R89): what they hold, the bytes of each signed object, and
which signatures verify. -/

namespace Sys2Proof.Machine

/-- A table by number: (key, value) pairs with keys rising. -/
abbrev Sparse (α : Type) := List (Nat × α)

/-- A lease policy (R146). -/
structure Policy where
  threshold : Nat
  inflight : Nat
  interval : Nat
  deriving DecidableEq, Repr

/-- A patch image: its bytes, the last 64 of them its signature (R65, R85). -/
structure PatchImage where
  bytes : List Byte
  deriving DecidableEq, Repr

/-- A retirement record (R89) with its signature. -/
structure Retirement where
  seq : Nat
  u : UnitRef
  phys : Nat
  spare : Nat
  reason : Nat
  score : Nat
  time : Nat
  sig : List Byte
  deriving DecidableEq, Repr

/-- The identity record (R86): serial number, stepping, identity public key, bitmaps of built cores, built slices and cores
enabled at shipment, one each per die, and the signature. -/
structure Identity where
  serial : Nat
  stepping : Nat
  idkey : List Byte
  built : List Nat
  builtSlices : List Nat
  enabled : List Nat
  sig : List Byte
  deriving DecidableEq, Repr

/-- What the configuration region holds (R88): module number, default HDM size in GiB, default lease policy. -/
structure Settings where
  module : Nat
  hdm : Nat
  policy : Policy
  deriving DecidableEq, Repr

/-- What the service store holds (R88): scores by unit code, the last recorded module time. -/
structure Service where
  scores : Sparse Nat
  mtime : Nat
  deriving DecidableEq, Repr

/-- One copy of a flash region that is written whole (R88): its sequence number, what it holds, the signature of each of its
entries. -/
structure Copy (α : Type) where
  seq : Nat
  val : α
  sigs : List (List Byte)
  deriving DecidableEq, Repr

/-- The hub's fixed store: the release public key and the contents of the ROM (R85, R87), the seed of the device identity
private key in the fuses (R85), and the one-time-programmable counter (R65). -/
structure Rom where
  releaseKey : List Byte
  image : List Byte
  seed : List Byte
  otp : Nat
  deriving DecidableEq, Repr

/-- The signed flash store (R88): identity record, two copies of the configuration region, patch slots A and B, two copies of
the service store, the retirement log. Which copy of the service store counts start-up has found, and each write has told. -/
structure Flash where
  identity : Identity
  configA : Copy Settings
  configB : Copy Settings
  patchA : Option PatchImage
  patchB : Option PatchImage
  serviceA : Copy Service
  serviceB : Copy Service
  newestB : Bool
  log : List Retirement
  deriving DecidableEq, Repr

/-! ## Regions (R88) -/

/-- Bytes of the flash store, of its identity, configuration, patch-slot and service regions (R88). -/
def flashBytes : Nat := 16 * 2 ^ 20
/-- Bytes of the identity region (R88). -/
def identityBytes : Nat := 4 * 2 ^ 10
/-- Bytes of the configuration region (R88). -/
def configBytes : Nat := 64 * 2 ^ 10
/-- Bytes of one patch slot (R88). -/
def patchBytes : Nat := 4 * 2 ^ 20
/-- Bytes of the service store (R88). -/
def serviceBytes : Nat := 64 * 2 ^ 10

/-- Records the retirement log has room for: the remainder of the store, at 128 bytes a record (R88, R89). -/
def logRoom : Nat := (flashBytes - identityBytes - configBytes - 2 * patchBytes - serviceBytes) / 128

/-! ## Objects as bytes -/

/-- The identity record before its signature (R86). -/
def Identity.body (i : Identity) : List Byte :=
  natBytes 4 0x44495A41 ++ natBytes 16 i.serial ++ natBytes 1 i.stepping ++ natBytes 11 0 ++ (i.idkey ++ List.replicate 32 0).take 32 ++
    (List.range 4).flatMap fun d => natBytes 9 (i.built.getD d 0) ++ natBytes 9 (i.builtSlices.getD d 0) ++
      natBytes 9 (i.enabled.getD d 0) ++ natBytes 5 0

/-- The 256 bytes of the identity record (R86). -/
def Identity.bytes (i : Identity) : List Byte := i.body ++ i.sig

/-- A retirement record before its signature (R89). -/
def Retirement.body (r : Retirement) : List Byte :=
  natBytes 4 r.seq ++ natBytes 1 r.u.kind ++ natBytes 1 r.u.die ++ natBytes 2 r.phys ++ natBytes 2 r.u.unit ++
    natBytes 2 r.spare ++ natBytes 1 r.reason ++ natBytes 1 0 ++ natBytes 2 r.score ++ natBytes 8 r.time ++ natBytes 40 0

/-- The 128 bytes of a retirement record (R89). -/
def Retirement.bytes (r : Retirement) : List Byte := r.body ++ r.sig

/-- An entry of a region the manual gives no layout (R88): sequence number, kind, values of eight bytes each. DESIGN CHOICE,
log entry 90. -/
def entryBody (seq kind : Nat) (vs : List Nat) : List Byte :=
  natBytes 4 seq ++ natBytes 4 kind ++ vs.flatMap (natBytes 8)

/-- The entries of a copy of the configuration region before their signatures (R88). -/
def Settings.entries (seq : Nat) (x : Settings) : List (List Byte) :=
  [entryBody seq 0 [x.module], entryBody seq 1 [x.hdm],
    entryBody seq 2 [x.policy.threshold, x.policy.inflight, x.policy.interval]]

/-- The one entry of a copy of the service store before its signature (R88). -/
def Service.entries (seq : Nat) (x : Service) : List (List Byte) :=
  [entryBody seq 3 (x.mtime :: x.scores.flatMap fun e => [e.1, e.2])]

/-- The bytes of the configuration region: the entries of both copies with their signatures. -/
def Flash.configRegion (f : Flash) : List Byte :=
  [f.configA, f.configB].flatMap fun c =>
    ((Settings.entries c.seq c.val).zip c.sigs).flatMap fun e => e.1 ++ e.2

/-! ## Signatures (R85) -/

/-- Whether every entry of a copy carries a good signature (R88). -/
def entriesOk (key : List Byte) (es sigs : List (List Byte)) : Bool :=
  es.length = sigs.length && (es.zip sigs).all fun e => objectOk key e.1 e.2

/-- A copy with its entries signed. -/
def signCopy {α : Type} (seed : List Byte) (entries : Nat → α → List (List Byte)) (seq : Nat) (v : α) : Copy α :=
  ⟨seq, v, (entries seq v).map (signObject seed)⟩

/-- The copy that counts (R88): of those with good signatures the one with the higher sequence. -/
def bestCopy {α : Type} (key : List Byte) (entries : Nat → α → List (List Byte)) (a b : Copy α) : Option (Copy α) :=
  let ok (c : Copy α) : Bool := entriesOk key (entries c.seq c.val) c.sigs
  match ok a, ok b with
  | true, true => some (if a.seq < b.seq then b else a)
  | true, false => some a
  | false, true => some b
  | false, false => none

/-- The configuration that counts (R88). -/
def Flash.config (f : Flash) : Option Settings := (bestCopy f.identity.idkey Settings.entries f.configA f.configB).map (·.val)

/-- The service store that counts (R88). -/
def Flash.service (f : Flash) : Option Service := (bestCopy f.identity.idkey Service.entries f.serviceA f.serviceB).map (·.val)

/-- Whether the store verifies at start-up (R24 step 1): the identity record under the release key, and a good copy of the
configuration and of the service store. -/
def Flash.verifies (f : Flash) (r : Rom) : Bool :=
  objectOk r.releaseKey f.identity.body f.identity.sig && f.config.isSome && f.service.isSome

/-- Start-up finds which copy of the service store counts (R88). -/
def Flash.findNewest (f : Flash) : Flash :=
  let good (c : Copy Service) : Bool := entriesOk f.identity.idkey (Service.entries c.seq c.val) c.sigs
  { f with newestB := good f.serviceB && (!good f.serviceA || f.serviceA.seq < f.serviceB.seq) }

/-- The service store written whole to its other copy (R88), with a sequence number above both: that copy counts from then on. -/
def Flash.writeService (f : Flash) (r : Rom) (v : Service) : Flash :=
  let c := signCopy r.seed Service.entries (max f.serviceA.seq f.serviceB.seq + 1) v
  if f.newestB then { f with serviceA := c, newestB := false } else { f with serviceB := c, newestB := true }

/-- What the service store holds: the copy that counts. -/
def Flash.stored (f : Flash) : Service := if f.newestB then f.serviceB.val else f.serviceA.val

/-- The records of the log that verify, in order: the first that does not ends the log (R89). -/
def Flash.records (f : Flash) : List Retirement := f.log.takeWhile fun r => objectOk f.identity.idkey r.body r.sig

/-! ## Patches (R65) -/

/-- What of an image its signature covers. -/
def PatchImage.signed (p : PatchImage) : List Byte := p.bytes.take (p.bytes.length - 64)

/-- Whether an image's signature verifies under the release key (R65, R85). -/
def PatchImage.sigOk (p : PatchImage) (r : Rom) : Bool :=
  objectOk r.releaseKey p.signed (p.bytes.drop (p.bytes.length - 64))

/-- The security version an image carries (R65); where it stands in the image the manual does not say (log entry 1). -/
def PatchImage.secver (p : PatchImage) : Nat := Config.imageSecver p.bytes % 2 ^ 32

/-- The stepping field of an image (R65); its place is not given either (log entry 1). -/
def PatchImage.stepping (p : PatchImage) : Nat := Config.imageStepping p.bytes % 2 ^ 8

/-- Whether start-up accepts a patch (R65). -/
def PatchImage.accepted (p : PatchImage) (r : Rom) : Bool := p.sigOk r && p.stepping = 0x10 && r.otp ≤ p.secver

/-- The patch slots in the order start-up tries them, each image with whether it lies in slot B: the higher security version first
(R88). With equal versions slot A is tried first: the manual gives no order there (DESIGN CHOICE, log entry 91). -/
def Flash.slots (f : Flash) : List (Bool × PatchImage) :=
  match f.patchA, f.patchB with
  | some a, some b => if a.secver < b.secver then [(true, b), (false, a)] else [(false, a), (true, b)]
  | a, b => a.toList.map (false, ·) ++ b.toList.map (true, ·)

/-! ## As shipped (log entry 4) -/

/-- The public key of the seed of 32 zero bytes. -/
def zeroKey : List Byte := natBytes 32 0x29da598ba148c03aa643e21d77153265730d6f2ad0a8a3622da4b6cebc276a3b

/-- The fixed store of a module whose keys, ROM and fuses the model names: seeds of zeros, an empty ROM. -/
def Rom.shipped : Rom := ⟨zeroKey, [], List.replicate 32 0, 0⟩

/-- The identity record before it is signed. -/
def Identity.shipped : Identity :=
  ⟨0, 0x10, zeroKey, List.replicate 4 (2 ^ 68 - 1), List.replicate 4 (2 ^ 68 - 1),
    List.replicate 4 (2 ^ 64 - 1), []⟩

/-- The signatures under the seed of zeros of the identity record as shipped, of the three entries of the configuration, and of the
entry of the service store. -/
def shippedSigs : List (List Byte) := [
  natBytes 64 0x0a94d6a258c40318fa6cf8ae99106c088b33d429b9e851abd96043b5607c81b7257b9643b60c86b8d9b5390d9f9d14d451df647ffc7e1141112984419f765876,
  natBytes 64 0x03a44e5b8406703e9ea209fa1857db894a78c878cfeb3052a5c67e7a7da1ab1b050211fe4df373036946bf110f8c7714ee79fb726470970b3d5d6eb33060fa71,
  natBytes 64 0x03ce089b59afca55ad0a1b230375f7caec4ee4fecce73198b0a062cdaa1a633f0a2e7e1068e20a2684b45506664adc427a2a604a7e35c1136cade4bdc6b549e0,
  natBytes 64 0x0bb89e577b8af8e5ec99e53a972cea6da5a0d8430b81de0299182909f5a597a03dfa3ad2eb39c85a231c710679ff11bd0c0735a45ec1046565b6de02c7d757a4,
  natBytes 64 0x0768906b417ca02520cda482939a38d4e2a515ba0043a0e0689cd1fc05448b6d3dfe0e5331d66941fac754e71e80581daa8f02fc399430f7853b3ffe2c2da6e2]

/-- The flash store as shipped, its objects signed (that they verify is proved in Laws/Signed). -/
def Flash.shipped : Flash :=
  { identity := { Identity.shipped with sig := shippedSigs.getD 0 [] }
    configA := ⟨1, ⟨0, 0, ⟨Config.defaultThreshold, 1, 0⟩⟩, (shippedSigs.drop 1).take 3⟩
    configB := ⟨0, ⟨0, 0, ⟨0, 0, 0⟩⟩, []⟩
    patchA := none
    patchB := none
    serviceA := ⟨1, ⟨[], 0⟩, shippedSigs.drop 4⟩
    serviceB := ⟨0, ⟨[], 0⟩, []⟩
    newestB := false
    log := [] }

end Sys2Proof.Machine
end

