-- ==== Sys2Proof/Machine/State.lean ====
section
/-! DEFINITION. The state of an AZM-940 module as plain data: hub and flash (Sys), and the machine proper (Mach), which holds
memory, cores, teams, warps, tasks, frames and operations under way. Tables are lists of (key, value), keys rising. -/

namespace Sys2Proof.Machine

/-! ## Places, accesses and faults -/

/-- Where an access lands: a device physical address (R28), or an offset in a team's local store (R193). -/
inductive Place where
  | dev (pa : Nat)
  | ls (team off : Nat)
  deriving DecidableEq, Repr

/-- One lane's access (R209): lane, the address the program gave, where it lands, and whether its page may stand in the
L1D (R199). -/
structure LaneAcc where
  lane : Nat
  va : Nat
  place : Place
  cache : Bool
  deriving DecidableEq, Repr

/-- A fault record (R252, R253), 64 bytes when written out. -/
structure FaultRec where
  cause : Nat
  oppos : Nat
  sv : Bool
  scope : Nat
  deferred : Bool
  nested : Bool
  hfail : Bool
  lanes : Lanes
  pc : DWord
  addr : DWord
  origPc : DWord
  launch : Nat
  teamIx : Nat
  warp : Nat
  depth : Nat
  detail : DWord
  deriving DecidableEq, Repr

/-- A task descriptor (R114). -/
structure Desc where
  closure : DWord
  future : DWord
  typ : Nat
  x : Nat
  y : Nat
  z : Nat
  scope : Nat
  loc : Bool
  remote : Bool
  origin : Nat
  deriving DecidableEq, Repr

/-- An operand declaration (R118). -/
structure Oper where
  lsoff : Nat
  rstride : Nat
  scope : Nat
  fmt : Nat
  rowb : Nat
  rowsM1 : Nat
  szf : Nat
  syf : Nat
  sxf : Nat
  basef : Nat
  deriving DecidableEq, Repr

/-- A task-type table entry as read (R116). -/
structure TtEntry where
  entry : DWord
  frame : Nat
  prio : Nat
  lsdem : Nat
  noper : Nat
  teamkib : Nat
  opers : List Oper
  deriving DecidableEq, Repr

/-! ## Frames, paths, flags -/

/-- An operand-latch entry (R184): the path that made it, by its lanes and frame, register, width, each lane's value, uses left. -/
structure LatchEntry where
  lanes : Lanes
  frame : Nat
  reg : Nat
  wide : Bool
  vals : List DWord
  uses : Nat
  deriving DecidableEq, Repr

/-- How one lane returns from a frame (R262): caller frame, return point and its clause, window base, NRES. -/
structure Link where
  caller : Nat
  retPc : DWord
  retClause : DWord
  w : Nat
  nres : Nat
  deriving DecidableEq, Repr

/-- What a handler frame records (R256): the fault record, the path's PC and clause, whether it had passed the clause's header,
its latch entries. -/
structure Handler where
  frec : FaultRec
  pc : DWord
  clause : DWord
  entered : Bool
  latch : List LatchEntry
  deriving DecidableEq, Repr

/-- A frame (R179-R181): demand in registers, each register of each lane at key 32 × register + lane (0 unlisted),
pending marks at the same keys holding a flag number (R187), depth, each lane's link, each lane's unwind mark (R265),
handler data, the Escapement image offset while spilled (R267), and the shadow warp's registers in a launch in shadow mode
(R156; keys as for its own). -/
structure Frame where
  task : Nat
  demand : Nat
  regs : Sparse Word
  pend : Sparse Nat
  depth : Nat
  links : Sparse Link
  marks : Sparse Link
  handler : Option Handler
  spilled : Option Nat
  twin : Sparse Word
  deriving DecidableEq, Repr

/-- One lane of a call in progress: target, and the NARG and NRES of its header (R261, R263). -/
structure CallLane where
  lane : Nat
  target : DWord
  narg : Nat
  nres : Nat
  deriving DecidableEq, Repr

/-- A frame request that can block a path (R170, R179); a handler's keeps the vector it was raised with (R254, R256). -/
inductive FrameReq where
  | call (granules w : Nat) (mk : Bool) (lanes : List CallLane) (retPc retClause : DWord)
  | handler (granules vec : Nat) (frec : FaultRec)
  | restore
  deriving DecidableEq, Repr

/-- What a WAITING path waits for (R170): a future (R132), a scope (R135), a barrier (R358), a byte barrier (R361). -/
inductive Wait where
  | join (cell : Nat) (va : DWord) (trapping : Bool) (d : Nat) (act : Lanes)
  | fin (scope : Nat)
  | bar (b : Nat) (gen : Word)
  | bb (off : Nat) (gen : Word) (scope : Scope)
  deriving DecidableEq, Repr

/-- The state of a path (R170). A blocked path's number is its place in the allocator's order (R179). -/
inductive PathSt where
  | eligible
  | demoted (q : Lanes)
  | waiting (w : Wait)
  | blocked (r : FrameReq) (order : Nat)
  deriving DecidableEq, Repr

/-- A path (R167): its lanes, their PC and current frame, the clause that holds the PC, whether the clause's header
has been passed, its state, and for how long its wait has been attributed, in ns (R164). -/
structure Path where
  lanes : Lanes
  pc : DWord
  clause : DWord
  entered : Bool
  frame : Nat
  st : PathSt
  attributed : Nat
  deriving DecidableEq, Repr

/-- A completion flag (R185): outstanding operations, the deferred faults that mark it (R250), each with the number of the
operation that left it, and whether a completion at `.cl` or wider awaits the acquire of a wait that observes it (R219). -/
structure Flag where
  count : Nat
  faults : List (Nat × FaultRec)
  acq : Bool
  deriving DecidableEq, Repr

/-! ## Tasks, warps, teams -/

/-- Task states (R130). An ended task stays until the flags of its warp are clear (R177, R189). -/
inductive TaskSt where
  | queued | staging | ready | inTransit
  | running (warp : Nat)
  | parked
  | resumable
  | ended (warp : Nat)
  deriving DecidableEq, Repr

/-- An instruction the leader of a shadow pair has issued and its shadow warp has not (R156): whether it takes an entry of the
load-value queue, whether what it compares differs. -/
structure Trail where
  value : Bool
  bad : Bool
  deriving DecidableEq, Repr

/-- A task (R114, R130, R271): what travels with it through parking, stealing and saves. `entry`: when it entered its gang (R159).
`staged`,
`opers`: bytes and declarations staged. `latch`: the operand latch of its warp, oldest first (R165, R184). `trail`: what its shadow warp has yet to issue; `diverged`: the
shadow has left the leader's way (R156). `lost`: lanes whose next release reports
stores a lost peer left unacknowledged (R33); `rel`: lanes that have released at `.co` or `.wp`, so that their writes mark their
lines (R215). -/
structure Task where
  team : Nat
  desc : Desc
  st : TaskSt
  order : Nat
  entry : Nat
  tte : Option TtEntry
  buf : Option (Nat × Nat)
  bufImage : Option Nat
  staged : Nat
  opers : Nat
  run : Option Path
  paths : List Path
  latch : List LatchEntry
  demote : Lanes
  swapFail : Sparse Lanes
  flags : Sparse Flag
  prio : Nat
  fpstat : Word
  lost : Lanes
  rel : Lanes
  watch : Nat
  trail : List Trail
  diverged : Bool
  priv : Bool
  startClock : Nat
  lastIssue : Nat
  deriving DecidableEq, Repr

/-- Warp slot states (R177). -/
inductive WarpSt where
  | free | idle
  | startBlocked (order : Nat)
  | active | blocked | ending
  deriving DecidableEq, Repr

/-- A warp slot: state, its task, the unacknowledged-store counter (R205), the clock its sleep ends at (R381), the turn it
last issued (R178), the turn its shadow warp did (R156). -/
structure Warp where
  st : WarpSt
  task : Option Nat
  unacked : Nat
  sleepUntil : Nat
  lastIssue : Nat
  shadowIssue : Nat
  deriving DecidableEq, Repr

/-- Residency states of a team (R102). -/
inductive Residency where
  | waitingNew | waitingSaved | restoring | resident | draining | saving | ended
  deriving DecidableEq, Repr

/-- A team barrier (R358). -/
structure Barrier where
  gen : Word
  arr : Nat
  exp : Nat
  deriving DecidableEq, Repr

/-- An accumulator token (R403): the task that holds or pends, whether held, the operations awaited, the waiters. -/
structure Token where
  owner : Option Nat
  held : Bool
  awaits : List Nat
  waiters : List Nat
  deriving DecidableEq, Repr

/-- A team's steal request (R138): the victim asked, the task in transit once answered, teams tried this round. -/
structure Steal where
  victim : Option Nat
  reply : Option (Option Nat)
  tried : List Nat
  backoffUntil : Nat
  crossDie : Bool
  deriving DecidableEq, Repr

/-- Where the state of a saved team lies (R105, R381): a virtual address of its launch or a physical one, bytes, the number of
the first of the free bytes written there (R272, log entry 1), and where among them its range-lock entries lie (R217). -/
structure SavedImage where
  phys : Bool
  addr : Nat
  size : Nat
  base : Nat
  locksAt : Nat
  locks : List Byte
  deriving DecidableEq, Repr

/-- A team (R165): one launch on one core. Keyed launch × 256 + team index. `spoilt`: 16-byte granules of its local store that anything
but an operation on a byte barrier has written (R361, log entry 39). `evict`: it reaches into a block a MAP frees (R201).
`wideCells`: byte-barrier cells into which an operation of scope `.cl` or wider has delivered (R219). `kept`: descriptors that wait
to enter its deque again, each with when it entered the gang (R158, R159). `image`: its save. -/
structure Team where
  launch : Nat
  ix : Nat
  gang : Nat
  coreIx : Nat
  core : Nat
  unbound : Bool
  res : Residency
  order : Nat
  newcomer : Bool
  chosen : Bool
  evict : Bool
  drainEnd : Nat
  ls : List Host.Cell
  lsPoison : List Nat
  spoilt : List Nat
  wideCells : List Nat
  bars : Sparse Barrier
  deque : List Nat
  parked : List Nat
  kept : List (Nat × Desc)
  xsteal : Word
  trapvec : DWord
  idleSince : Nat
  taskcyc : Word
  clauses : Word
  tokens : Sparse Token
  slotMap : Sparse Nat
  savedAcc : List Nat
  checked : List Nat
  accWanted : List (Nat × Nat)
  image : Option SavedImage
  steal : Steal
  deriving DecidableEq, Repr

/-! ## Cores -/

/-- A store on its way to its home (R205, R206): its number, the warp it counts on, the task that issued it, address and bytes,
whether the home has performed it, the core its release marks (R215), ns its wait for a RECOVERING peer has lasted (R164). -/
structure PStore where
  id : Nat
  team : Nat
  warp : Nat
  task : Nat
  place : Place
  bytes : List Byte
  done : Bool
  relcore : Option Nat
  waitNs : Nat
  deriving DecidableEq, Repr

/-- A range-lock entry (R217). -/
structure RangeLock where
  base : Nat
  rowlen : Nat
  stride : Nat
  rows : Nat
  write : Bool
  space : Nat
  launch : Nat
  teamIx : Nat
  scope : Nat
  op : Nat
  deriving DecidableEq, Repr

/-- An ACC_OWNER entry (R109). -/
structure AccOwner where
  v : Bool
  lslot : Nat
  launch : Nat
  teamIx : Nat
  deriving DecidableEq, Repr

/-- A TLB entry (R202): ASID, first virtual address, size, leaf. -/
structure TlbEntry where
  asid : Nat
  va : Nat
  size : Nat
  leaf : DWord
  deriving DecidableEq, Repr

/-- A core: store path, L1D lines (R205) and those of raised retention (R281), instruction-cache units of 8 bytes (R207), range
locks, accumulator store (key 1024 × physical slot + 32 × row + column) with the shadow warps' slots under the same keys (R156),
ACC_OWNER, last use of each slot, TLB, last fault record (R381), issue credit, issue cycles and cycles with an eligible warp of
each partition in this window (R97, R98), the clock of its last issue cycle, and how far its CLOCK stands from the module's count
(R296). -/
structure Core where
  skew : Nat
  stores : List PStore
  l1d : Sparse (List Byte)
  l1dKeep : List Nat
  icache : Sparse DWord
  locks : List RangeLock
  acc : Sparse Word
  accTwin : Sparse Word
  owner : Sparse AccOwner
  lastUse : Sparse Nat
  tlb : List TlbEntry
  lastFault : Option FaultRec
  credit : Sparse Nat
  used : Sparse Nat
  elig : Sparse Nat
  issuedAt : Option Nat
  deriving DecidableEq, Repr

/-! ## Operations under way -/

/-- One lane of an atomic with its operands (R346). -/
structure AtomLane where
  acc : LaneAcc
  b : DWord
  c : DWord
  deriving DecidableEq, Repr

/-- A load under way (R333): access size in bytes, sign extension, lanes, first destination register, words written;
whether it is served at the home (R210), the acquire it ends with, promotion (R215), its hint (R281), and the scope its faults
name (R253). -/
structure LoadK where
  size : Nat
  sext : Bool
  lanes : List LaneAcc
  d : Nat
  words : Nat
  atHome : Bool
  acquire : Option Scope
  promote : Bool
  hint : Hint
  scope : Option Scope
  deriving DecidableEq, Repr

/-- An atomic under way (R346). -/
structure AtomK where
  fn : AtomFn
  size : Nat
  lanes : List AtomLane
  d : Option Nat
  acquire : Option Scope
  scope : Option Scope
  deriving DecidableEq, Repr

/-- A tile access under way (R343): rows, row length, where each row starts, the packed rows' local-store offset, the bytes a load
has read, the units of the packed rows moved early with what a store read there (R344), the scope its faults name (R253). -/
structure TileK where
  load : Bool
  rowlen : Nat
  rows : List Place
  team : Nat
  packed : Nat
  image : Option (List Byte)
  units : List (Nat × List Byte)
  scope : Option Scope
  deriving DecidableEq, Repr

/-- An engine copy under way (R371): rows of (source, destination, bytes), units already moved, whether source and
destination overlap, scope, cell, bytes delivered, whether a peer it needs was lost (R373), whether its data has been written and
acknowledgements of peers are awaited (R219 step 1). -/
structure EngineK where
  rows : List (Place × Place × Nat)
  doneUnits : List Nat
  overlap : Bool
  scope : Scope
  cell : Option Nat
  bytes : Nat
  lost : Bool
  sent : Bool
  deriving DecidableEq, Repr

/-- An explicit staging operation under way (R377): first address, where its rows start, row length, stride, format, packed
offset, scope, cell, the fault its evaluation met (cause, address), the packed bytes a fault leaves unspecified, whether its
declaration has a SCOPE, the units moved early (R219). -/
structure StageK where
  va : Nat
  rows : List Place
  rowlen : Nat
  stride : Nat
  fmt : Nat
  dst : Nat
  scope : Scope
  cell : Option Nat
  fault : Option (Nat × Nat)
  blank : Nat
  tile : Bool
  units : List Nat
  deriving DecidableEq, Repr

/-- Kinds of collective (R59). -/
inductive CollKind where
  | gather | reduce (op : SumOp) (t : Ty) | exchange | barrier
  deriving DecidableEq, Repr

/-- One member's part of a collective (R379): group, member cluster, kind, size operand, source and destination pieces,
completion block, whether its cell counts, release scope, clock of issue. -/
structure CollK where
  group : Nat
  member : Nat
  kind : CollKind
  size : Nat
  src : List (Place × Nat)
  dst : List (Place × Nat)
  block : Nat
  bb : Bool
  scope : Scope
  issued : Nat
  deriving DecidableEq, Repr

/-- The matrix forms (R394). -/
inductive MForm where
  | dense | chained | packedS | packedDs | gather | gatherChained
  deriving DecidableEq, Repr

/-- A matrix operation under way (R396-R401): form and fields, where A and B lie, their addresses as given, adapter ids of the 32
slot rows, table base, KB or NB, adapters; once the operands are read their bytes, and each adapter's rank and factor
columns; whether it leaves its slot unchanged; of what it reads at a peer, the address and bytes asked for, and what has come, by
address, with whether it is poisoned (R155, R399). -/
structure MmaK where
  form : MForm
  f : MmaF
  sslot : Nat
  hs : Bool
  a : Option Place
  b : Option Place
  aAddr : Nat
  bAddr : Nat
  ids : List Nat
  table : Nat
  kb : Nat
  nadp : Nat
  aBytes : List Byte
  bBytes : List Byte
  adapters : Sparse (Nat × List Byte)
  read : Bool
  void : Bool
  asked : Option (Nat × Nat)
  got : List (Nat × List Byte × Bool)
  deriving DecidableEq, Repr

/-- What an operation does when it completes; `fetch` is a staging read at a peer (R125), `combine` the root of a reduction element
sent to a destination at a peer (R353). -/
inductive OpKind where
  | writes (ws : List (Nat × Nat × Word)) (fp : Word)
  | load (k : LoadK)
  | atomic (k : AtomK)
  | tile (k : TileK)
  | purge (discard : Bool) (ranges : List (Nat × Nat × Bool))
  | resolve (cell : Option Nat) (value : DWord) (d : Nat)
  | finOpen (s p d : Nat)
  | spawnR (desc : Desc) (peer : Nat) (d : Nat)
  | rdet (ctx e k : Nat) (t : Ty) (vals : List (Option Word))
  | rclose (ctx d : Nat)
  | accAcq (slot : Nat)
  | engine (k : EngineK)
  | accStore (rows : List (Nat × List Byte))
  | stage (k : StageK)
  | coll (k : CollK)
  | mma (k : MmaK)
  | ctxSave (team : Option Nat) (region : Nat) (d : Nat)
  | ctxLoad (team : Nat) (region : Nat) (d : Nat)
  | frecRd (pa : Nat) (bytes : List Byte)
  | fetch (k pa n : Nat)
  | combine (launch ctx e : Nat)
  | leaseTst (u : UnitRef) (pat : Nat) (d : Nat)
  | leaseRel (lease : Nat) (fail : Bool) (d : Nat)
  | tlbInv (va : Nat) (asid : Nat) (mode : Nat)
  | bezelRd (die port off : Nat) (d : Nat)
  | bezelWr (die port off : Nat) (v : Word)
  deriving DecidableEq, Repr

/-- A long-latency operation (R185): who issued it, the frame its results go to, the flag it counts on, its lanes, whether
it counts in the unacknowledged-store counter, its reply from a peer and whether that is poisoned (R155), and whether its results
are discarded (R181). -/
structure Op where
  team : Nat
  warp : Nat
  task : Nat
  frame : Nat
  core : Nat
  flag : Option Nat
  lanes : Lanes
  pc : DWord
  counted : Bool
  reply : Option (List Byte)
  replyBad : Bool
  dead : Bool
  gone : Bool
  waitNs : Nat
  kind : OpKind
  deriving DecidableEq, Repr

/-! ## Launches -/

/-- States of a finish scope (R135). -/
inductive ScopeSt where
  | free | opened | closing
  deriving DecidableEq, Repr

/-- A finish scope (R135). -/
structure FinScope where
  st : ScopeSt
  parent : Nat
  count : Nat
  deriving DecidableEq, Repr

/-- A group-table entry (R58). -/
structure Group where
  members : DWord
  timeout : Nat
  scope : Scope
  deriving DecidableEq, Repr

/-- States of a reduction context (R349). -/
inductive RedSt where
  | opened | done | failed
  deriving DecidableEq, Repr

/-- A reduction context (R350): the declaration with the destination's address and the buffer's ranges (address, bytes) as
translated, the contributing teams with their cores as bound, the elements applied, and the slots at peers it has filled, by
address. -/
structure RedCtx where
  st : RedSt
  op : SumOp
  ty : Ty
  scope : Scope
  dst : Nat
  buf : List (Nat × Nat)
  tlo : Nat
  thi : Nat
  elems : Nat
  slots : Nat
  bind : List (Nat × Nat)
  applied : List Nat
  away : Sparse Word
  deriving DecidableEq, Repr

/-- A collective in flight (R61, R380): its kind and size, the members arrived with their operations, the clock of the first
arrival, whether its data has been written and acknowledgements of peers are awaited (R219 step 1). -/
structure Collective where
  kind : CollKind
  size : Nat
  arrived : List (Nat × Nat)
  start : Nat
  sent : Bool
  deriving DecidableEq, Repr

/-- An image in the Escapement region (R127, R267): offset, bytes, the offset of the leader's image where it is the shadow's
(R156), the number of the first of the free bytes written (R272), and of a staging buffer the bytes it holds, its granules whose
byte-barrier cells have no specified fields (R361) and its poisoned lines (R155), as offsets in units of the local store. -/
structure Image where
  off : Nat
  size : Nat
  pair : Option Nat
  base : Nat
  bytes : List Byte
  spoilt : List Nat
  poison : List Nat
  deriving DecidableEq, Repr

/-- An admitted launch (R80, R165); gangs that wait for their relaunch (R159); the status it ends with once stopped from
outside (R77, R23). `owed`: by group, the members that have yet to issue their part of a collective that has failed, each with its
CAUSE and FAILEDMASK (R62, R380). -/
structure Launch where
  part : Nat
  asid : Nat
  restart : Bool
  shadow : Bool
  hasInbox : Bool
  gangs : Nat
  cores : Nat
  warps : Nat
  xsteal : Word
  trapvec : DWord
  deadline : Nat
  lcr : DWord
  spillBase : DWord
  spillSize : Nat
  granules : Nat
  lsBytes : Nat
  accSlots : Nat
  dequeCap : Nat
  ttBase : DWord
  ttCount : Nat
  teamKib : Nat
  evq : Nat
  inboxGen : Nat
  inbox : List (Desc × Nat)
  inboxNext : Nat
  scopes : Sparse FinScope
  groups : Sparse Group
  owed : Sparse (List (Nat × Nat × DWord))
  redctx : Sparse RedCtx
  colls : Sparse Collective
  killed : Nat
  relaunched : Nat
  relaunching : List Nat
  stop : Option Nat
  faults : Nat
  spills : Nat
  first : Option FaultRec
  capacity : DWord
  noteSeq : Word
  images : List Image
  deriving DecidableEq, Repr

/-! ## Fabric and memory side -/

/-- States of a domain entry (R50). -/
inductive DomSt where
  | inactive | active | writeback | switch | replay
  deriving DecidableEq, Repr

/-- A domain entry (R49, R50): range in GiB units, mask, generation, state; what the entry becomes at the switch, the other
entry of the same split or merge, the number of the first request held in SWITCH, requests not yet replayed. -/
structure Domain where
  base : Nat
  lim : Nat
  mask : DWord
  gen : Bool
  st : DomSt
  newBase : Nat
  newLim : Nat
  newMask : DWord
  partner : Option Nat
  since : Nat
  stale : List Nat
  deriving DecidableEq, Repr

/-- A pinned page (R199-R201): first frame address, size, local-store core or slice. -/
structure Pin where
  pa : Nat
  size : Nat
  inLs : Bool
  tgt : Nat
  deriving DecidableEq, Repr

/-- A write that waits at a migration gate (R161): a store of a core, an operation under way, a peer's request, a future operation
performed for a task. -/
inductive Gated where
  | store (core id : Nat)
  | op (n : Nat)
  | peer (id : Nat)
  | cell (id : Nat)
  deriving DecidableEq, Repr

/-- What a future operation performed for a task does to its cell (R131): a resolution, the setting of CFLAGS.REMOTE for the module
that took the spawn (R142), the resolution a module sends or its loss brings (R143, R33). -/
inductive CellAct where
  | resolve (faulted : Bool) (v : DWord)
  | remote (module : Nat)
  | answer (module : Nat) (faulted : Bool) (v : DWord)
  deriving DecidableEq, Repr

/-- A future operation performed for a task: the ASID and the address of its cell, what it does. -/
structure CellOp where
  asid : Nat
  va : Nat
  act : CellAct
  deriving DecidableEq, Repr

/-- A sealed migration unit (R161): old and new place, size, the pages it relocates (ASID, VA; none for a block of a
channel's stack, whose address stays: R148, R160 step 2), what waits at its gate in order of arrival, and the bytes of the stack
whose blocks are copied after this one. -/
structure Migration where
  old : Nat
  new : Nat
  size : Nat
  pages : List (Nat × Nat)
  gate : List Gated
  rest : Nat
  deriving DecidableEq, Repr

/-- A Memory-class request of a peer that has arrived and is not yet applied (R31): its number, the sender, the address, the
module time of arrival. -/
structure PeerIn where
  id : Nat
  module : Nat
  pa : Nat
  req : PeerReq
  at_ : Nat
  deriving DecidableEq, Repr

/-- A message an NI holds for gated routers (R37, R39): the operation or store it belongs to, whether it is a reply, its two
stops, the gated routers the NI has sent a Wake to. -/
structure Msg where
  n : Nat
  reply : Bool
  src : Nat
  dst : Nat
  shut : List Nat
  deriving DecidableEq, Repr

/-- What the hub sends to the host over CXL.mem (R26): the bytes of a read and whether they carry poison, and back-invalidate
snoops of lines. -/
inductive HostMsg where
  | data (bytes : List Byte) (poison : Bool)
  | backInvalidate (line : Nat)
  deriving DecidableEq, Repr

/-- A context (R196): its partition and page-table root. -/
structure Ctx where
  part : Nat
  root : Nat
  deriving DecidableEq, Repr

/-- Connection states of a peer (R32). -/
inductive Conn where
  | absent | up | recovering | down
  deriving DecidableEq, Repr

/-- A message sent to a peer (R31), in issue order: reads, writes and atomics by operation, spawns, resolutions, and the
root of a reduction element (R353). -/
inductive PeerMsg where
  | request (module op : Nat)
  | write (module pa : Nat) (bytes : List Byte) (poison : Bool)
  | task (module op : Nat)
  | future (module : Nat) (pa : Nat) (faulted : Bool) (value : DWord)
  | taskReply (module : Nat) (code : Nat)
  | data (module : Nat) (bytes : List Byte) (poison : Bool)
  | refuse (module : Nat) (pa : Nat)
  | combine (module pa : Nat) (op : SumOp) (t : Ty) (v : Word)
  deriving DecidableEq, Repr

/-- A remote future cell (R143): ASID and address, and the module that will resolve it. -/
structure RemoteCell where
  asid : Nat
  va : Nat
  module : Nat
  deriving DecidableEq, Repr

/-- A gang kill asked for but not yet carried out (R157): launch, gang, record. -/
structure Kill where
  launch : Nat
  gang : Nat
  frec : FaultRec
  deriving DecidableEq, Repr

/-- The numbers an event names: which team, warp, unit or number it concerns. -/
structure Subject where
  x : Nat
  y : Nat
  z : Nat
  deriving DecidableEq, Repr

/-- What moves in a turn: a warp issues, a shadow warp issues (R156), a silent error changes a register or an accumulator word of
a leader or of its shadow (R156), an event of the table happens (with its subject), a consumed command acts, a
store reaches its home before its acknowledgement, an engine moves one 8-byte unit early. -/
inductive Act where
  | issue (team warp : Nat) (refetch : Bool)
  | shadow (team warp : Nat)
  | upset (frame reg lane : Nat) (twin : Bool) (v : Word)
  | upsetAcc (core key : Nat) (twin : Bool) (v : Word)
  | event (i : Instr) (x y z : Nat)
  | command (n : Nat)
  | perform (core store : Nat)
  | unit (op n : Nat)
  deriving DecidableEq, Repr

/-- One entry of the agenda: core clocks and nanoseconds that pass, the warps (team, warp) that an interlock (R188), a fetch or a wait
at issue keeps from being eligible in those clocks (log entry 103), then what moves. -/
structure Turn where
  clocks : Nat
  ns : Nat
  held : List (Nat × Nat)
  act : Act
  deriving DecidableEq, Repr

/-- The machine proper. -/
structure Mach where
  /-- Bytes at device physical addresses, host memory and the table reserve included (R28, R196). Reset: nothing
  listed; an unlisted byte reads 0 (R24 step 4 for HBM; log entry 3 for host memory). -/
  mem : List Host.Cell
  /-- Poisoned 128-byte lines, by line number (R155). Reset: none. -/
  poison : List Nat
  /-- Lines an L2 slice holds dirty, by line number (R50, R340). Reset: none. -/
  dirty : List Nat
  /-- Replicas: line number × 4 + die, with the 128 bytes the replica holds (R45). Reset: none. -/
  replicas : Sparse (List Byte)
  /-- Host lines a die holds (R27, R44), line number × 4 + die. Reset: none. -/
  hostLines : List Nat
  /-- Lines the slices hold, their own, replicas and host lines alike: line number × 4 + die, with the logical slice of that
  die (R40, R44, R45). Reset: none. -/
  l2 : Sparse Nat
  /-- Retention of lines in the slices that a hint has set, by the keys of l2 (R281): 0 the lowest, 2 raised, 1 where unlisted.
  Reset: none. -/
  l2rank : Sparse Nat
  /-- Lines of local HBM the host may hold (R26). Reset: none. -/
  hostCopies : List Nat
  /-- What the hub has sent to the host over CXL.mem (R26). Reset: none. -/
  hostOut : List HostMsg
  /-- RELCORE marks of lines (R215): line number to core. Reset: none. -/
  relcore : Sparse Nat
  /-- 2-bit compression state of each 512-byte block (R53). Reset: uncompressed. -/
  blocks : Sparse (BitVec 2)
  /-- Domain entries, die × 8 + k (R42, R49). Reset: R42. -/
  domains : Sparse Domain
  /-- Pinned pages (R199). Reset: none. -/
  pins : List Pin
  /-- Pages whose MAP waits for its local-store block (R201). Reset: none. -/
  pinning : List Pin
  /-- Frames of pages never cached, and of pages with CMP: first address and size (R197, R199). Reset: none. -/
  uncached : List (Nat × Nat)
  cmps : List (Nat × Nat)
  /-- Sealed migration units (R161). Reset: none. -/
  migs : Sparse Migration
  /-- Frames whose page has moved: old and new address, size, for requests of peers that name the old one (R161). Reset: none. -/
  moved : List (Nat × Nat × Nat)
  /-- Local HBM ranges freed by unreplaced channels (R28, R160): base and size. Reset: none. -/
  freed : List (Nat × Nat)
  /-- Physical unit behind a logical one where it is not the number itself (R15, R16): unit code to physical number. Reset: none. -/
  phys : Sparse Nat
  /-- Power-gated routers (R35, R39): 2 × (die × 68 + stop), one more for the reply router. Reset: none. -/
  gated : List Nat
  /-- Messages held for gated routers (R39), in the order they were sent. Reset: none. -/
  heldMsgs : List Msg
  /-- Module number (R29). Reset: 0, taken from the flash store at start-up. -/
  device : Nat
  /-- Peer connections by module (R32). Reset: absent. -/
  peers : Sparse Conn
  /-- Peer links by link: the module each reaches (R29, R30). Reset: none. -/
  links : Sparse Nat
  /-- Messages sent to peers (R31). Reset: none. -/
  peerOut : List PeerMsg
  /-- Memory-class requests of peers not yet applied, in order of arrival (R31). Reset: none. -/
  peerIn : List PeerIn
  /-- Remote future cells (R143, R33). Reset: none. -/
  remoteCells : List RemoteCell
  /-- Future operations performed for tasks that their home holds back (R50, R143, R161), by number. Reset: none. -/
  late : Sparse CellOp
  /-- Resolutions that wait for the acknowledgement of their task's stores at peers (R143): task, message. Reset: none. -/
  dueFutures : List (Nat × PeerMsg)
  /-- Contexts by ASID (R196, R438). Reset: none. -/
  ctxs : Sparse Ctx
  /-- Demand-zero pages an access stalls on (R203): ASID and VA. Reset: none. -/
  demand : List (Nat × Nat)
  /-- Core clocks since reset (R296). Reset: 0. -/
  clock : Nat
  /-- Module time in ns (R67). Reset: the last count the service store records. -/
  mtime : Nat
  /-- The TLB each die shares, by die (R202). Reset: empty. -/
  dieTlb : Sparse (List TlbEntry)
  /-- Cores by logical number (R17). Reset: each as Core with nothing in it. -/
  cores : Sparse Core
  /-- Launches by number (R438). Reset: none. -/
  launches : Sparse Launch
  /-- Teams by launch × 256 + index (R94). Reset: none. -/
  teams : Sparse Team
  /-- Warps by team key × 64 + warp (R177). Reset: none. -/
  warps : Sparse Warp
  /-- Tasks by serial number (R130). Reset: none. -/
  tasks : Sparse Task
  /-- Frames by serial number (R179). Reset: none. -/
  frames : Sparse Frame
  /-- Operations under way by serial number (R185, R371, R401). Reset: none. -/
  ops : Sparse Op
  /-- Gang kills asked for (R157). Reset: none. -/
  kills : List Kill
  /-- SVCTL: watchdog limit, recovery cap, ingress hold limit (R162). Reset: 0x0804_0080. -/
  svctl : Word
  /-- RPLCTL by die (R48). Reset: 0x9. -/
  rplctl : Sparse Word
  /-- The warp that issues next when the agenda is empty: team key, warp (the model's own). Reset: none. -/
  focus : Option (Nat × Nat)
  /-- Serial numbers given so far (the model's own). Reset: 0. -/
  serial : Nat
  /-- Free values taken so far (the model's own, log entry 1). Reset: 0. -/
  free : Nat
  /-- Whether the fetch of this turn must read the L2 (R207; the model's own, set from the turn). Reset: true. -/
  refetch : Bool
  deriving DecidableEq, Repr

/-! ## Hub and flash -/

/-- Phases of the module (R21, R23, R24, R66). -/
inductive Phase where
  | off | startup | running | thermalHalt | fatal
  deriving DecidableEq, Repr

/-- A command queue (R68): partition bound (none for the admin queue), LOGN, base, HEAD, stopped by QUEUE_ERROR. -/
structure CmdQueue where
  part : Option Nat
  logn : Nat
  base : Nat
  head : Word
  stopped : Bool
  deriving DecidableEq, Repr

/-- An event record before it is laid out (R82). -/
structure EvRec where
  typ : Nat
  opcode : Nat
  queue : Nat
  tag : Word
  status : Nat
  data : DWord
  deriving DecidableEq, Repr

/-- An event queue (R68, R74, R82): partition bound, LOGN, base, vector, records written, events dropped, records that
wait for space. -/
structure EvQueue where
  part : Option Nat
  logn : Nat
  base : Nat
  vector : Nat
  tail : Nat
  dropped : Nat
  waiting : List EvRec
  deriving DecidableEq, Repr

/-- Lease states (R147). -/
inductive LeaseSt where
  | requested | draining | testing | returning | retiring
  deriving DecidableEq, Repr

/-- A test lease (R146, R147): its unit, state, verdict, whether what its end waits for (a merge, R150, R151; the page
migration of R160) has begun, the domain entry its slice left or the physical channel it was evacuated from (R148), its REASON
in a retirement record (R89), whether the blocks of its channel's stack are being copied (R148, R160), and the score of a channel as
a spare took its place (R144). -/
structure Lease where
  u : UnitRef
  st : LeaseSt
  fail : Bool
  moving : Bool
  entry : Option Nat
  reason : Nat
  copying : Bool
  score : Nat
  deriving DecidableEq, Repr

/-- A command consumed and not completed (R69, R71): queue and entry it came from, the command, whether it has begun, device
ranges whose accesses it waits for (R75). -/
structure Pend where
  queue : Nat
  entry : Nat
  cmd : Instr
  begun : Bool
  ranges : List (Nat × Nat)
  deriving DecidableEq, Repr

/-- The hub's own state (R64). -/
structure Hub where
  /-- Phase of the module (R21, R23, R24). Reset: startup, step 1 of R24 to come. -/
  phase : Phase
  /-- Core clock in units of 0.1 GHz (R19, R20). Reset: 36. -/
  freq : Nat
  /-- Hottest junction temperature as last reported, °C (R23). Reset: DESIGN CHOICE 25, log entry 4. -/
  temp : Nat
  /-- Hottest junction temperature of each stack as last reported, °C (R55). Reset: DESIGN CHOICE 25, log entries 4 and 117. -/
  stackTemp : Sparse Nat
  /-- Memory_Active of the CXL DVSEC (R24 step 7). Reset: false. -/
  memoryActive : Bool
  /-- Host link as trained (R25). Reset: none. -/
  hostLink : Option HostLink
  /-- HDM range in GiB (R26). Reset: 0 until start-up. -/
  hdm : Nat
  /-- ADMCQ and ADMEQ (R66). Reset: 0. -/
  admcq : DWord
  admeq : DWord
  /-- ADMCTL.ENA and ADMCTL.READY (R66); FATAL is the phase. Reset: 0. -/
  ena : Bool
  ready : Bool
  /-- ENA has been set again while the queues it has stopped wait for their launches to end (R66). Reset: false. -/
  again : Bool
  /-- The running patch, and whether start-up took it from slot B (R65, R66, R88). Reset: none. -/
  patch : Option PatchImage
  patchB : Bool
  /-- Command queues and event queues by number (R68, R74). Reset: none. -/
  cqs : Sparse CmdQueue
  eqs : Sparse EvQueue
  /-- Commands consumed and not completed, in order (R69, R71). Reset: none. -/
  pending : List Pend
  /-- MSI-X vectors raised (R25, R73). Reset: none. -/
  msix : List Nat
  /-- Event sequence number last used (R438). Reset: 0. -/
  eventSeq : Word
  /-- Capacity sequence (R153). Reset: 0. -/
  capSeq : Word
  /-- Last launch number assigned (R438). Reset: 0. -/
  lastLaunch : Nat
  /-- Last lease number assigned (R73). Reset: 0; DESIGN CHOICE, log entry 4. -/
  lastLease : Nat
  /-- Lease policy in force (R146). Reset: the configuration default. -/
  policy : Policy
  /-- Partitions by number (R90). Reset: none. -/
  parts : Sparse Quota
  /-- Weight and quotas a PART_SET brings at the next window (R73, R91), by partition. Reset: none. -/
  newQuotas : Sparse Quota
  /-- Inbox generations by launch number (R141). Reset: 0. -/
  inboxGens : Sparse Nat
  /-- ESTCTL (R100). Reset: 0x0400_4020. -/
  estctl : Word
  /-- SCRBCTL by stack (R57). Reset: 0x97. -/
  scrbctl : Sparse Word
  /-- Stacks with a forced pass asked for (R57). Reset: none. -/
  forced : List Nat
  /-- Stacks whose scrubber yields (R56). Reset: none. -/
  yielding : List Nat
  /-- Corrected errors of each channel in the last hour, stack × 64 + channel (R55). Reset: 0. -/
  corrected : Sparse Nat
  /-- Module time at which the last scrub pass of each channel ended, stack × 64 + channel (R55). Reset: 0. -/
  scrubAt : Sparse Nat
  /-- What the forced scrub pass of a read-only channel test has found (R149), by lease. Reset: none. -/
  tested : Sparse TestResult
  /-- Suspicion scores by unit code (R144). Reset: from the service store. -/
  scores : Sparse Nat
  /-- Units retired (R89, R151) and units out of service now (R147, R18). Reset: none. -/
  retired : List UnitRef
  outOfService : List UnitRef
  /-- Cores back from a lease that accept residency at the next window boundary (R150). Reset: none. -/
  resting : List Nat
  /-- Edge lane groups and peer links whose spare lane is in use, by unit code (R14, R29). Reset: none. -/
  usedSpares : List Nat
  /-- Leases by number (R146). Reset: none. -/
  leases : Sparse Lease
  /-- Module time of the last lease start on each die (R146). Reset: none. -/
  leaseStart : Sparse Nat
  /-- Dies with a split or merge under way: entry (R78). Reset: none. -/
  splitting : Sparse Nat
  /-- Tables taken from the reserve (R196). Reset: 0. -/
  tablesUsed : Nat
  /-- Records posted before the admin queues exist (R65; log entry 7). Reset: none. -/
  early : List EvRec
  /-- Boundary count of accounting windows (R96). Reset: 0. -/
  window : Nat
  /-- Module time of the last hourly score decay and of the last service-store record (R67, R145). Reset: 0. -/
  lastHour : Nat
  lastRecord : Nat
  /-- Module time since when the junction stands below 92 °C, and since when above 105 °C (R23). Reset: none. -/
  coolSince : Option Nat
  hotSince : Option Nat
  deriving DecidableEq, Repr

/-- Hub, flash store and fixed store. -/
structure Sys where
  /-- The flash store (R88). Reset: DESIGN CHOICE, log entry 4: serial 0, cores 0 to 63 enabled, empty slots and log. -/
  flash : Flash
  /-- The hub. -/
  hub : Hub
  /-- ROM, fuses and the one-time-programmable counter (R65, R85, R87). Reset: DESIGN CHOICE, log entry 4. -/
  rom : Rom
  deriving DecidableEq, Repr

/-- The whole module, and the turns to come. -/
structure State where
  /-- Hub and flash store. -/
  sys : Sys
  /-- The machine proper. -/
  m : Mach
  /-- The turns to come (the model's own: inputs and interleaving as data). Reset: none. -/
  agenda : List Turn
  /-- The numbers the event of this turn names (the model's own). Reset: 0. -/
  subj : Subject
  deriving DecidableEq, Repr

/-- Why a step stops. -/
inductive Fault where
  /-- Raised by HOST_HDM_ACCESS for an address outside the HDM range, where R26 gives no access: safe, the model stops
  where the host's own address decoding would not reach the module. -/
  | outsideHdm
  deriving DecidableEq, Repr

/-- Why an instruction has no meaning. -/
inductive Refusal where
  /-- Answered by an arm of exec whose instruction has no meaning yet: safe, the model stops. -/
  | notModelled (mnemonic : String)
  deriving DecidableEq, Repr

/-! ## Reset -/

/-- The hub at reset (R24 step 1 to come; R48, R57, R66, R100 reset values). -/
def Hub.reset : Hub :=
  { phase := .startup, freq := 36, temp := 25, stackTemp := [], memoryActive := false, hostLink := none, hdm := 0, admcq := 0,
    admeq := 0, ena := false, ready := false, again := false, patch := none, patchB := false, cqs := [], eqs := [], pending := [],
      msix := [],
    eventSeq := 0, capSeq := 0, lastLaunch := 0, lastLease := 0, policy := ⟨Config.defaultThreshold, 1, 0⟩,
    parts := [], newQuotas := [], inboxGens := [], estctl := 0x04004020, scrbctl := [], forced := [],
    yielding := [], corrected := [], scrubAt := [], tested := [], scores := [], retired := [], outOfService := [],
    resting := [], usedSpares := [], leases := [], leaseStart := [], splitting := [], tablesUsed := 0, early := [], window := 0, lastHour := 0,
    lastRecord := 0, coolSince := none, hotSince := none }

/-- An inactive domain entry (R49). -/
def Domain.inactive : Domain := ⟨0, 0, 0, false, .inactive, 0, 0, 0, none, 0, []⟩

/-- First GiB unit of a die's local HBM (R41): four stacks of 48 GiB. -/
def dieBase (die : Nat) : Nat := 192 * die

/-- The domain entries at start-up (R42): entry k of die d serves stack 4d + k with slices 16k to 16k + 15. -/
def startDomains : Sparse Domain :=
  (List.range 32).map fun n =>
    let (d, k) := (n / 8, n % 8)
    if k < 4 then
      let b := dieBase d + 48 * k
      let mask : DWord := .ofNat 64 ((2 ^ 16 - 1) * 2 ^ (16 * k))
      (n, ⟨b, b + 47, mask, false, .active, b, b + 47, mask, none, 0, []⟩)
    else (n, Domain.inactive)

/-- The machine proper at reset: no memory written, no launch, domain entries as R42 and R49 give them. -/
def Mach.reset : Mach :=
  { mem := [], poison := [], dirty := [], replicas := [], hostLines := [], l2 := [], l2rank := [], hostCopies := [], hostOut := [],
    relcore := [], blocks := [], domains := startDomains, pins := [], pinning := [], uncached := [], cmps := [], migs := [],
    moved := [], freed := [], phys := [], gated := [], heldMsgs := [], device := 0, peers := [], links := [], peerOut := [],
      peerIn := [], remoteCells := [], late := [], dueFutures := [], ctxs := [], demand := [], clock := 0,
    mtime := 0, dieTlb := [], cores := [], launches := [], teams := [], warps := [], tasks := [], frames := [], ops := [],
    kills := [], svctl := 0x08040080, rplctl := [], focus := none, serial := 0, free := 0, refetch := true }

/-- The module right after reset (R24): start-up step 1 is to come. -/
def State.reset : State := ⟨⟨Flash.shipped, Hub.reset, Rom.shipped⟩, Mach.reset, [], ⟨0, 0, 0⟩⟩

end Sys2Proof.Machine
end

