-- ==== Sys2Proof/Machine/Sparse.lean ====
section
/-! DEFINITION. Tables by number and memory as one canonical list: keys strictly rising, memory holding no byte equal to
what an unlisted address reads as. -/

namespace Sys2Proof.Machine

/-! ## Tables -/

/-- The value at key k. -/
def Sparse.get? {α : Type} : Sparse α → Nat → Option α
  | [], _ => none
  | (j, v) :: t, k => if k = j then some v else Sparse.get? t k

/-- The value at key k, or d where none is listed. -/
def Sparse.getD {α : Type} (t : Sparse α) (k : Nat) (d : α) : α := (Sparse.get? t k).getD d

/-- Lists v at key k, replacing what stood there. -/
def Sparse.put {α : Type} : Sparse α → Nat → α → Sparse α
  | [], k, v => [(k, v)]
  | (j, u) :: t, k, v =>
    if k = j then (k, v) :: t else if k < j then (k, v) :: (j, u) :: t else (j, u) :: Sparse.put t k v

/-- Removes key k. -/
def Sparse.del {α : Type} (t : Sparse α) (k : Nat) : Sparse α := t.filter fun e => e.1 ≠ k

/-- Applies f to the value at key k, where one is listed. -/
def Sparse.upd {α : Type} : Sparse α → Nat → (α → α) → Sparse α
  | [], _, _ => []
  | (j, u) :: t, k, f => if k = j then (j, f u) :: t else (j, u) :: Sparse.upd t k f

/-- Applies f to every value. -/
def Sparse.mapv {α : Type} (t : Sparse α) (f : Nat → α → α) : Sparse α := t.map fun e => (e.1, f e.1 e.2)

/-- The entries p holds of. -/
def Sparse.sift {α : Type} (t : Sparse α) (p : Nat → α → Bool) : Sparse α := t.filter fun e => p e.1 e.2

/-- Lists v at key k, or nothing where v is the value an unlisted key stands for. -/
def Sparse.norm {α : Type} [DecidableEq α] (t : Sparse α) (k : Nat) (v d : α) : Sparse α :=
  if v = d then t.del k else t.put k v

/-- Keys strictly rising, all above lo. -/
def Sparse.above {α : Type} : Nat → Sparse α → Bool
  | _, [] => true
  | lo, (j, _) :: t => lo < j && Sparse.above j t

/-- Keys strictly rising. -/
def Sparse.wf {α : Type} : Sparse α → Bool
  | [] => true
  | (j, _) :: t => Sparse.above j t

/-! ## Memory -/

/-- What an unlisted address of memory reads as (R24 step 4: HBM is zeroed; log entry 3 for host memory). -/
def Memory.blank : Byte := 0

/-- The byte at address a. -/
def Memory.read (mem : List Host.Cell) (a : Nat) : Byte := Sparse.getD (α := Byte) mem a Memory.blank

/-- Memory with byte b at address a. -/
def Memory.write (mem : List Host.Cell) (a : Nat) (b : Byte) : List Host.Cell :=
  Sparse.norm (α := Byte) mem a b Memory.blank

/-- The canonical form: addresses strictly rising, no entry that reads as an unlisted one. -/
def Memory.wf (mem : List Host.Cell) : Bool := Sparse.wf (α := Byte) mem && mem.all fun c => c.2 != Memory.blank

/-- n bytes from address a. -/
def Memory.readN (mem : List Host.Cell) (a : Nat) : Nat → List Byte
  | 0 => []
  | n + 1 => Memory.read mem a :: Memory.readN mem (a + 1) n

/-- Memory with the bytes at address a on. -/
def Memory.writeN (mem : List Host.Cell) (a : Nat) : List Byte → List Host.Cell
  | [] => mem
  | b :: bs => Memory.writeN (Memory.write mem a b) (a + 1) bs

end Sys2Proof.Machine
end

