-- ==== Sys2Proof/Machine/Translate.lean ====
section
/-! DEFINITION. Address spaces and translation (R28, R193-R204), and instruction fetch (R207, R273). -/

namespace Sys2Proof.Machine

/-! ## Free values -/

/-- The counter of a fresh free value (log entry 1). -/
def Mach.takeFree (m : Mach) : Nat × Mach := (m.free, { m with free := m.free + 1 })

/-- n fresh free bytes (log entry 1). -/
def Mach.takeBytes (m : Mach) (n : Nat) : List Byte × Mach :=
  ((List.range n).map fun i => Config.freeByte (m.free + i), { m with free := m.free + n })

/-- A fresh free word (log entry 1). -/
def Mach.takeWord (m : Mach) : Word × Mach := (Config.freeWord m.free, { m with free := m.free + 1 })

/-- One of a list of numbers, the manual not saying which (log entry 1). -/
def Mach.anyOf (m : Mach) (ks : List Nat) : Option Nat × Mach :=
  if ks = [] then (none, m)
  else
    let (x, m) := m.takeFree
    (ks[Config.freeNat x % ks.length]?, m)

/-! ## The device physical address space -/

/-- The ranges of R28. -/
inductive Region where
  | hbm | mgmt | peer (module : Nat) | host | unbacked
  deriving DecidableEq, Repr

/-- The range a device physical address lies in (R28). -/
def regionOf (pa : Nat) : Region :=
  if pa < 0x00C000000000 then .hbm
  else if 0x0FF0000000000 ≤ pa ∧ pa ≤ 0x0FFFFFFFFFFFF then .mgmt
  else if 0x1000000000000 ≤ pa ∧ pa < 0x1080000000000 then .peer ((pa - 0x1000000000000) / 0x10000000000)
  else if 0x8000000000000 ≤ pa ∧ pa ≤ 0xFFFFFFFFFFFFF then .host
  else .unbacked

/-- Whether an address lies in a range freed by an unreplaced channel (R28). -/
def Mach.isFreed (m : Mach) (pa : Nat) : Bool := m.freed.any fun r => r.1 ≤ pa && pa < r.1 + r.2

/-- Whether some of n bytes from an address lie in a freed range (R28). -/
def Mach.freedIn (m : Mach) (pa n : Nat) : Bool := m.freed.any fun r => r.1 < pa + n && pa < r.1 + r.2

/-- Connection state of a peer (R32). -/
def Mach.conn (m : Mach) (peer : Nat) : Conn := m.peers.getD peer .absent

/-! ## Cause codes (R251) -/

/-- Cause codes by name (R251). -/
inductive Cause where
  | illegal | priv | align | bankConflict | unwaited | frameMismatch | frameDepth | spillFull | accToken | accFirstuse
  | rangeLocked | tileSpan | pageFault | protection | atomicDeviceSpace | format | futureFaulted | prefetchFault
  | staleHandle | shadowMismatch | uncorrectable | remoteUnavailable | watchdog
  deriving DecidableEq, Repr

/-- The number of a cause (R251). -/
def Cause.code (c : Cause) : Nat := c.ctorIdx + 1

/-! ## Page tables -/

/-- Fields of a page-table entry (R197). -/
def pteV (e : Nat) : Bool := e % 2 = 1
/-- LEAF (R197). -/
def pteLeaf (e : Nat) : Bool := bit e 1
/-- W (R197). -/
def pteW (e : Nat) : Bool := bit e 3
/-- X (R197). -/
def pteX (e : Nat) : Bool := bit e 4
/-- HOME (R197). -/
def pteHome (e : Nat) : Nat := e / 2 ^ 5 % 4
/-- CMP (R197). -/
def pteCmp (e : Nat) : Bool := bit e 7
/-- DEMAND (R197). -/
def pteDemand (e : Nat) : Bool := bit e 8
/-- ADDR as an address (R197). -/
def pteAddr (e : Nat) : Nat := e / 2 ^ 12 % 2 ^ 40 * 2 ^ 12
/-- PINTGT (R197). -/
def ptePin (e : Nat) : Nat := e / 2 ^ 56 % 2 ^ 8

/-- Whether a table entry's reserved bits are zero (R197). -/
def pteTableOk (e : Nat) : Bool := e / 4 % 2 ^ 10 = 0 && e / 2 ^ 52 = 0

/-- Whether a leaf of a page of the given size is well formed (R197). -/
def pteLeafOk (e size : Nat) : Bool :=
  pteAddr e % size = 0 && !bit e 2 && e / 2 ^ 9 % 8 = 0 && e / 2 ^ 52 % 16 = 0 &&
    (ptePin e = 0 || pteHome e = 1 || pteHome e = 2)

/-- The 8 bytes of memory at a physical address as a number. -/
def Mach.read64 (m : Mach) (pa : Nat) : Nat := bytesNat (Memory.readN m.mem pa 8)

/-- Where a walk ends (R196): a leaf with its own address and page size, or no mapping. -/
inductive Walk where
  | leaf (entry at_ size : Nat)
  | none
  deriving DecidableEq, Repr

/-- Walks one level per step: shift is the lowest VA bit the level indexes (R196). A leaf at 1 GiB, 2 MiB or 64 KiB. -/
def Mach.walkFrom (m : Mach) (table va : Nat) : List (Nat × Nat × Bool) → Walk
  | [] => .none
  | (shift, entries, leafOk) :: rest =>
    let a := table + 8 * (va / 2 ^ shift % entries)
    let e := m.read64 a
    if pteLeaf e then
      if leafOk && pteLeafOk e (2 ^ shift) && (pteV e || pteDemand e) then .leaf e a (2 ^ shift) else .none
    else if pteV e && pteTableOk e && !rest.isEmpty then m.walkFrom (pteAddr e) va rest
    else .none

/-- The levels of R196: lowest VA bit, entries used, whether a leaf is permitted. -/
def levels : List (Nat × Nat × Bool) :=
  [(48, 512, false), (39, 512, false), (30, 512, true), (21, 512, true), (16, 32, true)]

/-- The walk of a virtual address under an ASID (R196). -/
def Mach.walk (m : Mach) (asid va : Nat) : Walk :=
  match m.ctxs.get? asid with
  | none => .none
  | some c => m.walkFrom c.root va levels

/-- What kind of access is translated (R203). -/
structure AccKind where
  write : Bool := false
  fetch : Bool := false
  priv : Bool := false
  deriving DecidableEq, Repr

/-- Where a virtual address lands: physical address, HOME, PINTGT, page address, page size, CMP. -/
structure Loc where
  pa : Nat
  home : Nat
  tgt : Nat
  page : Nat
  size : Nat
  cmp : Bool
  deriving DecidableEq, Repr

/-- The outcomes of R203. -/
inductive Trans where
  | ok (l : Loc)
  | stall (page : Nat)
  | bad (c : Cause)
  deriving DecidableEq, Repr

/-- Checks of a physical address (R28, R32). The aperture of a module that no link has ever reached answers as one whose connection
is DOWN: the manual gives that state no cause (DESIGN CHOICE, log entry 92). -/
def Mach.backing (m : Mach) (pa : Nat) (priv : Bool) : Option Cause :=
  match regionOf pa with
  | .hbm => if m.isFreed pa then some .protection else none
  | .mgmt => if priv then none else some .priv
  | .peer n =>
    if n = m.device then some .protection
    else match m.conn n with
      | .up | .recovering => none
      | _ => some .remoteUnavailable
  | .host => none
  | .unbacked => some .protection

/-- What a leaf of a page of the given size gives an access (R203). -/
def Mach.judge (m : Mach) (e size va : Nat) (k : AccKind) : Trans :=
  let page := va / size * size
  if !pteV e then (if k.fetch then .bad .pageFault else .stall page)
  else if k.write && !pteW e then .bad .protection
  else if k.fetch && !pteX e then .bad .protection
  else
    let pa := pteAddr e + va % size
    match m.backing pa k.priv with
    | some c => .bad c
    | none => .ok ⟨pa, pteHome e, ptePin e, page, size, pteCmp e⟩

/-- Translation of one address by the page tables (R203). -/
def Mach.translate (m : Mach) (asid va : Nat) (k : AccKind) : Trans :=
  if va / 2 ^ 57 ≠ 0 then .bad .pageFault
  else match m.walk asid va with
    | .none => .bad .pageFault
    | .leaf e _ size => m.judge e size va k

/-! ## Fetch -/

/-- A core with nothing in it. -/
def Core.empty : Core :=
  { skew := 0, stores := [], l1d := [], l1dKeep := [], icache := [], locks := [], acc := [], accTwin := [], owner := [],
    lastUse := [], tlb := [], lastFault := none, credit := [], used := [], elig := [], issuedAt := none }

/-- The core of a logical number. -/
def Mach.core (m : Mach) (c : Nat) : Core := m.cores.getD c Core.empty

/-- Changes a core. -/
def Mach.updCore (m : Mach) (c : Nat) (f : Core → Core) : Mach := { m with cores := m.cores.put c (f (m.core c)) }

/-- Die of a logical core (R17). -/
def coreDie (core : Nat) : Nat := core / 64

/-- Entries of a list of TLB entries that serve an address. -/
def TlbEntry.serves (t : TlbEntry) (asid va : Nat) : Bool := t.asid = asid && t.va ≤ va && va < t.va + t.size

/-- Translation of one address on a core (R202, R203): by an entry of its TLB, else of the TLB its die shares, else by the page
tables. -/
def Mach.translateOn (m : Mach) (core asid va : Nat) (k : AccKind) : Trans :=
  if va / 2 ^ 57 ≠ 0 then .bad .pageFault
  else match ((m.core core).tlb ++ m.dieTlb.getD (coreDie core) []).find? fun t => t.serves asid va with
    | some t => m.judge t.leaf.toNat t.size va k
    | none => m.translate asid va k

/-- A TLB of n entries with one more entry, in place of an older one of its page; the oldest leaves a full one (R202). -/
def tlbWith (n : Nat) (e : TlbEntry) (ts : List TlbEntry) : List TlbEntry :=
  (e :: ts.filter fun t => !(t.asid = e.asid && t.va = e.va)).take n

/-- Lists the translation of an address in the TLB of a core, 2,048 entries, and in the one its die shares, 32,768 (R202). -/
def Mach.fillTlb (m : Mach) (core asid va : Nat) : Mach :=
  match m.walk asid va with
  | .leaf e _ size =>
    if pteV e then
      let x : TlbEntry := ⟨asid, va / size * size, size, .ofNat 64 e⟩
      let m := m.updCore core fun c => { c with tlb := tlbWith 2048 x c.tlb }
      { m with dieTlb := m.dieTlb.put (coreDie core) (tlbWith 32768 x (m.dieTlb.getD (coreDie core) [])) }
    else m
  | .none => m

/-- The 8 bytes of code the home of an address holds; what a peer holds is free (DESIGN CHOICE, log entry 108). -/
def Mach.codeAt (m : Mach) (pa : Nat) : Nat :=
  match regionOf pa with
  | .peer _ => (Config.peerUnit pa m.free).toNat
  | _ => m.read64 pa

/-- The aligned 8-byte unit of code at a physical address: from the instruction cache, or from the L2 (R207). -/
def Mach.codeUnit (m : Mach) (core pa : Nat) : Nat :=
  match (m.core core).icache.get? (pa / 8) with
  | some v => v.toNat
  | none => m.codeAt (pa / 8 * 8)

/-- The 32-bit word of code at a virtual address, or the cause its fetch raises (R203). -/
def Mach.codeWord (m : Mach) (core asid va : Nat) (priv : Bool) : Except Cause Nat :=
  match m.translate asid va { fetch := true, priv := priv } with
  | .ok l => .ok (m.codeUnit core l.pa / 2 ^ (8 * (l.pa % 8)) % 2 ^ 32)
  | .stall _ => .error .pageFault
  | .bad c => .error c

/-- n 32-bit words of code as one number, the first lowest. -/
def Mach.codeWords (m : Mach) (core asid va : Nat) (priv : Bool) : Nat → Except Cause Nat
  | 0 => .ok 0
  | n + 1 =>
    match m.codeWord core asid va priv, m.codeWords core asid (va + 4) priv n with
    | .ok w, .ok r => .ok (w + 2 ^ 32 * r)
    | .error c, _ => .error c
    | _, .error c => .error c

/-- The clause header at a virtual address (R301 checks 2 and 3): a cause, or the header. -/
def Mach.headerAt (m : Mach) (core asid va : Nat) (priv : Bool) : Except Cause Header :=
  match m.codeWords core asid va priv 2 with
  | .error c => .error c
  | .ok w =>
    match headerOf w with
    | some h => .ok h
    | none => .error .illegal

/-- Reads an aligned 8-byte unit of code into the instruction cache, which holds 64 KiB (R207): a full one loses another unit. A unit
at a peer is asked for there (R31). -/
def Mach.cacheUnit (m : Mach) (core u : Nat) : Mach :=
  let m := match regionOf (u * 8) with
    | .peer p => { m with peerOut := m.peerOut ++ [PeerMsg.request p m.serial], serial := m.serial + 1, free := m.free + 1 }
    | _ => m
  let have_ := (m.core core).icache
  let (out, m) := if (have_.get? u).isSome || have_.length < 8192 then (none, m) else m.anyOf (have_.map (·.1))
  m.updCore core fun c =>
    { c with icache := Sparse.put (match out with
        | some k => Sparse.del c.icache k
        | none => c.icache) u (.ofNat 64 (m.codeAt (u * 8))) }

/-- Reads the units an instruction at va spans into the instruction cache: those missing, or all when the turn has the
lines refetched (R207). -/
def Mach.fetchInto (m : Mach) (core asid : Nat) (priv all : Bool) : List Nat → Mach
  | [] => m
  | va :: vas =>
    let m' := match m.translate asid va { fetch := true, priv := priv } with
      | .ok l =>
        if all || ((m.core core).icache.get? (l.pa / 8)).isNone then m.cacheUnit core (l.pa / 8) else m
      | _ => m
    m'.fetchInto core asid priv all vas

end Sys2Proof.Machine
end

