-- ==== Sys2Proof/Machine/Fabric.lean ====
section
/-! DEFINITION. The fabric and the slices: units and stops (R13-R17, R35), home slices (R40-R44), the routes of messages and
what gated routers hold (R36-R39), the lines slices hold (R40, R44, R45, R53), and memory as its home reads and writes it. -/

namespace Sys2Proof.Machine

/-! ## Units and homes -/

/-- Puts n in a set of numbers. -/
def insertNat (n : Nat) (l : List Nat) : List Nat := if l.contains n then l else n :: l

/-- Team of a key (launch × 256 + index). -/
def Mach.team? (m : Mach) (k : Nat) : Option Team := m.teams.get? k

/-- A unit as one number: kind, die, unit (R437). -/
def unitCode (u : UnitRef) : Nat := u.kind * 2 ^ 16 + u.die * 2 ^ 12 + u.unit

/-- Stack of a local HBM address (R41). -/
def stackOf (pa : Nat) : Nat := pa / 0xC00000000

/-- The domain entry that serves a local HBM address (R42), with its key. -/
def Mach.domainAt (m : Mach) (pa : Nat) : Option (Nat × Domain) :=
  m.domains.find? fun e =>
    e.1 / 8 = stackOf pa / 4 && e.2.st ≠ .inactive && e.2.base ≤ pa / 2 ^ 30 && pa / 2 ^ 30 ≤ e.2.lim

/-- The pin that holds a frame address (R199). -/
def Mach.pinAt (m : Mach) (pa : Nat) : Option Pin := m.pins.find? fun p => p.pa ≤ pa && pa < p.pa + p.size

/-- The set bits of a mask in ascending order. -/
def setBits (mask : DWord) : List Nat := (List.range 64).filter fun n => mask.getLsbD n

/-- The slice of a mask an address is homed at (R43). -/
def sliceOf (mask : DWord) (pa : Nat) : Nat :=
  let blk := pa / 2 ^ 9 % 2 ^ 43
  let h := (blk % 2 ^ 16) ^^^ (blk / 2 ^ 16 % 2 ^ 16) ^^^ (blk / 2 ^ 32)
  let bits := setBits mask
  bits.getD (h % bits.length) 0

/-- Home slice of a local HBM address: die and logical slice; none for a page pinned in a local store (R43). -/
def Mach.homeSlice (m : Mach) (pa : Nat) : Option (Nat × Nat) :=
  match m.pinAt pa with
  | some p => if p.inLs then none else some (p.tgt / 64, p.tgt % 64)
  | none => some (stackOf pa / 4, sliceOf ((m.domainAt pa).map (·.2.mask) |>.getD 0) pa)

/-- Stop of a logical core: die × 68 + physical number (R15, R35). -/
def Mach.coreStop (m : Mach) (core : Nat) : Nat :=
  68 * coreDie core + m.phys.getD (unitCode ⟨0, coreDie core, core % 64⟩) (core % 64)

/-- Stop of a logical slice of a die (R35, R40). -/
def Mach.sliceStop (m : Mach) (die slice : Nat) : Nat := 68 * die + m.phys.getD (unitCode ⟨2, die, slice⟩) slice

/-! ## Routes (R35-R37) -/

/-- The numbers from a to b, in either direction. -/
def span (a b : Nat) : List Nat :=
  if a ≤ b then (List.range (b - a + 1)).map (a + ·) else (List.range (a - b + 1)).map (b + ·)

/-- Stops a message crosses within a die (R36): along the row, then along the column; column x is physical cluster x (R35). -/
def inDie (src dst : Nat) : List Nat :=
  let d := src / 68 * 68
  let (a, b) := (src % 68, dst % 68)
  (span (a / 4) (b / 4)).map (fun x => d + 4 * x + a % 4) ++ (span (a % 4) (b % 4)).map fun y => d + 4 * (b / 4) + y

/-- The dies a message crosses (R14, R36): a diagonal one takes the horizontal edge of its source die, then the vertical edge of
the intermediate die. -/
def dieHops (a b : Nat) : List Nat :=
  if a = b then [a] else if a / 2 = b / 2 || a % 2 = b % 2 then [a, b] else [a, a ^^^ 1, b]

/-- The stop of die a whose column end bears the port of the edge to die b (R35): the manual says only that ports attach at the
ends of the columns nearest them. DESIGN CHOICE, log entry 33: the last row of the outer column for a horizontal edge, the
middle column for a vertical one. -/
def edgeStop (a b : Nat) : Nat :=
  68 * a + if a / 2 = b / 2 then (if a % 2 = 0 then 67 else 3) else if a / 2 = 0 then 35 else 32

/-- The stop of a die whose column end bears the port of the hub edge (R35). DESIGN CHOICE, log entry 33. -/
def hubStop (die : Nat) : Nat := 68 * die + 33

/-- Stops a message crosses along the dies given, edge by edge. -/
def routeVia (src dst : Nat) : List Nat → List Nat
  | a :: b :: rest => inDie src (edgeStop a b) ++ routeVia (edgeStop b a) dst (b :: rest)
  | _ => inDie src dst

/-- Stops a message between two stops crosses (R36). -/
def routeOf (src dst : Nat) : List Nat := routeVia src dst (dieHops (src / 68) (dst / 68))

/-- The stop an access of a core of a die goes to: a core or slice of the module, or the hub edge for what lies beyond it. -/
def Mach.stopOf (m : Mach) (die : Nat) : Place → Option Nat
  | .ls tk _ => (m.team? tk).map fun t => m.coreStop t.core
  | .dev pa =>
    if regionOf pa = .hbm then
      match m.pinAt pa, m.homeSlice pa with
      | some p, none => some (m.coreStop p.tgt)
      | _, some (d, s) => some (m.sliceStop d s)
      | none, none => none
    else some (hubStop die)

/-! ## Messages at gated routers (R37, R39) -/

/-- The router of a stop on one of the two meshes. -/
def routerAt (stop : Nat) (reply : Bool) : Nat := 2 * stop + reply.toNat

/-- The stop at whose column end the controller of a stack attaches (R35: at the end of the column nearest it). DESIGN CHOICE, log
entry 33: the columns of a die's four stacks are 2, 6, 10 and 14, the first two at the first row, the others at the last. -/
def memStop (stack : Nat) : Nat := 68 * (stack / 4) + 4 * (4 * (stack % 4) + 2) + if stack % 4 < 2 then 0 else 3

/-- Whether two messages go from one NI to another on one mesh. -/
def Msg.follows (a b : Msg) : Bool := a.reply = b.reply && a.src = b.src && a.dst = b.dst

/-- A message leaves its NI: it is held while a router of its route is gated, and while an earlier message to the same NI on the
same mesh is held (R37, R39). -/
def Mach.sendMsg (m : Mach) (n : Nat) (reply : Bool) (src dst : Nat) : Mach :=
  let msg : Msg := ⟨n, reply, src, dst, ((routeOf src dst).map fun s => routerAt s reply).filter m.gated.contains |>.eraseDups⟩
  if msg.shut = [] && !m.heldMsgs.any msg.follows then m else { m with heldMsgs := m.heldMsgs ++ [msg] }

/-- The way of a slice to its memory controller for a line of local HBM it does not hold (R35, R40). -/
def Mach.memLeg (m : Mach) : Place → List (Nat × Nat)
  | .ls .. => []
  | .dev pa =>
    match m.homeSlice pa with
    | some (d, s) =>
      if regionOf pa = .hbm && (m.l2.get? (4 * (pa / 128) + d)).isNone then [(m.sliceStop d s, memStop (stackOf pa))] else []
    | none => []

/-- The ways a core's access to its places goes: to each home, and from a slice that lacks the line to its memory controller (R35). -/
def Mach.legs (m : Mach) (core : Nat) (ps : List Place) : List (Nat × Nat) :=
  (((ps.filterMap (m.stopOf (coreDie core))).map fun d => (m.coreStop core, d)) ++ ps.flatMap m.memLeg).eraseDups

/-- Sends message n of a core to the homes of its places over the request mesh (R35). -/
def Mach.send (m : Mach) (n core : Nat) (ps : List Place) : Mach :=
  (m.legs core ps).foldl (fun m d => m.sendMsg n false d.1 d.2) m

/-- Sends the replies of message n to its core over the reply mesh (R35). -/
def Mach.reply (m : Mach) (n core : Nat) (ps : List Place) : Mach :=
  (m.legs core ps).foldl (fun m d => m.sendMsg n true d.2 d.1) m

/-- Whether messages of n are held on a mesh. -/
def Mach.holds (m : Mach) (n : Nat) (reply : Bool) : Bool := m.heldMsgs.any fun h => h.n = n && h.reply = reply

/-- Releases the messages of n whose routers are all awake and which no earlier message to the same NI precedes (R39). -/
def releaseMsgs (gated : List Nat) (n : Nat) : List Msg → List Msg → List Msg
  | kept, [] => kept
  | kept, h :: hs =>
    if h.n = n && !h.shut.any gated.contains && !kept.any h.follows then releaseMsgs gated n kept hs
    else releaseMsgs gated n (kept ++ [h]) hs

/-! ## Mapped pages -/

/-- A mapped page: virtual address, where its entry lies, the entry, its size. -/
structure Leaf where
  va : Nat
  at_ : Nat
  entry : Nat
  size : Nat
  deriving DecidableEq, Repr

/-- The leaves below a table that meet virtual addresses lo to hi − 1; `base` is the first address the table maps (R196). -/
def Mach.leavesFrom (m : Mach) (lo hi table base : Nat) : List (Nat × Nat × Bool) → List Leaf
  | [] => []
  | (shift, n, ok) :: rest =>
    let first := (lo - base) / 2 ^ shift
    let last := min n ((hi - base + 2 ^ shift - 1) / 2 ^ shift)
    (List.range (last - first)).flatMap fun i =>
      let a := table + 8 * (first + i)
      let va := base + (first + i) * 2 ^ shift
      let e := m.read64 a
      if pteLeaf e then
        if ok && pteLeafOk e (2 ^ shift) && (pteV e || pteDemand e) then [⟨va, a, e, 2 ^ shift⟩] else []
      else if pteV e && pteTableOk e && !rest.isEmpty then m.leavesFrom lo hi (pteAddr e) va rest
      else []

/-- The mapped pages of an ASID that meet a virtual range. -/
def Mach.leaves (m : Mach) (asid va n : Nat) : List Leaf :=
  match m.ctxs.get? asid with
  | none => []
  | some c => m.leavesFrom va (va + n) c.root 0 levels

/-- Every mapped page of every context, with its ASID. -/
def Mach.allLeaves (m : Mach) : List (Nat × Leaf) := m.ctxs.flatMap fun c => (m.leaves c.1 0 (2 ^ 57)).map fun l => (c.1, l)

/-! ## Lines -/

/-- Number of the 128-byte line of an address. -/
def lineOf (pa : Nat) : Nat := pa / 128

/-- Lines that n bytes from pa touch. -/
def linesOf (pa n : Nat) : List Nat :=
  if n = 0 then [] else (List.range (lineOf (pa + n - 1) + 1 - lineOf pa)).map fun i => lineOf pa + i

/-- Bytes at their home: memory as every observer at the home reads it. -/
def Mach.homeRead (m : Mach) (pa n : Nat) : List Byte := Memory.readN m.mem pa n

/-- The state a written-back 512-byte block is stored in (R53): all-zero blocks as nothing, others in a number of sectors
the manual leaves to the compressor (log entry 1). -/
def Mach.packBlock (m : Mach) (blk : Nat) (cmp : Bool) : Mach :=
  let zero := (m.homeRead (blk * 512) 512).all (· = 0)
  let (v, m) := if cmp && !zero then
      let (n, m) := m.takeFree
      (([0, 2, 3] : List Nat).getD (Config.freeNat n % 3) 0, m)
    else (if cmp then 1 else 0, m)
  { m with blocks := m.blocks.norm blk (.ofNat 2 v) 0 }

/-! ## The lines of the slices (R40, R44, R45, R53) -/

/-- Masks of the active domains of a die together (R44, R45). -/
def Mach.unionMask (m : Mach) (die : Nat) : DWord :=
  (m.domains.filter fun d => d.1 / 8 = die && d.2.st ≠ .inactive).foldl (fun w d => w ||| d.2.mask) 0

/-- The slice of a die that holds a line homed elsewhere: a host line or a replica (R44, R45). Lines held under an older union of the
masks stay where they are, and serve no read that the new union sends elsewhere (DESIGN CHOICE, log entry 107). -/
def Mach.guestSlice (m : Mach) (die pa : Nat) : Nat := sliceOf (m.unionMask die) pa

/-- Die a line is homed on, where it lies in local HBM. -/
def homeDie? (l : Nat) : Option Nat := if regionOf (l * 128) = .hbm then some (stackOf (l * 128) / 4) else none

/-- Whether slices hold lines of an address (R199): local HBM, in no page pinned in a local store or never cached. -/
def Mach.sliceHolds (m : Mach) (pa : Nat) : Bool :=
  regionOf pa = .hbm && !((m.pinAt pa).any (·.inLs)) && !m.uncached.any fun r => r.1 ≤ pa && pa < r.1 + r.2

/-- Whether a slice may evict a line it holds: not one pinned in it (R199), nor one that bears a RELCORE mark (R215). -/
def Mach.evictable (m : Mach) (key : Nat) : Bool := (m.pinAt (key / 4 * 128)).isNone && (m.relcore.get? (key / 4)).isNone

/-- Whether a page that holds an address is mapped with CMP (R53, R197). -/
def Mach.cmpAt (m : Mach) (pa : Nat) : Bool := m.cmps.any fun r => r.1 ≤ pa && pa < r.1 + r.2

/-- How long a line of a slice is to be retained: what a hint on an access to it has set, until it leaves (R281; that it lasts so
long is a DESIGN CHOICE, log entry 110). -/
def Mach.rankOf (m : Mach) (key : Nat) : Nat := m.l2rank.getD key 1

/-- Of lines that may leave, those of the lowest retention (R281). -/
def Mach.leastKept (m : Mach) (ks : List Nat) : List Nat := ks.filter fun k => ks.all fun j => m.rankOf k ≤ m.rankOf j

/-- A slice lets go of a line (R40, R45): a dirty one is written back (R53), a replica or a host line ends silently. -/
def Mach.l2Evict (m : Mach) (key : Nat) : Mach :=
  let l := key / 4
  let home := homeDie? l = some (key % 4)
  let m' := { m with
    l2 := m.l2.del key
    l2rank := m.l2rank.del key
    replicas := m.replicas.del key
    hostLines := m.hostLines.filter (· ≠ key)
    dirty := if home then m.dirty.filter (· ≠ l) else m.dirty }
  if home && m.dirty.contains l then m'.packBlock (l / 4) (m.cmpAt (l * 128)) else m'

/-- Lines the slice given of a die holds in the set of a line, where it holds at least so many in all. Which set a line lies in
the manual does not say: Config.setOf. -/
def Mach.setLines (m : Mach) (die slice l least : Nat) : List Nat :=
  let mine := (m.l2.filter fun e => e.1 % 4 = die && e.2 = slice && e.1 / 4 ≠ l).map (·.1)
  if mine.length < least then []
  else mine.filter fun k => Config.setOf (k / 4) % 8192 = Config.setOf l % 8192

/-- A slice of a die comes to hold a line (R40): with the 16 ways of its set taken, another line of the set leaves, one of the lowest
retention (R281). -/
def Mach.l2Fill (m : Mach) (die slice l : Nat) : Mach :=
  let full := m.setLines die slice l 16
  let (out, m) := if full.length < 16 then (none, m) else m.anyOf (m.leastKept (full.filter m.evictable))
  let m := match out with
    | some k => m.l2Evict k
    | none => m
  if full.length < 16 || out.isSome then { m with l2 := m.l2.put (4 * l + die) slice } else m

/-- The home slice of a line comes to hold it (R40, R199). -/
def Mach.l2Home (m : Mach) (l : Nat) : Mach :=
  match m.homeSlice (l * 128) with
  | some (die, slice) => if m.sliceHolds (l * 128) then m.l2Fill die slice l else m
  | none => m

/-- What a hint asks of a line an access of a core touches (R281): `.ro` raises its retention in the L1D and the L2, `.str` makes that
in the L2 the lowest. -/
def Mach.retain (m : Mach) (core : Nat) (hint : Hint) (p : Place) : Mach :=
  match p, hint with
  | .ls .., _ | _, .none | _, .nl1 => m
  | .dev pa, h =>
    let l := lineOf pa
    let keys : List Nat := (4 * l + coreDie core) :: (homeDie? l).toList.map fun d => 4 * l + d
    let m := { m with l2rank := keys.foldl (fun t k => t.put k (if h = .str then 0 else 2)) m.l2rank }
    if h = .ro then m.updCore core fun c => { c with l1dKeep := insertNat l c.l1dKeep } else m

/-- Whether the domain entry of an address writes through (R50). -/
def Mach.writesThrough (m : Mach) (pa : Nat) : Bool := (m.domainAt pa).any fun d => d.2.st = .writeback

/-- A line written at its home: the slice holds it dirty, or writes its block through to HBM (R50, R53); a line no slice holds is
written to HBM at once, but for one pinned in a local store (R199). -/
def Mach.dirtyLine (m : Mach) (l : Nat) : Mach :=
  if !m.sliceHolds (l * 128) then
    if regionOf (l * 128) = .hbm && !((m.pinAt (l * 128)).any (·.inLs)) then m.packBlock (l / 4) (m.cmpAt (l * 128)) else m
  else
    let m := m.l2Home l
    if m.writesThrough (l * 128) then m.packBlock (l / 4) (m.cmpAt (l * 128))
    else { m with dirty := insertNat l m.dirty }

/-- Memory becomes what is given, as hub firmware or a home's own bookkeeping writes it: the replicas of lines that change end, and
the copies the host may hold are snooped out (R26, R47). -/
def Mach.setMem (m : Mach) (mem : List Host.Cell) : Mach :=
  let same (l : Nat) : Bool := Memory.readN mem (l * 128) 128 = Memory.readN m.mem (l * 128) 128
  { m with
    mem := mem
    replicas := m.replicas.sift fun k _ => same (k / 4)
    hostOut := m.hostOut ++ (m.hostCopies.filter fun l => !same l).map .backInvalidate
    hostCopies := m.hostCopies.filter same }

/-- Writes bytes at their home: replicas of the lines end (R47), lines of local HBM become dirty in their slice or are written
through, a whole line's write clears its poison and a partial one leaves it (R155), and the copies the host may hold are
snooped out (R26). -/
def Mach.homeWrite (m : Mach) (pa : Nat) (bs : List Byte) : Mach :=
  let ls := linesOf pa bs.length
  let whole := ls.filter fun l => pa ≤ l * 128 && l * 128 + 128 ≤ pa + bs.length
  ls.foldl Mach.dirtyLine { m with
    mem := Memory.writeN m.mem pa bs
    replicas := m.replicas.sift fun k _ => !ls.contains (k / 4)
    poison := m.poison.filter fun l => !whole.contains l
    hostOut := m.hostOut ++ (ls.filter m.hostCopies.contains).map .backInvalidate
    hostCopies := m.hostCopies.filter fun l => !ls.contains l }

end Sys2Proof.Machine
end

