-- ==== Sys2Proof/Machine/Ops.lean ====
section
/-! DEFINITION. The named operations over the machine's tables, memory, registers, frames and paths; taking a fault and
returning from its handler (R248-R260), call frames (R261-R270), and the end of a task (R129, R259, R368). -/

namespace Sys2Proof.Machine

/-! ## Lanes -/

/-- The lanes of a set in ascending order. -/
def laneList (l : Lanes) : List Nat := (List.range 32).filter fun n => l.getLsbD n

/-- The set of one lane. -/
def laneBit (n : Nat) : Lanes := BitVec.ofNat 32 (2 ^ n)

/-- The set of the lanes of a list. -/
def laneSet (ns : List Nat) : Lanes := ns.foldl (fun l n => l ||| laneBit n) 0

/-- The lowest lane of a set, or 0 of the empty set. -/
def lowLane (l : Lanes) : Nat := (laneList l).headD 0

/-- Whether two sets share a lane. -/
def meets (a b : Lanes) : Bool := a &&& b != 0

/-! ## Tables -/

/-- Changes a team. -/
def Mach.updTeam (m : Mach) (k : Nat) (f : Team → Team) : Mach := { m with teams := m.teams.upd k f }
/-- Key of a warp. -/
def warpKey (tk w : Nat) : Nat := tk * 64 + w
/-- Changes a warp. -/
def Mach.updWarp (m : Mach) (tk w : Nat) (f : Warp → Warp) : Mach := { m with warps := m.warps.upd (warpKey tk w) f }
/-- Changes a task. -/
def Mach.updTask (m : Mach) (t : Nat) (f : Task → Task) : Mach := { m with tasks := m.tasks.upd t f }
/-- Changes a frame. -/
def Mach.updFrame (m : Mach) (k : Nat) (f : Frame → Frame) : Mach := { m with frames := m.frames.upd k f }
/-- Changes a launch. -/
def Mach.updLaunch (m : Mach) (k : Nat) (f : Launch → Launch) : Mach := { m with launches := m.launches.upd k f }
/-- Changes an operation. -/
def Mach.updOp (m : Mach) (k : Nat) (f : Op → Op) : Mach := { m with ops := m.ops.upd k f }

/-- A fresh serial number. -/
def Mach.fresh (m : Mach) : Nat × Mach := (m.serial, { m with serial := m.serial + 1 })

/-- The launch of a team. -/
def Mach.launchOf (m : Mach) (tk : Nat) : Option Launch := (m.team? tk).bind fun t => m.launches.get? t.launch

/-- Tasks of a team. -/
def Mach.tasksOf (m : Mach) (tk : Nat) : List (Nat × Task) := m.tasks.filter fun e => e.2.team = tk

/-- Warps of a team: number and warp. -/
def Mach.warpsOf (m : Mach) (tk : Nat) : List (Nat × Warp) :=
  (m.warps.filter fun e => e.1 / 64 = tk).map fun e => (e.1 % 64, e.2)

/-! ## Home memory -/

/-- Memory with n bytes from pa zeroed. -/
def Memory.clear (mem : List Host.Cell) (pa n : Nat) : List Host.Cell := mem.filter fun c => c.1 < pa || pa + n ≤ c.1

/-- Fills a demand-zero page (R203): zeros over the whole frame, V set. A page that is not demand-zero stays as it is. -/
def Mach.demandFill (m : Mach) (asid va : Nat) : Mach :=
  match m.walk asid va with
  | .leaf e at_ size =>
    if pteV e then m
    else
      let out (l : Nat) : Bool := l * 128 < pteAddr e || pteAddr e + size ≤ l * 128
      let m := m.setMem (Memory.writeN (Memory.clear m.mem (pteAddr e) size) at_ (natBytes 8 (e + 1)))
      { m with
        replicas := m.replicas.sift fun k _ => out (k / 4)
        poison := m.poison.filter out
        hostOut := m.hostOut ++ (m.hostCopies.filter fun l => !out l).map .backInvalidate
        hostCopies := m.hostCopies.filter out
        demand := m.demand.filter fun d => d ≠ (asid, va / size * size) }
  | .none => m

/-- Records that an access stalls on a demand-zero page (R203). -/
def Mach.stallOn (m : Mach) (asid page : Nat) : Mach :=
  if m.demand.contains (asid, page) then m else { m with demand := m.demand ++ [(asid, page)] }

/-- Translation with a replayable condition serviced first, as the operations of R131 and the engines of R267 have it. -/
def Mach.translateServiced (m : Mach) (asid va : Nat) (k : AccKind) : Trans × Mach :=
  match m.translate asid va k with
  | .stall page =>
    let m := m.demandFill asid page
    (m.translate asid va k, m)
  | t => (t, m)

/-! ## Local store -/

/-- Local-store bytes of a team. -/
def Mach.lsRead (m : Mach) (tk off n : Nat) : List Byte :=
  match m.team? tk with
  | some t => Memory.readN t.ls off n
  | none => List.replicate n 0

/-- The 16-byte granules n bytes from an offset meet. -/
def granulesOf (off n : Nat) : List Nat :=
  if n = 0 then [] else (List.range ((off + n + 15) / 16 - off / 16)).map (off / 16 + ·)

/-- Writes local-store bytes of a team. A byte-barrier cell there has no specified fields from then on (R361). -/
def Mach.lsWrite (m : Mach) (tk off : Nat) (bs : List Byte) : Mach :=
  m.updTeam tk fun t =>
    { t with ls := Memory.writeN t.ls off bs, spoilt := (granulesOf off bs.length).foldl (fun l g => insertNat g l) t.spoilt }

/-- Writes the 16 bytes of a byte-barrier cell as an operation on it leaves them (R361). -/
def Mach.cellWrite (m : Mach) (tk off : Nat) (bs : List Byte) : Mach :=
  m.updTeam tk fun t => { t with ls := Memory.writeN t.ls off bs, spoilt := t.spoilt.filter (· ≠ off / 16) }

/-- The team a cluster-window address names, for a team of the gang (R193): core index [20:19], offset [18:0]. -/
def Mach.windowTeam (m : Mach) (tk addr : Nat) : Option Nat :=
  match m.team? tk with
  | none => none
  | some t =>
    let ci := addr / 2 ^ 19 % 4
    (m.teams.find? fun e => e.2.launch = t.launch && e.2.gang = t.gang && e.2.coreIx = ci).map (·.1)

/-! ## Registers -/

/-- The value of a register in a lane (R180: 0 where nothing was written). -/
def Frame.reg (f : Frame) (r lane : Nat) : Word := f.regs.getD (32 * r + lane) 0

/-- Writes a register in a lane. -/
def Frame.setReg (f : Frame) (r lane : Nat) (v : Word) : Frame := { f with regs := f.regs.norm (32 * r + lane) v 0 }

/-- Writes a register in a lane, v of the leader and u of its shadow (R156). -/
def Frame.setTwo (f : Frame) (r lane : Nat) (v u : Word) : Frame :=
  { f.setReg r lane v with twin := f.twin.norm (32 * r + lane) u 0 }

/-- Writes a register in a lane of the leader and of its shadow alike (R156). -/
def Frame.setBoth (f : Frame) (r lane : Nat) (v : Word) : Frame := f.setTwo r lane v v

/-- The frame as the shadow warp has it: its registers stand for the leader's (R156). -/
def Frame.swapped (f : Frame) : Frame := { f with regs := f.twin, twin := f.regs }

/-- A register pair as one 64-bit value, the even register low. -/
def Frame.pair (f : Frame) (r lane : Nat) : DWord := f.reg (r + 1) lane ++ f.reg r lane

/-- The low word of a 64-bit value. -/
def loWord (v : DWord) : Word := v.truncate 32
/-- The high word of a 64-bit value. -/
def hiWord (v : DWord) : Word := (v >>> 32).truncate 32

/-- Writes a register pair in a lane. -/
def Frame.setPair (f : Frame) (r lane : Nat) (v : DWord) : Frame :=
  (f.setReg r lane (loWord v)).setReg (r + 1) lane (hiWord v)

/-- Writes a register in every lane of a set. -/
def Frame.setLanes (f : Frame) (r : Nat) (ls : List Nat) (v : Nat → Word) : Frame :=
  ls.foldl (fun f n => f.setReg r n (v n)) f

/-- The flag a register of a lane is marked with (R187). -/
def Frame.mark? (f : Frame) (r lane : Nat) : Option Nat := f.pend.get? (32 * r + lane)

/-- Marks registers in lanes with a flag (R187). -/
def Frame.markRegs (f : Frame) (rs lanes : List Nat) (flag : Nat) : Frame :=
  { f with pend := rs.foldl (fun p r => lanes.foldl (fun p n => p.put (32 * r + n) flag) p) f.pend }

/-- Clears the marks that name a flag of the mask in the lanes of a set (R186, R309). -/
def Frame.clearMarks (f : Frame) (mask : Nat) (lanes : Lanes) : Frame :=
  { f with pend := f.pend.sift fun k v => !(bit mask v && lanes.getLsbD (k % 32)) }

/-! ## Paths -/

/-- Every path of a task. -/
def Task.allPaths (t : Task) : List Path := t.run.toList ++ t.paths

/-- Lanes satisfied for the DEMOTED paths of a task (R171): once none of Q is left the path is ELIGIBLE. -/
def Task.satisfy (t : Task) (l : Lanes) : Task :=
  { t with paths := t.paths.map fun p =>
      match p.st with
      | .demoted q => if q &&& ~~~l = 0 then { p with st := .eligible } else { p with st := .demoted (q &&& ~~~l) }
      | _ => p }

/-- Whether an entry is a path's own (R184 rule 1). -/
def LatchEntry.ofPath (e : LatchEntry) (p : Path) : Bool := e.lanes = p.lanes && e.frame = p.frame

/-- Removes the latch entries of a path (R184 rule 4). -/
def Task.dropLatch (t : Task) (p : Path) : Task := { t with latch := t.latch.filter fun e => !e.ofPath p }

/-- The latch entries of a path (R184 rule 1). -/
def Task.latchOf (t : Task) (p : Path) : List LatchEntry := t.latch.filter fun e => e.ofPath p

/-- Entries come back for a path of the lanes given; the latch keeps the three newest (R184, R257). -/
def Task.relatch (t : Task) (ls : Lanes) (es : List LatchEntry) : Task :=
  let all := t.latch ++ es.map fun e => { e with lanes := ls }
  { t with latch := all.drop (all.length - 3) }

/-- The lanes of a path become others: its entries stay with it (R184). -/
def Task.moveLatch (t : Task) (p : Path) (ls : Lanes) : Task :=
  { t with latch := t.latch.map fun e => if e.ofPath p then { e with lanes := ls } else e }

/-- Adds a path to a task; an empty path is none. -/
def Task.addPath (t : Task) (p : Path) : Task := if p.lanes = 0 then t else { t with paths := t.paths ++ [p] }

/-- A path that stands at a clause start (R167, R168). -/
def atClause (lanes : Lanes) (pc : DWord) (frame : Nat) : Path := ⟨lanes, pc, pc, false, frame, .eligible, 0⟩

/-- Frames of a lane's chain, the current one first (R166). -/
def Mach.chain (m : Mach) (lane : Nat) : Nat → Nat → List Nat
  | 0, _ => []
  | fuel + 1, fr =>
    match m.frames.get? fr with
    | none => []
    | some f =>
      match f.links.get? lane with
      | some l => fr :: m.chain lane fuel l.caller
      | none => [fr]

/-- Frames a lane of some path still refers to (R181). -/
def Mach.liveFrames (m : Mach) (t : Task) : List Nat :=
  (t.allPaths.flatMap fun p => (laneList p.lanes).flatMap fun n => m.chain n 66 p.frame).eraseDups

/-- Whether an operation writes registers (R181). -/
def OpKind.writesRegs : OpKind → Bool
  | .writes .. | .load _ | .resolve .. | .finOpen .. | .spawnR .. | .rclose .. | .ctxSave .. | .ctxLoad .. | .leaseTst ..
  | .leaseRel .. | .bezelRd .. => true
  | .atomic k => k.d.isSome
  | _ => false

/-- The images of a launch without those at the offsets given (R267). -/
def Launch.dropImages (l : Launch) (offs : List Nat) : Launch := 
  { l with images := l.images.filter fun i => !offs.contains i.off && !i.pair.any offs.contains }

/-- Frees the frames of a task no lane refers to, once no operation that writes their registers is outstanding (R181); the
Escapement images of spilled ones are released unread (R266, R267). -/
def Mach.freeFrames (m : Mach) (t : Nat) : Mach :=
  let live := match m.tasks.get? t with
    | some k => m.liveFrames k
    | none => []
  let stays (fr : Nat) (f : Frame) : Bool :=
    f.task ≠ t || live.contains fr || m.ops.any fun o => o.2.frame = fr && o.2.kind.writesRegs && !o.2.dead
  let offs := m.frames.filterMap fun f => if stays f.1 f.2 then none else f.2.spilled
  let m := match (m.tasks.get? t).bind fun k => m.team? k.team with
    | some tm => if offs = [] then m else m.updLaunch tm.launch fun l => l.dropImages offs
    | none => m
  { m with frames := m.frames.sift stays }

/-- The handler a lane's chain holds innermost (R253, R255). -/
def Mach.handlerOf (m : Mach) (lane fr : Nat) : Option Handler :=
  (m.chain lane 66 fr).findSome? fun k => (m.frames.get? k).bind (·.handler)

/-- Whether a path is in a handler (R255). -/
def Mach.inHandler (m : Mach) (p : Path) : Bool := (laneList p.lanes).any fun n => (m.handlerOf n p.frame).isSome

/-! ## Granules (R179) -/

/-- Granules of a demand in registers. -/
def granules (demand : Nat) : Nat := demand / 8

/-- Shadow mode doubles what a team is charged and uses (R92, R156). -/
def Launch.scale (l : Launch) : Nat := if l.shadow then 2 else 1

/-- Granules a team holds: its frames in the register store (R179). -/
def Mach.granulesUsed (m : Mach) (tk : Nat) : Nat :=
  (m.frames.filter fun e => e.2.spilled.isNone && (m.tasks.get? e.2.task).any fun t => t.team = tk).foldl
    (fun n e => n + granules e.2.demand) 0

/-- Granules a team may hold (R92, R179); a leader's and its shadow's frames are counted as one here, on both sides. -/
def Mach.granulesCharge (m : Mach) (tk : Nat) : Nat := ((m.launchOf tk).map (·.granules)).getD 0

/-- Whether a frame request of the team waits already (R179). -/
def Mach.requestWaits (m : Mach) (tk : Nat) : Bool :=
  ((m.tasksOf tk).any fun e => e.2.allPaths.any fun p => p.st matches .blocked ..) ||
    (m.warpsOf tk).any fun e => e.2.st matches .startBlocked _

/-- Whether a request of k granules fits at once, in the order requests reach the allocator (R179). -/
def Mach.fits (m : Mach) (tk k : Nat) : Bool :=
  !m.requestWaits tk && m.granulesUsed tk + k ≤ m.granulesCharge tk

/-- A fresh frame (R180). -/
def Mach.newFrame (m : Mach) (task demand depth : Nat) (links : Sparse Link) (h : Option Handler) : Nat × Mach :=
  (m.serial, { m with serial := m.serial + 1,
                      frames := m.frames.put m.serial ⟨task, demand, [], [], depth, links, [], h, none, []⟩ })

/-! ## What holds a request back -/

/-- Whether warps of a team issue (R102): resident, or draining. -/
def Team.runs (t : Team) : Bool := t.res = .resident || t.res = .draining

/-- Whether a sealed migration unit holds an address (R161). -/
def Mach.sealed (m : Mach) (pa : Nat) : Bool := m.migs.any fun u => u.2.old ≤ pa && pa < u.2.old + u.2.size

/-- Whether a request to a place waits: a domain that switches (R50), a sealed unit for a write (R161), a team that is not
resident (R148); a save waits for what is under way in its local store (R107). -/
def Mach.placeWaits (m : Mach) (write : Bool) : Place → Bool
  | .ls tk _ => !(m.team? tk).any fun t => t.runs || t.res = .saving
  | .dev pa =>
    ((m.pinAt pa).isNone && ((m.domainAt pa).any fun d => d.2.st = .switch)) || (write && m.sealed pa)

/-- Whether two ranges of bytes meet. -/
def Place.meets (a : Place) (n : Nat) (b : Place) (k : Nat) : Bool :=
  match a, b with
  | .dev x, .dev y => x < y + k && y < x + n
  | .ls t x, .ls u y => t = u && x < y + k && y < x + n
  | _, _ => false

/-- Whether a write of the ranges given comes to the migration gate of a sealed unit (R161). -/
def Mach.atGate (m : Mach) (ps : List (Place × Nat)) : Bool :=
  m.migs.any fun u => ps.any fun p => p.1.meets p.2 (.dev u.2.old) u.2.size

/-- A write waits at the gates of the units it meets, in order of arrival (R161). -/
def Mach.meetGate (m : Mach) (g : Gated) (ps : List (Place × Nat)) : Mach :=
  { m with migs := m.migs.mapv fun _ u =>
      if !u.gate.contains g && ps.any fun p => p.1.meets p.2 (.dev u.old) u.size then { u with gate := u.gate ++ [g] } else u }

/-! ## Futures and scopes -/

/-- STATE of a future cell (R131). -/
def Mach.cellState (m : Mach) (pa : Nat) : Nat := (Memory.read m.mem (pa + 8)).toNat % 4

/-- VALUE of a future cell (R131). -/
def Mach.cellValue (m : Mach) (pa : Nat) : DWord := .ofNat 64 (m.read64 pa)

/-- Whether a cell may lie there (R131): local HBM, cached normally or pinned in an L2 slice. -/
def Loc.cellOk (l : Loc) : Bool := regionOf l.pa = .hbm && (l.home = 0 || l.home = 2)

/-- The home of a future cell for an operation performed for a task or an engine; none where R131 drops it. -/
def Mach.cellFor (m : Mach) (asid va : Nat) : Option Nat × Mach :=
  match m.translateServiced asid va { write := true } with
  | (.ok l, m) => (if l.cellOk then some l.pa else none, m)
  | (_, m) => (none, m)

/-- Resolves a cell that is EMPTY: STATE, VALUE, WAITHEAD zero (R131, R132). Answers whether it was EMPTY. -/
def Mach.resolveCell (m : Mach) (pa state : Nat) (v : DWord) : Bool × Mach :=
  if m.cellState pa = 0 then
    let flags := Memory.read m.mem (pa + 9)
    (true, m.homeWrite pa (natBytes 8 v.toNat ++ [.ofNat 8 state, flags] ++ List.replicate 6 0))
  else (false, m)

/-- VALUE of a cell FAULTED with a cause and an address (R131). -/
def faultValue (cause : Nat) (addr : DWord) : DWord := .ofNat 64 (cause % 2 ^ 7 * 2 ^ 57 + addr.toNat % 2 ^ 57)

/-- The peer a place lies at. -/
def Place.peer? : Place → Option Nat
  | .dev pa => match regionOf pa with
    | .peer n => some n
    | _ => none
  | .ls .. => none

/-- The ranges an operation accesses for its lanes: a load, an atomic, both sides of a tile. -/
def OpKind.ranges : OpKind → List (Place × Nat)
  | .load k => k.lanes.map fun a => (a.place, k.size)
  | .atomic k => k.lanes.map fun a => (a.acc.place, k.size)
  | .tile k => (.ls k.team k.packed, k.rows.length * k.rowlen) :: k.rows.map fun p => (p, k.rowlen)
  | _ => []

/-- Whether a store a task made to a peer aperture, plain, tile or atomic, is not acknowledged (R143). -/
def Mach.peerWrites (m : Mach) (t : Nat) : Bool :=
  (m.cores.any fun c => c.2.stores.any fun s => s.task = t && s.place.peer?.isSome) ||
    m.ops.any fun o => o.2.task = t && !(o.2.kind matches .load _) && o.2.kind.ranges.any fun r => r.1.peer?.isSome

/-- Sends the resolutions whose task has no unacknowledged store at a peer left (R143). -/
def Mach.sendDue (m : Mach) : Mach :=
  { m with
    peerOut := m.peerOut ++ (m.dueFutures.filter fun d => !m.peerWrites d.1).map (·.2)
    dueFutures := m.dueFutures.filter fun d => m.peerWrites d.1 }

/-- Whether the setting of CFLAGS.REMOTE for a cell is still to come: the answer to its spawn is on the way, or its home holds it
back (R142). -/
def Mach.spawnOut (m : Mach) (c : CellOp) (module : Nat) : Bool :=
  m.ops.any fun o => match o.2.kind with
    | .spawnR d p _ => p = module && d.future.toNat = c.va && ((m.launchOf o.2.team).map (·.asid)) = some c.asid
    | _ => false

/-- A resolution of a remote future is applied once: what its module sends, or what the loss of it brings (R33, R143). -/
def Mach.forgetRemote (m : Mach) (r : RemoteCell) : Mach := { m with remoteCells := m.remoteCells.filter (· ≠ r) }

/-- A future operation reaches its cell (R131, R132). -/
def Mach.actOn (m : Mach) (pa : Nat) (c : CellOp) : Mach :=
  let answer (r : RemoteCell) (f : Bool) (v : DWord) : Mach := ((m.forgetRemote r).resolveCell pa (if f then 2 else 1) v).2
  match c.act with
  | .resolve f v => (m.resolveCell pa (if f then 2 else 1) v).2
  | .remote p =>
    let m := m.homeWrite (pa + 9) [Memory.read m.mem (pa + 9) ||| 1]
    if m.conn p = .down then (m.resolveCell pa 2 (faultValue Cause.remoteUnavailable.code 0)).2
    else { m with remoteCells := m.remoteCells ++ [⟨c.asid, c.va, p⟩] }
  | .answer p f v => if m.remoteCells.contains ⟨c.asid, c.va, p⟩ then answer ⟨c.asid, c.va, p⟩ f v else m

/-- A future operation is performed for a task, unless its home holds it back or what it answers has not come; it is dropped where its
translation fails (R131). -/
def Mach.cellNow (m : Mach) (c : CellOp) : Option Mach :=
  let early := match c.act with
    | .answer p .. => !m.remoteCells.contains ⟨c.asid, c.va, p⟩ && m.spawnOut c p
    | _ => false
  if early then none
  else match m.cellFor c.asid c.va with
    | (some pa, m) => if m.placeWaits true (.dev pa) then none else some (m.actOn pa c)
    | (none, m) => some (match c.act with
      | .answer p .. => m.forgetRemote ⟨c.asid, c.va, p⟩
      | _ => m)

/-- What performs a future operation that is held back waits, at the gate of a sealed unit in order of arrival (R161). -/
def Mach.cellWaits (m : Mach) (g : Gated) (c : CellOp) : Mach :=
  match (m.cellFor c.asid c.va).1 with
  | some pa => m.meetGate g [(.dev pa, 16)]
  | none => m

/-- A future operation that is held back waits. -/
def Mach.holdCell (m : Mach) (id : Nat) (c : CellOp) : Mach := ({ m with late := m.late.put id c } : Mach).cellWaits (.cell id) c

/-- Performs a future operation for a task, or holds it (R131). -/
def Mach.postCell (m : Mach) (c : CellOp) : Mach :=
  match m.cellNow c with
  | some m => m
  | none => { m.holdCell m.serial c with serial := m.serial + 1 }

/-- Performs a future operation that was held, where nothing holds it any more. -/
def Mach.retryCell (m : Mach) (id : Nat) : Mach :=
  match m.late.get? id with
  | none => m
  | some c => match ({ m with late := m.late.del id } : Mach).cellNow c with
    | some m => m
    | none => m.holdCell id c

/-- Performs the future operations nothing holds any more, but for those that wait at a gate for their turn. -/
def Mach.retryCells (m : Mach) : Mach :=
  (m.late.filter fun e => !m.migs.any fun u => u.2.gate.contains (.cell e.1)).foldl (fun m e => m.retryCell e.1) m

/-- Remote futures a lost peer holds resolve FAULTED(REMOTE_UNAVAILABLE) (R33). -/
def Mach.resolveLost (m : Mach) : Mach :=
  let value := faultValue Cause.remoteUnavailable.code 0
  (m.remoteCells.filter fun r => m.conn r.module = .down && !m.late.any fun e => e.2 = ⟨r.asid, r.va, .answer r.module true value⟩).foldl
    (fun m r => m.postCell ⟨r.asid, r.va, .answer r.module true value⟩) m

/-- Resolves the future the descriptor of task t names, as READY or FAULTED (R131, R132); that of another module once the task's
stores at peers are acknowledged (R143). -/
def Mach.resolveFuture (m : Mach) (t asid : Nat) (d : Desc) (faulted : Bool) (v : DWord) : Mach :=
  if d.future = 0 then m
  else if d.remote then
    ({ m with dueFutures := m.dueFutures ++ [(t, .future d.origin d.future.toNat faulted v)] } : Mach).sendDue
  else m.postCell ⟨asid, d.future.toNat, .resolve faulted v⟩

/-- A finish scope of a launch (R135). -/
def Launch.scope (l : Launch) (s : Nat) : FinScope := l.scopes.getD s ⟨.free, 0, 0⟩

/-- Closes a CLOSING scope whose count is zero, and its parents in turn (R135). -/
def Launch.settleScope (l : Launch) : Nat → Nat → Launch
  | 0, _ => l
  | fuel + 1, s =>
    let c := l.scope s
    if c.st = .closing && c.count = 0 && s ≠ 0 then
      let l := { l with scopes := l.scopes.put s ⟨.free, 0, 0⟩ }
      let p := l.scope c.parent
      { l with scopes := l.scopes.put c.parent { p with count := p.count - 1 } }.settleScope fuel c.parent
    else l

/-- Takes one from the count of a scope (R135). -/
def Launch.scopeDec (l : Launch) (s : Nat) : Launch :=
  let c := l.scope s
  { l with scopes := l.scopes.put s { c with count := c.count - 1 } }.settleScope 256 s

/-- Adds one to the count of a scope (R135). -/
def Launch.scopeInc (l : Launch) (s : Nat) : Launch :=
  let c := l.scope s
  { l with scopes := l.scopes.put s { c with count := c.count + 1 } }

/-- Whether a scope is quiet (R135). -/
def Launch.quiet (l : Launch) (s : Nat) : Bool :=
  let c := l.scope s
  c.st = .free || (c.st = .opened && c.count = 0)

/-! ## Tokens (R403) -/

/-- The token of a slot: with the matrix unit where none is listed. -/
def Team.token (t : Team) (slot : Nat) : Token := t.tokens.getD slot ⟨none, false, [], []⟩

/-- Lists a token, or nothing where it is with the matrix unit and nobody waits. -/
def Team.setToken (t : Team) (slot : Nat) (k : Token) : Team :=
  { t with tokens := t.tokens.norm slot k ⟨none, false, [], []⟩ }

/-- A token nobody holds or awaits goes to its oldest waiter; a pending one is held once nothing is awaited (R403). -/
def Token.settle (k : Token) : Token :=
  if k.awaits ≠ [] then k
  else match k.owner, k.waiters with
    | some _, _ => { k with held := true }
    | none, w :: ws => ⟨some w, true, [], ws⟩
    | none, [] => k

/-- A token as its holder gives it up or ends (R403). -/
def Token.release (k : Token) (t : Nat) : Token :=
  let k := { k with waiters := k.waiters.filter (· ≠ t) }
  if k.owner = some t then { k with owner := none, held := false }.settle else k

/-! ## Warps -/

/-- Whether every flag of a task is CLEAR (R185). -/
def Task.flagsClear (t : Task) : Bool := t.flags.all fun f => f.2.count = 0

/-- Number of PARKED and RESUMABLE tasks of a team (R130). -/
def Mach.parkedCount (m : Mach) (tk : Nat) : Nat :=
  ((m.tasksOf tk).filter fun e => e.2.st matches .parked | .resumable).length

/-- Whether R130 permits a task of the team to park. -/
def Mach.mayPark (m : Mach) (tk : Nat) : Bool :=
  m.parkedCount tk < 2 * ((m.launchOf tk).map (·.warps)).getD 0

/-- Whether a path waits on `join`, `join.t` or `fin.wait` (R130, R177). -/
def Path.waitsForWork (p : Path) : Bool := p.st matches .waiting (.join ..) | .waiting (.fin _)

/-- Whether a path can be selected (R170). -/
def Path.selectable (p : Path) : Bool := p.st matches .eligible | .demoted _

/-- The state of a warp after a change to its task (R177, R189): parks, blocks, runs, or leaves ENDING. A slot that no resident team
holds stays FREE. -/
def Mach.settle (m : Mach) (tk w : Nat) : Mach :=
  match ((m.warps.get? (warpKey tk w)).filter (·.st ≠ .free)).bind (·.task) with
  | none => m
  | some t =>
    match m.tasks.get? t with
    | none => m.updWarp tk w fun x => { x with st := .idle, task := none }
    | some k =>
      match k.st with
      | .ended _ =>
        if k.flagsClear then
          { m.updWarp tk w fun x => { x with st := .idle, task := none } with tasks := m.tasks.del t }
        else m
      | _ =>
        if k.run.isSome || k.paths.any Path.selectable then m.updWarp tk w fun x => { x with st := .active }
        else if k.paths = [] then m
        else if k.paths.all Path.waitsForWork && m.mayPark tk then
          if k.flagsClear then
            let m := m.updTask t fun k => { k with st := .parked, order := m.serial }
            let m := { m with serial := m.serial + 1 }
            let m := m.updTeam tk fun tm => { tm with parked := tm.parked ++ [t] }
            m.updWarp tk w fun x => { x with st := .idle, task := none }
          else m
        else m.updWarp tk w fun x => { x with st := .blocked }

/-- Wakes the paths of a task that p selects: they become what f makes of them, those that leave their clause without their latch
entries (R184); a parked task becomes RESUMABLE (R130). -/
def Mach.wakePaths (m : Mach) (t : Nat) (p : Path → Bool) (f : Path → Path) : Mach :=
  match m.tasks.get? t with
  | none => m
  | some k =>
    if k.paths.any p then
      let left (q : Path) : Bool := p q && q.entered && !(f q).entered
      let k' := { k with
        paths := k.paths.map fun q => if p q then f q else q
        latch := k.latch.filter fun e => !k.paths.any fun q => left q && e.ofPath q }
      match k.st with
      | .parked =>
        let m := { m with tasks := m.tasks.put t { k' with st := .resumable, order := m.serial }, serial := m.serial + 1 }
        m.updTeam k.team fun tm => { tm with parked := tm.parked.filter (· ≠ t) }
      | .running w => { m with tasks := m.tasks.put t k' }.settle k.team w
      | _ => { m with tasks := m.tasks.put t k' }
    else m

/-! ## Waits -/

/-- Whether a scope reaches beyond the core. -/
def wide (s : Scope) : Bool := 2 ≤ s.code

/-- The cache action of an acquire on a core (R211). -/
def Mach.acquire (m : Mach) (core : Nat) (s : Scope) : Mach :=
  if wide s then m.updCore core fun c => { c with l1d := [] } else m

/-- Bytes of the clause (R274). -/
def clauseSize (h : Header) : Nat := (h.nblk + 1) * 64

/-- A path past the 64-bit waiting instruction at its PC: within its clause, or at the next clause start (R168, R274). -/
def Mach.pastWait (m : Mach) (t : Nat) (p : Path) : Path :=
  match (m.tasks.get? t).bind fun k => (m.team? k.team).map fun tm => (k, tm) with
  | none => p
  | some (k, tm) =>
    let asid := ((m.launches.get? tm.launch).map (·.asid)).getD 0
    match m.headerAt tm.core asid p.clause.toNat k.priv with
    | .error _ => p
    | .ok h =>
      let next := p.clause + .ofNat 64 (clauseSize h)
      let pc := p.pc + 8
      let pc := if pc.toNat % 32 = 28 && (m.codeWord tm.core asid pc.toNat k.priv matches .ok 0) then pc + 4 else pc
      if pc = next then atClause p.lanes next p.frame else { p with pc := pc, st := .eligible }

/-- Ends the waits of a team's paths that w selects (R170): each path goes on past its waiting instruction. -/
def Mach.endWaits (m : Mach) (tk : Nat) (w : Wait → Bool) : Mach :=
  (m.tasksOf tk).foldl (fun m e =>
    let sel (p : Path) : Bool := match p.st with
      | .waiting x => w x
      | _ => false
    m.wakePaths e.1 sel fun p => m.pastWait e.1 p) m

/-- Ends the waits on the scopes of a launch that have become quiet (R135), each with an acquire at `.dv` (R136). -/
def Mach.wakeScopes (m : Mach) (ln : Nat) : Mach :=
  match m.launches.get? ln with
  | none => m
  | some l =>
    let ready (w : Wait) : Bool := match w with
      | .fin s => l.quiet s
      | _ => false
    (m.teams.filter fun t => t.2.launch = ln).foldl (fun m t =>
      let hit := (m.tasksOf t.1).any fun e => e.2.paths.any fun p => match p.st with
        | .waiting w => ready w
        | _ => false
      if hit then (m.endWaits t.1 ready).acquire t.2.core .dv else m) m

/-! ## The end of a task -/

/-- How a task ends: READY with a value, FAULTED with a record, or without resolving its future (R129, R158, R259). -/
inductive Ending where
  | value (v : DWord)
  | faulted (r : FaultRec)
  | silent
  deriving DecidableEq, Repr

/-- Frees what an ended task held and settles its future and scope (R129, R134, R259, R368, R403); the core's last fault is the one
that ended it (R126, R258, R381). The cycles of a task count from its start to its end, parked or saved (DESIGN CHOICE, log
entry 100). -/
def Mach.endTask (m : Mach) (t : Nat) (e : Ending) : Mach :=
  match m.tasks.get? t with
  | none => m
  | some k =>
    match m.team? k.team with
    | none => m
    | some tm =>
      let asid := ((m.launches.get? tm.launch).map (·.asid)).getD 0
      let m := match e with
        | .value v => m.resolveFuture t asid k.desc false v
        | .faulted r =>
          (m.updCore tm.core fun c => { c with lastFault := some r }).resolveFuture t asid k.desc true (faultValue r.cause r.addr)
        | .silent => m
      let m := m.updLaunch tm.launch fun l =>
        { l.scopeDec k.desc.scope with
          faults := match e with
            | .faulted _ => l.faults + 1
            | _ => l.faults
          images := l.images.filter fun i =>
            !(m.frames.any fun f => f.2.task = t &&
              (f.2.spilled = some i.off || (f.2.spilled.isSome && f.2.spilled = i.pair))) && k.bufImage ≠ some i.off }
      let m := m.updTeam k.team fun tm =>
        { tm with
          taskcyc := match k.st with
            | .running _ => .ofNat 32 (tm.taskcyc.toNat - tm.taskcyc.toNat / 8 + (m.clock - k.startClock) / 8)
            | _ => tm.taskcyc
          tokens := (tm.tokens.mapv fun _ tok => tok.release t).sift fun _ tok => tok ≠ ⟨none, false, [], []⟩
          parked := tm.parked.filter (· ≠ t) }
      let m := m.wakeScopes tm.launch
      match k.st with
      | .running w =>
        let m := m.updTask t fun k =>
          { k with
            st := .ended w, run := none, paths := [], latch := [], buf := none, bufImage := none, swapFail := [], demote := 0
            trail := [] }
        (m.updWarp k.team w fun x => { x with st := .ending }).freeFrames t
      | _ =>
        let m := m.updTask t fun k => { k with run := none, paths := [] }
        let m := m.freeFrames t
        { m with tasks := m.tasks.del t }

/-! ## The issuing path -/

/-- What issues: team, warp, task, the path, its frame, the header of its clause, where it stands, its latch entries. -/
structure Issue where
  tk : Nat
  w : Nat
  t : Nat
  p : Path
  f : Frame
  hdr : Header
  core : Nat
  asid : Nat
  priv : Bool
  launch : Nat
  teamIx : Nat
  latch : List LatchEntry
  deriving DecidableEq, Repr

/-- The issuing path of the warp in focus: a path that has passed its clause's header. -/
def Mach.issuing (m : Mach) : Option Issue := do
  let (tk, w) ← m.focus
  let tm ← m.team? tk
  let l ← m.launches.get? tm.launch
  let x ← m.warps.get? (warpKey tk w)
  let t ← x.task
  let k ← m.tasks.get? t
  let p ← k.run
  let f ← m.frames.get? p.frame
  if p.entered && f.spilled.isNone && p.st = .eligible && x.st = .active && k.st = .running w && tm.runs && x.sleepUntil ≤ m.clock &&
      !m.kills.any (fun k => k.launch = tm.launch && k.gang = tm.gang) then
    match m.headerAt tm.core l.asid p.clause.toNat k.priv with
    | .ok h => some ⟨tk, w, t, p, f, h, tm.core, l.asid, k.priv, tm.launch, tm.ix, k.latchOf p⟩
    | .error _ => none
  else none

/-- Changes the issuing path. -/
def Mach.updPath (m : Mach) (c : Issue) (f : Path → Path) : Mach :=
  m.updTask c.t fun k => { k with run := k.run.map f }

/-- The start of the clause after this one (R274). -/
def Issue.nextClause (c : Issue) : DWord := c.p.clause + .ofNat 64 (clauseSize c.hdr)

/-- Where the path goes on after an instruction of n bytes: a zero pad word is passed over (R274). -/
def Mach.nextPc (m : Mach) (c : Issue) (n : Nat) : DWord :=
  let pc := c.p.pc + .ofNat 64 n
  if pc.toNat % 32 = 28 && (m.codeWord c.core c.asid pc.toNat c.priv matches .ok 0) then pc + 4 else pc

/-- Whether an instruction of n bytes is the last of its clause. -/
def Mach.isLast (m : Mach) (c : Issue) (n : Nat) : Bool := m.nextPc c n = c.nextClause

/-- The issuing path leaves its clause (R168): a selection point, latch entries discarded (R184), one clause more counted
for the team, saturating (R99). The lanes listed go on as the paths ps. -/
def Mach.leaveClause (m : Mach) (c : Issue) (ps : List Path) : Mach :=
  let m := m.updTask c.t fun k => ps.foldl Task.addPath { k.dropLatch c.p with run := none }
  m.updTeam c.tk fun t => { t with clauses := if t.clauses = 0xFFFFFFFF then t.clauses else t.clauses + 1 }

/-- The lanes of the issuing path that go on do so after an instruction of n bytes; lanes listed in moved have gone
elsewhere, as the paths ps. -/
def Mach.goOn (m : Mach) (c : Issue) (n : Nat) (moved : Lanes) (ps : List Path) : Mach :=
  let rest := c.p.lanes &&& ~~~moved
  if rest = 0 then m.leaveClause c ps
  else if m.isLast c n then m.leaveClause c (ps ++ [atClause rest c.nextClause c.p.frame])
  else
    let pc := m.nextPc c n
    m.updTask c.t fun k =>
      ps.foldl Task.addPath { k.moveLatch c.p rest with run := k.run.map fun p => { p with lanes := rest, pc := pc } }

/-- The issuing path stops in a state (WAITING, BLOCKED) where it stands; its lanes are satisfied (R171). -/
def Mach.stopPath (m : Mach) (c : Issue) (st : PathSt) : Mach :=
  m.updTask c.t fun k =>
    let k := k.satisfy c.p.lanes
    match k.run with
    | some p => { k with run := none, paths := k.paths ++ [{ p with st := st, attributed := 0 }] }
    | none => k

/-! ## Faults -/

/-- A fault as an instruction raises it: cause, operand position (R192), lanes, address, DETAIL, scope, and whether it reports
stores a lost peer left unacknowledged (R33). -/
structure Fail where
  cause : Cause
  oppos : Nat := 0
  lanes : Lanes
  addr : DWord := 0
  detail : DWord := 0
  scope : Option Scope := none
  lost : Bool := false
  deriving DecidableEq, Repr

/-- The record of a fault of the issuing path (R252). -/
def Issue.record (c : Issue) (f : Fail) : FaultRec :=
  ⟨f.cause.code, f.oppos, f.scope.isSome, (f.scope.map Scope.code).getD 0, false, false, false, f.lanes, c.p.pc, f.addr, 0,
    c.launch, c.teamIx, c.w, c.f.depth, f.detail⟩

/-- CAUSEWORD of a record (R253). -/
def FaultRec.causeword (r : FaultRec) : Word :=
  .ofNat 32 (r.cause + 2 ^ 8 * r.oppos + 2 ^ 16 * r.scope + 2 ^ 19 * r.sv.toNat + 2 ^ 24 * r.deferred.toNat +
    2 ^ 25 * r.nested.toNat + 2 ^ 26 * r.hfail.toNat)

/-- The 64 bytes of a record (R252). -/
def FaultRec.bytes (r : FaultRec) : List Byte :=
  natBytes 4 r.causeword.toNat ++ natBytes 4 r.lanes.toNat ++ natBytes 8 r.pc.toNat ++ natBytes 8 r.addr.toNat ++
    natBytes 8 r.origPc.toNat ++ natBytes 2 r.launch ++ natBytes 1 r.teamIx ++ natBytes 1 r.warp ++
    natBytes 1 r.depth ++ natBytes 3 0 ++ natBytes 8 r.detail.toNat ++ natBytes 16 0

/-- Arguments of a handler, v0 to v11 (R256). -/
def FaultRec.args (r : FaultRec) : List Word :=
  [r.causeword, r.lanes, loWord r.pc, hiWord r.pc, loWord r.addr, hiWord r.addr, loWord r.origPc, hiWord r.origPc,
    loWord r.detail, hiWord r.detail, .ofNat 32 (r.depth + 2 ^ 8 * r.teamIx + 2 ^ 16 * r.launch), .ofNat 32 r.warp]

/-- Ends the task of the issuing path by a fault (R259). -/
def Mach.dieOf (m : Mach) (c : Issue) (r : FaultRec) : Mach := m.endTask c.t (.faulted r)

/-- Address bits of the handler (R254). -/
def vecAddr (trapvec : DWord) : Nat := trapvec.toNat / 2 ^ 6 % 2 ^ 51 * 2 ^ 6

/-- Writes the registers given in every lane of a set, from v0 up, of the leader and of its shadow alike (R156). -/
def Frame.fill (f : Frame) (lanes : List Nat) (vs : List Word) : Frame :=
  vs.zipIdx.foldl (fun f v => lanes.foldl (fun f n => f.setBoth v.2 n v.1) f) f

/-- Enters the handler for a path that stands at the faulting instruction (R256): a frame one deeper, the record, PC and
latch entries kept in it, twelve arguments. Answers the path at the handler. -/
def Mach.openHandler (m : Mach) (t : Nat) (p : Path) (demand vec : Nat) (r : FaultRec) : Path × Mach :=
  let depth := ((m.frames.get? p.frame).map (·.depth)).getD 0
  let ls := laneList p.lanes
  let links := ls.map fun n => (n, (⟨p.frame, p.pc, p.clause, 0, 0⟩ : Link))
  let latch := ((m.tasks.get? t).map fun k => k.latchOf p).getD []
  let (fr, m) := m.newFrame t demand (depth + 1) links (some ⟨r, p.pc, p.clause, p.entered, latch⟩)
  let m := m.updTask t fun k => k.dropLatch p
  (atClause p.lanes (.ofNat 64 vec) fr, m.updFrame fr fun f => f.fill ls r.args)

/-- Takes a fault of the issuing path whose record is r (R255, R256, R258): the handler where TRAPVEC names one and the
path is in none, the end of the task otherwise. -/
def Mach.deliver (m : Mach) (c : Issue) (r : FaultRec) : Mach :=
  if m.inHandler c.p then m.dieOf c { r with nested := true }
  else
    let m := m.updCore c.core fun k => { k with lastFault := some r }
    let vec := vecAddr (((m.team? c.tk).map (·.trapvec)).getD 0)
    if vec = 0 then m.dieOf c r
    else match m.headerAt c.core c.asid vec c.priv with
      | .error _ => m.dieOf c { r with hfail := true }
      | .ok h =>
        if h.fn && h.narg = 12 && h.nres = 0 && 1 ≤ h.frame then
          if m.fits c.tk (h.frame + 1) then
            let (q, m) := m.openHandler c.t c.p (8 * (h.frame + 1)) vec r
            m.leaveClause c [q]
          else { m.stopPath c (.blocked (.handler (h.frame + 1) vec r) m.serial) with serial := m.serial + 1 }
        else m.dieOf c { r with hfail := true }

/-- Raises a fault at the issuing instruction (R248, R255). A release that reports lost stores has done so for its lanes (R33). -/
def Mach.raise (m : Mach) (c : Issue) (f : Fail) : Mach :=
  (if f.lost then m.updTask c.t fun k => { k with lost := k.lost &&& ~~~c.p.lanes } else m).deliver c (c.record f)

/-! ## Gang kills (R157, R260) -/

/-- Asks for the kill of a gang with a record; a cause during a kill joins the first (R157). -/
def Mach.askKill (m : Mach) (launch gang : Nat) (r : FaultRec) : Mach :=
  if m.kills.any fun k => k.launch = launch && k.gang = gang then m
  else { m with kills := m.kills ++ [⟨launch, gang, r⟩] }

/-- Whether the gang of a team is to be killed, waits for its relaunch, or its launch has been stopped. -/
def Mach.dying (m : Mach) (tk : Nat) : Bool :=
  match m.team? tk with
  | some t => (m.kills.any fun k => k.launch = t.launch && k.gang = t.gang) ||
      (m.launches.get? t.launch).any fun l => l.stop.isSome || l.relaunching.contains t.gang
  | none => false

/-- A record that no instruction of the gang raised (R260). -/
def strangerRecord (cause launch teamIx : Nat) (addr : DWord) : FaultRec :=
  ⟨cause, 0, false, 0, false, false, false, 0, 0, addr, 0, launch, teamIx, 0, 0, 0⟩

/-! ## Calls and returns (R261-R266) -/

/-- The frame of a granted call: one frame for all calling lanes, arguments copied, marks placed (R261, R263, R265). The
caller path stands in frame `p.frame`. Answers the paths at the targets. -/
def Mach.openCall (m : Mach) (t : Nat) (p : Path) (gran w : Nat) (mk : Bool) (ls : List CallLane)
    (retPc retClause : DWord) : List Path × Mach :=
  match m.frames.get? p.frame with
  | none => ([], m)
  | some caller =>
    let link (l : CallLane) : Link := ⟨p.frame, retPc, retClause, w, l.nres⟩
    let (fr, m) := m.newFrame t (8 * gran) (caller.depth + 1) (ls.map fun l => (l.lane, link l)) none
    let m := m.updFrame fr fun f =>
      ls.foldl (fun f l => (List.range l.narg).foldl (fun f i =>
        f.setTwo i l.lane (caller.reg (w + i) l.lane) (caller.swapped.reg (w + i) l.lane)) f) f
    let m := if mk then m.updFrame p.frame fun f =>
      { f with marks := ls.foldl (fun k l => k.put l.lane (link l)) f.marks } else m
    let targets := (ls.map (·.target)).eraseDups
    (targets.map fun a => atClause (laneSet ((ls.filter fun l => l.target = a).map (·.lane))) a fr, m)

/-- Granules a restore of a spilled frame needs (R270). -/
def Mach.spilledNeed (m : Mach) (fr : Nat) : Option Nat :=
  (m.frames.get? fr).bind fun f => f.spilled.map fun _ => granules f.demand

/-- n fresh free words, one for each register and lane of a frame (log entry 1). -/
def Mach.freeRegs (m : Mach) (demand : Nat) : Sparse Word × Mach :=
  ((List.range (32 * demand)).foldl (fun (t : Sparse Word) i => t.norm i (Config.freeWord (m.free + i)) 0) [],
    { m with free := m.free + 32 * demand })

/-- Whether the bytes written from the free values base on still stand at a virtual address (R272). -/
def Mach.imageIntact (m : Mach) (asid va base : Nat) : Nat → Nat → Bool
  | 0, _ => true
  | fuel + 1, n =>
    if n = 0 then true
    else match (m.translateServiced asid va { priv := true }).1 with
      | .ok l =>
        let k := min n (l.size - va % l.size)
        ((m.homeRead l.pa k).zipIdx.all fun b => b.1 = Config.freeByte (base + b.2)) &&
          m.imageIntact asid (va + k) (base + k) fuel (n - k)
      | _ => false

/-- A link that a changed image restores (R272): where it returns to is free, which frame it leads to is not. -/
def Link.strayed (x : Nat) (l : Link) : Link :=
  { l with retPc := Config.freeDWord x, retClause := Config.freeDWord (x + 1), w := Config.freeNat x % 256,
           nres := Config.freeNat (x + 1) % 9 }

/-- What a changed image restores of a handler's record (R272). -/
def Handler.strayed (x : Nat) (h : Handler) : Handler :=
  { h with
    pc := Config.freeDWord x, clause := Config.freeDWord (x + 1), entered := Config.freeNat x % 2 = 1, latch := []
    frec := { h.frec with
      cause := Config.freeNat (x + 1) % 128, oppos := Config.freeNat (x + 2) % 8, lanes := Config.freeWord x
      pc := Config.freeDWord (x + 2), addr := Config.freeDWord (x + 3), origPc := Config.freeDWord (x + 4)
      depth := Config.freeNat (x + 3) % 65, detail := Config.freeDWord (x + 5) } }

/-- What a changed image restores of a frame (R272, log entry 42): registers, pending marks, links, unwind marks, depth and handler
record are free; which frames its links lead to stays. -/
def Mach.strayFrame (m : Mach) (fr : Nat) : Mach :=
  match m.frames.get? fr with
  | none => m
  | some f =>
    let (regs, m) := m.freeRegs f.demand
    let x := m.free
    let kept {α : Type} (y : Nat) (t : Sparse α) : Sparse α := if Config.freeNat (x + y) % 2 = 1 then [] else t
    ({ m with free := x + 512 } : Mach).updFrame fr fun f => { f with
      regs := regs, twin := regs, pend := kept 0 f.pend, depth := Config.freeNat (x + 1) % 65
      links := f.links.mapv fun n l => l.strayed (x + 8 + 2 * n)
      marks := kept 2 (f.marks.mapv fun n l => l.strayed (x + 128 + 2 * n))
      handler := f.handler.map (Handler.strayed (x + 256)) }

/-- Whether a line that holds some of n bytes at a virtual address is poisoned (R155). -/
def Mach.imageBad (m : Mach) (asid va : Nat) : Nat → Nat → Bool
  | 0, _ => false
  | fuel + 1, n =>
    if n = 0 then false
    else match (m.translateServiced asid va { priv := true }).1 with
      | .ok l =>
        let k := min n (l.size - va % l.size)
        (linesOf l.pa k).any m.poison.contains || m.imageBad asid (va + k) fuel (n - k)
      | _ => false

/-- Poisoned bytes of an image at a virtual address are read for a team: its gang is to be killed (R155, R260). -/
def Mach.readBad (m : Mach) (tk va : Nat) (bad : Bool) : Mach :=
  match bad, m.team? tk with
  | true, some t => m.askKill t.launch t.gang (strangerRecord Cause.uncorrectable.code t.launch t.ix (.ofNat 64 va))
  | _, _ => m

/-- Brings a spilled frame back (R270): its image is freed. Where something has written to the image, what the frame holds is
unspecified (R272); where it is poisoned, the gang is to be killed (R155). -/
def Mach.restoreFrame (m : Mach) (fr : Nat) : Mach :=
  match m.frames.get? fr with
  | none => m
  | some f =>
    match f.spilled with
    | none => m
    | some off =>
      let m := m.updFrame fr fun f => { f with spilled := none }
      match (m.tasks.get? f.task).bind fun t => m.team? t.team with
      | some tm =>
        let l := m.launches.get? tm.launch
        let intact := l.all fun l => (l.images.filter fun i => i.off = off || i.pair = some off).all fun i =>
          m.imageIntact l.asid (l.spillBase.toNat + i.off) i.base (i.size / 65536 + 2) i.size
        let bad := l.any fun l => (l.images.filter fun i => i.off = off || i.pair = some off).any fun i =>
          m.imageBad l.asid (l.spillBase.toNat + i.off) (i.size / 65536 + 2) i.size
        let va := (l.map (·.spillBase.toNat)).getD 0 + off
        let m := (m.updLaunch tm.launch fun l => l.dropImages [off]).readBad (((m.tasks.get? f.task).map (·.team)).getD 0) va bad
        if intact then m else m.strayFrame fr
      | none => m

/-- A path that comes to a frame: BLOCKED on the restore of a spilled one that does not fit at once (R270). -/
def Mach.landPath (m : Mach) (tk : Nat) (p : Path) : Path × Mach :=
  match m.spilledNeed p.frame with
  | none => (p, m)
  | some k =>
    if m.fits tk k then (p, m.restoreFrame p.frame)
    else ({ p with st := .blocked .restore m.serial }, { m with serial := m.serial + 1 })

/-- Frames that ELIGIBLE paths of a task stand in are brought back, or waited for (R270). -/
def Mach.landTask (m : Mach) (tk t : Nat) : Mach :=
  match m.tasks.get? t with
  | none => m
  | some x => x.paths.foldl (fun m p =>
      if p.selectable && (m.spilledNeed p.frame).isSome then
        let (q, m) := m.landPath tk p
        m.updTask t fun x => { x with paths := x.paths.map fun y => if y = p then q else y }
      else m) m

/-- Copies v(s) to v(s + n − 1) of a frame into v(w) upward of another, in one lane. -/
def Mach.copyResults (m : Mach) (fr s lane dst w n : Nat) : Mach :=
  match m.frames.get? fr with
  | none => m
  | some f => m.updFrame dst fun g => (List.range n).foldl (fun g i => g.setReg (w + i) lane (f.reg (s + i) lane)) g

end Sys2Proof.Machine
end

