-- ==== Sys2Proof/Machine/Flags.lean ====
section
/-! DEFINITION. FPSTAT bits (R246, R247) and completion flags (R185-R189, R250). -/

namespace Sys2Proof.Machine

/-! ## FPSTAT (R246) -/

/-- Conditions of one result (R246). -/
structure Fp where
  iv : Bool := false
  dz : Bool := false
  of : Bool := false
  uf : Bool := false
  nx : Bool := false
  sat : Bool := false
  deriving DecidableEq, Repr

/-- The FPSTAT bits of a set of conditions (R246). -/
def Fp.word (x : Fp) : Word :=
  .ofNat 32 (x.iv.toNat + 2 * x.dz.toNat + 4 * x.of.toNat + 8 * x.uf.toNat + 16 * x.nx.toNat + 32 * x.sat.toNat)

/-- Conditions of two results together. -/
def Fp.or (x y : Fp) : Fp :=
  ⟨x.iv || y.iv, x.dz || y.dz, x.of || y.of, x.uf || y.uf, x.nx || y.nx, x.sat || y.sat⟩

/-- Sets FPSTAT bits of a task; none is ever cleared so (R246, R247). -/
def Mach.orFpstat (m : Mach) (t : Nat) (w : Word) : Mach := m.updTask t fun k => { k with fpstat := k.fpstat ||| w }

/-! ## Completion flags (R185) -/

/-- A flag of a task. -/
def Task.flag (t : Task) (n : Nat) : Flag := t.flags.getD n ⟨0, [], false⟩

/-- Lists a flag, or nothing where it is CLEAR and unmarked. -/
def Task.setFlag (t : Task) (n : Nat) (f : Flag) : Task := { t with flags := t.flags.norm n f ⟨0, [], false⟩ }

/-- The flag FS selects (R185). -/
def selectFlag (h : Header) (fs : Bool) : Option Nat := if fs then h.setb else h.seta

/-- Whether every flag of a mask is CLEAR (R186). -/
def Task.clearMask (t : Task) (mask : Nat) : Bool := t.flags.all fun f => !bit mask f.1 || f.2.count = 0

/-- Adds one outstanding operation to a flag (R185). -/
def Task.flagUp (t : Task) (n : Nat) : Task := t.setFlag n { t.flag n with count := (t.flag n).count + 1 }

/-- One operation of a flag completes, with the deferred faults it leaves (R185, R250). -/
def Task.flagDown (t : Task) (n : Nat) (fs : List (Nat × FaultRec)) : Task :=
  t.setFlag n { t.flag n with count := (t.flag n).count - 1, faults := (t.flag n).faults ++ fs }

/-- Clears the marks that name a flag of the mask in the lanes of a path, in every frame of their current chain (R186). -/
def Mach.clearMarks (m : Mach) (t mask : Nat) (lanes : Lanes) : Mach :=
  { m with frames := m.frames.mapv fun _ f => if f.task = t then f.clearMarks mask lanes else f }

/-- The deferred fault a wait on a mask takes: the one issued earliest, which is removed from its flag (R250). -/
def Task.takeDeferred (t : Task) (mask : Nat) : Option (FaultRec × Task) :=
  match (t.flags.filter fun f => bit mask f.1).flatMap fun f => f.2.faults.map fun r => (f.1, r) with
  | [] => none
  | a :: rest =>
    let first := rest.foldl (fun b x => if x.2.1 < b.2.1 then x else b) a
    some (first.2.2, t.setFlag first.1 { t.flag first.1 with faults := (t.flag first.1).faults.erase first.2 })

end Sys2Proof.Machine
end

