-- ==== Sys2Proof/WellFormed.lean ====
section
/-! DEFINITION. Well-formed instructions: those no static check of R191 step 1 refuses. -/

namespace Sys2Proof

/-- HOLD names a field that is read as a source (R184). -/
def Shape.holdOk (h : Shape) : Bool :=
  match h.ctl.hold with
  | .none => true
  | .a => h.a.isSource
  | .b => h.b.isSource
  | .c => h.c.isSource

/-- FS is set by long-latency instructions only (R185). -/
def Shape.fsOk (h : Shape) : Bool := h.lat == .l || !h.ctl.fs

/-- Pairs have even bases (R180), groups of four a multiple of 4 (R327, R362). -/
def Shape.aligned (h : Shape) : Bool :=
  h.d.aligned && h.a.aligned && h.b.aligned && h.c.aligned && h.x.aligned

/-- An instruction whose values are permitted and whose fields pass the checks of R191 step 1 that need no state.
An event is always well-formed. -/
def Instr.wf (i : Instr) : Bool :=
  i.permitted && i.shape.holdOk && i.shape.fsOk && i.shape.aligned

end Sys2Proof
end

