-- ==== Sys2Proof/Machine/Operands.lean ====
section
/-! DEFINITION. Operands and the issue of an instruction: active lanes (R175), operand forms (R299), the checks of R191,
the operand latch (R184), pending marks (R187), and what an instruction does once checked. -/

namespace Sys2Proof.Machine

/-! ## Operand values -/

/-- The value of a source field in a lane: 32 bits zero-extended, or a pair (R278, R299). -/
def Opd.val (f : Frame) (o : Opd) (lane : Nat) : DWord :=
  match o with
  | .src r => (f.reg r.toNat lane).zeroExtend 64
  | .pair r => f.pair r.toNat lane
  | _ => 0

/-- The first register a field names. -/
def Opd.base : Opd → Nat
  | .none => 0
  | .d r | .dp r | .d4 r | .src r | .pair r | .win r => r.toNat

/-- Registers a destination field writes. -/
def Opd.dests : Opd → List Nat
  | .d r => [r.toNat]
  | .dp r => [r.toNat, r.toNat + 1]
  | .d4 r => [r.toNat, r.toNat + 1, r.toNat + 2, r.toNat + 3]
  | _ => []

/-- Registers a source field reads. -/
def Opd.sources : Opd → List Nat
  | .src r => [r.toNat]
  | .pair r => [r.toNat, r.toNat + 1]
  | _ => []

/-- Active lanes of a path: those for which the guard holds (R175). -/
def activeLanes (f : Frame) (lanes : Lanes) (g : Option Guard) : Lanes :=
  match g with
  | none => lanes
  | some g => lanes &&& laneSet ((List.range 32).filter fun n => (f.reg g.reg.toNat n).getLsbD 0 != g.neg)

/-- Source fields with their operand positions (R192), in the order A, B, C, X, guard. -/
def readFields (h : Shape) : List (Nat × Opd) :=
  [(2, h.a), (3, h.b), (4, h.c), (5, h.x)] ++
    match h.ctl.guard with
    | some g => [(6, .src (g.reg.zeroExtend 8))]
    | none => []

/-! ## The operand latch (R184) -/

/-- Whether an entry serves a source field: same register, same width. -/
def LatchEntry.serves (e : LatchEntry) (o : Opd) : Bool :=
  match o with
  | .src r => e.reg = r.toNat && !e.wide
  | .pair r => e.reg = r.toNat && e.wide
  | _ => false

/-- Registers an entry holds. -/
def LatchEntry.regs (e : LatchEntry) : List Nat := if e.wide then [e.reg, e.reg + 1] else [e.reg]

/-- The source HOLD names (R184). -/
def heldField (h : Shape) : Opd :=
  match h.ctl.hold with
  | .none => .none
  | .a => h.a
  | .b => h.b
  | .c => h.c

/-- The latch of a warp after an instruction of shape h on a path: entries of the path that serve lose a use, the held source
enters with two, written registers cancel every entry of them in the frame (R184 rules 1 to 3). -/
def latchAfter (f : Frame) (p : Path) (latch : List LatchEntry) (h : Shape) : List LatchEntry :=
  let served := latch.map fun e =>
    if e.ofPath p && (readFields h).any fun r => e.serves r.2 then { e with uses := e.uses - 1 } else e
  let live := served.filter fun e => e.uses ≠ 0
  let held := match heldField h with
    | .src r => put live ⟨p.lanes, p.frame, r.toNat, false, (List.range 32).map fun n => Opd.val f (.src r) n, 2⟩
    | .pair r => put live ⟨p.lanes, p.frame, r.toNat, true, (List.range 32).map fun n => Opd.val f (.pair r) n, 2⟩
    | _ => live
  held.filter fun e => !(e.frame = p.frame && (Opd.dests h.d).any fun r => e.regs.contains r)
where
  /-- Lists an entry last, in place of one of the path of the same register and width; a fourth evicts the oldest. -/
  put (l : List LatchEntry) (e : LatchEntry) : List LatchEntry :=
    let l := l.filter fun x => !(x.lanes = e.lanes && x.frame = e.frame && x.reg = e.reg && x.wide = e.wide)
    (if l.length = 3 then l.drop 1 else l) ++ [e]

/-! ## The checks of R191 -/

/-- Whether every register a field names lies below the frame's demand (R180). -/
def Opd.below (demand : Nat) (o : Opd) : Bool := o.regs.all (· < demand)

/-- Operand position of a field that breaks R180 or R327, if one does. -/
def badField (demand : Nat) (h : Shape) : Option Nat :=
  ([(1, h.d), (2, h.a), (3, h.b), (4, h.c), (5, h.x)].find? fun p => !p.2.aligned || !Opd.below demand p.2).map (·.1)

/-- The later operand position of a bank conflict, if there is one (R182, R183). -/
def bankConflict (latch : List LatchEntry) (h : Shape) : Option Nat :=
  let regs := (readFields h).flatMap fun p =>
    if latch.any fun e => e.serves p.2 then [] else (Opd.sources p.2).map fun r => (p.1, r)
  go [] regs
where
  /-- Scans members in field order. -/
  go (seen : List Nat) : List (Nat × Nat) → Option Nat
    | [] => none
    | (p, r) :: rest =>
      if seen.contains r then go seen rest
      else if seen.any fun q => q % 4 = r % 4 then some p
      else go (r :: seen) rest

/-- Operand position of a register that carries a pending mark where it must not (R187). -/
def unwaited (f : Frame) (lanes act : Lanes) (h : Shape) : Option Nat :=
  let marked (ls : Lanes) (rs : List Nat) : Bool := rs.any fun r => (laneList ls).any fun n => (f.mark? r n).isSome
  let src := [(2, h.a), (3, h.b), (4, h.c), (5, h.x)].find? fun p => marked act (Opd.sources p.2)
  match src with
  | some p => some p.1
  | none =>
    if marked act (Opd.dests h.d) then some 1
    else match h.ctl.guard with
      | some g => if marked lanes [g.reg.toNat] then some 6 else none
      | none => none

/-- Whether FS fits the clause (R185). -/
def fsFits (hdr : Header) (h : Shape) : Bool :=
  if h.lat = .l then (selectFlag hdr h.ctl.fs).isSome else !h.ctl.fs

/-- The checks of R191 in their order. -/
def checks (c : Issue) (h : Shape) (act : Lanes) : Option Fail :=
  let ill (p : Nat) : Option Fail := some { cause := .illegal, oppos := p, lanes := act }
  match badField c.f.demand h with
  | some p => ill p
  | none =>
    if h.ctl.guard.any fun g => c.f.demand ≤ g.reg.toNat then ill 6
    else if !h.holdOk || !fsFits c.hdr h then ill 0
    else if h.priv && !c.priv then some { cause := .priv, lanes := act }
    else match bankConflict c.latch h with
      | some p => some { cause := .bankConflict, oppos := p, lanes := act }
      | none =>
        match unwaited c.f c.p.lanes act h with
        | some p => some { cause := .unwaited, oppos := p, lanes := act }
        | none => none

/-! ## Issue -/

/-- What the instruction's own checks answer: it goes on, it faults, it stalls on a demand-zero page (R203), it leaves the
first use of an accumulator slot to firmware (R111), it waits. -/
inductive Chk where
  | ok
  | fail (f : Fail)
  | stall (page : Nat)
  | firstUse (slot : Nat)
  | wait
  deriving DecidableEq, Repr

/-- What becomes of the issuing path: it goes on but for the lanes moved, it stops in a state, its task has ended. -/
inductive Flow where
  | on (moved : Lanes) (ps : List Path)
  | stop (st : PathSt)
  | gone
  deriving DecidableEq, Repr

/-- Bytes of an instruction (R273). -/
def Instr.bytes (i : Instr) : Nat :=
  match i.enc with
  | some e => if e.len = 0 then 8 else if e.len = 1 then 12 else 16
  | none => 0

/-- The fault of the header that the path reaches by falling through after n bytes, where lanes stay (R191). -/
def Mach.fallThrough (m : Mach) (c : Issue) (n : Nat) (stay act : Lanes) : Option Fail :=
  if stay ≠ 0 && m.isLast c n then
    match m.headerAt c.core c.asid c.nextClause.toNat c.priv with
    | .ok _ => none
    | .error k => some { cause := k, lanes := act, addr := if k = .illegal then 0 else c.nextClause }
  else none

/-- A warp of a partition, or a shadow warp of it, uses an issue cycle of a core (R97, R98). -/
def Mach.spendCycle (m : Mach) (core part : Nat) : Mach :=
  m.updCore core fun k => { k with
    credit := k.credit.norm part (k.credit.getD part 0 - 1) 0
    used := k.used.put part (k.used.getD part 0 + 1)
    issuedAt := some m.clock }

/-- The issuing path has used its core's issue cycle, whether its instruction faults or not: the warp is the last to have issued
(R178), its partition's credit on the core is one lower and its issue cycles one more (R97, R98). -/
def Mach.tookCycle (m : Mach) (c : Issue) : Mach :=
  let m := m.updWarp c.tk c.w fun x => { x with lastIssue := m.serial }
  { m.spendCycle c.core ((m.launches.get? c.launch).map (·.part) |>.getD 0) with serial := m.serial + 1 }

/-- The issuing path has issued: its core's issue cycle is used, and the watchdog count returns to zero (R163). -/
def Mach.issued (m : Mach) (c : Issue) : Mach :=
  (m.updTask c.t fun k => { k with watch := 0, lastIssue := m.serial }).tookCycle c

/-- The latch of the issuing warp after an instruction of shape h (R184). -/
def Mach.latched (m : Mach) (c : Issue) (h : Shape) : Mach :=
  m.updTask c.t fun k => { k with latch := latchAfter c.f c.p k.latch h }

/-- Whether the flag an instruction counts on can take one more operation (R185). -/
def Mach.flagRoom (m : Mach) (c : Issue) (h : Shape) : Bool :=
  match selectFlag c.hdr h.ctl.fs, m.tasks.get? c.t with
  | some n, some k => (k.flag n).count < 63
  | _, _ => true

/-- An instruction as the issuing path issues it: the checks of R191, its own checks (none with no active lane), the
header check of a fall-through, its effect, the latch, and the path's way on. `stay` are the lanes that continue past it. -/
def Mach.issue (m : Mach) (i : Instr) (stay : Issue → Lanes → Lanes) (chk : Issue → Lanes → Chk)
    (eff : Issue → Lanes → Mach → Flow × Mach) : Mach :=
  match m.issuing with
  | none => m
  | some c =>
    let h := Instr.shape i
    let n := Instr.bytes i
    let act := activeLanes c.f c.p.lanes h.ctl.guard
    match checks c h act with
    | some f => ((m.tookCycle c).raise c f).settle c.tk c.w
    | none =>
      match if act = 0 then (if h.lat = .l && !m.flagRoom c h then .wait else .ok) else chk c act with
      | .fail f => ((m.tookCycle c).raise c f).settle c.tk c.w
      | .stall page => m.stallOn c.asid page
      | .firstUse k => m.updTeam c.tk fun t => { t with accWanted := (k, c.w) :: t.accWanted.filter fun e => e.1 ≠ k }
      | .wait => m
      | .ok =>
        match m.fallThrough c n (stay c act) act with
        | some f => ((m.tookCycle c).raise c f).settle c.tk c.w
        | none =>
          let m := (m.issued c).latched c h
          let m := match eff c act m with
            | (.on moved ps, m) => m.goOn c n moved ps
            | (.stop st, m) => m.stopPath c st
            | (.gone, m) => m
          m.settle c.tk c.w

/-- An instruction of which every lane of the path goes on; `eff` acts when some lane is active (R175). -/
def Mach.act (m : Mach) (i : Instr) (chk : Issue → Lanes → Chk) (eff : Issue → Lanes → Mach → Mach) : Mach :=
  m.issue i (fun c _ => c.p.lanes) chk fun c a m => (.on 0 [], if a = 0 then m else eff c a m)

/-- The lowest active lane's values of A, B, C and X (R328, R362). -/
structure Args where
  a : DWord
  b : DWord
  c : DWord
  x : DWord
  deriving DecidableEq, Repr

/-- The operand values of one lane. -/
def argsOf (f : Frame) (h : Shape) (lane : Nat) : Args :=
  ⟨Opd.val f h.a lane, Opd.val f h.b lane, Opd.val f h.c lane, Opd.val f h.x lane⟩

/-- A result of one lane: the words written from D up, and the FPSTAT bits (R246). -/
structure Res where
  ws : List Word
  fp : Word := 0
  deriving DecidableEq, Repr

/-- A 32-bit result. -/
def res32 (w : Word) : Res := ⟨[w], 0⟩
/-- A 64-bit result. -/
def res64 (v : DWord) : Res := ⟨[loWord v, hiWord v], 0⟩

/-- Writes results of lanes from register d up. -/
def Frame.writeRes (f : Frame) (d : Nat) (rs : List (Nat × Res)) : Frame :=
  rs.foldl (fun f r => r.2.ws.zipIdx.foldl (fun f w => f.setReg (d + w.2) r.1 w.1) f) f

/-- FPSTAT bits of results together. -/
def fpOf (rs : List (Nat × Res)) : Word := rs.foldl (fun a r => a ||| r.2.fp) 0

/-- A fixed-latency instruction whose results come from registers alone: `g` gives each active lane's result from the
active lanes and the operand values of every lane, all read before any is written (R10, R322). -/
def Mach.alu (m : Mach) (i : Instr) (g : Lanes → (Nat → Args) → Nat → Res) : Mach :=
  m.act i (fun _ _ => .ok) fun c a m =>
    let h := Instr.shape i
    let rs := (laneList a).map fun n => (n, g a (argsOf c.f h) n)
    (m.updFrame c.p.frame fun f => f.writeRes (Opd.base h.d) rs).orFpstat c.t (fpOf rs)

/-! ## Long-latency operations (R185) -/

/-- Puts an operation under way: its flag counts it, the registers it will write are marked (R185, R187). -/
def Mach.startOp (m : Mach) (c : Issue) (h : Shape) (a : Lanes) (counted : Bool) (k : OpKind) : Mach :=
  let flag := selectFlag c.hdr h.ctl.fs
  let op : Op := ⟨c.tk, c.w, c.t, c.p.frame, c.core, flag, a, c.p.pc, counted, none, false, false, false, 0, k⟩
  let m := { m with ops := m.ops.put m.serial op, serial := m.serial + 1 }
  let m := match flag with
    | some n =>
      (m.updTask c.t fun t => t.flagUp n).updFrame c.p.frame fun f => f.markRegs (Opd.dests h.d) (laneList a) n
    | none => m
  if counted then m.updWarp c.tk c.w fun x => { x with unacked := x.unacked + 1 } else m

/-- A long-latency instruction: its checks, then an operation under way (R185); with no active lane it completes at once
(R175). -/
def Mach.long (m : Mach) (i : Instr) (counted : Bool) (chk : Issue → Lanes → Chk)
    (kind : Issue → Lanes → Mach → OpKind × Mach) : Mach :=
  m.act i (fun c a => match chk c a with
      | .ok => if m.flagRoom c (Instr.shape i) then .ok else .wait
      | r => r)
    fun c a m =>
      let (k, m) := kind c a m
      m.startOp c (Instr.shape i) a counted k

/-- A long-latency instruction whose results come from registers alone. -/
def Mach.longAlu (m : Mach) (i : Instr) (g : Args → Res) : Mach :=
  m.long i false (fun _ _ => .ok) fun c a m =>
    let h := Instr.shape i
    let rs := (laneList a).map fun n => (n, g (argsOf c.f h n))
    (.writes (rs.flatMap fun r => r.2.ws.zipIdx.map fun w => (Opd.base h.d + w.2, r.1, w.1)) (fpOf rs), m)

/-- The flag of an operation counts down, with the deferred faults it leaves (R185, R250); its warp is settled. -/
def Mach.dropFlag (m : Mach) (n : Nat) (o : Op) (faults : List FaultRec) : Mach :=
  let m := match o.flag with
    | some fl => if o.gone then m else m.updTask o.task fun t => t.flagDown fl (faults.map fun r => (n, r))
    | none => m
  match (m.tasks.get? o.task).map (·.st) with
  | some (TaskSt.running w) | some (TaskSt.ended w) => m.settle o.team w
  | _ => m

/-- An operation completes: its flag counts down with the deferred faults it leaves, the unacknowledged-store counter
counts it no more (R185, R205, R250); frames it kept are freed (R181), its warp is settled. -/
def Mach.finishOp (m : Mach) (n : Nat) (faults : List FaultRec) : Mach :=
  match m.ops.get? n with
  | none => m
  | some o =>
    let m := { m with ops := m.ops.del n, heldMsgs := m.heldMsgs.filter fun h => h.n ≠ n }
    let m := if o.counted && !o.gone then m.updWarp o.team o.warp fun x => { x with unacked := x.unacked - 1 } else m
    ((m.freeFrames o.task).dropFlag n o faults).sendDue

/-- Writes registers of the frame an operation's results go to, unless they are discarded (R181); the shadow warp takes them from
the load-value queue (R156). -/
def Mach.landRegs (m : Mach) (o : Op) (ws : List (Nat × Nat × Word)) : Mach :=
  if o.dead then m else m.updFrame o.frame fun f => ws.foldl (fun f w => f.setBoth w.1 w.2.1 w.2.2) f

/-- The scope that the faults of a scoped operation name (R253). -/
def OpKind.scope : OpKind → Option Scope
  | .load k => k.scope
  | .atomic k => k.scope
  | .tile k => k.scope
  | .engine k => some k.scope
  | .stage k => some k.scope
  | .coll k => some k.scope
  | _ => none

/-- The record of a deferred fault of an operation (R250, R253): PC is set at the wait. -/
def Op.record (o : Op) (m : Mach) (cause : Cause) (oppos : Nat) (lanes : Lanes) (addr detail : DWord) : FaultRec :=
  let (l, ix) := match m.team? o.team with
    | some t => (t.launch, t.ix)
    | none => (0, 0)
  ⟨cause.code, oppos, o.kind.scope.isSome, (o.kind.scope.map Scope.code).getD 0, true, false, false, lanes, 0, addr, o.pc, l, ix, o.warp,
    ((m.frames.get? o.frame).map (·.depth)).getD 0, detail⟩

end Sys2Proof.Machine
end

