-- ==== Sys2Proof/Machine/Integer.lean ====
section
/-! DEFINITION. Integer and address arithmetic (R312-R314). -/

namespace Sys2Proof.Machine

/-- The outcome of a meaning that changes the machine alone. -/
abbrev Out := Host.Outcome State Fault Refusal

/-- A meaning that acts on the machine alone. -/
def State.on (s : State) (f : Mach → Mach) : Out := .next { s with m := f s.m }

/-! ## Integer values (R312) -/

/-- Bits of an integer type. -/
def tyWidth (t : Ty) : Nat :=
  match t with
  | .i8 | .n8 | .e4m3 | .e5m2 | .ds8 => 8
  | .sp4 => 4
  | .i16 | .n16 | .f16 | .bf16 => 16
  | .i64 | .n64 => 64
  | _ => 32

/-- Whether a type is two's complement. -/
def tySigned (t : Ty) : Bool := t matches .i8 | .i16 | .i32 | .i64

/-- The integer with the low n bits of v, signed or not. -/
def extBits (n : Nat) (signed : Bool) (v : Nat) : Int :=
  let u := v % 2 ^ n
  if signed && 2 ^ (n - 1) ≤ u then (u : Int) - 2 ^ n else u

/-- ext(F, T) of R312. -/
def extT (t : Ty) (v : DWord) : Int := extBits (tyWidth t) (tySigned t) v.toNat

/-- Least value of a type. -/
def minT (t : Ty) : Int := if tySigned t then -(2 ^ (tyWidth t - 1)) else 0

/-- Greatest value of a type. -/
def maxT (t : Ty) : Int := if tySigned t then 2 ^ (tyWidth t - 1) - 1 else 2 ^ tyWidth t - 1

/-- x modulo 2^w(T), as a value of the type. -/
def wrapT (t : Ty) (x : Int) : Int := extBits (tyWidth t) (tySigned t) (x % 2 ^ tyWidth t).toNat

/-- The result x of type t: wrapped, or clamped with FPSTAT.SAT under `.sat`; a narrow result fills its register under
R176 (R312). -/
def intRes (t : Ty) (sat : Bool) (x : Int) : Res :=
  let out := x < minT t || maxT t < x
  let y := if sat && out then (if x < minT t then minT t else maxT t) else wrapT t x
  { (if tyWidth t = 64 then res64 (.ofInt 64 y) else res32 (.ofInt 32 y)) with
    fp := Fp.word { sat := sat && out } }

/-- An integer instruction whose result is a function of a, b and c, each of type t (R312). -/
def intOp (i : Instr) (t : Ty) (sat : Bool) (g : Int → Int → Int → Int) (s : State) : Out :=
  s.on fun m => m.alu i fun _ v n => intRes t sat (g (extT t (v n).a) (extT t (v n).b) (extT t (v n).c))

/-- An instruction whose 32-bit result is a function of the operand words. -/
def wordOp (i : Instr) (g : Args → Word) (s : State) : Out := s.on fun m => m.alu i fun _ v n => res32 (g (v n))

/-- An instruction whose 64-bit result is a function of the operand words. -/
def pairOp (i : Instr) (g : Args → DWord) (s : State) : Out := s.on fun m => m.alu i fun _ v n => res64 (g (v n))

/-- `iadd`: a + b (R313). -/
def execIadd (c : Ctl) (t : Ty) (sat : Bool) (d a b : Reg) (s : State) : Out :=
  intOp (.iadd c t sat d a b) t sat (fun x y _ => x + y) s

/-- `isub`: a − b (R313). -/
def execIsub (c : Ctl) (t : Ty) (sat : Bool) (d a b : Reg) (s : State) : Out :=
  intOp (.isub c t sat d a b) t sat (fun x y _ => x - y) s

/-- `imul`: a × b (R313). -/
def execImul (c : Ctl) (t : Ty) (sat : Bool) (d a b : Reg) (s : State) : Out :=
  intOp (.imul c t sat d a b) t sat (fun x y _ => x * y) s

/-- `imulhi`: floor(a × b / 2^32) (R313). -/
def execImulhi (c : Ctl) (t : Ty) (d a b : Reg) (s : State) : Out :=
  intOp (.imulhi c t d a b) t false (fun x y _ => (x * y).fdiv (2 ^ 32)) s

/-- `imad`: a × b + c (R313). -/
def execImad (c : Ctl) (t : Ty) (sat : Bool) (d a b e : Reg) (s : State) : Out :=
  intOp (.imad c t sat d a b e) t sat (fun x y z => x * y + z) s

/-- `ineg`: −a (R313). -/
def execIneg (c : Ctl) (sat : Bool) (d a : Reg) (s : State) : Out :=
  intOp (.ineg c sat d a) .i32 sat (fun x _ _ => -x) s

/-- `iabs`: |a| (R313). -/
def execIabs (c : Ctl) (sat : Bool) (d a : Reg) (s : State) : Out :=
  intOp (.iabs c sat d a) .i32 sat (fun x _ _ => if x < 0 then -x else x) s

/-- `imin`: min(a, b) (R313). -/
def execImin (c : Ctl) (t : Ty) (d a b : Reg) (s : State) : Out :=
  intOp (.imin c t d a b) t false (fun x y _ => if x ≤ y then x else y) s

/-- `imax`: max(a, b) (R313). -/
def execImax (c : Ctl) (t : Ty) (d a b : Reg) (s : State) : Out :=
  intOp (.imax c t d a b) t false (fun x y _ => if x ≤ y then y else x) s

/-- `iadd.w`: a + b on pairs (R313). -/
def execIaddW (c : Ctl) (t : Ty) (sat : Bool) (d a b : Reg) (s : State) : Out :=
  intOp (.iaddW c t sat d a b) t sat (fun x y _ => x + y) s

/-- `isub.w`: a − b on pairs (R313). -/
def execIsubW (c : Ctl) (t : Ty) (sat : Bool) (d a b : Reg) (s : State) : Out :=
  intOp (.isubW c t sat d a b) t sat (fun x y _ => x - y) s

/-- `imul.w`: a × b of 32-bit operands, written as 64 bits (R313). -/
def execImulW (c : Ctl) (t : Ty) (d a b : Reg) (s : State) : Out :=
  pairOp (.imulW c t d a b) (fun v => .ofInt 64 (extT t v.a * extT t v.b)) s

/-- `imad.w`: a × b + c, modulo 2^64, c a pair (R313). -/
def execImadW (c : Ctl) (t : Ty) (d a b e : Reg) (s : State) : Out :=
  pairOp (.imadW c t d a b e) (fun v => .ofInt 64 (extT t v.a * extT t v.b) + v.c) s

/-- `lea`: a + b × 2^sh + IMM24, modulo 2^64 (R313). -/
def execLea (c : Ctl) (t : Ty) (sh : BitVec 3) (d a b : Reg) (imm : BitVec 24) (s : State) : Out :=
  pairOp (.lea c t sh d a b imm) (fun v => v.a + .ofInt 64 (extT t v.b * 2 ^ sh.toNat) + .ofInt 64 imm.toInt) s

/-- `mov` (R313). -/
def execMov (c : Ctl) (d a : Reg) (s : State) : Out := wordOp (.mov c d a) (fun v => loWord v.a) s

/-- `mov.w` (R313). -/
def execMovW (c : Ctl) (d a : Reg) (s : State) : Out := pairOp (.movW c d a) (fun v => v.a) s

/-- `movi`: IMM24 sign-extended (R313). -/
def execMovi (c : Ctl) (d : Reg) (imm : BitVec 24) (s : State) : Out :=
  wordOp (.movi c d imm) (fun _ => .ofInt 32 imm.toInt) s

/-- `movi.l`: IMM32, sign-extended for `.i64` and zero-extended for `.n64` (R313). -/
def execMoviL (c : Ctl) (t : Ty) (d : Reg) (imm : BitVec 32) (s : State) : Out :=
  s.on fun m => m.alu (.moviL c t d imm) fun _ _ _ =>
    match t with
    | .i64 => res64 (.ofInt 64 imm.toInt)
    | .n64 => res64 (.ofNat 64 imm.toNat)
    | _ => res32 imm

/-- `iaddi`: a + IMM24 (R313). -/
def execIaddi (c : Ctl) (t : Ty) (sat : Bool) (d a : Reg) (imm : BitVec 24) (s : State) : Out :=
  intOp (.iaddi c t sat d a imm) t sat (fun x _ _ => x + imm.toInt) s

/-- `sad`: |a − b| + c, modulo 2^32 (R313). -/
def execSad (c : Ctl) (t : Ty) (d a b e : Reg) (s : State) : Out :=
  intOp (.sad c t d a b e) t false (fun x y z => (if x < y then y - x else x - y) + z) s

/-- The quotient of R314 with its corner inputs. -/
def idivRes (t : Ty) (sat : Bool) (a b : DWord) : Res :=
  let x := extT t a
  let y := extT t b
  if y = 0 then res32 0xFFFFFFFF
  else intRes t sat (x.tdiv y)

/-- The remainder of R314 with its corner inputs. -/
def iremRes (t : Ty) (a b : DWord) : Res :=
  let x := extT t a
  let y := extT t b
  if y = 0 then intRes t false x else intRes t false (x.tmod y)

/-- `idiv`: the quotient, truncated towards zero (R314). -/
def execIdiv (c : Ctl) (t : Ty) (sat : Bool) (d a b : Reg) (s : State) : Out :=
  s.on fun m => m.longAlu (.idiv c t sat d a b) fun v => idivRes t sat v.a v.b

/-- `irem`: the remainder, with the sign of a (R314). -/
def execIrem (c : Ctl) (t : Ty) (d a b : Reg) (s : State) : Out :=
  s.on fun m => m.longAlu (.irem c t d a b) fun v => iremRes t v.a v.b

end Sys2Proof.Machine
end

