-- ==== Sys2Proof/Machine/Logic.lean ====
section
/-! DEFINITION. Logic, shifts, bit fields, compares and select (R315-R321). -/

namespace Sys2Proof.Machine

/-- `and` (R315). -/
def execAnd (c : Ctl) (d a b : Reg) (s : State) : Out := wordOp (.and c d a b) (fun v => loWord v.a &&& loWord v.b) s

/-- `or` (R315). -/
def execOr (c : Ctl) (d a b : Reg) (s : State) : Out := wordOp (.or c d a b) (fun v => loWord v.a ||| loWord v.b) s

/-- `xor` (R315). -/
def execXor (c : Ctl) (d a b : Reg) (s : State) : Out := wordOp (.xor c d a b) (fun v => loWord v.a ^^^ loWord v.b) s

/-- `not` (R315). -/
def execNot (c : Ctl) (d a : Reg) (s : State) : Out := wordOp (.not c d a) (fun v => ~~~loWord v.a) s

/-- FN of `lmix`, in every bit position (R318). -/
def mix (fn : LFn) (a b c : Word) : Word :=
  match fn with
  | .andor => (a &&& b) ||| c
  | .orand => (a ||| b) &&& c
  | .xor3 => a ^^^ b ^^^ c
  | .maj => (a &&& b) ||| (a &&& c) ||| (b &&& c)
  | .mux => (a &&& c) ||| (b &&& ~~~c)
  | .andxor => (a &&& b) ^^^ c
  | .orxor => (a ||| b) ^^^ c
  | .xorand => (a ^^^ b) &&& c

/-- The complement of w where the inversion bit is set. -/
def invIf (b : Bool) (w : Word) : Word := if b then ~~~w else w

/-- `lmix` (R318). -/
def execLmix (c : Ctl) (fn : LFn) (inv : LInv) (d a b e : Reg) (s : State) : Out :=
  wordOp (.lmix c fn inv d a b e)
    (fun v => invIf inv.d (mix fn (invIf inv.a (loWord v.a)) (invIf inv.b (loWord v.b)) (invIf inv.c (loWord v.c)))) s

/-- The count of a shift: the register's unsigned 32 bits, or the immediate (R315). -/
def countVal {w : Nat} (k : Count w) (b : DWord) : Nat :=
  match k with
  | .reg _ => b.toNat % 2 ^ 32
  | .imm n => n.toNat

/-- Left shift of n bits: (a × 2^k) mod 2^n (R316). -/
def shlNat (n a k : Nat) : Nat := if n ≤ k then 0 else a * 2 ^ k % 2 ^ n

/-- Logical right shift: floor(a / 2^k) (R316). -/
def shrNat (n a k : Nat) : Nat := if n ≤ k then 0 else a / 2 ^ k

/-- Arithmetic right shift: floor(a / 2^k), a signed (R316). -/
def sarInt (n : Nat) (a : Int) (k : Nat) : Int := if n ≤ k then (if a < 0 then -1 else 0) else a.fdiv (2 ^ k)

/-- `shl` (R316). -/
def execShl (c : Ctl) (d a : Reg) (k : Count 5) (s : State) : Out :=
  wordOp (.shl c d a k) (fun v => .ofNat 32 (shlNat 32 (loWord v.a).toNat (countVal k v.b))) s

/-- `shr` (R316). -/
def execShr (c : Ctl) (d a : Reg) (k : Count 5) (s : State) : Out :=
  wordOp (.shr c d a k) (fun v => .ofNat 32 (shrNat 32 (loWord v.a).toNat (countVal k v.b))) s

/-- `sar` (R316). -/
def execSar (c : Ctl) (d a : Reg) (k : Count 5) (s : State) : Out :=
  wordOp (.sar c d a k) (fun v => .ofInt 32 (sarInt 32 (loWord v.a).toInt (countVal k v.b))) s

/-- `rot`: A rotated left by count mod 32 (R315). -/
def execRot (c : Ctl) (d a : Reg) (k : Count 5) (s : State) : Out :=
  wordOp (.rot c d a k) (fun v => (loWord v.a).rotateLeft (countVal k v.b % 32)) s

/-- `shl.w` (R316). -/
def execShlW (c : Ctl) (d a : Reg) (k : Count 6) (s : State) : Out :=
  pairOp (.shlW c d a k) (fun v => .ofNat 64 (shlNat 64 v.a.toNat (countVal k v.b))) s

/-- `shr.w`: arithmetic for `.i64`, logical for `.n64` (R316). -/
def execShrW (c : Ctl) (t : Ty) (d a : Reg) (k : Count 6) (s : State) : Out :=
  pairOp (.shrW c t d a k)
    (fun v => if t = .i64 then .ofInt 64 (sarInt 64 v.a.toInt (countVal k v.b))
      else .ofNat 64 (shrNat 64 v.a.toNat (countVal k v.b))) s

/-- The field `bfe` takes (R317). -/
def bfeVal (t : Ty) (a pos len : Nat) : Int :=
  if len = 0 then 0 else extBits len (t = .i32) (a / 2 ^ pos)

/-- `bfe` (R317). -/
def execBfe (c : Ctl) (t : Ty) (d a : Reg) (pos : BitVec 5) (len : BitVec 6) (s : State) : Out :=
  wordOp (.bfe c t d a pos len) (fun v => .ofInt 32 (bfeVal t (loWord v.a).toNat pos.toNat len.toNat)) s

/-- `bfi`: A with a field replaced by the low bits of B (R317). -/
def execBfi (c : Ctl) (d a b : Reg) (pos : BitVec 5) (len : BitVec 6) (s : State) : Out :=
  wordOp (.bfi c d a b pos len)
    (fun v =>
      let mask : Word := .ofNat 32 ((2 ^ len.toNat - 1) * 2 ^ pos.toNat)
      (loWord v.a &&& ~~~mask) ||| ((loWord v.b <<< pos.toNat) &&& mask)) s

/-- `popc`: the number of 1 bits (R315). -/
def execPopc (c : Ctl) (d a : Reg) (s : State) : Out :=
  wordOp (.popc c d a) (fun v => .ofNat 32 (laneList (loWord v.a)).length) s

/-- `clz`: leading zero bits, 32 for zero (R315). -/
def execClz (c : Ctl) (d a : Reg) (s : State) : Out :=
  wordOp (.clz c d a)
    (fun v => .ofNat 32 (match (laneList (loWord v.a)).getLast? with
      | some n => 31 - n
      | none => 32)) s

/-- `brev`: bit i is bit 31 − i of a (R315). -/
def execBrev (c : Ctl) (d a : Reg) (s : State) : Out :=
  wordOp (.brev c d a) (fun v => laneSet ((laneList (loWord v.a)).map fun n => 31 - n)) s

/-- An integer condition (R319). -/
def icondHolds (k : ICond) (a b : Int) : Bool :=
  match k with
  | .eq => a = b
  | .ne => a ≠ b
  | .lt => a < b
  | .le => a ≤ b
  | .gt => b < a
  | .ge => b ≤ a

/-- 1 where a condition holds, else 0. -/
def boolWord (b : Bool) : Word := if b then 1 else 0

/-- `icmp` (R319). -/
def execIcmp (c : Ctl) (t : Ty) (cond : ICond) (d a b : Reg) (s : State) : Out :=
  wordOp (.icmp c t cond d a b) (fun v => boolWord (icondHolds cond (extT t v.a) (extT t v.b))) s

/-- `icmp.w` (R319). -/
def execIcmpW (c : Ctl) (t : Ty) (cond : ICond) (d a b : Reg) (s : State) : Out :=
  wordOp (.icmpW c t cond d a b) (fun v => boolWord (icondHolds cond (extT t v.a) (extT t v.b))) s

/-- `sel`: A where bit 0 of C is 1, else B; pairs for `.n64` (R321). -/
def execSel (c : Ctl) (t : Ty) (d a b e : Reg) (s : State) : Out :=
  s.on fun m => m.alu (.sel c t d a b e) fun _ v n =>
    let x := if (v n).c.getLsbD 0 then (v n).a else (v n).b
    if t = .n64 then res64 x else res32 (loWord x)

end Sys2Proof.Machine
end

