-- ==== Sys2Proof/Machine/Float.lean ====
section
/-! DEFINITION. Floating-point values as exact dyadic numbers, their formats (R228-R233), rounding (R237-R240), and the
arithmetic of one result: sums, products, quotients, roots, minimum and maximum (R229, R242). -/

namespace Sys2Proof.Machine

/-! ## Formats -/

/-- A binary floating-point format: exponent bits, fraction bits, bias, and whether it is E4M3, which has no infinity
(R228, R230). -/
structure Fmt where
  eb : Nat
  fb : Nat
  bias : Nat
  e4m3 : Bool
  deriving DecidableEq, Repr

/-- FP32 (R228). -/
def f32 : Fmt := ⟨8, 23, 127, false⟩
/-- FP16 (R228). -/
def f16 : Fmt := ⟨5, 10, 15, false⟩
/-- BF16 (R228). -/
def bf16 : Fmt := ⟨8, 7, 127, false⟩
/-- E4M3 (R230). -/
def e4m3 : Fmt := ⟨4, 3, 7, true⟩
/-- E5M2 (R230). -/
def e5m2 : Fmt := ⟨5, 2, 15, false⟩

/-- The format of a floating type. -/
def fmtOf (t : Ty) : Fmt :=
  match t with
  | .f16 => f16
  | .bf16 => bf16
  | .e4m3 => e4m3
  | .e5m2 => e5m2
  | _ => f32

/-- A value: NaN (signalling or not), an infinity, or (−1)^neg × m × 2^e. A zero keeps its sign. -/
inductive Num where
  | nan (sig : Bool)
  | inf (neg : Bool)
  | fin (neg : Bool) (m : Nat) (e : Int)
  deriving DecidableEq, Repr

/-- Width of a format in bits. -/
def Fmt.width (f : Fmt) : Nat := 1 + f.eb + f.fb

/-- The canonical NaN (R228, R230). -/
def Fmt.nan (f : Fmt) : Nat :=
  if f.e4m3 then 0x7F else (2 ^ f.eb - 1) * 2 ^ f.fb + 2 ^ (f.fb - 1)

/-- The infinity of a sign. -/
def Fmt.inf (f : Fmt) (neg : Bool) : Nat := neg.toNat * 2 ^ (f.eb + f.fb) + (2 ^ f.eb - 1) * 2 ^ f.fb

/-- The largest finite value of a sign (R228, R230). -/
def Fmt.max (f : Fmt) (neg : Bool) : Nat :=
  neg.toNat * 2 ^ (f.eb + f.fb) + (if f.e4m3 then 0x7E else (2 ^ f.eb - 1) * 2 ^ f.fb - 1)

/-- The zero of a sign. -/
def Fmt.zero (f : Fmt) (neg : Bool) : Nat := neg.toNat * 2 ^ (f.eb + f.fb)

/-- The value of an encoding (R228, R230). -/
def Fmt.num (f : Fmt) (v : Nat) : Num :=
  let frac := v % 2 ^ f.fb
  let ex := v / 2 ^ f.fb % 2 ^ f.eb
  let neg := bit v (f.eb + f.fb)
  if f.e4m3 && ex = 15 && frac = 7 then .nan false
  else if !f.e4m3 && ex = 2 ^ f.eb - 1 then (if frac = 0 then .inf neg else .nan (!bit v (f.fb - 1)))
  else if ex = 0 then .fin neg frac (1 - (f.bias : Int) - f.fb)
  else .fin neg (frac + 2 ^ f.fb) ((ex : Int) - f.bias - f.fb)

/-- A rounded result with its conditions. -/
structure FRes where
  bits : Nat
  fp : Fp := {}
  deriving DecidableEq, Repr

/-! ## Rounding (R237) -/

/-- m × 2^e, a little more where sticky, as a multiple of 2^q under a mode: the multiple, and whether it is inexact. -/
def roundAt (rnd : Rnd) (neg : Bool) (m : Nat) (e : Int) (sticky : Bool) (q : Int) : Nat × Bool :=
  if q ≤ e then (m * 2 ^ (e - q).toNat + (if sticky && ((rnd = .rp && !neg) || (rnd = .rm && neg)) then 1 else 0), sticky)
  else
    let k := (q - e).toNat
    let s := m / 2 ^ k
    let rem := m % 2 ^ k
    let half := 2 ^ (k - 1)
    let inexact := rem ≠ 0 || sticky
    let up := match rnd with
      | .rne => half < rem || (rem = half && (sticky || s % 2 = 1))
      | .rz => false
      | .rp => inexact && !neg
      | .rm => inexact && neg
    (s + up.toNat, inexact)

/-- An overflowed result (R237, R238). -/
def Fmt.overflow (f : Fmt) (rnd : Rnd) (sat neg : Bool) : FRes :=
  if sat then ⟨f.max neg, { sat := true, nx := true }⟩
  else
    let toMax := rnd = .rz || (rnd = .rm && !neg) || (rnd = .rp && neg)
    ⟨if toMax then f.max neg else if f.e4m3 then f.nan else f.inf neg, { of := true, nx := true }⟩

/-- Rounds (−1)^neg × m × 2^e, a little more in magnitude where sticky, to a format (R237, R238). -/
def Fmt.round (f : Fmt) (rnd : Rnd) (sat neg : Bool) (m : Nat) (e : Int) (sticky : Bool) : FRes :=
  if m = 0 && !sticky then ⟨f.zero neg, {}⟩
  else
    let emin : Int := 1 - (f.bias : Int)
    let l : Int := (Nat.log2 m : Int) + e
    let qn := l - f.fb
    let q := if qn < emin - f.fb then emin - f.fb else qn
    let (s, inexact) := roundAt rnd neg m e sticky q
    -- a carry out of the top leaves a power of two
    let (s, q) := if s = 2 ^ (f.fb + 1) then (2 ^ f.fb, q + 1) else (s, q)
    let ex := if s < 2 ^ f.fb then 0 else (q + f.fb + f.bias).toNat
    let mag := if s < 2 ^ f.fb then s else ex * 2 ^ f.fb + (s - 2 ^ f.fb)
    let top := if f.e4m3 then 0x7E else (2 ^ f.eb - 1) * 2 ^ f.fb - 1
    if top < mag then f.overflow rnd sat neg
    else
      -- tiny after rounding with an unbounded exponent (R237)
      let u := roundAt rnd neg m e sticky qn
      let tiny := l < emin && !(u.1 = 2 ^ (f.fb + 1) && l + 1 = emin)
      ⟨f.zero neg + mag, { nx := inexact, uf := inexact && tiny }⟩

/-- A NaN result (R229): IV where a signalling NaN was consumed or the operation is invalid. -/
def Fmt.nanRes (f : Fmt) (iv : Bool) : FRes := ⟨f.nan, { iv := iv }⟩

/-- A value rounded to a format: the result of a conversion (R237-R239). -/
def Fmt.ofNum (f : Fmt) (rnd : Rnd) (sat : Bool) (x : Num) : FRes :=
  match x with
  | .nan s => f.nanRes s
  | .inf neg =>
    if sat then ⟨f.max neg, { sat := true, nx := true }⟩
    else if f.e4m3 then ⟨f.nan, { iv := true }⟩
    else ⟨f.inf neg, {}⟩
  | .fin neg m e => f.round rnd sat neg m e false

/-! ## Arithmetic of one result -/

/-- Whether a value is a signalling NaN. -/
def Num.isSig : Num → Bool
  | .nan s => s
  | _ => false

/-- Whether a value is a NaN. -/
def Num.isNan : Num → Bool
  | .nan _ => true
  | _ => false

/-- The negation of a value. -/
def Num.neg : Num → Num
  | .nan s => .nan s
  | .inf n => .inf (!n)
  | .fin n m e => .fin (!n) m e

/-- A signed significand. -/
def signed (neg : Bool) (m : Nat) : Int := if neg then -(m : Int) else m

/-- The exact sum of two finite values as a significand and an exponent. -/
def addDy (a : Int) (ea : Int) (b : Int) (eb : Int) : Int × Int :=
  let e := if ea ≤ eb then ea else eb
  (a * 2 ^ (ea - e).toNat + b * 2 ^ (eb - e).toNat, e)

/-- x + y (R229): ∞ − ∞ is invalid; an exact zero of opposite signs is +0, −0 under `.rm`. -/
def Fmt.add (f : Fmt) (rnd : Rnd) (x y : Num) : FRes :=
  match x, y with
  | .nan s, y => f.nanRes (s || y.isSig)
  | x, .nan s => f.nanRes (s || x.isSig)
  | .inf a, .inf b => if a = b then ⟨f.inf a, {}⟩ else f.nanRes true
  | .inf a, _ => ⟨f.inf a, {}⟩
  | _, .inf b => ⟨f.inf b, {}⟩
  | .fin na ma ea, .fin nb mb eb =>
    let (s, e) := addDy (signed na ma) ea (signed nb mb) eb
    if s = 0 then ⟨f.zero (if na = nb then na else rnd = .rm), {}⟩
    else f.round rnd false (s < 0) s.natAbs e false

/-- The exact product; ∞ × 0 is none. -/
def Num.mul (x y : Num) : Option Num :=
  match x, y with
  | .nan s, y => some (.nan (s || y.isSig))
  | x, .nan s => some (.nan (s || x.isSig))
  | .inf a, .inf b => some (.inf (a != b))
  | .inf a, .fin b m _ => if m = 0 then none else some (.inf (a != b))
  | .fin a m _, .inf b => if m = 0 then none else some (.inf (a != b))
  | .fin a m e, .fin b n g => some (.fin (a != b) (m * n) (e + g))

/-- x × y (R229). -/
def Fmt.mul (f : Fmt) (rnd : Rnd) (x y : Num) : FRes :=
  match x.mul y with
  | none => f.nanRes true
  | some p => f.ofNum rnd false p

/-- x × y + z with one rounding (R383); ∞ × 0 is invalid whatever z is (DEDUCED from R246, log entry 10). -/
def Fmt.fma (f : Fmt) (rnd : Rnd) (x y z : Num) : FRes :=
  match x.mul y with
  | none => f.nanRes true
  | some p => f.add rnd p z

/-- x / y under IEEE 754 (R386). -/
def Fmt.div (f : Fmt) (rnd : Rnd) (x y : Num) : FRes :=
  match x, y with
  | .nan s, y => f.nanRes (s || y.isSig)
  | x, .nan s => f.nanRes (s || x.isSig)
  | .inf _, .inf _ => f.nanRes true
  | .inf a, .fin b _ _ => ⟨f.inf (a != b), {}⟩
  | .fin a _ _, .inf b => ⟨f.zero (a != b), {}⟩
  | .fin a m e, .fin b n g =>
    if n = 0 then (if m = 0 then f.nanRes true else ⟨f.inf (a != b), { dz := true }⟩)
    else if m = 0 then ⟨f.zero (a != b), {}⟩
    else
      let k := 40 + Nat.log2 n
      let num := m * 2 ^ k
      f.round rnd false (a != b) (num / n) (e - g - k) (num % n ≠ 0)

/-- The integer square root below 2^n, digit by digit. -/
def isqrt (v : Nat) : Nat → Nat → Nat
  | 0, r => r
  | n + 1, r => if (r + 2 ^ n) * (r + 2 ^ n) ≤ v then isqrt v n (r + 2 ^ n) else isqrt v n r

/-- m × 2^e as a significand with an even exponent. -/
def evenDy (m : Nat) (e : Int) : Nat × Int := if e % 2 = 0 then (m, e) else (m * 2, e - 1)

/-- √x (R386). -/
def Fmt.sqrt (f : Fmt) (rnd : Rnd) (x : Num) : FRes :=
  match x with
  | .nan s => f.nanRes s
  | .inf false => ⟨f.inf false, {}⟩
  | .inf true => f.nanRes true
  | .fin neg m e =>
    if m = 0 then ⟨f.zero neg, {}⟩
    else if neg then f.nanRes true
    else
      let (m, e) := evenDy m e
      let v := m * 2 ^ 64
      let r := isqrt v 50 0
      f.round rnd false false r (e / 2 - 32) (r * r ≠ v)

/-- 1 / √x (R386). -/
def Fmt.rsqrt (f : Fmt) (rnd : Rnd) (x : Num) : FRes :=
  match x with
  | .nan s => f.nanRes s
  | .inf false => ⟨f.zero false, {}⟩
  | .inf true => f.nanRes true
  | .fin neg m e =>
    if m = 0 then ⟨f.inf neg, { dz := true }⟩
    else if neg then f.nanRes true
    else
      let (m, e) := evenDy m e
      let v := 2 ^ 128 / m
      let r := isqrt v 65 0
      f.round rnd false false r (-(e / 2) - 64) (r * r * m ≠ 2 ^ 128)

/-- 1 / x (R386). -/
def Fmt.rcp (f : Fmt) (rnd : Rnd) (x : Num) : FRes := f.div rnd (.fin false 1 0) x

/-! ## Order and minimum (R242, R320) -/

/-- Whether finite x < y by value. -/
def ltFin (na : Bool) (ma : Nat) (ea : Int) (nb : Bool) (mb : Nat) (eb : Int) : Bool :=
  (addDy (signed na ma) ea (-(signed nb mb)) eb).1 < 0

/-- Whether x < y, neither a NaN. -/
def Num.lt (x y : Num) : Bool :=
  match x, y with
  | .inf a, .inf b => a && !b
  | .inf a, .fin .. => a
  | .fin .., .inf b => !b
  | .fin a m e, .fin b n g => ltFin a m e b n g
  | _, _ => false

/-- Whether x = y by value, −0 equal to +0, neither a NaN. -/
def Num.eqv (x y : Num) : Bool := !x.isNan && !y.isNan && !x.lt y && !y.lt x

/-- Sign of a value. -/
def Num.isNeg : Num → Bool
  | .nan _ => false
  | .inf n => n
  | .fin n _ _ => n

/-- Whether x orders before y in R242: by value, −0 below +0. -/
def Num.before (x y : Num) : Bool := x.lt y || (x.eqv y && x.isNeg && !y.isNeg)

/-- Minimum or maximum of two encodings (R242): the chosen operand's bits. -/
def Fmt.minmax (f : Fmt) (max : Bool) (a b : Nat) : FRes :=
  let x := f.num a
  let y := f.num b
  let iv : Fp := { iv := x.isSig || y.isSig }
  match x.isNan, y.isNan with
  | true, true => ⟨f.nan, iv⟩
  | true, false => ⟨b, iv⟩
  | false, true => ⟨a, iv⟩
  | false, false =>
    let yFirst := if max then x.before y else y.before x
    ⟨if yFirst then b else a, iv⟩

/-- A floating-point condition and whether it sets IV (R320). -/
def fcondRes (k : FCond) (x y : Num) : Bool × Bool :=
  let nan := x.isNan || y.isNan
  let sig := x.isSig || y.isSig
  let ordered := k matches .lt | .le | .gt | .ge
  let r := match k with
    | .eq => !nan && x.eqv y
    | .ne => nan || !x.eqv y
    | .lt => !nan && x.lt y
    | .le => !nan && !y.lt x
    | .gt => !nan && y.lt x
    | .ge => !nan && !x.lt y
    | .un => nan
    | .ord => !nan
  (r, sig || (nan && ordered))

/-! ## Integral values, scaling (R385) -/

/-- x rounded to an integral value of the format (R385): NX where it differs and nx is set. -/
def Fmt.integral (f : Fmt) (rnd : Rnd) (nx : Bool) (v : Nat) : FRes :=
  match f.num v with
  | .nan s => f.nanRes s
  | .inf _ => ⟨v, {}⟩
  | .fin neg m e =>
    if m = 0 || 0 ≤ e then ⟨v, {}⟩
    else
      let (s, inexact) := roundAt rnd neg m e false 0
      ⟨(f.round .rne false neg s 0 false).bits, { nx := nx && inexact }⟩

/-- a × 2^b with one rounding (R385). Beyond ±400 a larger count gives the same result. -/
def Fmt.scale (f : Fmt) (rnd : Rnd) (v : Nat) (b : Int) : FRes :=
  match f.num v with
  | .nan s => f.nanRes s
  | .inf _ => ⟨v, {}⟩
  | .fin neg m e =>
    if m = 0 then ⟨v, {}⟩
    else f.round rnd false neg m (e + (if b < -400 then -400 else if 400 < b then 400 else b)) false

/-- a − floor(a) (R385). -/
def Fmt.frac (f : Fmt) (rnd : Rnd) (v : Nat) : FRes :=
  match f.num v with
  | .nan s => f.nanRes s
  | .inf _ => f.nanRes true
  | .fin neg m e =>
    if 0 ≤ e then ⟨f.zero false, {}⟩
    else
      let k := (-e).toNat
      let r := ((signed neg m) % (2 ^ k : Int)).toNat
      if r = 0 then ⟨f.zero false, {}⟩ else f.round rnd false false r e false

/-- The class mask of R384. -/
def Fmt.classMask (f : Fmt) (v : Nat) : Nat :=
  match f.num v with
  | .nan true => 1
  | .nan false => 2
  | .inf true => 4
  | .inf false => 2 ^ 9
  | .fin neg m _ =>
    if m = 0 then (if neg then 2 ^ 5 else 2 ^ 6)
    else if m < 2 ^ f.fb then (if neg then 2 ^ 4 else 2 ^ 7)
    else if neg then 2 ^ 3 else 2 ^ 8

/-! ## DS8, SP4, S10 (R231-R233, R240) -/

/-- A term of DS8 or SP4 in units of 2^−6: absent at shift 7 (R231). -/
def shiftTerm (neg : Bool) (e : Nat) : Int := if e = 7 then 0 else signed neg (2 ^ (6 - e))

/-- The value of a DS8 byte in units of 2^−6 (R231). -/
def ds8Units (b : Nat) : Int := shiftTerm (bit b 7) (b / 16 % 8) + shiftTerm (bit b 3) (b % 8)

/-- The value of an SP4 nibble in units of 2^−6 (R231). -/
def sp4Units (n : Nat) : Int := shiftTerm (bit n 3) (n % 8)

/-- Rank of a DS8 encoding among those of its value, lowest canonical: terms present, difference over one sign, term in
the second field, E1 < E2, sign bits of absent terms (R232). -/
def ds8Rank (b : Nat) : Nat :=
  let p1 : Bool := b / 16 % 8 != 7
  let p2 : Bool := b % 8 != 7
  let n := p1.toNat + p2.toNat
  let diff := p1 && p2 && bit b 7 != bit b 3
  let second := !p1 && p2
  let order : Bool := p1 && p2 && b % 8 ≤ b / 16 % 8
  let signs := (!p1 && bit b 7) || (!p2 && bit b 3)
  16 * n + 8 * diff.toNat + 4 * second.toNat + 2 * order.toNat + signs.toNat

/-- Rank of an SP4 encoding: zero is canonically 0x7 (R232). -/
def sp4Rank (n : Nat) : Nat := if n = 15 then 1 else 0

/-- The best code of a list under a relation, the first of equals. -/
def bestBy (better : Nat → Nat → Bool) : List Nat → Option Nat
  | [] => none
  | c :: cs =>
    match bestBy better cs with
    | none => some c
    | some b => if better b c then some b else some c

/-- Conversion of FP32 to DS8 or SP4 (R240): units gives a code's value in 2^−6, rank its canonical order. -/
def toTerms (codes : List Nat) (units : Nat → Int) (rank : Nat → Nat) (rnd : Rnd) (v : Nat) : FRes :=
  let canon (c : Nat) : Nat := (bestBy (fun b a => rank b < rank a) (codes.filter fun x => units x = units c)).getD c
  let top := codes.foldl (fun b c => if b < units c then units c else b) 0
  let at_ (u : Int) : Nat := canon ((codes.find? fun c => units c = u).getD 0)
  match f32.num v with
  | .nan _ => ⟨at_ 0, { iv := true }⟩
  | .inf neg => ⟨at_ (if neg then -top else top), { sat := true, nx := true }⟩
  | .fin neg m e =>
    -- x in units of 2^−6 is x.1 × 2^x.2; d c is units c − x at a common exponent, scaled alike for every code
    let x := signed neg m
    let ex := e + 6
    let d (c : Nat) : Int :=
      if 0 ≤ ex then units c - x * 2 ^ ex.toNat else units c * 2 ^ (-ex).toNat - x
    let abs (c : Nat) : Nat := (d c).natAbs
    let out := codes.all fun c => if neg then 0 < d c else d c < 0
    if out then ⟨at_ (if neg then -top else top), { sat := true, nx := true }⟩
    else
      let ok (c : Nat) : Bool := match rnd with
        | .rne => true
        | .rz => if neg then 0 ≤ d c && units c ≤ 0 else d c ≤ 0 && 0 ≤ units c
        | .rp => 0 ≤ d c
        | .rm => d c ≤ 0
      let pick := bestBy (fun b a => abs b < abs a || (abs b = abs a && (units b).natAbs < (units a).natAbs))
        (codes.filter ok)
      match pick with
      | some c => ⟨canon c, { nx := d c ≠ 0 }⟩
      | none => ⟨at_ (if neg then -top else top), { sat := true, nx := true }⟩

/-- FP32 to DS8 (R240). -/
def toDs8 (rnd : Rnd) (v : Nat) : FRes := toTerms (List.range 256) ds8Units ds8Rank rnd v

/-- FP32 to SP4 (R240). -/
def toSp4 (rnd : Rnd) (v : Nat) : FRes := toTerms (List.range 16) sp4Units sp4Rank rnd v

/-- A number of units of 2^−6 as a value; zero has no sign (R231). -/
def unitsNum (u : Int) : Num := .fin (u < 0) u.natAbs (-6)

/-- The value of an S10 scale; E = 255 is NaN (R233). -/
def s10Num (s : Nat) : Num :=
  if s / 4 % 256 = 255 then .nan false else .fin false (4 + s % 4) ((s / 4 % 256 : Int) - 129)

end Sys2Proof.Machine
end

