-- ==== Sys2Proof/Machine/Transcend.lean ====
section
/-! DEFINITION. The special functions of R386: values of 2^a, log2, sin, cos and tanh to far more digits than FP32 holds,
rounded once. Fixed-point series with constants of 640 fraction bits; log entry 9 says what their precision rests on. -/

namespace Sys2Proof.Machine

/-- Fraction bits of the constants. -/
def constBits : Nat := 640

/-- π × 2^640, rounded down. -/
def piConst : Nat :=
  0x3243f6a8885a308d313198a2e03707344a4093822299f31d0082efa98ec4e6c89452821e638d01377be5466cf34e90c6cc0ac29b7c97c50dd3f84d5b5b54709179216d5d98979fb1bd1310ba698dfb5ac

/-- ln 2 × 2^640, rounded down. -/
def ln2Const : Nat :=
  0xb17217f7d1cf79abc9e3b39803f2f6af40f343267298b62d8a0d175b8baafa2be7b876206debac98559552fb4afa1b10ed2eae35c138214427573b291169b8253e96ca16224ae8c51acbda11317c387e

/-- A constant with p fraction bits. -/
def constAt (c p : Nat) : Int := (c / 2 ^ (constBits - p) : Nat)

/-- A dyadic number in fixed point with p fraction bits, rounded down. -/
def toFix (p : Nat) (x : Int) (e : Int) : Int :=
  if 0 ≤ e + p then x * 2 ^ (e + p).toNat else x.fdiv (2 ^ (-(e + p)).toNat)

/-- Product in fixed point. -/
def mulFix (p : Nat) (a b : Int) : Int := (a * b).fdiv (2 ^ p)

/-- The sum of terms t, t·x/(k+1)·…: the exponential series from term k on. -/
def expSeries (p : Nat) (x : Int) : Nat → Nat → Int → Int
  | 0, _, _ => 0
  | n + 1, k, t => t + expSeries p x n (k + 1) ((mulFix p t x).fdiv (k + 1))

/-- e^x for 0 ≤ x < 1. -/
def expFix (p : Nat) (x : Int) : Int := expSeries p x 80 0 (2 ^ p)

/-- Alternating series of sine (k = 1) and cosine (k = 0): each term is the last × −x²/((k+1)(k+2)). -/
def trigSeries (p : Nat) (x2 : Int) : Nat → Nat → Int → Int
  | 0, _, _ => 0
  | n + 1, k, t => t + trigSeries p x2 n (k + 2) (-(mulFix p t x2).fdiv ((k + 1) * (k + 2)))

/-- sin r for |r| ≤ π/4. -/
def sinFix (p : Nat) (r : Int) : Int := trigSeries p (mulFix p r r) 50 1 r

/-- cos r for |r| ≤ π/4. -/
def cosFix (p : Nat) (r : Int) : Int := trigSeries p (mulFix p r r) 50 0 (2 ^ p)

/-- z + z³/3 + z⁵/5 + …, from the term t = z^k on. -/
def atanhSeries (p : Nat) (z2 : Int) : Nat → Nat → Int → Int
  | 0, _, _ => 0
  | n + 1, k, t => t.fdiv k + atanhSeries p z2 n (k + 2) (mulFix p t z2)

/-- A fixed-point value that is not exact, rounded to FP32 under RNE. -/
def roundFix (v : Int) (e : Int) : FRes := f32.round .rne false (v < 0) v.natAbs e true

/-- 2^a (R386). -/
def fexp2 (a : Nat) : FRes :=
  match f32.num a with
  | .nan s => f32.nanRes s
  | .inf false => ⟨f32.inf false, {}⟩
  | .inf true => ⟨f32.zero false, {}⟩
  | .fin neg m e =>
    if m = 0 then ⟨0x3F800000, {}⟩
    else
      let x := signed neg m
      let big : Int := 8 + Nat.log2 m + e
      if 20 ≤ big then (if neg then f32.round .rne false false 1 (-400) true else f32.round .rne false false 1 400 true)
      else
        let p := 200
        let fl := toFix 0 x e
        let frac := toFix p x e - fl * 2 ^ p
        if frac = 0 && (0 ≤ e || m % 2 ^ (-e).toNat = 0) then f32.round .rne false false 1 fl false
        else
          let v := expFix p (mulFix p frac (constAt ln2Const p))
          f32.round .rne false false v.toNat (fl - p) true

/-- log2 a (R386). -/
def flog2 (a : Nat) : FRes :=
  match f32.num a with
  | .nan s => f32.nanRes s
  | .inf false => ⟨f32.inf false, {}⟩
  | .inf true => f32.nanRes true
  | .fin neg m e =>
    if m = 0 then ⟨f32.inf true, { dz := true }⟩
    else if neg then f32.nanRes true
    else
      let l := Nat.log2 m
      -- a = y × 2^k with 0.75 ≤ y < 1.5
      let up := 3 * 2 ^ l ≤ 2 * m
      let k : Int := (l : Int) + e + (if up then 1 else 0)
      let den := if up then 2 ^ (l + 1) else 2 ^ l
      if m = 2 ^ l then f32.round .rne false (k < 0) k.natAbs 0 false
      else
        let p := 256
        let z := (((m : Int) - den) * 2 ^ p).fdiv (m + den)
        let ln := 2 * atanhSeries p (mulFix p z z) 60 1 z
        let log := (ln * 2 ^ p).fdiv (constAt ln2Const p)
        roundFix (k * 2 ^ p + log) (-p)

/-- Sine (cosine where cos) of a finite argument (R386): |a| = n·π/2 + r, |r| ≤ π/4. -/
def trig (cos neg : Bool) (m : Nat) (e : Int) : FRes :=
  let tiny := (-((Nat.log2 m : Int) + e)).toNat
  let p := 220 + tiny
  let half := constAt piConst (p + 140)
  -- |a| and π/2 with p + 140 fraction bits
  let x := toFix (p + 140) m e
  let n := (2 * x + half / 2).fdiv half
  let r := (x - (n * half).fdiv 2).fdiv (2 ^ 140)
  let q := ((n + (if cos then 1 else 0)) % 4).toNat
  let v := if q % 2 = 1 then cosFix p r else sinFix p r
  let v := if 2 ≤ q then -v else v
  roundFix (if neg && !cos then -v else v) (-p)

/-- sin a (R386). -/
def fsin (a : Nat) : FRes :=
  match f32.num a with
  | .nan s => f32.nanRes s
  | .inf _ => f32.nanRes true
  | .fin neg m e => if m = 0 then ⟨a, {}⟩ else trig false neg m e

/-- cos a (R386). -/
def fcos (a : Nat) : FRes :=
  match f32.num a with
  | .nan s => f32.nanRes s
  | .inf _ => f32.nanRes true
  | .fin neg m e => if m = 0 then ⟨0x3F800000, {}⟩ else trig true neg m e

/-- tanh a (R386), as (e^2a − 1) / (e^2a + 1); beyond 16 it rounds to 1. -/
def ftanh (a : Nat) : FRes :=
  match f32.num a with
  | .nan s => f32.nanRes s
  | .inf neg => ⟨if neg then 0xBF800000 else 0x3F800000, {}⟩
  | .fin neg m e =>
    if m = 0 then ⟨a, {}⟩
    else
      let l : Int := (Nat.log2 m : Int) + e
      if 4 ≤ l then ⟨if neg then 0xBF800000 else 0x3F800000, { nx := true }⟩
      else
        let p := 160 + (if l < 0 then 2 * (-l).toNat else 0)
        let p' := if constBits < p then constBits else p
        let y := toFix p' (2 * m) e
        let ln2 := constAt ln2Const p'
        let n := y.fdiv ln2
        let ex := expFix p' (y - n * ln2) * 2 ^ n.toNat
        let one : Int := 2 ^ p'
        let v := ((ex - one) * one).fdiv (ex + one)
        roundFix (if neg then -v else v) (-p')

end Sys2Proof.Machine
end

