-- ==== Sys2Proof/Machine/FloatOps.lean ====
section
/-! DEFINITION. FP32 and packed instructions (R320, R383-R388). -/

namespace Sys2Proof.Machine

/-- A 32-bit floating result as a lane's result. -/
def fres (r : FRes) : Res := { ws := [.ofNat 32 r.bits], fp := r.fp.word }

/-- The FP32 value of an operand. -/
def fval (v : DWord) : Num := f32.num (v.toNat % 2 ^ 32)

/-- The bits of an FP32 operand. -/
def fbits (v : DWord) : Nat := v.toNat % 2 ^ 32

/-- A fixed-latency FP32 instruction. -/
def fpOp (i : Instr) (g : Args → FRes) (s : State) : Out := s.on fun m => m.alu i fun _ v n => fres (g (v n))

/-- A long-latency FP32 instruction (R386). -/
def fpLong (i : Instr) (g : Args → FRes) (s : State) : Out := s.on fun m => m.longAlu i fun v => fres (g v)

/-- `fadd` (R383). -/
def execFadd (c : Ctl) (rnd : Rnd) (d a b : Reg) (s : State) : Out :=
  fpOp (.fadd c rnd d a b) (fun v => f32.add rnd (fval v.a) (fval v.b)) s

/-- `fsub` (R383). -/
def execFsub (c : Ctl) (rnd : Rnd) (d a b : Reg) (s : State) : Out :=
  fpOp (.fsub c rnd d a b) (fun v => f32.add rnd (fval v.a) (fval v.b).neg) s

/-- `fmul` (R383). -/
def execFmul (c : Ctl) (rnd : Rnd) (d a b : Reg) (s : State) : Out :=
  fpOp (.fmul c rnd d a b) (fun v => f32.mul rnd (fval v.a) (fval v.b)) s

/-- `ffma` (R383). -/
def execFfma (c : Ctl) (rnd : Rnd) (d a b e : Reg) (s : State) : Out :=
  fpOp (.ffma c rnd d a b e) (fun v => f32.fma rnd (fval v.a) (fval v.b) (fval v.c)) s

/-- `fmin` (R242, R383). -/
def execFmin (c : Ctl) (d a b : Reg) (s : State) : Out :=
  fpOp (.fmin c d a b) (fun v => f32.minmax false (fbits v.a) (fbits v.b)) s

/-- `fmax` (R242, R383). -/
def execFmax (c : Ctl) (d a b : Reg) (s : State) : Out :=
  fpOp (.fmax c d a b) (fun v => f32.minmax true (fbits v.a) (fbits v.b)) s

/-- `fabs`: A with bit 31 cleared (R383). -/
def execFabs (c : Ctl) (d a : Reg) (s : State) : Out :=
  wordOp (.fabs c d a) (fun v => loWord v.a &&& 0x7FFFFFFF) s

/-- `fneg`: A with bit 31 inverted (R383). -/
def execFneg (c : Ctl) (d a : Reg) (s : State) : Out :=
  wordOp (.fneg c d a) (fun v => loWord v.a ^^^ 0x80000000) s

/-- `ffloor` (R385). -/
def execFfloor (c : Ctl) (d a : Reg) (s : State) : Out :=
  fpOp (.ffloor c d a) (fun v => f32.integral .rm false (fbits v.a)) s

/-- `fceil` (R385). -/
def execFceil (c : Ctl) (d a : Reg) (s : State) : Out :=
  fpOp (.fceil c d a) (fun v => f32.integral .rp false (fbits v.a)) s

/-- `ftrunc` (R385). -/
def execFtrunc (c : Ctl) (d a : Reg) (s : State) : Out :=
  fpOp (.ftrunc c d a) (fun v => f32.integral .rz false (fbits v.a)) s

/-- `frint` (R385). -/
def execFrint (c : Ctl) (rnd : Rnd) (d a : Reg) (s : State) : Out :=
  fpOp (.frint c rnd d a) (fun v => f32.integral rnd true (fbits v.a)) s

/-- `fclass` (R384). -/
def execFclass (c : Ctl) (d a : Reg) (s : State) : Out :=
  wordOp (.fclass c d a) (fun v => .ofNat 32 (f32.classMask (fbits v.a))) s

/-- `fscale` (R385). -/
def execFscale (c : Ctl) (rnd : Rnd) (d a b : Reg) (s : State) : Out :=
  fpOp (.fscale c rnd d a b) (fun v => f32.scale rnd (fbits v.a) (loWord v.b).toInt) s

/-- `ffrac` (R385). -/
def execFfrac (c : Ctl) (rnd : Rnd) (d a : Reg) (s : State) : Out :=
  fpOp (.ffrac c rnd d a) (fun v => f32.frac rnd (fbits v.a)) s

/-- `frcp` (R386). -/
def execFrcp (c : Ctl) (rnd : Rnd) (d a : Reg) (s : State) : Out :=
  fpLong (.frcp c rnd d a) (fun v => f32.rcp rnd (fval v.a)) s

/-- `frsq` (R386). -/
def execFrsq (c : Ctl) (rnd : Rnd) (d a : Reg) (s : State) : Out :=
  fpLong (.frsq c rnd d a) (fun v => f32.rsqrt rnd (fval v.a)) s

/-- `fsqrt` (R386). -/
def execFsqrt (c : Ctl) (rnd : Rnd) (d a : Reg) (s : State) : Out :=
  fpLong (.fsqrt c rnd d a) (fun v => f32.sqrt rnd (fval v.a)) s

/-- `fdiv` (R386). -/
def execFdiv (c : Ctl) (rnd : Rnd) (d a b : Reg) (s : State) : Out :=
  fpLong (.fdiv c rnd d a b) (fun v => f32.div rnd (fval v.a) (fval v.b)) s

/-- `fexp2` (R386). -/
def execFexp2 (c : Ctl) (d a : Reg) (s : State) : Out := fpLong (.fexp2 c d a) (fun v => fexp2 (fbits v.a)) s

/-- `flog2` (R386). -/
def execFlog2 (c : Ctl) (d a : Reg) (s : State) : Out := fpLong (.flog2 c d a) (fun v => flog2 (fbits v.a)) s

/-- `fsin` (R386). -/
def execFsin (c : Ctl) (d a : Reg) (s : State) : Out := fpLong (.fsin c d a) (fun v => fsin (fbits v.a)) s

/-- `fcos` (R386). -/
def execFcos (c : Ctl) (d a : Reg) (s : State) : Out := fpLong (.fcos c d a) (fun v => fcos (fbits v.a)) s

/-- `ftanh` (R386). -/
def execFtanh (c : Ctl) (d a : Reg) (s : State) : Out := fpLong (.ftanh c d a) (fun v => ftanh (fbits v.a)) s

/-- `fcmp` (R320). -/
def execFcmp (c : Ctl) (cond : FCond) (d a b : Reg) (s : State) : Out :=
  s.on fun m => m.alu (.fcmp c cond d a b) fun _ v n =>
    let r := fcondRes cond (fval (v n).a) (fval (v n).b)
    { ws := [boolWord r.1], fp := Fp.word { iv := r.2 } }

/-! ## Packed halves (R387) -/

/-- The low or high half of a packed operand. -/
def half (hi : Bool) (v : DWord) : Nat := v.toNat / (if hi then 2 ^ 16 else 1) % 2 ^ 16

/-- A packed instruction: each half independently, the conditions together (R387). -/
def halfOp (i : Instr) (g : (DWord → Nat) → Args → FRes) (s : State) : Out :=
  s.on fun m => m.alu i fun _ v n =>
    let lo := g (half false) (v n)
    let hi := g (half true) (v n)
    { ws := [.ofNat 32 (lo.bits + 2 ^ 16 * hi.bits)], fp := (lo.fp.or hi.fp).word }

/-- `hadd` (R387). -/
def execHadd (c : Ctl) (t : Ty) (rnd : Rnd) (d a b : Reg) (s : State) : Out :=
  halfOp (.hadd c t rnd d a b) (fun h v => (fmtOf t).add rnd ((fmtOf t).num (h v.a)) ((fmtOf t).num (h v.b))) s

/-- `hsub` (R387). -/
def execHsub (c : Ctl) (t : Ty) (rnd : Rnd) (d a b : Reg) (s : State) : Out :=
  halfOp (.hsub c t rnd d a b) (fun h v => (fmtOf t).add rnd ((fmtOf t).num (h v.a)) ((fmtOf t).num (h v.b)).neg) s

/-- `hmul` (R387). -/
def execHmul (c : Ctl) (t : Ty) (rnd : Rnd) (d a b : Reg) (s : State) : Out :=
  halfOp (.hmul c t rnd d a b) (fun h v => (fmtOf t).mul rnd ((fmtOf t).num (h v.a)) ((fmtOf t).num (h v.b))) s

/-- `hfma` (R387). -/
def execHfma (c : Ctl) (t : Ty) (rnd : Rnd) (d a b e : Reg) (s : State) : Out :=
  halfOp (.hfma c t rnd d a b e)
    (fun h v => (fmtOf t).fma rnd ((fmtOf t).num (h v.a)) ((fmtOf t).num (h v.b)) ((fmtOf t).num (h v.c))) s

/-- `hmin` (R387). -/
def execHmin (c : Ctl) (t : Ty) (d a b : Reg) (s : State) : Out :=
  halfOp (.hmin c t d a b) (fun h v => (fmtOf t).minmax false (h v.a) (h v.b)) s

/-- `hmax` (R387). -/
def execHmax (c : Ctl) (t : Ty) (d a b : Reg) (s : State) : Out :=
  halfOp (.hmax c t d a b) (fun h v => (fmtOf t).minmax true (h v.a) (h v.b)) s

/-- `hcmp`: bit 0 the low half's result, bit 1 the high half's (R387). -/
def execHcmp (c : Ctl) (t : Ty) (cond : FCond) (d a b : Reg) (s : State) : Out :=
  s.on fun m => m.alu (.hcmp c t cond d a b) fun _ v n =>
    let r (hi : Bool) := fcondRes cond ((fmtOf t).num (half hi (v n).a)) ((fmtOf t).num (half hi (v n).b))
    { ws := [.ofNat 32 ((r false).1.toNat + 2 * (r true).1.toNat)], fp := Fp.word { iv := (r false).2 || (r true).2 } }

/-! ## Exact sums (R243, R388) -/

/-- An exact sum being formed: NaN, an invalid product, infinities of either sign, the finite part, and whether every term
so far is a zero of one sign. -/
structure Sum where
  nan : Bool := false
  sig : Bool := false
  invalid : Bool := false
  pinf : Bool := false
  ninf : Bool := false
  m : Int := 0
  e : Int := 0
  allNeg : Bool := true
  allPos : Bool := true
  deriving DecidableEq, Repr

/-- Adds a term; none is an invalid product. -/
def Sum.add (s : Sum) (x : Option Num) : Sum :=
  match x with
  | none => { s with invalid := true }
  | some (.nan g) => { s with nan := true, sig := s.sig || g }
  | some (.inf true) => { s with ninf := true }
  | some (.inf false) => { s with pinf := true }
  | some (.fin neg m e) =>
    let t := if m = 0 then (s.m, s.e) else if s.m = 0 then (signed neg m, e) else addDy s.m s.e (signed neg m) e
    { s with m := t.1, e := t.2, allNeg := s.allNeg && neg, allPos := s.allPos && !neg }

/-- The sum rounded once to a format (R243, R388). -/
def Sum.round (s : Sum) (f : Fmt) (rnd : Rnd) : FRes :=
  if s.nan || s.invalid then f.nanRes (s.sig || s.invalid)
  else if s.pinf && s.ninf then f.nanRes true
  else if s.pinf then ⟨f.inf false, {}⟩
  else if s.ninf then ⟨f.inf true, {}⟩
  else if s.m = 0 then ⟨f.zero (if s.allNeg then true else if s.allPos then false else rnd = .rm), {}⟩
  else f.round rnd false (s.m < 0) s.m.natAbs s.e false

/-- `hdot2`: A.lo × B.lo + A.hi × B.hi + C, exact, rounded once (R388). -/
def execHdot2 (c : Ctl) (t : Ty) (rnd : Rnd) (d a b e : Reg) (s : State) : Out :=
  fpOp (.hdot2 c t rnd d a b e)
    (fun v =>
      let p (hi : Bool) := ((fmtOf t).num (half hi v.a)).mul ((fmtOf t).num (half hi v.b))
      ((((({} : Sum).add (p false)).add (p true)).add (some (fval v.c))).round f32 rnd)) s

end Sys2Proof.Machine
end

