-- ==== Sys2Proof/Machine/Lanes.lean ====
section
/-! DEFINITION. Lane exchange, ballot, reductions and scans across the lanes of a path (R322-R325, R244). -/

namespace Sys2Proof.Machine

/-- Bits [4:0] of a lane's B, or the immediate (R323). -/
def delta (k : Count 5) (b : DWord) : Nat :=
  match k with
  | .reg _ => b.toNat % 32
  | .imm n => n.toNat

/-- A shuffle: `src` gives the source lane from lane and offset; a lane without one keeps its own A (R323). -/
def shuffle (i : Instr) (k : Count 5) (src : Nat → Nat → Option Nat) (s : State) : Out :=
  s.on fun m => m.alu i fun act v n =>
    match src n (delta k (v n).b) with
    | some p => res32 (loWord (v (if act.getLsbD p then p else n)).a)
    | none => res32 (loWord (v n).a)

/-- `shfl` (R323). -/
def execShfl (c : Ctl) (d a : Reg) (k : Count 5) (s : State) : Out := shuffle (.shfl c d a k) k (fun _ o => some o) s

/-- `shfl.up` (R323). -/
def execShflUp (c : Ctl) (d a : Reg) (k : Count 5) (s : State) : Out :=
  shuffle (.shflUp c d a k) k (fun n o => if o ≤ n then some (n - o) else none) s

/-- `shfl.down` (R323). -/
def execShflDown (c : Ctl) (d a : Reg) (k : Count 5) (s : State) : Out :=
  shuffle (.shflDown c d a k) k (fun n o => if n + o ≤ 31 then some (n + o) else none) s

/-- `shfl.xor` (R323). -/
def execShflXor (c : Ctl) (d a : Reg) (k : Count 5) (s : State) : Out :=
  shuffle (.shflXor c d a k) k (fun n o => some (n ^^^ o)) s

/-- `ballot`: the source lanes whose A has bit 0 set (R324). -/
def execBallot (c : Ctl) (d a : Reg) (s : State) : Out :=
  s.on fun m => m.alu (.ballot c d a) fun act v _ =>
    res32 (laneSet ((laneList act).filter fun n => (v n).a.getLsbD 0))

/-- `bcast`: the A of lane n where it is a source lane, else of the lowest source lane (R324). -/
def execBcast (c : Ctl) (d a : Reg) (k : Option (BitVec 5)) (s : State) : Out :=
  s.on fun m => m.alu (.bcast c d a k) fun act v _ =>
    let p := match k with
      | some n => if act.getLsbD n.toNat then n.toNat else lowLane act
      | none => lowLane act
    res32 (loWord (v p).a)

/-- One node of a reduction (R244, R325): integer sums wrap, FP sums round under RND, FP min and max follow R242. -/
def redNode (op : RedOp) (t : Ty) (rnd : Rnd) (a b : Word) : FRes :=
  let int (g : Int → Int → Int) : FRes :=
    ⟨(BitVec.ofInt 32 (g (extBits 32 (tySigned t) a.toNat) (extBits 32 (tySigned t) b.toNat))).toNat, {}⟩
  match op with
  | .add => if t = .f32 then f32.add rnd (f32.num a.toNat) (f32.num b.toNat) else int (· + ·)
  | .min => if t = .f32 then f32.minmax false a.toNat b.toNat else int fun x y => if x ≤ y then x else y
  | .max => if t = .f32 then f32.minmax true a.toNat b.toNat else int fun x y => if x ≤ y then y else x
  | .and => ⟨(a &&& b).toNat, {}⟩
  | .or => ⟨(a ||| b).toNat, {}⟩
  | .xor => ⟨(a ^^^ b).toNat, {}⟩

/-- The identity of an exclusive scan (R325). -/
def redIdentity (op : RedOp) (t : Ty) : Word :=
  match op, t with
  | .add, .f32 => 0x80000000
  | .add, _ => 0
  | .min, .f32 => 0x7F800000
  | .min, .i32 => 0x7FFFFFFF
  | .min, _ => 0xFFFFFFFF
  | .max, .f32 => 0xFF800000
  | .max, .i32 => 0x80000000
  | .max, _ => 0
  | .and, _ => 0xFFFFFFFF
  | .or, _ => 0
  | .xor, _ => 0

/-- Pairs neighbours of a level; a node with one contribution passes it up (R244). -/
def pairUp (f : Word → Word → FRes) : List (Option Word) → Word → List (Option Word) × Word
  | [], fp => ([], fp)
  | [x], fp => ([x], fp)
  | x :: y :: rest, fp =>
    let (z, fp) := match x, y with
      | some a, some b => (some (.ofNat 32 (f a b).bits), fp ||| (f a b).fp.word)
      | some a, none => (some a, fp)
      | none, y => (y, fp)
    let (zs, fp) := pairUp f rest fp
    (z :: zs, fp)

/-- The tree of R244 over 32 lanes: five levels. -/
def warpTree (f : Word → Word → FRes) (xs : List (Option Word)) : Option Word × Word :=
  let r := (List.range 5).foldl (fun (p : List (Option Word) × Word) _ => pairUp f p.1 p.2) (xs, 0)
  (r.1.headD none, r.2)

/-- The A values of the source lanes, lane by lane. -/
def sourceVals (act : Lanes) (v : Nat → Args) : List (Option Word) :=
  (List.range 32).map fun n => if act.getLsbD n then some (loWord (v n).a) else none

/-- `wred` (R325). -/
def execWred (c : Ctl) (op : RedOp) (t : Ty) (rnd : Rnd) (d a : Reg) (s : State) : Out :=
  s.on fun m => m.alu (.wred c op t rnd d a) fun act v _ =>
    let r := warpTree (redNode op t rnd) (sourceVals act v)
    { ws := [r.1.getD 0], fp := r.2 }

/-- Folds values in order from the first (R325). -/
def foldVals (f : Word → Word → FRes) : List Word → Option Word × Word
  | [] => (none, 0)
  | x :: xs =>
    let r := xs.foldl (fun (p : Word × Word) y => (.ofNat 32 (f p.1 y).bits, p.2 ||| (f p.1 y).fp.word)) (x, 0)
    (some r.1, r.2)

/-- `wscan` (R325): the source lanes up to lane L, or below it with EX. -/
def execWscan (c : Ctl) (ex : Bool) (op : RedOp) (t : Ty) (rnd : Rnd) (d a : Reg) (s : State) : Out :=
  s.on fun m => m.alu (.wscan c ex op t rnd d a) fun act v n =>
    let xs := ((laneList act).filter fun k => k < n || (k = n && !ex)).map fun k => loWord (v k).a
    let r := foldVals (redNode op t rnd) xs
    { ws := [r.1.getD (redIdentity op t)], fp := r.2 }

end Sys2Proof.Machine
end

