-- ==== Sys2Proof/Machine/Convert.lean ====
section
/-! DEFINITION. Conversions (R238-R240, R389-R392) and packed blocks (R234-R236). -/

namespace Sys2Proof.Machine

/-- The value of an element code of a type: a floating format, DS8, SP4, or an integer (R228-R231). -/
def elemNum (t : Ty) (v : Nat) : Num :=
  match t with
  | .ds8 => unitsNum (ds8Units (v % 256))
  | .sp4 => unitsNum (sp4Units (v % 16))
  | .f32 | .f16 | .bf16 | .e4m3 | .e5m2 => (fmtOf t).num (v % 2 ^ (fmtOf t).width)
  | _ =>
    let x := extBits (tyWidth t) (tySigned t) v
    .fin (x < 0) x.natAbs 0

/-- A value as an integer type (R239): rounded, out of range the nearest bound with IV, a NaN 0 with IV, NX where a
result in range is not exact (DEDUCED: a bound sets no NX, log entry 11). -/
def toInt (t : Ty) (rnd : Rnd) (x : Num) : Int × Fp :=
  match x with
  | .nan _ => (0, { iv := true })
  | .inf neg => (if neg then minT t else maxT t, { iv := true })
  | .fin neg m e =>
    let big : Bool := (70 : Int) < (Nat.log2 m : Int) + e
    if big then (if neg then minT t else maxT t, { iv := true })
    else
      let (r, inexact) := roundAt rnd neg m e false 0
      let y := signed neg r
      if y < minT t then (minT t, { iv := true })
      else if maxT t < y then (maxT t, { iv := true })
      else (y, { nx := inexact })

/-- One conversion between floating types, DS8 and SP4 (R239, R240). -/
def cvtBits (dst src : Ty) (rnd : Rnd) (sat : Bool) (v : Nat) : FRes :=
  match dst with
  | .ds8 => toDs8 rnd v
  | .sp4 => toSp4 rnd v
  | _ => (fmtOf dst).ofNum rnd sat (elemNum src v)

/-- `cvt` (R389). -/
def execCvt (c : Ctl) (dst src : Ty) (rnd : Rnd) (sat : Bool) (d a : Reg) (s : State) : Out :=
  fpOp (.cvt c dst src rnd sat d a) (fun v => cvtBits dst src rnd sat v.a.toNat) s

/-- An integer conversion (R389): to FP32, from FP32, or narrowing. -/
def icvtRes (dst src : Ty) (rnd : Rnd) (sat : Bool) (v : DWord) : Res :=
  if dst = .f32 then fres (f32.ofNum rnd false (elemNum src v.toNat))
  else if src = .f32 then
    let r := toInt dst rnd (fval v)
    { intRes dst false r.1 with fp := r.2.word }
  else intRes dst sat (extT src v)

/-- `icvt` (R389). -/
def execIcvt (c : Ctl) (dst src : Ty) (rnd : Rnd) (sat : Bool) (d a : Reg) (s : State) : Out :=
  s.on fun m => m.alu (.icvt c dst src rnd sat d a) fun _ v n => icvtRes dst src rnd sat (v n).a

/-- `cvt.w` (R389). -/
def execCvtW (c : Ctl) (dst src : Ty) (rnd : Rnd) (sat : Bool) (d a : Reg) (s : State) : Out :=
  s.on fun m => m.alu (.cvtW c dst src rnd sat d a) fun _ v n => icvtRes dst src rnd sat (v n).a

/-- Elements converted and packed from bit 0 up (R390). -/
def packRes (dst : Ty) (rnd : Rnd) (sat : Bool) (vs : List DWord) : Res :=
  let rs := vs.map fun v => cvtBits dst .f32 rnd sat (fbits v)
  { ws := [.ofNat 32 (rs.zipIdx.foldl (fun n r => n + r.1.bits * 2 ^ (tyWidth dst * r.2)) 0)]
    fp := rs.foldl (fun w r => w ||| r.fp.word) 0 }

/-- Elements unpacked to FP32, exactly (R390). -/
def unpackRes (src : Ty) (n : Nat) (v : DWord) : Res :=
  let rs := (List.range n).map fun i => cvtBits .f32 src .rne false (v.toNat / 2 ^ (tyWidth src * i))
  { ws := rs.map fun r => .ofNat 32 r.bits, fp := rs.foldl (fun w r => w ||| r.fp.word) 0 }

/-- `cvt.x2` (R390). -/
def execCvtX2 (c : Ctl) (dst src : Ty) (rnd : Rnd) (sat : Bool) (d a b : Reg) (s : State) : Out :=
  s.on fun m => m.alu (.cvtX2 c dst src rnd sat d a b) fun _ v n =>
    if dst = .f32 then unpackRes src 2 (v n).a else packRes dst rnd sat [(v n).a, (v n).b]

/-- `cvt.x4` (R390). -/
def execCvtX4 (c : Ctl) (dst src : Ty) (rnd : Rnd) (sat : Bool) (d a b e x : Reg) (s : State) : Out :=
  s.on fun m => m.alu (.cvtX4 c dst src rnd sat d a b e x) fun _ v n =>
    if dst = .f32 then unpackRes src 4 (v n).a
    else packRes dst rnd sat [(v n).a, (v n).b, (v n).c, (v n).x]

/-- An element times a scale, rounded once to FP32 (R239, R391): IV for a signalling NaN element only. -/
def scaledRes (x : Num) (scale : Num) : FRes :=
  match x.mul scale with
  | some p => f32.ofNum .rne false p
  | none => f32.nanRes true

/-- `cvt.el` (R391). -/
def execCvtEl (c : Ctl) (src : Ty) (d a b : Reg) (s : State) : Out :=
  fpOp (.cvtEl c src d a b) (fun v => scaledRes (elemNum src v.a.toNat) (s10Num (v.b.toNat % 1024))) s

/-! ## Packed blocks (R234-R236) -/

/-- The layout an FMT code selects (R234): the element type and, for a sparse block, elements kept of each 24. -/
inductive BlockFmt where
  | zero
  | dense (t : Ty)
  | sparse (t : Ty) (n : Nat)
  deriving DecidableEq, Repr

/-- The layout of an FMT code; other codes are undefined (R234). -/
def blockFmt : Nat → Option BlockFmt
  | 0x00 => some .zero
  | 0x01 => some (.dense .e4m3)
  | 0x02 => some (.dense .e5m2)
  | 0x03 => some (.dense .i8)
  | 0x04 => some (.dense .ds8)
  | 0x05 => some (.dense .sp4)
  | 0x08 => some (.sparse .ds8 12)
  | 0x09 => some (.sparse .e4m3 12)
  | 0x0A => some (.sparse .ds8 8)
  | 0x0B => some (.sparse .e4m3 8)
  | 0x0C => some (.sparse .ds8 6)
  | 0x0D => some (.sparse .e4m3 6)
  | _ => none

/-- FMT of a block's header (R234). -/
def blockCode (bs : List Byte) : Nat := bytesNat (bs.take 2) % 64

/-- Scale of a block's header (R233, R234). -/
def blockScale (bs : List Byte) : Num := s10Num (bytesNat (bs.take 2) / 64)

/-- Logical elements of a layout (R234). -/
def BlockFmt.count : BlockFmt → Nat
  | .zero => 96
  | .dense .sp4 => 96
  | .dense _ => 48
  | .sparse .. => 96

/-- Byte n of a list, 0 beyond its end. -/
def byteAt (bs : List Byte) (n : Nat) : Nat := ((bs[n]?).getD 0).toNat

/-- The mask of group g of a sparse block (R235). -/
def groupMask (bs : List Byte) (g : Nat) : Nat := bytesNat ((bs.drop (2 + 3 * g)).take 3)

/-- Bits set in a mask below position n. -/
def popBelow (mask n : Nat) : Nat := ((List.range n).filter fun j => bit mask j).length

/-- The first group whose mask does not hold n bits (R236). -/
def badGroup (bs : List Byte) (n : Nat) : Option Nat := (List.range 4).find? fun g => popBelow (groupMask bs g) 24 ≠ n

/-- Whether a block passes R236, within a set of permitted FMT codes: none, or the operand position of FORMAT. -/
def blockFault (bs : List Byte) (allowed : Nat → Bool) : Option Nat :=
  match blockFmt (blockCode bs) with
  | none => some 0
  | some k =>
    if !allowed (blockCode bs) then some 0
    else match k with
      | .sparse _ n => badGroup bs n
      | _ => none

/-- Whether a block names no group where it breaks R236: its FMT is undefined. -/
def blockUndefined (bs : List Byte) : Bool := (blockFmt (blockCode bs)).isNone

/-- The code of logical element i of a block: none where it is zero because not kept (R234, R235). -/
def blockElem (bs : List Byte) (i : Nat) : Option (Ty × Nat) :=
  match blockFmt (blockCode bs) with
  | none | some .zero => none
  | some (.dense .sp4) => some (.sp4, byteAt bs (2 + i / 2) / (if i % 2 = 0 then 1 else 16) % 16)
  | some (.dense t) => some (t, byteAt bs (2 + i))
  | some (.sparse t n) =>
    let mask := groupMask bs (i / 24)
    if bit mask (i % 24) then some (t, byteAt bs (14 + n * (i / 24) + popBelow mask (i % 24))) else none

/-- Logical element i as the conversion instructions deliver it (R239, R392): an element beyond the block's count is a
NaN with IV; one not kept, or of an all-zero block, is +0. -/
def blockRes (bs : List Byte) (i : Nat) : FRes :=
  match blockFmt (blockCode bs) with
  | none => f32.nanRes true
  | some k =>
    if k.count ≤ i then f32.nanRes true
    else match blockElem bs i with
      | none => ⟨0, {}⟩
      | some (t, v) => scaledRes (elemNum t v) (blockScale bs)

end Sys2Proof.Machine
end

