-- ==== Sys2Proof/Machine/Access.lean ====
section
/-! DEFINITION. Accesses: where they are served (R41, R43, R199), what holds them back (R39, R50, R161), the checks of R204
with the range locks of R218, the L1D, replicas and the store path (R45-R47, R205, R206), releases and acquires (R211, R215). -/

namespace Sys2Proof

/-- Ranges a peer's request at an address accesses (R31, R216). -/
def PeerReq.ranges (pa : Nat) : PeerReq → List (Nat × Nat)
  | .read n => [(pa, n)]
  | .write bs _ => [(pa, bs.length)]
  | .atom _ n _ _ => [(pa, n)]
  | .readTile rows n => rows.map fun r => (r, n)
  | .writeTile rows n _ => rows.map fun r => (r, n)

/-- Whether a peer's request writes. -/
def PeerReq.writes : PeerReq → Bool
  | .read _ | .readTile .. => false
  | .write .. | .atom .. | .writeTile .. => true

end Sys2Proof

namespace Sys2Proof.Machine

/-! ## What holds a request back -/

/-- Whether message n is to be returned unexecuted to its NI, its home having changed (R50). -/
def Mach.returned (m : Mach) (n : Nat) : Bool := m.domains.any fun d => d.2.stale.contains n

/-- Whether message n may be served now at the places given: not one held for a gated router (R39), nor one to be returned
(R50). -/
def Mach.served (m : Mach) (n : Nat) (write : Bool) (ps : List Place) : Bool :=
  !m.holds n false && !m.returned n && !(ps.any (m.placeWaits write))

/-- Whether a release of its path comes after an operation (R206, R211, R355): one that reads, and a tile store, whose bytes
enter no store path. -/
def OpKind.reads : OpKind → Bool
  | .load _ | .atomic _ | .tile _ => true
  | _ => false

/-- Whether an operation ends with an acquire that later accesses of its path wait for (R334, R347, R356). -/
def OpKind.acquires : OpKind → Bool
  | .load k => k.acquire.isSome
  | .atomic k => k.acquire.isSome
  | _ => false

/-- Places of an operation that later accesses of its path come after: not the packed rows of a tile, which they race with
(R344). -/
def OpKind.ordered (k : OpKind) : List (Place × Nat) :=
  match k with
  | .tile t => t.rows.map fun p => (p, t.rowlen)
  | k => k.ranges

/-- Operations a task has under way for one of its own paths. -/
def Mach.opsOf (m : Mach) (t : Nat) : List (Nat × Op) := m.ops.filter fun o => o.2.task = t && !o.2.gone

/-- Whether loads, atomics or tile accesses of a task are under way: a release or an acquire of its path comes after them
(R212, R213, R355). -/
def Mach.readsOut (m : Mach) (t : Nat) : Bool := (m.opsOf t).any fun o => o.2.kind.reads

/-- Whether an access of a task to the ranges given would overtake an earlier operation of it (R210, R334): one that ends
with an acquire, or one that accesses a common byte. -/
def Mach.overtakes (m : Mach) (t : Nat) (before : Option Nat) (rs : List (Place × Nat)) : Bool :=
  (m.opsOf t).any fun o =>
    before.all (o.1 < ·) &&
      (o.2.kind.acquires || o.2.kind.ordered.any fun a => rs.any fun b => a.1.meets a.2 b.1 b.2)

/-- Whether a store of a core that came before message n, to common bytes, is still to be performed (R206, R210). -/
def Mach.storeBefore (m : Mach) (core n : Nat) (rs : List (Place × Nat)) : Bool :=
  (m.core core).stores.any fun s =>
    s.id < n && !s.done && rs.any fun r => s.place.meets s.bytes.length r.1 r.2

/-! ## The range-lock table (R217, R218) -/

/-- Whether an entry's rows meet n bytes at an address of its own space. -/
def RangeLock.covers (e : RangeLock) (a n : Nat) : Bool :=
  let first := if a < e.base + e.rowlen || e.stride = 0 || e.rows ≤ 1 then 0
    else (a + 1 - e.base - e.rowlen + e.stride - 1) / e.stride
  let row := e.base + first * e.stride
  (first = 0 || first < e.rows) && row < a + n && a < row + e.rowlen

/-- An address as the range locks compare it: its space and value, a window address of the team's own core as a
local-store offset (R194). -/
def Mach.lockAddr (m : Mach) (tk : Nat) (spc : Spc) (a : Nat) : Nat × Nat :=
  match spc with
  | .cw =>
    if (m.team? tk).any fun t => a / 2 ^ 19 % 4 = t.coreIx then (Spc.ls.code, a % 2 ^ 19) else (Spc.cw.code, a)
  | s => (s.code, a)

/-- Whether an access of a team to n bytes meets an entry registered against it (R218). -/
def Mach.rangeLocked (m : Mach) (core launch tk : Nat) (spc : Spc) (a n : Nat) (write : Bool) : Bool :=
  let (space, addr) := m.lockAddr tk spc a
  (m.core core).locks.any fun e =>
    e.launch = launch && e.space = space && (write || e.write) && e.covers addr n

/-! ## The checks of R204 -/

/-- A memory access as it is checked: space, size in bytes (and alignment), write, atomic (R226), promoting acquire (R356). -/
structure AccSpec where
  spc : Spc
  size : Nat
  write : Bool := false
  atom : Bool := false
  promote : Bool := false
  deriving DecidableEq, Repr

/-- What the checks say of one lane: it passes, it stalls on a page, it fails at a step of R204 with a cause. -/
inductive LaneRes where
  | ok (a : LaneAcc)
  | stall (page : Nat)
  | bad (step : Nat) (cause : Cause)
  deriving DecidableEq, Repr

/-- Where a local-store or window access of n bytes lands, or PROTECTION (R194). -/
def Mach.lsPlace (m : Mach) (tk launch : Nat) (spc : Spc) (a n : Nat) : Option Place :=
  let lim := ((m.launches.get? launch).map (·.lsBytes)).getD 0
  if spc = .ls then (if a + n ≤ lim then some (.ls tk a) else none)
  else if a / 2 ^ 21 ≠ 0 || lim < a % 2 ^ 19 + n then none
  else if ((m.launches.get? launch).map (·.cores)).getD 0 ≤ a / 2 ^ 19 % 4 then none
  else (m.windowTeam tk a).map fun t => .ls t (a % 2 ^ 19)

/-- The checks of one lane's access, in the order of R204. -/
def Mach.checkLane (m : Mach) (c : Issue) (k : AccSpec) (lane va : Nat) : LaneRes :=
  let last (a : LaneAcc) : LaneRes :=
    if m.rangeLocked c.core c.launch c.tk k.spc va k.size (k.write || k.atom) then .bad 5 .rangeLocked else .ok a
  if va % k.size ≠ 0 then .bad 1 .align
  else if k.spc = .va then
    match m.translateOn c.core c.asid va { write := k.write || k.atom, priv := c.priv } with
    | .bad x => .bad 3 x
    | .stall p => .stall p
    | .ok l =>
      let hbm := regionOf l.pa = .hbm
      let cache := hbm && (l.home = 0 || l.home = 2)
      if k.atom && (l.home = 3 || regionOf l.pa = .host || regionOf l.pa = .mgmt) then .bad 4 .atomicDeviceSpace
      else if k.promote && !cache then .bad 4 .atomicDeviceSpace
      else last ⟨lane, va, .dev l.pa, cache⟩
  else
    match m.lsPlace c.tk c.launch k.spc va k.size with
    | none => .bad 3 .protection
    | some p => last ⟨lane, va, p, false⟩

/-- The checks over all active lanes (R204): the first step at which a lane fails decides, with the cause of its lowest
failing lane. A replayable page is serviced where no lane fails at step 3 or before. -/
def decideLanes (scope : Option Scope) (rs : List (Nat × Nat × LaneRes)) : Except Chk (List LaneAcc) :=
  let bads := rs.filterMap fun r => match r.2.2 with
    | .bad s c => some (r.1, r.2.1, s, c)
    | _ => none
  let first := bads.foldl (fun n b => min n b.2.2.1) 9
  let stall := rs.findSome? fun r => match r.2.2 with
    | .stall p => some p
    | _ => none
  match stall, bads.find? fun b => b.2.2.1 = first with
  | some p, some b => if first ≤ 3 then .error (.fail (fault bads b)) else .error (.stall p)
  | none, some b => .error (.fail (fault bads b))
  | some p, none => .error (.stall p)
  | none, none => .ok (rs.filterMap fun r => match r.2.2 with
    | .ok a => some a
    | _ => none)
where
  /-- The fault of the lowest failing lane b, with every lane that has its cause at its step. -/
  fault (bads : List (Nat × Nat × Nat × Cause)) (b : Nat × Nat × Nat × Cause) : Fail :=
    { cause := b.2.2.2, oppos := 2, addr := .ofNat 64 b.2.1, scope := scope
      lanes := laneSet ((bads.filter fun x => x.2.2.1 = b.2.2.1 && x.2.2.2 = b.2.2.2).map (·.1)) }

/-- The checks of the accesses (lane, address) of an instruction. -/
def Mach.checkLanes (m : Mach) (c : Issue) (k : AccSpec) (scope : Option Scope) (as : List (Nat × Nat)) :
    Except Chk (List LaneAcc) :=
  decideLanes scope (as.map fun a => (a.1, a.2, m.checkLane c k a.1 a.2))

/-- The address of each active lane under R329. -/
def laneAddrs (c : Issue) (act : Lanes) (spc : Spc) (a : Reg) (off : Int) : List (Nat × Nat) :=
  (laneList act).map fun n =>
    (n, if spc = .va then (c.f.pair a.toNat n + .ofInt 64 off).toNat else (c.f.reg a.toNat n + .ofInt 32 off).toNat)

/-- Lists the translations of accesses in the TLB of the core (R202). -/
def Mach.useTlb (m : Mach) (c : Issue) (spc : Spc) (as : List LaneAcc) : Mach :=
  if spc = .va then as.foldl (fun m a => m.fillTlb c.core c.asid a.va) m else m

/-! ## Poison (R155) -/

/-- Whether bytes at a place are poisoned. -/
def Mach.poisoned (m : Mach) (p : Place) (n : Nat) : Bool :=
  match p with
  | .dev pa => (linesOf pa n).any m.poison.contains
  | .ls tk off => (m.team? tk).any fun t => (linesOf off n).any t.lsPoison.contains

/-- The record of a kill for a cause the consuming warp meets: PC, lanes and depth are those at which the warp stops (R260). -/
def Mach.stopRecord (m : Mach) (tk w : Nat) (cause : Cause) (addr : DWord) : FaultRec :=
  let (l, ix) := match m.team? tk with
    | some t => (t.launch, t.ix)
    | none => (0, 0)
  let path := (((m.warps.get? (warpKey tk w)).bind (·.task)).bind fun t => m.tasks.get? t).bind fun k =>
    k.allPaths.head?
  match path with
  | some p => ⟨cause.code, 0, false, 0, false, false, false, p.lanes, p.pc, addr, 0, l, ix, w,
      ((m.frames.get? p.frame).map (·.depth)).getD 0, 0⟩
  | none => ⟨cause.code, 0, false, 0, false, false, false, 0, 0, addr, 0, l, ix, w, 0, 0⟩

/-- A team's warp consumes poisoned bytes: its gang is to be killed (R155, R157). -/
def Mach.consume (m : Mach) (tk w : Nat) (bad : Bool) (addr : Nat) : Mach :=
  if bad then
    match m.team? tk with
    | some t => m.askKill t.launch t.gang (m.stopRecord tk w .uncorrectable (.ofNat 64 addr))
    | none => m
  else m

/-- Poison moved with data into n bytes at a place: whole lines take the state of the data, partial ones keep theirs or
become poisoned (R155). -/
def Mach.movePoison (m : Mach) (p : Place) (n : Nat) (bad : Bool) : Mach :=
  let step (off : Nat) (l : List Nat) : List Nat :=
    if bad then (linesOf off n).foldl (fun l x => insertNat x l) l
    else l.filter fun x => !(off ≤ x * 128 && x * 128 + 128 ≤ off + n)
  match p with
  | .dev pa => if n = 0 then m else { m with poison := step pa m.poison }
  | .ls tk off => if n = 0 then m else m.updTeam tk fun t => { t with lsPoison := step off t.lsPoison }

/-! ## Reads and writes at a place -/

/-- Bytes at a place as its home holds them. -/
def Mach.placeRead (m : Mach) (p : Place) (n : Nat) : List Byte :=
  match p with
  | .dev pa => m.homeRead pa n
  | .ls tk off => m.lsRead tk off n

/-- Future cells that paths wait on (R132). -/
def Mach.waitedCells (m : Mach) : List Nat :=
  m.tasks.flatMap fun t => t.2.paths.filterMap fun p => match p.st with
    | .waiting (.join cell ..) => some cell
    | _ => none

/-- A write that changes bytes of a cell with waiters zeroes its WAITHEAD in the same step (R132, R133). -/
def Mach.clearWaitheads (m : Mach) (pa n : Nat) : Mach :=
  let cells := m.waitedCells.filter fun c => c < pa + n && pa < c + 16
  { m with mem := cells.foldl (fun mem c => Memory.writeN mem (c + 10) (List.replicate 6 0)) m.mem }

/-- Writes bytes at a place: those of a peer's aperture go to it as a write (R31, R216). -/
def Mach.placeWrite (m : Mach) (p : Place) (bs : List Byte) : Mach :=
  match p, p.peer? with
  | .dev pa, some peer => { m with peerOut := m.peerOut ++ [PeerMsg.write peer pa bs false] }
  | .dev pa, none => (m.homeWrite pa bs).clearWaitheads pa bs.length
  | .ls tk off, _ => (m.lsWrite tk off bs).movePoison p bs.length false

/-- n further places of the same space. -/
def Place.plus (p : Place) (n : Nat) : Place :=
  match p with
  | .dev pa => .dev (pa + n)
  | .ls tk off => .ls tk (off + n)

/-! ## The L1D and replicas -/

/-- Bytes i to i + n − 1 of a line. -/
def lineSlice (line : List Byte) (i n : Nat) : List Byte := (line.drop i).take n

/-- Puts bytes into a list of bytes whose first stands at base, where they meet. -/
def overlay (base : Nat) (line : List Byte) (pa : Nat) (bs : List Byte) : List Byte :=
  line.zipIdx.map fun b => if pa ≤ base + b.2 && base + b.2 < pa + bs.length then bs.getD (base + b.2 - pa) b.1 else b.1

/-- Updates the L1D copies a store meets (R205). -/
def Core.l1dStore (c : Core) (pa : Nat) (bs : List Byte) : Core :=
  { c with l1d := c.l1d.mapv fun l line => overlay (l * 128) line pa bs }

/-- Removes lines from the L1D of a core. -/
def Mach.l1dDrop (m : Mach) (core : Nat) (ls : List Nat) : Mach :=
  m.updCore core fun c => { c with l1d := c.l1d.sift fun l _ => !ls.contains l, l1dKeep := c.l1dKeep.filter fun l => !ls.contains l }

/-- The line that leaves a full L1D: one whose retention no hint has raised, where there is one (R281). -/
def Mach.l1dVictim (m : Mach) (core : Nat) : Option Nat × Mach :=
  let c := m.core core
  let low := (c.l1d.map (·.1)).filter fun l => !c.l1dKeep.contains l
  m.anyOf (if low = [] then c.l1d.map (·.1) else low)

/-- Puts a line into the L1D of a core, with the stores of the core that are still in its path (R205, R206). It holds 1,024
lines: a full one loses another. -/
def Mach.l1dFill (m : Mach) (core l : Nat) (bytes : List Byte) : Mach :=
  let old := (m.core core).l1d
  let (out, m) := if (old.get? l).isSome || old.length < 1024 then (none, m) else m.l1dVictim core
  let m := match out with
    | some k => m.l1dDrop core [k]
    | none => m
  m.updCore core fun c =>
    { c with l1d := c.l1d.put l (c.stores.foldl (fun b s => match s.place with
        | .dev pa => if s.done then b else overlay (l * 128) b pa s.bytes
        | .ls .. => b) bytes) }

/-- RPLCTL of a die (R48). -/
def Mach.rplctlOf (m : Mach) (die : Nat) : Word := m.rplctl.getD die 0x9

/-- Physical address of a byte of a reduction context's buffer. -/
def bufAddr : List (Nat × Nat) → Nat → Nat
  | [], _ => 0
  | (pa, n) :: rest, off => if off < n then pa + off else bufAddr rest (off - n)

/-- Address of the slot of (team, element, contributor) (R351). -/
def RedCtx.slot (r : RedCtx) (t e k : Nat) : Nat := bufAddr r.buf ((((t - r.tlo) * r.elems + e) * r.slots + k) * 8)

/-- Places of an operation, with their bytes. -/
def OpKind.spots (k : OpKind) : List (Place × Nat) :=
  match k with
  | .resolve (some pa) .. => [(.dev pa, 16)]
  | .frecRd pa bs => [(.dev pa, bs.length)]
  | .engine e => e.rows.flatMap fun r => [(r.1, r.2.2), (r.2.1, r.2.2)]
  | .stage e => e.rows.map fun p => (p, e.rowlen)
  | .coll e => e.src ++ e.dst
  | .mma e => (e.a.toList.map fun p => (p, e.aBytes.length)) ++ e.b.toList.map fun p => (p, e.bBytes.length)
  | .purge _ rs => rs.map fun r => (.dev r.1, r.2.1)
  | k => k.ranges

/-- The places the requests of an operation go to: each line of a range that `dsc` or `cwb` names (R339, R340). -/
def OpKind.homes (k : OpKind) : List Place :=
  match k with
  | .purge _ rs => rs.flatMap fun r => (linesOf r.1 r.2.1).map fun l => .dev (l * 128)
  | k => k.spots.map (·.1)

/-- Places an operation is to write or discard, with their bytes (R45). -/
def OpKind.targets (k : OpKind) : List (Place × Nat) :=
  match k with
  | .purge true _ => k.spots
  | .engine e => e.rows.map fun r => (r.2.1, r.2.2)
  | .coll e => e.dst
  | .atomic _ => k.ranges
  | .tile t => if t.load then [] else k.ranges
  | .resolve (some pa) .. => [(.dev pa, 16)]
  | .frecRd pa bs => [(.dev pa, bs.length)]
  | _ => []

/-- The slot of contributor k to element e by a team, while its context is OPEN and has one (R351, R352). -/
def Mach.slotOf (m : Mach) (tk ctx e k : Nat) : Option Nat := do
  let t ← m.team? tk
  let l ← m.launches.get? t.launch
  let r ← l.redctx.get? ctx
  if r.st = .opened && e < r.elems && k < r.slots && r.tlo ≤ t.ix && t.ix ≤ r.thi then some (r.slot t.ix e k) else none

/-- The slot an `rdet` under way is to write. -/
def Mach.rdetSlot (m : Mach) (o : Op) : Option Nat :=
  match o.kind with
  | .rdet ctx e k .. => m.slotOf o.team ctx e k
  | _ => none

/-- Places an operation under way is to write: its own, and the slot of an `rdet` (R45, R352). -/
def Mach.targetsOf (m : Mach) (o : Op) : List (Place × Nat) :=
  o.kind.targets ++ (m.rdetSlot o).toList.map fun pa => (.dev pa, 8)

/-- Whether a write of a line is pending: a store on its way, an operation that is to write it, a peer's request (R45). -/
def Mach.writePending (m : Mach) (l : Nat) : Bool :=
  let p : Place := .dev (l * 128)
  (m.cores.any fun c => c.2.stores.any fun s => s.place.meets s.bytes.length p 128) ||
    (m.ops.any fun o => (m.targetsOf o.2).any fun r => r.1.meets r.2 p 128) ||
    m.peerIn.any fun r => r.req.writes && (r.req.ranges r.pa).any fun x => (Place.dev x.1).meets x.2 p 128

/-- Greatest number of ways per set for replicas of a die (R48): 9 to 15 act as 8. -/
def Mach.replicaWays (m : Mach) (die : Nat) : Nat := min ((m.rplctlOf die).toNat / 2 % 16) 8

/-- Whether the home of a line grants a die a replica (R45, R50, R161). -/
def Mach.grants (m : Mach) (die l : Nat) : Bool :=
  let pa := l * 128
  stackOf pa / 4 ≠ die && (m.pinAt pa).isNone && m.sliceHolds pa && !m.dirty.contains l && !m.sealed pa &&
    ((m.domainAt pa).any fun d => d.2.st = .active) && (m.rplctlOf die).getLsbD 0 && m.replicaWays die ≠ 0 &&
    !m.writePending l

/-- A die receives a replica of a line, in the slice R43 names over the union of its masks (R45): with the ways for replicas of
its set taken, another replica of the set leaves. -/
def Mach.addReplica (m : Mach) (die l : Nat) (bytes : List Byte) : Mach :=
  let slice := m.guestSlice die (l * 128)
  let peers := (m.setLines die slice l (m.replicaWays die)).filter fun k => (m.replicas.get? k).isSome
  let (out, m) := if peers.length < m.replicaWays die then (none, m) else m.anyOf (m.leastKept peers)
  let m := match out with
    | some k => m.l2Evict k
    | none => m
  let m := m.l2Fill die slice l
  if m.l2.get? (l * 4 + die) = some slice then { m with replicas := m.replicas.put (l * 4 + die) bytes } else m

/-- The replica of a line that serves a die: the one in the slice R43 names now (R45). -/
def Mach.replicaOf (m : Mach) (die l : Nat) : Option (List Byte) :=
  if m.l2.get? (l * 4 + die) = some (m.guestSlice die (l * 128)) then m.replicas.get? (l * 4 + die) else none

/-- The die's replicas of lines end: a later read of the die goes to the home (R205, R210). -/
def Mach.dropReplicas (m : Mach) (die : Nat) (ls : List Nat) : Mach :=
  let mine (k : Nat) : Bool := k % 4 = die && ls.contains (k / 4)
  { m with
    l2 := m.l2.sift fun k _ => !(mine k && (m.replicas.get? k).isSome)
    replicas := m.replicas.sift fun k _ => !mine k }

/-- Lines that an operation has read or written beyond the L1D of a core: neither the core's L1D nor a replica of its die keeps an
older copy (R205, R210). -/
def Mach.dropCopies (m : Mach) (core : Nat) (ls : List Nat) : Mach := (m.l1dDrop core ls).dropReplicas (coreDie core) ls

/-- A line read at its home for a core: the home slice holds it, the die's own replica ends, a new one may be granted, and an
L1D copy of the line takes the value (R40, R45, R205). -/
def Mach.homeLine (m : Mach) (core l : Nat) (cache fill grant : Bool) : Mach :=
  let die := coreDie core
  let bytes := m.homeRead (l * 128) 128
  let m := (m.dropReplicas die [l]).l2Home l
  let m := if cache && grant && m.grants die l then m.addReplica die l bytes else m
  let has := ((m.core core).l1d.get? l).isSome
  if cache && (has || fill) then m.l1dFill core l bytes else if has then m.l1dDrop core [l] else m

/-- Whether a place lies in a staging pool outside the buffer of the task that accesses it (R120). -/
def Mach.strayPool (m : Mach) (t : Nat) (p : Place) : Bool :=
  match p, m.tasks.get? t with
  | .ls tk off, some k =>
    let pool := ((m.launchOf tk).map (·.teamKib * 1024)).getD 0
    pool ≤ off && !(k.team = tk && k.buf.any fun b => b.1 ≤ off && off < b.1 + b.2)
  | _, _ => false

/-- A place of the staging pool of a team that the manual does not name (R120, log entry 1). -/
def Mach.anyPool (m : Mach) (tk n : Nat) : Place × Mach :=
  let l := m.launchOf tk
  let pool := (l.map (·.teamKib * 1024)).getD 0
  let lim := (l.map (·.lsBytes)).getD 0
  let (x, m) := m.takeFree
  (.ls tk (pool + Config.freeNat x % (lim - pool - n + 1)), m)

/-- Whether bytes at a place lie in the save regions or the Escapement region of the running launch of a task (R272). -/
def Mach.ownSpill (m : Mach) (t : Nat) (p : Place) (n : Nat) : Bool :=
  match p, (m.tasks.get? t).bind fun k => m.launchOf k.team with
  | .dev _, some l => l.spillSize ≠ 0 && (m.leaves l.asid l.spillBase.toNat l.spillSize).any fun x =>
      let lo := max x.va l.spillBase.toNat
      let hi := min (x.va + x.size) (l.spillBase.toNat + l.spillSize)
      p.meets n (.dev (pteAddr x.entry + (lo - x.va))) (hi - lo)
  | _, _ => false

/-- Bytes a task's own access other than a load reads at a place: those of a staging pool outside its buffer (R120), and those where
its launch's state may be saved (R272), are unspecified. -/
def Mach.taskRead (m : Mach) (t : Nat) (p : Place) (n : Nat) : List Byte × Mach :=
  let bs := m.placeRead p n
  if m.ownSpill t p n then m.takeBytes n
  else if (List.range n).any fun i => m.strayPool t (p.plus i) then
    (bs.zipIdx.map fun b => if m.strayPool t (p.plus b.2) then Config.freeByte (m.free + b.2) else b.1, { m with free := m.free + n })
  else (bs, m)

/-- Bytes a task's own access other than a store writes at a place: outside its buffer in a staging pool it alters bytes of the
pool the manual does not name (R120); what it leaves where the launch's state may be saved is unspecified (R272). -/
def Mach.taskWrite (m : Mach) (t : Nat) (p : Place) (bs : List Byte) : Mach :=
  match p with
  | .ls tk _ =>
    if (List.range bs.length).any fun i => m.strayPool t (p.plus i) then
      bs.zipIdx.foldl (fun m b =>
        if m.strayPool t (p.plus b.2) then
          let (q, m) := m.anyPool tk 1
          let (free, m) := m.takeBytes 1
          m.placeWrite q free
        else m.placeWrite (p.plus b.2) [b.1]) m
    else m.placeWrite p bs
  | .dev _ =>
    if m.ownSpill t p bs.length then
      let (free, m) := m.takeBytes bs.length
      m.placeWrite p free
    else m.placeWrite p bs

/-- Bytes at a place as a load of message n of a core finds them: stores of the core to them that came before it and are still
in the path are theirs (R206). -/
def Mach.overStores (m : Mach) (n core : Nat) (p : Place) (bs : List Byte) : List Byte :=
  (m.core core).stores.foldl (fun b s =>
    if s.done || n ≤ s.id then b
    else match p, s.place with
      | .dev pa, .dev q => overlay pa b q s.bytes
      | .ls t off, .ls u q => if t = u then overlay off b q s.bytes else b
      | _, _ => b) bs

/-- A slice of a core's die comes to hold a host line (R27, R44). -/
def Mach.holdHost (m : Mach) (core pa : Nat) : Mach :=
  let die := coreDie core
  let key := lineOf pa * 4 + die
  let m := m.l2Fill die (m.guestSlice die pa) (lineOf pa)
  if (m.l2.get? key).isSome then { m with hostLines := insertNat key m.hostLines } else m

/-- Device management space and peers aside, the bytes one access of message n reads, and the machine after it. Bytes of a
staging pool outside the task's buffer (R120), and those where the launch's state may be saved (R272), are unspecified. -/
def Mach.readFor (m : Mach) (n core : Nat) (a : LaneAcc) (size : Nat) (atHome fill : Bool) (sv : Serve) :
    List Byte × Mach :=
  match a.place with
  | .ls .. =>
    if m.strayPool (((m.ops.get? n).map (·.task)).getD 0) a.place then m.takeBytes size
    else (m.overStores n core a.place (m.placeRead a.place size), m)
  | .dev pa =>
    match regionOf pa with
    | .mgmt | .unbacked | .peer _ => m.takeBytes size
    | .host => (m.overStores n core a.place (m.homeRead pa size), if sv.grant then m.holdHost core pa else m)
    | .hbm =>
      if m.ownSpill (((m.ops.get? n).map (·.task)).getD 0) a.place size then m.takeBytes size else
      let l := lineOf pa
      let cache := a.cache && m.sliceHolds pa
      let home : List Byte × Mach := (m.homeRead pa size, m.homeLine core l cache fill sv.grant)
      let (bytes, m) :=
        if atHome || !cache then home
        else match (m.core core).l1d.get? l, m.replicaOf (coreDie core) l with
          | some line, _ => (lineSlice line (pa % 128) size, m)
          | none, some line =>
            if sv.replica then (lineSlice line (pa % 128) size, if fill then m.l1dFill core l line else m) else home
          | none, none => home
      (m.overStores n core a.place bytes, m)

/-! ## The store path (R205, R206, R215) -/

/-- Whether an access lands in the local store of the accessing team's own core. -/
def Place.own (tk : Nat) : Place → Bool
  | .ls t _ => t = tk
  | .dev _ => false

/-- The core whose mark a write of lanes of a task leaves on its lines (R215): its own, once one of them has released at `.co` or
`.wp`. -/
def Mach.relOf (m : Mach) (t core : Nat) (lanes : Lanes) : Option Nat :=
  if (m.tasks.get? t).any fun k => k.rel &&& lanes ≠ 0 then some core else none

/-- One lane's store enters the store path (R206, R333): a store to the own local store is performed at once, any other
goes to its home and counts until acknowledged. A store into a staging pool outside the task's buffer alters bytes of the
pool the manual does not name (R120); what one leaves where the launch's state may be saved is unspecified (R272). -/
def Mach.putStore (m : Mach) (c : Issue) (lane : Nat) (p : Place) (bs : List Byte) : Mach :=
  let (p, bs, m) := match p with
    | .ls tk _ =>
      if m.strayPool c.t p then
        let (q, m) := m.anyPool tk bs.length
        let (free, m) := m.takeBytes bs.length
        (q, free, m)
      else (p, bs, m)
    | .dev _ =>
      if m.ownSpill c.t p bs.length then
        let (free, m) := m.takeBytes bs.length
        (p, free, m)
      else (p, bs, m)
  if p.own c.tk then m.placeWrite p bs
  else
    let s : PStore := ⟨m.serial, c.tk, c.w, c.t, p, bs, false, m.relOf c.t c.core (laneBit lane), 0⟩
    let m := m.updCore c.core fun k =>
      let k := match p with
        | .dev pa => k.l1dStore pa bs
        | .ls .. => k
      { k with stores := k.stores ++ [s] }
    let m := m.updWarp c.tk c.w fun x => { x with unacked := x.unacked + 1 }
    let m := m.send m.serial c.core [p]
    let m := match p, p.peer? with
      | .dev pa, some peer => { m with peerOut := m.peerOut ++ [PeerMsg.write peer pa bs false] }
      | _, _ => m
    { m with serial := m.serial + 1 }

/-- Whether every store and atomic a core has issued is acknowledged (R215): the home asks for the drain as it is about to answer. -/
def Mach.drained (m : Mach) (core : Nat) : Bool :=
  (m.core core).stores.isEmpty && !(m.ops.any fun o => o.2.core = core && o.2.counted)

/-- Whether a write may replace the RELCORE marks of its lines (R215): the core named drains first, of every store it has issued. -/
def Mach.relcoreFree (m : Mach) (rel : Option Nat) (p : Place) (k : Nat) : Bool :=
  match rel, p with
  | some core, .dev pa => (linesOf pa k).all fun l => match m.relcore.get? l with
    | some other => other = core || m.drained other
    | none => true
  | _, _ => true

/-- Sets the RELCORE marks of a write (R215). -/
def Mach.markRelcore (m : Mach) (rel : Option Nat) (p : Place) (k : Nat) : Mach :=
  match rel, p with
  | some core, .dev pa =>
    if regionOf pa = .hbm then { m with relcore := (linesOf pa k).foldl (fun t l => t.put l core) m.relcore } else m
  | _, _ => m

/-- Message n brings the invalidation of the replicas of lines that a write meets to the slices that hold them (R35, R47). -/
def Mach.invalidate (m : Mach) (n : Nat) (rs : List (Place × Nat)) : Mach :=
  (m.replicas.filter fun e => rs.any fun r => r.1.meets r.2 (.dev (e.1 / 4 * 128)) 128).foldl (fun m e =>
    match m.homeSlice (e.1 / 4 * 128), m.l2.get? e.1 with
    | some (d, s), some g => m.sendMsg n false (m.sliceStop d s) (m.sliceStop (e.1 % 4) g)
    | _, _ => m) m

/-- The home of a store performs it, unless something holds it back: replicas of other dies stay until the
acknowledgement, which awaits their invalidation (R47). -/
def Mach.performStore (m : Mach) (core id : Nat) : Mach :=
  match (m.core core).stores.find? fun s => s.id = id with
  | none => m
  | some s =>
    let r := [(s.place, s.bytes.length)]
    if !s.done && !m.holds id false && m.atGate r then m.meetGate (.store core id) r
    else if s.done || s.place.peer?.isSome || !m.served id true [s.place] || m.storeBefore core id r ||
        !m.relcoreFree s.relcore s.place s.bytes.length then m
    else
      let old := m.replicas
      let m := (m.invalidate id r).placeWrite s.place s.bytes
      let m := { m with replicas := old.sift fun k _ => match s.place with
        | .dev pa => !((linesOf pa s.bytes.length).contains (k / 4) && k % 4 = coreDie core)
        | .ls .. => true }
      let m := m.markRelcore s.relcore s.place s.bytes.length
      m.updCore core fun c => { c with stores := c.stores.map fun x => if x.id = id then { x with done := true } else x }

/-- The replies of message n leave their NIs (R35, R37, R39): whether they reach the core now, and the machine with those that
a gated router of the reply mesh holds. -/
def Mach.replied (m : Mach) (n core : Nat) (ps : List Place) : Bool × Mach :=
  if m.holds n true then (false, m)
  else
    let m := m.reply n core ps
    (!m.holds n true, m)

/-- Whether what message n of a core asks of its places has come back over both meshes (R35, R39), as the staging engine waits for it. -/
def Mach.roundTrip (m : Mach) (n core : Nat) (ps : List Place) : Bool × Mach :=
  if m.holds n false then (false, m)
  else
    let m := m.send n core ps
    if m.holds n false then (false, m) else m.replied n core ps

/-- What comes between the act of the homes of message n and its end: the invalidation of the replicas its writes meet (R47), and its
replies, which a gated router of the reply mesh may hold (R35, R39). -/
def Mach.backOver (m : Mach) (n core : Nat) (ps : List Place) (rs : List (Place × Nat)) : Bool × Mach :=
  let m := m.invalidate n rs
  if m.holds n false then (false, m) else m.replied n core ps

/-- Whether operation n is still outstanding once its home has acted as `done` says: its flag is not lowered. -/
def Mach.goesOn (m done : Mach) (n : Nat) : Bool :=
  match m.ops.get? n, done.ops.get? n with
  | some a, some b => a.flag = b.flag
  | _, b => b.isSome

/-- What becomes of operation n once its home has acted as `done` says: where that is its end, what comes before it (R35, R47). -/
def Mach.crossed (m done : Mach) (n core : Nat) (ps : List Place) (rs : List (Place × Nat)) : Mach :=
  if m.goesOn done n then done
  else
    let (here, m) := m.backOver n core ps rs
    if here then done else m

/-- A store is acknowledged (R47, R205): performed, its lines' replicas invalid on every die; the acknowledgement crosses the
reply mesh, and the warp counts one less. -/
def Mach.ackStore (m : Mach) (core id : Nat) : Mach :=
  let m := m.performStore core id
  match (m.core core).stores.find? fun s => s.id = id with
  | none => m
  | some s =>
    let peerUp := s.place.peer?.any fun p => m.conn p = .up
    let (here, m) := if (s.done || peerUp) && !m.holds id false then m.replied id core [s.place] else (false, m)
    if !here then m
    else
      let m := match s.place with
        | .dev pa =>
          { m with replicas := m.replicas.sift fun k _ => !(linesOf pa s.bytes.length).contains (k / 4) }
        | .ls .. => m
      let m := m.updCore core fun c => { c with stores := c.stores.filter fun x => x.id ≠ id }
      (m.updWarp s.team s.warp fun x => { x with unacked := x.unacked - 1 }).sendDue

/-! ## Releases and acquires (R211) -/

/-- Whether a store a task issued, on this warp slot or an earlier one, is not acknowledged (R205, R271). -/
def Mach.storesOut (m : Mach) (t : Nat) : Bool :=
  (m.cores.any fun c => c.2.stores.any fun s => s.task = t) || (m.opsOf t).any fun o => o.2.counted

/-- Whether every store of the warp, and of its task, is acknowledged; one that was lost with its peer is reported (R33, R205). -/
def Mach.ackChk (m : Mach) (c : Issue) (act : Lanes) (s : Scope) : Chk :=
  if (m.tasks.get? c.t).any fun k => k.lost &&& c.p.lanes ≠ 0 then
    .fail { cause := .remoteUnavailable, lanes := act, scope := some s, lost := true }
  else if m.storesOut c.t || (m.warps.get? (warpKey c.tk c.w)).any fun x => x.unacked ≠ 0 then .wait
  else .ok

/-- Whether a release of the issuing path at a scope can be done now (R211, R33): earlier reads and tile stores of the path are
done (R206, R213); at `.cl` or wider every store of the warp, and of its task, is acknowledged. -/
def Mach.releaseChk (m : Mach) (c : Issue) (act : Lanes) (s : Scope) : Chk :=
  if m.readsOut c.t then .wait else if wide s then m.ackChk c act s else .ok

/-- A release by lanes of a task done: at `.wp` or `.co` their later writes mark their lines (R215). -/
def Mach.released (m : Mach) (t : Nat) (lanes : Lanes) (s : Scope) : Mach :=
  if wide s then m else m.updTask t fun k => { k with rel := k.rel ||| lanes }

/-- Records lanes that are marked for demotion when their path waits on the flag (R171). -/
def Mach.noteDemotion (m : Mach) (t : Nat) (flag : Option Nat) (lanes : Lanes) : Mach :=
  match flag with
  | some n => if lanes = 0 then m else
      m.updTask t fun k => { k with swapFail := k.swapFail.put n (k.swapFail.getD n 0 ||| lanes) }
  | none => m

end Sys2Proof.Machine
end

