-- ==== Sys2Proof/Machine/MemoryOps.lean ====
section
/-! DEFINITION. Loads and stores (R331-R336), prefetch and cache control (R337-R340), tiles (R341-R344). -/

namespace Sys2Proof.Machine

/-! ## Loads -/

/-- Bytes of one access of a TYPE (R332). -/
def accBytes (t : Ty) : Nat := tyWidth t / 8

/-- Scope as a fault record names it: that of an ordered access. -/
def memScope (f : MemF) : Option Scope := some f.scope

/-- Asks the peers that a message's places lie at (R31): one request to each. -/
def Mach.askPeers (m : Mach) (n : Nat) (ps : List Place) : Mach :=
  { m with peerOut := m.peerOut ++ ((ps.filterMap Place.peer?).eraseDups.map fun p => PeerMsg.request p n) }

/-- A load of `words` registers or of one value of TYPE (R333, R334): checked, then under way until it completes. -/
def Mach.load (m0 : Mach) (i : Instr) (spc : Spc) (f : MemF) (a : Reg) (off : BitVec 24) (size words : Nat) : Mach :=
  let spec : AccSpec := { spc := spc, size := size }
  let h := Instr.shape i
  m0.long i false
    (fun c act => match m0.checkLanes c spec (memScope f) (laneAddrs c act spc a off.toInt) with
      | .error r => r
      | .ok _ => .ok)
    fun c act m =>
      let as := match m0.checkLanes c spec (memScope f) (laneAddrs c act spc a off.toInt) with
        | .ok as => as
        | .error _ => []
      let m := m.useTlb c spc as
      let ps := as.map (·.place)
      let m := (m.send m.serial c.core ps).askPeers m.serial ps
      let m := if f.ord = .poll then m.noteDemotion c.t (selectFlag c.hdr h.ctl.fs) act else m
      (.load ⟨size, f.ty matches .i8 | .i16, as, Opd.base h.d, words, f.ord ≠ .none, if f.ord = .acq then some f.scope else none,
        false, f.hint, memScope f⟩, ps.foldl (fun m p => m.retain c.core f.hint p) m)

/-- Words a load writes: the value extended, or 32-bit words in order (R332). -/
def loadWords (size words : Nat) (sext : Bool) (bs : List Byte) : List Word :=
  if size < 4 then [.ofInt 32 (extBits (8 * size) sext (bytesNat bs))]
  else (List.range words).map fun i => .ofNat 32 (bytesNat ((bs.drop (4 * i)).take 4))

/-- Reads each lane's bytes for message n; those at a peer come from its reply, under the core's own stores on their way (R206). -/
def Mach.readLanes (m : Mach) (n core size : Nat) (atHome fill : Bool) (sv : Serve) :
    List LaneAcc → List Byte → List (Nat × List Byte) × Mach
  | [], _ => ([], m)
  | a :: as, reply =>
    let peer := a.place.peer?.isSome
    let (bs, m) := if peer then (m.overStores n core a.place (reply.take size), m) else m.readFor n core a size atHome fill sv
    let (rest, m) := m.readLanes n core size atHome fill sv as (if peer then reply.drop size else reply)
    ((a.lane, bs) :: rest, m)

/-- Whether a message still waits for a peer's reply. -/
def Op.awaitsPeer (o : Op) (ps : List Place) : Bool := o.reply.isNone && ps.any fun p => p.peer?.isSome

/-- A load completes (R333): in the order R210 and R334 ask for, its values are read and written. -/
def Mach.completeLoad (m : Mach) (n : Nat) (o : Op) (k : LoadK) (sv : Serve) : Mach :=
  let ps := k.lanes.map (·.place)
  let marks := k.lanes.all fun a => match a.place with
    | .dev pa => (m.relcore.get? (lineOf pa)).all m.drained
    | .ls .. => true
  if !m.served n false ps || o.awaitsPeer ps || m.overtakes o.task (some n) o.kind.ranges || (k.promote && !marks) then m
  else
    let m := m.l1dDrop o.core sv.evict
    let bad := k.lanes.filter fun a => m.poisoned a.place k.size || (o.replyBad && a.place.peer?.isSome)
    let (vs, m) := m.readLanes n o.core k.size k.atHome (k.hint ≠ .nl1) sv k.lanes (o.reply.getD [])
    let m := m.landRegs o (vs.flatMap fun v =>
      (loadWords k.size k.words k.sext v.2).zipIdx.map fun w => (k.d + w.2, v.1, w.1))
    let m := match k.acquire with
      | some s => m.acquire o.core s
      | none => m
    (m.consume o.team o.warp (bad ≠ []) ((bad.head?.map (·.va)).getD 0)).finishOp n []

/-- `ld` (R333). -/
def execLd (c : Ctl) (m : MemF) (d a : Reg) (off : BitVec 24) (s : State) : Out :=
  s.on fun k => k.load (.ld c m d a off) .va m a off (accBytes m.ty) (if m.ty.is64 then 2 else 1)

/-- `ld.x4` (R332). -/
def execLdX4 (c : Ctl) (m : MemF) (d a : Reg) (off : BitVec 24) (s : State) : Out :=
  s.on fun k => k.load (.ldX4 c m d a off) .va m a off 16 4

/-- `ldl` (R336). -/
def execLdl (c : Ctl) (m : MemF) (d a : Reg) (off : BitVec 24) (s : State) : Out :=
  s.on fun k => k.load (.ldl c m d a off) .ls m a off (accBytes m.ty) (if m.ty.is64 then 2 else 1)

/-- `ldl.x4` (R336). -/
def execLdlX4 (c : Ctl) (m : MemF) (d a : Reg) (off : BitVec 24) (s : State) : Out :=
  s.on fun k => k.load (.ldlX4 c m d a off) .ls m a off 16 4

/-- `ldw` (R336). -/
def execLdw (c : Ctl) (m : MemF) (d a : Reg) (off : BitVec 24) (s : State) : Out :=
  s.on fun k => k.load (.ldw c m d a off) .cw m a off (accBytes m.ty) (if m.ty.is64 then 2 else 1)

/-- `ldw.x4` (R336). -/
def execLdwX4 (c : Ctl) (m : MemF) (d a : Reg) (off : BitVec 24) (s : State) : Out :=
  s.on fun k => k.load (.ldwX4 c m d a off) .cw m a off 16 4

/-! ## Stores -/

/-- Stores of several lanes enter the store path in ascending lane order (R206, R333). -/
def Mach.putStores (m : Mach) (c : Issue) : List (Nat × Place × List Byte) → Mach
  | [] => m
  | (lane, p, bs) :: rest => (m.putStore c lane p bs).putStores c rest

/-- What a checked access still waits for before its stores can enter the path (R205, R210, R211). -/
def Mach.storeChk (m : Mach) (c : Issue) (act : Lanes) (f : MemF) (size : Nat) (as : List LaneAcc) : Chk :=
  if m.overtakes c.t none (as.map fun a => (a.place, size)) then .wait
  else if f.ord = .rel then m.releaseChk c act f.scope
  else .ok

/-- A store of one value per lane (R333, R334). -/
def Mach.store (m0 : Mach) (i : Instr) (spc : Spc) (f : MemF) (a : Reg) (off : BitVec 24) : Mach :=
  let size := accBytes f.ty
  let spec : AccSpec := { spc := spc, size := size, write := true }
  m0.act i
    (fun c act => match m0.checkLanes c spec (memScope f) (laneAddrs c act spc a off.toInt) with
      | .error r => r
      | .ok as => m0.storeChk c act f size as)
    fun c act m =>
      match m0.checkLanes c spec (memScope f) (laneAddrs c act spc a off.toInt) with
      | .ok as =>
        let m := if f.ord = .rel then m.released c.t act f.scope else m
        (as.foldl (fun m x => m.retain c.core f.hint x.place) (m.useTlb c spc as)).putStores c
          (as.map fun x => (x.lane, x.place, natBytes size (Opd.val c.f (Instr.shape i).b x.lane).toNat))
      | .error _ => m

/-- `st` (R333). -/
def execSt (c : Ctl) (m : MemF) (a b : Reg) (off : BitVec 24) (s : State) : Out :=
  s.on fun k => k.store (.st c m a b off) .va m a off

/-- `stl` (R336). -/
def execStl (c : Ctl) (m : MemF) (a b : Reg) (off : BitVec 24) (s : State) : Out :=
  s.on fun k => k.store (.stl c m a b off) .ls m a off

/-- `stw` (R336). -/
def execStw (c : Ctl) (m : MemF) (a b : Reg) (off : BitVec 24) (s : State) : Out :=
  s.on fun k => k.store (.stw c m a b off) .cw m a off

/-! ## Prefetch and cache control -/

/-- The line of an address is fetched to the slice that holds it (R337): its home slice, for host memory a slice of the core's
die (R27). -/
def Mach.fetchLine (m : Mach) (core pa : Nat) : Mach :=
  if m.placeWaits false (.dev pa) then m
  else match regionOf pa with
    | .hbm => m.l2Home (lineOf pa)
    | .host => m.holdHost core pa
    | _ => m

/-- `pf` (R337): the line of each lane is fetched to its home and, with no hint or `.ro`, filled into the L1D where it may stand
there. -/
def execPf (c : Ctl) (hint : Hint) (a : Reg) (off : BitVec 24) (s : State) : Out :=
  s.on fun k => k.act (.pf c hint a off) (fun _ _ => .ok) fun x act m =>
    (laneAddrs x act .va a off.toInt).foldl (fun m l =>
      match m.translateOn x.core x.asid l.2 { priv := x.priv } with
      | .ok t =>
        let n := lineOf t.pa
        let m := (m.fetchLine x.core t.pa).retain x.core hint (.dev t.pa)
        if (hint = .none || hint = .ro) && regionOf t.pa = .hbm && (t.home = 0 || t.home = 2) && m.sliceHolds t.pa &&
            !m.poison.contains n && ((m.core x.core).l1d.get? n).isNone && !m.placeWaits false (.dev t.pa) then
          m.homeLine x.core n true true false
        else m
      | _ => m) m

/-- `pft` (R337): each line of the footprint of R220 that lies in the base's page is fetched to its home. -/
def execPft (c : Ctl) (hint : Hint) (a b : Reg) (rowsM1 : BitVec 6) (rowb : BitVec 4) (s : State) : Out :=
  s.on fun k => k.act (.pft c hint a b rowsM1 rowb) (fun _ _ => .ok) fun x act m =>
    let base := (x.f.pair a.toNat (lowLane act)).toNat
    let stride := (x.f.reg b.toNat (lowLane act)).toNat
    match m.translateOn x.core x.asid base { priv := x.priv } with
    | .ok l =>
      let page := l.pa - base % l.size
      let foot := rowsM1.toNat * stride + 16 * (rowb.toNat + 1)
      (linesOf (base % l.size) (min foot (l.size - base % l.size))).foldl (fun m n =>
        (m.fetchLine x.core (page + n * 128)).retain x.core hint (.dev (page + n * 128))) m
    | _ => m

/-- `dcinv` (R338). -/
def execDcinv (c : Ctl) (s : State) : Out :=
  s.on fun k => k.act (.dcinv c) (fun _ _ => .ok) fun x _ m => m.updCore x.core fun r => { r with l1d := [] }

/-- `icinv` (R338). -/
def execIcinv (c : Ctl) (s : State) : Out :=
  s.on fun k => k.act (.icinv c) (fun _ _ => .ok) fun x _ m => m.updCore x.core fun r => { r with icache := [] }

/-- The pages n bytes from va touch, as (address, bytes) in ascending order; unmapped space counts in 64 KiB pages. -/
def Mach.pagesOf (m : Mach) (asid : Nat) : Nat → Nat → Nat → List (Nat × Nat)
  | 0, _, _ => []
  | fuel + 1, va, n =>
    if n = 0 then []
    else
      let size := match m.walk asid va with
        | .leaf _ _ size => size
        | .none => 2 ^ 16
      let k := min n (size - va % size)
      (va, k) :: m.pagesOf asid fuel (va + k) (n - k)

/-- The checks of `dsc` and `cwb` on their range (R339, R340): the cause of the first page that fails at step 3, a page to
fill, or RANGE_LOCKED; else the physical ranges with their CMP attribute. Management space is PROTECTION for `dsc`, PRIV for
`cwb` (log entry 18). -/
def Mach.rangeChk (m : Mach) (c : Issue) (act : Lanes) (start len : Nat) (discard : Bool) :
    Except Chk (List (Nat × Nat × Bool)) :=
  let fail (k : Cause) (va : Nat) : Except Chk (List (Nat × Nat × Bool)) :=
    .error (.fail { cause := k, oppos := 2, lanes := act, addr := .ofNat 64 va })
  let rs := (m.pagesOf c.asid (len / 2 ^ 16 + 2) start len).map fun p =>
    (p, m.translateOn c.core c.asid p.1 { write := discard, priv := c.priv })
  let refused (l : Loc) : Bool := discard && (regionOf l.pa ≠ .hbm || l.home = 1 || (m.pinAt l.pa).any (·.inLs))
  let bad := rs.findSome? fun r => match r.2 with
    | .bad k => some (if discard && k = .priv then .protection else k, r.1.1)
    | .ok l => if refused l then some (Cause.protection, r.1.1) else none
    | .stall _ => none
  if start % 128 ≠ 0 || len % 128 ≠ 0 then fail .align start
  else match bad with
    | some (k, va) => fail k va
    | none =>
      match rs.findSome? fun r => match r.2 with
        | .stall p => some p
        | _ => none with
      | some p => .error (.stall p)
      | none =>
        if len ≠ 0 && m.rangeLocked c.core c.launch c.tk .va start len discard then fail .rangeLocked start
        else .ok (rs.filterMap fun r => match r.2 with
          | .ok l =>
            if discard || (regionOf l.pa = .hbm && (l.home = 0 || l.home = 2)) || regionOf l.pa = .host then
              some (l.pa, r.1.2, l.cmp)
            else none
          | _ => none)

/-- `dsc` and `cwb` (R339, R340): a range of lines goes to the L2 slices, which report when it is done. -/
def Mach.purge (m0 : Mach) (i : Instr) (discard : Bool) : Mach :=
  let args (c : Issue) (act : Lanes) : Nat × Nat :=
    let v := argsOf c.f (Instr.shape i) (lowLane act)
    (v.a.toNat, v.b.toNat)
  m0.long i false
    (fun c act => match m0.rangeChk c act (args c act).1 (args c act).2 discard with
      | .error r => r
      | .ok _ => .ok)
    fun c act m => (.purge discard (match m0.rangeChk c act (args c act).1 (args c act).2 discard with
      | .ok rs => rs
      | .error _ => []), m)

/-- Bytes of a range become unspecified (R76, log entry 1): clean in no slice, in no replica. -/
def Mach.forget (m : Mach) (pa n : Nat) : Mach :=
  let (bs, m) := m.takeBytes n
  let ls := linesOf pa n
  { m with
    mem := Memory.writeN m.mem pa bs
    dirty := m.dirty.filter fun l => !ls.contains l
    l2 := m.l2.sift fun k _ => !ls.contains (k / 4)
    replicas := m.replicas.sift fun k _ => !ls.contains (k / 4) }

/-- Writes back the dirty lines of a range (R340): each stays valid and is clean; its block is stored anew (R53). -/
def Mach.writeBack (m : Mach) (pa n : Nat) (cmp : Bool) : Mach :=
  let ls := (linesOf pa n).filter m.dirty.contains
  let m := { m with dirty := m.dirty.filter fun l => !ls.contains l }
  ((ls.map (· / 4)).eraseDups).foldl (fun m b => m.packBlock b cmp) m

/-- `dsc` or `cwb` completes. -/
def Mach.completePurge (m : Mach) (n : Nat) (discard : Bool) (rs : List (Nat × Nat × Bool)) : Mach :=
  (rs.foldl (fun m r => if discard then m.forget r.1 r.2.1 else m.writeBack r.1 r.2.1 r.2.2) m).finishOp n []

/-- `dsc` (R339). -/
def execDsc (c : Ctl) (a b : Reg) (s : State) : Out := s.on fun k => k.purge (.dsc c a b) true

/-- `cwb` (R340). -/
def execCwb (c : Ctl) (a b : Reg) (s : State) : Out := s.on fun k => k.purge (.cwb c a b) false

/-! ## Tiles -/

/-- A tile as its instruction gives it: rows, row length, stride (R341). -/
def tileDims (t : TileF) (c : Issue) (lane : Nat) : Nat × Nat × Nat :=
  match t.shape with
  | .imm rowsM1 rowb stride => (rowsM1.toNat + 1, 16 * (rowb.toNat + 1), stride.toNat)
  | .reg cr xr =>
    let v := (c.f.reg cr.toNat lane).toNat
    (v % 2 ^ 8, v / 2 ^ 8 % 2 ^ 10, (c.f.reg xr.toNat lane).toNat)

/-- Whether a shape obeys R220. -/
def tileShapeOk (rows rowlen stride : Nat) : Bool :=
  1 ≤ rows && rows ≤ 64 && 16 ≤ rowlen && rowlen ≤ 256 && rowlen % 16 = 0 && (rows = 1 || rowlen ≤ stride)

/-- The checks of a tile access (R342), or the tile as it goes under way. -/
def Mach.tileChk (m : Mach) (c : Issue) (act : Lanes) (t : TileF) (load : Bool) (a b : Reg) : Except Chk TileK :=
  let lane := lowLane act
  let (rows, rowlen, stride) := tileDims t c lane
  let base := if t.space = .va then (c.f.pair a.toNat lane).toNat else (c.f.reg a.toNat lane).toNat
  let packed := (c.f.reg b.toNat lane).toNat
  let foot := (rows - 1) * stride + rowlen
  let fail (k : Cause) (pos addr : Nat) : Except Chk TileK :=
    .error (.fail { cause := k, oppos := pos, lanes := act, addr := .ofNat 64 addr, scope := some t.scope })
  let lim := ((m.launches.get? c.launch).map (·.lsBytes)).getD 0
  let tr := m.translateOn c.core c.asid base { write := !load, priv := c.priv }
  let crosses := t.space = .va && match m.translateOn c.core c.asid base { priv := c.priv } with
    | .ok l => l.size < base % l.size + foot
    | _ => false
  let starts := (List.range rows).map fun i => base + i * stride
  let locked := (starts.any fun r => m.rangeLocked c.core c.launch c.tk t.space r rowlen (!load))
  let last (p : Place) : Except Chk TileK :=
    if locked then fail .rangeLocked 2 base
    else if m.rangeLocked c.core c.launch c.tk .ls packed (rows * rowlen) load then fail .rangeLocked 3 packed
    else .ok ⟨load, rowlen, (List.range rows).map fun i => p.plus (i * stride), c.tk, packed, none, [], some t.scope⟩
  if packed % 16 ≠ 0 then fail .align 3 packed
  else if !tileShapeOk rows rowlen stride || crosses then fail .tileSpan 2 base
  else if t.space = .va then
    match tr with
    | .bad k => fail k 2 base
    | .stall p => if lim < packed + rows * rowlen then fail .protection 3 packed else .error (.stall p)
    | .ok l =>
      if lim < packed + rows * rowlen then fail .protection 3 packed
      else if regionOf l.pa = .host || regionOf l.pa = .mgmt then fail .atomicDeviceSpace 2 base
      else match starts.find? fun r => m.freedIn (l.pa + (r - base)) rowlen with
        | some r => fail .protection 2 r
        | none => last (.dev l.pa)
  else match m.lsPlace c.tk c.launch t.space base foot with
    | none => fail .protection 2 base
    | some p => if lim < packed + rows * rowlen then fail .protection 3 packed else last p

/-- Rows of a packed tile, cut from its bytes. -/
def rowsOf (rowlen : Nat) (bs : List Byte) (n : Nat) : List (List Byte) :=
  (List.range n).map fun i => (bs.drop (i * rowlen)).take rowlen

/-- `tld` and `tst` (R343): checked, then under way as one access. -/
def Mach.tile (m0 : Mach) (i : Instr) (t : TileF) (load : Bool) (a b : Reg) : Mach :=
  m0.long i (!load)
    (fun c act => match m0.tileChk c act t load a b with
      | .error r => r
      | .ok _ => .ok)
    fun c act m =>
      match m0.tileChk c act t load a b with
      | .error _ => (.purge false [], m)
      | .ok k =>
        let m := k.rows.foldl (fun m p => m.retain c.core t.hint p) ((m.send m.serial c.core k.rows).askPeers m.serial k.rows)
        let (bytes, m) := m.taskRead c.t (.ls k.team k.packed) (k.rows.length * k.rowlen)
        let out := if load then [] else (k.rows.zip (rowsOf k.rowlen bytes k.rows.length)).filterMap fun r =>
          match r.1, r.1.peer? with
          | .dev pa, some p => some (PeerMsg.write p pa r.2 false)
          | _, _ => none
        (.tile k, { m with peerOut := m.peerOut ++ out })

/-- Destination bytes of a tile access that its source overlaps in one space are unspecified (R344, log entry 1). -/
def Mach.blur (m : Mach) (dst : Place) (n : Nat) (srcs : List (Place × Nat)) : Mach :=
  (List.range n).foldl (fun m i =>
    if srcs.any fun s => (dst.plus i).meets 1 s.1 s.2 then
      let (bs, m) := m.takeBytes 1
      m.placeWrite (dst.plus i) bs
    else m) m

/-- The bytes of the rows of a tile, as an access of a task reads them. -/
def Mach.rowsRead (m : Mach) (t rowlen : Nat) : List Place → List Byte × Mach
  | [] => ([], m)
  | p :: ps =>
    let (a, m) := m.taskRead t p rowlen
    let (b, m) := m.rowsRead t rowlen ps
    (a ++ b, m)

/-- Whether a tile access may be performed now: its places are served, earlier accesses of its task and stores of its core to its
bytes are done, lines that another core's release marks are free (R210, R215, R223). -/
def Mach.tileMay (m : Mach) (n : Nat) (o : Op) (k : TileK) : Bool :=
  let rel := if k.load then none else m.relOf o.task o.core o.lanes
  m.served n (!k.load) (.ls k.team k.packed :: k.rows) && !o.awaitsPeer k.rows && !m.overtakes o.task (some n) o.kind.ranges &&
    !m.storeBefore o.core n (k.rows.map fun p => (p, k.rowlen)) && k.rows.all fun p => m.relcoreFree rel p k.rowlen

/-- The bytes a tile load has read. -/
def OpKind.tileImage (k : OpKind) : Option (List Byte) :=
  match k with
  | .tile t => t.image
  | _ => none

/-- Bytes of packed rows. -/
def TileK.bytes (k : TileK) : Nat := k.rows.length * k.rowlen

/-- The footprint of a tile (R220): from the first byte of its first row to the last byte of its last. -/
def TileK.foot (k : TileK) : List (Place × Nat) :=
  match k.rows.head?, k.rows.getLast? with
  | some (.dev a), some (.dev b) => [(.dev a, b - a + k.rowlen)]
  | some (.ls t a), some (.ls _ b) => [(.ls t a, b - a + k.rowlen)]
  | _, _ => []

/-- A tile load reads its tile whole, with the lines locked at their homes (R222, R223), where it may and has not done so: the die's
replicas of the lines and L1D copies of them end, and poisoned bytes count as consumed (R155). -/
def Mach.readTile (m : Mach) (n : Nat) (o : Op) (k : TileK) : Mach :=
  if k.image.isSome || !m.tileMay n o k then m
  else
    let bad := o.replyBad || k.rows.any fun p => m.poisoned p k.rowlen
    let lines := k.rows.flatMap fun p => match p with
      | .dev pa => linesOf pa k.rowlen
      | .ls .. => []
    let (bytes, m) := match o.reply with
      | some bs => (bs, m)
      | none => m.rowsRead o.task k.rowlen k.rows
    let m := m.dropCopies o.core lines
    (m.consume o.team o.warp bad 0).updOp n fun o => { o with kind := .tile { k with image := some bytes } }

/-- Unit u of the packed rows is moved early: a tile load that has read its tile writes it, a tile store reads it (R344). -/
def Mach.tileUnit (m : Mach) (n u : Nat) (o : Op) (k : TileK) : Mach :=
  let place : Place := .ls k.team (k.packed + 8 * u)
  if k.bytes ≤ 8 * u || (k.units.map (·.1)).contains u || !m.served n k.load [place] || m.overtakes o.task (some n) [(place, 8)] then m
  else
    let moved (m : Mach) (bs : List Byte) : Mach :=
      m.updOp n fun o => { o with kind := .tile { k with units := (u, bs) :: k.units } }
    match k.load, k.image with
    | true, none => m
    | true, some bytes => moved (m.taskWrite o.task place (lineSlice bytes (8 * u) 8)) []
    | false, _ =>
      if k.rows.any fun p => p.peer?.isSome then m
      else
        let (bs, m) := m.taskRead o.task place 8
        moved m bs

/-- Writes the units of a tile load's packed rows that have not been written (R343, R344). -/
def Mach.packTile (m : Mach) (t : Nat) (k : TileK) (bytes : List Byte) : Mach :=
  if k.units = [] then m.taskWrite t (.ls k.team k.packed) bytes
  else ((List.range (k.bytes / 8)).filter fun u => !(k.units.map (·.1)).contains u).foldl
    (fun m u => m.taskWrite t (.ls k.team (k.packed + 8 * u)) (lineSlice bytes (8 * u) 8)) m

/-- A tile access is performed and completes (R343): a load's packed rows hold the tile's bytes; a store writes its tile whole, with
the lines locked at their homes (R222, R223), from packed rows whose units were read at some time since its issue. -/
def Mach.completeTile (m : Mach) (n : Nat) (o : Op) (k : TileK) : Mach :=
  let packed : Place := .ls k.team k.packed
  if k.load then
    let m := m.readTile n o k
    match ((m.ops.get? n).bind fun o => o.kind.tileImage) with
    | some bytes =>
      if m.served n true [packed] then
        ((m.packTile o.task k bytes).blur packed k.bytes k.foot).finishOp n []
      else m
    | none => m
  else if !m.tileMay n o k then m
  else
    let rel := m.relOf o.task o.core o.lanes
    let (rest, m) := m.taskRead o.task packed k.bytes
    let bytes := k.units.foldl (fun bs u => overlay 0 bs (8 * u.1) u.2) rest
    let m := (k.rows.zip (rowsOf k.rowlen bytes k.rows.length)).foldl (fun m r =>
      if r.1.peer?.isSome then m
      else
        let m := (m.taskWrite o.task r.1 r.2).markRelcore rel r.1 r.2.length
        let m := match r.1 with
          | .dev pa => m.updCore o.core fun c => c.l1dStore pa r.2
          | .ls .. => m
        m.blur r.1 r.2.length [(packed, k.bytes)]) m
    m.finishOp n []

/-- `tld` (R343). -/
def execTld (c : Ctl) (t : TileF) (a b : Reg) (s : State) : Out := s.on fun k => k.tile (.tld c t a b) t true a b

/-- `tst` (R343). -/
def execTst (c : Ctl) (t : TileF) (a b : Reg) (s : State) : Out := s.on fun k => k.tile (.tst c t a b) t false a b

end Sys2Proof.Machine
end

