-- ==== Sys2Proof/Machine/Atomics.lean ====
section
/-! DEFINITION. Atomics (R345-R348) and deterministic reductions (R349-R354, R245). -/

namespace Sys2Proof.Machine

/-! ## Atomics -/

/-- op(old, b) of R346 with c for `acas`: the value to write, none where a compare fails, and the FPSTAT bits. -/
def AtomFn.apply (fn : AtomFn) (size : Nat) (old b c : Nat) : Option Nat × Word :=
  let w := 2 ^ (8 * size)
  let less (signed : Bool) (x y : Nat) : Bool := extBits (8 * size) signed x < extBits (8 * size) signed y
  match fn with
  | .add => (some ((old + b) % w), 0)
  | .min s => (some (if less s b old then b else old), 0)
  | .max s => (some (if less s old b then b else old), 0)
  | .log .and => (some (old &&& b), 0)
  | .log .or => (some (old ||| b), 0)
  | .log .xor => (some (old ^^^ b), 0)
  | .xchg => (some b, 0)
  | .cas => (if old = b then some c else none, 0)
  | .fadd r => let x := f32.add r (f32.num old) (f32.num b); (some x.bits, x.fp.word)
  | .fmin => let x := f32.minmax false old b; (some x.bits, x.fp.word)
  | .fmax => let x := f32.minmax true old b; (some x.bits, x.fp.word)

/-- An atomic (R346, R347): checked, its release done, then under way until its lanes are performed. -/
def Mach.atomic (m0 : Mach) (i : Instr) (f : AtomF) (fn : AtomFn) (a : Reg) (off : Int) : Mach :=
  let size := accBytes f.ty
  let spec : AccSpec := { spc := f.space, size := size, write := true, atom := true }
  let h := Instr.shape i
  m0.long i true
    (fun c act => match m0.checkLanes c spec (some f.scope) (laneAddrs c act f.space a off) with
      | .error r => r
      | .ok _ => if f.ord = .rel then m0.releaseChk c act f.scope else .ok)
    fun c act m =>
      let as := match m0.checkLanes c spec (some f.scope) (laneAddrs c act f.space a off) with
        | .ok as => as
        | .error _ => []
      let m := if f.ord = .rel then m.released c.t act f.scope else m
      let ps := as.map (·.place)
      let m := ((m.useTlb c f.space as).send m.serial c.core ps).askPeers m.serial ps
      (.atomic ⟨fn, size, as.map fun x => ⟨x, Opd.val c.f h.b x.lane, Opd.val c.f h.c x.lane⟩,
        if f.nr then none else some (Opd.base h.d), if f.ord = .acq then some f.scope else none, some f.scope⟩, m)

/-- Performs an atomic's lanes in ascending order (R225, R346): each lane's old value, the lanes whose compare failed, and
the FPSTAT bits. The old value of a lane at a peer comes from its reply. -/
def Mach.atomLanes (m : Mach) (t core size : Nat) (fn : AtomFn) (rel : Option Nat) :
    List AtomLane → List Byte → List (Nat × Nat) × List Nat × Word × Mach
  | [], _ => ([], [], 0, m)
  | a :: as, reply =>
    let peer := a.acc.place.peer?.isSome
    let (bs, m) := if peer then (reply.take size, m) else m.taskRead t a.acc.place size
    let old := bytesNat bs
    let (new, fp) := AtomFn.apply fn size old a.b.toNat a.c.toNat
    let m := match new with
      | some v => if peer then m else
          (m.taskWrite t a.acc.place (natBytes size v)).markRelcore rel a.acc.place size
      | none => m
    let m := match a.acc.place with
      | .dev pa => m.dropCopies core [lineOf pa]
      | .ls .. => m
    let (olds, failed, fp', m) := m.atomLanes t core size fn rel as (if peer then reply.drop size else reply)
    ((a.acc.lane, old) :: olds, if new.isNone then a.acc.lane :: failed else failed, fp ||| fp', m)

/-- An atomic is performed and completes (R346). -/
def Mach.completeAtomic (m : Mach) (n : Nat) (o : Op) (k : AtomK) : Mach :=
  let ps := k.lanes.map (·.acc.place)
  let rs := ps.map fun p => (p, k.size)
  let rel := m.relOf o.task o.core o.lanes
  if !m.served n true ps || o.awaitsPeer ps || m.overtakes o.task (some n) rs || m.storeBefore o.core n rs ||
      !(ps.all fun p => m.relcoreFree rel p k.size) then m
  else
    let bad : List AtomLane := k.lanes.filter fun a => m.poisoned a.acc.place k.size || (o.replyBad && a.acc.place.peer?.isSome)
    let r := m.atomLanes o.task o.core k.size k.fn rel k.lanes (o.reply.getD [])
    let olds : List (Nat × Nat) := r.1
    let failed : List Nat := r.2.1
    let fp : Word := r.2.2.1
    let m : Mach := r.2.2.2
    let m : Mach := match k.d with
      | some d => m.landRegs o (olds.flatMap fun v =>
          (loadWords k.size (k.size / 4) false (natBytes k.size v.2)).zipIdx.map fun w => (d + w.2, v.1, w.1))
      | none => m
    let m := if o.gone then m else (m.orFpstat o.task fp).noteDemotion o.task o.flag (laneSet failed)
    let m : Mach := match k.acquire with
      | some s => m.acquire o.core s
      | none => m
    (m.consume o.team o.warp (bad ≠ []) ((bad.head?.map (·.acc.va)).getD 0)).finishOp n []

/-- `aadd` (R346). -/
def execAadd (c : Ctl) (m : AtomF) (d a b : Reg) (off : BitVec 20) (s : State) : Out :=
  s.on fun k => k.atomic (.aadd c m d a b off) m .add a off.toInt

/-- `amin` (R346). -/
def execAmin (c : Ctl) (m : AtomF) (d a b : Reg) (off : BitVec 20) (s : State) : Out :=
  s.on fun k => k.atomic (.amin c m d a b off) m (.min (tySigned m.ty)) a off.toInt

/-- `amax` (R346). -/
def execAmax (c : Ctl) (m : AtomF) (d a b : Reg) (off : BitVec 20) (s : State) : Out :=
  s.on fun k => k.atomic (.amax c m d a b off) m (.max (tySigned m.ty)) a off.toInt

/-- `alog` (R346). -/
def execAlog (c : Ctl) (op : LogOp) (m : AtomF) (d a b : Reg) (off : BitVec 20) (s : State) : Out :=
  s.on fun k => k.atomic (.alog c op m d a b off) m (.log op) a off.toInt

/-- `axchg` (R346). -/
def execAxchg (c : Ctl) (m : AtomF) (d a b : Reg) (off : BitVec 20) (s : State) : Out :=
  s.on fun k => k.atomic (.axchg c m d a b off) m .xchg a off.toInt

/-- `acas` (R346). -/
def execAcas (c : Ctl) (m : AtomF) (d a b e : Reg) (off : BitVec 32) (s : State) : Out :=
  s.on fun k => k.atomic (.acas c m d a b e off) m .cas a off.toInt

/-- `afadd` (R348). -/
def execAfadd (c : Ctl) (rnd : Rnd) (m : AtomF) (d a b : Reg) (off : BitVec 20) (s : State) : Out :=
  s.on fun k => k.atomic (.afadd c rnd m d a b off) m (.fadd rnd) a off.toInt

/-- `afmin` (R348). -/
def execAfmin (c : Ctl) (m : AtomF) (d a b : Reg) (off : BitVec 20) (s : State) : Out :=
  s.on fun k => k.atomic (.afmin c m d a b off) m .fmin a off.toInt

/-- `afmax` (R348). -/
def execAfmax (c : Ctl) (m : AtomF) (d a b : Reg) (off : BitVec 20) (s : State) : Out :=
  s.on fun k => k.atomic (.afmax c m d a b off) m .fmax a off.toInt

/-! ## Reduction contexts -/

/-- Operator of a reduction node as a lane reduction names it. -/
def SumOp.redOp (o : Sys2Proof.SumOp) : RedOp :=
  match o with
  | .add => .add
  | .min => .min
  | .max => .max

/-- A value as the nodes of a reduction combine it: BF16 widened exactly (R352). -/
def redWiden (t : Ty) (v : Word) : Word := if t = .bf16 then v <<< 16 else v

/-- The node function of a reduction in FP32 or integers (R60, R352). -/
def redFn (op : SumOp) (t : Ty) : Word → Word → FRes := redNode (SumOp.redOp op) (if t = .bf16 then .f32 else t) .rne

/-- Bytes of an element of a reduction (R350). -/
def redSize (t : Ty) : Nat := if t = .bf16 then 2 else 4

/-- Pairs neighbours, level by level, until one value is left (R60). -/
def pairTree (f : Word → Word → FRes) (xs : List Word) : Option Word :=
  ((List.range 10).foldl (fun (p : List (Option Word)) _ => (pairUp f p 0).1) (xs.map some)).head?.join

/-- Fields of an `rctx` from its registers (R350). -/
structure RctxArgs where
  dst : Nat
  buf : Nat
  tlo : Nat
  thi : Nat
  elems : Nat
  slots : Nat
  deriving DecidableEq, Repr

/-- The fields of an `rctx` (R350). -/
def rctxArgs (v : Args) : RctxArgs :=
  let c := v.c.toNat
  ⟨v.a.toNat, v.b.toNat, c % 2 ^ 8, c / 2 ^ 8 % 2 ^ 8, c / 2 ^ 16 % 2 ^ 6 + 1, c / 2 ^ 22 % 2 ^ 6 + 1⟩

/-- Bytes of the reduction buffer (R351). -/
def RctxArgs.bufBytes (r : RctxArgs) : Nat := (r.thi + 1 - r.tlo) * r.elems * r.slots * 8

/-- The checks of `rctx` (R350), or the physical ranges of destination and buffer. -/
def Mach.rctxChk (m : Mach) (c : Issue) (act : Lanes) (t : Ty) (scope : Scope) (r : RctxArgs) :
    Except Chk (List (Nat × Nat) × List (Nat × Nat)) :=
  let fail (k : Cause) (pos va : Nat) : Except Chk (List (Nat × Nat) × List (Nat × Nat)) :=
    .error (.fail { cause := k, oppos := pos, lanes := act, addr := .ofNat 64 va, scope := some scope })
  let size := redSize t
  let pages (pos va n : Nat) : List (Nat × (Nat × Nat) × Trans) := (m.pagesOf c.asid (n / 2 ^ 16 + 2) va n).map fun p =>
    (pos, p, m.translateOn c.core c.asid p.1 { write := true, priv := c.priv })
  let dst := pages 2 r.dst (r.elems * size)
  let rs := dst ++ pages 3 r.buf r.bufBytes
  let bad := rs.findSome? fun x => match x.2.2 with
    | .bad k => some (k, x.1, x.2.1.1)
    | _ => none
  let stall := rs.findSome? fun x => match x.2.2 with
    | .stall p => some p
    | _ => none
  let dev := rs.find? fun x => match x.2.2 with
    | .ok l => l.home = 3 || regionOf l.pa = .host || regionOf l.pa = .mgmt
    | _ => false
  let phys (xs : List (Nat × (Nat × Nat) × Trans)) : List (Nat × Nat) := xs.filterMap fun x => match x.2.2 with
    | .ok l => some (l.pa, x.2.1.2)
    | _ => none
  if r.dst % size ≠ 0 then fail .align 2 r.dst
  else if r.buf % 8 ≠ 0 then fail .align 3 r.buf
  else if 1 < dst.length then fail .protection 2 r.dst
  else match bad, stall, dev with
    | some (k, pos, va), _, _ => fail k pos va
    | none, some p, _ => .error (.stall p)
    | none, none, some x => fail .atomicDeviceSpace x.1 x.2.1.1
    | none, none, none =>
      if m.rangeLocked c.core c.launch c.tk .va r.dst (r.elems * size) true then fail .rangeLocked 2 r.dst
      else if r.bufBytes ≠ 0 && m.rangeLocked c.core c.launch c.tk .va r.buf r.bufBytes true then fail .rangeLocked 3 r.buf
      else .ok (phys dst, phys (rs.drop dst.length))

/-- Roots of a context still on their way to a peer have no part in one opened anew (R350). -/
def Mach.dropRoots (m : Mach) (ln ctx : Nat) : Mach :=
  { m with ops := m.ops.sift fun _ o => match o.kind with
    | .combine l c _ => !(l = ln && c = ctx)
    | _ => true }

/-- `rctx` (R350): opens a context, or says why not. -/
def execRctx (c : Ctl) (op : SumOp) (t : Ty) (scope : Scope) (ctx : BitVec 4) (d a b e : Reg) (s : State) : Out :=
  s.on fun m0 =>
    let i : Instr := .rctx c op t scope ctx d a b e
    let args (x : Issue) (act : Lanes) : RctxArgs := rctxArgs (argsOf x.f (Instr.shape i) (lowLane act))
    m0.act i
      (fun x act => match m0.rctxChk x act t scope (args x act) with
        | .error r => r
        | .ok _ => .ok)
      fun x act m =>
        let r := args x act
        match m.launches.get? x.launch, m0.rctxChk x act t scope r with
        | some l, .ok (dst, buf) =>
          let isOpen := (l.redctx.get? ctx.toNat).any fun k => k.st = .opened
          let status := if isOpen then 1 else if r.thi < r.tlo || l.gangs * l.cores ≤ r.thi then 2 else 0
          let bind := (m.teams.filter fun k => k.2.launch = x.launch && r.tlo ≤ k.2.ix && k.2.ix ≤ r.thi).map
            fun k => (k.2.ix, k.2.core)
          let k : RedCtx :=
            ⟨.opened, op, t, scope, (dst.head?.map (·.1)).getD 0, buf, r.tlo, r.thi, r.elems, r.slots, bind, [], []⟩
          let m := if status = 0 then
              (m.updLaunch x.launch fun l => { l with redctx := l.redctx.put ctx.toNat k }).dropRoots x.launch ctx.toNat
            else m
          m.updFrame x.p.frame fun f => f.setLanes d.toNat (laneList act) fun _ => .ofNat 32 status
        | _, _ => m

/-- The physical ranges a reduction context holds while it is OPEN (R350). -/
def RedCtx.ranges (r : RedCtx) : List (Nat × Nat) := if r.st = .opened then (r.dst, r.elems * redSize r.ty) :: r.buf else []

/-- Whether a slot is FILLED (R351). -/
def Mach.slotFilled (m : Mach) (r : RedCtx) (t e k : Nat) : Bool :=
  let pa := r.slot t e k
  if (Place.dev pa).peer?.isSome then (r.away.get? pa).isSome else (Memory.read m.mem (pa + 4)).getLsbD 0

/-- The value of a FILLED slot (R351): at a peer, what its `rdet` has written there. -/
def Mach.slotValue (m : Mach) (r : RedCtx) (t e k : Nat) : Word :=
  let pa := r.slot t e k
  if (Place.dev pa).peer?.isSome then r.away.getD pa 0 else .ofNat 32 (bytesNat (Memory.readN m.mem pa 4))

/-- `rdet` (R352): sends its lanes' values towards its slot. -/
def execRdet (c : Ctl) (t : Ty) (ctx : BitVec 4) (a b e : Reg) (s : State) : Out :=
  s.on fun m => m.long (.rdet c t ctx a b e) false (fun _ _ => .ok) fun x act m =>
    let vals := (List.range 32).map fun n => if act.getLsbD n then some (redWiden t (x.f.reg a.toNat n)) else none
    let elem := (x.f.reg b.toNat (lowLane act)).toNat
    let k := (x.f.reg e.toNat (lowLane act)).toNat
    (.rdet ctx.toNat elem k t vals, m.send m.serial x.core ((m.slotOf x.tk ctx.toNat elem k).toList.map Place.dev))

/-- Changes a reduction context of a launch. -/
def Mach.updRed (m : Mach) (ln ctx : Nat) (f : RedCtx → RedCtx) : Mach :=
  m.updLaunch ln fun l => { l with redctx := l.redctx.upd ctx f }

/-- An `rdet` reaches its slot (R352): its lanes' values, combined with the operator of its context, are written there, dropped by a
FAILED context, or a deferred PROTECTION. A slot at a peer is written as the peer acknowledges it (R31): `vals` is empty while it is
on its way. -/
def Mach.completeRdet (m : Mach) (n : Nat) (o : Op) (ctx e k : Nat) (t : Ty) (vals : List (Option Word)) : Mach :=
  match m.team? o.team with
  | none => m.finishOp n []
  | some tm =>
    let bad := m.finishOp n [o.record m .protection 0 o.lanes 0 0]
    match (m.launches.get? tm.launch).bind fun l => l.redctx.get? ctx with
    | none => bad
    | some r =>
      let v := warpTree (redFn r.op t) vals
      let m' := if o.gone then m else m.orFpstat o.task v.2
      if vals = [] then (if o.reply.isSome || r.st ≠ .opened then m.finishOp n [] else m)
      else match r.st with
      | .failed => m'.finishOp n []
      | .done => bad
      | .opened =>
        if t ≠ r.ty || r.elems ≤ e || r.slots ≤ k || tm.ix < r.tlo || r.thi < tm.ix || m.slotFilled r tm.ix e k then bad
        else
          let pa := r.slot tm.ix e k
          let w := v.1.getD 0
          let bs := natBytes 4 w.toNat ++ [1, 0, 0, 0]
          if m.placeWaits true (.dev pa) then m
          else match (Place.dev pa).peer? with
            | none => (m'.homeWrite pa bs).finishOp n []
            | some p => match m.conn p with
              | .recovering => m
              | .down => m.finishOp n [o.record m .remoteUnavailable 0 o.lanes 0 0]
              | _ =>
                let m := m'.updRed tm.launch ctx fun r => { r with away := r.away.put pa w }
                { m with peerOut := m.peerOut ++ [PeerMsg.write p pa bs false] }.updOp n fun o =>
                  { o with kind := .rdet ctx e k t [] }

/-- `rclose` (R354). -/
def execRclose (c : Ctl) (ctx : BitVec 4) (d : Reg) (s : State) : Out :=
  s.on fun m => m.long (.rclose c ctx d) false (fun _ _ => .ok) fun _ _ m => (.rclose ctx.toNat d.toNat, m)

/-- `rclose` completes once its context is not OPEN (R354); a wait that observes it acquires at the declared scope. -/
def Mach.completeRclose (m : Mach) (n : Nat) (o : Op) (ctx d : Nat) : Mach :=
  let r := ((m.team? o.team).bind fun t => m.launches.get? t.launch).bind fun l => l.redctx.get? ctx
  if r.any fun k => k.st = .opened then m
  else
    let v : Word := match r.map RedCtx.st with
      | some RedSt.done => 0
      | some RedSt.failed => 1
      | _ => 2
    let m := m.landRegs o ((laneList o.lanes).map fun l => (d, l, v))
    let m := match o.flag, o.gone with
      | some fl, false => m.updTask o.task fun t => t.setFlag fl { t.flag fl with acq := (t.flag fl).acq || r.isSome }
      | _, _ => m
    m.finishOp n []

/-- Children of the nodes of R353 above the team level, combined in the order given: groups by key, in ascending key. -/
def groupTree (f : Word → Word → FRes) (xs : List (Nat × Word)) : Option Word :=
  pairTree f (xs.map (·.2))

/-- Combines values that share a parent: (child number, value) pairs in ascending number become (parent, value) pairs. -/
def levelUp (f : Word → Word → FRes) (size : Nat) (xs : List (Nat × Word)) : List (Nat × Word) :=
  ((xs.map fun x => x.1 / size).eraseDups).filterMap fun p =>
    (groupTree f (xs.filter fun x => x.1 / size = p)).map fun v => (p, v)

/-- Inserts a value by its number, after equal numbers. -/
def insertByKey (x : Nat × Word) : List (Nat × Word) → List (Nat × Word)
  | [] => [x]
  | y :: ys => if x.1 < y.1 then x :: y :: ys else y :: insertByKey x ys

/-- The root of an element's tree (R353): team nodes, then cluster, die and device nodes. -/
def Mach.redRoot (m : Mach) (r : RedCtx) (e : Nat) : Option Word :=
  let f := redFn r.op r.ty
  let teams := r.bind.filterMap fun b =>
    (pairTree f ((List.range r.slots).map fun k => m.slotValue r b.1 e k)).map fun v => (b.2, v)
  let sorted := teams.foldl (fun l x => insertByKey x l) []
  groupTree f (levelUp f 16 (levelUp f 4 sorted))

/-- The value of an element after its root is combined with the old contents, the old contents first (R353). -/
def redApply (op : SumOp) (t : Ty) (old root : Word) : Word :=
  let v : Word := .ofNat 32 (redFn op t (redWiden t old) root).bits
  if t = .bf16 then .ofNat 32 (bf16.ofNum .rne false (f32.num v.toNat)).bits else v

/-- An element's root has been applied: with the last one the context is DONE (R349, R353). -/
def Mach.elementDone (m : Mach) (ln ctx e : Nat) : Mach :=
  m.updRed ln ctx fun r =>
    let applied := e :: r.applied
    { r with applied := applied, st := if r.st = .opened && applied.length = r.elems then .done else r.st }

/-- Whether an `rdet` or the root of an element is on its way to a peer, or a slot of the element lies at one out of reach. -/
def Mach.elementAway (m : Mach) (ln ctx e : Nat) (r : RedCtx) : Bool :=
  (m.ops.any fun o => match o.2.kind with
    | .rdet c x _ _ [] => o.2.team / 256 = ln && c = ctx && x = e
    | .combine l c x => l = ln && c = ctx && x = e
    | _ => false) ||
    r.bind.any fun b => (List.range r.slots).any fun k => (Place.dev (r.slot b.1 e k)).peer?.any fun p => m.conn p ≠ .up

/-- The root of an element goes to its destination at peer p, as an atomic there (R31, R353). -/
def Mach.sendRoot (m : Mach) (ln ctx e p pa : Nat) (r : RedCtx) (root : Word) : Mach :=
  let b := r.bind.headD (0, 0)
  let op : Op := ⟨ln * 256 + b.1, 0, m.serial, 0, b.2, none, 0, 0, false, none, false, true, true, 0, .combine ln ctx e⟩
  { m with ops := m.ops.put m.serial op, serial := m.serial + 1, peerOut := m.peerOut ++ [PeerMsg.combine p pa r.op r.ty root] }

/-- The peer has applied the root sent to it (R31, R353). -/
def Mach.completeCombine (m : Mach) (n : Nat) (o : Op) (ln ctx e : Nat) : Mach :=
  if o.reply.isNone then m else ({ m with ops := m.ops.del n } : Mach).elementDone ln ctx e

/-- `REDUCTION_ELEMENT_APPLY` (R353): an element with every slot FILLED is applied to its destination word; one at a peer counts as
applied once the peer answers. -/
def execReductionElementApply (s : State) : Out :=
  s.on fun m =>
    let (ln, ctx, e) := (s.subj.x, s.subj.y, s.subj.z)
    match (m.launches.get? ln).bind fun l => l.redctx.get? ctx with
    | none => m
    | some r =>
      let full := r.bind.all fun b => (List.range r.slots).all fun k => m.slotFilled r b.1 e k
      let size := redSize r.ty
      let pa := r.dst + e * size
      if r.st ≠ .opened || r.elems ≤ e || r.applied.contains e || !full || m.elementAway ln ctx e r ||
          m.placeWaits true (.dev pa) then m
      else match m.redRoot r e with
        | none => m
        | some root =>
          match (Place.dev pa).peer? with
          | some p => if m.conn p = .up then m.sendRoot ln ctx e p pa r root else m
          | none =>
            let old : Word := .ofNat 32 (bytesNat (m.homeRead pa size))
            (m.homeWrite pa (natBytes size (redApply r.op r.ty old root).toNat)).elementDone ln ctx e

end Sys2Proof.Machine
end

