-- ==== Sys2Proof/Machine/Sync.lean ====
section
/-! DEFINITION. Fences, acquire and release (R355, R356), team barriers (R357, R358), byte barriers (R359-R361). -/

namespace Sys2Proof.Machine

/-! ## Fences -/

/-- `rel` (R355). -/
def execRel (c : Ctl) (scope : Scope) (s : State) : Out :=
  s.on fun m => m.act (.rel c scope) (fun x act => m.releaseChk x act scope) fun x act m => m.released x.t act scope

/-- `acq` (R355). -/
def execAcq (c : Ctl) (scope : Scope) (s : State) : Out :=
  s.on fun m => m.act (.acq c scope) (fun x _ => if m.readsOut x.t then .wait else .ok) fun x _ m => m.acquire x.core scope

/-- `fence`: a release, then an acquire (R355). -/
def execFence (c : Ctl) (scope : Scope) (s : State) : Out :=
  s.on fun m => m.act (.fence c scope) (fun x act => m.releaseChk x act scope) fun x act m =>
    (m.released x.t act scope).acquire x.core scope

/-- `acq.rp` (R356): a load served at the home that drains the core its line is marked with, then acquires. -/
def execAcqRp (c : Ctl) (t : Ty) (scope : Scope) (d a : Reg) (off : BitVec 24) (s : State) : Out :=
  s.on fun m0 =>
    let i : Instr := .acqRp c t scope d a off
    let spec : AccSpec := { spc := .va, size := accBytes t, promote := true }
    m0.long i false
      (fun x act => match m0.checkLanes x spec (some scope) (laneAddrs x act .va a off.toInt) with
        | .error r => r
        | .ok _ => .ok)
      fun x act m =>
        let as := match m0.checkLanes x spec (some scope) (laneAddrs x act .va a off.toInt) with
          | .ok as => as
          | .error _ => []
        ((.load ⟨accBytes t, false, as, d.toNat, if t.is64 then 2 else 1, true, some scope, true, .nl1, some scope⟩),
          (m.useTlb x .va as).send m.serial x.core (as.map (·.place)))

/-! ## Team barriers -/

/-- A barrier of a team (R358). -/
def Team.barrier (t : Team) (b : Nat) : Barrier := t.bars.getD b ⟨0, 0, 0⟩

/-- arrive(count) of R358. -/
def Barrier.arrive (x : Barrier) (count : Word) : Barrier :=
  let exp := if x.arr = 0 then min (max (count.toNat % 2 ^ 11) 1) 1024 else x.exp
  if x.arr + 1 = exp then ⟨x.gen + 1, 0, exp⟩ else ⟨x.gen, x.arr + 1, exp⟩

/-- The barrier of the issuing team. -/
def Mach.barrierOf (m : Mach) (c : Issue) (b : Nat) : Barrier := ((m.team? c.tk).map fun t => t.barrier b).getD ⟨0, 0, 0⟩

/-- The issuing path arrives, a release at `.co`; waits the arrival ends go on (R358). -/
def Mach.arrive (m : Mach) (c : Issue) (act : Lanes) (b : Nat) (count : Word) : Mach :=
  let x := (m.barrierOf c b).arrive count
  let m := m.updTeam c.tk fun t => { t with bars := t.bars.norm b x ⟨0, 0, 0⟩ }
  (m.released c.t act .co).endWaits c.tk fun w => match w with
    | .bar k g => k = b && g ≠ x.gen
    | _ => false

/-- `bar` (R358): arrives, and waits until the generation moves on. -/
def execBar (c : Ctl) (b : BitVec 4) (a : Reg) (s : State) : Out :=
  s.on fun m => m.issue (.bar c b a) (fun x _ => x.p.lanes) (fun x act => m.releaseChk x act .co) fun x act m =>
    if act = 0 then (.on 0 [], m)
    else
      let g := (m.barrierOf x b.toNat).gen
      let m := m.arrive x act b.toNat (x.f.reg a.toNat (lowLane act))
      (if (m.barrierOf x b.toNat).gen ≠ g then .on 0 [] else .stop (.waiting (.bar b.toNat g)), m)

/-- `bar.arr` (R358): arrives and tells the generation. -/
def execBarArr (c : Ctl) (b : BitVec 4) (d a : Reg) (s : State) : Out :=
  s.on fun m => m.act (.barArr c b d a) (fun x act => m.releaseChk x act .co) fun x act m =>
    let g := (m.barrierOf x b.toNat).gen
    (m.arrive x act b.toNat (x.f.reg a.toNat (lowLane act))).updFrame x.p.frame fun f =>
      f.setLanes d.toNat (laneList act) fun _ => g

/-- `bar.wait` (R358): waits until the generation is not A. -/
def execBarWait (c : Ctl) (b : BitVec 4) (a : Reg) (s : State) : Out :=
  s.on fun m => m.issue (.barWait c b a) (fun x _ => x.p.lanes) (fun _ _ => .ok) fun x act m =>
    if act = 0 then (.on 0 [], m)
    else
      let g := x.f.reg a.toNat (lowLane act)
      (if (m.barrierOf x b.toNat).gen ≠ g then .on 0 [] else .stop (.waiting (.bar b.toNat g)), m)

/-! ## Byte barriers -/

/-- The checks of a byte-barrier instruction on its cell (R360). -/
def Mach.cellChk (m : Mach) (c : Issue) (act : Lanes) (a : Reg) (scope : Option Scope) : Chk :=
  let addr := (c.f.reg a.toNat (lowLane act)).toNat
  let fail (k : Cause) : Chk :=
    .fail { cause := k, oppos := 2, lanes := act, addr := .ofNat 64 addr, scope := scope }
  if addr % 16 ≠ 0 then fail .align
  else if ((m.launches.get? c.launch).map (·.lsBytes)).getD 0 < addr + 16 then fail .protection
  else if m.rangeLocked c.core c.launch c.tk .ls addr 16 true then fail .rangeLocked
  else .ok

/-- Whether a cell a task names lies in a staging pool outside its buffer, in whole or in part (R120). -/
def Mach.strayCell (m : Mach) (t tk off : Nat) : Bool := (List.range 16).any fun i => m.strayPool t (.ls tk (off + i))

/-- A cell as an operation of a task finds it: its fields are unspecified where anything but an operation on it has written them
(R361, log entry 1), and in a staging pool outside the task's buffer (R120). -/
def Mach.asCell (m : Mach) (t tk off : Nat) : Mach :=
  if m.strayCell t tk off || (m.team? tk).any fun t => t.spoilt.contains (off / 16) then
    let (bs, m) := m.takeBytes 16
    m.cellWrite tk off bs
  else m

/-- What an operation of a task on a cell leaves where it lies in a staging pool outside the task's buffer: there, and at a place of the
pool the manual does not name, unspecified bytes (R120). -/
def Mach.leaveCell (m : Mach) (t tk off : Nat) : Mach :=
  if m.strayCell t tk off then
    let (q, m) := m.anyPool tk 16
    let (bs, m) := m.takeBytes 16
    let (cs, m) := m.takeBytes 16
    (m.lsWrite tk off bs).placeWrite q cs
  else m

/-- GEN of a cell (R359). -/
def Mach.cellGen (m : Mach) (tk off : Nat) : Word := .ofNat 32 (bytesNat (m.lsRead tk (off + 4) 4))

/-- test() of R361, for a cell with the fields given: its 16 bytes as they are left. -/
def cellTest (pend gen : Word) (armed : Bool) : List Byte :=
  let done := armed && (pend.getMsbD 0 || pend = 0)
  natBytes 4 pend.toNat ++ natBytes 4 (if done then gen + 1 else gen).toNat ++ [if armed && !done then 1 else 0] ++
    List.replicate 7 0

/-- Whether an operation of scope `.cl` or wider has delivered into a cell since it was made one (R219). -/
def Mach.wideCell (m : Mach) (tk off : Nat) : Bool := (m.team? tk).any fun t => t.wideCells.contains off

/-- Ends the waits on a cell whose generation has moved on; each acquires at its scope (R361), and at that of the operations whose
deliveries it observes (R219, log entry 112). -/
def Mach.wakeCell (m : Mach) (tk off : Nat) : Mach :=
  let gen := m.cellGen tk off
  let ready (w : Wait) : Bool := match w with
    | .bb o g _ => o = off && g ≠ gen
    | _ => false
  let deep := (m.tasksOf tk).any fun e => e.2.paths.any fun p => match p.st with
    | .waiting (.bb o g s) => o = off && g ≠ gen && (wide s || m.wideCell tk off)
    | _ => false
  let m := m.endWaits tk ready
  match deep, m.team? tk with
  | true, some t => m.acquire t.core .cl
  | _, _ => m

/-- Adds n to PEND of a cell, arming it or not, and tests it (R361). -/
def Mach.cellAdd (m : Mach) (tk off : Nat) (n : Word) (arm : Bool) : Mach :=
  let pend : Word := .ofNat 32 (bytesNat (m.lsRead tk off 4))
  let armed := arm || ((m.lsRead tk (off + 8) 1).headD 0).getLsbD 0
  (m.cellWrite tk off (cellTest (pend + n) (m.cellGen tk off) armed)).wakeCell tk off

/-- An operation of a task and scope delivers its bytes to a cell (R361), as a release at its scope. -/
def Mach.deliverBytes (m : Mach) (t tk off bytes : Nat) (scope : Scope) : Mach :=
  let m := if wide scope then m.updTeam tk fun t => { t with wideCells := insertNat off t.wideCells } else m
  ((m.asCell t tk off).cellAdd tk off (-(.ofNat 32 bytes)) false).leaveCell t tk off

/-- `bb.init` (R361). -/
def execBbInit (c : Ctl) (a : Reg) (s : State) : Out :=
  s.on fun m => m.act (.bbInit c a) (fun x act => m.cellChk x act a none) fun x act m =>
    let off := (x.f.reg a.toNat (lowLane act)).toNat
    let m := m.updTeam x.tk fun t => { t with wideCells := t.wideCells.filter (· ≠ off) }
    ((m.cellWrite x.tk off (List.replicate 16 0)).wakeCell x.tk off).leaveCell x.t x.tk off

/-- `bb.exp` (R361): tells the generation, expects bytes, arms the phase. -/
def execBbExp (c : Ctl) (d a b : Reg) (s : State) : Out :=
  s.on fun m => m.act (.bbExp c d a b) (fun x act => m.cellChk x act a none) fun x act m =>
    let off := (x.f.reg a.toNat (lowLane act)).toNat
    let m := m.asCell x.t x.tk off
    let gen := m.cellGen x.tk off
    ((m.cellAdd x.tk off (x.f.reg b.toNat (lowLane act)) true).leaveCell x.t x.tk off).updFrame x.p.frame fun f =>
      f.setLanes d.toNat (laneList act) fun _ => gen

/-- `bb.wait` (R361): waits until GEN is not B, then acquires, at its scope and at that of the deliveries it observes (R219). -/
def execBbWait (c : Ctl) (scope : Scope) (a b : Reg) (s : State) : Out :=
  s.on fun m => m.issue (.bbWait c scope a b) (fun x _ => x.p.lanes) (fun x act => m.cellChk x act a (some scope))
    fun x act m =>
      if act = 0 then (.on 0 [], m)
      else
        let off := (x.f.reg a.toNat (lowLane act)).toNat
        let g := x.f.reg b.toNat (lowLane act)
        let m := m.asCell x.t x.tk off
        if m.cellGen x.tk off ≠ g then
          (.on 0 [], (m.acquire x.core scope).acquire x.core (if m.wideCell x.tk off then .cl else .wp))
        else (.stop (.waiting (.bb off g scope)), m)

end Sys2Proof.Machine
end

