-- ==== Sys2Proof/Machine/Paths.lean ====
section
/-! DEFINITION. Selection of a path (R167-R173), header waits and deferred faults (R186, R250), and the control
instructions (R300-R311) with calls and returns (R257, R261-R266). -/

namespace Sys2Proof.Machine

/-! ## Observing completion flags -/

/-- The lanes of a path mark for demotion the operations of the flags it waits on (R171); the flags forget those lanes. -/
def Task.demoteOn (k : Task) (mask : Nat) (lanes : Lanes) : Task :=
  let hit := k.swapFail.foldl (fun a e => if bit mask e.1 then a ||| (e.2 &&& lanes) else a) 0
  { k with
    demote := k.demote ||| hit
    swapFail := (k.swapFail.mapv fun n l => if bit mask n then l &&& ~~~lanes else l).sift fun _ l => l ≠ 0 }

/-- A wait on the flags of a mask has ended for a path of the issuing warp: pending marks go (R186), demotion marks are
placed (R171), completions at `.cl` or wider are acquired (R219). -/
def Mach.observe (m : Mach) (t core mask : Nat) (lanes : Lanes) : Mach :=
  let acq := (m.tasks.get? t).any fun k => k.flags.any fun f => bit mask f.1 && f.2.acq
  let m := m.updTask t fun k =>
    let k := k.demoteOn mask lanes
    let flags := k.flags.mapv fun n f => if bit mask n then { f with acq := false } else f
    { k with flags := flags.sift fun _ f => f ≠ ⟨0, [], false⟩ }
  let m := m.clearMarks t mask lanes
  if acq then m.acquire core .cl else m

/-! ## Selection (R168-R171) -/

/-- Whether a path stands at a clause start (R169). -/
def Path.atStart (p : Path) : Bool := !p.entered

/-- The paths of a task with those whose lanes all carry a demotion mark DEMOTED, each with its Q (R169, R171). -/
def demotePaths (demote : Lanes) : List Path → List Path → Lanes × List Path
  | done, [] => (demote, done)
  | done, p :: rest =>
    if p.st = .eligible && p.atStart && p.lanes &&& ~~~demote = 0 then
      let q := (done ++ rest).foldl (fun a x => if x.st = .eligible then a ||| x.lanes else a) 0
      demotePaths (demote &&& ~~~p.lanes) (done ++ [if q = 0 then p else { p with st := .demoted q }]) rest
    else demotePaths demote (done ++ [p]) rest

/-- Whether path p is selected before q (R169): lower PC, then the lower lane. -/
def Path.before (p q : Path) : Bool :=
  p.pc.toNat < q.pc.toNat || (p.pc = q.pc && lowLane p.lanes < lowLane q.lanes)

/-- The path a list of candidates selects (R169). -/
def pickPath : List Path → Option Path
  | [] => none
  | p :: ps => some (ps.foldl (fun b x => if x.before b then x else b) p)

/-- Path q joins p (R169). -/
def Path.join (p q : Path) : Path := { p with lanes := p.lanes ||| q.lanes }

/-- The latch as the paths qs join p and become r: the entries all of them hold stay (R184). -/
def joinLatch (latch : List LatchEntry) (p r : Path) (qs : List Path) : List LatchEntry :=
  let held (q : Path) (e : LatchEntry) : Bool := latch.any fun x => x.ofPath q && x.reg = e.reg && x.wide = e.wide
  latch.filterMap fun e =>
    if e.ofPath p then (if qs.all fun q => held q e then some { e with lanes := r.lanes } else none)
    else if qs.any e.ofPath then none
    else some e

/-- Whether q joins the selected path p (R169). -/
def Path.joins (p q : Path) : Bool := q.selectable && q.pc = p.pc && q.frame = p.frame && q.entered = p.entered

/-- The task with a path selected, where one can be (R169). -/
def Task.select (k : Task) : Task :=
  let (demote, paths) := demotePaths k.demote [] k.paths
  let elig := paths.filter fun p => p.st = .eligible
  let cands := if elig = [] then paths.filter fun p => p.st matches .demoted _ else elig
  match pickPath cands with
  | none => { k with demote := demote, paths := paths }
  | some p =>
    let others := paths.filter fun q => q ≠ p
    let r := (others.filter p.joins).foldl Path.join { p with st := .eligible }
    let k := { k with
      latch := joinLatch k.latch p r (others.filter p.joins)
      demote := demote &&& ~~~r.lanes
      paths := others.filter fun q => !p.joins q
      run := some r }
    if r.entered then k.satisfy r.lanes else k

/-- The issue of a path that does not stand in a readable clause, for a fault of its header. -/
def Mach.bareIssue (m : Mach) (tk w t : Nat) (p : Path) : Option Issue := do
  let tm ← m.team? tk
  let l ← m.launches.get? tm.launch
  let k ← m.tasks.get? t
  let f ← m.frames.get? p.frame
  some ⟨tk, w, t, p, f, ⟨0, 0, 0, false, none, none, 0, 0⟩, tm.core, l.asid, k.priv, tm.launch, tm.ix, k.latchOf p⟩

/-- The selected path enters its clause once the flags of WAIT are CLEAR (R186); its first instruction then takes a deferred
fault of those flags (R250). -/
def Mach.enter (m : Mach) (tk w t : Nat) : Mach :=
  match (m.tasks.get? t).bind (·.run) with
  | none => m
  | some p =>
    if p.entered then m
    else match m.bareIssue tk w t p with
      | none => m
      | some c =>
        let m := m.fetchInto c.core c.asid c.priv m.refetch [p.clause.toNat, p.clause.toNat + 4]
        match m.headerAt c.core c.asid p.clause.toNat c.priv with
        | .error k =>
          (m.raise c { cause := k, lanes := p.lanes, addr := if k = .illegal then 0 else p.clause }).settle tk w
        | .ok h =>
          match m.tasks.get? t with
          | none => m
          | some k =>
            if !k.clearMask h.wait then m
            else
              let q := { p with pc := p.clause + 8, entered := true, st := .eligible }
              let m := m.updTask t fun k => { (k.satisfy p.lanes) with run := some q }
              let m := m.observe t c.core h.wait p.lanes
              match (m.tasks.get? t).bind fun k => k.takeDeferred h.wait with
              | none => m
              | some (r, k) =>
                let m := { m with tasks := m.tasks.put t k }
                (m.deliver { c with p := q, hdr := h } { r with pc := q.pc, depth := c.f.depth }).settle tk w

/-- Whether the warp of a team can issue now: its team runs, it is ACTIVE and awake, its gang is not being killed. -/
def Mach.mayIssue (m : Mach) (tk w : Nat) : Bool :=
  match m.team? tk, m.warps.get? (warpKey tk w) with
  | some tm, some x =>
    tm.runs && x.st = .active && x.sleepUntil ≤ m.clock && !m.dying tk
  | _, _ => false

/-- `PATH_SELECTION` (R169): the warp selects a path, which waits for its clause's WAIT and then stands at the clause's
first instruction; the warp is then in focus. -/
def execPathSelection (s : State) : Out :=
  s.on fun m =>
    let (tk, w) := (s.subj.x, s.subj.y)
    match (m.warps.get? (warpKey tk w)).bind (·.task) with
    | none => m
    | some t =>
      if !m.mayIssue tk w then m
      else
        let m := { m with focus := some (tk, w) }
        match (m.tasks.get? t).map (·.run) with
        | some none => (((m.landTask tk t).settle tk w).updTask t Task.select).enter tk w t
        | some (some _) => m.enter tk w t
        | none => m

/-! ## Transfers (R301) -/

/-- The check of one target: the step that fails and its cause, or the header there. -/
def Mach.targetChk (m : Mach) (c : Issue) (a : DWord) : Except (Nat × Cause) Header :=
  if a.toNat % 64 ≠ 0 then .error (1, .align)
  else match m.headerAt c.core c.asid a.toNat c.priv with
    | .ok h => .ok h
    | .error .illegal => .error (3, .illegal)
    | .error k => .error (2, k)

/-- The checks of R301 over the lanes that transfer, in order. -/
def Mach.transferChk (m : Mach) (c : Issue) (ts : List (Nat × DWord)) : Chk :=
  let bads := ts.filterMap fun t => match m.targetChk c t.2 with
    | .error (s, k) => some (t.1, t.2, s, k)
    | .ok _ => none
  let first := bads.foldl (fun n b => min n b.2.2.1) 9
  match bads.find? fun b => b.2.2.1 = first with
  | none => .ok
  | some b => .fail {
      cause := b.2.2.2, addr := b.2.1
      lanes := laneSet ((bads.filter fun x => x.2.2.1 = first && x.2.2.2 = b.2.2.2).map (·.1)) }

/-- PC-relative target: clause start + 64 × the signed field (R278). -/
def Issue.target (c : Issue) (t : BitVec 24) : DWord := c.p.clause + (t.signExtend 64) * 64

/-- Lanes with their targets as paths at clause starts, one path for each target. -/
def pathsAt (frame : Nat) (ts : List (Nat × DWord)) : List Path :=
  ((ts.map (·.2)).eraseDups).map fun a => atClause (laneSet ((ts.filter fun t => t.2 = a).map (·.1))) a frame

/-- A transfer of the lanes `go` names, each to its target (R301). -/
def Mach.transfer (m : Mach) (i : Instr) (go : Issue → Lanes → List (Nat × DWord)) : Mach :=
  m.issue i (fun c act => c.p.lanes &&& ~~~laneSet ((go c act).map (·.1))) (fun c act => m.transferChk c (go c act))
    fun c act m => (.on (laneSet ((go c act).map (·.1))) (pathsAt c.p.frame (go c act)), m)

/-- `bra` (R302). -/
def execBra (c : Ctl) (target : BitVec 24) (s : State) : Out :=
  s.on fun m => m.transfer (.bra c target) fun x act => (laneList act).map fun n => (n, x.target target)

/-- The lanes of `bra.any` and `bra.all`: every lane of the path, or none (R302). -/
def voteLanes (x : Issue) (act : Lanes) (a : Reg) (all : Bool) : List Nat :=
  let v (n : Nat) : Bool := (x.f.reg a.toNat n).getLsbD 0
  let take := act ≠ 0 && if all then (laneList act).all v else (laneList act).any v
  if take then laneList x.p.lanes else []

/-- `bra.any` (R302). -/
def execBraAny (c : Ctl) (a : Reg) (target : BitVec 24) (s : State) : Out :=
  s.on fun m => m.transfer (.braAny c a target) fun x act => (voteLanes x act a false).map fun n => (n, x.target target)

/-- `bra.all` (R302). -/
def execBraAll (c : Ctl) (a : Reg) (target : BitVec 24) (s : State) : Out :=
  s.on fun m => m.transfer (.braAll c a target) fun x act => (voteLanes x act a true).map fun n => (n, x.target target)

/-- `jmp` (R303). -/
def execJmp (c : Ctl) (a : Reg) (s : State) : Out :=
  s.on fun m => m.transfer (.jmp c a) fun x act => (laneList act).map fun n => (n, x.f.pair a.toNat n)

/-! ## Calls (R261, R263) -/

/-- A call as checked: granules of its frame, the lanes with their targets, arguments and results. -/
structure CallPlan where
  gran : Nat
  lanes : List CallLane
  deriving DecidableEq, Repr

/-- DETAIL of FRAME_MISMATCH (R252). -/
def mismatchDetail (check : Nat) (frame : Nat) : DWord := .ofNat 64 (check + 2 ^ 8 * frame)

/-- Checks 1 to 3 of R261 on a header, where `fits` is check 2. -/
def headerCheck (h : Header) (fits : Bool) : Option Nat :=
  if !h.fn then some 1 else if !fits then some 2 else if 8 < h.nres then some 3 else none

/-- Inserts a target in ascending order. -/
def insertTarget (a : DWord) : List DWord → List DWord
  | [] => [a]
  | b :: bs => if a.toNat ≤ b.toNat then a :: b :: bs else b :: insertTarget a bs

/-- The checks of `call` and `call.i` (R261, R263), or the call. `exact` asks for the frame demand of the header itself. -/
def Mach.callChk (m : Mach) (c : Issue) (act : Lanes) (exact : Bool) (f w : Nat) (ts : List (Nat × DWord)) :
    Except Chk CallPlan :=
  let bad (k : Cause) (oppos : Nat) (lanes : Lanes) (addr detail : DWord) : Except Chk CallPlan :=
    .error (.fail { cause := k, oppos := oppos, lanes := lanes, addr := addr, detail := detail })
  match m.transferChk c ts with
  | .ok =>
    let sorted := ((ts.map (·.2)).eraseDups).foldl (fun l a => insertTarget a l) []
    let hs := sorted.filterMap fun a => match m.targetChk c a with
      | .ok h => some (a, h)
      | .error _ => none
    let need (h : Header) : Nat := max h.narg h.nres
    let widest := (hs.map fun x => need x.2).foldl max 0
    let mismatch := hs.findSome? fun x =>
      (headerCheck x.2 (if exact then x.2.frame + 1 = f else x.2.frame + 1 ≤ f)).map fun k => (k, x)
    let lanes : List CallLane := ts.filterMap fun t =>
      (hs.find? fun x => x.1 = t.2).map fun x => ⟨t.1, t.2, x.2.narg, x.2.nres⟩
    match mismatch with
    | some (k, a, h) => bad .frameMismatch 0 act a (mismatchDetail k h.frame)
    | none =>
      match if c.f.demand < w + widest then hs.find? fun x => c.f.demand < w + need x.2 else none with
      | some (a, h) => bad .frameMismatch 0 act a (mismatchDetail 4 h.frame)
      | none =>
        if 64 ≤ c.f.depth then bad .frameDepth 0 act 0 1
        else if lanes.any fun l => (List.range l.narg).any fun r => (c.f.mark? (w + r) l.lane).isSome then
          bad .unwaited (if exact then 2 else 3) act 0 0
        else .ok ⟨(hs.map fun x => x.2.frame + 1).foldl max 0, lanes⟩
  | r => .error r

/-- A call of the lanes of a plan (R261, R265): the frame at once, or the path BLOCKED on it. -/
def Mach.callNow (m : Mach) (c : Issue) (n w : Nat) (mk : Bool) (p : CallPlan) : Flow × Mach :=
  let act := laneSet (p.lanes.map (·.lane))
  let ret := m.nextPc c n
  let clause := if ret = c.nextClause then c.nextClause else c.p.clause
  if m.fits c.tk p.gran then
    let (ps, m) := m.openCall c.t { c.p with lanes := act } p.gran w mk p.lanes ret clause
    (.on act ps, m)
  else
    let q : Path := { c.p with lanes := act, attributed := 0, st := .blocked (.call p.gran w mk p.lanes ret clause) m.serial }
    (.on act [q], { m.updTask c.t fun k => k.satisfy act with serial := m.serial + 1 })

/-- `call` and `call.i` once their targets are known (R261, R263). -/
def Mach.callOp (m0 : Mach) (i : Instr) (exact mk : Bool) (f : BitVec 5) (w : Reg) (go : Issue → Nat → DWord) : Mach :=
  let ts (c : Issue) (act : Lanes) : List (Nat × DWord) := (laneList act).map fun n => (n, go c n)
  m0.issue i (fun c act => c.p.lanes &&& ~~~act)
    (fun c act => match m0.callChk c act exact (f.toNat + 1) w.toNat (ts c act) with
      | .error r => r
      | .ok _ => .ok)
    fun c act m =>
      match if act = 0 then .error .ok else m0.callChk c act exact (f.toNat + 1) w.toNat (ts c act) with
      | .ok p => m.callNow c (Instr.bytes i) w.toNat mk p
      | .error _ => (.on 0 [], m)

/-- `call` (R261). -/
def execCall (c : Ctl) (mk : Bool) (f : BitVec 5) (w : Reg) (target : BitVec 24) (s : State) : Out :=
  s.on fun m => m.callOp (.call c mk f w target) true mk f w fun x _ => x.target target

/-- `call.i` (R263). -/
def execCallI (c : Ctl) (mk : Bool) (f : BitVec 5) (a w : Reg) (s : State) : Out :=
  s.on fun m => m.callOp (.callI c mk f a w) false mk f w fun x n => x.f.pair a.toNat n

/-! ## Returns (R257, R262, R266) -/

/-- A path at a return point: at a clause start, or within a clause with no header wait. -/
def returnPath (lanes : Lanes) (pc clause : DWord) (frame : Nat) : Path :=
  if pc = clause then atClause lanes pc frame else ⟨lanes, pc, clause, true, frame, .eligible, 0⟩

/-- Lanes with their links, as paths at their return points: one for each point and frame. -/
def returnPaths (ls : List (Nat × Link)) : List Path :=
  ((ls.map fun l => (l.2.retPc, l.2.retClause, l.2.caller)).eraseDups).map fun k =>
    returnPath (laneSet ((ls.filter fun l => (l.2.retPc, l.2.retClause, l.2.caller) = k).map (·.1))) k.1 k.2.1 k.2.2

/-- The lanes of the issuing path that return go to the paths given: the frames they leave are freed, and a spilled frame
they come to is restored or waited for (R181, R270). -/
def Mach.returnTo (m : Mach) (c : Issue) (act : Lanes) (ps : List Path) : Mach :=
  let m := m.updTask c.t fun k =>
    { ps.foldl Task.addPath k with run := k.run.map fun p => { p with lanes := p.lanes &&& ~~~act } }
  let m := m.freeFrames c.t
  ps.foldl (fun m p =>
    let (q, m) := m.landPath c.tk p
    m.updTask c.t fun k => { k with paths := k.paths.map fun x => if x = p then q else x }) m

/-- Copies results of a lane into its caller's window and removes the lane's unwind mark there (R262, R265, R266). -/
def Mach.giveResults (m : Mach) (fr s : Nat) (l : Nat × Link) : Mach :=
  (m.copyResults fr s l.1 l.2.caller l.2.w l.2.nres).updFrame l.2.caller fun f => { f with marks := f.marks.del l.1 }

/-- `ret` (R257, R262). -/
def execRet (c : Ctl) (s : State) : Out :=
  s.on fun m =>
    let links (x : Issue) (act : Lanes) : List (Nat × Link) :=
      (laneList act).filterMap fun n => (x.f.links.get? n).map fun l => (n, l)
    m.issue (.ret c) (fun x act => x.p.lanes &&& ~~~act)
      (fun x act =>
        if x.f.handler.isSome then .ok
        else if x.f.depth ≤ 1 then .fail { cause := .frameDepth, lanes := act, detail := 2 }
        else if (links x act).any fun l => (List.range l.2.nres).any fun r => (x.f.mark? r l.1).isSome then
          .fail { cause := .unwaited, lanes := act }
        else .ok)
      fun x act m =>
        let ls := links x act
        match x.f.handler with
        | some h =>
          let caller := (ls.head?.map (·.2.caller)).getD 0
          (.on act [], (m.returnTo x act [⟨act, h.pc, h.clause, h.entered, caller, .eligible, 0⟩]).updTask x.t fun k =>
            k.relatch act h.latch)
        | none => (.on act [], (ls.foldl (fun m l => m.giveResults x.p.frame 0 l) m).returnTo x act (returnPaths ls))

/-- The nearest frame below the first of a chain that holds a lane's mark (R266). -/
def Mach.markedBelow (m : Mach) (lane fr : Nat) : Option Link :=
  ((m.chain lane 66 fr).drop 1).findSome? fun k =>
    (m.frames.get? k).bind fun f => (f.marks.get? lane).map fun l => { l with caller := k }

/-- Results of `unwind.to` from registers beyond its frame have no stated value (log entry 1). -/
def Mach.padResults (m : Mach) (fr s : Nat) (l : Nat × Link) : Mach :=
  let demand := ((m.frames.get? fr).map (·.demand)).getD 0
  (List.range l.2.nres).foldl (fun m i =>
    if demand ≤ s + i then
      let (v, m) := m.takeWord
      m.updFrame l.2.caller fun f => f.setReg (l.2.w + i) l.1 v
    else m) m

/-- `unwind.to` (R266). -/
def execUnwindTo (c : Ctl) (sb : Reg) (s : State) : Out :=
  s.on fun m =>
    let links (x : Issue) (act : Lanes) : List (Nat × Link) :=
      (laneList act).filterMap fun n => (m.markedBelow n x.p.frame).map fun l => (n, l)
    m.issue (.unwindTo c sb) (fun x act => x.p.lanes &&& ~~~act)
      (fun x act =>
        let ls := links x act
        let missing := act &&& ~~~laneSet (ls.map (·.1))
        if missing ≠ 0 then .fail { cause := .frameMismatch, lanes := missing, detail := mismatchDetail 5 0 }
        else if ls.any fun l => (List.range l.2.nres).any fun r => (x.f.mark? (sb.toNat + r) l.1).isSome then
          .fail { cause := .unwaited, oppos := 2, lanes := act }
        else .ok)
      fun x act m =>
        let ls := links x act
        let m := ls.foldl (fun m l => (m.giveResults x.p.frame sb.toNat l).padResults x.p.frame sb.toNat l) m
        (.on act [], m.returnTo x act (returnPaths ls))

/-! ## Ends -/

/-- The task of the issuing path ends with a value, or with a deferred fault still marked (R250, R368). -/
def Mach.finishTask (m : Mach) (c : Issue) (v : DWord) : Mach :=
  match (m.tasks.get? c.t).bind fun k => k.takeDeferred (2 ^ 12 - 1) with
  | some (r, _) => m.endTask c.t (.faulted { r with pc := c.p.pc, depth := c.f.depth })
  | none => m.endTask c.t (.value v)

/-- `exit` (R306): the active lanes leave the task; with none left it ends with the value 0. -/
def execExit (c : Ctl) (s : State) : Out :=
  let last (m : Mach) (x : Issue) (act : Lanes) : Bool :=
    act = x.p.lanes && !((m.tasks.get? x.t).any fun k => k.paths ≠ [])
  s.on fun m => m.issue (.exit c) (fun x act => x.p.lanes &&& ~~~act)
    (fun x act => if last m x act then m.ackChk x act .dv else .ok) fun x act m =>
    if last m x act then (.gone, m.finishTask x 0)
    else
      let m := m.updTask x.t fun k =>
        { k.satisfy act with run := k.run.map fun p => { p with lanes := p.lanes &&& ~~~act } }
      let m := { m with frames := m.frames.mapv fun _ f =>
        if f.task = x.t then { f with marks := f.marks.sift fun n _ => !act.getLsbD n } else f }
      (.on act [], m.freeFrames x.t)

/-- `yield` (R307). -/
def execYield (c : Ctl) (s : State) : Out :=
  s.on fun m => m.issue (.yield c) (fun x act => x.p.lanes &&& ~~~act)
    (fun x act => match m.headerAt x.core x.asid x.nextClause.toNat x.priv with
      | .ok _ => .ok
      | .error k => .fail { cause := k, lanes := act, addr := if k = .illegal then 0 else x.nextClause })
    fun x act m => (.on act [atClause act x.nextClause x.p.frame], m)

/-- `setpri` (R308). -/
def execSetpri (c : Ctl) (n : BitVec 3) (s : State) : Out :=
  s.on fun m => m.act (.setpri c n) (fun _ _ => .ok) fun x _ m => m.updTask x.t fun k => { k with prio := n.toNat }

/-- `wflag` (R309): waits for its flags, takes a deferred fault of them, else clears the marks. -/
def execWflag (c : Ctl) (mask : BitVec 12) (s : State) : Out :=
  s.on fun m =>
    let i : Instr := .wflag c mask
    let ready (x : Issue) : Bool := (m.tasks.get? x.t).any fun k => k.clearMask mask.toNat
    let late : Option (Issue × FaultRec × Task) := do
      let x ← m.issuing
      let act := activeLanes x.f x.p.lanes c.guard
      let k ← m.tasks.get? x.t
      if checks x (Instr.shape i) act = none && act ≠ 0 && ready x then
        let (r, k) ← k.takeDeferred mask.toNat
        some (x, r, k)
      else none
    match late with
    | some (x, r, k) => (({ m with tasks := m.tasks.put x.t k } : Mach).tookCycle x
      |>.deliver x { r with pc := x.p.pc, depth := x.f.depth }).settle x.tk x.w
    | none => m.act i (fun x _ => if ready x then .ok else .wait) fun x _ m => m.observe x.t x.core mask.toNat x.p.lanes

/-- The cause of a code that `trap` may name (R310). -/
def causeOf (n : Nat) : Cause :=
  ([.illegal, .priv, .align, .bankConflict, .unwaited, .frameMismatch, .frameDepth, .spillFull, .accToken, .accFirstuse,
    .rangeLocked, .tileSpan, .pageFault, .protection, .atomicDeviceSpace, .format, .futureFaulted, .prefetchFault,
    .staleHandle, .shadowMismatch, .uncorrectable, .remoteUnavailable, .watchdog] : List Cause).getD (n - 1) .illegal

/-- `trap` (R310). -/
def execTrap (c : Ctl) (code : BitVec 7) (ad : Option Reg) (s : State) : Out :=
  s.on fun m => m.act (.trap c code ad)
    (fun x act => .fail {
      cause := causeOf code.toNat, lanes := act
      addr := match ad with
        | some r => x.f.pair r.toNat (lowLane act)
        | none => 0 })
    fun _ _ m => m

/-- `nop` (R311). -/
def execNop (c : Ctl) (s : State) : Out := s.on fun m => m.act (.nop c) (fun _ _ => .ok) fun _ _ m => m

end Sys2Proof.Machine
end

