-- ==== Sys2Proof/Machine/Tasks.lean ====
section
/-! DEFINITION. Task instructions (R363-R370), futures and finish scopes (R131-R136), staging (R119-R127), task start (R128,
R129), stealing (R138-R140). -/

namespace Sys2Proof.Machine

/-! ## Descriptors -/

/-- Bytes i to i + n − 1 of a list as a number. -/
def field (bs : List Byte) (i n : Nat) : Nat := bytesNat ((bs.drop i).take n)

/-- A descriptor from its 32 bytes (R114). -/
def descOf (bs : List Byte) : Desc :=
  let flags := field bs 25 1
  ⟨.ofNat 64 (field bs 0 8), .ofNat 64 (field bs 8 8), field bs 16 2 % 2 ^ 12, field bs 18 2, field bs 20 2, field bs 22 2,
    field bs 24 1, bit flags 0, bit flags 1, flags / 4 % 8⟩

/-- Whether a descriptor's reserved bits are zero (R114). -/
def descResOk (bs : List Byte) : Bool := field bs 16 2 / 2 ^ 12 = 0 && field bs 25 1 / 32 = 0 && field bs 26 6 = 0

/-- A task with nothing done yet (R130), which entered its gang at the number given (R159). -/
def Task.queued (tk : Nat) (d : Desc) (entry : Nat) : Task :=
  { team := tk, desc := d, st := .queued, order := 0, entry := entry, tte := none, buf := none, bufImage := none, staged := 0
    opers := 0, run := none, paths := [], latch := [], demote := 0, swapFail := [], flags := [], prio := 0, fpstat := 0, lost := 0, rel := 0
    watch := 0, trail := [], diverged := false, priv := false, startClock := 0, lastIssue := 0 }

/-- Puts a task at the hot end, the head, of a team's deque (R121). -/
def Mach.pushHot (m : Mach) (tk t : Nat) : Mach := m.updTeam tk fun k => { k with deque := t :: k.deque }

/-- Puts a task at the cold end of a team's deque (R121). -/
def Mach.pushCold (m : Mach) (tk t : Nat) : Mach := m.updTeam tk fun k => { k with deque := k.deque ++ [t] }

/-- Deque slots of a team in use (R121, R122): one for each descriptor it holds. A steal under way holds none: its task waits where it
finds every slot taken (DESIGN CHOICE, log entry 113). -/
def Team.slotsUsed (t : Team) : Nat := t.deque.length

/-- Descriptors kept by a gang kill enter the deque at its hot end, in order, while slots are free (R159). -/
def Mach.refill (m : Mach) (tk cap : Nat) : Nat → Mach
  | 0 => m
  | fuel + 1 =>
    match m.team? tk with
    | none => m
    | some t =>
      match t.kept with
      | [] => m
      | (entry, d) :: ds =>
        if cap ≤ t.slotsUsed then m
        else
          let (n, m) := m.fresh
          let m := { m with tasks := m.tasks.put n (Task.queued tk d entry) }
          ((m.updTeam tk fun t => { t with kept := ds }).pushHot tk n).refill tk cap fuel

/-- Takes a task out of its team's deque: a kept descriptor takes the slot (R159), and what the staging engine has asked peers for
the task is forgotten. -/
def Mach.unqueue (m : Mach) (tk t : Nat) : Mach :=
  let m := { m with ops := m.ops.sift fun _ o => !(o.task = t && o.kind matches .fetch ..) }
  (m.updTeam tk fun k => { k with deque := k.deque.filter (· ≠ t) }).refill tk (((m.launchOf tk).map (·.dequeCap)).getD 0) 1

/-- The 32 bytes a spawn reads at a local-store address (R364): unspecified in a staging pool outside its task's buffer (R120). -/
def Mach.descBytes (m : Mach) (c : Issue) (addr : Nat) : List Byte × Mach := m.taskRead c.t (.ls c.tk addr) 32

/-- Checks 1 to 5 of R364 on the descriptor at a local-store address: the fault, or its bytes. -/
def Mach.descChk (m : Mach) (c : Issue) (act : Lanes) (addr : Nat) : Except Chk Desc :=
  let fail (k : Cause) (a : Nat) : Except Chk Desc :=
    .error (.fail { cause := k, oppos := 2, lanes := act, addr := .ofNat 64 a })
  let l := m.launches.get? c.launch
  let bs := (m.descBytes c addr).1
  let d := descOf bs
  if addr % 32 ≠ 0 then fail .align addr
  else if (l.map (·.lsBytes)).getD 0 < addr + 32 then fail .protection addr
  else if m.rangeLocked c.core c.launch c.tk .ls addr 32 false then fail .rangeLocked addr
  else if d.closure.toNat % 128 ≠ 0 then fail .align d.closure.toNat
  else if d.future.toNat % 16 ≠ 0 then fail .align d.future.toNat
  else if (l.map (·.ttCount)).getD 0 ≤ d.typ || !descResOk bs || d.remote then fail .illegal 0
  else .ok d

/-- The checks of R203 and R131 on a future's address: the fault, or the cell's physical address. -/
def Mach.futureChk (m : Mach) (c : Issue) (act : Lanes) (addr : Nat) (write : Bool) : Except Chk Nat :=
  let fail (k : Cause) : Except Chk Nat := .error (.fail { cause := k, oppos := 2, lanes := act, addr := .ofNat 64 addr })
  match m.translateOn c.core c.asid addr { write := write, priv := c.priv } with
  | .bad k => fail k
  | .stall p => .error (.stall p)
  | .ok l => if l.cellOk then .ok l.pa else fail .atomicDeviceSpace

/-- Checks 6 and 7 of R364 on a descriptor's future. -/
def Mach.descFutureChk (m : Mach) (c : Issue) (act : Lanes) (d : Desc) : Chk :=
  if d.future = 0 then .ok
  else match m.futureChk c act d.future.toNat false with
    | .error r => r
    | .ok _ => .ok

/-! ## Spawning -/

/-- What a spawn of a descriptor reports (R122, R364). -/
def Mach.spawnCode (m : Mach) (tk launch : Nat) (d : Desc) : Nat :=
  match m.launches.get? launch, m.team? tk with
  | some l, some t => if (l.scope d.scope).st = .free then 2 else if l.dequeCap ≤ t.slotsUsed then 1 else 0
  | _, _ => 2

/-- `spawn` (R364). -/
def execSpawn (c : Ctl) (d a : Reg) (s : State) : Out :=
  s.on fun m0 =>
    let addr (x : Issue) (act : Lanes) : Nat := (x.f.reg a.toNat (lowLane act)).toNat
    m0.act (.spawn c d a)
      (fun x act => match m0.descChk x act (addr x act) with
        | .error r => r
        | .ok k => match m0.descFutureChk x act k with
          | .ok => m0.releaseChk x act .dv
          | r => r)
      fun x act m =>
        match m0.descChk x act (addr x act) with
        | .error _ => m
        | .ok k =>
          let m := (m.descBytes x (addr x act)).2
          let code := m.spawnCode x.tk x.launch k
          let m := if code = 0 then
              let (n, m) := m.fresh
              let m := { m with tasks := m.tasks.put n (Task.queued x.tk k n) }
              (m.pushHot x.tk n).updLaunch x.launch fun l => l.scopeInc k.scope
            else m
          m.updFrame x.p.frame fun f => f.setLanes d.toNat (laneList act) fun _ => .ofNat 32 code

/-- `spawn.r` (R365): a release at `.sy`, then the descriptor goes to the peer the handle names. -/
def execSpawnR (c : Ctl) (d a b : Reg) (s : State) : Out :=
  s.on fun m0 =>
    let addr (x : Issue) (act : Lanes) : Nat := (x.f.reg a.toNat (lowLane act)).toNat
    let handle (x : Issue) (act : Lanes) : Nat := (x.f.pair b.toNat (lowLane act)).toNat
    m0.long (.spawnR c d a b) false
      (fun x act => match m0.descChk x act (addr x act) with
        | .error r => r
        | .ok k =>
          let h := handle x act
          let peer := h / 2 ^ 16 % 8
          let fail (k : Cause) : Chk := .fail { cause := k, oppos := 3, lanes := act }
          if h / 2 ^ 19 % 2 ^ 13 ≠ 0 || h / 2 ^ 48 ≠ 0 then fail .illegal
          else if peer = m0.device || m0.conn peer = .down || m0.conn peer = .absent then fail .remoteUnavailable
          else match m0.descFutureChk x act k with
            | .ok => m0.releaseChk x act .sy
            | r => r)
      fun x act m =>
        let peer := handle x act / 2 ^ 16 % 8
        match m0.descChk x act (addr x act) with
        | .ok k =>
          let m := (m.descBytes x (addr x act)).2
          (.spawnR k peer d.toNat, { m with peerOut := m.peerOut ++ [PeerMsg.task peer m.serial] })
        | .error _ => (.purge false [], m)

/-- The receiver's code has arrived (R142, R365): CFLAGS.REMOTE of the future is set on code 0, and it resolves
FAULTED(STALE_HANDLE) on code 2, before the flag counts down. -/
def Mach.completeSpawnR (m : Mach) (n : Nat) (o : Op) (k : Desc) (peer d : Nat) : Mach :=
  match o.reply with
  | none => m
  | some bs =>
    let code := bytesNat (bs.take 1)
    let asid := ((m.launchOf o.team).map (·.asid)).getD 0
    let cell : CellOp := ⟨asid, k.future.toNat, if code = 0 then .remote peer else .resolve true (faultValue Cause.staleHandle.code 0)⟩
    match if k.future = 0 || code = 1 then some m else m.cellNow cell with
    | some m => (m.landRegs o ((laneList o.lanes).map fun l => (d, l, .ofNat 32 code))).finishOp n []
    | none => m.cellWaits (.op n) cell

/-! ## Joins -/

/-- The address of the future a join names. -/
def joinAddr (x : Issue) (act : Lanes) (a : Reg) : Nat := (x.f.pair a.toNat (lowLane act)).toNat

/-- The checks of `join`, `join.t` and `resolve` on their future (R366, R367). -/
def Mach.joinChk (m : Mach) (x : Issue) (act : Lanes) (addr : Nat) (write : Bool) : Except Chk Nat :=
  if addr % 16 ≠ 0 then .error (.fail { cause := .align, oppos := 2, lanes := act, addr := .ofNat 64 addr })
  else m.futureChk x act addr write

/-- What a join that has found its cell resolved writes in each lane: the value, or state and value (R366). -/
def joinRegs (trapping : Bool) (d : Nat) (state : Nat) (v : DWord) : List (Nat × Word) :=
  if trapping then [(d, loWord v), (d + 1, hiWord v)]
  else [(d, if state = 1 then 1 else 2), (d + 1, 0), (d + 2, loWord v), (d + 3, hiWord v)]

/-- Writes the registers of a join in its lanes; the shadow warp takes them from the load-value queue (R156). -/
def Mach.writeJoin (m : Mach) (fr : Nat) (act : Lanes) (ws : List (Nat × Word)) : Mach :=
  m.updFrame fr fun f => ws.foldl (fun f w => (laneList act).foldl (fun f n => f.setBoth w.1 n w.2) f) f

/-- Records a waiter of a cell: WAITHEAD is some number that is not zero (R131, log entry 1). -/
def Mach.addWaiter (m : Mach) (pa : Nat) : Mach :=
  let (bs, m) := m.takeBytes 6
  m.setMem (Memory.writeN m.mem (pa + 10) (match bs with
    | b :: rest => (b ||| 1) :: rest
    | [] => []))

/-- Whether a join waits to be served: its cell is held (R50, R161), or earlier accesses of its task and stores of its core to
the cell are still to be performed (R206, R210). -/
def Mach.joinHeld (m : Mach) (x : Issue) (pa : Nat) : Bool :=
  m.placeWaits true (.dev pa) || m.overtakes x.t none [(.dev pa, 16)] || m.storeBefore x.core m.serial [(.dev pa, 16)]

/-- `join` and `join.t` (R366): the cell's value, a wait, or FUTURE_FAULTED. -/
def Mach.joinOp (m0 : Mach) (i : Instr) (trapping : Bool) (d a : Reg) : Mach :=
  m0.issue i (fun x _ => x.p.lanes)
    (fun x act => match m0.joinChk x act (joinAddr x act a) false with
      | .error r => r
      | .ok pa =>
        if m0.joinHeld x pa then .wait
        else if trapping && 2 ≤ m0.cellState pa then
          .fail { cause := .futureFaulted, oppos := 2, lanes := act, addr := .ofNat 64 (joinAddr x act a) }
        else .ok)
    fun x act m =>
      match if act = 0 then .error .ok else m0.joinChk x act (joinAddr x act a) false with
      | .error _ => (.on 0 [], m)
      | .ok pa =>
        let m := (m.consume x.tk x.w (m.poisoned (.dev pa) 16) (joinAddr x act a)).dropCopies x.core [lineOf pa]
        let st := m.cellState pa
        if st = 0 then
          (.stop (.waiting (.join pa (.ofNat 64 (joinAddr x act a)) trapping d.toNat act)), m.addWaiter pa)
        else (.on 0 [], (m.writeJoin x.p.frame act (joinRegs trapping d.toNat st (m.cellValue pa))).acquire x.core .dv)

/-- `join` (R366). -/
def execJoin (c : Ctl) (d a : Reg) (s : State) : Out := s.on fun m => m.joinOp (.join c d a) true d a

/-- `join.t` (R366). -/
def execJoinT (c : Ctl) (d a : Reg) (s : State) : Out := s.on fun m => m.joinOp (.joinT c d a) false d a

/-- A parked path consumes poisoned bytes: its gang is to be killed (R155, R157); the record is of the path (R260). -/
def Mach.consumeParked (m : Mach) (k : Task) (p : Path) (bad : Bool) (addr : DWord) : Mach :=
  match bad, m.team? k.team with
  | true, some t => m.askKill t.launch t.gang { strangerRecord Cause.uncorrectable.code t.launch t.ix addr with
      lanes := p.lanes, pc := p.pc, depth := ((m.frames.get? p.frame).map (·.depth)).getD 0 }
  | _, _ => m

/-- The waiters of a cell that one task holds read it again (R132, R366): those of a resolved cell take its value and go on;
a `join` of a FAULTED one stands at its instruction again, to trap; those of an EMPTY one wait on. -/
def Mach.wakeJoins (m : Mach) (t cell : Nat) : Mach :=
  match m.tasks.get? t with
  | none => m
  | some k =>
    let st := m.cellState cell
    let v := m.cellValue cell
    let traps (trapping : Bool) : Bool := trapping && 2 ≤ st
    let m := k.paths.foldl (fun m p => match p.st with
      | .waiting (.join c va trapping d act) =>
        if c = cell && !traps trapping then
          let m := m.writeJoin p.frame act (joinRegs trapping d st v)
          match k.st with
          | .running w => m.consume k.team w (m.poisoned (.dev cell) 16) va.toNat
          | _ => m.consumeParked k p (m.poisoned (.dev cell) 16) va
        else m
      | _ => m) m
    let core := ((m.team? k.team).map (·.core)).getD 0
    (m.wakePaths t (fun p => match p.st with
        | .waiting (.join c ..) => c = cell
        | _ => false)
      fun p => match p.st with
        | .waiting (.join _ _ trapping _ _) => if traps trapping then { p with st := .eligible } else m.pastWait t p
        | _ => p).dropCopies core [lineOf cell] |>.acquire core .dv

/-- `JOIN_WAKE` (R132, R133): the waiters of a cell that has been resolved or written act on the state they find. -/
def execJoinWake (s : State) : Out :=
  s.on fun m =>
    let cell := s.subj.x
    let hit (k : Task) : Bool := k.paths.any fun p => match p.st with
      | .waiting (.join c ..) => c = cell
      | _ => false
    let ts := m.tasks.filter fun e => hit e.2 && ((m.team? e.2.team).any fun t => t.res ≠ .ended)
    if m.placeWaits true (.dev cell) then m
    else if m.cellState cell = 0 then (if ts = [] then m else m.addWaiter cell)
    else ts.foldl (fun m e => m.wakeJoins e.1 cell) m

/-- `resolve` (R367). -/
def execResolve (c : Ctl) (d a b : Reg) (s : State) : Out :=
  s.on fun m0 => m0.long (.resolve c d a b) false
    (fun x act => match m0.joinChk x act (joinAddr x act a) true with
      | .error r => r
      | .ok _ => m0.releaseChk x act .dv)
    fun x act m =>
      let cell := match m0.joinChk x act (joinAddr x act a) true with
        | .ok pa => some pa
        | .error _ => none
      let m := match cell with
        | some pa => m.send m.serial x.core [.dev pa]
        | none => m
      (.resolve cell (x.f.pair b.toNat (lowLane act)) d.toNat, m)

/-- The home answers a `resolve` (R132, R367): 0 where the cell was EMPTY, 1 where it was resolved. -/
def Mach.completeResolve (m : Mach) (n : Nat) (o : Op) (cell : Option Nat) (v : DWord) (d : Nat) : Mach :=
  match cell with
  | none => m.finishOp n []
  | some pa =>
    if !m.served n true [.dev pa] then m
    else
      let bad := m.poisoned (.dev pa) 16
      let (was, m) := m.resolveCell pa 1 v
      let m := (m.dropCopies o.core [lineOf pa]).landRegs o ((laneList o.lanes).map fun l => (d, l, if was then 0 else 1))
      (m.consume o.team o.warp bad pa).finishOp n []

/-! ## The end of a task, scopes, capacity -/

/-- `task.end` (R368): it waits for the warp's unacknowledged stores; long-latency operations run on. -/
def execTaskEnd (c : Ctl) (v : Option Reg) (s : State) : Out :=
  s.on fun m => m.issue (.taskEnd c v) (fun x act => if act = 0 then x.p.lanes else 0)
    (fun x act => m.ackChk x act .dv) fun x act m =>
      if act = 0 then (.on 0 [], m)
      else (.gone, m.finishTask x (match v with
        | some r => x.f.pair r.toNat (lowLane act)
        | none => 0))

/-- `fin.open` (R369). -/
def execFinOpen (c : Ctl) (d a b : Reg) (s : State) : Out :=
  s.on fun m => m.long (.finOpen c d a b) false (fun _ _ => .ok) fun x act m =>
    (.finOpen ((x.f.reg a.toNat (lowLane act)).toNat % 256) ((x.f.reg b.toNat (lowLane act)).toNat % 256) d.toNat, m)

/-- `fin.open` is applied (R135): 0 where the scope became OPEN, 1 where the table reports failure. -/
def Mach.completeFinOpen (m : Mach) (n : Nat) (o : Op) (sc p d : Nat) : Mach :=
  let ok := (m.launchOf o.team).any fun l => sc ≠ 0 && (l.scope sc).st = .free && (l.scope p).st ≠ .free
  let m := match ok, m.team? o.team with
    | true, some t => m.updLaunch t.launch fun l =>
        let l := l.scopeInc p
        { l with scopes := l.scopes.put sc ⟨.opened, p, 0⟩ }
    | _, _ => m
  (m.landRegs o ((laneList o.lanes).map fun l => (d, l, if ok then 0 else 1))).finishOp n []

/-- The scope `fin.close` and `fin.wait` name (R363). -/
def finScope (x : Issue) (act : Lanes) (s : FsRef) : Nat :=
  match s with
  | .imm n => n.toNat
  | .reg a => (x.f.reg a.toNat (lowLane act)).toNat % 256

/-- `fin.close` (R369): an OPEN scope closes; with its count zero it is FREE at once (R135). -/
def execFinClose (c : Ctl) (sc : FsRef) (s : State) : Out :=
  s.on fun m => m.act (.finClose c sc) (fun _ _ => .ok) fun x act m =>
    let n := finScope x act sc
    let m := m.updLaunch x.launch fun l =>
      if n ≠ 0 && (l.scope n).st = .opened then
        { l with scopes := l.scopes.put n { l.scope n with st := .closing } }.settleScope 256 n
      else l
    m.wakeScopes x.launch

/-- `fin.wait` (R369): waits until the scope is quiet, then acquires at `.dv`. -/
def execFinWait (c : Ctl) (sc : FsRef) (s : State) : Out :=
  s.on fun m => m.issue (.finWait c sc) (fun x _ => x.p.lanes) (fun _ _ => .ok) fun x act m =>
    let n := finScope x act sc
    if act = 0 then (.on 0 [], m)
    else if (m.launches.get? x.launch).any fun l => l.quiet n then (.on 0 [], m.acquire x.core .dv)
    else (.stop (.waiting (.fin n)), m)

/-- Staging-pool ranges of a team that task buffers hold, in 256-byte units (R120). -/
def Mach.heldUnits (m : Mach) (tk : Nat) : List (Nat × Nat) :=
  ((m.tasksOf tk).filterMap fun e => if e.2.bufImage.isNone then e.2.buf else none).map fun b => (b.1 / 256, b.2 / 256)

/-- Unit bounds of a team's staging pool: first and end (R120). -/
def Mach.poolUnits (m : Mach) (tk : Nat) : Nat × Nat :=
  match m.launchOf tk with
  | some l => (l.teamKib * 4, l.lsBytes / 256)
  | none => (0, 0)

/-- Whether n units from u lie free within bounds. -/
def runFree (held : List (Nat × Nat)) (u n hi : Nat) : Bool := u + n ≤ hi && !(held.any fun h => h.1 < u + n && u < h.1 + h.2)

/-- First fit from the lowest unit: a run begins at the pool's start or at the end of a held range. -/
def firstFit (held : List (Nat × Nat)) (lo hi n : Nat) : Option Nat :=
  let starts := (lo :: held.map fun h => h.1 + h.2).filter fun u => lo ≤ u && runFree held u n hi
  match starts with
  | [] => none
  | u :: us => some (us.foldl min u)

/-- Free units from u on, up to the next held range. -/
def runAt (held : List (Nat × Nat)) (hi u : Nat) : Nat :=
  if held.any fun h => h.1 ≤ u && u < h.1 + h.2 then 0
  else (held.foldl (fun e h => if u ≤ h.1 then min e h.1 else e) hi) - u

/-- Largest free run of a pool (R370). -/
def largestRun (held : List (Nat × Nat)) (lo hi : Nat) : Nat :=
  ((lo :: held.map fun h => h.1 + h.2).map fun u => runAt held hi u).foldl max 0

/-- Bytes of one save region of a launch (R95). -/
def Launch.saveSize (l : Launch) : Nat :=
  let k := l.scale
  let base := k * l.granules * 1024 + l.lsBytes + k * l.warps * 6144 + (l.dequeCap + 3 * k * l.warps) * 32 + 4096
  (base + 4095) / 4096 * 4096 + k * l.accSlots * 4096

/-- Offset of the Escapement region in the spill area (R95, R267). -/
def Launch.escBase (l : Launch) : Nat := l.saveSize * l.gangs * l.cores

/-- The idle count of a team (R139). -/
def Mach.idleCount (m : Mach) (t : Team) : Nat := m.clock - t.idleSince

/-- What `capq` reports (R370). -/
def Mach.capValue (m : Mach) (tk sel : Nat) : Nat :=
  match m.team? tk, m.launchOf tk with
  | some t, some l =>
    match sel with
    | 0 => l.dequeCap - t.slotsUsed
    | 1 => l.scale * (m.granulesCharge tk - m.granulesUsed tk)
    | 2 => largestRun (m.heldUnits tk) (m.poolUnits tk).1 (m.poolUnits tk).2
    | 3 => min ((l.spillSize - l.escBase - l.images.foldl (fun n i => n + i.size) 0) / 4096) 0xFFFFFFFF
    | 4 => ((m.warpsOf tk).filter fun w => w.2.st = .idle).length
    | 5 => t.deque.length
    | _ => min (m.idleCount t / 1024) 0xFFFFFFFF
  | _, _ => 0

/-- `capq` (R370). -/
def execCapq (c : Ctl) (n : BitVec 4) (d : Reg) (s : State) : Out :=
  s.on fun m => m.act (.capq c n d) (fun _ _ => .ok) fun x act m =>
    m.updFrame x.p.frame fun f => f.setLanes d.toNat (laneList act) fun _ => .ofNat 32 (m.capValue x.tk n.toNat)

/-! ## The task-type table (R116-R118) -/

/-- An operand declaration from its 96 bits (R118). -/
def operOf (v : Nat) : Oper :=
  ⟨v / 2 ^ 64 % 2 ^ 16, v / 2 ^ 36 % 2 ^ 24, v / 2 ^ 32 % 8, v / 2 ^ 29 % 8, v / 2 ^ 25 % 16, v / 2 ^ 19 % 64, v / 2 ^ 14 % 32,
    v / 2 ^ 9 % 32, v / 2 ^ 4 % 32, v % 16⟩

/-- Whether a declaration's reserved bits and codes are in range (R118). -/
def operOk (v : Nat) : Bool :=
  v / 2 ^ 80 = 0 && v / 2 ^ 60 % 16 = 0 && !bit v 35 && v / 2 ^ 32 % 8 < 6 && v / 2 ^ 29 % 8 ≠ 7

/-- A task-type entry from its 64 bytes (R116), where it is well formed for a launch with the local store given (R117). -/
def tteOf (bs : List Byte) (lsBytes teamKib : Nat) : Option TtEntry :=
  let oper (k : Nat) : Nat := field bs (16 + 12 * k) 12
  let noper := field bs 12 1
  let e : TtEntry := ⟨.ofNat 64 (field bs 0 8), field bs 8 1, field bs 9 1 % 8, field bs 10 2, noper, field bs 14 2,
    (List.range noper).map fun k => operOf (oper k)⟩
  if e.entry.toNat % 64 = 0 && e.frame < 32 && field bs 9 1 < 8 && e.lsdem ≤ 2048 && noper ≤ 4 && field bs 13 1 = 0 &&
      (List.range noper).all (fun k => operOk (oper k)) && e.lsdem * 256 ≤ lsBytes - teamKib * 1024 then some e
  else none

/-- Reads n bytes of a virtual range that a hub or staging engine reads, page by page, servicing replayable conditions; or
the cause and the first byte that could not be read. What a peer answers is its own (log entry 17). -/
def Mach.readVa (m : Mach) (asid va : Nat) (poison : Bool) : Nat → Nat → Except (Cause × Nat) (List Byte × Bool) × Mach
  | 0, _ => (.ok ([], poison), m)
  | fuel + 1, n =>
    if n = 0 then (.ok ([], poison), m)
    else match m.translateServiced asid va {} with
      | (.ok l, m) =>
        let k := min n (l.size - va % l.size)
        match m.readVa asid (va + k) (poison || m.poisoned (.dev l.pa) k) fuel (n - k) with
        | (.ok (bs, p), m) =>
          let (own, m) := if regionOf l.pa matches .peer _ then m.takeBytes k else (m.homeRead l.pa k, m)
          (.ok (own ++ bs, p), m)
        | r => r
      | (.bad c, m) => (.error (c, va), m)
      | (.stall _, m) => (.error (.pageFault, va), m)

/-- Reads an entry of a launch's task-type table: the entry, or the address a staging fault reports (R126). What a reading returns of
a table the program has changed the manual leaves open; here it is the bytes as they now are (DESIGN CHOICE, log entry 101). -/
def Mach.readTte (m : Mach) (l : Launch) (typ : Nat) : Except Nat TtEntry × Mach :=
  let va := l.ttBase.toNat + 64 * typ
  match m.readVa l.asid va false 2 64 with
  | (.error (_, a), m) => (.error a, m)
  | (.ok (bs, _), m) =>
    match tteOf bs l.lsBytes l.teamKib with
    | some e => (.ok e, m)
    | none => (.error va, m)

/-! ## Staging -/

/-- A task's stay in its deque ends by a staging fault (R126, R127): buffer and slot freed, the future FAULTED. -/
def Mach.stagingFault (m : Mach) (t cause : Nat) (addr k scope : Nat) (sv : Bool) : Mach :=
  match m.tasks.get? t with
  | none => m
  | some x =>
    let (l, ix) := match m.team? x.team with
      | some tm => (tm.launch, tm.ix)
      | none => (0, 0)
    let r : FaultRec := { strangerRecord cause l ix (.ofNat 64 addr) with oppos := k, scope := scope, sv := sv }
    (m.unqueue x.team t).endTask t (.faulted r)

/-- The rows a declaration names (R119): source address and packed offset of each, its row length. -/
structure StagePlan where
  addr : Nat
  rowlen : Nat
  rows : Nat
  stride : Nat
  dst : Nat
  fmt : Nat
  deriving DecidableEq, Repr

/-- A signed closure word (R119). -/
def sword (line : List Byte) (w : Nat) : Int := extBits 32 true (field line (4 * w) 4)

/-- Evaluates a declaration on a closure line (R119). -/
def planOf (line : List Byte) (o : Oper) (x y z buffer : Nat) : StagePlan :=
  let a : Int := (field line (8 * o.basef) 8 : Int) + x * sword line o.sxf + y * sword line o.syf + z * sword line o.szf
  ⟨(BitVec.ofInt 64 a).toNat, (o.rowb + 1) * 16, o.rowsM1 + 1, o.rstride, buffer + o.lsoff * 16, o.fmt⟩

/-- Whether a declaration is valid but for its page (R119). -/
def planOk (p : StagePlan) (o : Oper) (limit : Nat) : Bool :=
  (p.fmt ≠ 6 || p.rowlen % 64 = 0) && (o.scope = 0 || o.rowsM1 = 0 || p.rowlen ≤ p.stride) &&
    o.lsoff * 16 + p.rows * p.rowlen ≤ limit

/-- What staging one declaration comes to: a fault (cause, address, group position), a wait, or the rows' bytes. -/
inductive StageRes where
  | fault (cause addr : Nat) (group : Option Nat)
  | wait
  | done (rows : List (List Byte)) (poison : Bool)
  deriving DecidableEq, Repr

/-- Blocks of 64 bytes of a row. -/
def blocksOf (row : List Byte) : List (List Byte) := (List.range (row.length / 64)).map fun i => (row.drop (64 * i)).take 64

/-- What a peer has answered the staging engine for part k of a task, n bytes from an address: their bytes, and whether poisoned
(R125, R155). Part 0 is the closure line, part k + 1 declaration k. -/
def Mach.fetched (m : Mach) (t k pa n : Nat) : Option (List Byte × Bool) :=
  (m.ops.find? fun o => o.2.task = t && o.2.kind = .fetch k pa n).bind fun o => o.2.reply.map fun bs => (bs, o.2.replyBad)

/-- Asks a peer for the bytes of part k of a task, once (R31, R125). -/
def Mach.askFetch (m : Mach) (t : Nat) (x : Task) (core peer k pa n : Nat) : Mach :=
  if m.ops.any fun o => o.2.task = t && o.2.kind = .fetch k pa n then m
  else
    { m with
      ops := m.ops.put m.serial ⟨x.team, 0, t, 0, core, none, 0, 0, false, none, false, false, false, 0, .fetch k pa n⟩
      peerOut := m.peerOut ++ [.request peer m.serial]
      serial := m.serial + 1 }

/-- The closure line of a task for the staging engine (R119, R125): a cause and address, a wait for a peer, or its bytes and
whether they are poisoned. -/
def Mach.closureLine (m : Mach) (t : Nat) (x : Task) (core asid : Nat) : Except (Option Nat) (List Byte × Bool) × Mach :=
  let va := x.desc.closure.toNat
  match m.translateServiced asid va {} with
  | (.ok l, m) =>
    match regionOf l.pa with
    | .peer q => match m.fetched t 0 l.pa 128 with
      | some r => (.ok r, m)
      | none => (.error none, m.askFetch t x core q 0 l.pa 128)
    | _ => (.ok (m.homeRead l.pa 128, m.poisoned (.dev l.pa) 128), m)
  | (_, m) => (.error (some va), m)

/-- Asks peers for the rows of declarations that lie there (R125): whether every answer has come. -/
def Mach.askRows (m : Mach) (t : Nat) (x : Task) (core asid : Nat) (line : List Byte) : List (Nat × Oper) → Bool × Mach
  | [] => (true, m)
  | (k, o) :: rest =>
    let p := planOf line o x.desc.x x.desc.y x.desc.z 0
    let (here, m) := match m.translateServiced asid p.addr {} with
      | (.ok l, m) => match regionOf l.pa with
        | .peer q =>
          if (m.fetched t (k + 1) l.pa (p.rows * p.rowlen)).isSome then (true, m)
          else (false, m.askFetch t x core q (k + 1) l.pa (p.rows * p.rowlen))
        | _ => (true, m)
      | (_, m) => (true, m)
    let (all, m) := m.askRows t x core asid line rest
    (here && all, m)

/-- Reads the rows of a plan (R125, R126): waits for range locks of the launch, checks packed blocks (R236). -/
def Mach.stageRead (m : Mach) (t k core launch tk asid : Nat) (p : StagePlan) : StageRes × Mach :=
  let foot := (p.rows - 1) * p.stride + p.rowlen
  match m.translateServiced asid p.addr {} with
  | (.bad _, m) => (.fault Cause.prefetchFault.code p.addr none, m)
  | (.stall _, m) => (.fault Cause.prefetchFault.code p.addr none, m)
  | (.ok l, m) =>
    let ps := (List.range p.rows).map fun i => Place.dev (l.pa + i * p.stride)
    if l.size < p.addr % l.size + foot || m.freedIn l.pa foot then (.fault Cause.prefetchFault.code p.addr none, m)
    else if (List.range p.rows).any fun i => m.rangeLocked core launch tk .va (p.addr + i * p.stride) p.rowlen false then
      (.wait, m)
    else if ps.any (m.placeWaits false) then (.wait, m)
    else
      let (here, m) := m.roundTrip t core (if (Place.dev l.pa).peer?.isSome then [] else ps)
      if !here then (.wait, m) else
      let (rows, bad) := match m.fetched t (k + 1) l.pa (p.rows * p.rowlen) with
        | some (bs, bad) => (rowsOf p.rowlen bs p.rows, bad)
        | none => ((List.range p.rows).map fun i => m.homeRead (l.pa + i * p.stride) p.rowlen,
            (List.range p.rows).any fun i => m.poisoned (.dev (l.pa + i * p.stride)) p.rowlen)
      let flawed := if p.fmt = 6 then
          (rows.zipIdx.flatMap fun r => (blocksOf r.1).zipIdx.map fun b => (b.1, p.addr + r.2 * p.stride + 64 * b.2)).findSome?
            fun b => (blockFault b.1 fun _ => true).map fun g => (b.2, if blockUndefined b.1 then none else some g)
        else none
      match flawed with
      | some (a, g) => (.fault Cause.format.code a g, m)
      | none => (.done rows bad, m)

/-- Writes staged rows, packed from a local-store offset (R119). -/
def Mach.stageWrite (m : Mach) (tk dst : Nat) (rows : List (List Byte)) (poison : Bool) : Mach :=
  (rows.foldl (fun (p : Nat × Mach) r =>
    (p.1 + r.length, (p.2.placeWrite (.ls tk p.1) r).movePoison (.ls tk p.1) r.length poison)) (dst, m)).2

/-- Stages declarations of a task in ascending order (R124): whether none waits any more, one that faults being the last, and the
machine with what is staged. -/
def Mach.stageOpers (m : Mach) (t : Nat) (x : Task) (core launch asid : Nat) (line : List Byte) (poison : Bool) :
    List (Nat × Oper) → Bool × Mach
  | [] => (true, m)
  | (k, o) :: rest =>
    let buf := x.buf.getD (0, 0)
    let p := planOf line o x.desc.x x.desc.y x.desc.z buf.1
    if !planOk p o buf.2 then (true, m.stagingFault t Cause.prefetchFault.code p.addr k o.scope true)
    else match m.stageRead t k core launch x.team asid p with
      | (.fault c a g, m) => (true, m.stagingFault t c a (g.getD k) o.scope true)
      | (.wait, m) => (false, m)
      | (.done rows bad, m) =>
        ((m.stageWrite x.team p.dst rows (bad || poison)).updTask t fun x =>
          { x with opers := k + 1, staged := x.staged + p.rows * p.rowlen }).stageOpers t x core launch asid line poison rest

/-- The staging engine goes on with a task (R124): its closure line is read and declarations not yet staged are, all of them, after
which the task is READY, or the next one where others follow; or a staging fault ends it. What is read of a closure line the program
has changed since the spawn the manual leaves open; here it is the bytes as they now are (DESIGN CHOICE, log entry 101). -/
def Mach.stageTask (m : Mach) (t : Nat) (all : Bool) : Mach :=
  match m.tasks.get? t with
  | none => m
  | some x =>
    match x.st, m.team? x.team, x.tte with
    | .staging, some tm, some e =>
      if tm.res = .ended || m.dying x.team then m
      else match m.launches.get? tm.launch with
        | none => m
        | some l =>
          let left := (e.opers.zipIdx.map fun o => (o.2, o.1)).drop x.opers
          let opers := if all then left else if 1 < left.length then left.take 1 else []
          if opers = [] && !all then m
          else match m.closureLine t x tm.core l.asid with
          | (.error (some a), m) =>
            m.stagingFault t Cause.prefetchFault.code a ((left.head?.map (·.1)).getD 0) ((left.head?.map (·.2.scope)).getD 0) true
          | (.error none, m) => m
          | (.ok (line, bad), m) =>
            match m.askRows t x tm.core l.asid line opers with
            | (false, m) => m
            | (true, m) =>
              match m.stageOpers t x tm.core tm.launch l.asid line bad opers with
              | (done, m) =>
                if all && done then
                  { m.updTask t fun k => if k.st = .staging then { k with st := .ready } else k with
                    ops := m.ops.sift fun _ o => !(o.task = t && o.kind matches .fetch ..) }
                else m
    | _, _, _ => m

/-- `STAGING_COMPLETE` (R124, R130): what is left of a task's declarations is staged and the task is READY; or a staging fault ends
it. -/
def execStagingComplete (s : State) : Out := s.on fun m => m.stageTask s.subj.x true

/-- Tasks in staging on a core (R124). -/
def Mach.stagingOn (m : Mach) (core : Nat) : Nat :=
  (m.tasks.filter fun e => e.2.st = .staging && (m.team? e.2.team).any fun t => t.core = core).length

/-- Whether an explicit staging operation of a core is to be taken before the next task (R377). -/
def Mach.stageOpsOn (m : Mach) (core : Nat) : Bool := m.ops.any fun o => o.2.core = core && o.2.kind matches .stage _

/-- PRIO of a QUEUED task's type as its table now reads (R124). Where it cannot be read, the task is ordered as if PRIO were 0; the
manual does not say (DESIGN CHOICE, log entry 114). -/
def Mach.typePrio (m : Mach) (l : Launch) (t : Nat) : Nat :=
  match m.tasks.get? t with
  | some x => match (m.readTte l x.desc.typ).1 with
    | .ok e => e.prio
    | .error _ => 0
  | none => 0

/-- QUEUED tasks of a team in the order the staging engine tries them (R124): priority, then nearness to the hot end. -/
def Mach.stagingOrder (m : Mach) (l : Launch) (deque : List Nat) : List Nat :=
  let qs := (deque.filter fun t => (m.tasks.get? t).any fun x => x.st = .queued).map fun t => (m.typePrio l t, t)
  (List.range 8).flatMap fun i => (qs.filter fun q => q.1 = 7 - i).map (·.2)

/-- Starts the first task of a list that can be started (R124). -/
def Mach.startStaging (m : Mach) (tk : Nat) (l : Launch) : List Nat → Mach
  | [] => m
  | t :: ts =>
    match m.tasks.get? t with
    | none => m.startStaging tk l ts
    | some x =>
      match m.readTte l x.desc.typ with
      | (.error a, m) => m.stagingFault t Cause.prefetchFault.code a 0 0 false
      | (.ok e, m) =>
        let pool := m.poolUnits tk
        let fit := if e.lsdem = 0 then some 0 else firstFit (m.heldUnits tk) pool.1 pool.2 e.lsdem
        match fit with
        | none => m.startStaging tk l ts
        | some u =>
          m.updTask t fun x => { x with
            tte := some e
            buf := if e.lsdem = 0 then none else some (u * 256, e.lsdem * 256)
            st := if e.noper = 0 then .ready else .staging }

/-- `STAGING_START` (R124): the staging engine of a team's core starts a QUEUED task. -/
def execStagingStart (s : State) : Out :=
  s.on fun m =>
    let tk := s.subj.x
    match m.team? tk, m.launchOf tk with
    | some tm, some l =>
      if !tm.runs || m.dying tk || 8 ≤ m.stagingOn tm.core || m.stageOpsOn tm.core then m
      else
        m.startStaging tk l (m.stagingOrder l (((m.team? tk).map (·.deque)).getD []))
    | _, _ => m

/-! ## Escapement images -/

/-- Writes an image's bytes, the free values from number base on, to the region of a launch, page by page. -/
def Mach.writeFrom (m : Mach) (asid va base : Nat) : Nat → Nat → Option (Cause × Nat) × Mach
  | 0, _ => (none, m)
  | fuel + 1, n =>
    if n = 0 then (none, m)
    else match m.translateServiced asid va { write := true } with
      | (.ok l, m) =>
        let k := min n (l.size - va % l.size)
        (m.placeWrite (.dev l.pa) ((List.range k).map fun i => Config.freeByte (base + i))).writeFrom asid (va + k) (base + k)
          fuel (n - k)
      | (.bad c, m) => (some (c, va), m)
      | (.stall _, m) => (some (.pageFault, va), m)

/-- Writes an image of n bytes to the region of a launch; the layout is the device's own, so every byte is free (R272, log entry
1). The cause and address of a fatal condition, where one stops it; the number of the first free byte. -/
def Mach.writeImage (m : Mach) (asid va n : Nat) : Option (Cause × Nat) × Nat × Mach :=
  let base := m.free
  let (r, m) := ({ m with free := m.free + n } : Mach).writeFrom asid va base (n / 65536 + 2) n
  (r, base, m)

/-- Room for an image of n bytes in a launch's Escapement region, first fit (R267): its offset. -/
def Launch.imageFit (l : Launch) (n : Nat) : Option Nat :=
  (firstFit (l.images.map fun i => (i.off / 256, i.size / 256)) (l.escBase / 256) (l.spillSize / 256) (n / 256)).map (· * 256)

/-- Bytes of the image of a frame of k granules (R267). -/
def imageBytes (k : Nat) : Nat := 256 * ((1152 * k + 128 + 255) / 256)

/-- Whether unit k of the size given lies in n bytes from an offset. -/
def inBuffer (off n unit k : Nat) : Bool := off ≤ k * unit && k * unit < off + n

/-- Writes an image for a team's launch, of the frame whose leader's image is `pair` or of the buffer at the offset given: its offset
where it fits; a fatal write kills the gang (R260). -/
def Mach.spillImage (m : Mach) (tk n : Nat) (pair buf : Option Nat) : Option Nat × Mach :=
  match m.team? tk, m.launchOf tk with
  | some t, some l =>
    match l.imageFit n with
    | none => (none, m)
    | some off =>
      match m.writeImage l.asid (l.spillBase.toNat + off) n with
      | (some (c, a), _, m) => (none, m.askKill t.launch t.gang (strangerRecord c.code t.launch t.ix (.ofNat 64 a)))
      | (none, base, m) =>
        let i : Image := match buf with
          | some a => ⟨off, n, pair, base, m.lsRead tk a n, t.spoilt.filter (inBuffer a n 16), t.lsPoison.filter (inBuffer a n 128)⟩
          | none => ⟨off, n, pair, base, [], [], []⟩
        (some off, m.updLaunch t.launch fun l => { l with images := l.images ++ [i], spills := l.spills + 1 })
  | _, _ => (none, m)

/-- The tasks of a team in a state, the one with the lowest order number first. -/
def earliest (ts : List (Nat × Task)) : Option (Nat × Task) :=
  match ts with
  | [] => none
  | t :: rest => some (rest.foldl (fun b x => if x.2.order < b.2.order then x else b) t)

/-- Whether the range of a spilled buffer is free (R127). -/
def Mach.rangeFree (m : Mach) (tk : Nat) (b : Nat × Nat) : Bool :=
  runFree (m.heldUnits tk) (b.1 / 256) (b.2 / 256) (m.poolUnits tk).2

/-- The local store of a team takes back what a spilled buffer held (R127): its bytes, which of its byte-barrier cells have specified
fields (R361), its poison (R155). -/
def Mach.refillBuffer (m : Mach) (tk off : Nat) (i : Image) : Mach :=
  m.updTeam tk fun t => { t with
    ls := Memory.writeN t.ls off i.bytes
    spoilt := i.spoilt.foldl (fun l g => insertNat g l) (t.spoilt.filter fun g => !inBuffer off i.bytes.length 16 g)
    lsPoison := i.poison.foldl (fun l g => insertNat g l) (t.lsPoison.filter fun g => !inBuffer off i.bytes.length 128 g) }

/-- Brings a spilled staging buffer back to its own offsets (R127): what it held, or free bytes where something has written to
its image (R272). One that is poisoned asks for the kill of the gang (R155). -/
def Mach.restoreBuffer (m : Mach) (t : Nat) : Mach :=
  match m.tasks.get? t with
  | some x => match x.bufImage, x.buf, (m.team? x.team).bind fun tm => (m.launches.get? tm.launch).map fun l => (tm.launch, l) with
    | some off, some buf, some (ln, l) =>
      let m := (m.updTask t fun x => { x with bufImage := none }).updLaunch ln fun l => l.dropImages [off]
      match l.images.find? fun i => i.off = off with
      | some i =>
        let va := l.spillBase.toNat + off
        let m := m.readBad x.team va (m.imageBad l.asid va (i.size / 65536 + 2) i.size)
        if m.imageIntact l.asid va i.base (i.size / 65536 + 2) i.size then m.refillBuffer x.team buf.1 i
        else
          let (bs, m) := m.takeBytes i.bytes.length
          m.lsWrite x.team buf.1 bs
      | none => m
    | _, _, _ => m
  | none => m

/-- `LS_SHORTAGE` (R127): Escapement makes room for the waiting buffer, or restores a RESUMABLE task's, or the waiting QUEUED
task ends with SPILL_FULL. -/
def execLsShortage (s : State) : Out :=
  s.on fun m =>
    let tk := s.subj.x
    match m.team? tk, m.launchOf tk with
    | some tm, some l =>
      let ts := m.tasksOf tk
      let resumable := ts.filter fun e => e.2.st = .resumable
      let idle := (m.warpsOf tk).any fun w => w.2.st = .idle
      let short := tm.runs && idle && !(ts.any fun e => e.2.st = .ready) && !(resumable.any fun e => e.2.bufImage.isNone) &&
        !(ts.any fun e => e.2.st = .staging) && !(m.stageOpsOn tm.core)
      let queued := (m.stagingOrder l tm.deque).head?
      let want := queued.bind fun t => (m.tasks.get? t).bind fun x => match (m.readTte l x.desc.typ).1 with
        | .ok e => some e.lsdem
        | .error _ => none
      let pool := m.poolUnits tk
      let waiter := match want with
        | some n => if (firstFit (m.heldUnits tk) pool.1 pool.2 n).isSome then none else queued
        | none => none
      if !short then m
      else match earliest resumable with
        | some (t, x) => if x.buf.all (m.rangeFree tk) then m.restoreBuffer t else spillOne m tk waiter
        | none => if waiter.isSome then spillOne m tk waiter else m
    | _, _ => m
where
  /-- Spills the buffer of the task parked least recently; where the area cannot hold it, the QUEUED waiter faults. -/
  spillOne (m : Mach) (tk : Nat) (queued : Option Nat) : Mach :=
    let victim := earliest ((m.tasksOf tk).filter fun e => e.2.st = .parked && e.2.bufImage.isNone && e.2.buf.isSome)
    match victim with
    | none => m
    | some (v, x) =>
      let (off, n) := x.buf.getD (0, 0)
      match m.spillImage tk n none (some off) with
      | (some off, m) => m.updTask v fun x => { x with bufImage := some off }
      | (none, m') =>
        if m'.kills ≠ m.kills then m'
        else match queued with
          | some q => m.stagingFault q Cause.spillFull.code 0 0 0 false
          | none => m

/-! ## Task start -/

/-- The entry registers of a task (R128). -/
def Task.entryRegs (x : Task) : List Word :=
  [loWord x.desc.closure, hiWord x.desc.closure, .ofNat 32 x.desc.x, .ofNat 32 x.desc.y, .ofNat 32 x.desc.z,
    .ofNat 32 (x.desc.scope + 2 ^ 8 * x.desc.typ), .ofNat 32 ((x.buf.map (·.1)).getD 0), 0]

/-- The entry frame of a task is allocated: the task runs from ENTRY, or R129 ends it. -/
def Mach.startTask (m : Mach) (tk w t : Nat) : Mach :=
  match m.tasks.get? t, m.team? tk, m.launchOf tk with
  | some x, some tm, some l =>
    match x.tte with
    | none => m
    | some e =>
      let fail (c : Cause) (detail : DWord) : Mach :=
        let r : FaultRec :=
          { strangerRecord c.code tm.launch tm.ix e.entry with detail := detail, warp := w, pc := e.entry, depth := 1 }
        (m.endTask t (.faulted r)).settle tk w
      match m.headerAt tm.core l.asid e.entry.toNat x.priv with
      | .error k => fail k 0
      | .ok h =>
        if 8 < h.nres then fail .illegal 0
        else if !h.fn then fail .frameMismatch (mismatchDetail 1 h.frame)
        else if h.frame ≠ e.frame then fail .frameMismatch (mismatchDetail 2 h.frame)
        else if h.narg ≠ 8 then fail .frameMismatch (mismatchDetail 0 h.frame)
        else
          let (fr, m) := m.newFrame t (8 * (e.frame + 1)) 1 [] none
          let m := m.updFrame fr fun f =>
            let f := f.fill (List.range 32) x.entryRegs
            { f with twin := f.regs }
          let m := m.updTask t fun x => { x with
            paths := [atClause 0xFFFFFFFF e.entry fr], prio := e.prio, fpstat := 0, flags := [], demote := 0
            latch := [], trail := [], diverged := false, swapFail := [], lost := 0, rel := 0, watch := 0, startClock := m.clock }
          m.updWarp tk w fun y => { y with st := .active, sleepUntil := 0 }
  | _, _, _ => m

/-- `TASK_START` (R128): an idle warp takes a RESUMABLE task, else the READY task nearest the hot end; in DRAINING no new one
(R103). -/
def execTaskStart (s : State) : Out :=
  s.on fun m =>
    let (tk, w) := (s.subj.x, s.subj.y)
    match m.team? tk, m.warps.get? (warpKey tk w) with
    | some tm, some x =>
      if x.st ≠ .idle || !tm.runs || m.dying tk then m
      else match earliest ((m.tasksOf tk).filter fun e => e.2.st = .resumable && e.2.bufImage.isNone) with
        | some (t, _) =>
          let m := m.updTask t fun k => { k with st := .running w }
          let m := m.updWarp tk w fun y => { y with st := .active, task := some t, sleepUntil := 0 }
          (m.landTask tk t).settle tk w
        | none =>
          if tm.res ≠ .resident then m
          else match tm.deque.find? fun t => (m.tasks.get? t).any fun k => k.st = .ready with
          | none => m
          | some t =>
            let m := (m.unqueue tk t).updTask t fun k => { k with st := .running w }
            let need := (((m.tasks.get? t).bind (·.tte)).map fun e => e.frame + 1).getD 1
            if m.fits tk need then
              (m.updWarp tk w fun y => { y with st := .active, task := some t }).startTask tk w t
            else
              let m := (m.updWarp tk w fun y => { y with st := .startBlocked m.serial, task := some t }).updTask t fun k =>
                { k with order := m.serial }
              { m with serial := m.serial + 1 }
    | _, _ => m

/-! ## Frame requests (R179, R261, R267-R270) -/

/-- A frame request of a team: its order, granules, task, and the path or warp that waits. -/
structure Request where
  order : Nat
  granules : Nat
  task : Nat
  path : Option Path
  warp : Nat
  deriving DecidableEq, Repr

/-- The frame requests of a team (R179). -/
def Mach.requests (m : Mach) (tk : Nat) : List Request :=
  ((m.tasksOf tk).flatMap fun e => e.2.paths.filterMap fun p => match p.st with
    | .blocked r n =>
      let k := match r with
        | .call g .. => g
        | .handler g .. => g
        | .restore => (m.spilledNeed p.frame).getD 0
      let w := match e.2.st with
        | .running w => w
        | _ => 0
      some ⟨n, k, e.1, some p, w⟩
    | _ => none) ++
  (m.warpsOf tk).filterMap fun w => match w.2.st, w.2.task with
    | .startBlocked n, some t =>
      some ⟨n, (((m.tasks.get? t).bind (·.tte)).map fun e => e.frame + 1).getD 1, t, none, w.1⟩
    | _, _ => none

/-- The oldest frame request of a team. -/
def Mach.oldestRequest (m : Mach) (tk : Nat) : Option Request :=
  match m.requests tk with
  | [] => none
  | r :: rs => some (rs.foldl (fun b x => if x.order < b.order then x else b) r)

/-- Grants a frame request (R256, R261, R270, R177). -/
def Mach.grant (m : Mach) (tk : Nat) (r : Request) : Mach :=
  match r.path with
  | none => (m.updWarp tk r.warp fun y => { y with st := .active }).startTask tk r.warp r.task
  | some p =>
    let swap (m : Mach) (ps : List Path) : Mach :=
      m.updTask r.task fun x => ps.foldl Task.addPath { x with paths := x.paths.filter fun q => q ≠ p }
    match p.st with
    | .blocked (.call g w mkd ls retPc retClause) _ =>
      let (ps, m) := m.openCall r.task p g w mkd ls retPc retClause
      (swap m ps).settle tk r.warp
    | .blocked (.handler g vec frec) _ =>
      let (q, m) := m.openHandler r.task p (8 * g) vec frec
      (swap m [q]).settle tk r.warp
    | .blocked .restore _ => (swap (m.restoreFrame p.frame) [{ p with st := .eligible }]).settle tk r.warp
    | _ => m

/-- `FRAME_GRANT` (R179, R261): the oldest frame request of a team is granted once its granules are free. -/
def execFrameGrant (s : State) : Out :=
  s.on fun m =>
    let tk := s.subj.x
    match m.oldestRequest tk, m.team? tk with
    | some r, some tm =>
      if tm.runs && !m.dying tk && m.granulesUsed tk + r.granules ≤ m.granulesCharge tk then m.grant tk r else m
    | _, _ => m

/-- Whether a team is frame-starved (R268). -/
def Mach.starved (m : Mach) (tk : Nat) (r : Request) : Bool :=
  m.granulesCharge tk < m.granulesUsed tk + r.granules &&
    (m.warpsOf tk).all fun w => w.2.st matches .idle | .blocked | .startBlocked _

/-- Spills frames in turn, a shadow warp's with its leader's (R267); stops where one does not fit (R268, R269). -/
def Mach.spillFrames (m : Mach) (tk : Nat) : List Nat → Bool × Mach
  | [] => (true, m)
  | fr :: rest =>
    match (m.frames.get? fr).map fun f => imageBytes (granules f.demand) with
    | none => m.spillFrames tk rest
    | some n =>
      match m.spillImage tk n none none with
      | (some off, m1) =>
        match if (m.launchOf tk).any (·.shadow) then m1.spillImage tk n (some off) none else (some off, m1) with
        | (some _, m) => (m.updFrame fr fun f => { f with spilled := some off }).spillFrames tk rest
        | (none, m2) =>
          (false, match m.team? tk with
            | some t => m2.updLaunch t.launch fun l => { l.dropImages [off] with spills := l.spills - 1 }
            | none => m2)
      | (none, m) => (false, m)

/-- Frames of a task in the register store. -/
def Mach.residentFrames (m : Mach) (t : Nat) : List Nat :=
  (m.frames.filter fun f => f.2.task = t && f.2.spilled.isNone).map (·.1)

/-- The next victim of Escapement (R268): the frames to spill. -/
def Mach.victim (m : Mach) (tk : Nat) (r : Request) : Option (List Nat) :=
  let ts := m.tasksOf tk
  let oldest (xs : List (Nat × Task)) : Option (Nat × Task) := match xs with
    | [] => none
    | t :: rest => some (rest.foldl (fun b x => if x.2.lastIssue < b.2.lastIssue then x else b) t)
  let parked := ts.filter fun e => e.2.st = .parked && m.residentFrames e.1 ≠ []
  let blocked := ts.filter fun e => e.1 ≠ r.task && m.residentFrames e.1 ≠ [] && match e.2.st with
    | .running w => (m.warps.get? (warpKey tk w)).any fun x => x.st = .blocked
    | _ => false
  match oldest parked, oldest blocked with
  | some v, _ => some (m.residentFrames v.1)
  | none, some v => some (m.residentFrames v.1)
  | none, none =>
    let held := ((m.tasks.get? r.task).map fun x => x.allPaths.map (·.frame)).getD []
    let free := (m.frames.filter fun f => f.2.task = r.task && f.2.spilled.isNone && !held.contains f.1)
    match free with
    | [] => none
    | f :: rest => some [(rest.foldl (fun b x => if x.2.depth < b.2.depth then x else b) f).1]

/-- SPILL_FULL for the requester (R258, R269): its task ends without a handler. -/
def Mach.spillFull (m : Mach) (tk : Nat) (r : Request) (detail : DWord) : Mach :=
  let (l, ix) := match m.team? tk with
    | some t => (t.launch, t.ix)
    | none => (0, 0)
  let frec : FaultRec := match r.path with
    | some p => match p.st with
      | .blocked (.handler _ _ old) _ => { old with hfail := true }
      | _ => { strangerRecord Cause.spillFull.code l ix 0 with
          nested := m.inHandler p, lanes := p.lanes, pc := p.pc, warp := r.warp, detail := detail
          depth := ((m.frames.get? p.frame).map (·.depth)).getD 0 }
    | none => { strangerRecord Cause.spillFull.code l ix 0 with warp := r.warp, detail := detail }
  (m.endTask r.task (.faulted frec)).settle tk r.warp

/-- `FRAME_STARVED` (R268, R269): Escapement spills one victim of a frame-starved team, or the requester raises SPILL_FULL. -/
def execFrameStarved (s : State) : Out :=
  s.on fun m =>
    let tk := s.subj.x
    match m.oldestRequest tk with
    | none => m
    | some r =>
      if !(m.team? tk).any Team.runs || m.dying tk || !m.starved tk r then m
      else match m.victim tk r with
        | none => m.spillFull tk r 1
        | some frs =>
          if m.ops.any fun o => frs.contains o.2.frame && o.2.kind.writesRegs && !o.2.dead then m
          else
            let kills := m.kills
            match m.spillFrames tk frs with
            | (true, m) => m
            | (false, m) => if m.kills ≠ kills then m else m.spillFull tk r 0

/-! ## Stealing (R138-R140) -/

/-- The step of R138 at which a thief asks a victim: its gang, its die, other dies; none where it may not. -/
def stealStep (thief victim : Team) : Option Nat :=
  if thief.launch ≠ victim.launch || thief.core = victim.core then none
  else if thief.gang = victim.gang then some 1
  else if coreDie thief.core = coreDie victim.core then some 2
  else some 3

/-- Cross-die steals are permitted (R139). -/
def Mach.crossDie (m : Mach) (t : Team) : Bool :=
  t.xsteal.getLsbD 31 && t.xsteal.toNat / 2 ^ 16 % 2 ^ 15 * 1024 < m.idleCount t

/-- Victims a thief has not asked this round, with their steps. -/
def Mach.victimsLeft (m : Mach) (t : Team) : List (Nat × Nat) :=
  m.teams.filterMap fun v =>
    if t.steal.tried.contains v.1 then none
    else (stealStep t v.2).bind fun n => if n = 3 && !(t.steal.crossDie && m.crossDie t) then none else some (v.1, n)

/-- Whether the core of a team sends steal requests: none in flight, no lease that drains it (R138, R148). -/
def State.coreOut (s : State) (core : Nat) : Bool :=
  s.sys.hub.leases.any fun l =>
    l.2.st ≠ .requested && ((l.2.u.kind = 0 && 64 * l.2.u.die + l.2.u.unit = core) ||
      (l.2.u.kind = 1 && 16 * l.2.u.die + l.2.u.unit = core / 4))

/-- Whether a team may ask for a steal (R138). -/
def Mach.mayAsk (m : Mach) (tk : Nat) (t : Team) : Bool :=
  let cap := ((m.launches.get? t.launch).map (·.dequeCap)).getD 0
  t.runs && !m.dying tk && t.slotsUsed < cap && t.steal.backoffUntil ≤ m.clock &&
    ((m.warpsOf tk).any fun w => w.2.st = .idle) && !((m.tasksOf tk).any fun e => e.2.st matches .ready | .resumable) &&
    !(m.teams.any fun v => v.2.core = t.core && v.2.steal.victim.isSome)

/-- `STEAL_REQUEST` (R138): a core asks a victim of the lowest step that has one left; the order within a step is free. -/
def execStealRequest (s : State) : Out :=
  s.on fun m =>
    let (tk, v) := (s.subj.x, s.subj.y)
    match m.team? tk with
    | none => m
    | some t =>
      let left := m.victimsLeft t
      let step := left.foldl (fun n x => min n x.2) 9
      if m.mayAsk tk t && !s.coreOut t.core && left.contains (v, step) then
        m.updTeam tk fun t => { t with steal := { t.steal with victim := some v, reply := none } }
      else m

/-- Bytes already copied into a task's buffer (R140): those of the declarations staged, and of a task still in staging some number
more, up to all of them (log entry 1). -/
def Mach.stagedBytes (m : Mach) (x : Task) : Nat × Mach :=
  if x.st = .staging then
    let (n, m) := m.takeFree
    (x.staged + Config.freeNat n % ((x.buf.map (·.2)).getD 0 - x.staged + 1), m)
  else (x.staged, m)

/-- `STEAL_REQUEST_RECEIVE` (R140): the victim answers from its cold end. -/
def execStealRequestReceive (s : State) : Out :=
  s.on fun m =>
    let tk := s.subj.x
    match m.team? tk with
    | none => m
    | some t =>
      match t.steal.victim, t.steal.reply with
      | some v, none =>
        let answer (m : Mach) (r : Option Nat) : Mach :=
          m.updTeam tk fun t => { t with steal := { t.steal with reply := some r } }
        match m.team? v with
        | none => answer m none
        | some vt =>
          let cand := (vt.deque.reverse).find? fun n => (m.tasks.get? n).any fun x => !x.desc.loc
          match if vt.runs && !m.dying v && !s.coreOut vt.core then cand.bind fun n => (m.tasks.get? n).map fun x => (n, x)
            else none with
          | none => answer m none
          | some (n, x) =>
            let (staged, m') := m.stagedBytes x
            let cross := coreDie t.core ≠ coreDie vt.core
            if cross && t.xsteal.toNat % 2 ^ 16 * 256 < staged then answer m' none
            else
              let m := if cross then m' else m
              answer ((m.unqueue v n).updTask n fun x =>
                { x with st := .inTransit, buf := none, tte := none, staged := 0, opers := 0 }) (some n)
      | _, _ => m

/-- `STEAL_REPLY` (R140): the stolen task arrives at the thief's hot end as QUEUED, or the victim has refused. Where the thief's deque
has filled since it asked, the task waits for a slot (log entry 113). -/
def execStealReply (s : State) : Out :=
  s.on fun m =>
    let tk := s.subj.x
    match m.team? tk with
    | none => m
    | some t =>
      match t.steal.victim, t.steal.reply with
      | some _, some (some n) =>
        if ((m.launches.get? t.launch).map (·.dequeCap)).getD 0 ≤ t.slotsUsed then m else
        let m := match m.tasks.get? n with
          | some x =>
            let k := m.serial
            let sameGang := (m.team? x.team).any fun (y : Team) => y.gang = t.gang
            let entry := if sameGang then x.entry else k
            ({ m with
              tasks := (m.tasks.del n).put k { x with team := tk, st := .queued, entry := entry }
              serial := k + 1 } : Mach).pushHot tk k
          | none => m
        m.updTeam tk fun t => { t with steal := ⟨none, none, [], 0, false⟩ }
      | some v, some none =>
        m.updTeam tk fun t => { t with steal := { t.steal with victim := none, reply := none, tried := v :: t.steal.tried } }
      | _, _ => m

/-- `STEAL_BACKOFF` (R138): after a round without success the thief waits 256 core clocks. -/
def execStealBackoff (s : State) : Out :=
  s.on fun m =>
    let tk := s.subj.x
    match m.team? tk with
    | none => m
    | some t =>
      if t.steal.victim.isNone && t.steal.tried ≠ [] && m.victimsLeft t = [] then
        m.updTeam tk fun t => { t with steal := ⟨none, none, [], m.clock + 256, t.steal.crossDie⟩ }
      else m

/-- `STEAL_IDLE_THRESHOLD` (R139): the idle count passes the threshold, so cross-die requests may be sent. -/
def execStealIdleThreshold (s : State) : Out :=
  s.on fun m =>
    let tk := s.subj.x
    m.updTeam tk fun t => if m.crossDie t then { t with steal := { t.steal with crossDie := true } } else t

/-- `DEMAND_ZERO_FILL` (R203): the hub fills a page an access has stalled on and sets V. -/
def execDemandZeroFill (s : State) : Out :=
  s.on fun m => if m.demand.contains (s.subj.x, s.subj.y) then m.demandFill s.subj.x s.subj.y else m

end Sys2Proof.Machine
end

