-- ==== Sys2Proof/Machine/Engines.lean ====
section
/-! DEFINITION. Engine operations (R217-R219, R371-R377): copies, gather, scatter, explicit staging. -/

namespace Sys2Proof.Machine

/-! ## Ranges -/

/-- A range an engine operation names: operand position, space, first byte, row length, stride, rows, whether written. -/
structure Span where
  pos : Nat
  spc : Spc
  base : Nat
  rowlen : Nat
  stride : Nat
  rows : Nat
  write : Bool
  deriving DecidableEq, Repr

/-- Bytes from the first to the last of a range. -/
def Span.extent (s : Span) : Nat := if s.rows = 0 || s.rowlen = 0 then 0 else (s.rows - 1) * s.stride + s.rowlen

/-- Pieces of a virtual range page by page: address, bytes, translation (R371 step 2); one with bytes in a freed range is refused
(R28). -/
def Mach.spanPages (m : Mach) (c : Issue) (s : Span) : List (Nat × Nat × Trans) :=
  if s.spc = .va then
    (List.range s.rows).flatMap fun i =>
      (m.pagesOf c.asid (s.rowlen / 2 ^ 16 + 2) (s.base + i * s.stride) s.rowlen).map fun p =>
        (p.1, p.2, match m.translateOn c.core c.asid p.1 { write := s.write, priv := c.priv } with
          | .ok l => if m.freedIn l.pa p.2 then .bad .protection else .ok l
          | r => r)
  else []

/-- Where a range lands, in order. -/
def Mach.spanPieces (m : Mach) (c : Issue) (s : Span) : List (Place × Nat) :=
  if s.rowlen = 0 then []
  else if s.spc = .va then
    (m.spanPages c s).filterMap fun p => match p.2.2 with
      | .ok l => some (.dev l.pa, p.2.1)
      | _ => none
  else match m.lsPlace c.tk c.launch s.spc s.base s.extent with
    | some p => (List.range s.rows).map fun i => (p.plus (i * s.stride), s.rowlen)
    | none => []

/-- The limits of R194 on local-store and window ranges: the first that fails. -/
def Mach.spansLocal (m : Mach) (c : Issue) (ss : List Span) : Option Span :=
  ss.find? fun s => s.spc ≠ .va && (m.lsPlace c.tk c.launch s.spc s.base s.extent).isNone

/-- Step 2 of R371: the fault of the lowest page that fails, else the lowest page to fill. -/
def Mach.spansChk (m : Mach) (c : Issue) (act : Lanes) (ss : List Span) : Chk :=
  let ps := ss.flatMap fun s => (m.spanPages c s).map fun p => (s.pos, p.1, p.2.2)
  let bads := ps.filterMap fun p => match p.2.2 with
    | .bad k => some (p.1, p.2.1, k)
    | _ => none
  match bads with
  | b :: bs =>
    let low := bs.foldl (fun x y => if y.2.1 < x.2.1 then y else x) b
    .fail { cause := low.2.2, oppos := low.1, lanes := act, addr := .ofNat 64 low.2.1 }
  | [] => match ps.filterMap fun p => match p.2.2 with
      | .stall page => some page
      | _ => none with
    | p :: rest => .stall (rest.foldl min p)
    | [] => .ok

/-- The range-lock entry of a range (R217). -/
def Mach.lockOf (m : Mach) (tk launch teamIx op : Nat) (scope : Scope) (s : Span) : RangeLock :=
  let (space, base) := m.lockAddr tk s.spc s.base
  ⟨base, s.rowlen, s.stride, s.rows, s.write, space, launch, teamIx, scope.code, op⟩

/-- Whether the table of a core has n entries free (R217). -/
def Mach.lockRoom (m : Mach) (core n : Nat) : Bool := (m.core core).locks.length + n ≤ 96

/-- Whether two entries conflict (R218). -/
def RangeLock.clash (e d : RangeLock) : Bool :=
  e.launch = d.launch && e.space = d.space && (e.write || d.write) &&
    (List.range e.rows).any fun i => d.covers (e.base + i * e.stride) e.rowlen

/-- Whether an engine operation is held by the entries of an earlier one (R218). -/
def Mach.engineHeld (m : Mach) (core n : Nat) : Bool :=
  let ls := (m.core core).locks
  (ls.filter fun e => e.op = n).any fun e => (ls.filter fun d => d.op < n).any e.clash

/-- Removes the entries of an operation (R219 step 3). -/
def Mach.unlockOp (m : Mach) (core n : Nat) : Mach :=
  m.updCore core fun c => { c with locks := c.locks.filter fun e => e.op ≠ n }

/-- Pieces of source and destination side by side. -/
def zipPieces : Nat → List (Place × Nat) → List (Place × Nat) → List (Place × Place × Nat)
  | 0, _, _ => []
  | fuel + 1, a :: as, b :: bs =>
    let n := min a.2 b.2
    (a.1, b.1, n) :: zipPieces fuel (if n = a.2 then as else (a.1.plus n, a.2 - n) :: as)
      (if n = b.2 then bs else (b.1.plus n, b.2 - n) :: bs)
  | _, _, _ => []

/-- An engine copy from source pieces to destination pieces (R371). -/
def copyOf (src dst : List (Place × Nat)) (scope : Scope) (cell : Option Nat) (bytes : Nat) : EngineK :=
  ⟨zipPieces (src.length + dst.length) src dst, [],
    src.any fun a => dst.any fun b => a.1.meets a.2 b.1 b.2, scope, cell, bytes, false, false⟩

/-! ## Completion (R219, R372, R373) -/

/-- Whether a scope's completion asks the warp that observes it for an acquire (R219). -/
def Mach.flagAcq (m : Mach) (o : Op) (s : Scope) : Mach :=
  match o.flag, o.gone with
  | some fl, false => m.updTask o.task fun t => t.setFlag fl { t.flag fl with acq := (t.flag fl).acq || wide s }
  | _, _ => m

/-- Steps 2 to 4 of R219 and the delivery of R372: destinations leave the L1D, entries go, the flag falls, the cell counts. -/
def Mach.endEngine (m : Mach) (n : Nat) (o : Op) (scope : Scope) (dst : List (Place × Nat)) (cell : Option Nat)
    (bytes : Nat) (faults : List FaultRec) : Mach :=
  let m := if wide scope then m.l1dDrop o.core (dst.flatMap fun d => match d.1 with
      | .dev pa => linesOf pa d.2
      | .ls .. => []) else m
  let m := ((m.unlockOp o.core n).flagAcq o scope).finishOp n faults
  match cell, o.gone with
  | some off, false => m.deliverBytes o.task o.team off bytes scope
  | _, _ => m

/-- Copies n bytes for task t, poison with them (R155); staging-pool bytes outside its buffer are unspecified (R120). -/
def Mach.copyBytes (m : Mach) (t : Nat) (src dst : Place) (n : Nat) : Mach :=
  let bad := m.poisoned src n
  let (bs, m) := m.taskRead t src n
  (m.taskWrite t dst bs).movePoison dst n bad

/-- Writes bytes of an operation of task t where they go, to a peer as a write (R31); poisoned ones poison it (R155). -/
def Mach.sendBytes (m : Mach) (t : Nat) (dst : Place) (bs : List Byte) (bad : Bool) : Mach :=
  match dst, dst.peer? with
  | .dev pa, some p => { m with peerOut := m.peerOut ++ [PeerMsg.write p pa bs bad] }
  | d, _ => (m.taskWrite t d bs).movePoison d bs.length bad

/-- Copies the units of a piece that have not moved, `u` the number of the first (R219). A peer's bytes come from its reply, and
with them whether it sent them poisoned (R155). -/
def Mach.copyPiece (m : Mach) (t : Nat) (done : List Nat) (u : Nat) (r : Place × Place × Nat) (reply : List Byte) (bad : Bool) : Mach :=
  if r.1.peer?.isSome then m.sendBytes t r.2.1 (reply.take r.2.2) bad
  else if r.2.1.peer?.isSome then
    let (bs, m) := m.taskRead t r.1 r.2.2
    m.sendBytes t r.2.1 bs (m.poisoned r.1 r.2.2)
  else
    let m' := ((List.range (r.2.2 / 8)).filter fun i => !done.contains (u + i)).foldl
      (fun m i => m.copyBytes t (r.1.plus (8 * i)) (r.2.1.plus (8 * i)) 8) m
    if m.poisoned r.1 r.2.2 then m' else m'.movePoison r.2.1 r.2.2 false

/-- Copies the pieces of an engine operation in turn. -/
def Mach.copyPieces (m : Mach) (t : Nat) (done : List Nat) (bad : Bool) (u : Nat) : List (Place × Place × Nat) → List Byte → Mach
  | [], _ => m
  | r :: rs, reply =>
    (m.copyPiece t done u r reply bad).copyPieces t done bad (u + r.2.2 / 8) rs
      (if r.1.peer?.isSome then reply.drop r.2.2 else reply)

/-- Whether the writes of an operation to peers, once sent, can be acknowledged (R219 step 1): none of them is RECOVERING; of a lost
peer no acknowledgement is awaited any more (R33). -/
def Mach.peersAck (m : Mach) (dst : List (Place × Nat)) : Bool := dst.all fun d => d.1.peer?.all fun p => m.conn p ≠ .recovering

/-- Leaves n bytes at a place unspecified (log entry 1). -/
def Mach.smear (m : Mach) (p : Place) (n : Nat) : Mach :=
  if p.peer?.isSome then m
  else
    let (bs, m) := m.takeBytes n
    m.placeWrite p bs

/-- Whether an engine copy may move data now: its own ranges are free (R218), its places are served, earlier stores of its
core to them are performed (R219). -/
def Mach.engineMay (m : Mach) (n : Nat) (o : Op) (rs : List (Place × Place × Nat)) : Bool :=
  !m.engineHeld o.core n && m.served n false (rs.map (·.1)) && m.served n true (rs.map fun r => r.2.1) &&
    !m.storeBefore o.core n (rs.flatMap fun r => [(r.1, r.2.2), (r.2.1, r.2.2)])

/-- An engine copy completes (R219, R373): its data is written; where some of it goes to a peer, the acknowledgement comes later
(step 1). -/
def Mach.completeEngine (m : Mach) (n : Nat) (o : Op) (k : EngineK) : Mach :=
  let dst := k.rows.map fun r => (r.2.1, r.2.2)
  if k.lost then
    let m := dst.foldl (fun m d => m.smear d.1 d.2) m
    m.endEngine n o k.scope dst k.cell k.bytes [o.record m .remoteUnavailable 0 o.lanes 0 0]
  else if k.sent then (if m.peersAck dst then m.endEngine n o k.scope dst k.cell k.bytes [] else m)
  else if !m.engineMay n o k.rows || o.awaitsPeer (k.rows.map (·.1)) then m
  else
    let m := m.copyPieces o.task k.doneUnits o.replyBad 0 k.rows (o.reply.getD [])
    let srcs := k.rows.map fun r => (r.1, r.2.2)
    let m := if k.overlap then k.rows.foldl (fun m r => m.blur r.2.1 r.2.2 srcs) m else m
    if dst.any fun d => d.1.peer?.isSome then m.updOp n fun o => { o with kind := .engine { k with sent := true } }
    else m.endEngine n o k.scope dst k.cell k.bytes []

/-- Whether an explicit staging operation may not read its rows yet: an older one is under way (R377), its ranges or places are held,
stores of its core to its rows are to come. -/
def Mach.stageHeld (m : Mach) (n : Nat) (o : Op) (k : StageK) : Bool :=
  (m.ops.any fun x => x.1 < n && x.2.core = o.core && x.2.kind matches .stage _) || m.engineHeld o.core n ||
    !m.served n false k.rows || !m.served n true [.ls o.team k.dst] || m.storeBefore o.core n (k.rows.map fun p => (p, k.rowlen)) ||
    o.awaitsPeer k.rows

/-- The pieces with the number of their first units, where unit u lies. -/
def pieceOf (u : Nat) : List (Place × Place × Nat) → Option ((Place × Place × Nat) × Nat)
  | [] => none
  | r :: rs => if u < r.2.2 / 8 then some (r, u) else pieceOf (u - r.2.2 / 8) rs

/-- Unit u of an engine copy moves before the rest (R219: the order of units is unspecified), or one of a tile's packed rows (R344);
a task in staging has its next declaration staged before the others (R124). -/
def Mach.moveUnit (m : Mach) (n u : Nat) : Mach :=
  match m.ops.get? n with
  | none => m.stageTask n false
  | some o =>
    match o.kind with
    | .engine k => match pieceOf u k.rows with
      | none => m
      | some (r, i) =>
        if k.lost || k.sent || k.doneUnits.contains u || !m.engineMay n o [r] || r.1.peer?.isSome || r.2.1.peer?.isSome then m
        else (m.copyBytes o.task (r.1.plus (8 * i)) (r.2.1.plus (8 * i)) 8).updOp n fun o =>
          { o with kind := .engine { k with doneUnits := u :: k.doneUnits } }
    | .tile k => m.tileUnit n u o k
    | .stage k =>
      let src := (k.rows[8 * u / k.rowlen]?).map fun p => p.plus (8 * u % k.rowlen)
      let out : Place := .ls o.team (k.dst + 8 * u)
      match src with
      | none => m
      | some p =>
        if k.tile || k.fmt = 6 || k.fault.isSome || k.units.contains u || p.peer?.isSome || m.stageHeld n o k then m
        else (m.copyBytes o.task p out 8).updOp n fun o => { o with kind := .stage { k with units := u :: k.units } }
    | _ => m

/-! ## Issue (R371) -/

/-- An engine operation as its checks leave it: the ranges it registers, what goes under way, and how many free values what it has read
at issue has taken (log entry 1). -/
structure EnginePlan where
  spans : List Span
  scope : Scope
  kind : OpKind
  places : List (Place × Nat)
  empty : Bool
  taken : Nat
  deriving DecidableEq, Repr

/-- The cell an engine operation names, checked (R372). -/
def Mach.engineCell (m : Mach) (c : Issue) (act : Lanes) (cell : CellRef) : Except Chk (Option Nat) :=
  match cell with
  | none => .ok none
  | some k =>
    let off := k.toNat * 16
    if ((m.launches.get? c.launch).map (·.lsBytes)).getD 0 < off + 16 then
      .error (.fail { cause := .protection, lanes := act, addr := .ofNat 64 off })
    else .ok (some off)

/-- What an engine operation waits for at issue: its flag (R185), earlier accesses of its path, entries of the table. -/
def Mach.engineWait (m : Mach) (c : Issue) (i : Instr) (p : EnginePlan) : Chk :=
  if !m.flagRoom c (Instr.shape i) || m.overtakes c.t none p.places || !m.lockRoom c.core p.spans.length then .wait else .ok

/-- An engine operation at issue (R371): checked, registered, under way; one with nothing to move completes at once. -/
def Mach.engineOp (m0 : Mach) (i : Instr) (plan : Mach → Issue → Lanes → Except Chk EnginePlan) : Mach :=
  m0.act i
    (fun c act => match plan m0 c act with
      | .error r => r
      | .ok p => m0.engineWait c i p)
    fun c act m => match plan m0 c act with
      | .error _ => m
      | .ok p =>
        let m := { m with free := m.free + p.taken }
        let n := m.serial
        let ps := p.places.map (·.1)
        let m := (m.send n c.core ps).startOp c (Instr.shape i) act false p.kind
        let m : Mach := match p.kind with
          | OpKind.engine k => m.askPeers n (k.rows.map fun r => r.1)
          | OpKind.stage k => m.askPeers n k.rows
          | _ => m
        if p.empty then match p.kind, m.ops.get? n with
          | .engine k, some o => m.completeEngine n o k
          | _, _ => m
        else m.updCore c.core fun k =>
          { k with locks := k.locks ++ p.spans.map (m.lockOf c.tk c.launch c.teamIx n p.scope) }

/-! ## Copies (R375) -/

/-- The address of an operand in a space. -/
def spcAddr (c : Issue) (act : Lanes) (s : Spc) (r : Reg) : Nat :=
  if s = .va then (c.f.pair r.toNat (lowLane act)).toNat else (c.f.reg r.toNat (lowLane act)).toNat

/-- A fault at a position with an address. -/
def failAt (k : Cause) (pos : Nat) (act : Lanes) (addr : Nat) : Chk :=
  .fail { cause := k, oppos := pos, lanes := act, addr := .ofNat 64 addr }

/-- The checks of `bcopy` and `bcopy2d` on their ranges (R375), or the plan. -/
def Mach.copyPlan (m : Mach) (c : Issue) (act : Lanes) (dst src : Span) (scope : Scope) (cell : CellRef) :
    Except Chk EnginePlan :=
  if dst.base % 8 ≠ 0 then .error (failAt .align 2 act dst.base)
  else if src.base % 8 ≠ 0 then .error (failAt .align 3 act src.base)
  else if src.rowlen % 8 ≠ 0 then .error (failAt .align 4 act 0)
  else match m.spansLocal c [dst, src] with
    | some s => .error (failAt .protection s.pos act s.base)
    | none =>
      if 1 < src.rows && (src.stride < src.rowlen || dst.stride < dst.rowlen) then .error (failAt .protection 5 act 0)
      else match m.engineCell c act cell with
        | .error r => .error r
        | .ok off => match m.spansChk c act [dst, src] with
          | .ok =>
            let (a, b) := (m.spanPieces c src, m.spanPieces c dst)
            let none_ := src.extent = 0
            .ok ⟨if none_ then [] else [src, dst], scope, .engine (copyOf a b scope off (src.rows * src.rowlen)), a ++ b, none_, 0⟩
          | r => .error r

/-- `bcopy` (R375). -/
def execBcopy (c : Ctl) (dst src : Spc) (scope : Scope) (a b e : Reg) (cell : CellRef) (s : State) : Out :=
  s.on fun m => m.engineOp (.bcopy c dst src scope a b e cell) fun m x act =>
    let n := (x.f.reg e.toNat (lowLane act)).toNat
    m.copyPlan x act ⟨2, dst, spcAddr x act dst a, n, 0, 1, true⟩ ⟨3, src, spcAddr x act src b, n, 0, 1, false⟩ scope cell

/-- `bcopy2d` (R375). -/
def execBcopy2d (c : Ctl) (dst src : Spc) (scope : Scope) (a b e y : Reg) (cell : CellRef) (s : State) : Out :=
  s.on fun m => m.engineOp (.bcopy2d c dst src scope a b e y cell) fun m x act =>
    let v := (x.f.reg e.toNat (lowLane act)).toNat
    let w := (x.f.reg y.toNat (lowLane act)).toNat
    let (rows, len) := (v % 2 ^ 16, v / 2 ^ 16 * 8)
    m.copyPlan x act ⟨2, dst, spcAddr x act dst a, len, w % 2 ^ 16 * 8, rows, true⟩
      ⟨3, src, spcAddr x act src b, len, w / 2 ^ 16 * 8, rows, false⟩ scope cell

/-! ## Gather and scatter (R376) -/

/-- Page size at a virtual address as it counts for R376. -/
def Mach.pageSize (m : Mach) (asid va : Nat) : Nat :=
  match m.walk asid va with
  | .leaf _ _ size => size
  | .none => 2 ^ 16

/-- The addresses of the units of u bytes of a range of one row. -/
def Span.units (s : Span) (u : Nat) : List Nat := (List.range (s.rowlen / u)).map fun i => s.base + u * i

/-- A fault at the lowest of the failing addresses given, each with its operand position (R376). -/
def failLowest (k : Cause) (act : Lanes) : List (Nat × Nat) → Option Chk
  | [] => none
  | x :: xs =>
    let low := xs.foldl (fun x y => if y.2 < x.2 then y else x) x
    some (failAt k low.1 act low.2)

/-- The lowest of a list of addresses. -/
def lowest : List Nat → Option Nat
  | [] => none
  | a :: as => some (as.foldl min a)

/-- The checks of `gath` and `scat` (R376), or the plan. -/
def Mach.indexPlan (m : Mach) (c : Issue) (act : Lanes) (gather : Bool) (p : Spc) (scope : Scope) (a b e : Reg)
    (count sh es : Nat) (cell : CellRef) : Except Chk EnginePlan :=
  let packed := spcAddr c act p a
  let base := c.f.pair b.toNat (lowLane act)
  let list := (c.f.reg e.toNat (lowLane act)).toNat
  let size := 2 ^ (es + 3)
  let listSpan : Span := ⟨4, .ls, list, 4 * count, 0, 1, false⟩
  let packSpan : Span := ⟨2, p, packed, count * size, 0, 1, gather⟩
  let crooked := (if list % 4 ≠ 0 then [(4, list)] else []) ++ if packed % 8 ≠ 0 then [(2, packed)] else []
  let outside := ([(listSpan, 4), (packSpan, 8)].filter fun s => s.1.spc ≠ .va && (m.lsPlace c.tk c.launch s.1.spc s.1.base s.1.extent).isNone).map
    fun s => (s.1.pos, ((s.1.units s.2).find? fun a => (m.lsPlace c.tk c.launch s.1.spc a s.2).isNone).getD s.1.base)
  match failLowest .align act crooked, failLowest .protection act outside with
  | some r, _ => .error r
  | none, some r => .error r
  | none, none =>
      let words := m.taskRead c.t (.ls c.tk list) (4 * count)
      let idx := (List.range count).map fun i => field words.1 (4 * i) 4
      let as := idx.map fun i => (base + .ofNat 64 (i * 2 ^ sh)).toNat
      match lowest (as.filter fun x => x % 8 ≠ 0) with
      | some x => .error (failAt .align 3 act x)
      | none =>
        match lowest (as.filter fun x => m.pageSize c.asid x < x % m.pageSize c.asid x + size) with
        | some x => .error (failAt .protection 3 act x)
        | none =>
          match (listSpan.units 4).find? fun a => m.rangeLocked c.core c.launch c.tk .ls a 4 false with
          | some a => .error (failAt .rangeLocked 4 act a)
          | none => match m.engineCell c act cell with
            | .error r => .error r
            | .ok off =>
              let elem (x : Nat) : Span := ⟨3, .va, x, size, 0, 1, !gather⟩
              match m.spansChk c act (packSpan :: as.map elem) with
              | .ok =>
                let lo := (lowest as).getD 0
                let hi := as.foldl max 0 + size
                let pk := m.spanPieces c packSpan
                let el := as.flatMap fun x => m.spanPieces c (elem x)
                let k := if gather then copyOf el pk scope off (count * size) else copyOf pk el scope off (count * size)
                .ok ⟨[listSpan, packSpan, ⟨3, .va, lo, hi - lo, 0, 1, !gather⟩], scope, .engine k, pk ++ el, false, words.2.free - m.free⟩
              | r => .error r

/-- `gath` (R376). -/
def execGath (c : Ctl) (p : Spc) (scope : Scope) (a b e : Reg) (count : BitVec 12) (sh : BitVec 4) (es : BitVec 3)
    (cell : CellRef) (s : State) : Out :=
  s.on fun m => m.engineOp (.gath c p scope a b e count sh es cell) fun m x act =>
    m.indexPlan x act true p scope a b e (count.toNat + 1) sh.toNat es.toNat cell

/-- `scat` (R376). -/
def execScat (c : Ctl) (p : Spc) (scope : Scope) (a b e : Reg) (count : BitVec 12) (sh : BitVec 4) (es : BitVec 3)
    (cell : CellRef) (s : State) : Out :=
  s.on fun m => m.engineOp (.scat c p scope a b e count sh es cell) fun m x act =>
    m.indexPlan x act false p scope a b e (count.toNat + 1) sh.toNat es.toNat cell

/-! ## Explicit staging (R377) -/

/-- A declaration evaluated for `stage`: the page of its footprint decides. -/
def Mach.stageSpan (m : Mach) (c : Issue) (p : StagePlan) (o : Oper) (scope : Scope) (off : Option Nat) (limit : Nat) :
    Except Chk EnginePlan :=
  let foot := (p.rows - 1) * p.stride + p.rowlen
  let len := p.rows * p.rowlen
  let k : StageK := ⟨p.addr, [], p.rowlen, p.stride, p.fmt, p.dst, scope, off, none, min len (limit - p.dst), o.scope ≠ 0, []⟩
  let bad (cause : Cause) : Except Chk EnginePlan := .ok ⟨[], scope, .stage { k with fault := some (cause.code, p.addr) }, [], false, 0⟩
  if !planOk { p with dst := 0 } o limit || limit < p.dst + len then bad .prefetchFault
  else match m.translateOn c.core c.asid p.addr { priv := c.priv } with
    | .stall page => .error (.stall page)
    | .bad cause => bad cause
    | .ok l =>
      if l.size < p.addr % l.size + foot then bad .prefetchFault
      else if m.freedIn l.pa foot then bad .protection
      else
        let rows := (List.range p.rows).map fun i => Place.dev (l.pa + i * p.stride)
        .ok ⟨[⟨2, .va, p.addr, foot, 0, 1, false⟩, ⟨3, .ls, p.dst, len, 0, 1, true⟩], scope,
          .stage { k with rows := rows }, rows.map fun r => (r, p.rowlen), false, 0⟩

/-- Whether a store of a core to a virtual range is still on its way. -/
def Mach.storesTo (m : Mach) (c : Issue) (va n : Nat) : Bool :=
  (m.pagesOf c.asid 3 va n).any fun p => match m.translateOn c.core c.asid p.1 { priv := c.priv } with
    | .ok l => m.storeBefore c.core m.serial [(.dev l.pa, p.2)]
    | _ => false

/-- A page of a virtual range that is to be filled. -/
def Mach.stallIn (m : Mach) (asid va n : Nat) : Option Nat :=
  (m.pagesOf asid 3 va n).findSome? fun p => match m.translate asid p.1 {} with
    | .stall page => some page
    | _ => none

/-- The checks of `stage` (R377), or the plan: table entry and closure are read at issue, once the core's stores to them are
performed; a condition that R126 calls a staging fault goes under way as a deferred fault. -/
def Mach.stagePlan (m : Mach) (c : Issue) (act : Lanes) (scope : Scope) (a b : Reg) (cell : CellRef) :
    Except Chk EnginePlan :=
  let addr := (c.f.reg a.toNat (lowLane act)).toNat
  let buffer := (c.f.reg b.toNat (lowLane act)).toNat
  match m.launches.get? c.launch with
  | none => .error .wait
  | some l =>
    let block := m.taskRead c.t (.ls c.tk addr) 16
    let bs := block.1
    let closure := field bs 0 8
    let (x, y, z) := (field bs 8 2, field bs 10 2, field bs 12 2)
    let last := field bs 14 2
    let (typ, k) := (last % 2 ^ 12, last / 2 ^ 12 % 4)
    let faulty (cause at_ : Nat) (off : Option Nat) : Except Chk EnginePlan :=
      .ok ⟨[], scope, .stage ⟨0, [], 0, 0, 0, 0, scope, off, some (cause, at_), 0, false, []⟩, [], false, block.2.free - m.free⟩
    if addr % 16 ≠ 0 then .error (failAt .align 2 act addr)
    else if l.lsBytes < addr + 16 then .error (failAt .protection 2 act addr)
    else if m.rangeLocked c.core c.launch c.tk .ls addr 16 false then .error (failAt .rangeLocked 2 act addr)
    else if closure % 128 ≠ 0 then .error (failAt .align 2 act closure)
    else if l.ttCount ≤ typ || last / 2 ^ 14 ≠ 0 then .error (failAt .illegal 2 act 0)
    else
      let tte := l.ttBase.toNat + 64 * typ
      match m.stallIn l.asid tte 64, m.stallIn l.asid closure 128 with
      | some p, _ => .error (.stall p)
      | none, some p => .error (.stall p)
      | none, none =>
        if m.storesTo c tte 64 || m.storesTo c closure 128 then .error .wait
        else match (m.readTte l typ).1 with
          | .error at_ => match m.engineCell c act cell with
            | .error r => .error r
            | .ok off => faulty (match m.translate l.asid at_ {} with
              | .bad cause => cause.code
              | _ => Cause.prefetchFault.code) at_ off
          | .ok e => match e.opers[k]? with
            | none => .error (failAt .illegal 2 act 0)
            | some o => match m.engineCell c act cell with
              | .error r => .error r
              | .ok off =>
                let line := block.2.readVa l.asid closure false 2 128
                match line.1 with
                | .error (cause, at_) => faulty cause.code at_ off
                | .ok (bs, _) => (m.stageSpan c (planOf bs o x y z buffer) o scope off l.lsBytes).map fun p =>
                    { p with taken := line.2.free - m.free }

/-- `stage` (R377). -/
def execStage (c : Ctl) (scope : Scope) (a b : Reg) (cell : CellRef) (s : State) : Out :=
  s.on fun m => m.engineOp (.stage c scope a b cell) fun m x act => m.stagePlan x act scope a b cell

/-- Writes the packed rows of an explicit staging operation, but for units that have been moved (R125, R219). -/
def StageK.writeRows (k : StageK) (m : Mach) (t : Nat) (out : Place) (bs : List Byte) : Mach :=
  if k.units = [] then m.taskWrite t out bs
  else ((List.range (bs.length / 8)).filter fun u => !k.units.contains u).foldl
    (fun m u => m.taskWrite t (out.plus (8 * u)) (lineSlice bs (8 * u) 8)) m

/-- An explicit staging operation completes, in issue order (R377): its rows copied and delivered, or a deferred fault that
leaves the packed rows unspecified and delivers nothing, but where it is the loss of a peer (R373). -/
def Mach.completeStage (m : Mach) (n : Nat) (o : Op) (k : StageK) : Mach :=
  let older := m.ops.any fun x => x.1 < n && x.2.core = o.core && x.2.kind matches .stage _
  let out : Place := .ls o.team k.dst
  let len := k.rows.length * k.rowlen
  let fail (cause : Nat) (at_ pos : Nat) : Mach :=
    let r := { o.record m .prefetchFault pos o.lanes (.ofNat 64 at_) 0 with cause := cause }
    ((m.smear out k.blank).unlockOp o.core n).finishOp n [r]
  if older then m
  else match k.fault with
    | some (cause, at_) =>
      if cause = Cause.remoteUnavailable.code then
        (m.smear out len).endEngine n o k.scope [(out, len)] k.cell len [o.record m .remoteUnavailable 0 o.lanes (.ofNat 64 at_) 0]
      else fail cause at_ 0
    | none =>
      if m.stageHeld n o k then m
      else
        let rows := match o.reply with
          | some bs => rowsOf k.rowlen bs k.rows.length
          | none => k.rows.map fun p => m.placeRead p k.rowlen
        let flawed := if k.fmt = 6 then
            (rows.zipIdx.flatMap fun r => (blocksOf r.1).zipIdx.map fun b =>
              (b.1, k.va + r.2 * k.stride + 64 * b.2)).findSome?
                fun b => (blockFault b.1 fun _ => true).map fun g => (b.2, if blockUndefined b.1 then 0 else g)
          else none
        match flawed with
        | some (at_, g) => fail Cause.format.code at_ g
        | none =>
          let bad := o.replyBad || k.rows.any fun p => m.poisoned p k.rowlen
          let m := k.writeRows m o.task out rows.flatten
          (if bad then m.movePoison out len true else m).endEngine n o k.scope [(out, len)] k.cell len []

end Sys2Proof.Machine
end

