-- ==== Sys2Proof/Machine/Collectives.lean ====
section
/-! DEFINITION. Collectives (R58-R63, R378-R380). -/

namespace Sys2Proof.Machine

/-! ## Groups -/

/-- Logical clusters of a MEMBERS mask in ascending order (R58, R59). -/
def Group.list (g : Group) : List Nat := setBits g.members

/-- Logical cluster of a core (R17). -/
def clusterOf (core : Nat) : Nat := core / 4

/-- Whether a logical cluster holds a gang of a launch (R378). -/
def Mach.gangOn (m : Mach) (launch cl : Nat) : Bool :=
  m.teams.any fun t => t.2.launch = launch && clusterOf t.2.core = cl && !t.2.unbound

/-- Whether the gang of a launch on a cluster has ended: killed, or its launch over (R62). -/
def Mach.gangDead (m : Mach) (launch cl : Nat) : Bool :=
  !m.teams.any fun t => t.2.launch = launch && clusterOf t.2.core = cl && t.2.res ≠ .ended

/-- Collective operations of a launch on a group under way. -/
def Mach.collsOn (m : Mach) (launch g : Nat) : List (Nat × Op × CollK) :=
  m.ops.filterMap fun o => match o.2.kind with
    | .coll k =>
      if k.group = g && (m.team? o.2.team).any fun t => t.launch = launch then some (o.1, o.2, k) else none
    | _ => none

/-- `cgrp` (R378). -/
def execCgrp (c : Ctl) (scope : Scope) (g : BitVec 5) (d a b : Reg) (s : State) : Out :=
  s.on fun m => m.act (.cgrp c scope g d a b) (fun _ _ => .ok) fun x act m =>
    let members := x.f.pair a.toNat (lowLane act)
    let grp : Group := ⟨members, (x.f.reg b.toNat (lowLane act)).toNat % 2 ^ 16, scope⟩
    let fine := 2 ≤ grp.list.length && grp.list.all (m.gangOn x.launch)
    let status := if m.collsOn x.launch g.toNat ≠ [] then 1 else if fine then 0 else 2
    let m := if status = 0 then m.updLaunch x.launch fun l => { l with
        groups := l.groups.put g.toNat grp, owed := l.owed.del g.toNat } else m
    m.updFrame x.p.frame fun f => f.setLanes d.toNat (laneList act) fun _ => .ofNat 32 status

/-! ## Belonging (R380) -/

/-- Whether an issue agrees with a collective (R380). -/
def Collective.agrees (k : Collective) (o : CollK) : Bool := k.kind = o.kind && k.size = o.size

/-- Each waiting issue on a group, in issue order, belongs to the collective in flight where it agrees and nothing of its
member is before it; the first issue of a collective fixes it (R380). -/
def Launch.admitOps (l : Launch) (g : Nat) (ops : List (Nat × CollK)) : Launch :=
  (ops.foldl (fun (p : Launch × List Nat) o =>
    let (l, stuck) := p
    if stuck.contains o.2.member then p
    else match l.colls.get? g with
      | none => ({ l with colls := l.colls.put g ⟨o.2.kind, o.2.size, [(o.2.member, o.1)], o.2.issued, false⟩ }, o.2.member :: stuck)
      | some k =>
        if k.arrived.any fun a => a.1 = o.2.member then (l, o.2.member :: stuck)
        else if k.agrees o.2 then
          ({ l with colls := l.colls.put g { k with arrived := k.arrived ++ [(o.2.member, o.1)] } }, o.2.member :: stuck)
        else (l, o.2.member :: stuck)) (l, [])).1

/-- Issues on a group find the collective they belong to (R380). -/
def Mach.admitColls (m : Mach) (launch g : Nat) : Mach :=
  let ops := (m.collsOn launch g).map fun o => (o.1, o.2.2)
  m.updLaunch launch fun l =>
    let arrived := ((l.colls.get? g).map fun k => k.arrived.map (·.2)).getD []
    l.admitOps g (ops.filter fun o => !arrived.contains o.1)

/-! ## Completion (R61, R62, R380) -/

/-- The status record of R62. -/
def statusRecord (status cause : Nat) (mask : DWord) : List Byte := natBytes 4 status ++ natBytes 4 cause ++ natBytes 8 mask.toNat

/-- One member's operation completes: status record, flag, cell (R61, R380). A member whose gang is gone gets none of it. -/
def Mach.endColl (m : Mach) (n : Nat) (rec : List Byte) (bytes : Nat) : Mach :=
  match m.ops.get? n with
  | none => m
  | some o => match o.kind with
    | .coll k =>
      let m := if o.gone then m else m.placeWrite (.ls o.team k.block) rec
      m.endEngine n o k.scope k.dst (if k.bb then some (k.block + 16) else none) bytes []
    | _ => m

/-- Bytes a member receives (R379). -/
def pieceBytes (ps : List (Place × Nat)) : Nat := ps.foldl (fun n p => n + p.2) 0

/-- Bytes on their way, each with whether it is poisoned (R155). -/
abbrev Cargo := List (Byte × Bool)

/-- The bytes of pieces in order for task t, those at a peer from its reply and poisoned with it; staging-pool bytes outside its
buffer are unspecified (R120). -/
def Mach.piecesRead (m : Mach) (t : Nat) (bad : Bool) : List (Place × Nat) → List Byte → Cargo × Mach
  | [], _ => ([], m)
  | p :: ps, reply =>
    let peer := p.1.peer?.isSome
    let (bs, m) := if peer then (reply.take p.2, m) else m.taskRead t p.1 p.2
    let (rest, m) := m.piecesRead t bad ps (if peer then reply.drop p.2 else reply)
    ((bs.zipIdx.map fun b => (b.1, if peer then bad else m.poisoned (p.1.plus b.2) 1)) ++ rest, m)

/-- Writes bytes over pieces in order for task t; poisoned bytes poison their lines (R155). -/
def Mach.piecesWrite (m : Mach) (t : Nat) : List (Place × Nat) → Cargo → Mach
  | [], _ => m
  | p :: ps, bs =>
    let chunk : List (Byte × Bool) := bs.take p.2
    let m : Mach := match p.1, p.1.peer? with
      | .dev pa, some peer => { m with peerOut := m.peerOut ++ [PeerMsg.write peer pa (chunk.map (·.1)) (chunk.any (·.2))] }
      | d, _ => chunk.zipIdx.foldl (fun m b => if b.1.2 then m.movePoison (d.plus b.2) 1 true else m)
        (m.taskWrite t d (chunk.map (·.1)))
    m.piecesWrite t ps (bs.drop p.2)

/-- Elements i × n to i × n + n − 1 of a list. -/
def blockAt {α : Type} (bs : List α) (i n : Nat) : List α := (bs.drop (i * n)).take n

/-- An element of a reduction as it is written: FP32 results of BF16 data round once at the root (R60). -/
def redRound (t : Ty) (v : Word) : Nat := if t = .bf16 then (bf16.ofNum .rne false (f32.num v.toNat)).bits else v.toNat

/-- What member i receives of the members' sources (R59, R60). -/
def collResult (kind : CollKind) (size i : Nat) (srcs : List Cargo) : Cargo :=
  match kind with
  | .gather => srcs.flatten
  | .exchange => (srcs.map fun s => blockAt s i size).flatten
  | .barrier => []
  | .reduce op t =>
    let w := redSize t
    let chunks := srcs.map fun s => blockAt s i (size * w)
    (List.range size).flatMap fun e =>
      let elems := chunks.map fun s => blockAt s e w
      let vals := elems.map fun b => redWiden t (.ofNat 32 (bytesNat (b.map (·.1))))
      let bad := elems.any fun b => b.any (·.2)
      (natBytes w (redRound t (((pairTree (redFn op t) vals).getD 0)))).map fun b => (b, bad)

/-- The operations that have arrived for the collective of a group, with their parts, members ascending. -/
def Mach.arrivedOps (m : Mach) (k : Collective) : List (Nat × Op × CollK) :=
  (List.range 64).flatMap fun c => (k.arrived.filter fun a => a.1 = c).filterMap fun a =>
    (m.ops.get? a.2).bind fun o => match o.kind with
      | .coll x => some (a.2, o, x)
      | _ => none

/-- The collective of a group is over: its place is free, and later issues find theirs (R380). -/
def Mach.closeColl (m : Mach) (launch g : Nat) : Mach :=
  (m.updLaunch launch fun l => { l with colls := l.colls.del g }).admitColls launch g

/-- The members' sources, read in turn. -/
def Mach.readSources (m : Mach) : List (Nat × Op × CollK) → List Cargo × Mach
  | [] => ([], m)
  | o :: os =>
    let (c, m) := m.piecesRead o.2.1.task o.2.1.replyBad o.2.2.src (o.2.1.reply.getD [])
    let (cs, m) := m.readSources os
    (c :: cs, m)

/-- Every member's part of a collective completes with status 0 (R61). -/
def Mach.finishColl (m : Mach) (launch g : Nat) (ms : List (Nat × Op × CollK)) : Mach :=
  (ms.foldl (fun m o => m.endColl o.1 (statusRecord 0 0 0) (pieceBytes o.2.2.dst)) m).closeColl launch g

/-- A collective commits (R61): every member's source is read, every destination written, every member's part completes; where
some of it goes to a peer, the acknowledgement comes first (R219 step 1). Destination bytes that are source bytes too are unspecified
(R373). -/
def Mach.commitColl (m : Mach) (launch g : Nat) (k : Collective) : Mach :=
  let ms := m.arrivedOps k
  let (srcs, m) := m.readSources ms
  let m := ms.zipIdx.foldl (fun m o => m.piecesWrite o.1.2.1.task o.1.2.2.dst (collResult k.kind k.size o.2 srcs)) m
  let from_ := ms.flatMap fun o => o.2.2.src
  let m := ms.foldl (fun m o => o.2.2.dst.foldl (fun m d => m.blur d.1 d.2 from_) m) m
  if ms.any fun o => o.2.2.dst.any fun d => d.1.peer?.isSome then
    m.updLaunch launch fun l => { l with colls := l.colls.put g { k with sent := true } }
  else m.finishColl launch g ms

/-- Whether a member's part may move its data now. -/
def Mach.collMay (m : Mach) (o : Nat × Op × CollK) : Bool :=
  let src := o.2.2.src.map (·.1)
  !m.engineHeld o.2.1.core o.1 && m.served o.1 false src && m.served o.1 true (o.2.2.dst.map (·.1)) &&
    !m.storeBefore o.2.1.core o.1 (o.2.2.src ++ o.2.2.dst) && !o.2.1.awaitsPeer src

/-- Whether every part's data and acknowledgements have come back over the meshes (R35, R39, R47). -/
def Mach.collBack (m : Mach) (ms : List (Nat × Op × CollK)) : Bool × Mach :=
  ms.foldl (fun (p : Bool × Mach) o =>
    let (here, m) := p.2.backOver o.1 o.2.1.core ((o.2.2.src ++ o.2.2.dst).map (·.1)) o.2.2.dst
    (p.1 && here, m)) (true, m)

/-- Whether the TIMEOUT of a group has passed since the first arrival of its collective (R62). -/
def Mach.collExpired (m : Mach) (grp : Group) (k : Collective) : Bool :=
  grp.timeout ≠ 0 && k.start + grp.timeout * 2 ^ 16 ≤ m.clock

/-- `COLLECTIVE_COMMIT` (R61): once every member has arrived, and while TIMEOUT has not passed (R62). -/
def execCollectiveCommit (s : State) : Out :=
  s.on fun m =>
    let (ln, g) := (s.subj.x, s.subj.y)
    match m.launches.get? ln with
    | none => m
    | some l => match l.colls.get? g, l.groups.get? g with
      | some k, some grp =>
        let ms := m.arrivedOps k
        if m.collExpired grp k then m
        else if k.sent then (if ms.all fun o => m.peersAck o.2.2.dst then m.finishColl ln g ms else m)
        else if grp.list.all (fun c => k.arrived.any fun a => a.1 = c) && ms.all m.collMay then
          let (here, m) := m.collBack ms
          if here then m.commitColl ln g k else m
        else m
      | _, _ => m

/-- The members of a collective that fails whose issue is still to come: it will belong to the failed collective (R380). One whose gang
is gone begins its count afresh, and one that waits with a disagreeing issue waits for the next collective. -/
def Mach.stillOwed (m : Mach) (launch g : Nat) (k : Collective) (grp : Group) : List Nat :=
  grp.list.filter fun c => !(k.arrived.any fun a => a.1 = c) && !m.gangDead launch c &&
    !(m.collsOn launch g).any fun o => o.2.2.member = c

/-- A collective that has not committed fails (R62): the survivors' destinations are unspecified, their parts complete with the status,
and so will those of members that have yet to issue them (R380). -/
def Mach.failColl (m : Mach) (launch g cause : Nat) (failed : List Nat) : Mach :=
  match m.launches.get? launch with
  | none => m
  | some l => match l.colls.get? g with
    | none => m
    | some k =>
      let ms := m.arrivedOps k
      let mask : DWord := failed.foldl (fun w c => w ||| .ofNat 64 (2 ^ c)) 0
      let late := ((l.groups.get? g).map (m.stillOwed launch g k)).getD []
      let m := m.updLaunch launch fun l =>
        { l with owed := l.owed.norm g (l.owed.getD g [] ++ late.map fun c => (c, cause, mask)) [] }
      let m := ms.foldl (fun m o =>
        if o.2.1.gone then m else o.2.2.dst.foldl (fun m d => m.smear d.1 d.2) m) m
      let m := ms.foldl (fun m o => m.endColl o.1 (statusRecord 1 cause mask) (pieceBytes o.2.2.dst)) m
      m.closeColl launch g

/-- The outcome a failed collective still owes a member of a group (R380), and the launch without it. -/
def Launch.takeOwed (l : Launch) (g member : Nat) : Option ((Nat × DWord) × Launch) :=
  let xs := l.owed.getD g []
  (xs.find? fun x => x.1 = member).map fun x => (x.2, { l with owed := l.owed.norm g (xs.erase x) [] })

/-- A member issues its part of a collective that has failed: its destination is unspecified, and it completes with the status (R62,
R380). -/
def Mach.lateColl (m : Mach) (n : Nat) (k : CollK) (cause : Nat) (mask : DWord) : Mach :=
  (k.dst.foldl (fun m d => m.smear d.1 d.2) m).endColl n (statusRecord 1 cause mask) (pieceBytes k.dst)

/-- Members of the collective of a group that have not arrived. -/
def Launch.absent (l : Launch) (g : Nat) : List Nat :=
  match l.groups.get? g, l.colls.get? g with
  | some grp, some k => grp.list.filter fun c => !k.arrived.any fun a => a.1 = c
  | _, _ => []

/-- `COLLECTIVE_TIMEOUT` (R62): TIMEOUT has passed since the first arrival. -/
def execCollectiveTimeout (s : State) : Out :=
  s.on fun m =>
    let (ln, g) := (s.subj.x, s.subj.y)
    match m.launches.get? ln with
    | none => m
    | some l => match l.colls.get? g, l.groups.get? g with
      | some k, some grp =>
        if m.collExpired grp k then m.failColl ln g 2 (l.absent g) else m
      | _, _ => m

/-- Collectives of a launch that fail because gangs of theirs are gone (R62, R157). -/
def Mach.failColls (m : Mach) (launch : Nat) : Mach :=
  match m.launches.get? launch with
  | none => m
  | some l => l.colls.foldl (fun m k => match l.groups.get? k.1 with
      | some grp =>
        let dead := grp.list.filter (m.gangDead launch)
        if dead = [] then m else m.failColl launch k.1 1 (dead ++ (l.absent k.1).filter fun c => !dead.contains c)
      | none => m) m

/-! ## Issue (R379, R380) -/

/-- A collective as its instruction gives it. -/
structure CollReq where
  g : Nat
  kind : CollKind
  size : Nat
  dst : Spc
  src : Spc
  da : Nat
  sa : Nat
  block : Nat
  bb : Bool
  deriving DecidableEq, Repr

/-- Bytes of source and destination for n members (R379). -/
def CollReq.bytes (r : CollReq) (n : Nat) : Nat × Nat :=
  match r.kind with
  | .gather => (r.size, n * r.size)
  | .reduce _ t => (n * r.size * redSize t, r.size * redSize t)
  | .exchange => (n * r.size, n * r.size)
  | .barrier => (0, 0)

/-- Size of one member's unit in bytes, which must be a multiple of 8 (R379 check 1). -/
def CollReq.unit (r : CollReq) : Nat :=
  match r.kind with
  | .reduce _ t => r.size * redSize t
  | _ => r.size

/-- Whether the group of a request is declared with the issuing gang a member (R380). -/
def Mach.collGroup (m : Mach) (c : Issue) (g : Nat) : Option Group :=
  (m.launches.get? c.launch).bind fun l => (l.groups.get? g).bind fun grp =>
    if grp.list.contains (clusterOf c.core) then some grp else none

/-- The operand positions of a collective: block and group of `cbar` stand in A and B. -/
def CollReq.blockPos (r : CollReq) : Nat := if r.kind = .barrier then 2 else 5

/-- The checks of a collective (R379), or the plan. On an invalid entry no range is known, so none is checked. -/
def Mach.collPlan (m : Mach) (c : Issue) (act : Lanes) (r : CollReq) : Except Chk EnginePlan :=
  let grp := m.collGroup c r.g
  let (sn, dn) := r.bytes ((grp.map fun g => g.list.length).getD 0)
  let src : Span := ⟨3, r.src, r.sa, sn, 0, 1, false⟩
  let dst : Span := ⟨2, r.dst, r.da, dn, 0, 1, true⟩
  let blk : Span := ⟨r.blockPos, .ls, r.block, 32, 0, 1, true⟩
  let scope := (grp.map (·.scope)).getD .cl
  if r.da % 8 ≠ 0 then .error (failAt .align 2 act r.da)
  else if r.sa % 8 ≠ 0 then .error (failAt .align 3 act r.sa)
  else if r.unit % 8 ≠ 0 then .error (failAt .align 4 act 0)
  else if r.block % 32 ≠ 0 then .error (failAt .align r.blockPos act r.block)
  else match m.spansLocal c (if r.kind = .barrier then [blk] else [dst, src, blk]) with
    | some s => .error (failAt .protection s.pos act s.base)
    | none => match m.spansChk c act [dst, src] with
      | .ok =>
        let (a, b) := (m.spanPieces c src, m.spanPieces c dst)
        let busy := (m.ops.filter fun o => clusterOf o.2.core = clusterOf c.core && o.2.kind matches .coll _).length
        if 8 ≤ busy then .error .wait
        else .ok ⟨if grp.isNone then [] else [src, dst, blk].filter fun s => s.extent ≠ 0, scope,
          .coll ⟨r.g, clusterOf c.core, r.kind, r.size, a, b, r.block, r.bb, scope, m.clock⟩, a ++ b, false, 0⟩
      | e => .error e

/-- Clusters taken out of service without a spare (R63). -/
def State.lostClusters (s : State) : List Nat :=
  s.sys.hub.retired.filterMap fun u => if u.kind = 1 then some (16 * u.die + u.unit) else none

/-- A collective is issued (R380): an invalid entry completes at once with status 1, one that has failed already with its status; a
group with a member gone for good
fails at once (R62, R63); else the issue belongs to a collective or waits for the next. Its operation has the number that
follows the instruction's own. -/
def State.collective (s : State) (i : Instr) (req : Mach → Issue → Lanes → CollReq) : Out :=
  let lost := s.lostClusters
  s.on fun m =>
    let before := m.issuing
    let m' := m.engineOp i fun m x act => m.collPlan x act (req m x act)
    let n := m.serial + 1
    match before, m'.ops.get? n with
    | some x, some o => match o.kind with
      | .coll k => match m.collGroup x k.group with
        | none =>
          let (v, m') := m'.takeWord
          m'.endColl n (statusRecord 1 0 0) (if k.kind = .barrier then 0 else v.toNat)
        | some grp =>
          match (m'.launches.get? x.launch).bind fun l => l.takeOwed k.group k.member with
          | some ((cause, mask), l) => ({ m' with launches := m'.launches.put x.launch l } : Mach).lateColl n k cause mask
          | none =>
          let m' := m'.admitColls x.launch k.group
          let dead := grp.list.filter fun c => lost.contains c || m'.gangDead x.launch c
          if dead = [] then m' else m'.failColl x.launch k.group 1 dead
      | _ => m'
    | _, _ => m'

/-- The request of `cag`, `crs` and `ca2a` from their registers (R379). -/
def collReq (kind : CollKind) (g : BitVec 5) (dst src : Spc) (a b e y : Reg) (bb : Bool) (x : Issue) (act : Lanes) :
    CollReq :=
  ⟨g.toNat, kind, (x.f.reg e.toNat (lowLane act)).toNat, dst, src, spcAddr x act dst a, spcAddr x act src b,
    (x.f.reg y.toNat (lowLane act)).toNat, bb⟩

/-- `cag` (R380). -/
def execCag (c : Ctl) (dst src : Spc) (a b e y : Reg) (g : BitVec 5) (bb : Bool) (s : State) : Out :=
  s.collective (.cag c dst src a b e y g bb) fun _ x act => collReq .gather g dst src a b e y bb x act

/-- `crs` (R380). -/
def execCrs (c : Ctl) (op : SumOp) (t : Ty) (dst src : Spc) (a b e y : Reg) (g : BitVec 5) (bb : Bool) (s : State) : Out :=
  s.collective (.crs c op t dst src a b e y g bb) fun _ x act => collReq (.reduce op t) g dst src a b e y bb x act

/-- `ca2a` (R380). -/
def execCa2a (c : Ctl) (dst src : Spc) (a b e y : Reg) (g : BitVec 5) (bb : Bool) (s : State) : Out :=
  s.collective (.ca2a c dst src a b e y g bb) fun _ x act => collReq .exchange g dst src a b e y bb x act

/-- `cbar` (R380). -/
def execCbar (c : Ctl) (a b : Reg) (bb : Bool) (s : State) : Out :=
  s.collective (.cbar c a b bb) fun _ x act =>
    ⟨(x.f.reg b.toNat (lowLane act)).toNat % 32, .barrier, 0, .ls, .ls, 0, 0, (x.f.reg a.toNat (lowLane act)).toNat, bb⟩

end Sys2Proof.Machine
end

