-- ==== Sys2Proof/Machine/Accum.lean ====
section
/-! DEFINITION. The accumulator store: first use (R109-R112), tokens (R403, R404), accumulator instructions (R405-R407). -/

namespace Sys2Proof.Machine

/-! ## Slots -/

/-- Physical slot of a team's slot (R110). -/
def Mach.physSlot (m : Mach) (tk k : Nat) : Option Nat := (m.team? tk).bind fun t => t.slotMap.get? k

/-- An ACC_OWNER entry; with V = 0, where none is listed, its other fields read zero, of which the manual says nothing (R109; DESIGN
CHOICE, log entry 116). -/
def Core.ownerOf (c : Core) (p : Nat) : AccOwner := c.owner.getD p ⟨false, 0, 0, 0⟩

/-- The entry that names a team's slot (R109). -/
def Team.owns (t : Team) (k : Nat) : AccOwner := ⟨true, k, t.launch, t.ix⟩

/-- Element (row, column) of a physical slot. -/
def Core.elem (c : Core) (p i j : Nat) : Word := c.acc.getD (1024 * p + 32 * i + j) 0

/-- Writes element (row, column) of a physical slot. -/
def Core.setElem (c : Core) (p i j : Nat) (v : Word) : Core := { c with acc := c.acc.norm (1024 * p + 32 * i + j) v 0 }

/-- Zeroes a physical slot, the shadow warp's with it (R156). -/
def Core.zeroSlot (c : Core) (p : Nat) : Core :=
  { c with acc := c.acc.sift fun k _ => k / 1024 ≠ p, accTwin := c.accTwin.sift fun k _ => k / 1024 ≠ p }

/-- The core as shadow warps have it: their slots stand for the leaders' (R156). -/
def Core.swapped (c : Core) : Core := { c with acc := c.accTwin, accTwin := c.acc }

/-- Whether the launch of a team runs in shadow mode (R156). -/
def Mach.shadowed (m : Mach) (tk : Nat) : Bool := (m.launchOf tk).any (·.shadow)

/-- The region of an operation: size, row and column offset (R393). -/
def regionAt (q : BitVec 2) (sh : Bool) : Nat × Nat × Nat :=
  if sh then (16, 16 * (q.toNat / 2), 16 * (q.toNat % 2)) else (32, 0, 0)

/-- The first of a set of slots, ascending, whose first use needs firmware (R111). -/
def Mach.wantsFirmware (m : Mach) (tk : Nat) (slots : List Nat) : Option Nat :=
  match m.team? tk with
  | none => none
  | some t => slots.find? fun k => !t.checked.contains k && match t.slotMap.get? k with
    | none => true
    | some p =>
      let o := (m.core t.core).ownerOf p
      o ≠ t.owns k && (o.v || t.savedAcc.contains k)

/-- First use of slots by an instruction that passes (R111): a free slot is taken and zeroed. -/
def Mach.firstUse (m : Mach) (tk : Nat) (slots : List Nat) : Mach :=
  slots.foldl (fun m k => match m.team? tk with
    | none => m
    | some t => match t.slotMap.get? k with
      | none => m
      | some p =>
        let m := m.updCore t.core fun c =>
          let c := { c with lastUse := c.lastUse.put p m.serial }
          if t.checked.contains k || c.ownerOf p = t.owns k then c
          else { c.zeroSlot p with owner := c.owner.put p (t.owns k) }
        m.updTeam tk fun t => { t with checked := insertNat k t.checked }) m

/-- Checks 1 and 2 of R406, and 2 and 3 of R400, on the slots an instruction names, in ascending order. -/
def Mach.slotsChk (m : Mach) (c : Issue) (act : Lanes) (slots : List Nat) : Chk :=
  let lim := ((m.launches.get? c.launch).map (·.accSlots)).getD 0
  if slots.any fun k => lim ≤ k then .fail { cause := .accToken, lanes := act }
  else match m.wantsFirmware c.tk slots with
    | some k => .firstUse k
    | none => .ok

/-- The token of a slot of the issuing team. -/
def Mach.tokenOf (m : Mach) (tk k : Nat) : Token := ((m.team? tk).map fun t => t.token k).getD ⟨none, false, [], []⟩

/-- Whether a token is with the matrix unit (R403). -/
def Token.free (k : Token) : Bool := k.owner.isNone && k.awaits = [] && k.waiters = []

/-- Whether a task holds a token (R403). -/
def Token.heldBy (k : Token) (t : Nat) : Bool := k.owner = some t && k.held

/-- The checks of an accumulator instruction that needs its token (R406). -/
def Mach.heldChk (m : Mach) (c : Issue) (act : Lanes) (k : Nat) : Chk :=
  match m.slotsChk c act [k] with
  | .ok => if (m.tokenOf c.tk k).heldBy c.t then .ok else .fail { cause := .accToken, lanes := act }
  | r => r

/-! ## Firmware (R110, R111, R260) -/

/-- Virtual address of a slot's accumulator image in a team's save region (R95, R111). -/
def Launch.imageVa (l : Launch) (teamIx k : Nat) : Nat :=
  l.spillBase.toNat + l.saveSize * teamIx + (l.saveSize - l.scale * l.accSlots * 4096) + k * 4096

/-- The 4,096 bytes of a slot (R111). -/
def Core.image (c : Core) (p : Nat) : List Byte :=
  (List.range 1024).flatMap fun i => natBytes 4 (c.acc.getD (1024 * p + i) 0).toNat

/-- Writes bytes to a virtual range for firmware, page by page, to a peer as writes (R31): none, or the fatal cause and address. -/
def Mach.writeVa (m : Mach) (asid va : Nat) : Nat → List Byte → Option (Cause × Nat) × Mach
  | 0, _ => (none, m)
  | fuel + 1, bs =>
    if bs = [] then (none, m)
    else match m.translateServiced asid va { write := true } with
      | (.ok l, m) =>
        let k := min bs.length (l.size - va % l.size)
        let m : Mach := match regionOf l.pa with
          | .peer p => { m with peerOut := m.peerOut ++ [PeerMsg.write p l.pa (bs.take k) false] }
          | _ => m.placeWrite (.dev l.pa) (bs.take k)
        m.writeVa asid (va + k) fuel (bs.drop k)
      | (.bad c, m) => (some (c, va), m)
      | (.stall _, m) => (some (.pageFault, va), m)

/-- The team a context names. -/
def Mach.ctxTeam (m : Mach) (o : AccOwner) : Option (Nat × Team) :=
  m.teams.find? fun t => t.2.launch = o.launch && t.2.ix = o.teamIx

/-- Firmware spills a physical slot to its owner's save region, with the shadow's slot in shadow mode (R95, R111): its entry is free.
The shadow's image lies where slot ACCSLOTS + LSLOT would; the manual does not say where (DESIGN CHOICE, log entry 115). A fatal write
kills the owner's gang (R260). -/
def Mach.spillSlot (m : Mach) (core p : Nat) : Mach :=
  let o := (m.core core).ownerOf p
  let clear (m : Mach) : Mach := m.updCore core fun c => { c with owner := c.owner.del p }
  match m.ctxTeam o with
  | none => clear m
  | some (tk, t) => match m.launches.get? t.launch with
    | none => clear m
    | some l =>
      let twin : Option (Cause × Nat) × Mach := if l.shadow
        then m.writeVa l.asid (l.imageVa t.ix (l.accSlots + o.lslot)) 3 ((m.core core).swapped.image p) else (none, m)
      let own := twin.2.writeVa l.asid (l.imageVa t.ix o.lslot) 3 ((m.core core).image p)
      match own.1.or twin.1, own.2 with
      | some (c, a), m => (clear m).askKill t.launch t.gang (strangerRecord c.code t.launch t.ix (.ofNat 64 a))
      | none, m => (clear m).updTeam tk fun t => { t with savedAcc := insertNat o.lslot t.savedAcc }

/-- A slot takes the words of its image. -/
def Core.takeImage (c : Core) (p : Nat) (bs : List Byte) : Core :=
  (List.range 1024).foldl (fun c i => c.setElem p (i / 32) (i % 32) (.ofNat 32 (field bs (4 * i) 4))) c

/-- Firmware loads a slot's image, the shadow's with it, or zeroes the slot, and sets its entry (R111); a fatal read, or poison in the
image (R155), kills the gang. -/
def Mach.loadSlot (m : Mach) (tk w k p : Nat) : Mach :=
  match m.team? tk, m.launchOf tk with
  | some t, some l =>
    let own (m : Mach) : Mach := m.updCore t.core fun c => { c with owner := c.owner.put p (t.owns k) }
    if t.savedAcc.contains k then
      let (twin, m) := if l.shadow then m.readVa l.asid (l.imageVa t.ix (l.accSlots + k)) false 3 4096 else (.ok ([], false), m)
      match twin, m.readVa l.asid (l.imageVa t.ix k) false 3 4096 with
      | .error (c, a), (_, m) => m.askKill t.launch t.gang (m.stopRecord tk w c (.ofNat 64 a))
      | _, (.error (c, a), m) => m.askKill t.launch t.gang (m.stopRecord tk w c (.ofNat 64 a))
      | .ok (bs2, bad2), (.ok (bs, bad), m) =>
        let m := (m.consume tk w (bad || bad2) (l.imageVa t.ix k)).updCore t.core fun c =>
          let c := (c.zeroSlot p).takeImage p bs
          if l.shadow then (c.swapped.takeImage p bs2).swapped else c
        (own m).updTeam tk fun t => { t with savedAcc := t.savedAcc.filter (· ≠ k) }
    else own (m.updCore t.core fun c => c.zeroSlot p)
  | _, _ => m

/-- `ACC_FIRSTUSE` (R111): firmware handles the first use that stopped an instruction, which then issues again. -/
def execAccFirstuse (s : State) : Out :=
  s.on fun m =>
    let (tk, k) := (s.subj.x, s.subj.y)
    match m.team? tk with
    | none => m
    | some t => match t.accWanted.find? fun e => e.1 = k with
      | none => m
      | some (_, w) =>
        let m := m.updTeam tk fun t => { t with accWanted := t.accWanted.filter fun e => e.1 ≠ k }
        match t.slotMap.get? k, t.runs && !m.dying tk with
        | some p, true =>
          let o := (m.core t.core).ownerOf p
          if o = t.owns k then m
          else (if o.v then m.spillSlot t.core p else m).loadSlot tk w k p
        | _, _ => m

/-- Entries that name contexts of a gang become V = 0, saved copies are dropped, tokens return (R112, R403). -/
def Mach.dropAcc (m : Mach) (tk : Nat) : Mach :=
  match m.team? tk with
  | none => m
  | some t =>
    let m := { m with cores := m.cores.mapv fun _ c =>
      { c with owner := c.owner.sift fun _ o => !(o.launch = t.launch && o.teamIx = t.ix) } }
    m.updTeam tk fun t => { t with savedAcc := [], tokens := [], checked := [], accWanted := [] }

/-! ## Accumulator instructions (R405-R407) -/

/-- Slots a matrix operation names (R397, R400). -/
def MmaK.slots (k : MmaK) : List Nat :=
  let d := k.f.dslot.toNat
  let src := match k.form with
    | .chained => if k.f.af matches .e4m3 | .e5m2 then [k.sslot, k.sslot + 1] else [k.sslot]
    | .gatherChained => [k.sslot]
    | _ => []
  (List.range 65).filter fun n => n = d || src.contains n

/-- Matrix operations of a team under way that name a slot, by number. -/
def Mach.mmaOn (m : Mach) (tk k : Nat) : List Nat :=
  m.ops.filterMap fun o => match o.2.kind with
    | .mma x => if o.2.team = tk && x.slots.contains k then some o.1 else none
    | _ => none

/-- Changes the token of a slot. -/
def Mach.updToken (m : Mach) (tk k : Nat) (f : Token → Token) : Mach :=
  m.updTeam tk fun t => t.setToken k (f (t.token k))

/-- `acc.acq` (R403). -/
def execAccAcq (c : Ctl) (slot : BitVec 6) (s : State) : Out :=
  s.on fun m => m.long (.accAcq c slot) false (fun x act => m.slotsChk x act [slot.toNat]) fun x _ m =>
    let k := slot.toNat
    let ops := m.mmaOn x.tk k
    (.accAcq k, (m.firstUse x.tk [k]).updToken x.tk k fun tok =>
      if tok.free then Token.settle ⟨some x.t, false, ops, []⟩
      else if tok.owner = some x.t || tok.waiters.contains x.t then tok
      else { tok with waiters := tok.waiters ++ [x.t] })

/-- `acc.acq` completes when its task holds the token; one of an ended task completes without it (R403). -/
def Mach.completeAccAcq (m : Mach) (n : Nat) (o : Op) (k : Nat) : Mach :=
  let ended := (m.tasks.get? o.task).all fun t => t.st matches .ended _
  if ended || (m.tokenOf o.team k).heldBy o.task then m.finishOp n [] else m

/-- The `acc.acq` of a task on a slot complete: it has come to hold the token (R403). -/
def Mach.acqDone (m : Mach) (tk k t : Nat) : Mach :=
  (m.ops.filter fun o => o.2.team = tk && o.2.task = t && o.2.kind = .accAcq k).foldl (fun m o => m.finishOp o.1 []) m

/-- `acc.rel` (R403, R404). -/
def execAccRel (c : Ctl) (slot : BitVec 6) (s : State) : Out :=
  s.on fun m => m.act (.accRel c slot) (fun x act => m.heldChk x act slot.toNat) fun x _ m =>
    ((m.acqDone x.tk slot.toNat x.t).firstUse x.tk [slot.toNat]).updToken x.tk slot.toNat fun tok => tok.release x.t

/-- `acc.ld` (R407): the slot is read at issue, while the task holds it. -/
def execAccLd (c : Ctl) (slot : BitVec 6) (quad : BitVec 3) (d : Reg) (s : State) : Out :=
  s.on fun m => m.long (.accLd c slot quad d) false (fun x act => m.heldChk x act slot.toNat) fun x act m =>
    let m := m.firstUse x.tk [slot.toNat]
    let p := (m.physSlot x.tk slot.toNat).getD 0
    (.writes ((laneList act).flatMap fun n => (List.range 4).map fun i =>
      (d.toNat + i, n, (m.core x.core).elem p n (4 * quad.toNat + i))) 0, m)

/-- Element size of an `acc.st` format (R407). -/
def accSize (t : AccT) : Nat :=
  match t with
  | .b32 => 4
  | .f16 | .bf16 => 2
  | .e4m3 | .e5m2 => 1

/-- An element as `acc.st` writes it (R407). -/
def accElem (t : AccT) (sat : Bool) (v : Word) : List Byte :=
  let out (f : Fmt) : Nat := (f.ofNum .rne sat (f32.num v.toNat)).bits
  natBytes (accSize t) (match t with
    | .b32 => v.toNat
    | .f16 => out f16
    | .bf16 => out bf16
    | .e4m3 => out e4m3
    | .e5m2 => out e5m2)

/-- The local-store range of an `acc.st` (R407). -/
def accSpan (x : Issue) (act : Lanes) (q : BitVec 2) (sh : Bool) (t : AccT) (a : Reg) (stride : BitVec 16) : Span :=
  let h := (regionAt q sh).1
  let len := h * accSize t
  ⟨2, .ls, (x.f.reg a.toNat (lowLane act)).toNat, len, if stride = 0 then len else stride.toNat, h, true⟩

/-- First use by an instruction that has put an operation under way. -/
def Mach.thenFirstUse (m : Mach) (ks : List Nat) (after : Mach) : Mach :=
  match m.issuing with
  | some x => if after.ops.any fun o => m.serial ≤ o.1 then after.firstUse x.tk ks else after
  | none => after

/-- The checks of `acc.st` (R406, R407), or the plan: rows as the slot holds them at issue. -/
def Mach.accStPlan (m : Mach) (x : Issue) (act : Lanes) (slot : Nat) (q : BitVec 2) (sh sat : Bool) (t : AccT) (a : Reg)
    (stride : BitVec 16) : Except Chk EnginePlan :=
  let sp := accSpan x act q sh t a stride
  match m.heldChk x act slot with
  | .ok =>
    if sp.base % 16 ≠ 0 then .error (failAt .align 2 act sp.base)
    else if (m.spansLocal x [sp]).isSome then .error (failAt .protection 2 act sp.base)
    else
      let p := (m.physSlot x.tk slot).getD 0
      let (h, r0, c0) := regionAt q sh
      let k := (m.firstUse x.tk [slot]).core x.core
      .ok ⟨[sp], .co, .accStore ((List.range h).map fun i => (sp.base + i * sp.stride,
        (List.range h).flatMap fun j => accElem t sat (k.elem p (r0 + i) (c0 + j)))), [(.ls x.tk sp.base, sp.extent)],
        false, 0⟩
  | r => .error r

/-- `acc.st` (R407): the slot is read at issue, its rows are written when it completes. -/
def execAccSt (c : Ctl) (slot : BitVec 6) (q : BitVec 2) (sh sat : Bool) (t : AccT) (a : Reg) (stride : BitVec 16)
    (s : State) : Out :=
  s.on fun m => m.thenFirstUse [slot.toNat] (m.engineOp (.accSt c slot q sh sat t a stride) fun m x act =>
    m.accStPlan x act slot.toNat q sh sat t a stride)

/-- `acc.st` completes (R219, R407). -/
def Mach.completeAccStore (m : Mach) (n : Nat) (o : Op) (rows : List (Nat × List Byte)) : Mach :=
  if m.engineHeld o.core n || !m.served n true [.ls o.team 0] then m
  else (rows.foldl (fun m r => m.taskWrite o.task (.ls o.team r.1) r.2) m).endEngine n o .co [] none 0 []

/-- `acc.zero` (R407). -/
def execAccZero (c : Ctl) (slot : BitVec 6) (q : BitVec 2) (sh : Bool) (s : State) : Out :=
  s.on fun m => m.act (.accZero c slot q sh) (fun x act => m.heldChk x act slot.toNat) fun x _ m =>
    let m := m.firstUse x.tk [slot.toNat]
    let p := (m.physSlot x.tk slot.toNat).getD 0
    let (h, r0, c0) := regionAt q sh
    let out (e : Nat) : Bool :=
      !(e / 1024 = p && r0 ≤ e % 1024 / 32 && e % 1024 / 32 < r0 + h && c0 ≤ e % 32 && e % 32 < c0 + h)
    m.updCore x.core fun k => { k with acc := k.acc.sift fun e _ => out e, accTwin := k.accTwin.sift fun e _ => out e }

/-- `acc.q` (R407): holder, operations on the slot, ownership. -/
def execAccQ (c : Ctl) (slot : BitVec 6) (d : Reg) (s : State) : Out :=
  s.on fun m => m.act (.accQ c slot d)
    (fun x act =>
      if ((m.launches.get? x.launch).map (·.accSlots)).getD 0 ≤ slot.toNat then .fail { cause := .accToken, lanes := act }
      else .ok)
    fun x act m =>
      let k := slot.toNat
      let tok := m.tokenOf x.tk k
      let holder := if tok.heldBy x.t then 1 else if tok.held then 2 else 0
      let owned := (m.physSlot x.tk k).any fun p => (m.team? x.tk).any fun t => (m.core x.core).ownerOf p = t.owns k
      let v := holder + 4 * (m.mmaOn x.tk k ≠ [] : Bool).toNat + 8 * owned.toNat
      let m := match m.physSlot x.tk k with
        | some p => m.updCore x.core fun r => { r with lastUse := r.lastUse.put p m.serial }
        | none => m
      m.updFrame x.p.frame fun f => f.setLanes d.toNat (laneList act) fun _ => .ofNat 32 v

end Sys2Proof.Machine
end

