-- ==== Sys2Proof/Machine/Matrix.lean ====
section
/-! DEFINITION. Matrix operations (R393-R402, R241, R243) and `cvt.pk` (R392). -/

namespace Sys2Proof.Machine

/-! ## Formats and shapes (R393-R395) -/

/-- The element type of a matrix format (R394). -/
def mfmtTy (f : MFmt) : Ty :=
  match f with
  | .bf16 => .bf16
  | .f16 => .f16
  | .e4m3 => .e4m3
  | .e5m2 => .e5m2
  | .i8 => .i8

/-- Element size of a matrix format in bytes (R393). -/
def mfmtSize (f : MFmt) : Nat := if f matches .bf16 | .f16 then 2 else 1

/-- Whether a form takes packed B (R395). -/
def MForm.packed (k : MForm) : Bool := k matches .packedS | .packedDs

/-- Whether a form reads A from memory (R394). -/
def MForm.usesA (k : MForm) : Bool := k matches .dense | .packedS | .packedDs | .gather

/-- Whether a form reads B from memory (R394). -/
def MForm.usesB (k : MForm) : Bool := k matches .dense | .packedS | .packedDs | .chained

/-- Whether a form goes through adapters (R398). -/
def MForm.adapts (k : MForm) : Bool := k matches .gather | .gatherChained

/-- K of an operation (R393). -/
def kdim (form : MForm) (f : MmaF) : Nat := if form.packed then 96 else 64 / mfmtSize f.af

/-- Height of the region, its row and its column offset (R393). -/
def mmaRegion (f : MmaF) : Nat × Nat × Nat := regionAt f.q f.sh

/-- Bytes of A (R393). -/
def aBytesOf (form : MForm) (f : MmaF) : Nat := (mmaRegion f).1 * kdim form f * mfmtSize f.af

/-- Bytes of B (R393). -/
def bBytesOf (form : MForm) (f : MmaF) : Nat := (mmaRegion f).1 * if form.packed then 128 else 64

/-- FMT codes a packed form permits (R395). -/
def packedSet (form : MForm) : List Nat :=
  if form = .packedS then [0x00, 0x01, 0x02, 0x09, 0x0B, 0x0D] else [0x00, 0x04, 0x05, 0x08, 0x0A, 0x0C]

/-! ## Issue (R400) -/

/-- What an instruction gives a matrix operation: form, fields, source slot, windows, operand registers, counts. -/
structure MmaReq where
  form : MForm
  f : MmaF
  sslot : Nat
  hs : Bool
  aw : Bool
  bw : Bool
  a : Reg
  b : Reg
  ids : Reg
  table : Reg
  kb : Nat
  nadp : Nat

/-- The operation an instruction names before its operands are known. -/
def MmaReq.op (r : MmaReq) : MmaK :=
  ⟨r.form, r.f, r.sslot, r.hs, none, none, 0, 0, [], 0, r.kb, r.nadp, [], [], [], false, false, none, []⟩

/-- The operand ranges of a matrix operation (R393, R400). -/
def MmaReq.spans (r : MmaReq) (x : Issue) (act : Lanes) : List Span :=
  let sp (pos : Nat) (w : Bool) (reg : Reg) (n : Nat) : Span :=
    ⟨pos, if w then .cw else .ls, (x.f.reg reg.toNat (lowLane act)).toNat, n, 0, 1, false⟩
  (if r.form.usesA then [sp 2 r.aw r.a (aBytesOf r.form r.f)] else []) ++
    if r.form.usesB then [sp 3 r.bw r.b (bBytesOf r.form r.f)] else []

/-- The checks 2 to 6 of R400, or the plan. -/
def Mach.mmaPlan (m : Mach) (x : Issue) (act : Lanes) (r : MmaReq) : Except Chk EnginePlan :=
  let k := r.op
  let spans := r.spans x act
  let table := (x.f.pair r.table.toNat (lowLane act)).toNat
  match m.slotsChk x act k.slots with
  | .ok =>
    if !(k.slots.all fun n => (m.tokenOf x.tk n).free) then .error (.fail { cause := .accToken, lanes := act })
    else match spans.find? fun s => s.base % 64 ≠ 0 with
      | some s => .error (failAt .align s.pos act s.base)
      | none =>
        if r.form.adapts && table % 32 ≠ 0 then .error (failAt .align 5 act table)
        else match m.spansLocal x spans with
          | some s => .error (failAt .protection s.pos act s.base)
          | none =>
            let place (p : Nat) : Option Place := (spans.find? fun s => s.pos = p).bind fun s =>
              m.lsPlace x.tk x.launch s.spc s.base s.extent
            let base (p : Nat) : Nat := ((spans.find? fun s => s.pos = p).map (·.base)).getD 0
            let ids := if r.form.adapts then (List.range 32).map fun n =>
              if act.getLsbD n then (x.f.reg r.ids.toNat n).toNat % 2 ^ 16 else 0xFFFF else []
            .ok ⟨spans, .co, .mma { k with
              a := place 2, b := place 3, aAddr := base 2, bAddr := base 3
              ids := ids, table := table }, spans.flatMap (m.spanPieces x), false, 0⟩
  | r => .error r

/-- A matrix operation is issued (R400): it queues at the matrix unit. -/
def Mach.mma (m : Mach) (i : Instr) (r : MmaReq) : Mach :=
  m.thenFirstUse r.op.slots (m.engineOp i fun m x act => m.mmaPlan x act r)

/-- `mma` (R396). -/
def execMma (c : Ctl) (f : MmaF) (aw bw : Bool) (a b : Reg) (s : State) : Out :=
  s.on fun m => m.mma (.mma c f aw bw a b) ⟨.dense, f, 0, false, aw, bw, a, b, 0, 0, 0, 0⟩

/-- `mma.c` (R397). -/
def execMmaC (c : Ctl) (f : MmaF) (ch : ChainF) (bw : Bool) (b : Reg) (s : State) : Out :=
  s.on fun m => m.mma (.mmaC c f ch bw b) ⟨.chained, f, ch.sslot.toNat, ch.hs, false, bw, 0, b, 0, 0, 0, 0⟩

/-- `mma.s` (R396). -/
def execMmaS (c : Ctl) (f : MmaF) (aw bw : Bool) (a b : Reg) (s : State) : Out :=
  s.on fun m => m.mma (.mmaS c f aw bw a b) ⟨.packedS, f, 0, false, aw, bw, a, b, 0, 0, 0, 0⟩

/-- `mma.ds` (R396). -/
def execMmaDs (c : Ctl) (f : MmaF) (aw bw : Bool) (a b : Reg) (s : State) : Out :=
  s.on fun m => m.mma (.mmaDs c f aw bw a b) ⟨.packedDs, f, 0, false, aw, bw, a, b, 0, 0, 0, 0⟩

/-- `mma.g` (R399). -/
def execMmaG (c : Ctl) (f : MmaF) (aw : Bool) (a e y : Reg) (kb nadp : BitVec 16) (s : State) : Out :=
  s.on fun m => m.mma (.mmaG c f aw a e y kb nadp)
    ⟨.gather, f, 0, false, aw, false, a, 0, e, y, kb.toNat, nadp.toNat + 1⟩

/-- `mma.gc` (R399). -/
def execMmaGc (c : Ctl) (f : MmaF) (ch : ChainF) (e y : Reg) (nb nadp : BitVec 16) (s : State) : Out :=
  s.on fun m => m.mma (.mmaGc c f ch e y nb nadp)
    ⟨.gatherChained, f, ch.sslot.toNat, ch.hs, false, false, 0, 0, e, y, nb.toNat, nadp.toNat + 1⟩

/-! ## Reading operands (R398, R401) -/

/-- The two block positions of column j of packed B (R393). -/
def blockPair (bs : List Byte) (j : Nat) : List Byte × List Byte := ((bs.drop (128 * j)).take 64, (bs.drop (128 * j + 64)).take 64)

/-- Logical elements of a block (R234). -/
def blockCount (bs : List Byte) : Nat := ((blockFmt (blockCode bs)).map BlockFmt.count).getD 0

/-- FORMAT conditions of packed B: block address and operand position of each (R236, R393, R395). -/
def packedFaults (form : MForm) (bs : List Byte) (addr cols : Nat) : List (Cause × Nat × Nat) :=
  let ok (n : Nat) : Bool := (packedSet form).contains n
  (List.range cols).flatMap fun j =>
    let (x, y) := blockPair bs j
    match blockFault x ok with
    | some g => [(.format, addr + 128 * j, g)]
    | none =>
      if blockCount x ≠ 48 then []
      else match blockFault y ok with
        | some g => [(.format, addr + 128 * j + 64, g)]
        | none => if blockCode y = 0 || blockCount y = 48 then [] else [(.format, addr + 128 * j + 64, 0)]

/-- What reading bytes of a virtual range for the matrix unit comes to (R401): the bytes and the address of the first poisoned one, or
what holds it back, a page to fill, bytes to ask a peer for, or a fault. -/
inductive UnitRead where
  | ok (bs : List Byte) (bad : Option Nat)
  | ask (pa len : Nat)
  | stall (page : Nat)
  | fault (c : Cause) (addr : Nat)
  | wait
  deriving DecidableEq, Repr

/-- The first of n bytes at a place that is poisoned, as the address it has where the first has address a (R155). -/
def Mach.poisonAt (m : Mach) (p : Place) (n a : Nat) : Option Nat :=
  if m.poisoned p n then ((List.range n).find? fun i => m.poisoned (p.plus i) 1).map (a + ·) else none

/-- Reads bytes of a virtual range for operation n of a task at the homes, in page order (R399): pages to fill, stores of the core on
their way and earlier operations of the task hold it back (R219); bytes of a peer are those it has answered with (R31). -/
def Mach.unitRead (m : Mach) (core n t asid : Nat) (priv : Bool) (got : List (Nat × List Byte × Bool)) : Nat → Nat → Nat → UnitRead
  | 0, _, _ => .ok [] none
  | fuel + 1, va, len =>
    if len = 0 then .ok [] none
    else match m.translateOn core asid va { priv := priv } with
      | .bad c => .fault c va
      | .stall p => .stall p
      | .ok l =>
        let k := min len (l.size - va % l.size)
        let place : Place := .dev l.pa
        if !m.served n false [place] || m.storeBefore core n [(place, k)] || m.overtakes t (some n) [(place, k)] then .wait
        else
          let here : Option (List Byte × Option Nat) := if place.peer?.isSome then
              (got.find? fun g => g.1 = l.pa && g.2.1.length = k).map fun g => (g.2.1, if g.2.2 then some va else none)
            else some (m.placeRead place k, m.poisonAt place k va)
          match here with
          | none => .ask l.pa k
          | some (bs, bad) => match m.unitRead core n t asid priv got fuel (va + k) (len - k) with
            | .ok rest worse => .ok (bs ++ rest) (bad.or worse)
            | r => r

/-- Reads ranges in turn. -/
def Mach.unitReads (m : Mach) (core n t asid : Nat) (priv : Bool) (got : List (Nat × List Byte × Bool)) :
    List (Nat × Nat) → UnitRead
  | [] => .ok [] none
  | (va, len) :: rest =>
    match m.unitRead core n t asid priv got 3 va len with
    | .ok bs bad => match m.unitReads core n t asid priv got rest with
      | .ok cs worse => .ok (bs ++ cs) (bad.or worse)
      | r => r
    | r => r

/-- An adapter as an operation reads it: nothing to contribute, rank and factor columns with poison, or what stopped it. -/
inductive AdapterRead where
  | ok (rank : Nat) (bs : List Byte) (bad : Option Nat)
  | ask (pa len : Nat)
  | stall (page : Nat)
  | fault (c : Cause) (addr : Nat)
  | wait
  deriving DecidableEq, Repr

/-- The address of an adapter's entry (R398). -/
def MmaK.entryAt (k : MmaK) (id : Nat) : Nat := (k.table + 32 * id) % 2 ^ 64

/-- The factor columns the region of an operation needs of an adapter whose entry has the bytes given (R399). -/
def MmaK.factorCols (k : MmaK) (e : List Byte) : List (Nat × Nat) :=
  let (w, _, c0) := mmaRegion k.f
  let es := mfmtSize k.f.bf
  let rank := byteAt e 24
  if k.form = .gather then
    let kd := kdim k.form k.f
    ((List.range w).filter fun j => c0 + j < rank).map fun j =>
      ((field e 0 8 + (c0 + j) * field e 16 4 + k.kb * kd * es) % 2 ^ 64, kd * es)
  else (List.range w).map fun j => ((field e 8 8 + (k.kb * w + j) * field e 20 4) % 2 ^ 64, rank * es)

/-- Reads adapter `id` of an operation: its entry, then each factor column the region needs (R398, R399, R401). -/
def Mach.readAdapter (m : Mach) (core n t asid : Nat) (priv : Bool) (k : MmaK) (id : Nat) : AdapterRead :=
  let entry := k.entryAt id
  let es := mfmtSize k.f.bf
  if k.nadp ≤ id then .fault .protection entry
  else match m.unitRead core n t asid priv k.got 2 entry 32 with
    | .stall p => .stall p
    | .ask p n => .ask p n
    | .wait => .wait
    | .fault c a => .fault c a
    | .ok e bad =>
      let rank := byteAt e 24
      if 32 < rank || field e 25 7 ≠ 0 then .fault .format entry
      else if rank = 0 then .ok 0 [] bad
      else
        let cols := k.factorCols e
        match cols.find? fun p => p.1 % es ≠ 0 with
        | some p => .fault .align p.1
        | none => match m.unitReads core n t asid priv k.got cols with
          | .stall p => .stall p
          | .ask p n => .ask p n
          | .wait => .wait
          | .fault c a => .fault c a
          | .ok bs worse => .ok rank bs (bad.or worse)

/-- Adapter ids of the rows an operation writes, each once (R398). -/
def MmaK.rowIds (k : MmaK) : List Nat :=
  let (h, r0, _) := mmaRegion k.f
  ((k.ids.drop r0).take h).eraseDups.filter (· ≠ 0xFFFF)

/-- The places of the adapters an operation has yet to read: their entries, and their factor columns (R399). -/
def Mach.adapterSpots (m : Mach) (o : Op) : List Place :=
  match o.kind with
  | .mma k =>
    let asid := ((m.launchOf o.team).map (·.asid)).getD 0
    let at_ (va : Nat) : List Place := match m.translateOn o.core asid va {} with
      | .ok l => [.dev l.pa]
      | _ => []
    if !k.form.adapts || k.read then []
    else k.rowIds.flatMap fun id => (at_ (k.entryAt id)).flatMap fun p =>
      p :: (k.factorCols (m.placeRead p 32)).flatMap fun c => at_ c.1 ++ at_ (c.1 + (c.2 - 1))
  | _ => []

/-- Bytes of A and B an operation reads, each run with its address (R393): a first block of 96 elements leaves the second unread. -/
def MmaK.reads (k : MmaK) (bBs : List Byte) : List (Place × Nat × Nat) :=
  let cols (p : Place) : List (Place × Nat × Nat) := (List.range (mmaRegion k.f).1).flatMap fun j =>
    let at_ (i : Nat) : Place × Nat × Nat := (p.plus (128 * j + 64 * i), 64, k.bAddr + 128 * j + 64 * i)
    if blockCount (blockPair bBs j).1 = 48 then [at_ 0, at_ 1] else [at_ 0]
  (k.a.toList.map fun p => (p, aBytesOf k.form k.f, k.aAddr)) ++
    k.b.toList.flatMap fun p => if k.form.packed then cols p else [(p, bBytesOf k.form k.f, k.bAddr)]

/-- A matrix operation asks a peer for bytes it reads there, once (R31, R399). -/
def Mach.askUnit (m : Mach) (n : Nat) (k : MmaK) (pa len : Nat) : Mach :=
  match (Place.dev pa).peer? with
  | none => m
  | some p => { m.updOp n fun o => { o with kind := .mma { k with asked := some (pa, len) } } with
      peerOut := m.peerOut ++ [PeerMsg.request p n] }

/-- What a matrix operation has asked a peer for has come. -/
def Mach.takeUnit (m : Mach) (n : Nat) (o : Op) (k : MmaK) (pa len : Nat) : Mach :=
  m.updOp n fun x => { x with
    reply := none, replyBad := false
    kind := .mma { k with asked := none, got := k.got ++ [(pa, (List.range len).map fun i => (o.reply.getD []).getD i 0, o.replyBad)] } }

/-- A matrix operation has nothing more to read (R401): its entries go, its flag falls, with the deferred faults given. -/
def Mach.endUnit (m : Mach) (n : Nat) (o : Op) (k : MmaK) (rs : List FaultRec) : Mach :=
  ((m.unlockOp o.core n).updOp n fun o => { o with flag := none, kind := .mma { k with read := true, asked := none } }).dropFlag n o rs

/-- A matrix operation reads its operands (R401): its entries go and its flag falls; with deferred faults, of which the
manual does not say which is reported (log entry 1), its slot stays unchanged. -/
def Mach.completeMmaRead (m : Mach) (n : Nat) (o : Op) (k : MmaK) : Mach :=
  let h := (mmaRegion k.f).1
  let asid := ((m.launchOf o.team).map (·.asid)).getD 0
  let priv := (m.tasks.get? o.task).any (·.priv)
  let places := (k.a.toList.map fun p => (p, aBytesOf k.form k.f)) ++ k.b.toList.map fun p => (p, bBytesOf k.form k.f)
  let ads := if k.form.adapts then k.rowIds.map fun i => (i, m.readAdapter o.core n o.task asid priv k i) else []
  let stall := ads.findSome? fun a => match a.2 with
    | .stall p => some p
    | _ => none
  let ask := ads.findSome? fun a => match a.2 with
    | .ask p n => some (p, n)
    | _ => none
  match k.asked, o.reply.isSome with
  | some (pa, len), true => m.takeUnit n o k pa len
  | some _, false => m
  | none, _ =>
  if k.read || m.engineHeld o.core n || !m.served n false (places.map (·.1)) || m.storeBefore o.core n places ||
      ads.any (fun a => a.2 = .wait) then m
  else match stall, ask with
    | some p, _ => m.stallOn asid p
    | none, some (pa, len) => m.askUnit n k pa len
    | none, none =>
      let read (m : Mach) (p : Option Place) (len : Nat) : List Byte × Mach := match p with
        | some p => m.taskRead o.task p len
        | none => ([], m)
      let (aBs, m) := read m k.a (aBytesOf k.form k.f)
      let (bBs, m) := read m k.b (bBytesOf k.form k.f)
      let faults := (if k.form.packed then packedFaults k.form bBs k.bAddr h else []) ++
        ads.filterMap fun a => match a.2 with
          | .fault c at_ => some (c, at_, 0)
          | _ => none
      let bad := ((k.reads bBs).findSome? fun p => m.poisonAt p.1 p.2.1 p.2.2).or (ads.findSome? fun a => match a.2 with
        | .ok _ _ b => b
        | _ => none)
      let adapters : Sparse (Nat × List Byte) := ads.foldl (fun t a => match a.2 with
        | .ok r bs _ => t.put a.1 (r, bs)
        | _ => t) []
      let (rs, m) := match faults[0]? with
        | none => ([], m)
        | some f =>
          let (x, m) := m.takeFree
          let f := faults.getD (Config.freeNat x % faults.length) f
          ([o.record m f.1 f.2.2 o.lanes (.ofNat 64 f.2.1) 0], m)
      (m.consume o.team o.warp bad.isSome (bad.getD 0)).endUnit n o
        { k with aBytes := aBs, bBytes := bBs, adapters := adapters, void := faults ≠ [] } rs

/-! ## The sums (R243, R396-R399) -/

/-- base plus products, exactly, rounded once (R243); a product that is none is ∞ × 0. An exact zero is −0 where every term
is −0, else +0 (R229). -/
def sumExact (base : Num) (ps : List (Option Num)) : Word :=
  let ts := base :: ps.map fun p => p.getD (.nan false)
  let pinf := ts.any fun t => t matches .inf false
  let ninf := ts.any fun t => t matches .inf true
  let total := ts.foldl (fun (s : Int × Int) t => match t with
    | .fin g n e => addDy s.1 s.2 (signed g n) e
    | _ => s) (0, 0)
  .ofNat 32 (if ts.any Num.isNan || (pinf && ninf) then f32.nan
    else if pinf || ninf then f32.inf ninf
    else if total.1 = 0 then f32.zero (ts.all fun t => t matches .fin true ..)
    else (f32.round .rne false (total.1 < 0) total.1.natAbs total.2 false).bits)

/-- Element at a byte offset of operand bytes, of a format. -/
def elemAt (f : MFmt) (bs : List Byte) (off : Nat) : Num := elemNum (mfmtTy f) (field bs off (mfmtSize f))

/-- An element of a chained source as the down-converter gives it (R241). -/
def downConv (f : MFmt) (v : Word) : Num :=
  let g := fmtOf (mfmtTy f)
  g.num (g.ofNum .rne (f ≠ .bf16) (f32.num v.toNat)).bits

/-- The value of logical element i of a packed block; none where it is not kept (R234, R235). -/
def blockTerm (bs : List Byte) (i : Nat) : Option Num :=
  if blockFmt (blockCode bs) = some .zero then some (.fin false 0 0)
  else (blockElem bs i).map fun e => ((elemNum e.1 e.2).mul (blockScale bs)).getD (.nan false)

/-- B[k, j] of packed B (R393). -/
def packedAt (bs : List Byte) (k j : Nat) : Option Num :=
  let (x, y) := blockPair bs j
  if blockCount x = 48 && 48 ≤ k then blockTerm y (k - 48) else blockTerm x k

/-- A[i, k] of an operation: from its bytes, or from the source slots (R393, R397). -/
def MmaK.aAt (k : MmaK) (src : Nat → Nat → Nat → Word) (i q : Nat) : Num :=
  let r1 := if k.f.sh && k.hs then 16 else 0
  if k.form.usesA then elemAt k.f.af k.aBytes ((i * kdim k.form k.f + q) * mfmtSize k.f.af)
  else downConv k.f.af (src (q / 32) (r1 + i) (q % 32))

/-- The products of element (i, j) of the region (R396-R399). -/
def MmaK.products (k : MmaK) (src : Nat → Nat → Nat → Word) (i j : Nat) : List (Option Num) :=
  let kd := kdim k.form k.f
  let (_, r0, c0) := mmaRegion k.f
  if k.form.packed then
    (List.range kd).filterMap fun q => (packedAt k.bBytes q j).map fun b => (k.aAt src i q).mul b
  else if k.form.adapts then
    let es := mfmtSize k.f.bf
    match k.adapters.get? (k.ids.getD (r0 + i) 0xFFFF) with
    | none => []
    | some (rank, bs) =>
      if k.form = .gather then
        if c0 + j < rank then (List.range kd).map fun q => (k.aAt src i q).mul (elemAt k.f.bf bs ((j * kd + q) * es))
        else []
      else (List.range rank).map fun q => (k.aAt src i q).mul (elemAt k.f.bf bs ((j * rank + q) * es))
  else (List.range kd).map fun q => (k.aAt src i q).mul (elemAt k.f.bf k.bBytes (64 * j + q * mfmtSize k.f.bf))

/-- Element (i, j) of the region after the operation, `old` before it (R243, R396). -/
def MmaK.result (k : MmaK) (src : Nat → Nat → Nat → Word) (old : Word) (i j : Nat) : Word :=
  let base := if k.f.za then 0 else old
  if k.f.af = .i8 then
    let el (bs : List Byte) (off : Nat) : Int := extBits 8 true (byteAt bs off)
    base + .ofInt 32 (((List.range 64).map fun q => el k.aBytes (64 * i + q) * el k.bBytes (64 * j + q)).foldl (· + ·) 0)
  else sumExact (f32.num base.toNat) (k.products src i j)

/-- Whether an earlier operation of the team stands between an operation and its slots (R401). -/
def Mach.mmaWaits (m : Mach) (n tk : Nat) (k : MmaK) : Bool :=
  m.ops.any fun o => o.1 < n && o.2.team = tk && match o.2.kind with
    | .mma e => k.slots.contains e.f.dslot.toNat || e.slots.contains k.f.dslot.toNat
    | _ => false

/-- `ACC_SLOT_UPDATE` (R401, R403): the slot is updated, in shadow mode the shadow's slot from the same operands (R156), and tokens
that awaited the operation move on. -/
def execAccSlotUpdate (s : State) : Out :=
  s.on fun m =>
    let n := s.subj.x
    match m.ops.get? n with
    | none => m
    | some o => match o.kind with
      | .mma k =>
        if !k.read || m.mmaWaits n o.team k then m
        else
          let (h, r0, c0) := mmaRegion k.f
          let p (slot : Nat) : Nat := (m.physSlot o.team slot).getD 0
          let d := p k.f.dslot.toNat
          let cells := (List.range h).flatMap fun i => (List.range h).map fun j => (i, j)
          let update (c : Core) : Core :=
            let src (q i j : Nat) : Word := c.elem (p (k.sslot + q)) i j
            cells.foldl (fun r e => r.setElem d (r0 + e.1) (c0 + e.2)
              (k.result src (c.elem d (r0 + e.1) (c0 + e.2)) e.1 e.2)) c
          let m := if k.void then m else m.updCore o.core fun c =>
            if m.shadowed o.team then (update (update c).swapped).swapped else update c
          let m := m.updTeam o.team fun t =>
            { t with tokens := (t.tokens.mapv fun _ tok =>
                { tok with awaits := tok.awaits.filter (· ≠ n) }.settle).sift fun _ tok => tok ≠ ⟨none, false, [], []⟩ }
          { m with ops := m.ops.del n }
      | _ => m

/-! ## `cvt.pk` (R392) -/

/-- The checks of `cvt.pk` over the active lanes, in order (R392). -/
def Mach.cvtPkChk (m : Mach) (c : Issue) (act : Lanes) (a : Reg) : Chk :=
  let lim := ((m.launches.get? c.launch).map (·.lsBytes)).getD 0
  let as := (laneList act).map fun n => (n, (c.f.reg a.toNat n).toNat)
  let fail (k : Cause) (pos : Nat) (bad : List (Nat × Nat)) : Chk :=
    .fail { cause := k, oppos := pos, lanes := laneSet (bad.map (·.1)), addr := .ofNat 64 ((bad.head?.map (·.2)).getD 0) }
  let align := as.filter fun x => x.2 % 64 ≠ 0
  let prot := as.filter fun x => lim < x.2 + 64
  let locked := as.filter fun x => m.rangeLocked c.core c.launch c.tk .ls x.2 64 false
  let flawed := as.filterMap fun x => (blockFault (m.lsRead c.tk x.2 64) fun _ => true).map fun g => (x, g)
  if align ≠ [] then fail .align 2 align
  else if prot ≠ [] then fail .protection 2 prot
  else if locked ≠ [] then fail .rangeLocked 2 locked
  else if m.overtakes c.t none (as.map fun x => (.ls c.tk x.2, 64)) then .wait
  else match flawed with
    | [] => .ok
    | x :: _ => fail .format x.2 (flawed.map (·.1))

/-- `cvt.pk` (R392). -/
def execCvtPk (c : Ctl) (d a b : Reg) (s : State) : Out :=
  s.on fun m => m.long (.cvtPk c d a b) false (fun x act => m.cvtPkChk x act a) fun x act m =>
    let rs := (laneList act).map fun n =>
      (n, blockRes (m.lsRead x.tk (x.f.reg a.toNat n).toNat 64) (x.f.reg b.toNat n).toNat)
    let bad := (laneList act).any fun n => m.poisoned (.ls x.tk (x.f.reg a.toNat n).toNat) 64
    (.writes (rs.map fun r => (d.toNat, r.1, .ofNat 32 r.2.bits)) (rs.foldl (fun w r => w ||| r.2.fp.word) 0),
      m.consume x.tk x.w bad 0)

end Sys2Proof.Machine
end

