-- ==== Sys2Proof/Machine/System.lean ====
section
/-! DEFINITION. Special registers (R296-R298, R326), management registers (R79) and the system instructions of R381. -/

namespace Sys2Proof.Machine

/-! ## Service state -/

/-- The core of a logical number as a unit (R437). -/
def coreUnit (core : Nat) : UnitRef := ⟨0, core / 64, core % 64⟩

/-- The logical cluster of a core as a unit (R437). -/
def clusterUnit (core : Nat) : UnitRef := ⟨1, core / 64, core % 64 / 4⟩

/-- Whether a logical core is in service (R147, R18). -/
def Hub.coreIn (h : Hub) (core : Nat) : Bool :=
  !h.outOfService.contains (coreUnit core) && !h.outOfService.contains (clusterUnit core)

/-- Code of a lease state (R298). -/
def LeaseSt.code : LeaseSt → Nat
  | .requested => 1 | .draining => 2 | .testing => 3 | .returning => 4 | .retiring => 5

/-- The lease of a core (R298): its own, else that of its cluster (DEDUCED, log entry 60). -/
def Hub.leaseOf (h : Hub) (core : Nat) : Option (Nat × Lease) :=
  (h.leases.find? fun l => l.2.u = coreUnit core).or (h.leases.find? fun l => l.2.u = clusterUnit core)

/-- LEASE_STATE as a core reads it (R298). -/
def Hub.leaseState (h : Hub) (core : Nat) : Nat :=
  match h.leaseOf core with
  | some (n, l) => l.st.code * 2 ^ 29 + l.u.kind * 2 ^ 16 + n
  | none => 0

/-! ## Special registers (R296, R326) -/

/-- ACC_OWNER of a physical slot (R109). -/
def AccOwner.word (o : AccOwner) : Nat := o.v.toNat * 2 ^ 31 + o.lslot * 2 ^ 24 + o.launch * 2 ^ 8 + o.teamIx

/-- Handle of a launch's inbox, 0 without one (R141). -/
def Launch.inboxHandle (l : Launch) (n device : Nat) : Nat :=
  if l.hasInbox then n + 2 ^ 16 * device + 2 ^ 32 * l.inboxGen else 0

/-- Cores of a team's gang in service (R154). -/
def State.gangCores (s : State) (tk : Nat) : Nat :=
  match s.m.team? tk with
  | none => 0
  | some t =>
    ((s.m.teams.filter fun x => x.2.launch = t.launch && x.2.gang = t.gang && !x.2.unbound && s.sys.hub.coreIn x.2.core).map
      fun x => x.2.core).eraseDups.length

/-- CAPACITY as a team reads it: the counts the hub wrote and GCORES (R153, R154). -/
def State.capacityOf (s : State) (tk : Nat) : Nat :=
  let c := ((s.m.launchOf tk).map fun l => l.capacity.toNat).getD 0
  c / 2 ^ 44 * 2 ^ 44 + s.gangCores tk * 2 ^ 41 + c % 2 ^ 41

/-- The value of a special register in a lane (R296, R326). -/
def State.sreg (s : State) (x : Issue) (r : SReg) (idx lane : Nat) : Nat :=
  let m := s.m
  let team := m.team? x.tk
  let launch := m.launches.get? x.launch
  let task := m.tasks.get? x.t
  let frec := (m.handlerOf lane x.p.frame).map fun h => h.frec
  match r with
  | .lane => lane
  | .warp => x.w
  | .team => x.teamIx
  | .core => x.core
  | .cluster => clusterOf x.core
  | .die => coreDie x.core
  | .device => m.device
  | .clock => m.clock + (m.core x.core).skew
  | .prio => (task.map fun k => k.prio).getD 0
  | .fpstat => (task.map fun k => k.fpstat.toNat).getD 0
  | .frameDepth => x.f.depth
  | .capacity => s.capacityOf x.tk
  | .noteSeq => (launch.map fun l => l.noteSeq.toNat).getD 0
  | .xsteal => (team.map fun t => t.xsteal.toNat).getD 0
  | .trapvec => (team.map fun t => t.trapvec.toNat).getD 0
  | .faultPc => (frec.map fun f => f.pc.toNat).getD 0
  | .faultCause => (frec.map fun f => f.causeword.toNat).getD 0
  | .faultLanes => (frec.map fun f => f.lanes.toNat).getD 0
  | .faultAddr => (frec.map fun f => f.addr.toNat).getD 0
  | .asid => x.asid
  | .partition => (launch.map fun l => l.part).getD 0
  | .inbox => (launch.map fun l => l.inboxHandle x.launch m.device).getD 0
  | .mtime => m.mtime
  | .accOwner => ((m.core x.core).ownerOf idx).word
  | .leaseState => s.sys.hub.leaseState x.core

/-- What a lane of the issuing path receives from a special register: a pair or a word (R296). -/
def State.sregRes (s : State) (r : SReg) (idx lane : Nat) : Res :=
  let v := match s.m.issuing with
    | some x => s.sreg x r idx lane
    | none => 0
  if r.isPair then res64 (.ofNat 64 v) else res32 (.ofNat 32 v)

/-- `movs` from a special register (R326). -/
def execMovsRead (c : Ctl) (r : SReg) (idx : BitVec 6) (d : Reg) (s : State) : Out :=
  s.on fun m => m.alu (.movsRead c r idx d) fun _ _ n => s.sregRes r idx.toNat n

/-- `movs` to a special register (R297, R326): RW fields take the value of the lowest active lane, RO registers nothing. -/
def execMovsWrite (c : Ctl) (r : SReg) (idx : BitVec 6) (a : Reg) (s : State) : Out :=
  s.on fun m => m.act (.movsWrite c r idx a) (fun _ _ => .ok) fun x act m =>
    let w := x.f.reg a.toNat (lowLane act)
    match r with
    | .prio => m.updTask x.t fun k => { k with prio := w.toNat % 8 }
    | .fpstat => m.updTask x.t fun k => { k with fpstat := w &&& 0x3F }
    | .xsteal => m.updTeam x.tk fun t => { t with xsteal := w }
    | .trapvec => m.updTeam x.tk fun t => { t with trapvec := .ofNat 64 (vecAddr (x.f.pair a.toNat (lowLane act))) }
    | _ => m

/-! ## Sleep (R381) -/

/-- Ends the sleep of every warp of a team: a kill, CANCEL, or a pre-emption request (R381). -/
def Mach.wakeSleepers (m : Mach) (tk : Nat) : Mach :=
  { m with warps := m.warps.mapv fun k w => if k / 64 = tk then { w with sleepUntil := 0 } else w }

/-- `sleep` (R381). -/
def execSleep (c : Ctl) (n : BitVec 24) (s : State) : Out :=
  s.on fun m => m.act (.sleep c n) (fun _ _ => .ok) fun x _ m =>
    if n = 0 then m else m.updWarp x.tk x.w fun w => { w with sleepUntil := m.clock + 16 * n.toNat }

/-- `SLEEP_EXPIRY` (R381): the clocks of a `sleep` have passed. -/
def execSleepExpiry (s : State) : Out :=
  s.on fun m => m.updWarp s.subj.x s.subj.y fun w => if w.sleepUntil ≤ m.clock then { w with sleepUntil := 0 } else w

/-! ## Management registers (R79) -/

/-- The k-th 32-bit word of a 64-bit register. -/
def wordAt (v k : Nat) : Word := .ofNat 32 (v / 2 ^ (32 * k))

/-- Code of a domain state (R49). -/
def DomSt.code : DomSt → Nat
  | .inactive => 0 | .active => 1 | .writeback => 2 | .switch => 3 | .replay => 4

/-- DOMSTAT of a domain entry (R49). -/
def Domain.stat (d : Domain) : Nat := min d.stale.length 15 * 16 + d.gen.toNat * 8 + d.st.code

/-- A word of the domain registers of an entry, by its offset in the entry's block (R79). -/
def Domain.word (d : Domain) (o : Nat) : Word :=
  if o / 8 = 0 then wordAt (d.base * 2 ^ 30) (o / 4)
  else if o / 8 = 1 then wordAt (d.lim * 2 ^ 30) (o / 4 % 2)
  else if o / 8 = 2 then wordAt d.mask.toNat (o / 4 % 2)
  else if o = 0x18 then .ofNat 32 d.stat
  else 0

/-- Reads a management register; an absent one reads zero (R79). -/
def State.mgmtRead (s : State) (die port off : Nat) : Word :=
  if die = 0 && port = 0x3FF then
    if off = 0 then s.sys.hub.estctl else if off = 4 then s.m.svctl else 0
  else if port = 0x3F0 then
    if off = 0 then s.m.rplctlOf die
    else if 0x10 ≤ off && off < 0x20 then s.sys.hub.scrbctl.getD (4 * die + (off - 0x10) / 4) 0x97
    else if 0x100 ≤ off && off < 0x200 then
      ((s.m.domains.get? (8 * die + (off - 0x100) / 0x20)).map fun d => d.word (off % 0x20)).getD 0
    else 0
  else 0

/-- Replicas of a die leave until no set of a slice holds more than its WAYS (R48); which of a set do is free. -/
def Mach.trimReplicas (m : Mach) (die : Nat) : Mach :=
  (m.replicas.filter fun e => e.1 % 4 = die).foldl (fun m e =>
    match m.l2.get? e.1 with
    | none => m
    | some slice =>
      let peers := e.1 :: (m.setLines die slice (e.1 / 4) 0).filter fun k => (m.replicas.get? k).isSome
      if peers.length ≤ m.replicaWays die then m
      else match m.anyOf peers with
        | (some k, m) => m.l2Evict k
        | (none, m) => m) m

/-- Writes RPLCTL of a die (R48): clearing ENA ends every replica of the die. -/
def Mach.writeRplctl (m : Mach) (die : Nat) (v : Word) : Mach :=
  let m := { m with rplctl := m.rplctl.norm die (v &&& 0x1F) 0x9 }
  if v.getLsbD 0 then m.trimReplicas die else m.dropReplicas die ((m.replicas.filter fun e => e.1 % 4 = die).map (·.1 / 4))

/-- Writes SCRBCTL of a stack (R57): FORCE asks for a full pass. -/
def State.writeScrbctl (s : State) (stack : Nat) (v : Word) : State :=
  { s with sys := { s.sys with hub := { s.sys.hub with
      scrbctl := s.sys.hub.scrbctl.norm stack (v &&& 0xFF) 0x97
      forced := if v.getLsbD 8 then insertNat stack s.sys.hub.forced else s.sys.hub.forced } } }

/-- Writes a management register: RW fields only; an absent or RO one ignores it (R79). -/
def State.mgmtWrite (s : State) (die port off : Nat) (v : Word) : State :=
  if die = 0 && port = 0x3FF then
    if off = 0 then { s with sys := { s.sys with hub := { s.sys.hub with estctl := v &&& 0xFF00FFFF } } }
    else if off = 4 then { s with m := { s.m with svctl := v } }
    else s
  else if port = 0x3F0 then
    if off = 0 then { s with m := s.m.writeRplctl die v }
    else if 0x10 ≤ off && off < 0x20 && off % 4 = 0 then s.writeScrbctl (4 * die + (off - 0x10) / 4) v
    else s
  else s

/-! ## Privileged instructions (R381) -/

/-- A word of the lowest active lane. -/
def wordOf (x : Issue) (act : Lanes) (r : Reg) : Nat := (x.f.reg r.toNat (lowLane act)).toNat

/-- A pair of the lowest active lane. -/
def pairOf (x : Issue) (act : Lanes) (r : Reg) : Nat := (x.f.pair r.toNat (lowLane act)).toNat

/-- Team a save or load names: launch and team index (R381). -/
def ctxKey (v : Nat) : Nat := v % 2 ^ 16 * 256 + v / 2 ^ 16 % 2 ^ 8

/-- The check of a save region: 4 KiB aligned. -/
def regionChk (x : Issue) (act : Lanes) (a : Reg) : Chk :=
  if pairOf x act a % 4096 ≠ 0 then failAt .align 2 act (pairOf x act a) else .ok

/-- The team a `ctx.save` saves: resident on the core of the instruction, its gang not being killed. -/
def Mach.saveable (m : Mach) (core tk : Nat) : Option Nat :=
  match m.team? tk with
  | some t => if t.core = core && t.res = .resident && !m.dying tk then some tk else none
  | none => none

/-- A team starts to be saved (R102, R108). -/
def Mach.beginSave (m : Mach) (tk : Nat) : Mach :=
  (m.updTeam tk fun t => { t with res := .saving }).wakeSleepers tk

/-- `ctx.save` (R381): the save begins; it completes under R108. -/
def execCtxSave (c : Ctl) (d a b : Reg) (s : State) : Out :=
  s.on fun m => m.long (.ctxSave c d a b) false (fun x act => regionChk x act a) fun x act m =>
    let team := m.saveable x.core (ctxKey (wordOf x act b))
    (.ctxSave team (pairOf x act a) d.toNat, match team with
      | some tk => m.beginSave tk
      | none => m)

/-- `ctx.load` (R381). -/
def execCtxLoad (c : Ctl) (d a b : Reg) (s : State) : Out :=
  s.on fun m => m.long (.ctxLoad c d a b) false (fun x act => regionChk x act a) fun x act m =>
    (.ctxLoad (ctxKey (wordOf x act b)) (pairOf x act a) d.toNat, m)

/-- `frec.rd` (R381): the record of the last fault of the core, or zeros, goes to a physical address. -/
def execFrecRd (c : Ctl) (a : Reg) (s : State) : Out :=
  s.on fun m => m.long (.frecRd c a) false
    (fun x act =>
      let pa := pairOf x act a
      if pa % 64 ≠ 0 then failAt .align 2 act pa
      else match m.backing pa x.priv with
        | some k => failAt k 2 act pa
        | none => .ok)
    fun x act m =>
      (.frecRd (pairOf x act a) (((m.core x.core).lastFault.map FaultRec.bytes).getD (List.replicate 64 0)), m)

/-- `lease.tst` (R381). -/
def execLeaseTst (c : Ctl) (d a : Reg) (pat : BitVec 24) (s : State) : Out :=
  s.on fun m => m.long (.leaseTst c d a pat) false (fun _ _ => .ok) fun x act m =>
    let v := wordOf x act a
    (.leaseTst ⟨v % 16, v / 16 % 4, v / 64 % 2 ^ 16⟩ pat.toNat d.toNat, m)

/-- `lease.rel` (R381). -/
def execLeaseRel (c : Ctl) (d a : Reg) (s : State) : Out :=
  s.on fun m => m.long (.leaseRel c d a) false (fun _ _ => .ok) fun x act m =>
    let v := wordOf x act a
    (.leaseRel (v % 2 ^ 16) (bit v 16) d.toNat, m)

/-- `tlb.inv` (R381). -/
def execTlbInv (c : Ctl) (a b : Reg) (s : State) : Out :=
  s.on fun m => m.long (.tlbInv c a b) false
    (fun x act => if wordOf x act b / 2 ^ 12 % 4 = 3 then .fail { cause := .illegal, oppos := 3, lanes := act } else .ok)
    fun x act m =>
      let v := wordOf x act b
      (.tlbInv (pairOf x act a) (v % 2 ^ 11) (v / 2 ^ 12 % 4), m)

/-- The check of a management offset: a multiple of 4. -/
def offsetChk (act : Lanes) (off : BitVec 24) : Chk :=
  if off.toNat % 4 ≠ 0 then .fail { cause := .align, lanes := act } else .ok

/-- `bezel.rd` (R381). -/
def execBezelRd (c : Ctl) (d a : Reg) (off : BitVec 24) (s : State) : Out :=
  s.on fun m => m.long (.bezelRd c d a off) false (fun _ act => offsetChk act off) fun x act m =>
    let v := wordOf x act a
    (.bezelRd (v / 2 ^ 10 % 4) (v % 2 ^ 10) off.toNat d.toNat, m)

/-- `bezel.wr` (R381). -/
def execBezelWr (c : Ctl) (a b : Reg) (off : BitVec 24) (s : State) : Out :=
  s.on fun m => m.long (.bezelWr c a b off) false (fun _ act => offsetChk act off) fun x act m =>
    let v := wordOf x act a
    (.bezelWr (v / 2 ^ 10 % 4) (v % 2 ^ 10) off.toNat (x.f.reg b.toNat (lowLane act)), m)

end Sys2Proof.Machine
end

