-- ==== Sys2Proof/Machine/Hub.lean ====
section
/-! DEFINITION. What the hub reports: event queues and their records (R68, R74, R82-R84), capacity (R153, R154). -/

namespace Sys2Proof.Machine

/-- Changes the hub. -/
def State.updHub (s : State) (f : Hub → Hub) : State := { s with sys := { s.sys with hub := f s.sys.hub } }

/-- Changes the machine proper. -/
def State.updM (s : State) (f : Mach → Mach) : State := { s with m := f s.m }

/-- A fresh free 64-bit value (log entry 1). -/
def State.takeDWord (s : State) : DWord × State :=
  (Config.freeDWord s.m.free, s.updM fun m => { m with free := m.free + 1 })

/-! ## Event records (R82) -/

/-- A record as it is laid out, with the events dropped before it and its PHASE (R82). DROPPED saturates at 65,535: of more dropped
events the manual says nothing (DESIGN CHOICE, log entry 94). -/
def EvRec.bytes (r : EvRec) (dropped : Nat) (phase : Bool) : List Byte :=
  natBytes 2 r.typ ++ natBytes 1 r.opcode ++ natBytes 1 r.queue ++ natBytes 4 r.tag.toNat ++ natBytes 2 r.status ++
    natBytes 2 (min dropped 65535) ++ natBytes 4 0 ++ natBytes 8 r.data.toNat ++ natBytes 7 0 ++ natBytes 1 phase.toNat

/-- Whether a record waits for space instead of being dropped: a completion or LAUNCH_END (R82). -/
def EvRec.waits (r : EvRec) : Bool := r.typ ≤ 1

/-- HEAD of an event queue, as its producer line holds it (R68, R74). -/
def EvQueue.head (q : EvQueue) (m : Mach) : Nat := bytesNat (m.homeRead q.base 4)

/-- Entries of an event queue in use: TAIL and HEAD count modulo 2^32 (R68). -/
def EvQueue.used (q : EvQueue) (m : Mach) : Nat := (q.tail + 2 ^ 32 - q.head m) % 2 ^ 32

/-- Whether a record can be written now. -/
def EvQueue.room (q : EvQueue) (m : Mach) : Bool := q.used m < 2 ^ q.logn

/-- Writes a record at TAIL of an event queue and raises its vector (R25, R82). -/
def State.putRec (s : State) (n : Nat) (q : EvQueue) (r : EvRec) : State :=
  let size := 2 ^ q.logn
  let bs := r.bytes q.dropped (q.tail / size % 2 = 0)
  let s := s.updM fun m => m.placeWrite (.dev (q.base + 128 + q.tail % size * 32)) bs
  s.updHub fun h => { h with
    eqs := h.eqs.put n { q with tail := q.tail + 1, dropped := 0 }
    msix := if q.vector < 64 then h.msix ++ [q.vector] else h.msix }

/-- Writes the records that wait at a queue, in order, as long as there is room (R82). -/
def State.drainRecs (s : State) (n : Nat) : List EvRec → State
  | [] => s
  | r :: rs =>
    match s.sys.hub.eqs.get? n with
    | none => s
    | some q =>
      if q.room s.m then (s.putRec n { q with waiting := rs } r).drainRecs n rs else s

/-- Writes what waits at an event queue. -/
def State.flushQueue (s : State) (n : Nat) : State := s.drainRecs n (((s.sys.hub.eqs.get? n).map (·.waiting)).getD [])

/-- Posts a record to an event queue: written, left waiting, or dropped (R82); queue 0 stands for one that does not exist
(R74), and keeps what is posted before it is live (log entry 7). -/
def State.post (s : State) (n : Nat) (r : EvRec) : State :=
  let n := if (s.sys.hub.eqs.get? n).isSome then n else 0
  let s := s.flushQueue n
  match s.sys.hub.eqs.get? n with
  | none => s.updHub fun h => { h with early := h.early ++ [r] }
  | some q =>
    if q.waiting = [] && q.room s.m then s.putRec n q r
    else s.updHub fun h => { h with eqs := h.eqs.put n (if r.waits then { q with waiting := q.waiting ++ [r] }
      else { q with dropped := q.dropped + 1 }) }

/-- Posts an event to queues, with one sequence number (R84, R438). -/
def State.event (s : State) (qs : List Nat) (typ : Nat) (data : DWord) : State :=
  let s := s.updHub fun h => { h with eventSeq := h.eventSeq + 1 }
  let r : EvRec := ⟨typ, 0, 0, s.sys.hub.eventSeq, 0, data⟩
  qs.foldl (fun s q => s.post q r) s

/-- The numbers of a unit as an event's DATA holds them: kind [35:32], die or link [39:36], unit [55:40] (R84, R437). -/
def unitData (u : UnitRef) (low : Nat) : DWord := .ofNat 64 (low + u.kind * 2 ^ 32 + u.die * 2 ^ 36 + u.unit * 2 ^ 40)

/-! ## Capacity (R153, R154) -/

/-- Code of a peer connection's state in CAPACITY (R154). -/
def Conn.code : Conn → Nat
  | .absent => 0 | .up => 1 | .recovering => 2 | .down => 3

/-- Code of the host link's width in CAPACITY (R154). -/
def hostWidth (l : HostLink) : Nat := if l.width = 8 then 1 else if l.width = 4 then 2 else 0

/-- Whether a slice of a die serves some interleave domain and is in service (R154). -/
def State.sliceServes (s : State) (die n : Nat) : Bool :=
  !s.sys.hub.outOfService.contains ⟨2, die, n⟩ &&
    s.m.domains.any fun d => d.1 / 8 = die && d.2.st ≠ .inactive && d.2.mask.getLsbD n

/-- The counts of CAPACITY but for GCORES (R154). -/
def State.capacityWord (s : State) : DWord :=
  let h := s.sys.hub
  let peers := ((List.range 8).map fun p => (s.m.conn p).code * 2 ^ (48 + 2 * p)).foldl (· + ·) 0
  let hostw := (h.hostLink.map fun l => hostWidth l * 2 ^ 45 + l.slow.toNat * 2 ^ 44).getD 0
  let chans := 512 - (h.retired.filter fun u => u.kind = 3).length
  let slices := ((List.range 4).map fun d => ((List.range 64).filter (s.sliceServes d)).length).foldl (· + ·) 0
  let cores := (List.range 256).filter h.coreIn
  let clusters := (List.range 64).filter fun c => cores.any fun k => k / 4 = c
  let edges := min (h.outOfService.filter fun u => u.kind = 4).length 63
  .ofNat 64 (peers + hostw + chans * 2 ^ 31 + slices * 2 ^ 22 + cores.length * 2 ^ 13 + clusters.length * 2 ^ 6 + edges)

/-- Queues a capacity event goes to: 0, those bound to a partition with an admitted launch, the launches' own (R84). -/
def State.capacityQueues (s : State) : List Nat :=
  let parts := s.m.launches.map fun l => l.2.part
  let bound := (s.sys.hub.eqs.filter fun q => q.2.part.any parts.contains).map (·.1)
  (0 :: bound ++ s.m.launches.map fun l => if (s.sys.hub.eqs.get? l.2.evq).isSome then l.2.evq else 0).eraseDups

/-- A capacity change for a unit (R153): every launch's CAPACITY and NOTE_SEQ, then the event. -/
def State.capacityChange (s : State) (u : UnitRef) : State :=
  let s := s.updHub fun h => { h with capSeq := h.capSeq + 1 }
  let seq := s.sys.hub.capSeq
  let word := s.capacityWord
  let s := s.updM fun m => { m with launches := m.launches.mapv fun _ l => { l with capacity := word, noteSeq := seq } }
  s.event s.capacityQueues 0x0002 (unitData u seq.toNat)

/-! ## Scores (R144, R145) -/

/-- The unit a score belongs to: a peer link has one score for all its lanes (R144). -/
def scoredUnit (u : UnitRef) : UnitRef := if u.kind = 5 then ⟨5, u.die, 0⟩ else u

/-- Suspicion score of a unit (R144). -/
def Hub.score (h : Hub) (u : UnitRef) : Nat := h.scores.getD (unitCode (scoredUnit u)) 0

/-- The number of the next lease: the one after the last that no lease in flight holds, from 1 to 65,535 (log entry 4). -/
def Hub.nextLease (h : Hub) : Nat :=
  match ((List.range 65535).map fun i => (h.lastLease + i) % 65535 + 1).find? fun n => !(h.leases.any fun l => l.1 = n) with
  | some n => n
  | none => 0

/-- Whether a unit is under a lease. -/
def Hub.leased (h : Hub) (u : UnitRef) : Option Nat := (h.leases.find? fun l => l.2.u = u).map (·.1)

/-- Requests a lease for a unit (R146): the lease's number; one already leased keeps its own. -/
def Hub.requestLease (h : Hub) (u : UnitRef) : Nat × Hub :=
  match h.leased u with
  | some n => (n, h)
  | none =>
    let n := h.nextLease
    (n, { h with leases := h.leases.put n ⟨u, .requested, false, false, none, 0, false, 0⟩, lastLease := n })

/-- Whether a peer link has left for good with its lanes (R29). -/
def Hub.linkGone (h : Hub) (link : Nat) : Bool := 4 < (h.retired.filter fun x => x.kind = 5 && x.die = link).length

/-- Whether a unit has left for good: retired itself, a core of a retired cluster, a cluster with no core left, a lane of a retired
link (R18, R146). -/
def Hub.unitGone (h : Hub) (u : UnitRef) : Bool :=
  h.retired.contains u || match u.kind with
    | 0 => h.retired.contains ⟨1, u.die, u.unit / 4⟩
    | 1 => (List.range 4).all fun i => h.retired.contains ⟨0, u.die, 4 * u.unit + i⟩
    | 5 => h.linkGone u.die
    | _ => false

/-- Whether the score of a unit stands still (R144): of a link while any of its lanes serves, it does not. -/
def Hub.scoreStill (h : Hub) (u : UnitRef) : Bool := if u.kind = 5 then h.linkGone u.die else h.unitGone u

/-- Units whose score stands at the threshold or above have a lease requested (R146). -/
def Hub.seekLeases (h : Hub) : Hub :=
  let limit := h.policy.threshold
  if limit = 0 then h
  else (h.scores.filter fun e => limit ≤ e.2 && e.1 / 2 ^ 16 ≠ 1).foldl (fun h e =>
    let u : UnitRef := ⟨e.1 / 2 ^ 16, e.1 / 2 ^ 12 % 16, e.1 % 2 ^ 12⟩
    let u := if u.kind = 5 then { u with unit := ((List.range 9).find? fun l => !h.retired.contains ⟨5, u.die, l⟩).getD 0 } else u
    if h.unitGone u then h else (h.requestLease u).2) h

/-- Sets the score of a unit (R144). -/
def Hub.setScore (h : Hub) (u : UnitRef) (n : Nat) : Hub := { h with scores := h.scores.norm (unitCode (scoredUnit u)) n 0 }

/-- Adds to the score of a unit that has not left (R144, R145): CORRECTED reports a rise of 16 or more; at the threshold the
hub requests a lease (R146). -/
def State.charge (s : State) (u : UnitRef) (n : Nat) : State :=
  if s.sys.hub.scoreStill u then s
  else
    let new := min (s.sys.hub.score u + n) 65535
    let s := s.updHub fun h => h.setScore u new
    let s := if 16 ≤ n then s.event [0] 0x0004 (unitData u new) else s
    s.updHub Hub.seekLeases

end Sys2Proof.Machine
end

