-- ==== Sys2Proof/Machine/Kill.lean ====
section
/-! DEFINITION. The end of gangs and launches: gang kill, discard and relaunch (R104, R157-R159), CANCEL (R77), the end of a
launch (R81, R113). -/

namespace Sys2Proof.Machine

/-- Keys of the teams of a gang. -/
def Mach.gangTeams (m : Mach) (launch gang : Nat) : List Nat :=
  (m.teams.filter fun t => t.2.launch = launch && t.2.gang = gang).map (·.1)

/-- Keys of the teams of a launch. -/
def Mach.launchTeams (m : Mach) (launch : Nat) : List Nat := (m.teams.filter fun t => t.2.launch = launch).map (·.1)

/-- Engine operations (R371): copies, gather, scatter, staging, collectives, `acc.st`. -/
def OpKind.isEngine : OpKind → Bool
  | .engine _ | .stage _ | .coll _ | .accStore _ => true
  | _ => false

/-- Operations that end with their team: nothing of them lands outside it. -/
def OpKind.isInner : OpKind → Bool
  | .writes .. | .load _ | .accAcq _ | .mma _ | .fetch .. => true
  | _ => false

/-! ## Stopping teams -/

/-- Task t stopped with its gang, its descriptor not kept (R77, R158): its scope counts one less, a remote future resolves
FAULTED; a local future stays EMPTY. -/
def Mach.dropTask (m : Mach) (t launch : Nat) (d : Desc) (cause : Nat) (addr : DWord) : Mach :=
  let m := if d.remote then m.resolveFuture t 0 d true (faultValue cause addr) else m
  m.updLaunch launch fun l => l.scopeDec d.scope

/-- Inserts a kept descriptor by when it entered the gang. -/
def insertKept (x : Nat × Desc) : List (Nat × Desc) → List (Nat × Desc)
  | [] => [x]
  | y :: ys => if x.1 < y.1 then x :: y :: ys else y :: insertKept x ys

/-- The tasks of a team stop (R158): kept as descriptors in the order they entered the gang (R159), or ended. -/
def Mach.stopTasks (m : Mach) (tk launch : Nat) (keep : Bool) (cause : Nat) (addr : DWord) : Mach :=
  let ts := (m.tasksOf tk).filter fun e => e.2.st ≠ .inTransit
  let live := ts.filter fun e => !(e.2.st matches .ended _)
  let images := (live.filterMap fun e => e.2.bufImage) ++
    m.frames.filterMap fun f => if ts.any fun e => e.1 = f.2.task then f.2.spilled else none
  let m := if keep then
      m.updTeam tk fun t => { t with kept := live.foldl (fun l e => insertKept (e.2.entry, e.2.desc) l) t.kept }
    else
      let old := ((m.team? tk).map (·.kept)).getD []
      let m := m.updTeam tk fun t => { t with kept := [] }
      let m := live.foldl (fun m e => m.dropTask e.1 launch e.2.desc cause addr) m
      old.foldl (fun m d => m.dropTask m.serial launch d.2 cause addr) m
  let m := m.updLaunch launch fun l => l.dropImages images
  { m with
    tasks := m.tasks.sift fun n _ => !(ts.any fun e => e.1 = n)
    frames := m.frames.sift fun _ f => !(ts.any fun e => e.1 = f.task) }

/-- The operations of a team once it has stopped (R134, R157 step 2): those that end with it go, the others run on, with
their completions to its flags discarded; byte barriers count on where `cells` says so (R77). Its stores run on. The range locks of those
that go are gone (R219). -/
def Mach.stopOps (m : Mach) (tk : Nat) (cells : Bool) : Mach :=
  let out := (m.ops.filter fun o => o.2.team = tk && o.2.kind.isInner).map (·.1)
  let m := { m with cores := m.cores.mapv fun _ c => { c with locks := c.locks.filter fun e => !out.contains e.op } }
  { m with
    ops := (m.ops.sift fun _ o => !(o.team = tk && o.kind.isInner)).mapv fun _ o =>
      if o.team = tk then { o with dead := true, gone := !(cells && o.kind.isEngine), flag := none } else o
    cores := m.cores.mapv fun _ c => { c with stores := c.stores.map fun s => if s.team = tk then { s with team := 0 } else s } }

/-- A task a stopped thief has been promised is dropped or kept with it; the steal is over. -/
def Mach.stopSteal (m : Mach) (tk launch : Nat) (keep : Bool) (cause : Nat) (addr : DWord) : Mach :=
  match m.team? tk with
  | none => m
  | some t =>
    let m := match t.steal.reply with
      | some (some n) => match m.tasks.get? n with
        | some x =>
          let m := { m with tasks := m.tasks.del n }
          if keep then m.updTeam tk fun t => { t with kept := insertKept (x.entry, x.desc) t.kept }
          else m.dropTask n launch x.desc cause addr
        | none => m
      | _ => m
    m.updTeam tk fun t => { t with steal := ⟨none, none, [], 0, false⟩ }

/-- Stops a team: its warps, tasks, frames, tokens, barriers and deque are gone (R112, R157, R403). -/
def Mach.stopTeam (m : Mach) (tk : Nat) (keep cells : Bool) (cause : Nat) (addr : DWord) (res : Residency) : Mach :=
  match m.team? tk with
  | none => m
  | some t =>
    let m := (((m.stopSteal tk t.launch keep cause addr).stopTasks tk t.launch keep cause addr).stopOps tk cells).dropAcc tk
    let m := { m with warps := m.warps.mapv fun k w =>
      if k / 64 = tk then ⟨.free, none, 0, 0, w.lastIssue, w.shadowIssue⟩ else w }
    m.updTeam tk fun t => { t with
      res := res, bars := [], deque := [], parked := [], chosen := false, evict := false
      image := none
      slotMap := if res = Residency.resident then t.slotMap else [] }

/-- Residency of a team whose gang is stopped to be relaunched (R102, R104, R159): a resident one stays in place, one that is
saved or being restored gives up its saved state. -/
def Residency.afterStop : Residency → Residency
  | .resident | .draining | .saving => .resident
  | .waitingNew | .waitingSaved | .restoring => .waitingNew
  | .ended => .ended

/-- Reduction contexts that can no longer fill (R349). -/
def Mach.failContexts (m : Mach) (launch : Nat) (ixs : List Nat) : Mach :=
  m.updLaunch launch fun l => { l with redctx := l.redctx.mapv fun _ r =>
    let short := ixs.any fun t => r.tlo ≤ t && t ≤ r.thi && (List.range r.elems).any fun e =>
      (List.range r.slots).any fun k => !m.slotFilled r t e k
    if r.st = .opened && short then { r with st := .failed } else r }

/-- Collectives with a member gone fail (R62): every collective that holds the cluster, or only those that still wait for a
member. -/
def Mach.failMember (m : Mach) (launch cl : Nat) : Mach :=
  match m.launches.get? launch with
  | none => m
  | some l => l.colls.foldl (fun m k =>
      if (l.groups.get? k.1).any fun g => g.list.contains cl then
        m.failColl launch k.1 1 (cl :: (l.absent k.1).filter (· ≠ cl))
      else m) m

/-- Collectives of a stopped launch that still wait for a member fail (R62, R77). -/
def Mach.failAbsent (m : Mach) (launch : Nat) : Mach :=
  match m.launches.get? launch with
  | none => m
  | some l => l.colls.foldl (fun m k => if l.absent k.1 = [] then m else m.failColl launch k.1 1 (l.absent k.1)) m

/-! ## Gang kill, discard, relaunch -/

/-- Stops a gang (R157 steps 1 to 3, R104): with `keep` its teams wait for their relaunch, without they are ENDED. `victim` is
the team a discard takes off its core. -/
def Mach.stopGang (m : Mach) (launch gang : Nat) (keep : Bool) (cause : Nat) (addr : DWord) (victim : Option Nat) : Mach :=
  let tks := m.gangTeams launch gang
  let ts := tks.filterMap fun k => m.team? k
  let m := m.failContexts launch (ts.map (·.ix))
  let m := tks.foldl (fun m tk => match m.team? tk with
    | some t => m.stopTeam tk keep false cause addr
        (if !keep then .ended else if victim = some tk then .waitingNew else t.res.afterStop)
    | none => m) m
  let m := ((ts.map fun t => clusterOf t.core).eraseDups).foldl (fun m cl => m.failMember launch cl) m
  if keep then m.updLaunch launch fun l => { l with relaunching := l.relaunching.filter (· ≠ gang) ++ [gang] } else m

/-- A gang kill that has been asked for (R157): KILLED advances, FIRST takes the record if it is zero; with RESTART the gang
waits for its relaunch. -/
def State.killGang (s : State) (ln g : Nat) : State :=
  let left := s.m.kills.filter fun k => !(k.launch = ln && k.gang = g)
  let m := { s.m with kills := left }
  match s.m.kills.find? fun k => k.launch = ln && k.gang = g, s.m.launches.get? ln with
  | some k, some l =>
    let ended := (m.gangTeams ln g).all fun tk => (m.team? tk).all fun t => t.res = .ended
    if ended then { s with m := m }
    else
      let m := m.stopGang ln g l.restart k.frec.cause k.frec.addr none
      let m := m.updLaunch ln fun l => { l with killed := l.killed + 1, first := l.first.or (some k.frec) }
      let s := { s with m := m.wakeScopes ln }
      if k.frec.cause = Cause.shadowMismatch.code then
        match m.team? (ln * 256 + k.frec.teamIx) with
        | some t => s.charge (coreUnit t.core) 4096
        | none => s
      else s
  | _, _ => { s with m := m }

/-- The state of a warp slot of a team that becomes resident (R177): IDLE, or as its restored task has it (R106). -/
def Mach.seat (m : Mach) (w : Warp) : WarpSt :=
  match w.task.bind m.tasks.get? with
  | none => .idle
  | some k =>
    if k.st matches .ended _ then .ending
    else if k.allPaths = [] then .startBlocked k.order
    else if k.run.isSome || k.paths.any Path.selectable then .active
    else .blocked

/-- The warp slots of a team take their states as it becomes resident (R177). -/
def Mach.seatWarps (m : Mach) (tk : Nat) : Mach :=
  let m := { m with warps := m.warps.mapv fun k w => if k / 64 = tk then { w with st := m.seat w } else w }
  (m.warpsOf tk).foldl (fun m w => m.settle tk w.1) m

/-- Whether an operation writes the local store of a team. -/
def OpKind.writesLs (tk : Nat) : OpKind → Bool
  | .engine k => k.rows.any fun r => r.2.1 matches .ls .. && r.2.1.own tk
  | .coll k => k.dst.any fun d => d.1.own tk
  | .tile k => if k.load then k.team = tk else k.rows.any (Place.own tk)
  | .atomic k => k.lanes.any fun a => a.acc.place.own tk
  | _ => false

/-- Whether operations or stores that write the local store of a team are under way (R159). -/
def Mach.lsBusy (m : Mach) (tk : Nat) : Bool :=
  (m.ops.any fun o => o.2.kind.writesLs tk || (o.2.team = tk && o.2.kind.isEngine)) ||
    m.cores.any fun c => c.2.stores.any fun s => s.place.own tk && !s.done

/-- `GANG_RELAUNCH` (R159): local stores zeroed, `XSTEAL` and `TRAPVEC` reloaded, kept descriptors queued again as slots are free.
CLAUSES counts on where the team stayed resident (R99). -/
def execGangRelaunch (s : State) : Out :=
  s.on fun m =>
    let (ln, g) := (s.subj.x, s.subj.y)
    let tks := m.gangTeams ln g
    match m.launches.get? ln with
    | none => m
    | some l =>
      if !l.relaunching.contains g || tks.any m.lsBusy then m
      else
        let m := m.updLaunch ln fun l =>
          { l with relaunching := l.relaunching.filter (· ≠ g), relaunched := l.relaunched + 1 }
        tks.foldl (fun m tk =>
          let m := if (m.team? tk).any fun t => t.res = .resident then m.seatWarps tk else m
          (m.updTeam tk fun t => { t with
            ls := [], lsPoison := [], spoilt := [], wideCells := [], xsteal := l.xsteal, trapvec := l.trapvec,
            idleSince := m.clock }).refill
              tk l.dequeCap l.dequeCap) m

/-! ## The end of a launch -/

/-- An inbox ends (R77, R141): the generation advances; what waits is dropped, its remote futures FAULTED at the sender. -/
def State.closeInbox (s : State) (ln : Nat) : State :=
  match s.m.launches.get? ln with
  | none => s
  | some l =>
    if !l.hasInbox then s
    else
      let gen := (l.inboxGen + 1) % 2 ^ 16
      let m := s.m.updLaunch ln fun l => { l with hasInbox := false, inbox := [], inboxGen := gen }
      let m := l.inbox.foldl (fun m d => m.dropTask m.serial ln d.1 Cause.remoteUnavailable.code 0) m
      ({ s with m := m } : State).updHub fun h => { h with inboxGens := h.inboxGens.put ln gen }

/-- Whether an engine operation of a launch is outstanding (R113). -/
def Mach.enginesOut (m : Mach) (ln : Nat) : Bool := m.ops.any fun o => o.2.kind.isEngine && o.2.team / 256 = ln

/-- Whether a launch has no task left, waiting descriptors included (R113). -/
def Mach.tasksDone (m : Mach) (ln : Nat) : Bool :=
  match m.launches.get? ln with
  | none => true
  | some l =>
    !(m.tasks.any fun t => t.2.team / 256 = ln && !(t.2.st matches .ended _)) && l.inbox = [] &&
      !(m.teams.any fun t => t.2.launch = ln && t.2.kept ≠ [])

/-- The status a launch ends with (R83). -/
def Launch.status (l : Launch) : Nat :=
  match l.stop with
  | some n => n
  | none => if l.killed ≠ 0 || l.faults ≠ 0 then 5 else 0

/-- The launch completion record (R81). -/
def Launch.record (l : Launch) : List Byte :=
  natBytes 2 l.status ++ natBytes 2 l.killed ++ natBytes 2 l.relaunched ++ natBytes 2 (min l.faults 65535) ++
    natBytes 8 l.spills ++ natBytes 48 0 ++ ((l.first.map FaultRec.bytes).getD (natBytes 64 0))

/-- Writes the launch completion record through the launch's ASID; nothing where a fatal condition meets it (R81). -/
def Mach.writeLcr (m : Mach) (l : Launch) : Mach :=
  match m.walk l.asid l.lcr.toNat with
  | .leaf e _ _ => if pteW e then
      match m.writeVa l.asid l.lcr.toNat 3 l.record with
      | (none, m') => m'
      | (some _, _) => m
    else m
  | .none => m

/-- A launch ends (R81, R113): every team ENDED, its record written, LAUNCH_END posted, what it held released. -/
def State.endLaunch (s : State) (ln : Nat) : State :=
  match s.m.launches.get? ln with
  | none => s
  | some l =>
    let tks := s.m.launchTeams ln
    let m := tks.foldl (fun m tk => m.stopTeam tk false true Cause.remoteUnavailable.code 0 .ended) s.m
    let m := m.failAbsent ln
    let s := ({ s with m := m } : State).closeInbox ln
    let s := s.updM fun m => m.writeLcr l
    let s := s.updM fun m => { m with
      launches := m.launches.del ln
      teams := m.teams.sift fun k _ => !tks.contains k
      warps := m.warps.sift fun k _ => !tks.contains (k / 64)
      tasks := m.tasks.sift fun _ t => !tks.contains t.team
      kills := m.kills.filter fun k => k.launch ≠ ln
      focus := m.focus.bind fun f => if tks.contains f.1 then none else some f
      ops := m.ops.mapv fun _ o => if o.team / 256 = ln then { o with gone := true, dead := true } else o }
    s.event [l.evq] 0x0001 (.ofNat 64 (ln + 2 ^ 16 * l.status))

/-- Whether a launch ends (R113): every end condition holds, or it has been stopped and its engine operations are complete. -/
def Mach.launchOver (m : Mach) (ln : Nat) : Bool :=
  match m.launches.get? ln with
  | none => false
  | some l => (l.stop.isSome || (m.tasksDone ln && !m.kills.any fun k => k.launch = ln)) && !m.enginesOut ln

/-- Stops every team of a launch (R77): RESULT 1 where the launch was not ending of itself. -/
def State.stopLaunch (s : State) (ln status : Nat) : Nat × State :=
  match s.m.launches.get? ln with
  | none => (0, s)
  | some l =>
    if l.stop.isSome || (s.m.tasksDone ln && !s.m.enginesOut ln) then (0, s)
    else
      let tks := s.m.launchTeams ln
      let m := s.m.failContexts ln ((tks.filterMap fun k => s.m.team? k).map (·.ix))
      let m := tks.foldl (fun m tk => m.stopTeam tk false true Cause.remoteUnavailable.code 0 .ended) m
      let m := m.updLaunch ln fun l => { l with stop := some status, relaunching := [] }
      (1, ({ s with m := m.failAbsent ln } : State).closeInbox ln)

end Sys2Proof.Machine
end

