-- ==== Sys2Proof/Machine/Residency.lean ====
section
/-! DEFINITION. Charges and placement (R92-R94, R152), residency and its estimator (R96, R97, R99-R110), saves and restores. -/

namespace Sys2Proof.Machine

/-! ## Charges (R92) -/

/-- Resources of one core, or a team's charge on them. -/
structure Charge where
  warps : Nat
  granules : Nat
  ls : Nat
  acc : Nat
  deque : Nat
  deriving DecidableEq, Repr

/-- Two charges together. -/
def Charge.add (a b : Charge) : Charge :=
  ⟨a.warps + b.warps, a.granules + b.granules, a.ls + b.ls, a.acc + b.acc, a.deque + b.deque⟩

/-- Whether a charge fits within another. -/
def Charge.within (a b : Charge) : Bool :=
  a.warps ≤ b.warps && a.granules ≤ b.granules && a.ls ≤ b.ls && a.acc ≤ b.acc && a.deque ≤ b.deque

/-- What a charge exceeds another by. -/
def Charge.over (a b : Charge) : Charge :=
  ⟨a.warps - b.warps, a.granules - b.granules, a.ls - b.ls, a.acc - b.acc, a.deque - b.deque⟩

/-- No charge. -/
def Charge.none : Charge := ⟨0, 0, 0, 0, 0⟩

/-- The charge of a team of a launch (R92). -/
def Launch.charge (l : Launch) : Charge :=
  ⟨l.scale * l.warps, l.scale * l.granules, l.lsBytes, l.scale * l.accSlots, l.dequeCap⟩

/-- A partition's quotas on one core (R90). -/
def quotaCharge (q : Quota) : Charge := ⟨q.warps, q.granules, q.lskib * 1024, q.accslots, q.deque⟩

/-- Pages pinned in the local store of a core (R200), those whose MAP waits for its block included (R201). -/
def Mach.pinsIn (m : Mach) (core : Nat) : Nat := ((m.pins ++ m.pinning).filter fun p => p.inLs && p.tgt = core).length

/-- What a core has (R15, R200). -/
def Mach.coreHas (m : Mach) (core : Nat) : Charge := ⟨48, 768, 512 * 1024 - 64 * 1024 * m.pinsIn core, 64, 2048⟩

/-- Whether a team holds its charges on its core. -/
def Team.holds (t : Team) : Bool := t.res matches .restoring | .resident | .draining | .saving

/-- Sum of the charges of teams. -/
def Mach.sumCharges (m : Mach) (ts : List Team) : Charge :=
  ts.foldl (fun c t => c.add (((m.launches.get? t.launch).map Launch.charge).getD Charge.none)) Charge.none

/-- Teams bound to a core whose launch has not ended (R94). -/
def Mach.teamsOn (m : Mach) (core : Nat) : List (Nat × Team) :=
  m.teams.filter fun t => t.2.core = core && !t.2.unbound && t.2.res ≠ .ended

/-- Whether a charge fits in what is free on a core, some charges given back. -/
def Mach.coreFits (m : Mach) (core : Nat) (c : Charge) (back : Charge) : Bool :=
  let used := m.sumCharges (((m.teamsOn core).map (·.2)).filter Team.holds)
  (c.add used).within ((m.coreHas core).add back)

/-! ## Placement (R93, R152) -/

/-- Partition of a team. -/
def Mach.partOf (m : Mach) (t : Team) : Nat := ((m.launches.get? t.launch).map (·.part)).getD 16

/-- Admitted teams of a partition on a core; an ended team's charges stay reserved until its launch ends (R93, R113). -/
def Mach.partTeams (m : Mach) (part core : Nat) : List Team :=
  (m.teams.filter fun t => t.2.core = core && !t.2.unbound && m.partOf t.2 = part).map (·.2)

/-- Whether the free quotas of a partition on a core cover a charge (R93). -/
def State.quotaCovers (s : State) (part core : Nat) (c : Charge) : Bool :=
  match s.sys.hub.parts.get? part with
  | none => false
  | some q => (c.add (s.m.sumCharges (s.m.partTeams part core))).within (quotaCharge q)

/-- Cores of a cluster in service whose free quotas cover a charge. -/
def State.coresFor (s : State) (part cl : Nat) (c : Charge) : List Nat :=
  ((List.range 4).map fun i => 4 * cl + i).filter fun core => s.sys.hub.coreIn core && s.quotaCovers part core c

/-- Inserts by a key, behind equal ones. -/
def insertBy (key : Nat → Nat) (x : Nat) : List Nat → List Nat
  | [] => [x]
  | y :: ys => if key x < key y then x :: y :: ys else y :: insertBy key x ys

/-- Sorts by a key, equal ones in the order given. -/
def sortBy (key : Nat → Nat) (xs : List Nat) : List Nat := xs.foldl (fun l x => insertBy key x l) []

/-- Admitted teams of a partition on a cluster. -/
def Mach.clusterTeams (m : Mach) (part cl : Nat) : Nat :=
  ((List.range 4).map fun i => (m.partTeams part (4 * cl + i)).length).foldl (· + ·) 0

/-- Clusters for n gangs of k cores each, in ascending order, each with its cores (R93); none where too few qualify. -/
def State.place (s : State) (part n k : Nat) (c : Charge) (avoid : List Nat) : Option (List (Nat × List Nat)) :=
  match s.sys.hub.parts.get? part with
  | none => none
  | some q =>
    let good := (List.range 64).filter fun cl =>
      q.clusters.getLsbD cl && !avoid.contains cl && k ≤ (s.coresFor part cl c).length
    let chosen := (sortBy (s.m.clusterTeams part) good).take n
    if chosen.length < n then none
    else some ((sortBy id chosen).map fun cl =>
      (cl, sortBy id ((sortBy (fun core => (s.m.partTeams part core).length) (s.coresFor part cl c)).take k)))

/-- Whether a cluster still has a core (R17, R18). -/
def Hub.clusterLeft (h : Hub) (cl : Nat) : Bool :=
  (List.range 4).any fun i => !h.retired.contains (coreUnit (4 * cl + i)) && !h.retired.contains (clusterUnit (4 * cl + i))

/-- Rebinds one team whose core was retired to another core of its cluster (R152). The CAPACITY event of a rebinding names the core, or
for a gang the cluster, bound now (DESIGN CHOICE, log entry 124). -/
def State.rebindTeam (s : State) (tk : Nat) : State :=
  match s.m.team? tk, s.m.launchOf tk with
  | some t, some l =>
    let cands := (s.coresFor l.part (clusterOf t.core) l.charge).filter fun c =>
      !(s.m.teams.any fun x => x.2.launch = t.launch && x.2.core = c && !x.2.unbound)
    match cands with
    | [] => s
    | c :: _ => (s.updM fun m => m.updTeam tk fun t => { t with core := c, unbound := false }).capacityChange (coreUnit c)
  | _, _ => s

/-- Rebinds a gang whose cluster was removed to another cluster (R152). -/
def State.rebindGang (s : State) (launch gang : Nat) : State :=
  match s.m.launches.get? launch with
  | none => s
  | some l =>
    let tks := s.m.gangTeams launch gang
    let others := (s.m.teams.filter fun t => t.2.launch = launch && !t.2.unbound).map fun t => clusterOf t.2.core
    match s.place l.part 1 tks.length l.charge others with
    | some ((cl, cores) :: _) =>
      (s.updM fun m => (tks.zip cores).foldl (fun m e => m.updTeam e.1 fun t => { t with core := e.2, unbound := false }) m
        ).capacityChange ⟨1, cl / 16, cl % 16⟩
    | _ => s

/-- Reconsiders teams without a core: alone while their cluster has cores, with their gang once it has none (R152). -/
def State.rebindAll (s : State) (tks : List Nat) : State :=
  tks.foldl (fun s tk => match s.m.team? tk with
    | some x =>
      if !x.unbound then s
      else if s.sys.hub.clusterLeft (clusterOf x.core) then s.rebindTeam tk
      else s.rebindGang x.launch x.gang
    | none => s) s

/-- Reconsiders every team without a core, at a window boundary (R152). -/
def State.rebind (s : State) : State :=
  s.rebindAll ((s.m.teams.filter fun t => t.2.unbound && t.2.res ≠ .ended).map (·.1))

/-! ## Slots (R110) -/

/-- Physical slots other teams on a core hold. -/
def Mach.heldSlots (m : Mach) (core tk : Nat) : List Nat :=
  (m.teams.filter fun t => t.1 ≠ tk && t.2.core = core && t.2.res ≠ .ended).flatMap fun t => t.2.slotMap.map (·.2)

/-- The slot of a list with the oldest last use (R110 step 4). -/
def Core.oldest (c : Core) : List Nat → Option Nat
  | [] => none
  | p :: ps => some (ps.foldl (fun b x => if c.lastUse.getD x 0 < c.lastUse.getD b 0 then x else b) p)

/-- Maps the slots of a team, steps 3 and 4 of R110, in ascending order. -/
def Core.mapRest (c : Core) (held : List Nat) : List Nat → Sparse Nat → Sparse Nat
  | [], mp => mp
  | k :: ks, mp =>
    let taken := held ++ mp.map (·.2)
    let left := (List.range 64).filter fun p => !taken.contains p
    let p := (left.find? fun p => !(c.ownerOf p).v).or (c.oldest left)
    c.mapRest held ks (match p with
      | some p => mp.put k p
      | none => mp)

/-- The slot mapping of a team that becomes resident (R110). -/
def Mach.mapSlots (m : Mach) (tk : Nat) : Mach :=
  match m.team? tk, m.launchOf tk with
  | some t, some l =>
    let ks := List.range l.accSlots
    let held := m.heldSlots t.core tk
    let own (k : Nat) : Option Nat := (List.range 64).find? fun p => (m.core t.core).ownerOf p = t.owns k
    let kept : Sparse Nat := ks.filterMap fun k => (own k).bind fun p => if held.contains p then none else some (k, p)
    let lost := ks.filterMap fun k => (own k).bind fun p => if held.contains p then some p else none
    let m := lost.foldl (fun m p => m.spillSlot t.core p) m
    let free := ks.filter fun k => (kept.get? k).isNone
    let c := m.core t.core
    let empty := free.foldl (fun mp k =>
      let taken := held ++ mp.map (·.2)
      match (List.range 64).find? fun p => !taken.contains p && !(c.ownerOf p).v with
      | some p => mp.put k p
      | none => mp) kept
    let mp := c.mapRest held (ks.filter fun k => (empty.get? k).isNone) empty
    m.updTeam tk fun t => { t with slotMap := mp, checked := [] }
  | _, _ => m

/-! ## Becoming resident (R96, R97, R99) -/

/-- Partitions with a resident team on a core. -/
def Mach.residentParts (m : Mach) (core : Nat) : List Nat :=
  (((m.teamsOn core).filter fun t => t.2.runs).map fun t => m.partOf t.2).eraseDups

/-- Weight of a partition (R90). -/
def Hub.weight (h : Hub) (p : Nat) : Nat := ((h.parts.get? p).map (·.weight)).getD 0

/-- The credit of a partition on a core (R97). -/
def State.creditOf (s : State) (core part : Nat) : Nat :=
  let total := ((s.m.residentParts core).map s.sys.hub.weight).foldl (· + ·) 0
  2 ^ 20 * s.sys.hub.weight part / total

/-- A team becomes resident: slots mapped, counters and credit as R97, R99 and R110 say. -/
def State.enterCore (s : State) (tk : Nat) (newcomer : Bool) : State :=
  match s.m.team? tk with
  | none => s
  | some t =>
    let part := s.m.partOf t
    let first := !(s.m.residentParts t.core).contains part
    let s := s.updM fun m => ((m.mapSlots tk).updTeam tk fun t =>
      { t with res := .resident, newcomer := newcomer, chosen := false, image := none, clauses := 0, idleSince := m.clock }).seatWarps tk
    if first then s.updM fun m => m.updCore t.core fun c => { c with credit := c.credit.put part (s.creditOf t.core part) }
    else s

/-- A waiting team takes its charges: resident at once, or RESTORING (R102). -/
def State.takeCore (s : State) (tk : Nat) (newcomer : Bool) : State :=
  match s.m.team? tk with
  | some t =>
    if t.res = .waitingNew then s.enterCore tk newcomer
    else s.updM fun m => m.updTeam tk fun t => { t with res := .restoring, newcomer := newcomer, chosen := false }
  | none => s

/-- Whether a team waits for its core (R96). -/
def Team.waits (t : Team) : Bool := t.res matches .waitingNew | .waitingSaved

/-- Whether a core accepts residency (R147, R150): it is in service, and since it came back from a lease a window boundary has
passed. -/
def Hub.takes (h : Hub) (core : Nat) : Bool := h.coreIn core && !h.resting.contains core

/-- Teams a boundary chose become resident once what their victims held is free (R96). -/
def State.admitChosen (s : State) (core : Nat) : State :=
  let ts := (s.m.teamsOn core).filter fun t => t.2.chosen && t.2.waits
  let order := sortBy (fun tk => ((s.m.team? tk).map (·.order)).getD 0) (ts.map (·.1))
  order.foldl (fun s tk =>
    let c := ((s.m.launchOf tk).map Launch.charge).getD Charge.none
    if s.sys.hub.takes core && !s.m.dying tk && s.m.coreFits core c Charge.none then s.takeCore tk true else s) s

/-! ## The estimator (R99-R104) -/

/-- Bytes of a staging task's declarations. -/
def TtEntry.bytes (e : TtEntry) : Nat := (e.opers.map fun o => (o.rowsM1 + 1) * ((o.rowb + 1) * 16)).foldl (· + ·) 0

/-- Bytes of an engine operation (R99). -/
def OpKind.engBytes : OpKind → Nat
  | .engine k => k.bytes
  | .stage k => k.rows.length * k.rowlen
  | .coll k => pieceBytes k.dst
  | _ => 0

/-- ENGBYTES of a team (R99). -/
def Mach.engBytes (m : Mach) (tk : Nat) : Nat :=
  let ops := (m.ops.filter fun o => o.2.team = tk).foldl (fun n o => n + o.2.kind.engBytes) 0
  let staging := (m.tasksOf tk).foldl (fun n t =>
    if t.2.st = .staging then n + ((t.2.tte.map TtEntry.bytes).getD 0) else n) 0
  min (ops + staging) (2 ^ 32 - 1)

/-- A divided by b, rounded up. -/
def ceilDiv (a b : Nat) : Nat := (a + b - 1) / b

/-- Outcomes of a pre-emption request (R101). -/
inductive Outcome where
  | drain | discard | save
  deriving DecidableEq, Repr

/-- The estimator's quantities: csave and cdrain (R101). -/
def State.estimate (s : State) (tk : Nat) : Nat × Nat :=
  match s.m.team? tk, s.m.launchOf tk with
  | some t, some l =>
    let k := l.scale
    let est := s.sys.hub.estctl.toNat
    let locks := ((s.m.core t.core).locks.filter fun e => e.launch = t.launch && e.teamIx = t.ix).length
    let bytes := k * s.m.granulesUsed tk * 1024 + l.lsBytes + (k * l.warps + s.m.parkedCount tk) * 2048 +
      (t.deque.length + t.kept.length) * 32 + locks * 32
    (ceilDiv bytes (max (est % 256) 1), t.taskcyc.toNat + ceilDiv (s.m.engBytes tk) (max (est / 256 % 256) 1))
  | _, _ => (0, 0)

/-- The outcome of a pre-emption request with a deadline or none (R101). -/
def State.outcome (s : State) (tk : Nat) (deadline : Option Nat) : Outcome :=
  let (csave, cdrain) := s.estimate tk
  let f := s.sys.hub.freq
  let meets (c : Nat) : Bool := deadline.all fun dl => s.m.mtime * f + c * 10 ≤ dl * f
  let restart := (s.m.launchOf tk).any fun l => l.restart
  let clauses := ((s.m.team? tk).map fun t => t.clauses.toNat).getD 0
  if cdrain ≤ csave && meets cdrain then .drain
  else if restart && clauses ≤ csave then .discard
  else if restart && deadline.isSome && !meets csave then .discard
  else .save

/-- A pre-emption request to a resident team (R101-R104, R381); one under way is adopted. -/
def State.preempt (s : State) (tk : Nat) (deadline : Option Nat) : State :=
  match s.m.team? tk with
  | none => s
  | some t =>
    if t.res ≠ .resident || s.m.dying tk then s
    else match s.outcome tk deadline with
      | .drain =>
        let cap := max (s.sys.hub.estctl.toNat / 2 ^ 24) 1
        let limit := s.m.clock + cap * (s.estimate tk).2
        s.updM fun m => (m.updTeam tk fun t => { t with res := .draining, drainEnd := limit }).wakeSleepers tk
      | .save => s.updM fun m => m.beginSave tk
      | .discard => s.updM fun m => m.stopGang t.launch t.gang true 0 0 (some tk)

/-- Whether a warp of a team holds a frame, spilled ones included (R102, R103). -/
def Mach.framesHeld (m : Mach) (tk : Nat) : Bool :=
  m.frames.any fun f => (m.tasks.get? f.2.task).any fun t => t.team = tk

/-- `DRAIN_DONE` (R102): no warp of a DRAINING team holds a frame. -/
def execDrainDone (s : State) : Out :=
  s.on fun m =>
    let tk := s.subj.x
    if ((m.team? tk).any fun t => t.res = .draining) && !m.framesHeld tk then m.beginSave tk else m

/-- `DRAIN_LIMIT` (R102): DRAINCAP × cdrain cycles have passed. -/
def execDrainLimit (s : State) : Out :=
  s.on fun m =>
    let tk := s.subj.x
    if (m.team? tk).any fun t => t.res = .draining && t.drainEnd ≤ m.clock then m.beginSave tk else m

/-! ## Saves and restores (R105-R108) -/

/-- Operations a save waits for (R107, R108): those that write registers or slots, and engine operations on the team's local
store. An `acc.acq`, an `rclose` and a `spawn.r` wait with their task. -/
def Op.heldBySave (o : Op) (tk : Nat) : Bool :=
  let here (p : Place) : Bool := p.own tk
  match o.kind with
  | .accAcq _ | .rclose .. | .spawnR .. => false
  | .engine k => k.rows.any fun r => here r.1 || here r.2.1
  | .coll k => k.src.any (fun p => here p.1) || k.dst.any fun p => here p.1
  | .stage _ => o.team = tk
  | .accStore _ => o.team = tk
  | .tile k => k.team = tk || k.rows.any here
  | .atomic k => o.team = tk || k.lanes.any fun a => here a.acc.place
  | .load k => o.team = tk || k.lanes.any fun a => here a.place
  | .mma k => o.team = tk || (!k.read && (k.a.any here || k.b.any here))
  | _ => o.team = tk

/-- Whether steps 1 to 4 of a save are done (R108). -/
def Mach.saveReady (m : Mach) (tk : Nat) : Bool :=
  !(m.ops.any fun o => o.2.heldBySave tk) && !((m.tasksOf tk).any fun t => t.2.st = .staging) &&
    ((m.warpsOf tk).all fun w => w.2.unacked = 0) &&
    !(m.cores.any fun c => c.2.stores.any fun s => s.place.own tk && !s.done)

/-- Bytes a save writes, accumulators apart (R95, R105). -/
def Launch.saveBytes (l : Launch) : Nat := l.saveSize - l.scale * l.accSlots * 4096

/-- The 32 bytes of a range-lock entry (R217). -/
def RangeLock.bytes (e : RangeLock) : List Byte :=
  natBytes 8 e.base ++ natBytes 4 e.rowlen ++ natBytes 4 e.stride ++ natBytes 2 e.rows ++ natBytes 1 e.write.toNat ++
    natBytes 1 e.space ++ natBytes 2 e.launch ++ natBytes 1 e.teamIx ++ natBytes 1 e.scope ++ natBytes 2 e.op ++ natBytes 6 0

/-- The range-lock entries of a team as a save writes them (R105, R217). -/
def Mach.lockBytes (m : Mach) (t : Team) : List Byte :=
  ((m.core t.core).locks.filter fun e => e.launch = t.launch && e.teamIx = t.ix).flatMap RangeLock.bytes

/-- The image a save writes (R105): n free bytes, for its layout is the device's own (R272, log entry 1), with the range-lock
entries at a place the manual does not give. -/
def Mach.newImage (m : Mach) (t : Team) (phys : Bool) (addr n : Nat) : SavedImage × Mach :=
  let locks := m.lockBytes t
  let (x, m) := m.takeFree
  (⟨phys, addr, n, m.free, Config.freeNat x % (n - locks.length + 1), locks⟩, { m with free := m.free + n })

/-- The bytes of an image. -/
def SavedImage.bytes (i : SavedImage) : List Byte :=
  (List.range i.size).map fun k =>
    if i.locksAt ≤ k && k < i.locksAt + i.locks.length then i.locks.getD (k - i.locksAt) 0 else Config.freeByte (i.base + k)

/-- A team has been saved (R108, R177): its slots are FREE, its resources are. -/
def Mach.unseat (m : Mach) (tk : Nat) (i : SavedImage) : Mach :=
  let m := { m with warps := m.warps.mapv fun k w => if k / 64 = tk then { w with st := .free } else w }
  m.updTeam tk fun t => { t with
    res := .waitingSaved, slotMap := [], checked := [], accWanted := [], evict := false, image := some i }

/-- Steps 5 and 6 of a save to the team's save region (R105, R108); a fatal write kills the gang (R102). -/
def Mach.saveTeam (m : Mach) (tk : Nat) : Mach :=
  match m.team? tk, m.launchOf tk with
  | some t, some l =>
    let (i, m) := m.newImage t false (l.spillBase.toNat + l.saveSize * t.ix) l.saveBytes
    match m.writeVa l.asid i.addr (l.saveBytes / 65536 + 2) i.bytes with
    | (some (c, a), m) => m.askKill t.launch t.gang (strangerRecord c.code t.launch t.ix (.ofNat 64 a))
    | (none, m) => m.unseat tk i
  | _, _ => m

/-- Whether the image of a team still stands as it was written (R272). -/
def Mach.imageStands (m : Mach) (asid : Nat) (i : SavedImage) : Bool :=
  if i.phys then m.homeRead i.addr i.size = i.bytes
  else match m.readVa asid i.addr false (i.size / 65536 + 2) i.size with
    | (.ok (bs, _), _) => bs = i.bytes
    | _ => false

/-- What an image restores of a path where something has written to the image: it stands anywhere (R272). -/
def Path.strayed (x : Nat) (p : Path) : Path := { p with pc := Config.freeDWord x, clause := Config.freeDWord (x + 1) }

/-- What an image restores of a task where something has written to the image (R272). -/
def Task.strayed (x : Nat) (k : Task) : Task :=
  let kept {α : Type} (y : Nat) (l : List α) : List α := if Config.freeNat (x + y) % 2 = 1 then [] else l
  { k with
    run := k.run.map (Path.strayed (x + 2)), paths := k.paths.zipIdx.map fun p => p.1.strayed (x + 4 + 2 * p.2)
    prio := Config.freeNat x % 8, fpstat := Config.freeWord (x + 1) &&& 0x3F
    latch := (kept 2 k.latch).map fun e => { e with vals := e.vals.zipIdx.map fun v => Config.freeDWord (x + v.2) }
    demote := Config.freeWord (x + 2), swapFail := kept 3 k.swapFail
    flags := k.flags.mapv fun n f => { f with faults := kept (4 + n) f.faults }
    desc := { k.desc with
      closure := Config.freeDWord (x + 32), x := Config.freeNat (x + 32) % 2 ^ 16, y := Config.freeNat (x + 33) % 2 ^ 16
      z := Config.freeNat (x + 34) % 2 ^ 16 } }

/-- What an image restores of a barrier where something has written to the image (R272). -/
def Barrier.strayed (x : Nat) (b : Barrier) : Barrier :=
  { b with gen := Config.freeWord x, arr := Config.freeNat x % (b.exp + 1) }

/-- What a team's image restores where something has written to it (R272, log entry 42): frames, local store, status, flags, latch
entries, demotion marks, descriptors, barriers and the places of paths are free values. -/
def Mach.scramble (m : Mach) (tk : Nat) : Mach :=
  let mine (f : Frame) : Bool := f.spilled.isNone && (m.tasks.get? f.task).any fun t => t.team = tk
  let m := (m.frames.filter fun f => mine f.2).foldl (fun m f => m.strayFrame f.1) m
  let m := (m.tasksOf tk).foldl (fun m t =>
    ({ m with free := m.free + 2 * t.2.allPaths.length + 64 } : Mach).updTask t.1 (Task.strayed m.free)) m
  let (bs, m) := m.takeBytes (((m.launchOf tk).map (·.lsBytes)).getD 0)
  let x := m.free
  (({ m with free := x + 32 } : Mach).updTeam tk fun t => { t with
    bars := t.bars.mapv fun n b => b.strayed (x + 2 + n)
    xsteal := Config.freeWord x, trapvec := .ofNat 64 (vecAddr (Config.freeDWord (x + 1))) }).lsWrite tk 0 bs

/-- Whether a `ctx.save` saves a team, to the region it names (R381). -/
def Mach.savedElsewhere (m : Mach) (tk : Nat) : Bool :=
  m.ops.any fun o => match o.2.kind with
    | .ctxSave team _ _ => team = some tk
    | _ => false

/-- `SAVE_COMPLETE` (R108): a team that the hub saves, to its own save region. -/
def execSaveComplete (s : State) : Out :=
  let tk := s.subj.x
  match s.m.team? tk with
  | none => .next s
  | some t =>
    if t.res = .saving && s.m.saveReady tk && !s.m.dying tk && !s.m.savedElsewhere tk then
      .next ((s.updM fun m => m.saveTeam tk).admitChosen t.core)
    else .next s

/-- Whether the image of a team carries poison (R155). -/
def Mach.savedBad (m : Mach) (asid : Nat) (i : SavedImage) : Bool :=
  if i.phys then (linesOf i.addr i.size).any m.poison.contains else m.imageBad asid i.addr (i.size / 65536 + 2) i.size

/-- A restored team: its state as it was, where its image stands (R272), the L1D of its core invalid, and it is resident (R106,
R108); a poisoned image has its gang killed (R155, R260). -/
def State.restoreTeam (s : State) (tk : Nat) (stands : Bool) : State :=
  match s.m.team? tk with
  | none => s
  | some t =>
    let newcomer := t.newcomer
    let asid := ((s.m.launchOf tk).map (·.asid)).getD 0
    let s := s.updM fun m => m.readBad tk ((t.image.map (·.addr)).getD 0) (t.image.any (m.savedBad asid))
    let s := if stands then s else s.updM fun m => m.scramble tk
    (s.updM fun m => m.updCore t.core fun c => { c with l1d := [] }).enterCore tk newcomer

/-- `RESTORE_COMPLETE` (R108). -/
def execRestoreComplete (s : State) : Out :=
  let tk := s.subj.x
  let asid := ((s.m.launchOf tk).map (·.asid)).getD 0
  match s.m.team? tk with
  | some t => .next (if t.res = .restoring then s.restoreTeam tk (t.image.all (s.m.imageStands asid)) else s)
  | none => .next s

/-! ## Accounting windows (R96) -/

/-- Normalised service of a partition on a core, as issue cycles and weight (R96). -/
def State.service (s : State) (core part : Nat) : Nat × Nat :=
  if (s.m.residentParts core).contains part then ((s.m.core core).used.getD part 0, max (s.sys.hub.weight part) 1) else (0, 1)

/-- Whether one normalised service is less than another. -/
def serviceLt (a b : Nat × Nat) : Bool := a.1 * b.2 < b.1 * a.2

/-- The next victim for a waiting team of a partition (R96 step 3); services are those of the window just ended, as `b` has them. -/
def State.nextVictim (s b : State) (core part : Nat) (sel : List Nat) : Option (Nat × Team) :=
  let cands := (s.m.teamsOn core).filter fun t =>
    t.2.res = .resident && !t.2.newcomer && !sel.contains t.1 && !s.m.dying t.1 &&
      serviceLt (b.service core part) (b.service core (s.m.partOf t.2))
  let better (x y : Nat × Team) : Bool :=
    let (p, q) := (s.m.partOf x.2, s.m.partOf y.2)
    let (u, v) := (b.service core p, b.service core q)
    serviceLt v u || (!serviceLt u v && (p < q || (p = q && y.2.order < x.2.order)))
  match cands with
  | [] => none
  | c :: cs => some (cs.foldl (fun b x => if better x b then x else b) c)

/-- What teams an earlier boundary chose will need beyond what their victims still hold (R96 step 4). A later waiting team may not take
what one counts on (DESIGN CHOICE, log entry 109). -/
def State.promised (s : State) (core : Nat) : Charge :=
  let sum (p : Team → Bool) : Charge := s.m.sumCharges (((s.m.teamsOn core).map (·.2)).filter p)
  (sum fun t => t.chosen && t.waits).over (sum fun t => t.res matches .draining | .saving)

/-- Whether a team's charge fits a core now without what teams chosen at a boundary count on (R96, log entry 109). -/
def State.fitsNow (s : State) (core : Nat) (chosen : Bool) (c : Charge) : Bool :=
  s.m.coreFits core c Charge.none && (chosen || s.m.coreFits core (c.add (s.promised core)) Charge.none)

/-- Victims for a waiting team: none where they would not free enough (R96 steps 3 and 4). -/
def State.victims (s b : State) (core part : Nat) (c : Charge) : Nat → List Nat → Charge → Option (List Nat)
  | 0, _, _ => none
  | fuel + 1, sel, back =>
    if s.m.coreFits core c back then some sel
    else match s.nextVictim b core part sel with
      | none => none
      | some (tk, t) =>
        s.victims b core part c fuel (sel ++ [tk]) (back.add (((s.m.launches.get? t.launch).map Launch.charge).getD Charge.none))

/-- One waiting team is considered (R96); one that an earlier boundary chose awaits its victims. -/
def State.considerTeam (s b : State) (core tk : Nat) : State :=
  match s.m.team? tk, s.m.launchOf tk with
  | some t, some l =>
    let need := l.charge.add (s.promised core)
    if !t.waits || t.chosen || s.m.dying tk then s
    else if s.m.coreFits core need Charge.none then s.takeCore tk true
    else match s.victims b core l.part need 256 [] Charge.none with
      | none => s
      | some sel =>
        let dl := if l.deadline = 0 then none else some l.deadline
        let s := s.updM fun m => m.updTeam tk fun t => { t with chosen := true }
        (sel.foldl (fun s v => s.preempt v dl) s).admitChosen core
  | _, _ => s

/-- Waiting teams of a core in the order of R96 step 1. -/
def State.waitingOrder (s b : State) (core : Nat) : List Nat :=
  let ts := (s.m.teamsOn core).filter fun t => t.2.waits
  let before (x y : Nat × Team) : Bool :=
    let (p, q) := (s.m.partOf x.2, s.m.partOf y.2)
    let (u, v) := (b.service core p, b.service core q)
    serviceLt u v || (!serviceLt v u && (p < q || (p = q && x.2.order < y.2.order)))
  let insert (l : List (Nat × Team)) (x : Nat × Team) : List (Nat × Team) :=
    l.filter (fun y => !before x y) ++ x :: l.filter (before x)
  (ts.foldl insert []).map (·.1)

/-- Residency decisions of one core at a boundary (R96), `b` the module as the window ended. A core out of service takes no team
(R150). -/
def State.decideCore (s b : State) (core : Nat) : State :=
  if s.sys.hub.coreIn core then (s.waitingOrder b core).foldl (fun s tk => s.considerTeam b core tk) (s.admitChosen core) else s

/-- Whether a collective of a cluster is in flight (R63). -/
def Mach.collOn (m : Mach) (cl : Nat) : Bool :=
  m.launches.any fun l => l.2.colls.any fun k => (l.2.groups.get? k.1).any fun g => g.list.contains cl

/-- Whether a lease drains a core: a cluster's waits for the collectives its cluster is a member of (R63, R148). -/
def State.coreDrains (s : State) (core : Nat) : Bool :=
  s.sys.hub.leases.any fun l =>
    l.2.st ≠ .requested && ((l.2.u.kind = 0 && 64 * l.2.u.die + l.2.u.unit = core) ||
      (l.2.u.kind = 1 && 16 * l.2.u.die + l.2.u.unit = core / 4 && !s.m.collOn (core / 4)))

/-- Requests without a deadline to resident teams that a pinned page displaces (R201), or whose core a lease drains. -/
def State.evictTeams (s : State) : State :=
  let ts := (s.m.teams.filter fun t => t.2.res = .resident && (t.2.evict || s.coreDrains t.2.core)).map (·.1)
  ts.foldl (fun s tk => s.preempt tk none) s

/-- Credits and issue counts of the new window (R97). -/
def State.resetCredits (s : State) (core : Nat) : State :=
  let ps := s.m.residentParts core
  let credit : Sparse Nat := (ps.map fun p => (p, s.creditOf core p)).foldl (fun c e => c.put e.1 e.2) []
  s.updM fun m => m.updCore core fun c => { c with credit := credit, used := [], elig := [] }

/-- Weights and quotas a PART_SET has changed take effect (R73, R91). -/
def Hub.takeQuotas (h : Hub) : Hub := { h with parts := h.parts.mapv fun p q => h.newQuotas.getD p q, newQuotas := [] }

/-- A team an earlier boundary chose still awaits victims: some team of its core drains or is being saved (R96 step 4). -/
def Mach.stillChosen (m : Mach) (t : Team) : Bool :=
  t.chosen && t.waits && (m.teamsOn t.core).any fun x => x.2.res matches .draining | .saving

/-- The boundary after 2^20 core clocks (R96): residency is decided anew, credits are set. A weight that PART_SET has changed
counts in the services of the window just ended: the manual does not say whether the old or the new one divides (DESIGN CHOICE, log
entry 99). -/
def State.boundary (s : State) : State :=
  let n := s.m.clock / 2 ^ 20
  if n ≤ s.sys.hub.window then s
  else
    let b := s.updHub fun h => { h.takeQuotas with window := n, resting := [] }
    let s := b.rebind.evictTeams
    let cores := (s.m.teams.map fun t => t.2.core).eraseDups
    let s := s.updM fun m => { m with teams := m.teams.mapv fun _ t => { t with chosen := m.stillChosen t } }
    let old := (s.m.teams.filter fun t => t.2.newcomer).map (·.1)
    let s := cores.foldl (fun s c => s.decideCore b c) s
    let s := s.updM fun m => { m with teams := m.teams.mapv fun k t => if old.contains k && t.res = .resident then
      { t with newcomer := false } else t }
    (cores ++ s.m.cores.map (·.1)).eraseDups.foldl (fun s c => s.resetCredits c) s

/-- `ACCOUNTING_WINDOW` (R96). -/
def execAccountingWindow (s : State) : Out := .next s.boundary

end Sys2Proof.Machine
end

