-- ==== Sys2Proof/Machine/Complete.lean ====
section
/-! DEFINITION. Completions: long-latency operations (R185), engine operations (R219), stores (R205), what a peer answers
(R31), and the watchdog (R163, R164). -/

namespace Sys2Proof.Machine

/-! ## System operations (R381) -/

/-- A register result for every lane of an operation, and its completion. -/
def Mach.answer (m : Mach) (n : Nat) (o : Op) (d v : Nat) : Mach :=
  (m.landRegs o ((laneList o.lanes).map fun l => (d, l, .ofNat 32 v))).finishOp n []

/-- Drops the TLB entries `tlb.inv` names, of every core and every die (R202, R381). -/
def Mach.dropTlb (m : Mach) (p : TlbEntry → Bool) : Mach :=
  { m with
    cores := m.cores.mapv fun _ c => { c with tlb := c.tlb.filter fun t => !p t }
    dieTlb := m.dieTlb.mapv fun _ l => l.filter fun t => !p t }

/-- `ctx.save` completes (R381): the save is done, here or by the hub, or there was no such resident team. -/
def State.completeCtxSave (s : State) (n : Nat) (o : Op) (team : Option Nat) (region d : Nat) : State :=
  match team.bind fun tk => (s.m.team? tk).map fun t => (tk, t) with
  | none => s.updM fun m => m.answer n o d 1
  | some (tk, t) =>
    match t.res with
    | .saving =>
      if !s.m.saveReady tk then s
      else
        let len := ((s.m.launchOf tk).map Launch.saveBytes).getD 0
        let s := s.updM fun m =>
          let (i, m) := m.newImage t true region len
          ((m.placeWrite (.dev region) i.bytes).unseat tk i).answer n o d 0
        s.admitChosen t.core
    | .waitingSaved | .restoring | .resident | .draining => s.updM fun m => m.answer n o d 0
    | .waitingNew | .ended => s.updM fun m => m.answer n o d 1

/-- `ctx.load` completes (R381): what it restores is the team's state where the bytes at the region are those its last save wrote
(R272, log entry 42). It takes nothing that a team chosen at a boundary counts on (R96, log entry 109), and poison in the image kills the
gang (R155). -/
def State.completeCtxLoad (s : State) (n : Nat) (o : Op) (tk region d : Nat) : State :=
  let code := match s.m.team? tk, s.m.launchOf tk with
    | some t, some l =>
      if t.res ≠ .waitingSaved || t.core ≠ o.core || t.unbound || s.m.dying tk then 1
      else if s.sys.hub.takes t.core && s.fitsNow t.core t.chosen l.charge then 0 else 2
    | _, _ => 1
  let stands := (s.m.team? tk).any fun t => t.image.any fun i => s.m.homeRead region i.size = i.bytes
  let bad := (s.m.team? tk).any fun t => t.image.any fun i => s.m.poisoned (.dev region) i.size
  let s := if code = 0 then s.restoreTeam tk stands else s
  s.updM fun m => (if code = 0 then m.readBad tk region bad else m).answer n o d code

/-- The state of a unit's lease while it is tested. -/
def Hub.testing (h : Hub) (u : UnitRef) : Bool := h.leases.any fun l => l.2.u = u && l.2.st = .testing

/-- `lease.tst` completes (R381): which patterns exist and what they find is the unit's (log entry 1). -/
def State.completeLeaseTst (s : State) (n : Nat) (o : Op) (u : UnitRef) (d : Nat) : State :=
  if s.sys.hub.testing u then
    let (x, m) := s.m.takeFree
    { s with m := m.answer n o d (([0, 1, 3] : List Nat).getD (Config.freeNat x % 3) 0) }
  else s.updM fun m => m.answer n o d 2

/-- A unit that has passed its test keeps a quarter of its score (R145); an evacuated channel is a spare from then on, and starts at 0
when it is brought in (R144). -/
def Hub.passScore (h : Hub) (l : Lease) (fail : Bool) : Hub :=
  if fail || (l.u.kind = 3 && l.entry.isSome) then h else h.setScore l.u (h.score l.u / 4)

/-- `lease.rel` completes (R381): a lease that passes leaves its unit a quarter of its score (R145). -/
def State.completeLeaseRel (s : State) (n : Nat) (o : Op) (lease : Nat) (fail : Bool) (d : Nat) : State :=
  match s.sys.hub.leases.get? lease with
  | some l =>
    if l.st = .testing then
      (s.updHub fun h => { h.passScore l fail with leases := h.leases.put lease { l with
        st := if fail then .retiring else .returning, fail := fail } }).updM fun m => m.answer n o d 0
    else s.updM fun m => m.answer n o d 1
  | none => s.updM fun m => m.answer n o d 1

/-! ## Operations (R185) -/

/-- Writes registers of the frame an operation's results go to, which its own operands gave: the shadow warp has its own (R156). -/
def Mach.landOwn (m : Mach) (o : Op) (ws : List (Nat × Nat × Word)) : Mach :=
  if o.dead then m else m.updFrame o.frame fun f => ws.foldl (fun f w => f.setReg w.1 w.2.1 w.2.2) f

/-- What an operation does once its request is served. One of a team that is gone consumes nothing (R157). -/
def State.perform (s : State) (n : Nat) (o : Op) (sv : Serve) : State :=
  let on (f : Mach → Mach) : State := s.updM fun m => if o.gone then { f m with kills := m.kills } else f m
  match o.kind with
  | .writes ws fp => on fun m => ((if o.gone then m else m.orFpstat o.task fp).landOwn o ws).finishOp n []
  | .load k => on fun m => m.completeLoad n o k sv
  | .atomic k => on fun m => m.completeAtomic n o k
  | .tile k => on fun m => m.completeTile n o k
  | .purge discard ranges => on fun m => m.completePurge n discard ranges
  | .resolve cell v d => on fun m => m.completeResolve n o cell v d
  | .finOpen sc p d => on fun m => m.completeFinOpen n o sc p d
  | .spawnR desc peer d => on fun m => m.completeSpawnR n o desc peer d
  | .rdet ctx e k t vs => on fun m => m.completeRdet n o ctx e k t vs
  | .combine ln ctx e => s.updM fun m => m.completeCombine n o ln ctx e
  | .rclose ctx d => on fun m => m.completeRclose n o ctx d
  | .accAcq slot => on fun m => m.completeAccAcq n o slot
  | .mma k => on fun m => m.completeMmaRead n o k
  | .engine _ | .accStore _ | .stage _ | .coll _ | .fetch .. => s
  | .ctxSave team region d => s.completeCtxSave n o team region d
  | .ctxLoad team region d => s.completeCtxLoad n o team region d
  | .frecRd pa bytes => on fun m => (m.placeWrite (.dev pa) bytes).finishOp n []
  | .leaseTst u _ d => s.completeLeaseTst n o u d
  | .leaseRel lease fail d => s.completeLeaseRel n o lease fail d
  | .tlbInv va asid mode => on fun m => (m.dropTlb fun t =>
      if mode = 0 then t.asid = asid && t.va ≤ va && va < t.va + t.size else mode = 2 || t.asid = asid).finishOp n []
  | .bezelRd die port off d => on fun m => m.answer n o d (s.mgmtRead die port off).toNat
  | .bezelWr die port off v => (s.mgmtWrite die port off v).updM fun m => m.finishOp n []

/-- An operation completes, where what it waits for has come (R185): its request has reached its homes, none has to return it, and
the replies reach the core (R35, R39, R50); a write waits at the gate of a sealed unit (R161). -/
def State.completeOp (s : State) (n : Nat) (o : Op) (sv : Serve) : State :=
  let m := s.m
  let ts := m.targetsOf o
  if m.holds n false || m.returned n then s
  else if m.atGate ts then { s with m := m.meetGate (.op n) ts }
  else
    let done := s.perform n o sv
    if m.goesOn done.m n then done
    else
      let (here, m) := m.backOver n o.core (o.kind.homes ++ ts.map (·.1)) ts
      if here then done else { s with m := m }

/-- `OPERATION_COMPLETE` (R185). -/
def execOperationComplete (op : Nat) (serve : Serve) (s : State) : Out :=
  match s.m.ops.get? op with
  | some o => .next (s.completeOp op o serve)
  | none => .next s

/-- What becomes of an engine operation once it has acted as `done` says: its data and acknowledgements come over the reply mesh
(R35, R39). -/
def Mach.engineEnds (m : Mach) (n : Nat) (o : Op) (done : Mach) : Mach :=
  m.crossed done n o.core (o.kind.spots.map (·.1)) o.kind.targets

/-- An engine operation completes, where what it waits for has come (R219): its writes wait at the gate of a sealed unit (R161). -/
def Mach.engineDone (m : Mach) (n : Nat) : Mach :=
  match m.ops.get? n with
  | none => m
  | some o => match o.kind with
    | .engine k => if m.atGate o.kind.targets then m.meetGate (.op n) o.kind.targets else m.engineEnds n o (m.completeEngine n o k)
    | .stage k => m.engineEnds n o (m.completeStage n o k)
    | .accStore rows => m.engineEnds n o (m.completeAccStore n o rows)
    | _ => m

/-- `ENGINE_COMPLETE` (R219). -/
def execEngineComplete (s : State) : Out := s.on fun m => m.engineDone s.subj.x

/-- `STORE_ACK` (R205). -/
def execStoreAck (s : State) : Out := s.on fun m => m.ackStore s.subj.x s.subj.y

/-! ## What a peer answers (R31, R142, R143) -/

/-- `PEER_REPLY` (R31): the bytes read, or the old values of an atomic, reach the operation that waits for them, poisoned where
they were there (R155). -/
def execPeerReply (op : Nat) (data : PeerData) (s : State) : Out :=
  s.on fun m => m.updOp op fun o =>
    if o.reply.isNone then { o with reply := some data.bytes, replyBad := data.poison } else o

/-- `PEER_FUTURE` (R143): the home applies the resolution of the remote future at a virtual address of the ASID the message names
(R131, R132); one that overtakes the answer to its spawn waits for it. -/
def execPeerFuture (module va : Nat) (faulted : Bool) (value : DWord) (s : State) : Out :=
  s.on fun m => m.postCell ⟨s.subj.x, va, .answer module faulted value⟩

/-! ## Waits that end (R163, R164) -/

/-- Whether a clause WAIT or a flag wait of a task on the flags of a mask is a wait under R163: some flag is not CLEAR, and not every
operation it counts is an access of the window of a team that is not resident (R336). -/
def Mach.flagsHold (m : Mach) (t : Nat) (k : Task) (mask : Nat) : Bool :=
  let ops := (m.opsOf t).filter fun o => o.2.flag.any (bit mask ·)
  let away (o : Op) : Bool := o.kind.ranges.any fun r => match r.1 with
    | .ls .. => m.placeWaits false r.1
    | .dev _ => false
  !k.clearMask mask && !(ops ≠ [] && ops.all fun o => away o.2)

/-- The flags of the `wflag` a path stands at with a lane active (R309). -/
def Mach.flagsAt (m : Mach) (core asid : Nat) (priv : Bool) (p : Path) : Option Nat :=
  match m.codeWords core asid p.pc.toNat priv 2, m.frames.get? p.frame with
  | .ok w, some f => match decode w with
    | .ok (.wflag c mask) => if activeLanes f p.lanes c.guard = 0 then none else some mask.toNat
    | _ => none
  | _, _ => none

/-- Whether a path waits on one of the things R163 lists. -/
def Mach.watched (m : Mach) (t : Nat) (k : Task) (p : Path) : Bool :=
  match p.st, m.team? k.team with
  | .waiting _, _ | .blocked .., _ => true
  | _, none => false
  | _, some tm =>
    let asid := ((m.launches.get? tm.launch).map (·.asid)).getD 0
    if p.entered then (m.flagsAt tm.core asid k.priv p).any (m.flagsHold t k)
    else match m.headerAt tm.core asid p.clause.toNat k.priv with
      | .ok h => m.flagsHold t k h.wait
      | .error _ => false

/-- Whether every path of a task waits (R163). A task whose warp waits for its entry frame has none. -/
def Mach.allWait (m : Mach) (t : Nat) (k : Task) : Bool :=
  match k.st with
  | .parked => true
  | .running w =>
    if k.allPaths = [] then (m.warps.get? (warpKey k.team w)).any fun x => x.st matches .startBlocked _
    else k.allPaths.all fun p => m.watched t k p
  | _ => false

/-- Peers a place lies at, as a list. -/
def peersAt (ps : List Place) : List Nat := ps.filterMap fun p => p.peer?

/-- The peers an operation needs. -/
def OpKind.peers : OpKind → List Nat
  | .load k => peersAt (k.lanes.map fun a => a.place)
  | .atomic k => peersAt (k.lanes.map fun a => a.acc.place)
  | .tile k => peersAt k.rows
  | .engine k => peersAt (k.rows.flatMap fun r => [r.1, r.2.1])
  | .stage k => peersAt k.rows
  | .coll k => peersAt ((k.src ++ k.dst).map fun p => p.1)
  | .spawnR _ p _ => [p]
  | .fetch _ pa _ => peersAt [.dev pa]
  | .mma k => peersAt (k.asked.toList.map fun a => .dev a.1)
  | _ => []

/-- The destination word of an element of a reduction context of a launch. -/
def Mach.rootPlace (m : Mach) (ln ctx e : Nat) : Option Place := do
  let l ← m.launches.get? ln
  let r ← l.redctx.get? ctx
  some (.dev (r.dst + e * redSize r.ty))

/-- The peers an operation under way needs: those its kind names, that of its reduction slot (R352), that of its destination (R353). -/
def Mach.peersOf (m : Mach) (o : Op) : List Nat :=
  o.kind.peers ++ peersAt ((m.rdetSlot o).toList.map .dev) ++ match o.kind with
    | .combine ln ctx e => peersAt (m.rootPlace ln ctx e).toList
    | _ => []

/-- Whether a peer still owes an operation something as far as its reply goes: one that moves data towards a peer too awaits the
acknowledgement of it until it ends (R219, R373). -/
def Op.unanswered (o : Op) : Bool := o.reply.isNone || o.kind matches .engine _ | .stage _ | .coll _

/-- Whether an operation waits for a peer whose connection is RECOVERING (R164). -/
def Mach.awaitsRecovering (m : Mach) (o : Op) : Bool :=
  (o.reply.isNone || match o.kind with
    | .engine k => k.sent
    | .coll k => (m.launchOf o.team).any fun l => (l.colls.get? k.group).any (·.sent)
    | _ => false) && (m.peersOf o).any fun p => m.conn p = Conn.recovering

/-- Whether a store on its way awaits the acknowledgement of a peer that is RECOVERING (R164). -/
def Mach.storeRecovering (m : Mach) (s : PStore) : Bool := s.place.peer?.any fun p => m.conn p = Conn.recovering

/-- Whether a path waits for the resolution of a remote future by a peer that is RECOVERING (R164). -/
def Mach.joinRecovering (m : Mach) (p : Path) : Bool :=
  match p.st with
  | .waiting (.join c ..) => m.remoteCells.any fun r => m.conn r.module = .recovering && (m.cellFor r.asid r.va).1 = some c
  | _ => false

/-- Whether a task's wait is attributed (R164): it waits for an operation, a store or a remote future at a peer that is
RECOVERING. -/
def Mach.attributed (m : Mach) (t : Nat) (k : Task) : Bool :=
  (m.cores.any fun c => c.2.stores.any fun x => x.task = t && m.storeRecovering x) ||
    ((m.opsOf t).any fun o => m.awaitsRecovering o.2) || k.paths.any m.joinRecovering

/-- The waiting path with the lowest PC (R163). -/
def Task.lowestPath (k : Task) : Option Path := pickPath k.allPaths

/-- A path whose wait ends, at its waiting instruction: one that stood before its clause stands at the clause's first instruction
(R163, R252, R257). -/
def Path.roused (p : Path) : Path :=
  { p with st := .eligible, pc := if p.entered then p.pc else p.clause + 8, entered := true, attributed := 0 }

/-- A waiting path of a running task raises a fault at its waiting instruction: it stops waiting, and the fault is taken
there (R163). -/
def Mach.raiseAt (m : Mach) (t w : Nat) (k : Task) (p : Path) (cause : Cause) (addr : DWord) : Mach :=
  let q := p.roused
  let rest := k.allPaths.filter (· ≠ p)
  let m := m.updTask t fun k => { k with run := some q, paths := rest, watch := 0 }
  match m.bareIssue k.team w t q with
  | some c => (m.raise c { cause := cause, lanes := p.lanes, addr := addr }).settle k.team w
  | none => m

/-- The lowest idle warp of a team. -/
def Mach.idleWarp (m : Mach) (tk : Nat) : Option Nat := ((m.warpsOf tk).find? fun w => w.2.st = .idle).map (·.1)

/-- The wait of a task ends with a fault (R163, R164): at its waiting path, on an idle warp where it was parked; a task that
waits for its entry frame ends. -/
def Mach.endWait (m : Mach) (t : Nat) (k : Task) (cause : Cause) (addr : DWord) (p : Option Path) : Mach :=
  match k.st, p with
  | .running w, some p => m.raiseAt t w k p cause addr
  | .running w, none =>
    let (l, ix) := match m.team? k.team with
      | some tm => (tm.launch, tm.ix)
      | none => (0, 0)
    let pc := (k.tte.map (·.entry)).getD 0
    (m.endTask t (.faulted { strangerRecord cause.code l ix addr with warp := w, pc := pc, depth := 1 })).settle k.team w
  | .parked, some p =>
    match m.idleWarp k.team with
    | none => m
    | some w =>
      let m := m.updTask t fun k => { k with st := .running w }
      let m := m.updTeam k.team fun tm => { tm with parked := tm.parked.filter (· ≠ t) }
      let m := m.updWarp k.team w fun y => { y with st := .active, task := some t, sleepUntil := 0 }
      m.raiseAt t w { k with st := .running w } p cause addr
  | _, _ => m

/-- `WATCHDOG` (R163): a task's count has passed SVCTL.LIMIT. -/
def execWatchdog (s : State) : Out :=
  s.on fun m =>
    let t := s.subj.x
    match m.tasks.get? t with
    | none => m
    | some k =>
      let limit := m.svctl.toNat % 2 ^ 12 * 16000000
      let runs := (m.team? k.team).any fun tm => tm.runs
      if limit = 0 || k.watch ≤ limit || !runs || m.dying k.team || !m.allWait t k then m
      else m.endWait t k .watchdog 0 k.lowestPath

/-- RCAP in ns (R162). -/
def Mach.rcap (m : Mach) : Nat := max (m.svctl.toNat / 2 ^ 12 % 2 ^ 12) 1 * 16000000

/-- A deferred fault of operation n marks its flag while the operation goes on (R250). -/
def Mach.markFault (m : Mach) (n : Nat) (o : Op) (r : FaultRec) : Mach :=
  match o.flag with
  | some f => if o.gone then m
    else m.updTask o.task fun k => { k with flags := k.flags.upd f fun x => { x with faults := x.faults ++ [(n, r)] } }
  | none => m

/-- Some lanes of an access are lost with the peer they lie at: a deferred fault names them (R250, R330), and the access goes on for
those left, as kind k. -/
def Mach.loseLanes (m : Mach) (n : Nat) (o : Op) (lost : List Nat) (k : Option OpKind) : Mach :=
  let r := o.record m .remoteUnavailable 2 (laneSet lost) 0 0
  if lost = [] then m
  else match k with
    | some k => (m.markFault n o r).updOp n fun o => { o with kind := k }
    | none => m.finishOp n [r]

/-- The next release of every path of a task reports stores a lost peer has left unacknowledged (R33). -/
def Mach.noteLost (m : Mach) (t : Nat) : Mach := m.updTask t fun k => { k with lost := 0xFFFFFFFF }

/-- What an operation does as the peers p selects are lost (R33, R164, R330, R365, R373): a load or an atomic faults in the lanes that
lie there, a tile store is reported by its task's next release, an unanswered `spawn.r` leaves its future FAULTED. A root on its way to
a peer stays so (log entry 111). -/
def Mach.loseOp (m : Mach) (p : Nat → Bool) (n : Nat) (o : Op) : Mach :=
  let gone (x : Place) : Bool := x.peer?.any p
  match o.kind with
  | .load k =>
    let left := k.lanes.filter fun a => !gone a.place
    m.loseLanes n o ((k.lanes.filter fun a => gone a.place).map (·.lane))
      (if left = [] then none else some (.load { k with lanes := left }))
  | .atomic k =>
    let left := k.lanes.filter fun a => !gone a.acc.place
    m.loseLanes n o ((k.lanes.filter fun a => gone a.acc.place).map (·.acc.lane))
      (if left = [] then none else some (.atomic { k with lanes := left }))
  | .tile k =>
    if !k.rows.any gone || k.image.isSome then m
    else if k.load then m.finishOp n [o.record m .remoteUnavailable 2 o.lanes 0 0]
    else (m.finishOp n []).noteLost o.task
  | .coll k =>
    let (bs, m) := m.takeBytes (k.src.foldl (fun n p => n + p.2) 0)
    (m.markFault n o (o.record m .remoteUnavailable 2 o.lanes 0 0)).updOp n fun o => { o with reply := o.reply.or (some bs) }
  | .rdet .. => m.finishOp n [o.record m .remoteUnavailable 0 o.lanes 0 0]
  | .mma k => m.endUnit n o { k with void := true } [o.record m .remoteUnavailable 0 o.lanes 0 0]
  | .engine k => m.updOp n fun o => { o with kind := .engine { k with lost := true } }
  | .stage k => m.updOp n fun o => { o with kind := .stage { k with fault := some (Cause.remoteUnavailable.code, k.va) } }
  | .spawnR d q _ =>
    if !p q then m
    else
      let asid := ((m.launchOf o.team).map (·.asid)).getD 0
      let r := o.record m .remoteUnavailable 3 o.lanes 0 0
      (m.resolveFuture o.task asid { d with remote := false } true (faultValue Cause.remoteUnavailable.code 0)).finishOp n [r]
  | .fetch .. => { m with ops := m.ops.del n }
  | _ => m

/-- Stores on their way to a peer are lost: the next releases of their tasks, and of the tasks their warps run, whose counters they
were in, report it (R33), and resolutions that awaited their
acknowledgement go out (R143). -/
def Mach.loseStores (m : Mach) (p : PStore → Bool) : Mach :=
  let lost := m.cores.flatMap fun c => c.2.stores.filter p
  let m := { m with cores := m.cores.mapv fun _ c => { c with stores := c.stores.filter fun s => !p s } }
  (lost.foldl (fun m s =>
    let m := (m.updWarp s.team s.warp fun w => { w with unacked := w.unacked - 1 }).noteLost s.task
    match (m.warps.get? (warpKey s.team s.warp)).bind (·.task) with
    | some t => m.noteLost t
    | none => m) m).sendDue

/-- `RECOVERY_CAP_EXPIRY` (R164): the attributed time of a wait has passed SVCTL.RCAP: an operation's, a task's for a remote future,
a store's for its acknowledgement. -/
def execRecoveryCapExpiry (s : State) : Out :=
  s.on fun m =>
    let n := s.subj.x
    match m.ops.get? n, m.tasks.get? n with
    | some o, _ => if m.rcap < o.waitNs && m.awaitsRecovering o then m.loseOp (fun p => m.conn p = .recovering) n o else m
    | none, some k =>
      let hit := k.paths.filter fun p => m.rcap < p.attributed && m.joinRecovering p
      if hit ≠ [] && ((m.team? k.team).any fun tm => tm.runs) && !m.dying k.team then
        m.endWait n k .remoteUnavailable 0 (pickPath hit)
      else m
    | none, none => m.loseStores fun x => x.id = n && m.rcap < x.waitNs && m.storeRecovering x

end Sys2Proof.Machine
end

