-- ==== Sys2Proof/Machine/Commands.lean ====
section
/-! DEFINITION. Commands (R70-R74): their order, the checks of R72, completion records, and the commands on queues,
partitions, policies, records and management registers. -/

namespace Sys2Proof.Machine

/-! ## Order and checks -/

/-- Commands of the same queue consumed before this one and not completed. -/
def State.earlier (s : State) (h : CmdHdr) : List Pend :=
  (s.sys.hub.pending.takeWhile fun p => !(p.queue = h.queue && p.entry = h.entry)).filter fun p => p.queue = h.queue

/-- Whether a command may begin (R71): earlier ones of its queue have begun, and under FENCE completed. -/
def State.mayBegin (s : State) (h : CmdHdr) : Bool :=
  s.sys.hub.phase = .running && s.sys.hub.ena && (s.earlier h).all (fun p => p.begun) && (!h.fence || (s.earlier h).isEmpty)

/-- Whether a command has begun and waits for something. -/
def State.begun (s : State) (h : CmdHdr) : Bool :=
  s.sys.hub.pending.any fun p => p.queue = h.queue && p.entry = h.entry && p.begun

/-- The device ranges a begun command waits for (R75). -/
def State.rangesOf (s : State) (h : CmdHdr) : List (Nat × Nat) :=
  (s.sys.hub.pending.filter fun p => p.queue = h.queue && p.entry = h.entry).flatMap fun p => p.ranges

/-- A command has begun, with the ranges it waits for. -/
def State.begin (s : State) (h : CmdHdr) (ranges : List (Nat × Nat)) : State :=
  s.updHub fun b => { b with pending := b.pending.map fun p =>
    if p.queue = h.queue && p.entry = h.entry then { p with begun := true, ranges := ranges } else p }

/-- Partition of the queue a command came from; none for the admin queue (R70). -/
def State.queuePart (s : State) (h : CmdHdr) : Option Nat := (s.sys.hub.cqs.get? h.queue).bind (·.part)

/-- Whether EVQ names an event queue bound to another partition than the command's queue (R72 step 3). -/
def State.evqForeign (s : State) (h : CmdHdr) : Bool :=
  (s.queuePart h).any fun p => ((s.sys.hub.eqs.get? h.evq).bind (·.part)).any fun q => q ≠ p

/-- Statuses of R83. -/
inductive Status where
  | ok | invalid | denied | noResource | signature
  deriving DecidableEq, Repr

/-- The number of a status (R83). -/
def Status.code (s : Status) : Nat := s.ctorIdx

/-- Steps 1 to 3 of R72: whether the command is allowed on partition queues, and the partition of the launch or context it
names. -/
def State.precheck (s : State) (h : CmdHdr) (onPart : Bool) (named : Option Nat) : Status :=
  if h.resv || 15 < h.part then .invalid
  else if (s.queuePart h).any fun p => !onPart || h.part ≠ p || named.any fun q => q ≠ p then .denied
  else if (s.sys.hub.eqs.get? h.evq).isNone then .invalid
  else if s.evqForeign h then .denied
  else .ok

/-- The queue a completion record goes to (R72). -/
def State.recordQueue (s : State) (h : CmdHdr) : Nat :=
  if (s.sys.hub.eqs.get? h.evq).isNone || s.evqForeign h then 0 else h.evq

/-- A command completes (R71, R82): its record is posted, unless it is QUIET and OK. RESULT is 0 where R73 names none for the command
or its outcome (DESIGN CHOICE, log entry 119). -/
def State.complete (s : State) (h : CmdHdr) (opcode : Nat) (st : Status) (result : Nat) : State :=
  let q := s.recordQueue h
  let s := s.updHub fun b => { b with pending := b.pending.filter fun p => !(p.queue = h.queue && p.entry = h.entry) }
  if h.quiet && st = .ok then s
  else s.post q ⟨0, opcode % 256, h.queue, h.tag, st.code, .ofNat 64 result⟩

/-- A command that acts at once: its own check, then its effect and RESULT. -/
def State.command (s : State) (h : CmdHdr) (opcode : Nat) (onPart : Bool) (named : Option Nat) (chk : Status)
    (eff : State → State × Nat) : Out :=
  if !s.mayBegin h then .next s
  else match s.precheck h onPart named, chk with
    | .ok, .ok =>
      let (s, r) := eff s
      .next (s.complete h opcode .ok r)
    | .ok, st => .next (s.complete h opcode st 0)
    | st, _ => .next (s.complete h opcode st 0)

/-- The header of a command and its OPCODE (R72, R73). -/
def Instr.header : Instr → Option (CmdHdr × Nat)
  | .unknownCommand h op => some (h, op)
  | .queueCreate h .. => some (h, 0x01)
  | .queueDestroy h .. => some (h, 0x02)
  | .partCreate h .. => some (h, 0x10)
  | .partSet h .. => some (h, 0x11)
  | .partDestroy h => some (h, 0x12)
  | .ctxCreate h .. => some (h, 0x18)
  | .ctxDestroy h .. => some (h, 0x19)
  | .mapPages h .. => some (h, 0x20)
  | .unmapPages h .. => some (h, 0x21)
  | .discardRange h .. => some (h, 0x22)
  | .launch h .. => some (h, 0x28)
  | .cancel h .. => some (h, 0x29)
  | .leasePolicy h .. => some (h, 0x30)
  | .leaseNow h .. => some (h, 0x31)
  | .retireRead h .. => some (h, 0x38)
  | .attest h .. => some (h, 0x40)
  | .domainSplit h .. => some (h, 0x48)
  | .domainMerge h .. => some (h, 0x49)
  | .patchStage h .. => some (h, 0x50)
  | .mgmtRead h .. => some (h, 0x60)
  | .mgmtWrite h .. => some (h, 0x61)
  | _ => none

/-- The commands of queues that are removed complete without effect, each with its one record (R71), but for a RESET, which has none;
the status, other than OK, is not given (log entry 95). -/
def State.dropCommands (s : State) (p : Nat → Bool) : State :=
  ((s.sys.hub.pending.filter fun c => p c.queue).foldl (fun s c => match Instr.header c.cmd with
    | some (h, op) =>
      let (x, m) := s.m.takeFree
      let st : Status := ([.invalid, .denied, .noResource, .signature] : List Status).getD (Config.freeNat x % 4) .invalid
      ({ s with m := m } : State).complete h op st 0
    | none => s) s).updHub fun b => { b with pending := b.pending.filter fun c => !p c.queue }

/-- `UNKNOWN_COMMAND` (R72): an OPCODE not in R73 is INVALID at step 1; a RESET that is neither warm nor full, at step 4. -/
def execUnknownCommand (h : CmdHdr) (opcode : Nat) (s : State) : Out :=
  s.command { h with resv := h.resv || opcode ≠ 0x58 } opcode false none .invalid fun s => (s, 0)

/-! ## Queues (R74) -/

/-- Whether an address lies in the host range (R28). -/
def inHost (pa : Nat) : Bool := regionOf pa = .host

/-- Whether an address lies in local HBM that is not freed (R28). -/
def Mach.inHbm (m : Mach) (pa : Nat) : Bool := regionOf pa = .hbm && !m.isFreed pa

/-- The checks of QUEUE_CREATE (R74). -/
def State.queueChk (s : State) (h : CmdHdr) (num kind logn vector base : Nat) (bind : Bool) : Status :=
  let hub := s.sys.hub
  let used := if kind = 0 then (hub.cqs.get? num).isSome else (hub.eqs.get? num).isSome
  let noPart := (hub.parts.get? h.part).isNone
  if num = 0 then .denied
  else if 1 < kind || 63 < num || used || logn < 4 || 12 < logn || base % 4096 ≠ 0 then .invalid
  else if kind = 0 then (if !inHost base || bind || noPart then .invalid else .ok)
  else if (bind && noPart) || !(inHost base || s.m.inHbm base) then .invalid
  else if inHost base then (if 64 ≤ vector && vector ≤ 254 then .invalid else .ok)
  else if vector ≠ 255 then .invalid else .ok

/-- `QUEUE_CREATE` (R74). The manual gives a new queue no HEAD and TAIL: both start at 0 (DESIGN CHOICE, log entry 12). -/
def execQueueCreate (h : CmdHdr) (num kind logn vector base : Nat) (bind : Bool) (s : State) : Out :=
  s.command h 0x01 false none (s.queueChk h num kind logn vector base bind) fun s =>
    (s.updHub fun b =>
      if kind = 0 then { b with cqs := b.cqs.put num ⟨some h.part, logn, base, 0, false⟩ }
      else { b with eqs := b.eqs.put num ⟨if bind then some h.part else none, logn, base, vector, 0, 0, []⟩ }, 0)

/-- Launches that name an event queue p selects post to queue 0 from now on (R74). -/
def State.unnameQueues (s : State) (p : Nat → Bool) : State :=
  s.updM fun m => { m with launches := m.launches.mapv fun _ l => if p l.evq then { l with evq := 0 } else l }

/-- `QUEUE_DESTROY` (R73): it waits for the begun commands of the queue. Commands consumed and not begun complete without effect (R71);
records that wait for space in an event queue go with it, as the manual does not say what becomes of them (DESIGN CHOICE, log
entry 95). -/
def execQueueDestroy (h : CmdHdr) (num kind : Nat) (s : State) : Out :=
  let hub := s.sys.hub
  let absent := if kind = 0 then (hub.cqs.get? num).isNone else (hub.eqs.get? num).isNone
  let chk : Status := if 1 < kind then .invalid else if num = 0 then .denied else if absent then .invalid else .ok
  if s.mayBegin h && s.precheck h false none = .ok && chk = .ok && kind = 0 &&
      hub.pending.any fun p => p.queue = num && p.begun then
    .next (s.begin h [])
  else s.command h 0x02 false none chk fun s =>
    if kind = 0 then
      ((s.dropCommands (· = num)).updHub fun b => { b with cqs := b.cqs.del num }, 0)
    else ((s.updHub fun b => { b with eqs := b.eqs.del num }).unnameQueues (· = num), 0)

/-! ## Partitions and contexts -/

/-- Whether quotas are in range (R90). -/
def quotaOk (q : Quota) : Bool :=
  1 ≤ q.weight && q.weight ≤ 1024 && q.warps ≤ 48 && q.accslots ≤ 64 && q.granules ≤ 768 && q.lskib ≤ 512 &&
    q.deque ≤ 2048 && q.spill % 4096 = 0

/-- `PART_CREATE` (R90). -/
def execPartCreate (h : CmdHdr) (q : Quota) (s : State) : Out :=
  s.command h 0x10 false none (if quotaOk q && (s.sys.hub.parts.get? h.part).isNone then .ok else .invalid) fun s =>
    (s.updHub fun b => { b with parts := b.parts.put h.part q }, 0)

/-- `PART_SET` (R73, R91): weight and quotas from the next window, the quotas for launches admitted from then on. R91 has new quotas apply
to launches admitted after the command, R73 from the next window: R73's time is taken (DEDUCED, log entry 120). -/
def execPartSet (h : CmdHdr) (q : Quota) (s : State) : Out :=
  s.command h 0x11 false none (if quotaOk q && (s.sys.hub.parts.get? h.part).isSome then .ok else .invalid) fun s =>
    (s.updHub fun b => { b with newQuotas := b.newQuotas.put h.part q }, 0)

/-- The lowest free ASID (R438). -/
def Mach.freeAsid (m : Mach) : Option Nat :=
  ((List.range 2047).map (· + 1)).find? fun a => (m.ctxs.get? a).isNone

/-- `CTX_CREATE` (R73, R438). -/
def execCtxCreate (h : CmdHdr) (root : Nat) (s : State) : Out :=
  let chk : Status :=
    if root % 4096 ≠ 0 || !s.m.inHbm root || (s.sys.hub.parts.get? h.part).isNone then .invalid
    else if s.m.freeAsid.isNone then .noResource else .ok
  s.command h 0x18 false none chk fun s =>
    match s.m.freeAsid with
    | some a => (s.updM fun m => { m with ctxs := m.ctxs.put a ⟨h.part, root⟩ }, a)
    | none => (s, 0)

/-! ## Policies, records, registers -/

/-- `LEASE_POLICY` (R146). -/
def execLeasePolicy (h : CmdHdr) (threshold inflight interval : Nat) (s : State) : Out :=
  s.command h 0x30 false none (if 4 < inflight then .invalid else .ok) fun s =>
    (s.updHub fun b => ({ b with policy := ⟨threshold, inflight, interval⟩ } : Hub).seekLeases, 0)

/-- Whether an address can name a buffer of a command: local HBM or host memory (log entry 13). -/
def Mach.bufferOk (m : Mach) (pa n : Nat) : Bool :=
  (m.inHbm pa && m.inHbm (pa + n - 1)) || (inHost pa && inHost (pa + n - 1))

/-- `RETIRE_READ` (R73): the records from a sequence number on, as the log holds them (R89). -/
def execRetireRead (h : CmdHdr) (first buffer count : Nat) (s : State) : Out :=
  let rs := (s.sys.flash.records.filter fun r => first ≤ r.seq).take count
  s.command h 0x38 false none (if s.m.bufferOk buffer (128 * rs.length) || rs = [] then .ok else .invalid) fun s =>
    (s.updM fun m => m.placeWrite (.dev buffer) (rs.flatMap Retirement.bytes), rs.length)

/-- An attestation report before its signature (R87). -/
def Sys.reportBody (y : Sys) (nonce : Nat) : List Byte :=
  let rs := y.flash.records
  natBytes 32 nonce ++ sha512 y.rom.image ++ ((y.hub.patch.map fun p => sha512 p.bytes).getD (List.replicate 64 0)) ++
    natBytes 4 ((y.hub.patch.map PatchImage.secver).getD 0) ++ natBytes 4 rs.length ++
    natBytes 4 (rs.foldl (fun n r => max n r.seq) 0) ++ natBytes 4 y.hub.capSeq.toNat ++
    natBytes 16 y.flash.identity.serial ++ sha512 y.flash.configRegion

/-- `ATTEST` (R87): the report, signed with the device identity key (R85). -/
def execAttest (h : CmdHdr) (nonce buffer : Nat) (s : State) : Out :=
  s.command h 0x40 false none (if s.m.bufferOk buffer 320 then .ok else .invalid) fun s =>
    let body := s.sys.reportBody nonce
    (s.updM fun m => m.placeWrite (.dev buffer) (body ++ signObject s.sys.rom.seed body), 0)

/-- Whether PATCH_STAGE writes slot B: the slot the running patch did not come from; with none running both are inactive, and the
manual does not say which it takes (R88, log entry 74). -/
def Sys.stagesB (y : Sys) (slotB : Bool) : Bool :=
  match y.hub.patch with
  | some _ => !y.hub.patchB
  | none => slotB

/-- `PATCH_STAGE` (R73): the image at an address, if its signature verifies under the release key (R85), goes to the inactive slot;
at most 4 MiB (R88). A longer one, or one outside local HBM and host memory, is INVALID: the manual names no status for it (DESIGN
CHOICE, log entry 121). -/
def execPatchStage (h : CmdHdr) (addr len : Nat) (slotB : Bool) (s : State) : Out :=
  let image : PatchImage := ⟨s.m.homeRead addr len⟩
  let chk : Status := if patchBytes < len || !s.m.bufferOk addr len then .invalid
    else if image.sigOk s.sys.rom then .ok else .signature
  s.command h 0x50 false none chk fun s =>
    ({ s with sys := { s.sys with flash := if s.sys.stagesB slotB then { s.sys.flash with patchB := some image }
      else { s.sys.flash with patchA := some image } } }, 0)

/-- The check of MGMT_READ and MGMT_WRITE (R73, R79). Nonzero bits [15:12] of the target count here, at step 4 of R72: the manual
does not say that they count as reserved at step 1 (DESIGN CHOICE, log entry 98). -/
def mgmtChk (target offset : Nat) : Status := if offset % 4 ≠ 0 || target / 2 ^ 12 ≠ 0 then .invalid else .ok

/-- `MGMT_READ` (R79). -/
def execMgmtRead (h : CmdHdr) (target offset : Nat) (s : State) : Out :=
  s.command h 0x60 false none (mgmtChk target offset) fun s =>
    (s, (s.mgmtRead (target / 2 ^ 10 % 4) (target % 2 ^ 10) offset).toNat)

/-- `MGMT_WRITE` (R79). -/
def execMgmtWrite (h : CmdHdr) (target offset : Nat) (value : Word) (s : State) : Out :=
  s.command h 0x61 false none (mgmtChk target offset) fun s =>
    (s.mgmtWrite (target / 2 ^ 10 % 4) (target % 2 ^ 10) offset value, 0)

end Sys2Proof.Machine
end

