-- ==== Sys2Proof/Machine/Launches.lean ====
section
/-! DEFINITION. Launches: admission (R80, R92-R95, R117), CANCEL (R77), inboxes (R141, R142), gang kill and the end of a launch
(R113, R157), the commands that end many launches (PART_DESTROY, CTX_DESTROY, RESET). -/

namespace Sys2Proof.Machine

/-! ## The launch record (R80) -/

/-- The fields of a launch record (R80). -/
structure LaunchRec where
  ttBase : Nat
  ttCount : Nat
  asid : Nat
  flags : Nat
  gangs : Nat
  cores : Nat
  warps : Nat
  xsteal : Nat
  trapvec : Nat
  deadline : Nat
  lcr : Nat
  spillBase : Nat
  spillSize : Nat
  granules : Nat
  lsBytes : Nat
  accSlots : Nat
  deque : Nat
  root : List Byte
  resv : Bool
  deriving DecidableEq, Repr

/-- A launch record from its 128 bytes. -/
def launchRecOf (bs : List Byte) : LaunchRec :=
  ⟨field bs 0 8, field bs 8 2, field bs 10 2, field bs 12 1, field bs 13 1, field bs 14 1, field bs 15 1, field bs 16 4,
    field bs 24 8, field bs 32 8, field bs 40 8, field bs 48 8, field bs 56 8, field bs 64 2, field bs 66 4, field bs 70 1,
    field bs 72 2, (bs.drop 96).take 32, field bs 20 4 ≠ 0 || field bs 71 1 ≠ 0 || field bs 74 22 ≠ 0⟩

/-- FLAGS.RESTART, SHADOW and INBOX (R80). -/
def LaunchRec.restart (r : LaunchRec) : Bool := bit r.flags 0
/-- FLAGS.SHADOW (R80). -/
def LaunchRec.shadow (r : LaunchRec) : Bool := bit r.flags 1
/-- FLAGS.INBOX (R80). -/
def LaunchRec.inbox (r : LaunchRec) : Bool := bit r.flags 2

/-- The launch a record describes, before it is admitted. -/
def LaunchRec.launch (r : LaunchRec) (part evq : Nat) : Launch :=
  { part := part, asid := r.asid, restart := r.restart, shadow := r.shadow, hasInbox := r.inbox, gangs := r.gangs
    cores := r.cores, warps := r.warps, xsteal := .ofNat 32 r.xsteal, trapvec := .ofNat 64 r.trapvec, deadline := r.deadline
    lcr := .ofNat 64 r.lcr, spillBase := .ofNat 64 r.spillBase, spillSize := r.spillSize, granules := r.granules
    lsBytes := r.lsBytes, accSlots := r.accSlots, dequeCap := r.deque, ttBase := .ofNat 64 r.ttBase, ttCount := r.ttCount
    teamKib := 0, evq := evq, inboxGen := 0, inbox := [], inboxNext := 0, scopes := [(0, ⟨.opened, 0, 1⟩)], groups := []
    owed := [], redctx := [], colls := [], killed := 0, relaunched := 0, relaunching := [], stop := none, faults := 0, spills := 0
    first := none, capacity := 0, noteSeq := 0, images := [] }

/-- Whether the fields of a record are in range (R80), those of shadow mode (R92), the spill area (R95) and the root task
(R114) included. -/
def LaunchRec.inRange (r : LaunchRec) : Bool :=
  let d := descOf r.root
  let l := r.launch 0 0
  !r.resv && r.ttBase % 64 = 0 && 1 ≤ r.ttCount && r.ttCount ≤ 4096 && r.flags < 8 && 1 ≤ r.gangs && r.gangs ≤ 64 &&
    1 ≤ r.cores && r.cores ≤ 4 && 1 ≤ r.warps && r.warps ≤ (if r.shadow then 24 else 48) && r.trapvec % 64 = 0 &&
    r.trapvec < 2 ^ 57 && r.lcr % 128 = 0 && r.spillBase % 4096 = 0 && r.spillSize % 4096 = 0 && 1 ≤ r.granules &&
    l.scale * r.granules ≤ 768 && r.lsBytes % 1024 = 0 && r.lsBytes ≤ 512 * 1024 && l.scale * r.accSlots ≤ 64 &&
    1 ≤ r.deque && r.deque ≤ 2048 && l.saveSize * r.gangs * r.cores ≤ r.spillSize && d.closure.toNat % 128 = 0 &&
    d.future.toNat % 16 = 0 && d.typ < r.ttCount && descResOk r.root && !d.remote && d.scope = 0

/-- Entries of a task-type table from one on are well formed for a local store and team region (R117). -/
def tableOk (bs : List Byte) (lsBytes teamKib : Nat) (n : Nat) : Bool :=
  (List.range n).all fun i => (tteOf ((bs.drop (64 * i)).take 64) lsBytes teamKib).isSome

/-- The launch a record asks for, with TEAMKIB of the root task's type, where the record and the table pass the checks of R80
and R117; and the machine after replayable conditions on the table have been serviced. -/
def State.admissible (s : State) (h : CmdHdr) (record : Nat) : Option (Launch × Desc × Mach) :=
  let r := launchRecOf (s.m.homeRead record 128)
  let ctx := (s.m.ctxs.get? r.asid).any fun c => c.part = h.part
  if record % 128 ≠ 0 || !s.m.inHbm record || !ctx || !r.inRange then none
  else match s.m.readVa r.asid r.ttBase false (64 * r.ttCount / 2 ^ 16 + 2) (64 * r.ttCount) with
    | (.error _, _) => none
    | (.ok (bs, _), m) =>
      let d := descOf r.root
      let kib := field bs (64 * d.typ + 14) 2
      if kib * 1024 < r.lsBytes && tableOk bs r.lsBytes kib r.ttCount then
        some ({ r.launch h.part h.evq with teamKib := kib }, d, m)
      else none

/-! ## Admission (R93, R94, R438) -/

/-- The launch number LAUNCH assigns: the one after the last that no admitted launch holds (R438). -/
def State.nextLaunch (s : State) : Option Nat :=
  ((List.range 65535).map fun i => (s.sys.hub.lastLaunch + i) % 65535 + 1).find? fun n => (s.m.launches.get? n).isNone

/-- Free SPILL of a partition (R90, R93). -/
def State.freeSpill (s : State) (part : Nat) : Nat :=
  ((s.sys.hub.parts.get? part).map (·.spill)).getD 0 -
    ((s.m.launches.filter fun l => l.2.part = part).foldl (fun n l => n + l.2.spillSize) 0)

/-- A team of a launch as it is admitted (R94). -/
def Launch.team (l : Launch) (n g c core order : Nat) : Team :=
  { launch := n, ix := g * l.cores + c, gang := g, coreIx := c, core := core, unbound := false, res := .waitingNew
    order := order, newcomer := false, chosen := false, evict := false, drainEnd := 0, ls := [], lsPoison := [], spoilt := [],
      wideCells := [], bars := []
    deque := [], parked := [], kept := [], xsteal := l.xsteal, trapvec := l.trapvec, idleSince := 0, taskcyc := 0
    clauses := 0, tokens := [], slotMap := [], savedAcc := [], checked := [], accWanted := [], image := none
    steal := ⟨none, none, [], 0, false⟩ }

/-- The core of each team: gang, core index and core, in team order. -/
def teamCores (gs : List (Nat × List Nat)) : List (Nat × Nat × Nat) :=
  gs.zipIdx.flatMap fun g => g.1.2.zipIdx.map fun c => (g.2, c.2, c.1)

/-- Puts a team and its warps into the machine; their slots are FREE until it is resident (R177). -/
def Mach.addTeam (m : Mach) (n : Nat) (l : Launch) (e : Nat × Nat × Nat) : Mach :=
  let t := l.team n e.1 e.2.1 e.2.2 m.serial
  let tk := n * 256 + t.ix
  { m with
    serial := m.serial + 1
    teams := m.teams.put tk t
    warps := (List.range l.warps).foldl (fun ws w => ws.put (warpKey tk w) ⟨.free, none, 0, 0, 0, 0⟩) m.warps }

/-- The launch is admitted on the cores given: its teams, and the root task in the deque of team 0 (R80, R94). A team whose
charges are free on its core, beside what chosen teams count on, is resident at once (R96, log entry 109). -/
def State.admitLaunch (s : State) (n : Nat) (l : Launch) (root : Desc) (gs : List (Nat × List Nat)) : State :=
  let gen := if l.hasInbox then (s.sys.hub.inboxGens.getD n 0 + 1) % 2 ^ 16 else s.sys.hub.inboxGens.getD n 0
  let s := s.updHub fun h => { h with lastLaunch := n, inboxGens := if l.hasInbox then h.inboxGens.put n gen else h.inboxGens }
  let l := { l with inboxGen := gen, capacity := s.capacityWord, noteSeq := s.sys.hub.capSeq }
  let es := teamCores gs
  let s := s.updM fun m => es.foldl (fun m e => m.addTeam n l e) { m with launches := m.launches.put n l }
  let s := s.updM fun m =>
    let (t, m) := m.fresh
    { m with tasks := m.tasks.put t (Task.queued (n * 256) root t) }.pushHot (n * 256) t
  es.foldl (fun s e =>
    let tk := n * 256 + (e.1 * l.cores + e.2.1)
    if s.sys.hub.takes e.2.2 && s.fitsNow e.2.2 false l.charge then s.takeCore tk false else s) s

/-- `LAUNCH` (R80, R93): RESULT is the launch number. -/
def execLaunch (h : CmdHdr) (record : Nat) (s : State) : Out :=
  let r := s.admissible h record
  let slots := r.bind fun a => s.place h.part a.1.gangs a.1.cores a.1.charge []
  let room := r.any fun a => a.1.spillSize ≤ s.freeSpill h.part
  let chk : Status := if r.isNone then .invalid
    else if slots.isNone || !room || s.nextLaunch.isNone then .noResource else .ok
  s.command h 0x28 true none chk fun s =>
    match r, slots, s.nextLaunch with
    | some (l, root, m), some gs, some n => (({ s with m := m } : State).admitLaunch n l root gs, n)
    | _, _, _ => (s, 0)

/-! ## The end of gangs and launches -/

/-- Teams a boundary chose become resident on cores whose resources have been freed (R96). -/
def State.admitFreed (s : State) (cores : List Nat) : State := cores.eraseDups.foldl (fun s c => s.admitChosen c) s

/-- Cores of a launch's teams. -/
def Mach.launchCores (m : Mach) (ln : Nat) : List Nat := (m.teams.filter fun t => t.2.launch = ln).map fun t => t.2.core

/-- `GANG_KILL` (R157). -/
def execGangKill (s : State) : Out :=
  .next ((s.killGang s.subj.x s.subj.y).admitFreed (s.m.launchCores s.subj.x))

/-- A launch whose end conditions hold ends. -/
def State.finishLaunch (s : State) (ln : Nat) : State :=
  if s.m.launchOver ln then (s.endLaunch ln).admitFreed (s.m.launchCores ln) else s

/-- `LAUNCH_COMPLETION` (R113). -/
def execLaunchCompletion (s : State) : Out := .next (s.finishLaunch s.subj.x)

/-- Stops a launch from outside (R77) and gives its cores away; RESULT as CANCEL has it. -/
def State.cancelLaunch (s : State) (ln status : Nat) : Nat × State :=
  let cores := s.m.launchCores ln
  let (r, s) := s.stopLaunch ln status
  (r, s.admitFreed cores)

/-- `CANCEL` (R77): RESULT 1 where it stopped a team of the launch. -/
def execCancel (h : CmdHdr) (number : Nat) (s : State) : Out :=
  s.command h 0x29 true ((s.m.launches.get? number).map (·.part)) .ok fun s =>
    let (r, s) := s.cancelLaunch number 6
    (s, r)

/-- Stops launches, each as by CANCEL. -/
def State.cancelAll (s : State) (p : Launch → Bool) : State :=
  (s.m.launches.filter fun l => p l.2).foldl (fun s l => (s.cancelLaunch l.1 6).2) s

/-- The contexts p selects end: their TLB entries are gone and their ASIDs free (R73). Pages that one of them has pinned and no
UNMAP has removed stay pinned: the manual does not say what becomes of them (DESIGN CHOICE, log entry 97). -/
def State.dropContexts (s : State) (p : Nat → Ctx → Bool) : State :=
  s.updM fun m =>
    let gone := (m.ctxs.filter fun c => p c.1 c.2).map (·.1)
    { m.dropTlb (fun t => gone.contains t.asid) with
      ctxs := m.ctxs.sift fun a _ => !gone.contains a
      demand := m.demand.filter fun d => !gone.contains d.1 }

/-- A command that cancels the launches p selects, waits for their end and for `ready`, and then has its effect. -/
def State.ending (s : State) (h : CmdHdr) (opcode : Nat) (chk : Status) (p : Launch → Bool) (ready : State → Bool)
    (eff : State → State) : Out :=
  if s.begun h || (s.mayBegin h && s.precheck h false none = .ok && chk = .ok) then
    let s := s.cancelAll p
    if (s.m.launches.any fun l => p l.2) || !ready s then .next (s.begin h []) else .next ((eff s).complete h opcode .ok 0)
  else s.command h opcode false none chk fun s => (s, 0)

/-- `CTX_DESTROY` (R73). -/
def execCtxDestroy (h : CmdHdr) (asid : Nat) (s : State) : Out :=
  s.ending h 0x19 (if (s.m.ctxs.get? asid).any fun c => c.part = h.part then .ok else .invalid)
    (fun l => l.asid = asid) (fun _ => true) fun s => s.dropContexts fun a _ => a = asid

/-- Queues bound to a partition are gone. -/
def Hub.dropQueues (h : Hub) (p : Nat → Bool) : Hub :=
  { h with cqs := h.cqs.sift fun _ q => !q.part.any p, eqs := h.eqs.sift fun _ q => !q.part.any p }

/-- `PART_DESTROY` (R73): launches, contexts, queues, then the partition; commands of its queues complete first. -/
def execPartDestroy (h : CmdHdr) (s : State) : Out :=
  s.ending h 0x12 (if (s.sys.hub.parts.get? h.part).isSome then .ok else .invalid) (fun l => l.part = h.part)
    (fun s => !s.sys.hub.pending.any fun c => ((s.sys.hub.cqs.get? c.queue).bind (·.part)) = some h.part)
    fun s =>
      let gone := (s.sys.hub.eqs.filter fun q => q.2.part = some h.part).map (·.1)
      ((s.unnameQueues gone.contains).dropContexts fun _ c => c.part = h.part).updHub fun b =>
        { b.dropQueues (· = h.part) with parts := b.parts.del h.part, newQuotas := b.newQuotas.del h.part }

/-! ## RESET (R439) and the admin queues (R66) -/

/-- Partitions, contexts and the queues p selects are destroyed; commands those queues hold complete first (R71). -/
def State.clearAll (s : State) (p : Nat → Bool) : State :=
  ((s.dropCommands p).dropContexts fun _ _ => true).updHub fun b => { b with
    parts := [], newQuotas := []
    cqs := b.cqs.sift fun n _ => !p n
    eqs := b.eqs.sift fun n _ => !p n }

/-- Whether a RESET may begin: as any command, and in a thermal halt (R23). -/
def State.mayReset (s : State) (h : CmdHdr) : Bool :=
  s.mayBegin h || (s.sys.hub.phase = .thermalHalt && s.sys.hub.ena && (s.earlier h).all (fun p => p.begun) &&
    (!h.fence || (s.earlier h).isEmpty))

/-- A RESET command leaves the list of commands without a record (R73). -/
def State.forgetCommand (s : State) (h : CmdHdr) : State :=
  s.updHub fun b => { b with pending := b.pending.filter fun p => !(p.queue = h.queue && p.entry = h.entry) }

/-- A warm reset once every launch has ended (R439); module time is recorded and the scores are written (R67, R144). -/
def State.warm (s : State) : State :=
  let s := s.clearAll (· ≠ 0)
  { s with sys := { s.sys with flash := s.sys.flash.writeService s.sys.rom ⟨s.sys.hub.scores, s.m.mtime⟩ } }

/-- `RESET` warm (R439): every launch is cancelled and ends with its record; partitions, contexts and queues go after that. -/
def execResetWarm (h : CmdHdr) (s : State) : Out :=
  if !s.begun h && !s.mayReset h then .next s
  else if !s.begun h && s.precheck h false none ≠ .ok then .next (s.complete h 0x58 (s.precheck h false none) 0)
  else
    let s := s.cancelAll fun _ => true
    if s.m.launches = [] then
      .next ((s.warm.forgetCommand h).updHub fun b => { b with phase := if b.phase = .thermalHalt then .running else b.phase })
    else .next (s.begin h [])

/-- The module before start-up step 1 (R24, R439): what the flash store and the one-time-programmable counter hold stays, and
module time; memory outside the package stays. -/
def State.restart (s : State) (record : Bool) : State :=
  let flash := if record then s.sys.flash.writeService s.sys.rom ⟨s.sys.hub.scores, s.m.mtime⟩ else s.sys.flash
  { s with
    sys := ⟨flash, Hub.reset, s.sys.rom⟩
    m := { Mach.reset with
      mem := s.m.mem.filter fun c => inHost c.1
      mtime := flash.stored.mtime, serial := s.m.serial, free := s.m.free } }

/-- `RESET` full (R439): the module restarts at step 1 of R24. -/
def execResetFull (h : CmdHdr) (s : State) : Out :=
  if !s.mayReset h then .next s
  else if s.precheck h false none ≠ .ok then .next (s.complete h 0x58 (s.precheck h false none) 0)
  else .next (s.restart true)

/-- Whether ADMCQ or ADMEQ holds a LOGN of 4 to 12 (R66). -/
def lognOk (r : DWord) : Bool := 4 ≤ r.toNat % 16 && r.toNat % 16 ≤ 12

/-- Device physical address of an admin queue (R28, R66). -/
def adminBase (r : DWord) : Nat := 0x8000000000000 + r.toNat / 2 ^ 12 % 2 ^ 40 * 2 ^ 12

/-- ADMCTL.ENA is set (R66): the admin queues start; other values of LOGN hold READY at 0. The records that came before event
queue 0 are posted (log entry 7). While the queues that clearing ENA has stopped still wait for their launches, the start waits too. -/
def State.startAdmin (s : State) : State :=
  let h := s.sys.hub
  if h.ena || h.phase ≠ .running then s
  else if h.ready then s.updHub fun h => { h with again := true }
  else if lognOk h.admcq && lognOk h.admeq then
    let s := s.updHub fun h => { h with
      ena := true, ready := true
      cqs := h.cqs.put 0 ⟨none, h.admcq.toNat % 16, adminBase h.admcq, 0, false⟩
      eqs := h.eqs.put 0 ⟨none, h.admeq.toNat % 16, adminBase h.admeq, 255, 0, 0, []⟩
      early := [] }
    h.early.foldl (fun s r => s.post 0 r) s
  else s.updHub fun h => { h with ena := true }

/-- Every launch is cancelled, and once they have ended every queue is destroyed (R66, R439); ENA set again in the meantime starts the
queues anew. -/
def State.closeAdmin (s : State) : State :=
  let s := s.cancelAll fun _ => true
  if s.m.launches = [] then
    let t := (s.clearAll fun _ => true).updHub fun h => { h with ready := false, again := false }
    if s.sys.hub.again then t.startAdmin else t
  else s

/-- ADMCTL.ENA is cleared (R66). -/
def State.stopAdmin (s : State) : State := (s.updHub fun h => { h with ena := false, again := false }).closeAdmin

/-- `ADMIN_QUEUE_START` (R66): the host sets ADMCTL.ENA. -/
def execAdminQueueStart (s : State) : Out := .next s.startAdmin

/-- `ADMIN_QUEUE_STOP` (R66): the host clears ADMCTL.ENA, or the launches this cancelled have ended. -/
def execAdminQueueStop (s : State) : Out :=
  if s.sys.hub.phase ≠ .running then .next s
  else if s.sys.hub.ena then .next s.stopAdmin
  else if s.sys.hub.ready then .next s.closeAdmin else .next s

/-! ## Inboxes (R141, R142) -/

/-- Teams a descriptor may go to, from index i on in turn: not ended, not being stopped, not on a core under a lease (R148),
with a free slot. -/
def State.inboxTeam (s : State) (ln : Nat) (l : Launch) : Option Nat :=
  let n := l.gangs * l.cores
  ((List.range n).map fun i => ln * 256 + (l.inboxNext + i) % n).find? fun tk =>
    (s.m.team? tk).any fun t => t.res ≠ .ended && !s.m.dying tk && !s.coreOut t.core && !t.unbound &&
      t.slotsUsed < l.dequeCap

/-- `INBOX_DELIVER` (R141): the first descriptor goes to the cold end of the next team with room. -/
def execInboxDeliver (s : State) : Out :=
  let ln := s.subj.x
  match s.m.launches.get? ln with
  | none => .next s
  | some l =>
    match l.inbox, s.inboxTeam ln l with
    | d :: ds, some tk => .next (s.updM fun m =>
        let (t, m) := m.fresh
        let m := { m with tasks := m.tasks.put t (Task.queued tk d.1 t) }.pushCold tk t
        m.updLaunch ln fun l => { l with inbox := ds, inboxNext := (tk % 256 + 1) % (l.gangs * l.cores) })
    | _, _ => .next s

/-- The answer to a remote spawn (R142). -/
def Mach.spawnAnswer (m : Mach) (handle : Nat) (d : Desc) : Nat :=
  match m.launches.get? (handle % 2 ^ 16) with
  | none => 2
  | some l =>
    if !l.hasInbox || l.inboxGen ≠ handle / 2 ^ 32 % 2 ^ 16 || (l.scope d.scope).st = .free then 2
    else if 256 ≤ l.inbox.length then 1 else 0

/-- `PEER_TASK` (R142): a remote spawn arrives; REMOTE and ORIGIN are set, SCOPE's count rises when it is accepted. -/
def execPeerTask (module handle : Nat) (desc : List Byte) (s : State) : Out :=
  s.on fun m =>
    let d := { descOf desc with remote := true, origin := module }
    let code := m.spawnAnswer handle d
    let m := if code = 0 then
        m.updLaunch (handle % 2 ^ 16) fun l => { l.scopeInc d.scope with inbox := l.inbox ++ [(d, module)] }
      else m
    { m with peerOut := m.peerOut ++ [PeerMsg.taskReply module code] }

end Sys2Proof.Machine
end

