-- ==== Sys2Proof/Machine/Mapping.lean ====
section
/-! DEFINITION. Page tables as the hub writes them: MAP, UNMAP, DISCARD (R75, R76, R196-R201). -/

namespace Sys2Proof.Machine

/-! ## MAP (R198) -/

/-- Fields of MAP's attributes (R198). -/
structure MapAttr where
  w : Bool
  x : Bool
  cmp : Bool
  demand : Bool
  psz : Nat
  home : Nat
  tgt : Nat
  deriving DecidableEq, Repr

/-- MAP's attributes from their 16 bits (R198). -/
def mapAttrOf (v : Nat) : MapAttr :=
  ⟨bit v 0, bit v 1, bit v 2, bit v 3, v / 2 ^ 4 % 4, v / 2 ^ 6 % 4, v / 2 ^ 8 % 2 ^ 8⟩

/-- Page size of PSZ (R198). -/
def MapAttr.size (a : MapAttr) : Nat := if a.psz = 0 then 2 ^ 16 else if a.psz = 1 then 2 ^ 21 else 2 ^ 30

/-- The leaf a page gets (R197, R198). -/
def MapAttr.leaf (a : MapAttr) (pa : Nat) : Nat :=
  (!a.demand).toNat + 2 + a.w.toNat * 2 ^ 3 + a.x.toNat * 2 ^ 4 + a.home * 2 ^ 5 + a.cmp.toNat * 2 ^ 7 +
    a.demand.toNat * 2 ^ 8 + pa + a.tgt * 2 ^ 56

/-- Pages of a range: virtual and physical address. -/
def MapAttr.pages (a : MapAttr) (va pa size : Nat) : List (Nat × Nat) :=
  (List.range (size / a.size)).map fun i => (va + i * a.size, pa + i * a.size)

/-- Whether the unit PINTGT names is in service (R197, R198). -/
def Hub.pinUnitIn (h : Hub) (a : MapAttr) : Bool :=
  if a.home = 1 then h.coreIn a.tgt
  else if a.home = 2 then !h.outOfService.contains ⟨2, a.tgt / 64, a.tgt % 64⟩
  else a.tgt = 0

/-- The checks of MAP that end in INVALID (R75, R198). An ASID that names no context is INVALID too, for UNMAP and DISCARD as well:
no rule gives a status for it (DESIGN CHOICE, log entry 122). -/
def State.mapOk (s : State) (asid : Nat) (a : MapAttr) (va pa size : Nat) : Bool :=
  let pinned := a.home = 1 || a.home = 2
  (s.m.ctxs.get? asid).isSome && a.psz ≠ 3 && va % a.size = 0 && pa % a.size = 0 &&
    size % a.size = 0 && size ≠ 0 && va + size ≤ 2 ^ 57 && !(a.cmp && (a.home = 1 || a.home = 3)) &&
    !(a.home = 1 && a.psz ≠ 0) && (!pinned || (s.m.inHbm pa && s.m.inHbm (pa + size - 1))) &&
    !(a.home = 2 && (stackOf pa / 4 ≠ a.tgt / 64 || stackOf (pa + size - 1) / 4 ≠ a.tgt / 64)) &&
    s.sys.hub.pinUnitIn a && (s.m.leaves asid va size).isEmpty

/-- Writes a leaf at the end of a list of levels, taking tables from the reserve where an entry names none (R196). Answers
memory and the number of tables taken so far. -/
def mapPath (mem : List Host.Cell) (used table va leaf : Nat) : List (Nat × Nat × Bool) → List Host.Cell × Nat
  | [] => (mem, used)
  | (shift, n, _) :: rest =>
    let a := table + 8 * (va / 2 ^ shift % n)
    if rest.isEmpty then (Memory.writeN mem a (natBytes 8 leaf), used)
    else
      let e := bytesNat (Memory.readN mem a 8)
      if pteV e && !pteLeaf e && pteTableOk e then mapPath mem used (pteAddr e) va leaf rest
      else
        let t := Config.tableReserve + 4096 * used
        mapPath (Memory.writeN mem a (natBytes 8 (t + 1))) (used + 1) t va leaf rest

/-- The levels down to a page size. -/
def MapAttr.levels (a : MapAttr) : List (Nat × Nat × Bool) := Machine.levels.take (5 - a.psz)

/-- Memory with the entries of a MAP, and the tables taken. -/
def State.mapEntries (s : State) (asid : Nat) (a : MapAttr) (va pa size : Nat) : List Host.Cell × Nat :=
  match s.m.ctxs.get? asid with
  | none => (s.m.mem, s.sys.hub.tablesUsed)
  | some c => (a.pages va pa size).foldl (fun r p => mapPath r.1 r.2 c.root p.1 (a.leaf p.2) a.levels)
      (s.m.mem, s.sys.hub.tablesUsed)

/-- Frames a MAP would pin that are not pinned already. -/
def Mach.newPins (m : Mach) (a : MapAttr) (pa size : Nat) : List Pin :=
  if a.home = 1 || a.home = 2 then
    ((a.pages 0 pa size).map fun p => (⟨p.2, a.size, a.home = 1, a.tgt⟩ : Pin)).filter fun p => !m.pins.contains p
  else []

/-- Local-store charges of the teams admitted on a core (R201). -/
def Mach.lsCharges (m : Mach) (core : Nat) : Nat :=
  (m.teamsOn core).foldl (fun n t => n + ((m.launches.get? t.2.launch).map (·.lsBytes)).getD 0) 0

/-- Whether the limits on pinned pages leave room (R200, R201). -/
def Mach.pinsFit (m : Mach) (a : MapAttr) (new : List Pin) : Bool :=
  if new.isEmpty then true
  else if a.home = 1 then
    let n := m.pinsIn a.tgt + new.length
    n ≤ 4 && m.lsCharges a.tgt + 64 * 1024 * n ≤ 512 * 1024
  else
    let old := (m.pins.filter fun p => !p.inLs && p.tgt = a.tgt).foldl (fun n p => n + p.size) 0
    old + new.foldl (fun n p => n + p.size) 0 ≤ 8 * 2 ^ 20

/-- Marks the teams whose allocations reach into the blocks a MAP needs (R201): which of those with local store do is the
allocator's (log entries 1 and 71). -/
def Mach.markEvicted (m : Mach) (core : Nat) : Mach :=
  ((m.teamsOn core).filter fun t => t.2.holds && ((m.launches.get? t.2.launch).map (·.lsBytes)).getD 0 ≠ 0).foldl (fun m t =>
    let (x, m) := m.takeFree
    if Config.freeNat x % 2 = 1 then m.updTeam t.1 fun t => { t with evict := true } else m) m

/-- Whether a block MAP needs in the local store of a core still holds an allocation (R201). -/
def Mach.blockBusy (m : Mach) (core : Nat) : Bool := m.teams.any fun t => t.2.core = core && t.2.evict && t.2.holds

/-- Lines of a range leave the slices: dirty ones are written back, replicas end (R47, R53, R199). -/
def Mach.flushRange (m : Mach) (pa n : Nat) : Mach :=
  let inside (l : Nat) : Bool := pa ≤ l * 128 && l * 128 < pa + n
  let ls := m.dirty.filter inside
  let m := { m with
    dirty := m.dirty.filter fun l => !inside l
    l2 := m.l2.sift fun k _ => !inside (k / 4)
    replicas := m.replicas.sift fun k _ => !inside (k / 4) }
  ((ls.map (· / 4)).eraseDups).foldl (fun m b => m.packBlock b (m.cmpAt (b * 512))) m

/-- Lines of a range leave every L1D (R199). -/
def Mach.dropL1d (m : Mach) (pa n : Nat) : Mach :=
  { m with cores := m.cores.mapv fun _ c => { c with l1d := c.l1d.sift fun l _ => !(pa ≤ l * 128 && l * 128 < pa + n) } }

/-- What a MAP does beside its entries: frames pinned, never cached or with CMP are known as such; lines of a frame whose page may
not stand in an L1D, or moves to another place, leave the caches (R197, R199). -/
def Mach.placePages (m : Mach) (a : MapAttr) (pa size : Nat) (new : List Pin) : Mach :=
  let m := if a.home = 3 || new ≠ [] then m.flushRange pa size else m
  let m := if a.home = 1 || a.home = 3 then m.dropL1d pa size else m
  { m with
    pins := m.pins ++ new
    pinning := m.pinning.filter fun p => !new.contains p
    uncached := if a.home = 3 then (m.uncached ++ (a.pages 0 pa size).map fun p => (p.2, a.size)).eraseDups else m.uncached
    cmps := if a.cmp then (m.cmps ++ (a.pages 0 pa size).map fun p => (p.2, a.size)).eraseDups else m.cmps }

/-- The status of a MAP (R75, R196, R198, R200, R201). -/
def State.mapStatus (s : State) (asid : Nat) (a : MapAttr) (va pa size : Nat) : Status :=
  if !s.mapOk asid a va pa size then .invalid
  else if Config.tableCount < (s.mapEntries asid a va pa size).2 || !s.m.pinsFit a (s.m.newPins a pa size) then .noResource
  else .ok

/-- A MAP writes its entries (R196, R198). -/
def State.mapNow (s : State) (asid : Nat) (a : MapAttr) (va pa size : Nat) : State :=
  let (mem, used) := s.mapEntries asid a va pa size
  ({ s with m := (s.m.setMem mem).placePages a pa size (s.m.newPins a pa size) } : State).updHub fun b =>
    { b with tablesUsed := used }

/-- `MAP` (R75, R196-R201): one that pins a page in a local store frees the block first, and has its effect once no team's allocation
reaches into it (R201). -/
def execMapPages (h : CmdHdr) (asid attrs va pa size : Nat) (s : State) : Out :=
  let a := mapAttrOf attrs
  let named := (s.m.ctxs.get? asid).map (·.part)
  let new := s.m.newPins a pa size
  if s.begun h then
    if s.m.blockBusy a.tgt then .next s
    else
      let s := s.updM fun m => { m with pinning := m.pinning.filter fun p => !new.contains p }
      match s.mapStatus asid a va pa size with
      | .ok => .next ((s.mapNow asid a va pa size).complete h 0x20 .ok 0)
      | st => .next (s.complete h 0x20 st 0)
  else
    let chk := s.mapStatus asid a va pa size
    let wait := s.updM fun m => ({ m with pinning := m.pinning ++ new } : Mach).markEvicted a.tgt
    if s.mayBegin h && s.precheck h true named = .ok && chk = .ok && a.home = 1 && new ≠ [] && wait.m.blockBusy a.tgt then
      .next (wait.begin h [])
    else s.command h 0x20 true named chk fun s => (s.mapNow asid a va pa size, 0)

/-! ## UNMAP (R75) -/

/-- Whether an access to a physical range is under way, or an OPEN reduction context holds it (R350). -/
def Mach.frameBusy (m : Mach) (pa n : Nat) : Bool :=
  (m.ops.any fun o => o.2.kind.spots.any fun p => p.1.meets (max p.2 1) (.dev pa) n) ||
    (m.cores.any fun c => c.2.stores.any fun x => x.place.meets x.bytes.length (.dev pa) n) ||
    m.launches.any fun l => l.2.redctx.any fun r => r.2.ranges.any fun x => (Place.dev x.1).meets (max x.2 1) (.dev pa) n

/-- Whether a range lock of a launch of an ASID meets a virtual range. -/
def Mach.lockBusy (m : Mach) (asid va n : Nat) : Bool :=
  m.cores.any fun c => c.2.locks.any fun e =>
    ((m.launches.get? e.launch).any fun l => l.asid = asid) && e.space = Spc.va.code && e.covers va n

/-- The checks of UNMAP (R75); an ASID that names no context is INVALID (DESIGN CHOICE, log entry 122). -/
def State.unmapOk (s : State) (asid va size : Nat) : Bool :=
  (s.m.ctxs.get? asid).isSome && va % 2 ^ 16 = 0 && size % 2 ^ 16 = 0 && size ≠ 0 &&
    va + size ≤ 2 ^ 57 && (s.m.leaves asid va size).all fun l => va ≤ l.va && l.va + l.size ≤ va + size

/-- A pinned page leaves its slice or local store (R201): what it holds is written to HBM, one from a local store block by block (R53). -/
def Mach.unpin (m : Mach) (p : Pin) : Mach :=
  if p.inLs then (List.range (p.size / 512)).foldl (fun m i => m.packBlock (p.pa / 512 + i) (m.cmpAt (p.pa + 512 * i))) m
  else m.flushRange p.pa p.size

/-- What frames that entries no longer name so were known for ends (R197, R199): a pinned one is written back (R201). -/
def Mach.dropPins (m : Mach) (frames : List Nat) : Mach :=
  let all := if frames = [] then [] else m.allLeaves
  let named (p : Nat → Bool) : List Nat := (all.filter fun l => p l.2.entry).map fun l => pteAddr l.2.entry
  let pinned := named fun e => pteHome e = 1 || pteHome e = 2
  let uncached := named fun e => pteHome e = 3
  let cmps := named (bit · 7)
  let ended := m.pins.filter fun p => frames.contains p.pa && !pinned.contains p.pa
  let m := ended.foldl Mach.unpin m
  { m with
    pins := m.pins.filter fun p => !ended.contains p
    uncached := m.uncached.filter fun r => !frames.contains r.1 || uncached.contains r.1
    cmps := m.cmps.filter fun r => !frames.contains r.1 || cmps.contains r.1 }

/-- Removes the entries of a range and the TLB entries made of them (R75, R202). -/
def Mach.unmap (m : Mach) (asid va size : Nat) : Mach :=
  let ls : List Leaf := m.leaves asid va size
  let m := { m.setMem (ls.foldl (fun mem (l : Leaf) => Memory.writeN mem l.at_ (natBytes 8 0)) m.mem) with
    demand := m.demand.filter fun d => !(d.1 = asid && va ≤ d.2 && d.2 < va + size) }
  (m.dropTlb fun t => t.asid = asid && va < t.va + t.size && t.va < va + size).dropPins (ls.map fun (l : Leaf) => pteAddr l.entry)

/-- `UNMAP` (R75): it waits for the accesses and range locks that used the entries. -/
def execUnmapPages (h : CmdHdr) (asid va size : Nat) (s : State) : Out :=
  let named := (s.m.ctxs.get? asid).map (·.part)
  let busy (s : State) (rs : List (Nat × Nat)) : Bool :=
    rs.any (fun r => s.m.frameBusy r.1 r.2) || s.m.lockBusy asid va size
  if s.begun h then (if busy s (s.rangesOf h) then .next s else .next (s.complete h 0x21 .ok 0))
  else
    let chk : Status := if s.unmapOk asid va size then .ok else .invalid
    let rs := (s.m.leaves asid va size).map fun l => (pteAddr l.entry, l.size)
    if s.mayBegin h && s.precheck h true named = .ok && chk = .ok && busy s rs then
      .next ((s.updM fun m => m.unmap asid va size).begin h rs)
    else s.command h 0x21 true named chk fun s => (s.updM fun m => m.unmap asid va size, 0)

/-! ## DISCARD (R76) -/

/-- Drops the lines of a page's part from every slice and replica; its bytes are unspecified from then on, those of host memory
too (R27, R76). -/
def Mach.discardPart (m : Mach) (l : Leaf) (va n : Nat) : Mach :=
  let lo := max va l.va
  let hi := min (va + n) (l.va + l.size)
  let pa := (pteAddr l.entry + (lo - l.va)) / 128 * 128
  let len := (pteAddr l.entry + (hi - l.va) + 127) / 128 * 128 - pa
  if regionOf pa = .hbm || regionOf pa = .host then
    { m.forget pa len with hostLines := m.hostLines.filter fun k => !(linesOf pa len).contains (k / 4) }
  else m

/-- `DISCARD` (R76). A range beyond 2^57 is INVALID and pages not mapped are passed over, as the manual has it for UNMAP: of DISCARD it
says neither (DESIGN CHOICE, log entry 96); so is an ASID that names no context (DESIGN CHOICE, log entry 122). -/
def execDiscardRange (h : CmdHdr) (asid va size : Nat) (s : State) : Out :=
  let ctx := s.m.ctxs.get? asid
  s.command h 0x22 true (ctx.map (·.part)) (if ctx.isSome && va + size ≤ 2 ^ 57 then .ok else .invalid)
    fun s => (s.updM fun m => (m.leaves asid va size).foldl (fun m l => m.discardPart l va size) m, 0)

end Sys2Proof.Machine
end

