-- ==== Sys2Proof/Machine/Peers.lean ====
section
/-! DEFINITION. Memory-class requests of peers (R31, R155, R161, R216): each sender's are applied at their home in order of
arrival; a write held too long at a migration gate is refused with all that its sender sent after it. -/

namespace Sys2Proof.Machine

/-! ## Serving a request -/

/-- What this module sends back to a peer (R31), with poison where the data has it (R155). -/
def Mach.replyTo (m : Mach) (module : Nat) (bs : List Byte) (poison : Bool) : Mach :=
  { m with peerOut := m.peerOut ++ [PeerMsg.data module bs poison] }

/-- Bytes a request is answered with. -/
def answerLen (r : PeerReq) : Nat :=
  match r with
  | .read n => n
  | .atom _ n _ _ => n
  | .readTile rows n => rows.length * n
  | .write .. | .writeTile .. => 0

/-- Writes a peer's bytes at their home, with their poison (R155, R216). -/
def Mach.peerWrite (m : Mach) (pa : Nat) (bs : List Byte) (bad : Bool) : Mach :=
  (m.placeWrite (.dev pa) bs).movePoison (.dev pa) bs.length bad

/-- A request to local HBM performed at its home slice (R31, R216): a read answers with bytes, an atomic with the old value, a write
with an acknowledgement. -/
def Mach.serveHome (m : Mach) (r : PeerIn) : Mach :=
  let rs := r.req.ranges r.pa
  let bytes := rs.flatMap fun x => m.homeRead x.1 x.2
  let bad := rs.any fun x => m.poisoned (.dev x.1) x.2
  let m := (rs.flatMap fun x => linesOf x.1 x.2).foldl Mach.l2Home m
  match r.req with
  | .read _ | .readTile .. => m.replyTo r.module bytes bad
  | .write bs poison => (m.peerWrite r.pa bs poison).replyTo r.module [] false
  | .writeTile rows n bs =>
    (rows.zipIdx.foldl (fun m a => m.peerWrite a.1 (lineSlice bs (a.2 * n) n) false) m).replyTo r.module [] false
  | .atom fn n b c =>
    let m := match (AtomFn.apply fn n (bytesNat bytes) b.toNat c.toNat).1 with
      | some v => m.placeWrite (.dev r.pa) (natBytes n v)
      | none => m
    m.replyTo r.module bytes bad

/-- A peer's request is applied (R31). Outside local HBM the manual gives no answer: what is read is free, what is written is dropped
(log entry 17). -/
def Mach.servePeer (m : Mach) (r : PeerIn) : Mach :=
  let m := { m with peerIn := m.peerIn.filter fun x => x.id ≠ r.id }
  if (r.req.ranges r.pa).all fun x => m.inHbm x.1 && m.inHbm (x.1 + x.2 - 1) then m.serveHome r
  else
    let (bs, m) := m.takeBytes (answerLen r.req)
    m.replyTo r.module bs false

/-! ## Order (R31) -/

/-- Places a peer's request accesses, with their bytes. -/
def PeerIn.spots (r : PeerIn) : List (Place × Nat) := (r.req.ranges r.pa).map fun x => (.dev x.1, x.2)

/-- Applies the requests that have arrived, each sender's in order: a write to a sealed unit waits at its gate (R161), any other
request its home holds back or returns waits (R50), and so does what its sender sent after it. -/
def Mach.drainPeers (m : Mach) (shut : List Nat) : List PeerIn → Mach
  | [] => m
  | r :: rs =>
    if shut.contains r.module then m.drainPeers shut rs
    else if r.req.writes && m.atGate r.spots then (m.meetGate (.peer r.id) r.spots).drainPeers (r.module :: shut) rs
    else if m.returned r.id || r.spots.any fun x => m.placeWaits r.req.writes x.1 then m.drainPeers (r.module :: shut) rs
    else (m.servePeer r).drainPeers shut rs

/-- Applies what can be applied now of peers' requests, of future operations held at their homes, and of the resolutions of lost
peers (R33). -/
def Mach.drain (m : Mach) : Mach := (m.drainPeers [] m.peerIn).retryCells.resolveLost

/-- Addresses of a request that name other bytes. -/
def PeerIn.mapAddr (f : Nat → Nat) (r : PeerIn) : PeerIn :=
  { r with
    pa := f r.pa
    req := match r.req with
      | .readTile rows n => .readTile (rows.map f) n
      | .writeTile rows n bs => .writeTile (rows.map f) n bs
      | q => q }

/-- Where an address a peer names lies once its page has moved (R161: a write sent again lands in the new frame; log entry 104). -/
def Mach.forwarded (m : Mach) (pa : Nat) : Nat :=
  match m.moved.find? fun r => r.1 ≤ pa && pa < r.1 + r.2.2 with
  | some r => r.2.1 + (pa - r.1)
  | none => pa

/-- `PEER_MEMORY_REQUEST` (R31). -/
def execPeerMemoryRequest (module pa : Nat) (req : PeerReq) (s : State) : Out :=
  s.on fun m =>
    if m.conn module ≠ .up then m
    else
      let r : PeerIn := ⟨m.serial, module, pa, req, m.mtime⟩
      ({ m with peerIn := m.peerIn ++ [r.mapAddr m.forwarded], serial := m.serial + 1 } : Mach).drain

/-! ## The ingress hold limit (R161, R162) -/

/-- SVCTL.HOLD in ns (R162). -/
def Mach.holdNs (m : Mach) : Nat := max (m.svctl.toNat / 2 ^ 24) 1 * 8000

/-- Requests of a sender from number n on go back to it: they leave the gates, and its link layer sends them again (R31). -/
def Mach.refuseFrom (m : Mach) (module n : Nat) : Mach :=
  let out := m.peerIn.filter fun x => x.module = module && n ≤ x.id
  { m with
    peerIn := m.peerIn.filter fun x => !out.contains x
    migs := m.migs.mapv fun _ u => { u with gate := u.gate.filter fun g => match g with
      | .peer id => !out.any fun x => x.id = id
      | _ => true }
    peerOut := m.peerOut ++ out.map fun x => PeerMsg.refuse x.module x.pa }

/-- `PEER_HOLD_EXPIRY` (R31, R161): a peer's write held at a gate beyond the limit is refused, with every later request of its
sender that is not applied. -/
def execPeerHoldExpiry (s : State) : Out :=
  s.on fun m =>
    match m.migs.get? s.subj.x with
    | none => m
    | some u =>
      let held := m.peerIn.find? fun r => r.module = s.subj.y && u.gate.contains (.peer r.id) && r.at_ + m.holdNs < m.mtime
      match held with
      | some r => m.refuseFrom r.module r.id
      | none => m

end Sys2Proof.Machine
end

