-- ==== Sys2Proof/Machine/Domains.lean ====
section
/-! DEFINITION. Interleave domains: start-up (R42), split and merge (R50, R51, R78). -/

namespace Sys2Proof.Machine

/-- A domain entry of a die. -/
def Mach.domain (m : Mach) (die k : Nat) : Domain := m.domains.getD (8 * die + k) Domain.inactive

/-- Sets a domain entry of a die. -/
def Mach.putDomain (m : Mach) (die k : Nat) (d : Domain) : Mach := { m with domains := m.domains.put (8 * die + k) d }

/-- Whether a local HBM address lies in the range of an entry. -/
def Domain.holds (d : Domain) (pa : Nat) : Bool := d.base ≤ pa / 2 ^ 30 && pa / 2 ^ 30 ≤ d.lim

/-! ## Checks (R51) -/

/-- Whether a split leaves every range covered once and no mask empty (R51). -/
def Mach.splitOk (m : Mach) (die k newEntry base : Nat) (mask : DWord) : Bool :=
  let d := m.domain die k
  die < 4 && k < 8 && d.st = .active && mask &&& ~~~d.mask = 0 && d.mask &&& ~~~mask ≠ 0 &&
    (newEntry = 255 || (newEntry < 8 && newEntry ≠ k && (m.domain die newEntry).st = .inactive && mask ≠ 0 &&
      d.base < dieBase die + base && dieBase die + base ≤ d.lim))

/-- Whether the ranges of two entries are adjacent. -/
def Domain.adjacent (a b : Domain) : Bool := a.lim + 1 = b.base || b.lim + 1 = a.base

/-- Whether a merge leaves every range covered once (R51); the slices it adds are in service (log entry 14). -/
def State.mergeOk (s : State) (die k absorb : Nat) (mask : DWord) : Bool :=
  let d := s.m.domain die k
  let e := s.m.domain die absorb
  die < 4 && k < 8 && d.st = .active && (setBits mask).all (fun n => !s.sys.hub.outOfService.contains ⟨2, die, n⟩) &&
    (absorb = 255 || (absorb < 8 && absorb ≠ k && e.st = .active && d.adjacent e))

/-! ## The start of a split or merge -/

/-- Pages pinned in the slices given become cached normally, each reported by HOME_CHANGE, whose DATA names the page
(R51, R84; its layout is not given, log entry 1). -/
def State.unpinSlices (s : State) (die : Nat) (mask : DWord) : State :=
  let hit := s.m.allLeaves.filter fun l =>
    pteHome l.2.entry = 2 && ptePin l.2.entry / 64 = die && mask.getLsbD (ptePin l.2.entry % 64)
  let s := s.updM fun m =>
    let mem := hit.foldl (fun mem (l : Nat × Leaf) =>
      Memory.writeN mem l.2.at_ (natBytes 8 (l.2.entry % 2 ^ 56 - 2 * 2 ^ 5))) m.mem
    { ((m.dropTlb fun t => hit.any fun l => l.1 = t.asid && l.2.va = t.va).setMem mem) with
      pins := m.pins.filter fun p => p.inLs || p.tgt / 64 ≠ die || !mask.getLsbD (p.tgt % 64) }
  hit.foldl (fun s l => s.event [0] 0x0008 (Config.eventData [0x0008, l.1, l.2.va, pteAddr l.2.entry])) s

/-- An entry starts to change: WRITEBACK, every replica of its lines invalid (R50). -/
def Mach.enterWriteback (m : Mach) (die k : Nat) (newBase newLim : Nat) (newMask : DWord) (partner : Option Nat) : Mach :=
  let d := m.domain die k
  let m := m.putDomain die k { d with
    st := .writeback, newBase := newBase, newLim := newLim, newMask := newMask, partner := partner }
  let mine (k : Nat) : Bool := regionOf (k / 4 * 128) = .hbm && d.holds (k / 4 * 128)
  { m with
    l2 := m.l2.sift fun k _ => !(mine k && (m.replicas.get? k).isSome)
    replicas := m.replicas.sift fun k _ => !mine k }

/-- A split starts (R50): at most one split or merge per die at a time (R78). -/
def State.startSplit (s : State) (die k newEntry base : Nat) (mask : DWord) : State :=
  let s := s.unpinSlices die mask
  let d := s.m.domain die k
  let rest := d.mask &&& ~~~mask
  let s := s.updM fun m =>
    if newEntry = 255 then m.enterWriteback die k d.base d.lim rest none
    else
      let b := dieBase die + base
      (m.enterWriteback die k d.base (b - 1) rest (some newEntry)).putDomain die newEntry
        { m.domain die newEntry with newBase := b, newLim := d.lim, newMask := mask, partner := some k }
  s.updHub fun h => { h with splitting := h.splitting.put die k }

/-- A merge starts (R50). -/
def State.startMerge (s : State) (die k absorb : Nat) (mask : DWord) : State :=
  let d := s.m.domain die k
  let s := s.updM fun m =>
    if absorb = 255 then m.enterWriteback die k d.base d.lim (d.mask ||| mask) none
    else
      let e := m.domain die absorb
      (m.enterWriteback die k (min d.base e.base) (max d.lim e.lim) (d.mask ||| e.mask ||| mask) (some absorb)).enterWriteback
        die absorb e.base e.lim 0 (some k)
  s.updHub fun h => { h with splitting := h.splitting.put die k }

/-- A split or merge command: it waits for one under way on its die (R78), and completes when its own is over. -/
def State.domainCommand (s : State) (h : CmdHdr) (opcode die : Nat) (chk : Status) (start : State → State) : Out :=
  let free := (s.sys.hub.splitting.get? die).isNone
  if s.begun h then (if free then .next (s.complete h opcode .ok 0) else .next s)
  else if s.mayBegin h && s.precheck h false none = .ok && (!free || chk = .ok) then
    if free then .next ((start s).begin h []) else .next s
  else s.command h opcode false none chk fun s => (s, 0)

/-- `DOMAIN_SPLIT` (R50, R51): one that R51 refuses completes with INVALID; R51 says only that it completes with an error status (DESIGN
CHOICE, log entry 123). -/
def execDomainSplit (h : CmdHdr) (die k newEntry base : Nat) (mask : DWord) (s : State) : Out :=
  s.domainCommand h 0x48 die (if s.m.splitOk die k newEntry base mask then .ok else .invalid) fun s =>
    s.startSplit die k newEntry base mask

/-- `DOMAIN_MERGE` (R50, R51). -/
def execDomainMerge (h : CmdHdr) (die k absorb : Nat) (mask : DWord) (s : State) : Out :=
  s.domainCommand h 0x49 die (if s.mergeOk die k absorb mask then .ok else .invalid) fun s => s.startMerge die k absorb mask

/-! ## The states of R50 -/

/-- `DOMAIN_WRITEBACK_DONE` (R50): every dirty line of the range is written back, and the entry enters SWITCH. -/
def execDomainWritebackDone (s : State) : Out :=
  s.on fun m =>
    let (die, k) := (s.subj.x, s.subj.y)
    let d := m.domain die k
    if d.st ≠ .writeback then m
    else
      let ls := m.dirty.filter fun l => d.holds (l * 128)
      let m := { m with dirty := m.dirty.filter fun l => !ls.contains l }
      let m := ((ls.map (· / 4)).eraseDups).foldl (fun m b => m.packBlock b (m.cmpAt (b * 512))) m
      m.putDomain die k { d with st := .switch, since := m.serial }

/-- The places a request of an operation under way goes to (R50): its own, its reduction slot, the entries and factors of its adapters,
the line of a fetch. -/
def Mach.requestsOf (m : Mach) (o : Op) : List Place :=
  (o.kind.spots ++ m.targetsOf o).map (·.1) ++ m.adapterSpots o ++ match o.kind with
    | .fetch _ pa _ => [.dev pa]
    | _ => []

/-- Requests sent before the switch to lines of an entry whose home slice it changes, not yet performed (R50): of operations, stores and
peers. -/
def Mach.staleFor (m : Mach) (old new : Domain) (since : Nat) : List Nat :=
  let moved (p : Place) : Bool := match p with
    | .dev pa => regionOf pa = .hbm && old.holds pa && new.holds pa && (m.pinAt pa).isNone && sliceOf old.mask pa ≠ sliceOf new.mask pa
    | .ls .. => false
  let ops := (m.ops.filter fun o => o.1 < since && (m.requestsOf o.2).any moved).map (·.1)
  let peers := (m.peerIn.filter fun r => r.id < since && r.spots.any fun x => moved x.1).map (·.id)
  ops ++ peers ++ (m.cores.flatMap fun c => c.2.stores.filter fun x => x.id < since && !x.done && moved x.place).map fun x => x.id

/-- An entry takes its new range and mask, GEN toggled (R50): REPLAY, or INACTIVE where it has been absorbed; every slice of the old
mask has invalidated its lines of the range. -/
def Mach.switchEntry (m : Mach) (die k : Nat) (old : Domain) : Mach :=
  let d := m.domain die k
  let e := { d with
    base := d.newBase, lim := d.newLim, mask := d.newMask, gen := !d.gen, partner := none
    st := if d.newMask = 0 then DomSt.inactive else .replay }
  let m := m.putDomain die k (if d.newMask = 0 then { e with base := 0, lim := 0 } else { e with stale := m.staleFor old e old.since })
  let gone (l : Nat) : Bool := regionOf (l * 128) = .hbm && old.holds (l * 128) && (m.pinAt (l * 128)).isNone
  { m with l2 := m.l2.sift fun k _ => !(k % 4 = die && gone (k / 4)) }

/-- `DOMAIN_SWITCH_DONE` (R50): the new masks are installed in every NI, and held requests leave. No tile lock is held: a tile
operation is one step here. The new entry of a split goes from INACTIVE straight to REPLAY, its GEN toggled: the manual does not say
which states it passes through (DESIGN CHOICE, log entry 93). -/
def execDomainSwitchDone (s : State) : Out :=
  s.on fun m =>
    let (die, k) := (s.subj.x, s.subj.y)
    let d := m.domain die k
    if d.st ≠ .switch then m
    else match d.partner with
      | none => (m.switchEntry die k d).drain
      | some p =>
        let e := m.domain die p
        if e.st = .writeback then m
        else if e.st = .switch then
          let (a, x, b, y) := if d.newMask = 0 then (p, e, k, d) else (k, d, p, e)
          let m := (m.switchEntry die b y).switchEntry die a x
          let z := m.domain die a
          (m.putDomain die a { z with stale := (z.stale ++ m.staleFor y z y.since).eraseDups }).drain
        else ((m.switchEntry die k d).switchEntry die p d).drain

/-- `STALE_GEN_RETURN` (R50): a request with the old GEN is returned, and goes to the new home. -/
def execStaleGenReturn (s : State) : Out :=
  s.on fun m =>
    let d := m.domain s.subj.x s.subj.y
    if d.st = .replay then m.putDomain s.subj.x s.subj.y { d with stale := d.stale.drop 1 } else m

/-- `DOMAIN_REPLAY_DONE` (R50): PEND is zero; the split or merge is over once no entry of the die changes. -/
def execDomainReplayDone (s : State) : Out :=
  let (die, k) := (s.subj.x, s.subj.y)
  let d := s.m.domain die k
  if d.st = .replay && d.stale = [] then
    let s := s.updM fun m => m.putDomain die k { d with st := .active }
    let over_ := !(s.m.domains.any fun e => e.1 / 8 = die && (e.2.st matches .writeback | .switch | .replay))
    .next (if over_ then s.updHub fun h => { h with splitting := h.splitting.del die } else s)
  else .next s

end Sys2Proof.Machine
end

