-- ==== Sys2Proof/Machine/Migrations.lean ====
section
/-! DEFINITION. Page migration (R160, R161): which pages leave a freed range, where they go, the gate and the switch. -/

namespace Sys2Proof.Machine

/-! ## Ranges and frames (R160) -/

/-- Bytes of a stack (R41) and of a channel (R15). -/
def stackBytes : Nat := 0xC00000000
/-- Bytes of a channel (R15): 1.5 GiB. -/
def channelBytes : Nat := 0x60000000

/-- The highest 1.5 GiB of a stack's range that has not left the pool (R160). -/
def Mach.shrinkBase (m : Mach) (stack : Nat) : Nat :=
  let gone := (m.freed.filter fun r => r.1 / stackBytes = stack).length
  stackBytes * (stack + 1) - channelBytes * (gone + 1)

/-- Whether two ranges of addresses meet. -/
def rangesMeet (a n b k : Nat) : Bool := a < b + k && b < a + n

/-- Frames in use: those of every MAP, and those pages under migration go to. -/
def Mach.usedFrames (m : Mach) : List (Nat × Nat) :=
  (m.allLeaves.map fun l => (pteAddr l.2.entry, l.2.size)) ++ m.migs.map fun u => (u.2.new, u.2.size)

/-- The lowest free frame of a size in a stack, below the range that leaves it (R160). -/
def Mach.freeFrame (m : Mach) (used : List (Nat × Nat)) (stack size lim : Nat) : Option Nat :=
  let base := stackBytes * stack
  ((List.range ((lim - base) / size)).map fun i => base + size * i).find? fun a =>
    !(used.any fun r => rangesMeet a size r.1 r.2) && !(m.freed.any fun r => rangesMeet a size r.1 r.2)

/-- Stacks in the order a page of one looks for a frame (R160). -/
def stackOrder (stack : Nat) : List Nat := stack :: (List.range 16).filter (· ≠ stack)

/-- The frame a page moves to: in its own stack below the range that leaves, else in the lowest stack with one. -/
def Mach.newFrameFor (m : Mach) (stack size lim : Nat) : Option Nat :=
  let used := m.usedFrames
  (stackOrder stack).findSome? fun k => m.freeFrame used k size (if k = stack then lim else stackBytes * (k + 1))

/-- The pages mapped into a range, each frame once: its address, size and the pages that map it. -/
def Mach.framesIn (m : Mach) (base n : Nat) : List (Nat × Nat × List (Nat × Nat)) :=
  let hit := m.allLeaves.filter fun l => rangesMeet (pteAddr l.2.entry) l.2.size base n
  let frames := (hit.map fun l => (pteAddr l.2.entry, l.2.size)).eraseDups
  frames.map fun f => (f.1, f.2, (hit.filter fun l => pteAddr l.2.entry = f.1 && l.2.size = f.2).map fun l => (l.1, l.2.va))

/-- Lines of a range end as replicas (R161). -/
def Mach.dropRange (m : Mach) (pa n : Nat) : Mach :=
  let mine (k : Nat) : Bool := pa ≤ k / 4 * 128 && k / 4 * 128 < pa + n
  { m with
    l2 := m.l2.sift fun k _ => !(mine k && (m.replicas.get? k).isSome)
    replicas := m.replicas.sift fun k _ => !mine k }

/-- Seals a unit for its move (R161): its replicas end. -/
def Mach.seal (m : Mach) (old new size : Nat) (pages : List (Nat × Nat)) (rest : Nat) : Mach :=
  let m := m.dropRange old size
  { m with serial := m.serial + 1, migs := m.migs.put m.serial ⟨old, new, size, pages, [], rest⟩ }

/-- Starts the moves out of a range (R160): a page with no free frame is unmapped, and UNCORRECTABLE names its address. -/
def State.startMoves (s : State) (stack base : Nat) : State :=
  (s.m.framesIn base channelBytes).foldl (fun s f =>
    match s.m.newFrameFor stack f.2.1 base with
    | some new => s.updM fun m => m.seal f.1 new f.2.1 f.2.2 0
    | none =>
      (s.updM fun m => f.2.2.foldl (fun m p => m.unmap p.1 p.2 f.2.1) m).event [0] 0x0005 (.ofNat 64 f.1)) s

/-- Starts the copy of a stack's blocks below an address, block by block (R148, R160 step 2). -/
def Mach.startCopy (m : Mach) (stack lim : Nat) : Mach :=
  let base := stackBytes * stack
  if base + 512 ≤ lim then m.seal base base 512 [] (lim - base - 512) else m

/-- Whether blocks of a stack are being copied. -/
def Mach.copying (m : Mach) (stack : Nat) : Bool := m.migs.any fun u => u.2.pages = [] && stackOf u.2.old = stack

/-! ## The switch (R161) -/

/-- A physical address after the switch of a page. -/
def movedAddr (old new size pa : Nat) : Nat := if old ≤ pa && pa < old + size then new + (pa - old) else pa

/-- A place after the switch of a page. -/
def Place.moved (old new size : Nat) : Place → Place
  | .dev pa => .dev (movedAddr old new size pa)
  | p => p

/-- An operation after the switch of a page: what had waited at the gate goes to the new frame (R161). -/
def OpKind.moved (old new size : Nat) (k : OpKind) : OpKind :=
  let f := Place.moved old new size
  let g := movedAddr old new size
  match k with
  | .load x => .load { x with lanes := x.lanes.map fun a => { a with place := f a.place } }
  | .atomic x => .atomic { x with lanes := x.lanes.map fun a => { a with acc := { a.acc with place := f a.acc.place } } }
  | .tile x => .tile { x with rows := x.rows.map f }
  | .purge d rs => .purge d (rs.map fun r => (g r.1, r.2))
  | .resolve cell v d => .resolve (cell.map g) v d
  | .engine x => .engine { x with rows := x.rows.map fun r => (f r.1, f r.2.1, r.2.2) }
  | .stage x => .stage { x with rows := x.rows.map f }
  | .coll x => .coll { x with src := x.src.map fun p => (f p.1, p.2), dst := x.dst.map fun p => (f p.1, p.2) }
  | .mma x => .mma { x with a := x.a.map f, b := x.b.map f }
  | .ctxSave t r d => .ctxSave t (g r) d
  | .ctxLoad t r d => .ctxLoad t (g r) d
  | .frecRd pa bs => .frecRd (g pa) bs
  | k => k

/-- What a path waits for after the switch of a page. -/
def Path.moved (old new size : Nat) (p : Path) : Path :=
  match p.st with
  | .waiting (.join cell va t d act) => { p with st := .waiting (.join (movedAddr old new size cell) va t d act) }
  | _ => p

/-- Lines of a range leave every cache: the slices, the L1Ds, the instruction caches. -/
def Mach.purgeRange (m : Mach) (pa n : Nat) : Mach :=
  let m := (m.flushRange pa n).dropL1d pa n
  { m with cores := m.cores.mapv fun _ c => { c with icache := c.icache.sift fun u _ => !(pa ≤ u * 8 && u * 8 < pa + n) } }

/-- Copies the bytes of a page, their poison and how their blocks are stored to its new frame; the old one is dropped (R53, R155,
R161). Copies the host holds of lines of the new frame are snooped out (R26). -/
def Mach.copyFrame (m : Mach) (old new size : Nat) : Mach :=
  let m := (m.purgeRange old size).purgeRange new size
  let inOld (a : Nat) : Bool := old ≤ a && a < old + size
  let inNew (a : Nat) : Bool := new ≤ a && a < new + size
  let shift (l : Nat) : Nat := movedAddr old new size (l * 128) / 128
  let mem := Memory.clear (Memory.clear m.mem new size) old size
  { m with
    mem := (m.mem.filter fun c => inOld c.1).foldl (fun mem c => Memory.write mem (new + (c.1 - old)) c.2) mem
    poison := (m.poison.filter fun l => !inNew (l * 128)).map shift
    blocks := (m.blocks.filter fun b => inOld (b.1 * 512)).foldl
      (fun t b => t.put (movedAddr old new size (b.1 * 512) / 512) b.2)
      (m.blocks.sift fun b _ => !inOld (b * 512) && !inNew (b * 512))
    relcore := m.relcore.foldl (fun t e => t.put (shift e.1) e.2) []
    hostOut := m.hostOut ++ (m.hostCopies.filter fun l => inNew (l * 128)).map .backInvalidate
    hostCopies := m.hostCopies.filter fun l => !inNew (l * 128) }

/-- The entries of a page name its new frame, and the TLB entries of them are gone (R161). -/
def Mach.remap (m : Mach) (old new size : Nat) (pages : List (Nat × Nat)) : Mach :=
  let g := movedAddr old new size
  let ls := pages.flatMap fun p => (m.leaves p.1 p.2 1).filter fun l => pteAddr l.entry = old
  let mem := ls.foldl (fun mem (l : Leaf) => Memory.writeN mem l.at_ (natBytes 8 (l.entry - old + new))) m.mem
  { ((m.dropTlb fun t => pages.any fun p => p.1 = t.asid && p.2 = t.va).setMem mem) with
    pins := m.pins.map fun p => { p with pa := g p.pa }
    uncached := m.uncached.map fun r => (g r.1, r.2)
    cmps := m.cmps.map fun r => (g r.1, r.2)
    moved := (m.moved.map fun r => (r.1, g r.2.1, r.2.2)) ++ [(old, new, size)] }

/-- Everything that names an address of the old frame names the new one. -/
def Mach.retarget (m : Mach) (old new size : Nat) : Mach :=
  let f := Place.moved old new size
  let g := movedAddr old new size
  { m with
    ops := m.ops.mapv fun _ o => { o with kind := o.kind.moved old new size }
    cores := m.cores.mapv fun _ c => { c with stores := c.stores.map fun x => { x with place := f x.place } }
    tasks := m.tasks.mapv fun _ t => { t with
      run := t.run.map (Path.moved old new size), paths := t.paths.map (Path.moved old new size) }
    teams := m.teams.mapv fun _ t => { t with image := t.image.map fun i => if i.phys then { i with addr := g i.addr } else i }
    peerIn := m.peerIn.map (PeerIn.mapAddr g)
    launches := m.launches.mapv fun _ l => { l with redctx := l.redctx.mapv fun _ r =>
      { r with dst := g r.dst, buf := r.buf.map fun b => (g b.1, b.2) } } }

/-- A write that waited at a gate happens (R161). One that another sealed unit holds waits there. -/
def State.passGate (s : State) : Gated → State
  | .store core id => s.updM fun m => m.performStore core id
  | .op n => match s.m.ops.get? n with
    | none => s
    | some o => if o.kind matches .engine _ then s.updM fun m => m.engineDone n else s.completeOp n o ⟨true, true, []⟩
  | .cell id => s.updM fun m => m.retryCell id
  | .peer id => s.updM fun m => match m.peerIn.find? fun r => r.id = id with
    | none => m
    | some r => if m.atGate r.spots then m.meetGate (.peer id) r.spots else m.servePeer r

/-- The copy of a stack's blocks goes on past a unit, with n more blocks copied meanwhile (R160 step 2). -/
def Mach.nextBlock (m : Mach) (u : Migration) (n : Nat) : Mach :=
  let skip := 512 * (1 + n)
  if u.pages = [] && skip ≤ u.rest then (m.dropRange u.old skip).seal (u.old + skip) (u.old + skip) 512 [] (u.rest - skip) else m

/-- `MIGRATION_SWITCH` (R161): the page lies in its new frame, or the block on its new channel; what waited at the gate is applied
there in its order of arrival. A block's switch seals the next block of its stack; the subject's z says how many blocks were copied
in between. -/
def execMigrationSwitch (s : State) : Out :=
  match s.m.migs.get? s.subj.x with
  | none => .next s
  | some u =>
    let s := s.updM fun m =>
      let m := if u.pages = [] then m
        else ((m.remap u.old u.new u.size u.pages).copyFrame u.old u.new u.size).retarget u.old u.new u.size
      { m with migs := m.migs.del s.subj.x }
    .next ((u.gate.foldl State.passGate s).updM fun m => (m.nextBlock u s.subj.z).drain)

end Sys2Proof.Machine
end

