-- ==== Sys2Proof/Machine/Leases.lean ====
section
/-! DEFINITION. Scores, errors, scrubbing (R55-R57, R144, R145, R155), test leases and retirement (R146-R152). -/

namespace Sys2Proof.Machine

/-! ## Physical units and spares (R15) -/

/-- Whether R437 gives a unit these numbers; lane 8 of a peer link is its spare lane. -/
def unitNamed (u : UnitRef) : Bool :=
  match u.kind with
  | 0 | 2 => u.die < 4 && u.unit < 64
  | 1 => u.die < 4 && u.unit < 16
  | 3 => u.die < 4 && u.unit < 128
  | 4 => u.die < 4 && (u.unit < 48 || (64 ≤ u.unit && u.unit < 112) || (128 ≤ u.unit && u.unit < 144))
  | 5 => u.die < 8 && u.unit < 9
  | _ => false

/-- Physical number of a unit (R15): 34 channels are built per stack, the last two of them spare (log entry 15). -/
def Mach.physOf (m : Mach) (u : UnitRef) : Nat :=
  m.phys.getD (unitCode u) (if u.kind = 3 then 34 * (u.unit / 32) + u.unit % 32 else u.unit)

/-- Physical numbers of a kind the log retires on a die (R89). -/
def State.retiredPhys (s : State) (kind die : Nat) : List Nat :=
  (s.sys.flash.records.filter fun r => r.u.kind = kind && r.u.die = die).map (·.phys)

/-- Physical numbers of a kind that logical units of a die hold. -/
def Mach.assignedPhys (m : Mach) (kind die : Nat) : List Nat :=
  ((List.range (if kind = 3 then 128 else if kind = 1 then 16 else 64)).map fun n => m.physOf ⟨kind, die, n⟩)

/-- Whether a built core of a die is a spare no unit holds (R15). -/
def State.coreSpare (s : State) (die p : Nat) : Bool :=
  bit (s.sys.flash.identity.built.getD die 0) p && !(s.m.assignedPhys 0 die).contains p && !(s.retiredPhys 0 die).contains p &&
    !(s.retiredPhys 1 die).contains (p / 4)

/-- The physical spare that would replace a unit (R15): the lowest, none where none is left. -/
def State.findSpare (s : State) (u : UnitRef) : Option Nat :=
  let free (p : Nat) : Bool := !(s.m.assignedPhys u.kind u.die).contains p && !(s.retiredPhys u.kind u.die).contains p
  match u.kind with
  | 0 => (List.range 68).find? (s.coreSpare u.die)
  | 1 => (List.range 17).find? fun c => free c && (List.range 4).all fun i => s.coreSpare u.die (4 * c + i)
  | 2 => (List.range 68).find? fun p => bit (s.sys.flash.identity.builtSlices.getD u.die 0) p && free p
  | 3 => (List.range 136).find? fun p => p / 34 = u.unit / 32 && free p
  | 4 => if s.sys.hub.usedSpares.contains (unitCode u) then none else some u.unit
  | 5 => if s.sys.hub.usedSpares.contains (unitCode ⟨5, u.die, 0⟩) || u.unit = 8 || (s.retiredPhys 5 u.die).contains 8 then none
    else some 8
  | _ => none

/-- A lane moves onto the spare lane of its group or link (R14, R29): a peer lane's physical number is 8 from then on (R437). -/
def State.moveLane (s : State) (u : UnitRef) : State :=
  let s := s.updHub fun h => { h with usedSpares := insertNat (unitCode (scoredUnit u)) h.usedSpares }
  if u.kind = 5 then s.updM fun m => { m with phys := m.phys.put (unitCode u) 8 } else s

/-- A spare takes the place of a unit, with score 0 (R16, R144). -/
def State.bringIn (s : State) (u : UnitRef) (spare : Nat) : State :=
  let put (m : Mach) (u : UnitRef) (p : Nat) : Mach := { m with phys := m.phys.put (unitCode u) p }
  let s := s.updHub fun h => h.setScore u 0
  match u.kind with
  | 1 => (s.updM fun m => (List.range 4).foldl (fun m i => put m ⟨0, u.die, 4 * u.unit + i⟩ (4 * spare + i)) (put m u spare)).updHub
      fun h => (List.range 4).foldl (fun h i => h.setScore ⟨0, u.die, 4 * u.unit + i⟩ 0) h
  | 4 | 5 => s.moveLane u
  | _ => s.updM fun m => put m u spare

/-- Scores as written to the service store (R88, R144). -/
def State.saveScores (s : State) : State :=
  { s with sys := { s.sys with flash := s.sys.flash.writeService s.sys.rom ⟨s.sys.hub.scores, s.sys.flash.stored.mtime⟩ } }

/-! ## Policy limits (R146) -/

/-- The die a unit's lease counts on; peer links count on the hub die, number 4 (R146). -/
def leaseDie (u : UnitRef) : Nat := if u.kind = 5 then 4 else u.die

/-- The logical number a tie of scores goes by (R146): a link's, with the lane, or the unit's. -/
def leaseNumber (u : UnitRef) : Nat := if u.kind = 5 then 16 * u.die + u.unit else u.unit

/-- Whether the limits of R146 allow a REQUESTED lease to start. -/
def State.leaseMayStart (s : State) (n : Nat) (l : Lease) : Bool :=
  let h := s.sys.hub
  let same := h.leases.filter fun x => leaseDie x.2.u = leaseDie l.u
  let ahead := same.any fun x => x.1 ≠ n && x.2.st = .requested &&
    (h.score l.u < h.score x.2.u || (h.score l.u = h.score x.2.u && leaseNumber x.2.u < leaseNumber l.u))
  let last := h.leaseStart.get? (leaseDie l.u)
  l.st = .requested && (same.filter fun x => x.2.st ≠ .requested).length < h.policy.inflight && !ahead &&
    last.all fun t => t + h.policy.interval * 1000000 ≤ s.m.mtime

/-- `LEASE_NOW` (R146): RESULT is the lease number. -/
def execLeaseNow (h : CmdHdr) (u : UnitRef) (s : State) : Out :=
  let known := unitNamed u && !s.sys.hub.unitGone u
  s.command h 0x31 false none (if !known then .invalid else if (s.sys.hub.requestLease u).1 = 0 then .noResource else .ok) fun s =>
    let (n, hub) := s.sys.hub.requestLease u
    (s.updHub fun _ => hub, n)

/-! ## Draining (R148) -/

/-- Cores a core or cluster lease withdraws. -/
def leaseCores (u : UnitRef) : List Nat :=
  match u.kind with
  | 0 => [64 * u.die + u.unit]
  | 1 => (List.range 4).map fun i => 64 * u.die + 4 * u.unit + i
  | _ => []

/-- The domain entry of a die that holds a slice. -/
def Mach.sliceEntry (m : Mach) (die slice : Nat) : Option Nat :=
  (List.range 8).find? fun k => (m.domain die k).st ≠ .inactive && (m.domain die k).mask.getLsbD slice

/-- The hub splits a leased slice out of its domain, once no other split or merge of the die is under way (R78, R148). -/
def State.splitOut (s : State) (n : Nat) (l : Lease) : State :=
  match s.m.sliceEntry l.u.die l.u.unit with
  | none => s
  | some k =>
    let mask : DWord := .ofNat 64 (2 ^ l.u.unit)
    if (s.sys.hub.splitting.get? l.u.die).isSome || !s.m.splitOk l.u.die k 255 0 mask then s
    else (s.startSplit l.u.die k 255 0 mask).updHub fun h => { h with leases := h.leases.put n { l with entry := some k } }

/-- A peer connection changes state: capacity, and an event whose DATA names peer and state (R32, R84, R153; its layout is not given,
log entry 1). -/
def State.setConn (s : State) (module : Nat) (c : Conn) : State :=
  if s.m.conn module = c then s
  else ((s.updM fun m => { m with peers := m.peers.put module c }).capacityChange ⟨6, 0, module⟩).event [0] 0x0003
    (Config.eventData [0x0003, 6, module, c.code])

/-- A peer is lost (R33, R164, R330, R373): operations that wait for it end, stores to it are reported by the next release,
its remote futures resolve FAULTED(REMOTE_UNAVAILABLE). -/
def Mach.losePeer (m : Mach) (p : Nat) : Mach :=
  let m := m.ops.foldl (fun m o =>
    if o.2.unanswered && (m.peersOf o.2).contains p then m.loseOp (fun q => q = p) o.1 o.2 else m) m
  (m.loseStores fun x => x.place.peer? = some p).resolveLost

/-- A connection enters DOWN (R32, R33). -/
def State.loseConn (s : State) (p : Nat) : State := (s.setConn p .down).updM fun m => m.losePeer p

/-- A connection left without a link enters DOWN (R32). -/
def State.dropLinkless (s : State) (p : Nat) : State :=
  if (s.m.conn p = .up || s.m.conn p = .recovering) && !s.m.links.any (fun l => l.2 = p) then s.loseConn p else s

/-- The module whose connection a leased peer link leaves without a lane: no spare lane and no bonded partner (R148). -/
def State.loneLink (s : State) (u : UnitRef) : Option Nat :=
  if u.kind ≠ 5 || (s.findSpare u).isSome then none
  else match s.m.links.get? u.die with
    | some p => if s.m.links.any fun l => l.1 ≠ u.die && l.2 = p then none else some p
    | none => none

/-- Requests without a deadline to the teams resident on the cores a lease withdraws (R148); a cluster's wait for the collectives it is
a member of (R63). -/
def State.drainCores (s : State) (u : UnitRef) : State :=
  if u.kind = 1 && s.m.collOn (16 * u.die + u.unit) then s
  else (leaseCores u).foldl (fun s c =>
    ((s.m.teamsOn c).filter fun t => t.2.res = .resident).foldl (fun s t => s.preempt t.1 none) s) s

/-- A lease enters DRAINING (R147, R148): capacity changes, resident teams get requests, a slice is split out, a lone peer link leaves
its connection RECOVERING. -/
def State.beginDrain (s : State) (n : Nat) (l : Lease) : State :=
  let s := s.updHub fun h => { h with
    leases := h.leases.put n { l with st := .draining }
    outOfService := if h.outOfService.contains l.u then h.outOfService else h.outOfService ++ [l.u]
    leaseStart := h.leaseStart.put (leaseDie l.u) s.m.mtime }
  let s := (s.capacityChange l.u).drainCores l.u
  let s := if l.u.kind = 2 then s.splitOut n { l with st := .draining } else s
  match s.loneLink l.u with
  | some p => if s.m.conn p = .up then s.setConn p .recovering else s
  | none => s

/-- `LEASE_START` (R147). -/
def execLeaseStart (s : State) : Out :=
  match s.sys.hub.leases.get? s.subj.x with
  | some l => .next (if s.leaseMayStart s.subj.x l then s.beginDrain s.subj.x l else s)
  | none => .next s

/-- Whether a core is drained (R148): no team resident, no range lock. -/
def Mach.coreDrained (m : Mach) (core : Nat) : Bool :=
  !((m.teamsOn core).any fun t => t.2.holds) && (m.core core).locks.isEmpty

/-- Whether a unit meets the conditions of R148. -/
def State.drainedUnit (s : State) (u : UnitRef) : Bool :=
  match u.kind with
  | 0 => (leaseCores u).all s.m.coreDrained
  | 1 => (leaseCores u).all s.m.coreDrained && !s.m.collOn (16 * u.die + u.unit)
  | 2 => (s.m.sliceEntry u.die u.unit).isNone && (s.sys.hub.splitting.get? u.die).isNone
  | _ => true

/-- Writes out every valid slot of a core (R148). -/
def Mach.flushSlots (m : Mach) (core : Nat) : Mach :=
  (List.range 64).foldl (fun m p => if ((m.core core).ownerOf p).v then m.spillSlot core p else m) m

/-- The patterns overwrite what a core stores (R149). -/
def Mach.testCore (m : Mach) (core : Nat) : Mach :=
  m.updCore core fun c => { c with l1d := [], icache := [], tlb := [], acc := [], accTwin := [], lastUse := [] }

/-- The patterns overwrite what a slice stores (R149): lines it still holds for others have left. -/
def Mach.testSlice (m : Mach) (die slice : Nat) : Mach :=
  ((m.l2.filter fun e => e.1 % 4 = die && e.2 = slice).map (·.1)).foldl Mach.l2Evict m

/-- What a test overwrites of a unit (R149); a core's accumulator slots are written to their save regions first (R148). -/
def Mach.testUnit (m : Mach) (u : UnitRef) : Mach :=
  if u.kind = 2 then m.testSlice u.die u.unit else (leaseCores u).foldl (fun m c => (m.flushSlots c).testCore c) m

/-- Stack of a channel. -/
def chanStack (u : UnitRef) : Nat := 4 * u.die + u.unit / 32

/-- The end of a stack's pool: what channels retired without a spare have left of it (R160). -/
def Mach.poolEnd (m : Mach) (stack : Nat) : Nat := m.shrinkBase stack + channelBytes

/-- A channel's evacuation (R148): the blocks of its stack are copied one by one, then the spare serves. -/
def State.evacuate (s : State) (n : Nat) (l : Lease) (spare : Nat) : State :=
  if s.m.copying (chanStack l.u) then s
  else if !l.copying then
    (s.updM fun m => m.startCopy (chanStack l.u) (m.poolEnd (chanStack l.u))).updHub fun h =>
      { h with leases := h.leases.put n { l with copying := true } }
  else
    let old := s.m.physOf l.u
    (s.updM fun m => { m with phys := m.phys.put (unitCode l.u) spare }).updHub fun h =>
      { h.setScore l.u 0 with
        leases := h.leases.put n { l with st := .testing, copying := false, entry := some old, score := h.score l.u } }

/-- `LEASE_DRAIN_DONE` (R148): TESTING; a channel with a spare is evacuated onto it first, one without has a forced scrub pass (R149); a
unit condemned by an uncorrectable error goes on to RETIRING without a test (R151). -/
def execLeaseDrainDone (s : State) : Out :=
  let n := s.subj.x
  match s.sys.hub.leases.get? n with
  | none => .next s
  | some l =>
    if l.st ≠ .draining then .next s
    else if !s.drainedUnit l.u then .next (if l.u.kind = 2 then s.splitOut n l else s.drainCores l.u)
    else match if l.u.kind = 3 then s.findSpare l.u else none with
      | some p => .next (s.evacuate n l p)
      | none => .next ((s.updM fun m => m.testUnit l.u).updHub fun h => { h with
          leases := h.leases.put n { l with st := if l.fail then .retiring else .testing, copying := false }
          forced := if l.u.kind = 3 then insertNat (chanStack l.u) h.forced else h.forced })

/-- Whether a test's result fails its unit (R149); `only`: a read-only test of a channel. -/
def TestResult.fails (r : TestResult) (kind : Nat) (only : Bool) : Bool :=
  match kind with
  | 3 => r.uncorrectable || (if only then 64 else 16) < r.corrected
  | 4 | 5 => !r.trained || r.bits < r.bitErrors * 10 ^ 12
  | _ => r.mismatch || r.uncorrectable

/-- `LEASE_TEST_DONE` (R145, R149): the verdict on what the test found; a read-only test of a channel found what its scrub pass
counted. -/
def execLeaseTestDone (lease : Nat) (r : TestResult) (s : State) : Out :=
  match s.sys.hub.leases.get? lease with
  | none => .next s
  | some l =>
    let only := l.u.kind = 3 && l.entry.isNone
    match if only then s.sys.hub.tested.get? lease else some r with
    | none => .next s
    | some r =>
      if l.st ≠ .testing then .next s
      else
        let fail := TestResult.fails r l.u.kind only
        .next (s.updHub fun h => { h.passScore l fail with
          leases := h.leases.put lease { l with st := if fail then .retiring else .returning, fail := fail }
          tested := h.tested.del lease })

/-! ## The end of a lease (R150, R151) -/

/-- A lease has ended: scores are written, LEASE_RESULT is posted. -/
def State.endLease (s : State) (n : Nat) (u : UnitRef) (retired : Bool) : State :=
  let s := (s.updHub fun h => { h with leases := h.leases.del n }).saveScores
  (s.event [0] 0x0006 (unitData u (n + retired.toNat * 2 ^ 16))).updHub Hub.seekLeases

/-- A unit serves again (R147): its cores accept residency at the next window boundary (R150). -/
def Hub.serves (h : Hub) (u : UnitRef) : Hub :=
  { h with outOfService := h.outOfService.filter (· ≠ u), resting := h.resting ++ leaseCores u }

/-- A unit is back in service (R147, R150). -/
def State.backIn (s : State) (u : UnitRef) : State := (s.updHub fun h => h.serves u).capacityChange u

/-- The entry a slice goes back into: the one it left, or an active one of its die where that is gone. -/
def Mach.mergeEntry (m : Mach) (l : Lease) : Option Nat :=
  match l.entry with
  | none => none
  | some k => if (m.domain l.u.die k).st = .active then some k
    else (List.range 8).find? fun k => (m.domain l.u.die k).st = .active

/-- The merge of a slice back into its domain begins (R150, R151): none where it had none, `none` where it must wait. -/
def State.mergeBack (s : State) (n : Nat) (l : Lease) : State :=
  match s.m.mergeEntry l with
  | none => s
  | some k => (s.startMerge l.u.die k 255 (.ofNat 64 (2 ^ l.u.unit))).updHub fun h =>
      { h with leases := h.leases.put n { l with moving := true } }

/-- `LEASE_RETURN` (R150): a slice is merged back first; an evacuated channel becomes a spare of its stack. -/
def execLeaseReturn (s : State) : Out :=
  let n := s.subj.x
  match s.sys.hub.leases.get? n with
  | none => .next s
  | some l =>
    let busy := l.u.kind = 2 && (s.sys.hub.splitting.get? l.u.die).isSome
    if l.st ≠ .returning || busy then .next s
    else if l.u.kind = 2 && !l.moving && (s.m.mergeEntry l).isSome then .next (s.mergeBack n l)
    else
      let s := match s.loneLink l.u with
        | some p => if s.m.conn p = Conn.recovering then s.setConn p Conn.up else s
        | none => s
      .next ((s.backIn l.u).endLease n l.u false)

/-- The retirement record of a unit is appended, signed under the device identity key (R85, R89, R151). -/
def State.appendRecord (s : State) (u : UnitRef) (phys : Nat) (spare : Option Nat) (reason score : Nat) : State :=
  let log := s.sys.flash.records
  let r : Retirement := ⟨log.length + 1, u, phys, spare.getD 0xFFFF, reason, score, s.m.mtime, []⟩
  let r := { r with sig := signObject s.sys.rom.seed r.body }
  { s with sys := { s.sys with flash := { s.sys.flash with log := log ++ [r] } } }

/-- A peer link with fewer than four good lanes retires; one with more trains again (R18, R32). -/
def State.loseLane (s : State) (u : UnitRef) : State :=
  match s.m.links.get? u.die with
  | none => s
  | some p =>
    if s.sys.hub.unitGone u && 4 < (s.sys.hub.retired.filter fun x => x.kind = 5 && x.die = u.die).length then
      (s.updM fun m => { m with links := m.links.del u.die }).dropLinkless p
    else if s.m.conn p = .recovering then s.setConn p .up else s

/-- A unit leaves for good without a spare (R16, R18): its number stays unused; its teams are rebound (R152). -/
def State.loseUnit (s : State) (u : UnitRef) : State :=
  let s := s.updHub fun h => { h with
    retired := if h.retired.contains u then h.retired else h.retired ++ [u]
    outOfService := if h.outOfService.contains u then h.outOfService else h.outOfService ++ [u] }
  let cores := leaseCores u
  let tks := (s.m.teams.filter fun t => cores.contains t.2.core && t.2.res ≠ .ended).map (·.1)
  let s := s.updM fun m => tks.foldl (fun m tk => m.updTeam tk fun t => { t with unbound := true }) m
  (if u.kind = 5 then s.loseLane u else s).rebindAll tks

/-- The unit is retired (R151 steps 3 and 4). -/
def State.retireDone (s : State) (n : Nat) (u : UnitRef) : State :=
  let seq := s.sys.flash.records.length
  ((s.capacityChange u).event [0] 0x0007 (.ofNat 64 seq)).endLease n u true

/-- The second part of a retirement: a spare serves, its cores from the next window boundary on (R151), or the unit is lost. -/
def State.finishRetire (s : State) (n : Nat) (u : UnitRef) (spare : Bool) : State :=
  (if spare then s.updHub fun h => h.serves u else s.loseUnit u).retireDone n u

/-- A channel without a spare leaves its stack (R151, R160): the pages of the range that goes are moved, those that a MAP has put there
meanwhile included, then the blocks of the stack are copied, then the range is freed. -/
def State.shrink (s : State) (n : Nat) (l : Lease) : State :=
  let stack := chanStack l.u
  let range := s.m.shrinkBase stack
  if (s.m.migs.any fun g => rangesMeet g.2.old g.2.size range channelBytes) || s.m.copying stack then s
  else if s.m.framesIn range channelBytes ≠ [] then s.startMoves stack range
  else if l.copying then (s.updM fun m => { m with freed := m.freed ++ [(range, channelBytes)] }).finishRetire n l.u false
  else (s.updM fun m => m.startCopy stack range).updHub fun h => { h with leases := h.leases.put n { l with copying := true } }

/-- Whether another channel of the stack of a unit is leaving it (R160). -/
def Hub.stackMoves (h : Hub) (n : Nat) (u : UnitRef) : Bool :=
  h.leases.any fun x => x.1 ≠ n && x.2.u.kind = 3 && chanStack x.2.u = chanStack u && x.2.st = .retiring && x.2.moving

/-- The record of a retired unit, then its spare where it has one (R151 steps 1 and 2). -/
def State.replaceUnit (s : State) (l : Lease) : Bool × State :=
  let u := l.u
  let spare := s.findSpare u
  let s := s.appendRecord u (s.m.physOf u) spare l.reason (s.sys.hub.score u)
  match spare with
  | none => (false, s)
  | some p => (true, s.bringIn u p)

/-- `LEASE_RETIRE` (R151): the record, then a spare or less capacity, then the events. A spare slice is merged into the domain
first; a channel without a spare waits for its pages and blocks to move (R160). -/
def execLeaseRetire (s : State) : Out :=
  let n := s.subj.x
  match s.sys.hub.leases.get? n with
  | none => .next s
  | some l =>
    let u := l.u
    let busy := (u.kind = 2 && (s.sys.hub.splitting.get? u.die).isSome) || (u.kind = 3 && s.sys.hub.stackMoves n u)
    if l.st ≠ .retiring || busy then .next s
    else if l.moving then .next (if u.kind = 3 then s.shrink n l else s.finishRetire n u true)
    else if u.kind = 3 then
      match l.entry with
      | some old =>
        .next ((s.appendRecord u old (some (s.m.physOf u)) l.reason l.score).finishRetire n u true)
      | none =>
        let stack := chanStack u
        let s := (s.appendRecord u (s.m.physOf u) none l.reason (s.sys.hub.score u)).startMoves stack (s.m.shrinkBase stack)
        .next (s.updHub fun h => { h with leases := h.leases.put n { l with moving := true, copying := false } })
    else
      let (spare, s) := s.replaceUnit l
      if spare && u.kind = 2 && (s.m.mergeEntry l).isSome then .next (s.mergeBack n l) else .next (s.finishRetire n u spare)

/-! ## Errors (R145, R155) -/

/-- What R145 adds to a score for an event. -/
def scoreOf (k : ScoreEvent) : Nat :=
  match k with
  | .coreEcc | .sliceEcc => 16
  | .channelRead => 8
  | .channelHourly => 256
  | .linkRetry => 1
  | .laneMoved => 1024
  | .shadowMismatch => 4096

/-- Counts corrected errors of a channel in the hour; at 64 its score rises once (R55, R145). -/
def State.countCorrected (s : State) (u : UnitRef) (n : Nat) : State :=
  let key := (4 * u.die + u.unit / 32) * 64 + u.unit % 32
  let old := s.sys.hub.corrected.getD key 0
  let s := s.updHub fun h => { h with corrected := h.corrected.norm key (old + n) 0 }
  let s := (List.range n).foldl (fun s _ => s.charge u (scoreOf .channelRead)) s
  if old < 64 && 64 ≤ old + n then s.charge u (scoreOf .channelHourly) else s

/-- `CORRECTED_ERROR` (R145). -/
def execCorrectedError (u : UnitRef) (k : ScoreEvent) (s : State) : Out :=
  .next (if k = .channelRead then s.countCorrected u 1 else s.charge u (scoreOf k))

/-- A unit with an uncorrectable error that no team's storage holds has failed its test (R155): it is drained, and retired
without one (R151). -/
def State.condemn (s : State) (u : UnitRef) : State :=
  if s.sys.hub.retired.contains u then s
  else
    let (n, h) := s.sys.hub.requestLease u
    let s := s.updHub fun _ => h
    match s.sys.hub.leases.get? n with
    | none => s
    | some l => match l.st with
      | .requested => s.beginDrain n { l with fail := true, reason := 2 }
      | .draining => s.updHub fun h => { h with leases := h.leases.put n { l with fail := true, reason := 2 } }
      | .testing | .returning => s.updHub fun h => { h with leases := h.leases.put n { l with st := .retiring, fail := true } }
      | .retiring => s

/-- A line is poisoned, and UNCORRECTABLE names it (R155). -/
def State.poisonLine (s : State) (line : Nat) : State :=
  (s.updM fun m => { m with poison := insertNat line m.poison }).event [0] 0x0005 (.ofNat 64 (line * 128))

/-- An uncorrectable error in a stored sector, or in the metadata of a block, poisons all four lines of the block (R54). -/
def State.poisonBlock (s : State) (pa : Nat) : State :=
  (List.range 4).foldl (fun s i => s.poisonLine (pa / 512 * 4 + i)) s

/-- The gang of a team consumes an uncorrectable error in its storage (R155, R260). -/
def Mach.storageError (m : Mach) (tk : Nat) (addr : Nat) : Mach :=
  match m.team? tk with
  | some t => m.askKill t.launch t.gang (strangerRecord Cause.uncorrectable.code t.launch t.ix (.ofNat 64 addr))
  | none => m

/-- An uncorrectable error in what a team holds on a core is consumed by its gang; with no team that holds it, the core has failed its
test (R155). -/
def State.coreError (s : State) (u : UnitRef) (team : Option Nat) (addr : Nat) : State :=
  match team.bind fun tk => (s.m.team? tk).map fun t => (tk, t) with
  | some (tk, t) => if t.holds then s.updM fun m => m.storageError tk addr else s.condemn u
  | none => s.condemn u

/-- `UNCORRECTABLE_ERROR` (R54, R145, R155): a line of a slice is poisoned alone, one in HBM with its block. -/
def execUncorrectableError (u : UnitRef) (p : ErrPlace) (s : State) : Out :=
  let s := s.charge u 16384
  match p with
  | .line pa => .next (if u.kind = 2 then s.poisonLine (lineOf pa) else s.poisonBlock pa)
  | .block pa => .next (s.poisonBlock pa)
  | .localStore tk off => .next (s.coreError u (some tk) off)
  | .coreStore core team => .next (s.coreError (coreUnit core) team 0)

/-- `HOURLY_SCORE_DECAY` (R144, R145): each hour of module time. The corrected errors of the last hour (R55) are counted since it
(DESIGN CHOICE, log entry 118). -/
def execHourlyScoreDecay (s : State) : Out :=
  if s.m.mtime < s.sys.hub.lastHour + 3600000000000 then .next s
  else .next (s.updHub fun h => { h with
      scores := (h.scores.mapv fun c n =>
        if h.scoreStill ⟨c / 2 ^ 16, c / 2 ^ 12 % 16, c % 2 ^ 12⟩ then n else n - n / 16).sift fun _ n => n ≠ 0
      corrected := []
      lastHour := h.lastHour + 3600000000000 }).saveScores

/-! ## Scrubbing (R55-R57) -/

/-- SCRBCTL of a stack (R57). -/
def Hub.scrb (h : Hub) (stack : Nat) : Word := h.scrbctl.getD stack 0x97

/-- The period of a scrub pass over a channel, in ns (R55): by the hottest junction of its stack and its corrected errors. -/
def Hub.scrubPeriod (h : Hub) (stack channel : Nat) : Nat :=
  let t := h.stackTemp.getD stack 25
  let hours := if t < 70 then 24 else if t ≤ 85 then 12 else 6
  let errors := h.corrected.getD (stack * 64 + channel) 0
  hours * 3600000000000 / (if errors ≤ 3 then 1 else if errors ≤ 63 then 2 else 4)

/-- The lease whose read-only test a scrub pass of a channel is (R149). -/
def Hub.scrubTest (h : Hub) (u : UnitRef) : Option Nat :=
  (h.leases.find? fun l => l.2.u = u && l.2.st = .testing && l.2.entry.isNone).map (·.1)

/-- `SCRUB_PASS` (R55, R56): a pass over a channel ends, a period after the last one or forced; it has corrected errors and met
uncorrectable sectors. A read-only test counts them (R149). -/
def execScrubPass (stack channel corrected : Nat) (bad : List Nat) (s : State) : Out :=
  let h := s.sys.hub
  let u : UnitRef := ⟨3, stack / 4, 32 * (stack % 4) + channel⟩
  let key := stack * 64 + channel
  let forced := h.forced.contains stack
  let due := (h.scrb stack).getLsbD 0 && h.scrubAt.getD key 0 + h.scrubPeriod stack channel ≤ s.m.mtime
  if !(due || forced) || h.yielding.contains stack then .next s
  else
    let s := s.countCorrected u corrected
    let s := (bad.filter fun pa => regionOf pa = .hbm && stackOf pa = stack).foldl (fun s pa =>
      (s.charge u 16384).poisonBlock pa) s
    .next (s.updHub fun h => { h with
      scrubAt := h.scrubAt.norm key s.m.mtime 0
      tested := match h.scrubTest u with
        | some n => if forced then h.tested.put n ⟨false, bad ≠ [], corrected, 0, 0, true⟩ else h.tested
        | none => h.tested
      forced := if channel = 31 then h.forced.filter (· ≠ stack) else h.forced })

/-- Threshold of SCRBCTL.YIELD in percent: values outside 10 to 100 act as 100 (R57). -/
def Hub.yieldAt (h : Hub) (stack : Nat) : Nat :=
  let y := (h.scrb stack).toNat / 2 % 128
  if 10 ≤ y && y ≤ 100 then y else 100

/-- `SCRUB_YIELD` (R56): the demand of a stack, in percent of its peak, exceeds the threshold, or falls below it again. With it the
memory controller reports the hottest junction of the stack, subject x (R55, log entry 117). -/
def execScrubYield (stack demand : Nat) (s : State) : Out :=
  .next (s.updHub fun h => { h with
    stackTemp := h.stackTemp.norm stack s.subj.x 25
    yielding := if h.yieldAt stack < demand then insertNat stack h.yielding
      else if demand < h.yieldAt stack then h.yielding.filter (· ≠ stack) else h.yielding })

/-- `SCRUB_FORCE` (R57). -/
def execScrubForce (s : State) : Out :=
  .next (s.updHub fun h => { h with forced := insertNat s.subj.x h.forced })

end Sys2Proof.Machine
end

