-- ==== Sys2Proof/Machine/Links.lean ====
section
/-! DEFINITION. Start-up (R24), clocks and temperature (R20-R23), module time (R67), the host link and HDM (R25-R27), peer
links and what peers ask (R29-R33), power gating (R39), replicas (R45). -/

namespace Sys2Proof.Machine

/-! ## Start-up (R24) -/

/-- Start-up tries patches: one that passes every test runs and raises the counter, one that fails is ignored; each is reported, with
its verdict and security version in DATA, whose layout is not given (R65, R84, log entry 1). -/
def State.tryPatches (s : State) : List (Bool × PatchImage) → State
  | [] => s
  | (inB, p) :: ps =>
    let ok := p.accepted s.sys.rom
    let s := s.event [0] 0x0009 (Config.eventData [0x0009, ok.toNat, p.secver])
    if ok then
      { s with sys := ⟨s.sys.flash, { s.sys.hub with patch := some p, patchB := inB },
        { s.sys.rom with otp := max s.sys.rom.otp p.secver }⟩ }
    else s.tryPatches ps

/-- The physical number of each enabled unit: the n-th core enabled at shipment, the n-th cluster with one, the n-th built slice
(R15, R86). -/
def Identity.phys (i : Identity) : Sparse Nat :=
  let nth (ps : List Nat) (n : Nat) : Nat := ps.getD n n
  (List.range 4).foldl (fun t d =>
    let cores := (List.range 68).filter (bit (i.enabled.getD d 0))
    let slices := (List.range 68).filter (bit (i.builtSlices.getD d 0))
    let clusters := (cores.map (· / 4)).eraseDups
    let t := (List.range 64).foldl (fun t n =>
      (t.norm (unitCode ⟨0, d, n⟩) (nth cores n) n).norm (unitCode ⟨2, d, n⟩) (nth slices n) n) t
    (List.range 16).foldl (fun t n => t.norm (unitCode ⟨1, d, n⟩) (nth clusters n) n) t) []

/-- Physical units a retirement record takes away, and what its spare serves (R89). -/
def State.applyRecord (s : State) (r : Retirement) : State :=
  if r.spare = 0xFFFF then
    let stack := 4 * r.u.die + r.u.unit / 32
    let s := if r.u.kind = 3 then s.updM fun m => { m with freed := m.freed ++ [(m.shrinkBase stack, channelBytes)] } else s
    s.updHub fun h => { h with retired := h.retired ++ [r.u], outOfService := h.outOfService ++ [r.u] }
  else
    let old := s.sys.hub.scores
    (s.bringIn r.u r.spare).updHub fun h => { h with scores := old }

/-- A unit that fails its start-up patterns is retired (R24 step 5, REASON 3). -/
def State.startupRetire (s : State) (u : UnitRef) : State :=
  if s.sys.hub.retired.contains u then s
  else
    let spare := s.findSpare u
    let s := s.appendRecord u (s.m.physOf u) spare 3 (s.sys.hub.score u)
    let s := match spare with
      | some p => s.bringIn u p
      | none => s.updHub fun h => { h with retired := h.retired ++ [u], outOfService := h.outOfService ++ [u] }
    s.event [0] 0x0007 (.ofNat 64 s.sys.flash.records.length)

/-- Interleave domains as start-up sets them (R42): no retired slice serves one (R18). -/
def State.startupDomains (s : State) : Sparse Domain :=
  startDomains.mapv fun n d =>
    let gone : DWord := ((List.range 64).filter fun i => s.sys.hub.retired.contains ⟨2, n / 8, i⟩).foldl
      (fun w i => w ||| .ofNat 64 (2 ^ i)) 0
    { d with mask := d.mask &&& ~~~gone }

/-- Whether the host link is at its full width and rate (R25). -/
def fullLink (l : HostLink) : Bool := l.width = 16 && !l.slow

/-- The host link's width and rate are reported; the layout of DATA is not given (R84, log entry 1). -/
def State.linkEvent (s : State) (l : HostLink) : State :=
  s.event [0] 0x0003 (Config.eventData [0x0003, 7, l.width, l.slow.toNat])

/-- The start-up sequence (R24) of a module at step 1. `bad`: units that fail their patterns; `moved`: lane groups and links
with a lane moved onto a spare at training; `link`: what the host link trains to. -/
def State.startup (s : State) (bad moved : List UnitRef) (link : HostLink) : State :=
  let f := s.sys.flash
  match if f.verifies s.sys.rom then f.config.bind fun c => f.service.map fun v => (c, v) else none with
  | none => s.updHub fun h => { h with phase := .fatal }
  | some (c, v) =>
    let s := { (s.updHub fun h => { h with scores := v.scores, policy := c.policy, hdm := c.hdm }) with
      m := { s.m with mtime := v.mtime, device := c.module, phys := f.identity.phys } }
    let s := s.tryPatches f.slots
    let s := { s with sys := { s.sys with flash := { s.sys.flash.findNewest with log := f.records } } }
    let s := f.records.foldl (fun s r => s.applyRecord r) s
    let s := moved.foldl (fun s u => (s.charge u (scoreOf .laneMoved)).moveLane u) s
    let s := bad.foldl (fun s u => s.startupRetire u) s
    let s := { s with m := { s.m with domains := s.startupDomains } }
    let s := s.updHub fun h => { h with
      hostLink := some link, memoryActive := true, phase := .running, lastHour := v.mtime, lastRecord := v.mtime }
    if fullLink link then s else s.linkEvent link

/-- `POWER_ON` (R24). -/
def execPowerOn (bad moved : List UnitRef) (link : HostLink) (s : State) : Out :=
  if s.sys.hub.phase = .off || s.sys.hub.phase = .startup then .next ((s.restart false).startup bad moved link) else .next s

/-- `UNDERVOLTAGE` (R21): the module is held in reset. -/
def execUndervoltage (s : State) : Out := .next ((s.restart false).updHub fun h => { h with phase := .off })

/-- Whether the module runs. -/
def State.running (s : State) : Bool := s.sys.hub.phase = .running

/-! ## Clocks and temperature (R20, R23) -/

/-- A clock step is reported: 3 units of 0.1 GHz (R84, log entry 16). -/
def State.stepClock (s : State) (freq : Nat) : State := (s.updHub fun h => { h with freq := freq }).event [0] 0x000B 3

/-- A report of the hottest junction temperature (R23): since when it stands below 92 °C, and since when above 105 °C. -/
def Hub.report (h : Hub) (t now : Nat) : Hub :=
  { h with
    temp := t
    coolSince := if t < 92 then h.coolSince.or (some now) else none
    hotSince := if 105 < t then h.hotSince.or (some now) else none }

/-- The hub has a report of the temperature. -/
def State.report (s : State) (t : Nat) : State := s.updHub fun h => h.report t s.m.mtime

/-- `THERMAL_STEP_DOWN` (R20, R23): at 95 to 105 °C, or to hold a power limit (subject y not 0); no lower than 1.8 GHz. -/
def execThermalStepDown (s : State) : Out :=
  let t := s.subj.x
  if !s.running then .next s
  else
    let s := s.report t
    .next (if ((95 ≤ t && t ≤ 105) || s.subj.y ≠ 0) && 18 < s.sys.hub.freq then s.stepClock (s.sys.hub.freq - 3) else s)

/-- Whether a count of module time began 1 ms ago or before. -/
def msPast (since : Option Nat) (now : Nat) : Bool := since.any fun t => t + 1000000 ≤ now

/-- `THERMAL_STEP_UP` (R23): each 1 ms below 92 °C; the first report below starts the count. -/
def execThermalStepUp (s : State) : Out :=
  if !s.running then .next s
  else
    let s := s.report s.subj.x
    if msPast s.sys.hub.coolSince s.m.mtime then
      let s := s.updHub fun h => { h with coolSince := some s.m.mtime }
      .next (if s.sys.hub.freq < 36 then s.stepClock (s.sys.hub.freq + 3) else s)
    else .next s

/-- Every launch with a resident team ends with THERMAL_HALT (R23, R83). -/
def State.haltLaunches (s : State) : State :=
  let ls := (s.m.launches.filter fun l => s.m.teams.any fun t => t.2.launch = l.1 && t.2.holds).map (·.1)
  ls.foldl (fun s n => (s.updM fun m => m.updLaunch n fun l => { l with stop := some 7 }).endLaunch n) s

/-- `THERMAL_HALT` (R23): 1 ms above 105 °C; the first report above starts the count. -/
def execThermalHalt (s : State) : Out :=
  if !s.running then .next s
  else
    let s := s.report s.subj.x
    .next (if msPast s.sys.hub.hotSince s.m.mtime then s.haltLaunches.updHub fun h => { h with phase := .thermalHalt } else s)

/-- `MTIME_RECORD` (R67, R88): every 60 s of module time, in the service store. -/
def execMtimeRecord (s : State) : Out :=
  if s.m.mtime < s.sys.hub.lastRecord + 60000000000 then .next s
  else .next { s with sys := ⟨s.sys.flash.writeService s.sys.rom ⟨s.sys.flash.stored.scores, s.m.mtime⟩,
    { s.sys.hub with lastRecord := s.m.mtime }, s.sys.rom⟩ }

/-! ## The host link (R25-R27) -/

/-- `HOST_LINK_TRAIN` (R25, R153). -/
def execHostLinkTrain (link : HostLink) (s : State) : Out :=
  let old := s.sys.hub.hostLink
  if !s.running then .next s
  else
    let s := s.updHub fun h => { h with hostLink := some link }
    let s := if old = some link then s else s.capacityChange ⟨7, 0, 0⟩
    .next (if fullLink link then s else s.linkEvent link)

/-- `HOST_SNOOP` (R27): device copies of a host line end; a host write reaches memory after that. -/
def execHostSnoop (line : Nat) (data : Option (List Byte)) (s : State) : Out :=
  s.on fun m =>
    if !inHost (line * 128) then m
    else
      let m := { m with
        hostLines := m.hostLines.filter fun k => k / 4 ≠ line
        l2 := m.l2.sift fun k _ => k / 4 ≠ line }
      match data with
      | some bs => { m with mem := Memory.writeN m.mem (line * 128) (bs.take 128) }
      | none => m

/-- The host may hold copies of lines from now on (R26). -/
def Mach.hostHolds (m : Mach) (ls : List Nat) : Mach := { m with hostCopies := ls.foldl (fun t l => insertNat l t) m.hostCopies }

/-- A host read is answered (R26, R155): the bytes as the home slice holds them, with CXL poison where a line is poisoned; a freed range
answers with poison (R160), and the manual gives no bytes for it (log entry 1). -/
def Mach.hostRead (m : Mach) (pa size : Nat) : Mach :=
  if m.isFreed pa then
    let (bs, m) := m.takeBytes size
    { m with hostOut := m.hostOut ++ [.data bs true] }
  else
    let ls := linesOf pa size
    let bad := m.poisoned (.dev pa) size
    let bs := m.homeRead pa size
    let m := (ls.foldl Mach.l2Home m).hostHolds ls
    { m with hostOut := m.hostOut ++ [.data bs bad] }

/-- A host write is performed at its home slice (R26): the host's own copies need no snoop. -/
def Mach.hostWrite (m : Mach) (pa : Nat) (bs : List Byte) : Mach :=
  let ls := linesOf pa bs.length
  (({ m with hostCopies := m.hostCopies.filter fun l => !ls.contains l } : Mach).placeWrite (.dev pa) bs).hostHolds ls

/-- `HOST_HDM_ACCESS` (R26): a read is answered by the home slice, a write performed there; a write to a freed range is dropped, a read
of one answered with poison (R160); one that the home holds back happens later. -/
def execHostHdmAccess (pa size : Nat) (data : Option (List Byte)) (s : State) : Out :=
  if s.sys.hub.hdm * 2 ^ 30 < pa + size then .fault .outsideHdm
  else if !s.sys.hub.memoryActive then .next s
  else match data with
    | none => if s.m.placeWaits false (.dev pa) then .next s else .next (s.updM fun m => m.hostRead pa size)
    | some bs =>
      if s.m.isFreed pa || s.m.placeWaits true (.dev pa) then .next s
      else .next (s.updM fun m => m.hostWrite pa (bs.take size))

/-! ## Peer links (R29-R33) -/

/-- Retired lanes of a peer link. -/
def Hub.lanesLost (h : Hub) (link : Nat) : Nat := (h.retired.filter fun u => u.kind = 5 && u.die = link).length

/-- `PEER_LINK_UP` (R29, R32): a link to a module of another number; one with fewer than four good lanes has retired (R18). A
connection whose last link now reaches another module is DOWN. -/
def execPeerLinkUp (s : State) : Out :=
  let (link, p) := (s.subj.x, s.subj.y)
  if !s.running || 8 ≤ link || 8 ≤ p || p = s.m.device || 4 < s.sys.hub.lanesLost link then .next s
  else
    let old := s.m.links.get? link
    let s := (s.updM fun m => { m with links := m.links.put link p }).setConn p .up
    .next (match old with
      | some q => s.dropLinkless q
      | none => s)

/-- `PEER_LINK_RECOVERING` (R32). -/
def execPeerLinkRecovering (s : State) : Out :=
  if s.running && s.m.conn s.subj.x = .up then .next (s.setConn s.subj.x .recovering) else .next s

/-- `PEER_LINK_DOWN` (R32, R33). -/
def execPeerLinkDown (s : State) : Out :=
  let p := s.subj.x
  if !s.running || s.m.conn p = .absent || s.m.conn p = .down then .next s
  else .next ((s.updM fun m => { m with links := m.links.sift fun _ q => q ≠ p }).loseConn p)

/-! ## Power gating (R39) -/

/-- The logical core or slice at a stop of a die. -/
def Mach.unitAt (m : Mach) (kind die stop : Nat) : Option Nat := (List.range 64).find? fun n => m.physOf ⟨kind, die, n⟩ = stop

/-- Whether a die is idle: no team resident on it. -/
def Mach.dieIdle (m : Mach) (die : Nat) : Bool := !m.teams.any fun t => coreDie t.2.core = die && !t.2.unbound && t.2.holds

/-- Whether the routers of a stop may be gated (R39). -/
def Mach.mayGate (m : Mach) (die stop : Nat) : Bool :=
  let coreFree := (m.unitAt 0 die stop).all fun n => !((m.teamsOn (64 * die + n)).any fun t => t.2.holds)
  let sliceFree := (m.unitAt 2 die stop).all fun n => (m.sliceEntry die n).isNone
  (coreFree && sliceFree) || m.dieIdle die

/-- `POWER_GATE` (R39): both routers of a stop. -/
def execPowerGate (s : State) : Out :=
  s.on fun m =>
    let (die, stop) := (s.subj.x, s.subj.y)
    if die < 4 && stop < 68 && m.mayGate die stop then
      { m with gated := insertNat (routerAt (68 * die + stop) true) (insertNat (routerAt (68 * die + stop) false) m.gated) }
    else m

/-- `WAKE` (R39): a gated router, of the reply mesh where the subject's z is not 0, is back in service and reports awake. -/
def execWake (s : State) : Out :=
  s.on fun m => { m with gated := m.gated.filter (· ≠ routerAt (68 * s.subj.x + s.subj.y) (s.subj.z ≠ 0)) }

/-- `WAKE_RELEASE` (R37, R39): the sending NI releases a message once every gated router of its route is awake, and none it has sent
before to the same NI is held. -/
def execWakeRelease (s : State) : Out :=
  s.on fun m => { m with heldMsgs := releaseMsgs m.gated s.subj.x [] m.heldMsgs }

/-- `REPLICA_EVICT` (R45): the line leaves the slice that held it. -/
def execReplicaEvict (s : State) : Out :=
  s.on fun m =>
    let key := s.subj.x * 4 + s.subj.y
    if (m.replicas.get? key).isSome then { m with replicas := m.replicas.del key, l2 := m.l2.del key } else m

end Sys2Proof.Machine
end

