-- ==== Sys2Proof/Machine/HostWrites.lean ====
section
/-! DEFINITION. What the host writes: queues' producer lines (R69, R82), command entries as the hub reads them (R72, R73),
registers of BAR0 and management registers (R48, R66, R79). -/

namespace Sys2Proof.Machine

/-! ## Command entries (R72, R73) -/

/-- Whether every byte of an entry outside the payload ranges given (first byte, bytes) is zero, from byte 16 on. -/
def restZero (e : List Byte) (used : List (Nat × Nat)) : Bool :=
  (List.range 48).all fun i =>
    (used.any fun r => r.1 ≤ i + 16 && i + 16 < r.1 + r.2) || e.getD (i + 16) 0 = 0

/-- The header of an entry (R72): reserved bits of the header, and of the payload as `ok` finds them. -/
def headerOfEntry (queue entry : Nat) (e : List Byte) (ok : Bool) : CmdHdr :=
  let flags := field e 2 2
  ⟨queue, entry, bit flags 0, bit flags 1, .ofNat 32 (field e 4 4), field e 8 1, field e 9 1,
    flags / 4 ≠ 0 || field e 10 6 ≠ 0 || !ok⟩

/-- The quota payload (R90). -/
def quotaOf (e : List Byte) : Quota :=
  ⟨field e 16 2, .ofNat 64 (field e 20 8), field e 28 1, field e 29 1, field e 30 2, field e 32 2, field e 34 2, field e 36 8⟩

/-- The command of an entry (R73). -/
def commandOf (queue entry : Nat) (e : List Byte) : Instr :=
  let f (i n : Nat) : Nat := field e i n
  let h (used : List (Nat × Nat)) : CmdHdr := headerOfEntry queue entry e (restZero e used)
  let code := f 0 2
  match code with
  | 0x01 =>
    let hdr := headerOfEntry queue entry e (restZero e [(16, 4), (20, 8), (28, 1)] && f 28 1 < 2)
    .queueCreate hdr (f 16 1) (f 17 1) (f 18 1) (f 19 1) (f 20 8) (bit (f 28 1) 0)
  | 0x02 => .queueDestroy (h [(16, 2)]) (f 16 1) (f 17 1)
  | 0x10 => .partCreate (h [(16, 2), (20, 24)]) (quotaOf e)
  | 0x11 => .partSet (h [(16, 2), (20, 24)]) (quotaOf e)
  | 0x12 => .partDestroy (h [])
  | 0x18 => .ctxCreate (h [(20, 8)]) (f 20 8)
  | 0x19 => .ctxDestroy (h [(16, 2)]) (f 16 2)
  | 0x20 => .mapPages (h [(16, 28)]) (f 16 2) (f 18 2) (f 20 8) (f 28 8) (f 36 8)
  | 0x21 => .unmapPages (h [(16, 2), (20, 8), (36, 8)]) (f 16 2) (f 20 8) (f 36 8)
  | 0x22 => .discardRange (h [(16, 2), (20, 8), (36, 8)]) (f 16 2) (f 20 8) (f 36 8)
  | 0x28 => .launch (h [(16, 8)]) (f 16 8)
  | 0x29 => .cancel (h [(16, 8)]) (f 16 8)
  | 0x30 => .leasePolicy (h [(16, 8)]) (f 16 2) (f 18 2) (f 20 4)
  | 0x31 => .leaseNow (h [(16, 4)]) ⟨f 16 1, f 17 1, f 18 2⟩
  | 0x38 => .retireRead (h [(16, 16)]) (f 16 4) (f 20 8) (f 28 4)
  | 0x40 => .attest (h [(16, 40)]) (f 16 32) (f 48 8)
  | 0x48 => .domainSplit (h [(16, 12)]) (f 16 1) (f 17 1) (f 18 1) (f 19 1) (.ofNat 64 (f 20 8))
  | 0x49 => .domainMerge (h [(16, 3), (20, 8)]) (f 16 1) (f 17 1) (f 18 1) (.ofNat 64 (f 20 8))
  | 0x50 => .patchStage (h [(16, 12)]) (f 16 8) (f 24 4) (Config.stageB e)
  | 0x58 =>
    if f 16 1 = 0 then .resetWarm (h [(16, 1)])
    else if f 16 1 = 1 then .resetFull (h [(16, 1)])
    else .unknownCommand (h [(16, 1)]) code
  | 0x60 => .mgmtRead (h [(16, 4)]) (f 16 2) (f 18 2)
  | 0x61 => .mgmtWrite (h [(16, 8)]) (f 16 2) (f 18 2) (.ofNat 32 (f 20 4))
  | _ => .unknownCommand (headerOfEntry queue entry e true) code

/-- The hub consumes n entries of a queue from HEAD on (R69). -/
def State.consumeEntries (s : State) (n : Nat) (q : CmdQueue) : Nat → State
  | 0 => s
  | k + 1 =>
    let e := q.head.toNat
    let bytes := s.m.homeRead (q.base + 128 + e % 2 ^ q.logn * 64) 64
    let p : Pend := ⟨n, e, commandOf n e bytes, false, []⟩
    let q := { q with head := q.head + 1 }
    let s := (s.updHub fun h => { h with pending := h.pending ++ [p], cqs := h.cqs.put n q }).updM fun m =>
      m.placeWrite (.dev (q.base + 64)) (natBytes 4 q.head.toNat)
    s.consumeEntries n q k

/-- `TAIL_WRITE` (R69): the hub reads TAIL and consumes the entries it covers, or stops the queue. -/
def execTailWrite (queue : Nat) (tail : Word) (s : State) : Out :=
  match s.sys.hub.cqs.get? queue with
  | none => .next s
  | some q =>
    let s := s.updM fun m => m.placeWrite (.dev q.base) (natBytes 4 tail.toNat)
    let ahead := (tail - q.head).toNat
    if q.stopped || !s.sys.hub.ena then .next s
    else if 2 ^ q.logn < ahead then
      .next ((s.updHub fun h => { h with cqs := h.cqs.put queue { q with stopped := true } }).event [0] 0x000A (.ofNat 64 queue))
    else .next (s.consumeEntries queue q ahead)

/-- `EVENT_HEAD_WRITE` (R68, R82): entries are freed, and records that wait are written. -/
def execEventHeadWrite (queue : Nat) (head : Word) (s : State) : Out :=
  match s.sys.hub.eqs.get? queue with
  | none => .next s
  | some q => .next ((s.updM fun m => m.placeWrite (.dev q.base) (natBytes 4 head.toNat)).flushQueue queue)

/-! ## Registers -/

/-- BASE and LOGN of a value written to ADMCQ or ADMEQ; reserved bits read zero (R8, R66). -/
def adminReg (v : DWord) : DWord := v &&& 0x000FFFFFFFFFF00F

/-- ADMCTL.ENA as it is written and read (R66). -/
def Hub.enaBit (h : Hub) : Bool := h.ena || h.again

/-- A write to BAR0 (R66): RO and unlisted offsets ignore it; ADMCQ and ADMEQ ignore it while ENA is 1. -/
def State.barWrite (s : State) (off : Nat) (v : DWord) : State :=
  if !s.running then s
  else if off = 0x10 then (if s.sys.hub.enaBit then s else s.updHub fun h => { h with admcq := adminReg v })
  else if off = 0x18 then (if s.sys.hub.enaBit then s else s.updHub fun h => { h with admeq := adminReg v })
  else if off = 0x20 then
    if v.getLsbD 0 then s.startAdmin
    else if s.sys.hub.ena then s.stopAdmin else s.updHub fun h => { h with again := false }
  else s

/-- The HDM range set by system software (R26): zero to 512 GiB in steps of 1 GiB, a greater value ignored (DESIGN CHOICE, log
entry 105). -/
def State.setHdm (s : State) (gib : Nat) : State := if s.running && gib ≤ 512 then s.updHub fun h => { h with hdm := gib } else s

/-- `REGISTER_WRITE` (R26, R66, R79). -/
def execRegisterWrite (reg : RegAddr) (value : DWord) (s : State) : Out :=
  match reg with
  | .hdm => .next (s.setHdm value.toNat)
  | .bar0 off => .next (s.barWrite off value)
  | .mgmt die port off => .next (s.mgmtWrite die port off (loWord value))

/-- `RPLCTL_WRITE` (R48). -/
def execRplctlWrite (die : Nat) (value : Word) (s : State) : Out := s.on fun m => m.writeRplctl die value

/-- A read of BAR0 (R66, R67): offsets not listed read zero. -/
def State.barRead (s : State) (off : Nat) : DWord :=
  let h := s.sys.hub
  if off = 0 then .ofNat 64 (0x09400100 + ((h.patch.map (·.secver)).getD 0) % 256)
  else if off = 0x10 then h.admcq
  else if off = 0x18 then h.admeq
  else if off = 0x20 then .ofNat 64 ((decide (h.phase = .fatal)).toNat * 4 + h.ready.toNat * 2 + h.enaBit.toNat)
  else if off = 0x30 then .ofNat 64 s.m.mtime
  else 0

/-- Items of the CXL.io configuration space by which the module identifies itself (R1). -/
inductive ConfigItem where
  | deviceId | revisionId | classCode
  deriving DecidableEq, Repr

/-- What an item holds (R1): the Revision ID is the stepping. -/
def ConfigItem.value : ConfigItem → Nat
  | .deviceId => 0x0940
  | .revisionId => 0x10
  | .classCode => 0x120000

/-- A configuration read (R1, R24): none is answered before start-up step 6. -/
def State.configRead (s : State) (i : ConfigItem) : Option Nat :=
  if s.sys.hub.phase = .running || s.sys.hub.phase = .thermalHalt then some i.value else none

end Sys2Proof.Machine
end

