-- ==== Sys2Proof/Machine/Dispatch.lean ====
section
/-! DEFINITION. One arm per instruction and event: its meaning. -/

namespace Sys2Proof.Machine

def exec (i : Instr) (s : State) : Host.Outcome State Fault Refusal :=
  match i with
  | .powerOn bad moved link => Sys2Proof.Machine.execPowerOn bad moved link s
  | .undervoltage => Sys2Proof.Machine.execUndervoltage s
  | .hostLinkTrain link => Sys2Proof.Machine.execHostLinkTrain link s
  | .peerLinkUp => Sys2Proof.Machine.execPeerLinkUp s
  | .peerLinkRecovering => Sys2Proof.Machine.execPeerLinkRecovering s
  | .peerLinkDown => Sys2Proof.Machine.execPeerLinkDown s
  | .thermalStepDown => Sys2Proof.Machine.execThermalStepDown s
  | .thermalStepUp => Sys2Proof.Machine.execThermalStepUp s
  | .thermalHalt => Sys2Proof.Machine.execThermalHalt s
  | .mtimeRecord => Sys2Proof.Machine.execMtimeRecord s
  | .hourlyScoreDecay => Sys2Proof.Machine.execHourlyScoreDecay s
  | .adminQueueStart => Sys2Proof.Machine.execAdminQueueStart s
  | .adminQueueStop => Sys2Proof.Machine.execAdminQueueStop s
  | .registerWrite reg value => Sys2Proof.Machine.execRegisterWrite reg value s
  | .scrubForce => Sys2Proof.Machine.execScrubForce s
  | .rplctlWrite die value => Sys2Proof.Machine.execRplctlWrite die value s
  | .tailWrite queue tail => Sys2Proof.Machine.execTailWrite queue tail s
  | .eventHeadWrite queue head => Sys2Proof.Machine.execEventHeadWrite queue head s
  | .unknownCommand h opcode => Sys2Proof.Machine.execUnknownCommand h opcode s
  | .queueCreate h num kind logn vector base bind => Sys2Proof.Machine.execQueueCreate h num kind logn vector base bind s
  | .queueDestroy h num kind => Sys2Proof.Machine.execQueueDestroy h num kind s
  | .partCreate h q => Sys2Proof.Machine.execPartCreate h q s
  | .partSet h q => Sys2Proof.Machine.execPartSet h q s
  | .partDestroy h => Sys2Proof.Machine.execPartDestroy h s
  | .ctxCreate h root => Sys2Proof.Machine.execCtxCreate h root s
  | .ctxDestroy h asid => Sys2Proof.Machine.execCtxDestroy h asid s
  | .mapPages h asid attrs va pa size => Sys2Proof.Machine.execMapPages h asid attrs va pa size s
  | .unmapPages h asid va size => Sys2Proof.Machine.execUnmapPages h asid va size s
  | .discardRange h asid va size => Sys2Proof.Machine.execDiscardRange h asid va size s
  | .launch h record => Sys2Proof.Machine.execLaunch h record s
  | .cancel h number => Sys2Proof.Machine.execCancel h number s
  | .leasePolicy h threshold inflight interval => Sys2Proof.Machine.execLeasePolicy h threshold inflight interval s
  | .leaseNow h u => Sys2Proof.Machine.execLeaseNow h u s
  | .retireRead h first buffer count => Sys2Proof.Machine.execRetireRead h first buffer count s
  | .attest h nonce buffer => Sys2Proof.Machine.execAttest h nonce buffer s
  | .domainSplit h die k newEntry base mask => Sys2Proof.Machine.execDomainSplit h die k newEntry base mask s
  | .domainMerge h die k absorb mask => Sys2Proof.Machine.execDomainMerge h die k absorb mask s
  | .patchStage h addr len slotB => Sys2Proof.Machine.execPatchStage h addr len slotB s
  | .resetWarm h => Sys2Proof.Machine.execResetWarm h s
  | .resetFull h => Sys2Proof.Machine.execResetFull h s
  | .mgmtRead h target offset => Sys2Proof.Machine.execMgmtRead h target offset s
  | .mgmtWrite h target offset value => Sys2Proof.Machine.execMgmtWrite h target offset value s
  | .correctedError u k => Sys2Proof.Machine.execCorrectedError u k s
  | .uncorrectableError u p => Sys2Proof.Machine.execUncorrectableError u p s
  | .scrubPass stack channel corrected bad => Sys2Proof.Machine.execScrubPass stack channel corrected bad s
  | .scrubYield stack demand => Sys2Proof.Machine.execScrubYield stack demand s
  | .leaseStart => Sys2Proof.Machine.execLeaseStart s
  | .leaseDrainDone => Sys2Proof.Machine.execLeaseDrainDone s
  | .leaseTestDone lease r => Sys2Proof.Machine.execLeaseTestDone lease r s
  | .leaseReturn => Sys2Proof.Machine.execLeaseReturn s
  | .leaseRetire => Sys2Proof.Machine.execLeaseRetire s
  | .migrationSwitch => Sys2Proof.Machine.execMigrationSwitch s
  | .peerHoldExpiry => Sys2Proof.Machine.execPeerHoldExpiry s
  | .domainWritebackDone => Sys2Proof.Machine.execDomainWritebackDone s
  | .domainSwitchDone => Sys2Proof.Machine.execDomainSwitchDone s
  | .domainReplayDone => Sys2Proof.Machine.execDomainReplayDone s
  | .staleGenReturn => Sys2Proof.Machine.execStaleGenReturn s
  | .wake => Sys2Proof.Machine.execWake s
  | .wakeRelease => Sys2Proof.Machine.execWakeRelease s
  | .replicaEvict => Sys2Proof.Machine.execReplicaEvict s
  | .hostSnoop line data => Sys2Proof.Machine.execHostSnoop line data s
  | .hostHdmAccess pa size data => Sys2Proof.Machine.execHostHdmAccess pa size data s
  | .peerMemoryRequest module pa req => Sys2Proof.Machine.execPeerMemoryRequest module pa req s
  | .peerReply op data => Sys2Proof.Machine.execPeerReply op data s
  | .peerTask module handle desc => Sys2Proof.Machine.execPeerTask module handle desc s
  | .peerFuture module pa faulted value => Sys2Proof.Machine.execPeerFuture module pa faulted value s
  | .inboxDeliver => Sys2Proof.Machine.execInboxDeliver s
  | .accountingWindow => Sys2Proof.Machine.execAccountingWindow s
  | .drainDone => Sys2Proof.Machine.execDrainDone s
  | .drainLimit => Sys2Proof.Machine.execDrainLimit s
  | .saveComplete => Sys2Proof.Machine.execSaveComplete s
  | .restoreComplete => Sys2Proof.Machine.execRestoreComplete s
  | .gangKill => Sys2Proof.Machine.execGangKill s
  | .gangRelaunch => Sys2Proof.Machine.execGangRelaunch s
  | .launchCompletion => Sys2Proof.Machine.execLaunchCompletion s
  | .accFirstuse => Sys2Proof.Machine.execAccFirstuse s
  | .stagingStart => Sys2Proof.Machine.execStagingStart s
  | .stagingComplete => Sys2Proof.Machine.execStagingComplete s
  | .lsShortage => Sys2Proof.Machine.execLsShortage s
  | .taskStart => Sys2Proof.Machine.execTaskStart s
  | .stealRequest => Sys2Proof.Machine.execStealRequest s
  | .stealRequestReceive => Sys2Proof.Machine.execStealRequestReceive s
  | .stealReply => Sys2Proof.Machine.execStealReply s
  | .stealBackoff => Sys2Proof.Machine.execStealBackoff s
  | .stealIdleThreshold => Sys2Proof.Machine.execStealIdleThreshold s
  | .frameStarved => Sys2Proof.Machine.execFrameStarved s
  | .frameGrant => Sys2Proof.Machine.execFrameGrant s
  | .pathSelection => Sys2Proof.Machine.execPathSelection s
  | .operationComplete op serve => Sys2Proof.Machine.execOperationComplete op serve s
  | .storeAck => Sys2Proof.Machine.execStoreAck s
  | .engineComplete => Sys2Proof.Machine.execEngineComplete s
  | .collectiveCommit => Sys2Proof.Machine.execCollectiveCommit s
  | .collectiveTimeout => Sys2Proof.Machine.execCollectiveTimeout s
  | .reductionElementApply => Sys2Proof.Machine.execReductionElementApply s
  | .accSlotUpdate => Sys2Proof.Machine.execAccSlotUpdate s
  | .joinWake => Sys2Proof.Machine.execJoinWake s
  | .demandZeroFill => Sys2Proof.Machine.execDemandZeroFill s
  | .watchdog => Sys2Proof.Machine.execWatchdog s
  | .recoveryCapExpiry => Sys2Proof.Machine.execRecoveryCapExpiry s
  | .sleepExpiry => Sys2Proof.Machine.execSleepExpiry s
  | .nop c => Sys2Proof.Machine.execNop c s
  | .bra c target => Sys2Proof.Machine.execBra c target s
  | .braAny c a target => Sys2Proof.Machine.execBraAny c a target s
  | .braAll c a target => Sys2Proof.Machine.execBraAll c a target s
  | .jmp c a => Sys2Proof.Machine.execJmp c a s
  | .call c mk f w target => Sys2Proof.Machine.execCall c mk f w target s
  | .callI c mk f a w => Sys2Proof.Machine.execCallI c mk f a w s
  | .ret c => Sys2Proof.Machine.execRet c s
  | .unwindTo c sb => Sys2Proof.Machine.execUnwindTo c sb s
  | .exit c => Sys2Proof.Machine.execExit c s
  | .yield c => Sys2Proof.Machine.execYield c s
  | .setpri c n => Sys2Proof.Machine.execSetpri c n s
  | .wflag c mask => Sys2Proof.Machine.execWflag c mask s
  | .trap c code ad => Sys2Proof.Machine.execTrap c code ad s
  | .iadd c t sat d a b => Sys2Proof.Machine.execIadd c t sat d a b s
  | .isub c t sat d a b => Sys2Proof.Machine.execIsub c t sat d a b s
  | .imul c t sat d a b => Sys2Proof.Machine.execImul c t sat d a b s
  | .imulhi c t d a b => Sys2Proof.Machine.execImulhi c t d a b s
  | .imad c t sat d a b e => Sys2Proof.Machine.execImad c t sat d a b e s
  | .ineg c sat d a => Sys2Proof.Machine.execIneg c sat d a s
  | .iabs c sat d a => Sys2Proof.Machine.execIabs c sat d a s
  | .imin c t d a b => Sys2Proof.Machine.execImin c t d a b s
  | .imax c t d a b => Sys2Proof.Machine.execImax c t d a b s
  | .iaddW c t sat d a b => Sys2Proof.Machine.execIaddW c t sat d a b s
  | .isubW c t sat d a b => Sys2Proof.Machine.execIsubW c t sat d a b s
  | .imulW c t d a b => Sys2Proof.Machine.execImulW c t d a b s
  | .imadW c t d a b e => Sys2Proof.Machine.execImadW c t d a b e s
  | .lea c t sh d a b imm => Sys2Proof.Machine.execLea c t sh d a b imm s
  | .mov c d a => Sys2Proof.Machine.execMov c d a s
  | .movW c d a => Sys2Proof.Machine.execMovW c d a s
  | .movi c d imm => Sys2Proof.Machine.execMovi c d imm s
  | .moviL c t d imm => Sys2Proof.Machine.execMoviL c t d imm s
  | .iaddi c t sat d a imm => Sys2Proof.Machine.execIaddi c t sat d a imm s
  | .idiv c t sat d a b => Sys2Proof.Machine.execIdiv c t sat d a b s
  | .irem c t d a b => Sys2Proof.Machine.execIrem c t d a b s
  | .sad c t d a b e => Sys2Proof.Machine.execSad c t d a b e s
  | .and c d a b => Sys2Proof.Machine.execAnd c d a b s
  | .or c d a b => Sys2Proof.Machine.execOr c d a b s
  | .xor c d a b => Sys2Proof.Machine.execXor c d a b s
  | .not c d a => Sys2Proof.Machine.execNot c d a s
  | .lmix c fn inv d a b e => Sys2Proof.Machine.execLmix c fn inv d a b e s
  | .shl c d a k => Sys2Proof.Machine.execShl c d a k s
  | .shr c d a k => Sys2Proof.Machine.execShr c d a k s
  | .sar c d a k => Sys2Proof.Machine.execSar c d a k s
  | .rot c d a k => Sys2Proof.Machine.execRot c d a k s
  | .shlW c d a k => Sys2Proof.Machine.execShlW c d a k s
  | .shrW c t d a k => Sys2Proof.Machine.execShrW c t d a k s
  | .bfe c t d a pos len => Sys2Proof.Machine.execBfe c t d a pos len s
  | .bfi c d a b pos len => Sys2Proof.Machine.execBfi c d a b pos len s
  | .popc c d a => Sys2Proof.Machine.execPopc c d a s
  | .clz c d a => Sys2Proof.Machine.execClz c d a s
  | .brev c d a => Sys2Proof.Machine.execBrev c d a s
  | .icmp c t cond d a b => Sys2Proof.Machine.execIcmp c t cond d a b s
  | .icmpW c t cond d a b => Sys2Proof.Machine.execIcmpW c t cond d a b s
  | .fcmp c cond d a b => Sys2Proof.Machine.execFcmp c cond d a b s
  | .sel c t d a b e => Sys2Proof.Machine.execSel c t d a b e s
  | .ballot c d a => Sys2Proof.Machine.execBallot c d a s
  | .shfl c d a k => Sys2Proof.Machine.execShfl c d a k s
  | .shflUp c d a k => Sys2Proof.Machine.execShflUp c d a k s
  | .shflDown c d a k => Sys2Proof.Machine.execShflDown c d a k s
  | .shflXor c d a k => Sys2Proof.Machine.execShflXor c d a k s
  | .bcast c d a k => Sys2Proof.Machine.execBcast c d a k s
  | .wred c op t rnd d a => Sys2Proof.Machine.execWred c op t rnd d a s
  | .wscan c ex op t rnd d a => Sys2Proof.Machine.execWscan c ex op t rnd d a s
  | .fadd c rnd d a b => Sys2Proof.Machine.execFadd c rnd d a b s
  | .fsub c rnd d a b => Sys2Proof.Machine.execFsub c rnd d a b s
  | .fmul c rnd d a b => Sys2Proof.Machine.execFmul c rnd d a b s
  | .ffma c rnd d a b e => Sys2Proof.Machine.execFfma c rnd d a b e s
  | .fmin c d a b => Sys2Proof.Machine.execFmin c d a b s
  | .fmax c d a b => Sys2Proof.Machine.execFmax c d a b s
  | .fabs c d a => Sys2Proof.Machine.execFabs c d a s
  | .fneg c d a => Sys2Proof.Machine.execFneg c d a s
  | .ffloor c d a => Sys2Proof.Machine.execFfloor c d a s
  | .fceil c d a => Sys2Proof.Machine.execFceil c d a s
  | .ftrunc c d a => Sys2Proof.Machine.execFtrunc c d a s
  | .frint c rnd d a => Sys2Proof.Machine.execFrint c rnd d a s
  | .fclass c d a => Sys2Proof.Machine.execFclass c d a s
  | .fscale c rnd d a b => Sys2Proof.Machine.execFscale c rnd d a b s
  | .ffrac c rnd d a => Sys2Proof.Machine.execFfrac c rnd d a s
  | .frcp c rnd d a => Sys2Proof.Machine.execFrcp c rnd d a s
  | .frsq c rnd d a => Sys2Proof.Machine.execFrsq c rnd d a s
  | .fsqrt c rnd d a => Sys2Proof.Machine.execFsqrt c rnd d a s
  | .fdiv c rnd d a b => Sys2Proof.Machine.execFdiv c rnd d a b s
  | .fexp2 c d a => Sys2Proof.Machine.execFexp2 c d a s
  | .flog2 c d a => Sys2Proof.Machine.execFlog2 c d a s
  | .fsin c d a => Sys2Proof.Machine.execFsin c d a s
  | .fcos c d a => Sys2Proof.Machine.execFcos c d a s
  | .ftanh c d a => Sys2Proof.Machine.execFtanh c d a s
  | .hadd c t rnd d a b => Sys2Proof.Machine.execHadd c t rnd d a b s
  | .hsub c t rnd d a b => Sys2Proof.Machine.execHsub c t rnd d a b s
  | .hmul c t rnd d a b => Sys2Proof.Machine.execHmul c t rnd d a b s
  | .hfma c t rnd d a b e => Sys2Proof.Machine.execHfma c t rnd d a b e s
  | .hmin c t d a b => Sys2Proof.Machine.execHmin c t d a b s
  | .hmax c t d a b => Sys2Proof.Machine.execHmax c t d a b s
  | .hdot2 c t rnd d a b e => Sys2Proof.Machine.execHdot2 c t rnd d a b e s
  | .hcmp c t cond d a b => Sys2Proof.Machine.execHcmp c t cond d a b s
  | .cvt c dst src rnd sat d a => Sys2Proof.Machine.execCvt c dst src rnd sat d a s
  | .cvtW c dst src rnd sat d a => Sys2Proof.Machine.execCvtW c dst src rnd sat d a s
  | .icvt c dst src rnd sat d a => Sys2Proof.Machine.execIcvt c dst src rnd sat d a s
  | .cvtX2 c dst src rnd sat d a b => Sys2Proof.Machine.execCvtX2 c dst src rnd sat d a b s
  | .cvtX4 c dst src rnd sat d a b e x => Sys2Proof.Machine.execCvtX4 c dst src rnd sat d a b e x s
  | .cvtEl c src d a b => Sys2Proof.Machine.execCvtEl c src d a b s
  | .cvtPk c d a b => Sys2Proof.Machine.execCvtPk c d a b s
  | .ld c m d a off => Sys2Proof.Machine.execLd c m d a off s
  | .ldX4 c m d a off => Sys2Proof.Machine.execLdX4 c m d a off s
  | .st c m a b off => Sys2Proof.Machine.execSt c m a b off s
  | .ldl c m d a off => Sys2Proof.Machine.execLdl c m d a off s
  | .ldlX4 c m d a off => Sys2Proof.Machine.execLdlX4 c m d a off s
  | .stl c m a b off => Sys2Proof.Machine.execStl c m a b off s
  | .ldw c m d a off => Sys2Proof.Machine.execLdw c m d a off s
  | .ldwX4 c m d a off => Sys2Proof.Machine.execLdwX4 c m d a off s
  | .stw c m a b off => Sys2Proof.Machine.execStw c m a b off s
  | .pf c hint a off => Sys2Proof.Machine.execPf c hint a off s
  | .tld c t a b => Sys2Proof.Machine.execTld c t a b s
  | .tst c t a b => Sys2Proof.Machine.execTst c t a b s
  | .pft c hint a b rowsM1 rowb => Sys2Proof.Machine.execPft c hint a b rowsM1 rowb s
  | .dcinv c => Sys2Proof.Machine.execDcinv c s
  | .icinv c => Sys2Proof.Machine.execIcinv c s
  | .dsc c a b => Sys2Proof.Machine.execDsc c a b s
  | .cwb c a b => Sys2Proof.Machine.execCwb c a b s
  | .aadd c m d a b off => Sys2Proof.Machine.execAadd c m d a b off s
  | .amin c m d a b off => Sys2Proof.Machine.execAmin c m d a b off s
  | .amax c m d a b off => Sys2Proof.Machine.execAmax c m d a b off s
  | .alog c op m d a b off => Sys2Proof.Machine.execAlog c op m d a b off s
  | .axchg c m d a b off => Sys2Proof.Machine.execAxchg c m d a b off s
  | .acas c m d a b e off => Sys2Proof.Machine.execAcas c m d a b e off s
  | .afadd c rnd m d a b off => Sys2Proof.Machine.execAfadd c rnd m d a b off s
  | .afmin c m d a b off => Sys2Proof.Machine.execAfmin c m d a b off s
  | .afmax c m d a b off => Sys2Proof.Machine.execAfmax c m d a b off s
  | .rctx c op t scope ctx d a b e => Sys2Proof.Machine.execRctx c op t scope ctx d a b e s
  | .rdet c t ctx a b e => Sys2Proof.Machine.execRdet c t ctx a b e s
  | .rclose c ctx d => Sys2Proof.Machine.execRclose c ctx d s
  | .fence c scope => Sys2Proof.Machine.execFence c scope s
  | .acq c scope => Sys2Proof.Machine.execAcq c scope s
  | .rel c scope => Sys2Proof.Machine.execRel c scope s
  | .acqRp c t scope d a off => Sys2Proof.Machine.execAcqRp c t scope d a off s
  | .bar c b a => Sys2Proof.Machine.execBar c b a s
  | .barArr c b d a => Sys2Proof.Machine.execBarArr c b d a s
  | .barWait c b a => Sys2Proof.Machine.execBarWait c b a s
  | .bbInit c a => Sys2Proof.Machine.execBbInit c a s
  | .bbExp c d a b => Sys2Proof.Machine.execBbExp c d a b s
  | .bbWait c scope a b => Sys2Proof.Machine.execBbWait c scope a b s
  | .spawn c d a => Sys2Proof.Machine.execSpawn c d a s
  | .spawnR c d a b => Sys2Proof.Machine.execSpawnR c d a b s
  | .join c d a => Sys2Proof.Machine.execJoin c d a s
  | .joinT c d a => Sys2Proof.Machine.execJoinT c d a s
  | .resolve c d a b => Sys2Proof.Machine.execResolve c d a b s
  | .taskEnd c v => Sys2Proof.Machine.execTaskEnd c v s
  | .finOpen c d a b => Sys2Proof.Machine.execFinOpen c d a b s
  | .finClose c sc => Sys2Proof.Machine.execFinClose c sc s
  | .finWait c sc => Sys2Proof.Machine.execFinWait c sc s
  | .capq c n d => Sys2Proof.Machine.execCapq c n d s
  | .bcopy c dst src scope a b e cell => Sys2Proof.Machine.execBcopy c dst src scope a b e cell s
  | .bcopy2d c dst src scope a b e x cell => Sys2Proof.Machine.execBcopy2d c dst src scope a b e x cell s
  | .gath c p scope a b e count sh es cell => Sys2Proof.Machine.execGath c p scope a b e count sh es cell s
  | .scat c p scope a b e count sh es cell => Sys2Proof.Machine.execScat c p scope a b e count sh es cell s
  | .stage c scope a b cell => Sys2Proof.Machine.execStage c scope a b cell s
  | .cgrp c scope g d a b => Sys2Proof.Machine.execCgrp c scope g d a b s
  | .cag c dst src a b e x g bb => Sys2Proof.Machine.execCag c dst src a b e x g bb s
  | .crs c op t dst src a b e x g bb => Sys2Proof.Machine.execCrs c op t dst src a b e x g bb s
  | .ca2a c dst src a b e x g bb => Sys2Proof.Machine.execCa2a c dst src a b e x g bb s
  | .cbar c a b bb => Sys2Proof.Machine.execCbar c a b bb s
  | .mma c f aw bw a b => Sys2Proof.Machine.execMma c f aw bw a b s
  | .mmaC c f ch bw b => Sys2Proof.Machine.execMmaC c f ch bw b s
  | .mmaS c f aw bw a b => Sys2Proof.Machine.execMmaS c f aw bw a b s
  | .mmaDs c f aw bw a b => Sys2Proof.Machine.execMmaDs c f aw bw a b s
  | .mmaG c f aw a e x kb nadp => Sys2Proof.Machine.execMmaG c f aw a e x kb nadp s
  | .mmaGc c f ch e x nb nadp => Sys2Proof.Machine.execMmaGc c f ch e x nb nadp s
  | .accAcq c slot => Sys2Proof.Machine.execAccAcq c slot s
  | .accRel c slot => Sys2Proof.Machine.execAccRel c slot s
  | .accLd c slot quad d => Sys2Proof.Machine.execAccLd c slot quad d s
  | .accSt c slot q sh sat t a stride => Sys2Proof.Machine.execAccSt c slot q sh sat t a stride s
  | .accZero c slot q sh => Sys2Proof.Machine.execAccZero c slot q sh s
  | .accQ c slot d => Sys2Proof.Machine.execAccQ c slot d s
  | .movsRead c r idx d => Sys2Proof.Machine.execMovsRead c r idx d s
  | .movsWrite c r idx a => Sys2Proof.Machine.execMovsWrite c r idx a s
  | .sleep c n => Sys2Proof.Machine.execSleep c n s
  | .ctxSave c d a b => Sys2Proof.Machine.execCtxSave c d a b s
  | .ctxLoad c d a b => Sys2Proof.Machine.execCtxLoad c d a b s
  | .frecRd c a => Sys2Proof.Machine.execFrecRd c a s
  | .leaseTst c d a pat => Sys2Proof.Machine.execLeaseTst c d a pat s
  | .leaseRel c d a => Sys2Proof.Machine.execLeaseRel c d a s
  | .tlbInv c a b => Sys2Proof.Machine.execTlbInv c a b s
  | .bezelRd c d a off => Sys2Proof.Machine.execBezelRd c d a off s
  | .bezelWr c a b off => Sys2Proof.Machine.execBezelWr c a b off s
  | .powerGate => Sys2Proof.Machine.execPowerGate s

end Sys2Proof.Machine
end

