-- ==== Sys2Proof/Machine/Fetch.lean ====
section
/-! DEFINITION. Fetching and decoding the instruction at a path's PC, the passing of time in a step, and placing a first
instruction. -/

namespace Sys2Proof.Machine

/-- The addresses of the 8-byte units an instruction of up to 16 bytes at va spans. -/
def fetchAddrs (va : Nat) : List Nat := [va, va + 4, va + 8, va + 12]

/-- Active lanes of a word the issuing path cannot decode (R175, R248): those its guard field selects, where it names a register of the
frame. -/
def Issue.guarded (c : Issue) (w : Nat) : Lanes :=
  match guardOf w with
  | .ok (some g) => if g.reg.toNat < c.f.demand then activeLanes c.f c.p.lanes (some g) else c.p.lanes
  | _ => c.p.lanes

/-- What stands at the issuing path's PC (R274): an instruction, or the fault of fetching or decoding it (R191, R192, R248). -/
def Mach.fetchAt (m : Mach) (c : Issue) : Except Fail Instr :=
  let pos := c.p.pc.toNat % 32
  match m.codeWord c.core c.asid c.p.pc.toNat c.priv with
  | .error k => .error { cause := k, lanes := c.p.lanes, addr := c.p.pc }
  | .ok w =>
    let n := itemLen w
    if pos = 28 || w % 4 = 3 || pos + n > 32 then .error { cause := .illegal, lanes := c.p.lanes }
    else match m.codeWords c.core c.asid c.p.pc.toNat c.priv (n / 4) with
      | .error k => .error { cause := k, lanes := c.p.lanes, addr := c.p.pc }
      | .ok v =>
        match decode v with
        | .ok i => .ok i
        | .error _ => .error { cause := .illegal, oppos := unusedField v, lanes := c.guarded v }

/-- The issuing path's fetch: the instruction cache after it, and the instruction or fault (R207, R274). -/
def Mach.fetch (m : Mach) (c : Issue) : Mach × Except Fail Instr :=
  let m := m.fetchInto c.core c.asid c.priv m.refetch (fetchAddrs c.p.pc.toNat)
  (m, m.fetchAt c)

/-- A task's counts after ns of module time (R163, R164): the watchdog count stops while its team is saved and while the wait is
attributed; each path that waits for a remote future has an attributed time of its own. -/
def Mach.watchTask (m : Mach) (ns n : Nat) (t : Task) : Task :=
  let saved := (m.team? t.team).any fun tm => tm.res = .waitingSaved
  let still := saved || !m.allWait n t || m.attributed n t
  { t with
    watch := if still then t.watch else t.watch + ns
    paths := t.paths.map fun p => if m.joinRecovering p then { p with attributed := p.attributed + ns } else p }

/-- Attributed times of operations and stores after ns of module time (R164). -/
def Mach.waitOps (m : Mach) (ns : Nat) : Mach :=
  { m with
    ops := m.ops.mapv fun _ o => if m.awaitsRecovering o then { o with waitNs := o.waitNs + ns } else o
    cores := m.cores.mapv fun _ c => { c with
      stores := c.stores.map fun x => if m.storeRecovering x then { x with waitNs := x.waitNs + ns } else x } }

/-- A team's idle count starts anew while it has a READY or RESUMABLE task, or no idle warp (R139). -/
def Mach.idleTeam (m : Mach) (now tk : Nat) (t : Team) : Team :=
  let ready := (m.tasksOf tk).any fun x => x.2.st matches .ready | .resumable
  let idle := (m.warpsOf tk).any fun w => w.2.st = .idle
  if ready || !idle then { t with idleSince := now } else t

/-- Time passes (R67, R296): core clocks while the module runs, module time while it has power; with them the idle counts
(R139), the watchdog counts and attributed times (R163, R164). -/
def State.pass (s : State) (clocks ns : Nat) : State :=
  let m := s.m
  let now := if s.running then m.clock + clocks else m.clock
  let ns := if s.sys.hub.phase = .off then 0 else ns
  { s with m := { m.waitOps ns with
    clock := now, mtime := m.mtime + ns
    teams := m.teams.mapv fun k t => m.idleTeam now k t
    tasks := m.tasks.mapv fun n t => m.watchTask ns n t } }

/-! ## A first instruction -/

/-- Page-table root, its two further tables and the code address withFetchWord uses. -/
def probeRoot : Nat := 0x10000
/-- Where the probe's clause lies, virtual and physical. -/
def probeCode : Nat := 0x100000

/-- A launch with every charge at hand. -/
def probeLaunch : Launch :=
  ⟨0, 1, false, false, false, 1, 1, 4, 0, 0, 0, 0, 0x30000000, 0x100000, 768, 0x40000, 64, 8, 0, 0, 0, 0, 0, [], 0,
    [(0, ⟨.opened, 0, 1⟩)], [], [], [], [], 0, 0, [], none, 0, 0, none, 0, 0, []⟩

/-- A resident team of that launch on core 0. -/
def probeTeam : Team :=
  ⟨1, 0, 0, 0, 0, false, .resident, 0, false, false, false, 0, [], [], [], [], [], [], [], [], 0, 0, 0, 0, 0, [],
    (List.range 8).map fun k => (k, k), [], [], [], none, ⟨none, none, [], 0, false⟩⟩

/-- A task of that team on warp 0, all 32 lanes at the probe's first instruction. -/
def probeTask (frame : Nat) : Task :=
  { team := 256, desc := ⟨0, 0, 0, 0, 0, 0, 0, false, false, 0⟩, st := .running 0, order := 0, entry := 0, tte := none, buf := none
    bufImage := none, staged := 0, opers := 0
    run := some ⟨0xFFFFFFFF, .ofNat 64 (probeCode + 8), .ofNat 64 probeCode, true, frame, .eligible, 0⟩
    paths := [], latch := [], demote := 0, swapFail := [], flags := [], prio := 0, fpstat := 0, lost := 0, rel := 0, watch := 0
    trail := [], diverged := false, priv := false, startClock := 0, lastIssue := 0 }

/-- s with an instruction word where the next step fetches: a page table that maps the first GiB, a one-block clause
whose header names `cf0` and `cf1` with the instruction after it, and a running launch, team, warp, task and 256-register
frame in focus. It stands for what start-up, LAUNCH and TASK_START
do (log entry 8). -/
def State.placeWord (s : State) (w : Nat) : State :=
  let put (mem : List Host.Cell) (a n v : Nat) := Memory.writeN mem a (natBytes n v)
  let mem := put (put (put s.m.mem probeRoot 8 0x11001) 0x11000 8 0x12001) 0x12000 8 0x1B
  let mem := put mem probeCode 8 0x02300003
  let mem := put mem (probeCode + 8) 16 w
  { s with
    sys := { s.sys with hub := { s.sys.hub with phase := .running } }
    agenda := []
    m := { s.m with
      mem := mem
      ctxs := s.m.ctxs.put 1 ⟨0, probeRoot⟩
      launches := s.m.launches.put 1 probeLaunch
      teams := s.m.teams.put 256 probeTeam
      warps := s.m.warps.put (256 * 64) ⟨.active, some s.m.serial, 0, 0, 0, 0⟩
      tasks := s.m.tasks.put s.m.serial (probeTask s.m.serial)
      frames := s.m.frames.put s.m.serial ⟨s.m.serial, 256, [], [], 1, [], [], none, none, []⟩
      serial := s.m.serial + 1
      focus := some (256, 0) } }

end Sys2Proof.Machine
end

