-- ==== Sys2Proof/Machine/Shadow.lean ====
section
/-! DEFINITION. Shadow mode (R156): the leader's issue, what its shadow warp makes of the same instruction, the load-value queue, the
held effects and their comparison. The shadow's results stand beside the leader's from the leader's issue on; what the shadow has
yet to issue is the task's trail (log entry 102). -/

namespace Sys2Proof.Machine

/-- What an instruction is to a shadow pair (R156): its result goes through the load-value queue, it is an effect held until the
shadow reaches it, or each warp runs it for itself. -/
inductive ShadowClass where
  | value | effect | plain
  deriving DecidableEq, Repr

/-- The class of an instruction (R156, R362); those neither rule names each warp runs for itself (log entry 102). -/
def shadowClass : Instr → ShadowClass
  | .ld .. | .ldX4 .. | .ldl .. | .ldlX4 .. | .ldw .. | .ldwX4 .. | .acqRp .. => .value
  | .movsRead _ .clock _ _ | .movsRead _ .capacity _ _ => .value
  | .st .. | .stl .. | .stw .. | .tld .. | .tst .. => .effect
  | .aadd .. | .amin .. | .amax .. | .alog .. | .axchg .. | .acas .. | .afadd .. | .afmin .. | .afmax .. => .effect
  | .rctx .. | .rdet .. | .rclose .. | .bcopy .. | .bcopy2d .. | .gath .. | .scat .. | .stage .. => .effect
  | .cgrp .. | .cag .. | .crs .. | .ca2a .. | .cbar .. => .effect
  | .spawn .. | .spawnR .. | .join .. | .joinT .. | .resolve .. | .taskEnd .. | .exit .. => .effect
  | .finOpen .. | .finClose .. | .finWait .. | .bar .. | .barArr .. | .bbInit .. | .bbExp .. => .effect
  | .accLd .. | .accSt .. | .accZero .. => .effect
  | .capq .. | .sleep .. | .ctxSave .. | .ctxLoad .. | .frecRd .. | .leaseTst .. | .leaseRel .. | .tlbInv .. => .effect
  | .bezelRd .. | .bezelWr .. => .effect
  | _ => .plain

/-- Whether an instruction's result passes the load-value queue (R156, R362): those of the class value, atomics, joins, and what else of
tasks and the system answers in a register. -/
def queued (i : Instr) : Bool :=
  shadowClass i = .value || match i with
    | .aadd .. | .amin .. | .amax .. | .alog .. | .axchg .. | .acas .. | .afadd .. | .afmin .. | .afmax ..
    | .spawn .. | .spawnR .. | .join .. | .joinT .. | .resolve .. | .finOpen .. | .capq ..
    | .ctxSave .. | .ctxLoad .. | .leaseTst .. | .leaseRel .. | .bezelRd .. => (Instr.shape i).d ≠ .none
    | _ => false

/-- The slot whose contents an instruction compares (R156). -/
def comparedSlot : Instr → Option Nat
  | .accLd _ slot _ _ | .accSt _ slot _ _ _ _ _ _ => some slot.toNat
  | _ => none

/-- The machine as the shadow warps of a task have it: its frames and the core's slots stand for the leader's. -/
def Mach.swapped (m : Mach) (t core : Nat) : Mach :=
  ({ m with frames := m.frames.mapv fun _ f => if f.task = t then f.swapped else f } : Mach).updCore core Core.swapped

/-- Results that operations started from number n on take from registers alone, written at once. -/
def Mach.landEarly (m : Mach) (n : Nat) : Mach :=
  (m.ops.filter fun o => n ≤ o.1).foldl (fun m o => match o.2.kind with
    | .writes ws _ => m.landOwn o.2 ws
    | _ => m) m

/-- The registers and slots the shadow has in u beside what the leader has in m. -/
def Mach.withTwin (m u : Mach) (t core : Nat) : Mach :=
  ({ m with frames := m.frames.mapv fun k f => match u.frames.get? k with
      | some g => if f.task = t then { f with twin := g.regs } else f
      | none => f } : Mach).updCore core fun c => { c with accTwin := (u.core core).acc }

/-- Whether leader and shadow bring the same to an instruction (R156): lane mask, guard results, operands, and the slot compared. -/
def Mach.agrees (m : Mach) (c : Issue) (i : Instr) : Bool :=
  let h := Instr.shape i
  let g := c.f.swapped
  let act := activeLanes c.f c.p.lanes h.ctl.guard
  let same (p : Nat) : Bool := (m.core c.core).image p = (m.core c.core).swapped.image p
  activeLanes g c.p.lanes h.ctl.guard = act && (laneList act).all (fun n => argsOf c.f h n = argsOf g h n) &&
    ((comparedSlot i).bind (m.physSlot c.tk)).all same

/-- Where the paths of a task stand. -/
def Mach.pathsOf (m : Mach) (t : Nat) : Option (Option Path × List Path × TaskSt) :=
  (m.tasks.get? t).map fun k => (k.run, k.paths, k.st)

/-- Whether a warp issues between two states (R178). -/
def Mach.hasIssued (m n : Mach) (tk w : Nat) : Bool :=
  (m.warps.get? (warpKey tk w)).map (·.lastIssue) ≠ (n.warps.get? (warpKey tk w)).map (·.lastIssue)

/-- Entries of the load-value queue of a pair (R156). -/
def Task.queueUse (k : Task) : Nat := (k.trail.filter (·.value)).length

/-- A mismatch (R156, R260): the held effect is discarded, and the gang is to be killed. -/
def Mach.mismatch (m : Mach) (tk w : Nat) : Mach :=
  match m.team? tk with
  | some t => m.askKill t.launch t.gang (m.stopRecord tk w .shadowMismatch 0)
  | none => m

/-- The leader of a shadow pair issues (R156): it stalls while the queue is full or, at an effect, until its shadow has caught up. -/
def leaderIssue (c : Issue) (k : Task) (i : Instr) (s : State) : Host.Outcome State Fault Refusal :=
  let cls := shadowClass i
  if (cls = .value && 64 ≤ k.queueUse) || (cls = .effect && k.trail ≠ []) then .next s
  else match exec i s with
    | .next t =>
      let u := match exec i { s with m := s.m.swapped c.t c.core } with
        | .next u => u.m.landEarly s.m.serial
        | _ => s.m.swapped c.t c.core
      let differs := k.diverged || !s.m.agrees c i
      if cls = .effect && differs && s.m.hasIssued t.m c.tk c.w then .next { s with m := s.m.mismatch c.tk c.w }
      else
        let m := t.m.withTwin u c.t c.core
        let m := if s.m.hasIssued t.m c.tk c.w then m.updTask c.t fun x =>
            { x with trail := x.trail ++ [⟨queued i, cls = .value && differs⟩] } else m
        .next { t with m := m.updTask c.t fun x =>
          { x with diverged := x.diverged || t.m.pathsOf c.t ≠ u.pathsOf c.t } }
    | r => r

/-- The instruction at the issuing path's PC issues: in a launch in shadow mode for a leader and its shadow (R156). -/
def issueInstr (c : Issue) (i : Instr) (s : State) : Host.Outcome State Fault Refusal :=
  match s.m.shadowed c.tk, s.m.tasks.get? c.t with
  | true, some k => leaderIssue c k i s
  | _, _ => exec i s

/-- Whether the shadow warp of a warp has an instruction to issue (R156). -/
def Mach.shadowReady (m : Mach) (tk w : Nat) : Bool :=
  ((m.team? tk).any fun t => t.runs) && !m.dying tk &&
    ((m.warps.get? (warpKey tk w)).bind fun x => x.task.bind m.tasks.get?).any fun k => k.trail ≠ []

/-- The shadow warp of a warp issues (R97, R156): what it compares differs, or it is one instruction less behind. -/
def Mach.shadowTurn (m : Mach) (tk w : Nat) : Mach :=
  match m.team? tk, (m.warps.get? (warpKey tk w)).bind (·.task) with
  | some tm, some t =>
    match (m.tasks.get? t).map (·.trail) with
    | some (x :: rest) =>
      let m := m.spendCycle tm.core (m.partOf tm)
      let m := m.updWarp tk w fun y => { y with shadowIssue := m.serial }
      let m := { m with serial := m.serial + 1 }
      if x.bad then m.mismatch tk w else m.updTask t fun k => { k with trail := rest }
    | _ => m
  | _, _ => m

/-- A silent error changes a register of a leader or of its shadow, in a launch in shadow mode (R156). -/
def Mach.upset (m : Mach) (frame reg lane : Nat) (twin : Bool) (v : Word) : Mach :=
  match (m.frames.get? frame).bind fun f => m.tasks.get? f.task with
  | some k =>
    if m.shadowed k.team then m.updFrame frame fun f => if twin then (f.swapped.setReg reg lane v).swapped else f.setReg reg lane v
    else m
  | none => m

/-- A silent error changes a word of an accumulator slot of a leader or of its shadow (R156): the slot's owner runs in shadow mode. -/
def Mach.upsetAcc (m : Mach) (core key : Nat) (twin : Bool) (v : Word) : Mach :=
  let o := (m.core core).ownerOf (key / 1024)
  let put (c : Core) : Core := { c with acc := c.acc.norm key v 0 }
  if o.v && m.shadowed (o.launch * 256 + o.teamIx) then m.updCore core fun c => if twin then (put c.swapped).swapped else put c
  else m

end Sys2Proof.Machine
end

