-- ==== Sys2Proof/Machine/Schedule.lean ====
section
/-! DEFINITION. Which warp of a core issues (R97, R98, R178), and how many clocks may pass while warps are eligible. -/

namespace Sys2Proof.Machine

/-- Whether a warp has something to issue or to select: its path stands at an instruction, waits at a header whose flags are CLEAR, or
some path of it can be selected (R169, R186). -/
def Mach.warpReady (m : Mach) (tk w : Nat) : Bool :=
  ({ m with focus := some (tk, w) } : Mach).issuing.isSome ||
    (m.mayIssue tk w && match (m.warps.get? (warpKey tk w)).bind fun x => x.task.bind m.tasks.get? with
      | none => false
      | some k => match k.run with
        | none => k.paths.any Path.selectable
        | some p => !p.entered && match m.team? tk, m.launchOf tk with
          | some tm, some l => match m.headerAt tm.core l.asid p.clause.toNat k.priv with
            | .ok h => k.clearMask h.wait
            | .error _ => true
          | _, _ => false)

/-- A warp that competes for the issue cycle of its core: a leader or plain warp, or a shadow warp (R156). -/
structure Claim where
  tk : Nat
  w : Nat
  shadow : Bool
  deriving DecidableEq, Repr

/-- The eligible warps of a core: those with something to issue that nothing holds (R188). -/
def Mach.claims (m : Mach) (held : List (Nat × Nat)) (core : Nat) : List Claim :=
  (m.teamsOn core).flatMap fun t => (m.warpsOf t.1).flatMap fun w =>
    (if m.warpReady t.1 w.1 && !held.contains (t.1, w.1) then [⟨t.1, w.1, false⟩] else []) ++
      (if m.shadowReady t.1 w.1 then [⟨t.1, w.1, true⟩] else [])

/-- Partition of a claim's team. -/
def Mach.claimPart (m : Mach) (c : Claim) : Nat := ((m.team? c.tk).map m.partOf).getD 0

/-- The turn a claim's warp last issued. -/
def Mach.claimAge (m : Mach) (c : Claim) : Nat :=
  ((m.warps.get? (warpKey c.tk c.w)).map fun x => if c.shadow then x.shadowIssue else x.lastIssue).getD 0

/-- PRIO of a claim's warp; a shadow warp has its leader's (R178). -/
def Mach.claimPrio (m : Mach) (c : Claim) : Nat :=
  (((m.warps.get? (warpKey c.tk c.w)).bind fun x => x.task.bind m.tasks.get?).map (·.prio)).getD 0

/-- Whether claim a comes before claim b on a core (R97, R178): positive credit, then the higher PRIO, then the one that issued least
recently. -/
def Mach.comesBefore (m : Mach) (core : Nat) (a b : Claim) : Bool :=
  let rich (c : Claim) : Bool := (m.core core).credit.getD (m.claimPart c) 0 ≠ 0
  if rich a ≠ rich b then rich a
  else if m.claimPrio a ≠ m.claimPrio b then m.claimPrio b < m.claimPrio a
  else m.claimAge a < m.claimAge b

/-- The eligible warp that issues on a core (R97). -/
def Mach.chosen (m : Mach) (held : List (Nat × Nat)) (core : Nat) : Option Claim :=
  match m.claims held core with
  | [] => none
  | c :: cs => some (cs.foldl (fun a b => if m.comesBefore core b a then b else a) c)

/-- Whether a core has used its issue cycle of this clock. -/
def Mach.cycleUsed (m : Mach) (core : Nat) : Bool := (m.core core).issuedAt = some m.clock

/-- Cores with a team on them. -/
def Mach.busyCores (m : Mach) : List Nat := (m.teams.map fun t => t.2.core).eraseDups

/-- Clocks until the first sleeping warp wakes, n where none does before (R381). -/
def Mach.clocksToWake (m : Mach) (n : Nat) : Nat :=
  m.warps.foldl (fun k x => if m.clock < x.2.sleepUntil then min k (x.2.sleepUntil - m.clock) else k) n

/-- How many of n core clocks pass (R97, R98): none while a core with an eligible warp has not used its issue cycle, one while some
core has an eligible warp. -/
def Mach.clocksMay (m : Mach) (held : List (Nat × Nat)) (n : Nat) : Nat :=
  let busy := m.busyCores.filter fun c => m.claims held c ≠ []
  if busy.any fun c => !m.cycleUsed c then 0 else if busy ≠ [] then min n 1 else m.clocksToWake n

/-- Counts n clocks for each partition with an eligible warp on a core (R98). -/
def Mach.countElig (m : Mach) (held : List (Nat × Nat)) (n : Nat) : Mach :=
  if n = 0 then m
  else m.busyCores.foldl (fun m c =>
    let ps := ((m.claims held c).map m.claimPart).eraseDups
    m.updCore c fun k => { k with elig := ps.foldl (fun e p => e.put p (e.getD p 0 + n)) k.elig }) m

end Sys2Proof.Machine
end

