-- ==== Sys2Proof/Machine/Step.lean ====
section
/-! DEFINITION. One step: the next turn, or with no turn to come the warp in focus issues. -/

namespace Sys2Proof.Machine

/-- The warp in focus issues: the instruction at the PC of its issuing path, or the selection of a path (R168, R169). -/
def stepIssue (s : State) : Host.Outcome State Fault Refusal :=
  match s.m.issuing with
  | some c =>
    match s.m.fetch c with
    | (m, .ok i) => issueInstr c i { s with m := m }
    | (m, .error f) => .next { s with m := ((m.tookCycle c).raise c f).settle c.tk c.w }
  | none =>
    match s.m.focus with
    | some (tk, w) => exec .pathSelection { s with subj := ⟨tk, w, 0⟩ }
    | none => .next s

/-- The warp given is in focus and issues. -/
def stepFocus (s : State) (tk w : Nat) (refetch : Bool) : Host.Outcome State Fault Refusal :=
  stepIssue { s with m := { s.m with focus := some (tk, w), refetch := refetch } }

/-- A core issues (R97, R178): with the warp named among its eligible ones, the one the keys choose, once in a clock; a warp with
nothing to issue settles its paths. -/
def issueTurn (s : State) (held : List (Nat × Nat)) (tk w : Nat) (refetch : Bool) : Host.Outcome State Fault Refusal :=
  match s.m.team? tk with
  | none => .next s
  | some t =>
    if held.contains (tk, w) then .next s
    else if !s.m.warpReady tk w then stepFocus s tk w refetch
    else match s.m.chosen held t.core with
      | none => .next s
      | some c =>
        if s.m.cycleUsed t.core && ({ s.m with focus := some (c.tk, c.w) } : Mach).issuing.isSome then .next s
        else if c.shadow then .next { s with m := s.m.shadowTurn c.tk c.w }
        else stepFocus s c.tk c.w refetch

/-- A shadow warp's turn: as for any warp, once in a clock and where the keys choose it (R97, R156). -/
def shadowAct (s : State) (held : List (Nat × Nat)) (tk w : Nat) : State :=
  match s.m.team? tk with
  | none => s
  | some t =>
    if s.m.shadowReady tk w && !s.m.cycleUsed t.core && s.m.chosen held t.core = some ⟨tk, w, true⟩ then
      { s with m := s.m.shadowTurn tk w }
    else s

/-- One turn (log entry 2): its act. An event that is an instruction of the ISA, or a command, does not happen by itself: a
warp issues the one, a queue holds the other. Warps issue while the module runs (R21, R23). -/
def act (s : State) (held : List (Nat × Nat)) : Act → Host.Outcome State Fault Refusal
  | .issue tk w all => if s.running then issueTurn s held tk w all else .next s
  | .shadow tk w => .next (if s.running then shadowAct s held tk w else s)
  | .upset frame reg lane twin v => .next (s.updM fun m => m.upset frame reg lane twin v)
  | .upsetAcc core key twin v => .next (s.updM fun m => m.upsetAcc core key twin v)
  | .event i x y z =>
    if i.enc.isSome || i.isCommand then .next s else exec i { s with subj := ⟨x, y, z⟩ }
  | .command n =>
    match s.sys.hub.pending[n]? with
    | some p => exec p.cmd s
    | none => .next s
  | .perform core store => .next (s.updM fun m => m.performStore core store)
  | .unit op n => .next (s.updM fun m => m.moveUnit op n)

/-- The time of a turn passes: of its clocks as many as the eligible warps allow (R97, R98), none past the end of an accounting
window, whose boundary comes at once (R96). -/
def State.turnTime (s : State) (t : Turn) : State :=
  let n := if s.running then min (s.m.clocksMay t.held t.clocks) (2 ^ 20 - s.m.clock % 2 ^ 20) else 0
  ((s.updM fun m => m.countElig t.held n).pass n t.ns).boundary

/-- What moves with no turn to come: the warp in focus issues, or its shadow where that lags behind; once its core has used the clock,
the choice of a core that has not (R97). -/
def Mach.nextAct (m : Mach) (tk w : Nat) : Act :=
  let used := (m.team? tk).any fun t => m.cycleUsed t.core
  match if used then (m.busyCores.filter fun c => !m.cycleUsed c).findSome? (m.chosen []) else none with
  | some c => if c.shadow then .shadow c.tk c.w else .issue c.tk c.w m.refetch
  | none => if m.shadowReady tk w && !m.warpReady tk w then .shadow tk w else .issue tk w m.refetch

/-- One step of the module: the next turn of the agenda. With no turn to come, one core clock passes where it may, and the warp in
focus issues as in a turn of its own; with no warp in focus, a module in start-up runs its start-up sequence with no unit failing
(R24). -/
def step (s : State) : Host.Outcome State Fault Refusal :=
  match s.agenda with
  | t :: ts => act (({ s with agenda := ts } : State).turnTime t) t.held t.act
  | [] =>
    match s.m.focus with
    | some (tk, w) =>
      if !s.running then .next s
      else
        let a := s.m.nextAct tk w
        act (s.turnTime ⟨1, 0, [], a⟩) [] a
    | none =>
      if s.sys.hub.phase = .startup then exec (.powerOn [] [] ⟨16, false⟩) s
      else .next s

/-- s with an instruction word where the next step fetches; the instruction's bits above nbits are 0 (log entry 8). -/
def State.withFetchWord (s : State) (nbits w : Nat) : State := s.placeWord (w % 2 ^ nbits)

end Sys2Proof.Machine
end

