-- ==== Sys2Proof/Safety.lean ====
section
/-! DEFINITION. What claims about a step speak of: an instruction that issues with every check passed, what a read of a
register or a byte gives, and what an instruction that works on its own path leaves alone. -/

namespace Sys2Proof.Machine

/-! ## An instruction that issues -/

/-- Lanes of the issuing path for which an instruction is active (R175). -/
def Issue.active (c : Issue) (i : Instr) : Lanes := activeLanes c.f c.p.lanes (Instr.shape i).ctl.guard

/-- Instruction i issues from s on the path of c, and passes the checks of R191: those every instruction has, and that of
the header its path falls through to; a long-latency one with no active lane has room on the flag it counts on (R175, R185). -/
structure Issues (s : State) (i : Instr) (c : Issue) : Prop where
  path : s.m.issuing = some c
  legal : checks c (Instr.shape i) (c.active i) = none
  next : s.m.fallThrough c (Instr.bytes i) c.p.lanes (c.active i) = none
  idle : c.active i = 0 → (Instr.shape i).lat = .l → s.m.flagRoom c (Instr.shape i) = true

/-- As Issues, for an instruction that some lanes of the path leave: `stay` fall through. -/
structure IssuesTo (s : State) (i : Instr) (c : Issue) (stay : Lanes) : Prop where
  path : s.m.issuing = some c
  legal : checks c (Instr.shape i) (c.active i) = none
  next : s.m.fallThrough c (Instr.bytes i) stay (c.active i) = none
  idle : c.active i = 0 → (Instr.shape i).lat = .l → s.m.flagRoom c (Instr.shape i) = true

/-- The machine an instruction's effect acts on: it has issued, and the latch has served and held (R184). -/
def Mach.issuedWith (m : Mach) (c : Issue) (i : Instr) : Mach := (m.issued c).latched c (Instr.shape i)

/-- The machine an instruction's effect acts on, from s. -/
def State.start (s : State) (c : Issue) (i : Instr) : Mach := s.m.issuedWith c i

/-- The state after instruction i whose effect left m, where every lane of the path goes on. -/
def State.goesOn (s : State) (c : Issue) (i : Instr) (m : Mach) : State :=
  { s with m := (m.goOn c (Instr.bytes i) 0 []).settle c.tk c.w }

/-- The state after instruction i whose effect left m, where the lanes moved go on as the paths ps. -/
def State.splits (s : State) (c : Issue) (i : Instr) (moved : Lanes) (ps : List Path) (m : Mach) : State :=
  { s with m := (m.goOn c (Instr.bytes i) moved ps).settle c.tk c.w }

/-- The state after instruction i whose effect left m, where the path stops in a state. -/
def State.stops (s : State) (c : Issue) (st : PathSt) (m : Mach) : State :=
  { s with m := (m.stopPath c st).settle c.tk c.w }

/-- The state after an instruction that raises fault f at the issuing path (R248): its core's issue cycle is used (R97), and nothing of
the instruction's effect happens. -/
def State.faults (s : State) (c : Issue) (f : Fail) : State := { s with m := ((s.m.tookCycle c).raise c f).settle c.tk c.w }

/-- The state after long-latency instruction i, with an operation of kind k under way (R185); its issue left m. -/
def State.underWay (s : State) (c : Issue) (i : Instr) (counted : Bool) (k : OpKind) (m : Mach) : State :=
  s.goesOn c i (m.startOp c (Instr.shape i) (c.active i) counted k)

/-! ## Reads -/

/-- Register r of lane n in a frame. -/
def State.reg (s : State) (fr r n : Nat) : Word := ((s.m.frames.get? fr).map fun f => f.reg r n).getD 0

/-- Byte a of memory. -/
def State.byte (s : State) (a : Nat) : Byte := Memory.read s.m.mem a

/-- Byte a of a team's local store. -/
def State.lsByte (s : State) (tk a : Nat) : Byte := ((s.m.team? tk).map fun t => Memory.read t.ls a).getD 0

/-- FPSTAT of a task. -/
def State.fpstat (s : State) (t : Nat) : Word := ((s.m.tasks.get? t).map fun k => k.fpstat).getD 0

/-! ## What every step keeps -/

/-- The form of the machine's tables that claims about steps assume: memory canonical, and every operation under way with a
number that has been given out. -/
structure Mach.Form (m : Mach) : Prop where
  mem : Memory.wf m.mem = true
  ops : ∀ o ∈ m.ops, o.1 < m.serial

/-! ## What an instruction on its own path leaves alone -/

/-- A task without what every issue of its path may change: where its paths stand, its operand latch, its place, its counts. -/
def Task.rest (k : Task) : Task :=
  { k with run := none, paths := [], latch := [], st := .queued, order := 0, watch := 0, lastIssue := 0, fpstat := 0 }

/-- A warp without its state, its task and when it last issued. -/
def Warp.rest (x : Warp) : Warp := { x with st := .idle, task := none, lastIssue := 0 }

/-- A team without its count of clauses and its list of parked tasks. -/
def Team.rest (t : Team) : Team := { t with clauses := 0, parked := [] }

/-- A core without the issue counts of its partitions and the clock of its last issue. -/
def Core.rest (k : Core) : Core := { k with credit := [], used := [], issuedAt := none }

/-- A frame without its registers. -/
def Frame.rest (f : Frame) : Frame := { f with regs := [] }

/-- From m to n nothing changed but the issuing path's own things: the registers of its frame, FPSTAT of its task, where its
paths stand, issue counts and serial numbers. -/
structure OwnOnly (m n : Mach) (c : Issue) : Prop where
  other : { n with tasks := m.tasks, warps := m.warps, teams := m.teams, cores := m.cores, frames := m.frames,
                   serial := m.serial } = m
  tasks : ∀ k, k ≠ c.t → n.tasks.get? k = m.tasks.get? k
  task : (n.tasks.get? c.t).map Task.rest = (m.tasks.get? c.t).map Task.rest
  warps : ∀ k, k ≠ warpKey c.tk c.w → n.warps.get? k = m.warps.get? k
  warp : (n.warps.get? (warpKey c.tk c.w)).map Warp.rest = (m.warps.get? (warpKey c.tk c.w)).map Warp.rest
  teams : ∀ k, (n.team? k).map Team.rest = (m.team? k).map Team.rest
  cores : ∀ k, (n.core k).rest = (m.core k).rest
  frames : ∀ k, k ≠ c.p.frame → n.frames.get? k = m.frames.get? k
  frame : (n.frames.get? c.p.frame).map Frame.rest = (m.frames.get? c.p.frame).map Frame.rest

/-- The frame of an instruction that changes only registers of its frame and FPSTAT of its task: hub, flash and agenda stay,
every byte of memory and of every local store stays, and everything else OwnOnly names. -/
structure RegsOnly (s t : State) (c : Issue) : Prop where
  sys : t.sys = s.sys
  agenda : t.agenda = s.agenda
  subj : t.subj = s.subj
  mem : ∀ a, t.byte a = s.byte a
  ls : ∀ k a, t.lsByte k a = s.lsByte k a
  own : OwnOnly s.m t.m c

/-- From m to n no byte of memory or of a local store, no register of a frame, no accumulator word, no FPSTAT or PRIO of a
task, no XSTEAL or TRAPVEC of a team, and neither SVCTL nor RPLCTL changed. -/
structure Still (m n : Mach) : Prop where
  mem : ∀ a, Memory.read n.mem a = Memory.read m.mem a
  ls : ∀ k, (n.team? k).map (·.ls) = (m.team? k).map (·.ls)
  regs : ∀ k, (n.frames.get? k).map (·.regs) = (m.frames.get? k).map (·.regs)
  acc : ∀ k, (n.core k).acc = (m.core k).acc
  tasks : ∀ k x, n.tasks.get? k = some x → ∃ y, m.tasks.get? k = some y ∧ x.fpstat = y.fpstat ∧ x.prio = y.prio
  teams : ∀ k, (n.team? k).map (fun x => (x.xsteal, x.trapvec)) = (m.team? k).map fun x => (x.xsteal, x.trapvec)
  control : n.svctl = m.svctl ∧ n.rplctl = m.rplctl

/-- From s to t hub, flash and agenda stay, and everything Still names. -/
structure Quiet (s t : State) : Prop where
  sys : t.sys = s.sys
  agenda : t.agenda = s.agenda
  still : Still s.m t.m

/-- No message of operation n stands at a gated router, and no home is to return it (R39, R50). -/
structure Mach.Arrived (m : Mach) (n : Nat) : Prop where
  held : ∀ h ∈ m.heldMsgs, h.n ≠ n
  stale : ∀ d ∈ m.domains, n ∉ d.2.stale

/-- No request of a peer that has arrived waits to be applied, no future operation is held at its home, and no remote future is to be
resolved for a lost peer (R31, R33, R131). -/
structure Mach.PeersIdle (m : Mach) : Prop where
  late : m.late = []
  requests : m.peerIn = []
  lost : ∀ r ∈ m.remoteCells, m.conn r.module ≠ .down

/-- A long-latency instruction issues with a lane active and room on its flag (R175, R185). -/
structure LongIssues (s : State) (i : Instr) (c : Issue) : Prop extends Issues s i c where
  some : c.active i ≠ 0
  room : s.m.flagRoom c (Instr.shape i) = true

/-- t is s after register instruction i of path c wrote, in every active lane n, the words of g from D up, with the FPSTAT
bits of g, and changed nothing else but what RegsOnly names. -/
structure Writes (s t : State) (c : Issue) (i : Instr) (g : Lanes → (Nat → Args) → Nat → Res) : Prop where
  only : RegsOnly s t c
  fpstat : t.fpstat c.t = s.fpstat c.t |||
    fpOf ((laneList (c.active i)).map fun n => (n, g (c.active i) (argsOf c.f (Instr.shape i)) n))
  regs : ∀ r n, n < 32 → t.reg c.p.frame r n =
    let ws := (g (c.active i) (argsOf c.f (Instr.shape i)) n).ws
    let d := Opd.base (Instr.shape i).d
    if (c.active i).getLsbD n ∧ d ≤ r ∧ r < d + ws.length then ws.getD (r - d) 0 else s.reg c.p.frame r n

end Sys2Proof.Machine
end

