-- ==== Sys2Proof/Certificates/Slice0/Obligations.lean ====
section
/-! DEFINITION. The statements about this model. Each `Obligations.<Name>` cites the rules of spec/ it rests on; the value
tables before a group give, instruction by instruction, what the rule says a lane receives. -/

namespace Sys2Proof.Machine

/-! ## What register instructions compute -/

/-- The value a lane receives from an integer or address instruction (R312, R313). -/
def intValue : Instr → Option (Args → Res)
  | .iadd _ t sat _ _ _ => some fun v => intRes t sat (extT t v.a + extT t v.b)
  | .isub _ t sat _ _ _ => some fun v => intRes t sat (extT t v.a - extT t v.b)
  | .imul _ t sat _ _ _ => some fun v => intRes t sat (extT t v.a * extT t v.b)
  | .imulhi _ t _ _ _ => some fun v => intRes t false ((extT t v.a * extT t v.b).fdiv (2 ^ 32))
  | .imad _ t sat _ _ _ _ => some fun v => intRes t sat (extT t v.a * extT t v.b + extT t v.c)
  | .ineg _ sat _ _ => some fun v => intRes .i32 sat (-extT .i32 v.a)
  | .iabs _ sat _ _ => some fun v => intRes .i32 sat |extT .i32 v.a|
  | .imin _ t _ _ _ => some fun v => intRes t false (min (extT t v.a) (extT t v.b))
  | .imax _ t _ _ _ => some fun v => intRes t false (max (extT t v.a) (extT t v.b))
  | .iaddW _ t sat _ _ _ => some fun v => intRes t sat (extT t v.a + extT t v.b)
  | .isubW _ t sat _ _ _ => some fun v => intRes t sat (extT t v.a - extT t v.b)
  | .imulW _ t _ _ _ => some fun v => res64 (.ofInt 64 (extT t v.a * extT t v.b))
  | .imadW _ t _ _ _ _ => some fun v => res64 (.ofInt 64 (extT t v.a * extT t v.b) + v.c)
  | .lea _ t sh _ _ _ imm => some fun v =>
      res64 (v.a + .ofInt 64 (extT t v.b * 2 ^ sh.toNat) + .ofInt 64 imm.toInt)
  | .mov _ _ _ => some fun v => res32 (loWord v.a)
  | .movW _ _ _ => some fun v => res64 v.a
  | .movi _ _ imm => some fun _ => res32 (imm.signExtend 32)
  | .moviL _ t _ imm => some fun _ =>
      if t = .i64 then res64 (imm.signExtend 64) else if t = .n64 then res64 (imm.zeroExtend 64) else res32 imm
  | .iaddi _ t sat _ _ imm => some fun v => intRes t sat (extT t v.a + imm.toInt)
  | .sad _ t _ _ _ _ => some fun v => intRes t false (|extT t v.a - extT t v.b| + extT t v.c)
  | _ => none

/-- The value a lane receives from a logic or bit-field instruction (R315, R317). -/
def logicValue : Instr → Option (Args → Res)
  | .and _ _ _ _ => some fun v => res32 (loWord v.a &&& loWord v.b)
  | .or _ _ _ _ => some fun v => res32 (loWord v.a ||| loWord v.b)
  | .xor _ _ _ _ => some fun v => res32 (loWord v.a ^^^ loWord v.b)
  | .not _ _ _ => some fun v => res32 (~~~loWord v.a)
  | .rot _ _ _ k => some fun v => res32 ((loWord v.a).rotateLeft (countVal k v.b % 32))
  | .bfe _ t _ _ pos len => some fun v =>
      let field := (loWord v.a).toNat / 2 ^ pos.toNat % 2 ^ len.toNat
      res32 (.ofInt 32 (if t = .i32 ∧ len ≠ 0 ∧ 2 ^ (len.toNat - 1) ≤ field then (field : Int) - 2 ^ len.toNat else field))
  | .bfi _ _ _ _ pos len => some fun v =>
      let mask : Word := .ofNat 32 ((2 ^ len.toNat - 1) * 2 ^ pos.toNat)
      res32 ((loWord v.a &&& ~~~mask) ||| ((loWord v.b <<< pos.toNat) &&& mask))
  | .popc _ _ _ => some fun v => res32 (.ofNat 32 ((List.range 32).countP fun i => (loWord v.a).getLsbD i))
  | .clz _ _ _ => some fun v => res32 (loWord v.a).clz
  | .brev _ _ _ => some fun v => res32 (loWord v.a).reverse
  | _ => none

/-- The value a lane receives from a shift (R316): k is the count. -/
def shiftValue : Instr → Option (Args → Res)
  | .shl _ _ _ k => some fun v => res32 (.ofNat 32 ((loWord v.a).toNat * 2 ^ countVal k v.b))
  | .shr _ _ _ k => some fun v => res32 (.ofNat 32 ((loWord v.a).toNat / 2 ^ countVal k v.b))
  | .sar _ _ _ k => some fun v => res32 (.ofInt 32 ((loWord v.a).toInt.fdiv (2 ^ countVal k v.b)))
  | .shlW _ _ _ k => some fun v => res64 (.ofNat 64 (v.a.toNat * 2 ^ countVal k v.b))
  | .shrW _ t _ _ k => some fun v =>
      if t = .i64 then res64 (.ofInt 64 (v.a.toInt.fdiv (2 ^ countVal k v.b)))
      else res64 (.ofNat 64 (v.a.toNat / 2 ^ countVal k v.b))
  | _ => none

/-- Bit i of the result of FN, from the bits of a, b and c (R318). -/
def mixBit : LFn → Bool → Bool → Bool → Bool
  | .andor, a, b, c => (a && b) || c
  | .orand, a, b, c => (a || b) && c
  | .xor3, a, b, c => a ^^ b ^^ c
  | .maj, a, b, c => 2 ≤ a.toNat + b.toNat + c.toNat
  | .mux, a, b, c => if c then a else b
  | .andxor, a, b, c => (a && b) ^^ c
  | .orxor, a, b, c => (a || b) ^^ c
  | .xorand, a, b, c => (a ^^ b) && c

/-- The value a lane receives from a compare or from `sel` (R319-R321). -/
def compareValue : Instr → Option (Args → Res)
  | .icmp _ t k _ _ _ => some fun v => res32 (boolWord (icondHolds k (extT t v.a) (extT t v.b)))
  | .icmpW _ t k _ _ _ => some fun v => res32 (boolWord (icondHolds k (extT t v.a) (extT t v.b)))
  | .fcmp _ k _ _ _ => some fun v =>
      { ws := [boolWord (fcondRes k (fval v.a) (fval v.b)).1], fp := Fp.word { iv := (fcondRes k (fval v.a) (fval v.b)).2 } }
  | .sel _ t _ _ _ _ => some fun v =>
      let x := if v.c.getLsbD 0 then v.a else v.b
      if t = .n64 then res64 x else res32 (loWord x)
  | _ => none

/-- The source lane s of a shuffle for offset δ of a lane, as R323 computes it: an integer, possibly outside 0 to 31. -/
def shuffleSource : Instr → Option (Nat → DWord → Int)
  | .shfl _ _ _ k => some fun _ b => delta k b
  | .shflUp _ _ _ k => some fun n b => (n : Int) - delta k b
  | .shflDown _ _ _ k => some fun n b => (n : Int) + delta k b
  | .shflXor _ _ _ k => some fun n b => ((n ^^^ delta k b : Nat) : Int)
  | _ => none

/-- The value a lane receives from `wred` and `wscan` (R244, R325). -/
def reduceValue : Instr → Option (Lanes → (Nat → Args) → Nat → Res)
  | .wred _ op t rnd _ _ => some fun act v _ =>
      let r := warpTree (redNode op t rnd) (sourceVals act v)
      { ws := [r.1.getD 0], fp := r.2 }
  | .wscan _ ex op t rnd _ _ => some fun act v n =>
      let xs := ((laneList act).filter fun k => k < n || (k = n && !ex)).map fun k => loWord (v k).a
      let r := foldVals (redNode op t rnd) xs
      { ws := [r.1.getD (redIdentity op t)], fp := r.2 }
  | _ => none

/-- The value a lane receives from a fixed-latency FP32 instruction (R383-R385, R388). -/
def fpValue : Instr → Option (Args → Res)
  | .fadd _ rnd _ _ _ => some fun v => fres (f32.add rnd (fval v.a) (fval v.b))
  | .fsub _ rnd _ _ _ => some fun v => fres (f32.add rnd (fval v.a) (fval v.b).neg)
  | .fmul _ rnd _ _ _ => some fun v => fres (f32.mul rnd (fval v.a) (fval v.b))
  | .ffma _ rnd _ _ _ _ => some fun v => fres (f32.fma rnd (fval v.a) (fval v.b) (fval v.c))
  | .fmin _ _ _ _ => some fun v => fres (f32.minmax false (fbits v.a) (fbits v.b))
  | .fmax _ _ _ _ => some fun v => fres (f32.minmax true (fbits v.a) (fbits v.b))
  | .fabs _ _ _ => some fun v => res32 (loWord v.a &&& 0x7FFFFFFF)
  | .fneg _ _ _ => some fun v => res32 (loWord v.a ^^^ 0x80000000)
  | .ffloor _ _ _ => some fun v => fres (f32.integral .rm false (fbits v.a))
  | .fceil _ _ _ => some fun v => fres (f32.integral .rp false (fbits v.a))
  | .ftrunc _ _ _ => some fun v => fres (f32.integral .rz false (fbits v.a))
  | .frint _ rnd _ _ => some fun v => fres (f32.integral rnd true (fbits v.a))
  | .fclass _ _ _ => some fun v => res32 (.ofNat 32 (f32.classMask (fbits v.a)))
  | .fscale _ rnd _ _ _ => some fun v => fres (f32.scale rnd (fbits v.a) (loWord v.b).toInt)
  | .ffrac _ rnd _ _ => some fun v => fres (f32.frac rnd (fbits v.a))
  | .hdot2 _ t rnd _ _ _ _ => some fun v =>
      let p (hi : Bool) := ((fmtOf t).num (half hi v.a)).mul ((fmtOf t).num (half hi v.b))
      fres (((((({} : Sum).add (p false)).add (p true)).add (some (fval v.c))).round f32 rnd))
  | _ => none

/-- What each half of a packed instruction computes from its own halves of A, B and C (R387). -/
def halfValue : Instr → Option (Nat → Nat → Nat → FRes)
  | .hadd _ t rnd _ _ _ => some fun a b _ => (fmtOf t).add rnd ((fmtOf t).num a) ((fmtOf t).num b)
  | .hsub _ t rnd _ _ _ => some fun a b _ => (fmtOf t).add rnd ((fmtOf t).num a) ((fmtOf t).num b).neg
  | .hmul _ t rnd _ _ _ => some fun a b _ => (fmtOf t).mul rnd ((fmtOf t).num a) ((fmtOf t).num b)
  | .hfma _ t rnd _ _ _ _ => some fun a b c => (fmtOf t).fma rnd ((fmtOf t).num a) ((fmtOf t).num b) ((fmtOf t).num c)
  | .hmin _ t _ _ _ => some fun a b _ => (fmtOf t).minmax false a b
  | .hmax _ t _ _ _ => some fun a b _ => (fmtOf t).minmax true a b
  | _ => none

/-- The value a lane receives from a fixed-latency conversion (R389-R391). -/
def convertValue : Instr → Option (Args → Res)
  | .cvt _ dst src rnd sat _ _ => some fun v => fres (cvtBits dst src rnd sat v.a.toNat)
  | .cvtW _ dst src rnd sat _ _ => some fun v => icvtRes dst src rnd sat v.a
  | .icvt _ dst src rnd sat _ _ => some fun v => icvtRes dst src rnd sat v.a
  | .cvtX2 _ dst src rnd sat _ _ _ => some fun v =>
      if dst = .f32 then unpackRes src 2 v.a else packRes dst rnd sat [v.a, v.b]
  | .cvtX4 _ dst src rnd sat _ _ _ _ _ => some fun v =>
      if dst = .f32 then unpackRes src 4 v.a else packRes dst rnd sat [v.a, v.b, v.c, v.x]
  | .cvtEl _ src _ _ _ => some fun v => fres (scaledRes (elemNum src v.a.toNat) (s10Num (v.b.toNat % 1024)))
  | _ => none

/-- The value a lane receives from a long-latency register instruction (R314, R386). -/
def longValue : Instr → Option (Args → Res)
  | .idiv _ t sat _ _ _ => some fun v =>
      if extT t v.b = 0 then res32 0xFFFFFFFF else intRes t sat ((extT t v.a).tdiv (extT t v.b))
  | .irem _ t _ _ _ => some fun v => intRes t false ((extT t v.a).tmod (extT t v.b))
  | .frcp _ rnd _ _ => some fun v => fres (f32.rcp rnd (fval v.a))
  | .frsq _ rnd _ _ => some fun v => fres (f32.rsqrt rnd (fval v.a))
  | .fsqrt _ rnd _ _ => some fun v => fres (f32.sqrt rnd (fval v.a))
  | .fdiv _ rnd _ _ _ => some fun v => fres (f32.div rnd (fval v.a) (fval v.b))
  | .fexp2 _ _ _ => some fun v => fres (fexp2 (fbits v.a))
  | .flog2 _ _ _ => some fun v => fres (flog2 (fbits v.a))
  | .fsin _ _ _ => some fun v => fres (fsin (fbits v.a))
  | .fcos _ _ _ => some fun v => fres (fcos (fbits v.a))
  | .ftanh _ _ _ => some fun v => fres (ftanh (fbits v.a))
  | _ => none

end Sys2Proof.Machine

open Sys2Proof Sys2Proof.Machine

/-- R312, R313, R315, R317, R319-R321: an integer, address, logic, bit-field, compare or select instruction that issues
completes, with its result in every active lane's destination, FPSTAT bits where it says so, and nothing else changed but what
RegsOnly names. -/
def Obligations.IntegerAndLogicResults : Prop :=
  ∀ (s : State) (i : Instr) (c : Issue) (g : Args → Res),
    intValue i = some g ∨ logicValue i = some g ∨ compareValue i = some g → Issues s i c →
    ∃ t, exec i s = .next t ∧ Writes s t c i fun _ v n => g (v n)

/-- R316: the shifts, for every count: none is taken modulo the width. -/
def Obligations.ShiftsByAnyCount : Prop :=
  ∀ (s : State) (i : Instr) (c : Issue) (g : Args → Res), shiftValue i = some g → Issues s i c →
    ∃ t, exec i s = .next t ∧ Writes s t c i fun _ v n => g (v n)

/-- R318: `lmix` bit by bit, with its inversions; no FPSTAT bit is set. -/
def Obligations.LmixBitByBit : Prop :=
  ∀ (s : State) (ct : Ctl) (fn : LFn) (inv : LInv) (d a b e : Reg) (c : Issue),
    Issues s (.lmix ct fn inv d a b e) c →
    ∃ t, exec (.lmix ct fn inv d a b e) s = .next t ∧ RegsOnly s t c ∧ t.fpstat c.t = s.fpstat c.t ∧
      (∀ n < 32, (c.active (.lmix ct fn inv d a b e)).getLsbD n = true → ∀ k < 32,
        (t.reg c.p.frame d.toNat n).getLsbD k =
          (inv.d ^^ mixBit fn (inv.a ^^ (s.reg c.p.frame a.toNat n).getLsbD k)
            (inv.b ^^ (s.reg c.p.frame b.toNat n).getLsbD k) (inv.c ^^ (s.reg c.p.frame e.toNat n).getLsbD k))) ∧
      ∀ r n, n < 32 → ¬((c.active (.lmix ct fn inv d a b e)).getLsbD n = true ∧ r = d.toNat) →
        t.reg c.p.frame r n = s.reg c.p.frame r n

/-- R323: every shuffle: D receives A of lane s where s is from 0 to 31 and a source lane, the lane's own A otherwise. -/
def Obligations.ShufflesTakeSourceLane : Prop :=
  ∀ (s : State) (i : Instr) (c : Issue) (src : Nat → DWord → Int), shuffleSource i = some src → Issues s i c →
    ∃ t, exec i s = .next t ∧ Writes s t c i fun act v n =>
      let q := src n (v n).b
      res32 (loWord (if 0 ≤ q ∧ q ≤ 31 ∧ act.getLsbD q.toNat = true then (v q.toNat).a else (v n).a))

/-- R324: `ballot` writes the mask of source lanes whose A has bit 0 set; `bcast` the A of lane n or of the lowest source
lane. -/
def Obligations.BallotAndBroadcast : Prop :=
  (∀ (s : State) (ct : Ctl) (d a : Reg) (c : Issue), Issues s (.ballot ct d a) c →
    ∃ t, exec (.ballot ct d a) s = .next t ∧ RegsOnly s t c ∧ t.fpstat c.t = s.fpstat c.t ∧
      ∀ r n, n < 32 →
        (¬((c.active (.ballot ct d a)).getLsbD n = true ∧ r = d.toNat) → t.reg c.p.frame r n = s.reg c.p.frame r n) ∧
        ((c.active (.ballot ct d a)).getLsbD n = true → r = d.toNat → ∀ l < 32,
          (t.reg c.p.frame r n).getLsbD l =
            ((c.active (.ballot ct d a)).getLsbD l && (s.reg c.p.frame a.toNat l).getLsbD 0))) ∧
  ∀ (s : State) (ct : Ctl) (d a : Reg) (k : Option (BitVec 5)) (c : Issue), Issues s (.bcast ct d a k) c →
    ∃ t, exec (.bcast ct d a k) s = .next t ∧ Writes s t c (.bcast ct d a k) fun act v _ =>
      res32 (loWord (v (match k with
        | some n => if act.getLsbD n.toNat then n.toNat else ((List.range 32).find? fun l => act.getLsbD l).getD 0
        | none => ((List.range 32).find? fun l => act.getLsbD l).getD 0)).a)

/-- R244, R325: `wred` and `wscan`. -/
def Obligations.WarpReductionsAndScans : Prop :=
  ∀ (s : State) (i : Instr) (c : Issue) (g : Lanes → (Nat → Args) → Nat → Res), reduceValue i = some g → Issues s i c →
    ∃ t, exec i s = .next t ∧ Writes s t c i g

/-- R383-R385, R388-R391: the fixed-latency FP32 instructions and conversions.
The model's own choices in it: log entries 10, 11, 56. -/
def Obligations.FloatAndConversionResults : Prop :=
  ∀ (s : State) (i : Instr) (c : Issue) (g : Args → Res), fpValue i = some g ∨ convertValue i = some g → Issues s i c →
    ∃ t, exec i s = .next t ∧ Writes s t c i fun _ v n => g (v n)

/-- R387: a packed instruction computes each half from its own halves, and sets the conditions of both; `hcmp` writes the low
half's result in bit 0 and the high half's in bit 1. The model's own choices in it: log entry 10. -/
def Obligations.PackedHalvesIndependent : Prop :=
  (∀ (s : State) (i : Instr) (c : Issue) (g : Nat → Nat → Nat → FRes), halfValue i = some g → Issues s i c →
    ∃ t, exec i s = .next t ∧ Writes s t c i fun _ v n =>
      let lo := g (half false (v n).a) (half false (v n).b) (half false (v n).c)
      let hi := g (half true (v n).a) (half true (v n).b) (half true (v n).c)
      { ws := [.ofNat 32 (lo.bits + 2 ^ 16 * hi.bits)], fp := (lo.fp.or hi.fp).word }) ∧
  ∀ (s : State) (ct : Ctl) (ty : Ty) (k : FCond) (d a b : Reg) (c : Issue), Issues s (.hcmp ct ty k d a b) c →
    ∃ t, exec (.hcmp ct ty k d a b) s = .next t ∧ Writes s t c (.hcmp ct ty k d a b) fun _ v n =>
      let lo := fcondRes k ((fmtOf ty).num (half false (v n).a)) ((fmtOf ty).num (half false (v n).b))
      let hi := fcondRes k ((fmtOf ty).num (half true (v n).a)) ((fmtOf ty).num (half true (v n).b))
      { ws := [.ofNat 32 (lo.1.toNat + 2 * hi.1.toNat)], fp := Fp.word { iv := lo.2 || hi.2 } }

/-- R185, R187, R314, R386, R392: a long-latency register instruction with room on its flag goes under way: what it will write
is fixed as it issues, from the operands of each active lane; `cvt.pk` fixes what each lane receives of its block in local
store, and consumes poison there. The model's own choices in it: log entry 9. -/
def Obligations.LongArithmeticUnderWay : Prop :=
  (∀ (s : State) (i : Instr) (c : Issue) (g : Args → Res), longValue i = some g → Issues s i c → c.active i ≠ 0 →
    s.m.flagRoom c (Instr.shape i) = true →
    let rs := (laneList (c.active i)).map fun n => (n, g (argsOf c.f (Instr.shape i) n))
    exec i s = .next (s.underWay c i false
      (.writes (rs.flatMap fun r => r.2.ws.zipIdx.map fun w => (Opd.base (Instr.shape i).d + w.2, r.1, w.1)) (fpOf rs))
      (s.start c i))) ∧
  ∀ (s : State) (ct : Ctl) (d a b : Reg) (c : Issue),
    let i : Instr := .cvtPk ct d a b
    LongIssues s i c → s.m.cvtPkChk c (c.active i) a = .ok →
    let block (n : Nat) : Nat := (c.f.reg a.toNat n).toNat
    let rs := (laneList (c.active i)).map fun n =>
      (n, blockRes (s.m.lsRead c.tk (block n) 64) (c.f.reg b.toNat n).toNat)
    let bad := (laneList (c.active i)).any fun n => s.m.poisoned (.ls c.tk (block n)) 64
    exec i s = .next (s.underWay c i false
      (.writes (rs.map fun r => (d.toNat, r.1, .ofNat 32 r.2.bits)) (rs.foldl (fun w r => w ||| r.2.fp.word) 0))
      ((s.start c i).consume c.tk c.w bad 0))

/-! ## Operations that complete -/

namespace Sys2Proof.Machine

/-- Operation n completes from s: it is over, memory reads as bytes, no local store changes, and of the registers only those of ws,
of frame fr, each a (register, lane, word). -/
def Completes (s : State) (n : Nat) (sv : Serve) (bytes : Nat → Byte) (fr : Nat) (ws : List (Nat × Nat × Word)) : Prop :=
  ∃ m : Mach, exec (.operationComplete n sv) s = .next { s with m := m.finishOp n [] } ∧
    (m.finishOp n []).ops.get? n = none ∧ (∀ a, Memory.read (m.finishOp n []).mem a = bytes a) ∧
    (∀ q, ((m.finishOp n []).team? q).map (·.ls) = (s.m.team? q).map (·.ls)) ∧
    ∀ k, m.frames.get? k = (s.m.frames.get? k).map fun f =>
      if k = fr then ws.foldl (fun f w => f.setBoth w.1 w.2.1 w.2.2) f else f

/-- Operation n, o, may end: its request has reached homes that hold nothing back, its writes stand at no gate, and the replies cross
the mesh (R35, R39, R50, R161). -/
structure Mach.MayEnd (m : Mach) (n : Nat) (o : Op) : Prop where
  here : m.ops.get? n = some o
  live : o.gone = false ∧ o.dead = false
  arrived : m.Arrived n
  gate : m.atGate (m.targetsOf o) = false
  back : (m.backOver n o.core (o.kind.homes ++ (m.targetsOf o).map (·.1)) (m.targetsOf o)).1 = true

/-- The byte at a place. -/
def State.at (s : State) : Place → Byte
  | .dev a => s.byte a
  | .ls q a => s.lsByte q a

/-- The bytes of the rows of a tile, and its packed rows, are the manual's to say: no peer's, no foreign part of a staging pool's
(R120), none where launch state may be saved (R272); no row is poisoned. -/
structure Mach.TilePlain (m : Mach) (o : Op) (k : TileK) : Prop where
  rows : ∀ p ∈ k.rows, p.peer? = none ∧ m.ownSpill o.task p k.rowlen = false ∧ m.poisoned p k.rowlen = false ∧
    ∀ i < k.rowlen, m.strayPool o.task (p.plus i) = false
  packed : ∀ i < k.bytes, m.strayPool o.task (.ls k.team (k.packed + i)) = false

/-- The bytes lane access a of load k takes, as message n of a core (R205, R206, R333, R336): those of the core's L1D copy of the
line, where the load may use one and the copy has not left; else those of a replica, where the message is served there; else
memory's, or the local store's; each under the earlier stores of the core to them that are still in its path. -/
def loadBytes (m : Mach) (n core : Nat) (k : LoadK) (sv : Serve) (a : LaneAcc) : List Byte :=
  m.overStores n core a.place (match a.place with
    | .ls tk off => m.lsRead tk off k.size
    | .dev pa =>
      let near := !k.atHome && a.cache && m.sliceHolds pa
      let copy := if near && !sv.evict.contains (lineOf pa) then (m.core core).l1d.get? (lineOf pa) else none
      let replica := if near && sv.replica then m.replicaOf (coreDie core) (lineOf pa) else none
      match copy.or replica with
      | some line => (line.drop (pa % 128)).take k.size
      | none => Memory.readN m.mem pa k.size)

/-- The words a load writes from D up (R332): a narrow value sign-extended or zero-extended to 32 bits; else the value's 32-bit words,
the lowest first. -/
def loadResult (k : LoadK) (bytes : List Byte) : List Word :=
  let v := bytesNat bytes
  if k.size < 4 then [.ofInt 32 (if k.sext = true ∧ 2 ^ (8 * k.size - 1) ≤ v then (v : Int) - 2 ^ (8 * k.size) else v)]
  else (List.range k.words).map fun j => .ofNat 32 (v / 2 ^ (32 * j))

/-- Whether a load's bytes at a place are the manual's to say: of local HBM or host memory where no launch state may be saved (R272), or
of a local store, and not of a foreign part of a staging pool (R120). -/
def plainPlace (m : Mach) (t : Nat) (p : Place) (n : Nat) : Prop :=
  match p with
  | .ls .. => m.strayPool t p = false
  | .dev pa => (regionOf pa = .hbm ∧ m.ownSpill t p n = false) ∨ regionOf pa = .host

end Sys2Proof.Machine

/-- R185, R246: a long-latency register instruction, none of whose messages is held, completes: its FPSTAT bits are set, the words
it fixed as it issued stand in the registers of its frame, no other register and no byte changes; then the operation finishes
(R181, R185). R205, R206, R332, R333, R336: a load whose request may be served and whose reply reaches the core completes: every lane
receives the words of its bytes, extended as its TYPE says, and no byte and no other register changes. Where several lanes may use
L1D copies or replicas, each as the lanes before it have left them, the clause covers one lane at a time. The model's own choices in
it: log entry 2. -/
def Obligations.RegisterOperationLands : Prop :=
  (∀ (s : State) (n : Nat) (o : Op) (sv : Serve) (ws : List (Nat × Nat × Word)) (fp : Word), s.m.ops.get? n = some o →
    o.kind = .writes ws fp → o.gone = false → o.dead = false → s.m.Arrived n →
    ∃ m : Mach, exec (.operationComplete n sv) s = .next { s with m := m.finishOp n [] } ∧
      (m.finishOp n []).ops.get? n = none ∧ (∀ a, Memory.read (m.finishOp n []).mem a = s.byte a) ∧
      (∀ k, ((m.finishOp n []).team? k).map (·.ls) = (s.m.team? k).map (·.ls)) ∧
      (∀ k, m.tasks.get? k = (s.m.tasks.get? k).map fun x => if k = o.task then { x with fpstat := x.fpstat ||| fp } else x) ∧
      ∀ k, m.frames.get? k = (s.m.frames.get? k).map fun f =>
        if k = o.frame then ws.foldl (fun f w => f.setReg w.1 w.2.1 w.2.2) f else f) ∧
  ∀ (s : State) (n : Nat) (o : Op) (sv : Serve) (k : LoadK), s.m.ops.get? n = some o →
    o.kind = .load k → o.gone = false → o.dead = false → s.m.served n false (k.lanes.map (·.place)) = true →
    s.m.overtakes o.task (some n) o.kind.ranges = false →
    (k.promote = true → ∀ a ∈ k.lanes, ∀ pa, a.place = .dev pa → ∀ core, s.m.relcore.get? (lineOf pa) = some core →
      s.m.drained core = true) →
    s.m.Arrived n → (s.m.backOver n o.core (k.lanes.map (·.place)) []).1 = true →
    (∀ a ∈ k.lanes, plainPlace s.m o.task a.place k.size ∧ s.m.poisoned a.place k.size = false) →
    (k.atHome = true ∨ (∀ a ∈ k.lanes, a.cache = false) ∨ k.lanes.length = 1) →
    Completes s n sv s.byte o.frame
      (k.lanes.flatMap fun a => (loadResult k (loadBytes s.m n o.core k sv a)).zipIdx.map fun w => (k.d + w.2, a.lane, w.1))

/-! ## Loads and stores -/

namespace Sys2Proof.Machine

/-- Space, fields, address register, offset, bytes of each lane's access and words written, of a load (R332, R333, R336). -/
def loadForm : Instr → Option (Spc × MemF × Reg × BitVec 24 × Nat × Nat)
  | .ld _ f _ a off => some (.va, f, a, off, tyWidth f.ty / 8, if f.ty.is64 then 2 else 1)
  | .ldX4 _ f _ a off => some (.va, f, a, off, 16, 4)
  | .ldl _ f _ a off => some (.ls, f, a, off, tyWidth f.ty / 8, if f.ty.is64 then 2 else 1)
  | .ldlX4 _ f _ a off => some (.ls, f, a, off, 16, 4)
  | .ldw _ f _ a off => some (.cw, f, a, off, tyWidth f.ty / 8, if f.ty.is64 then 2 else 1)
  | .ldwX4 _ f _ a off => some (.cw, f, a, off, 16, 4)
  | _ => none

/-- Space, fields, address register, value register and offset of a store (R333, R336). -/
def storeForm : Instr → Option (Spc × MemF × Reg × Reg × BitVec 24)
  | .st _ f a b off => some (.va, f, a, b, off)
  | .stl _ f a b off => some (.ls, f, a, b, off)
  | .stw _ f a b off => some (.cw, f, a, b, off)
  | _ => none

/-- Fields, function, address register and offset of an atomic (R346-R348). -/
def atomForm : Instr → Option (AtomF × AtomFn × Reg × Int)
  | .aadd _ f _ a _ off => some (f, .add, a, off.toInt)
  | .amin _ f _ a _ off => some (f, .min (tySigned f.ty), a, off.toInt)
  | .amax _ f _ a _ off => some (f, .max (tySigned f.ty), a, off.toInt)
  | .alog _ op f _ a _ off => some (f, .log op, a, off.toInt)
  | .axchg _ f _ a _ off => some (f, .xchg, a, off.toInt)
  | .acas _ f _ a _ _ off => some (f, .cas, a, off.toInt)
  | .afadd _ rnd f _ a _ off => some (f, .fadd rnd, a, off.toInt)
  | .afmin _ f _ a _ off => some (f, .fmin, a, off.toInt)
  | .afmax _ f _ a _ off => some (f, .fmax, a, off.toInt)
  | _ => none

/-- How a memory instruction of lanes is checked, with its SCOPE, address register and offset (R329, R333, R336, R346, R356). -/
def laneForm (i : Instr) : Option (AccSpec × Scope × Reg × Int) :=
  match loadForm i, storeForm i, i with
  | some (sp, f, a, off, size, _), _, _ => some ({ spc := sp, size := size }, f.scope, a, off.toInt)
  | _, some (sp, f, a, _, off), _ => some ({ spc := sp, size := tyWidth f.ty / 8, write := true }, f.scope, a, off.toInt)
  | _, _, .acqRp _ t sc _ a off => some ({ spc := .va, size := tyWidth t / 8, promote := true }, sc, a, off.toInt)
  | _, _, i => (atomForm i).map fun x =>
      ({ spc := x.1.space, size := tyWidth x.1.ty / 8, write := true, atom := true }, x.1.scope, x.2.2.1, x.2.2.2)

/-- What the checks of R204 find first at one lane's access to an address: R203 for its translation, R194 for its limits, R226, R218. -/
structure LaneFails (m : Mach) (c : Issue) (k : AccSpec) (n va : Nat) : Prop where
  align : va % k.size ≠ 0 → m.checkLane c k n va = .bad 1 .align
  space : k.spc = .va → va % k.size = 0 → ∀ x,
    m.translateOn c.core c.asid va { write := k.write || k.atom, priv := c.priv } = .bad x → m.checkLane c k n va = .bad 3 x
  limit : k.spc ≠ .va → va % k.size = 0 → m.lsPlace c.tk c.launch k.spc va k.size = none →
    m.checkLane c k n va = .bad 3 .protection
  device : k.spc = .va → va % k.size = 0 → ∀ l,
    m.translateOn c.core c.asid va { write := k.write || k.atom, priv := c.priv } = .ok l →
    (k.atom = true ∧ (l.home = 3 ∨ regionOf l.pa = .host ∨ regionOf l.pa = .mgmt)) ∨
      (k.promote = true ∧ ¬(regionOf l.pa = .hbm ∧ (l.home = 0 ∨ l.home = 2))) →
    m.checkLane c k n va = .bad 4 .atomicDeviceSpace
  locked : m.rangeLocked c.core c.launch c.tk k.spc va k.size (k.write || k.atom) = true → ∀ a, m.checkLane c k n va ≠ .ok a
  last : ∀ st x, 5 ≤ st → m.checkLane c k n va = .bad st x → st = 5 ∧ x = .rangeLocked ∧
    m.rangeLocked c.core c.launch c.tk k.spc va k.size (k.write || k.atom) = true

/-- What R203 raises for a virtual address that no TLB entry serves. -/
structure PageFails (m : Mach) (core asid va : Nat) (k : AccKind) : Prop where
  range : va / 2 ^ 57 ≠ 0 → m.translateOn core asid va k = .bad .pageFault
  unmapped : va / 2 ^ 57 = 0 → m.walk asid va = .none → m.translateOn core asid va k = .bad .pageFault
  leaf : va / 2 ^ 57 = 0 → ∀ e at_ size, m.walk asid va = .leaf e at_ size →
    let pa := pteAddr e + va % size
    (pteV e = false → m.translateOn core asid va k = if k.fetch then .bad .pageFault else .stall (va / size * size)) ∧
    (pteV e = true → (k.write = true ∧ pteW e = false) ∨ (k.fetch = true ∧ pteX e = false) →
      m.translateOn core asid va k = .bad .protection) ∧
    (pteV e = true → (k.write = true → pteW e = true) → (k.fetch = true → pteX e = true) →
      (regionOf pa = .mgmt → k.priv = false → m.translateOn core asid va k = .bad .priv) ∧
      (regionOf pa = .unbacked ∨ (regionOf pa = .hbm ∧ m.isFreed pa = true) → m.translateOn core asid va k = .bad .protection))

/-- R203, R204, R248: a memory instruction of lanes raises the fault that its checks name and has no effect in any lane: the first step
of the order at which a lane fails decides, with the cause of its lowest failing lane, whose address FAULT_ADDR holds, and
FAULT_LANES those of its cause at that step; a page to be filled comes after a fatal cause of step 3 or before. -/
def AccessesFault : Prop :=
  (∀ (s : State) (i : Instr) (c : Issue) (k : AccSpec) (sc : Scope) (a : Reg) (off : Int) (f : Fail),
    laneForm i = some (k, sc, a, off) → s.m.issuing = some c → checks c (Instr.shape i) (c.active i) = none → c.active i ≠ 0 →
    s.m.checkLanes c k (some sc) (laneAddrs c (c.active i) k.spc a off) = .error (.fail f) →
    exec i s = .next (s.faults c f)) ∧
  (∀ (m : Mach) (c : Issue) (k : AccSpec) (sc : Scope) (act : Lanes) (a : Reg) (off : Int) (n va st : Nat) (x : Cause),
    let as := laneAddrs c act k.spc a off
    let bad (b : Nat × Nat) (st : Nat) (x : Cause) : Prop := m.checkLane c k b.1 b.2 = .bad st x
    (n, va) ∈ as → bad (n, va) st x →
    (∀ b ∈ as, ∀ st' x', bad b st' x' → st < st' ∨ (st = st' ∧ n ≤ b.1)) →
    (st ≤ 3 ∨ ∀ b ∈ as, ∀ p, m.checkLane c k b.1 b.2 ≠ .stall p) →
    ∃ f : Fail, m.checkLanes c k (some sc) as = .error (.fail f) ∧ f.cause = x ∧ f.addr = .ofNat 64 va ∧ f.oppos = 2 ∧
      f.scope = some sc ∧ ∀ l < 32, f.lanes.getLsbD l = true ↔ ∃ b ∈ as, b.1 = l ∧ bad b st x) ∧
  (∀ (m : Mach) (c : Issue) (k : AccSpec) (n va : Nat), LaneFails m c k n va) ∧
  (∀ (m : Mach) (core asid va : Nat) (k : AccKind),
    (∀ t ∈ (m.core core).tlb ++ m.dieTlb.getD (coreDie core) [], t.serves asid va = false) → PageFails m core asid va k) ∧
  (∀ (s : State) (ct : Ctl) (t : TileF) (a b : Reg) (load : Bool) (c : Issue) (f : Fail),
    let i : Instr := if load then .tld ct t a b else .tst ct t a b
    s.m.issuing = some c → checks c (Instr.shape i) (c.active i) = none → c.active i ≠ 0 →
    s.m.tileChk c (c.active i) t load a b = .error (.fail f) → exec i s = .next (s.faults c f)) ∧
  ∀ (s : State) (ct : Ctl) (a b : Reg) (discard : Bool) (c : Issue) (f : Fail),
    let i : Instr := if discard then .dsc ct a b else .cwb ct a b
    let lane := lowLane (c.active i)
    s.m.issuing = some c → checks c (Instr.shape i) (c.active i) = none → c.active i ≠ 0 →
    s.m.rangeChk c (c.active i) (c.f.pair a.toNat lane).toNat (c.f.reg b.toNat lane).toNat discard = .error (.fail f) →
    exec i s = .next (s.faults c f)

/-- The value a lane's store writes: a register, or a pair for a 64-bit TYPE (R332). -/
def storeValue (f : Frame) (t : Ty) (b : Reg) (lane : Nat) : Nat :=
  if t.is64 then (f.pair b.toNat lane).toNat else (f.reg b.toNat lane).toNat

end Sys2Proof.Machine

/-- R333, R334, R336: a load whose lanes pass the checks of R204 goes under way with the lanes' accesses as checked, and
changes no register and no byte as it issues; `acq.rp` does so as a promoting acquire served at the home (R356). A load, store,
atomic, tile access or range that fails a check raises its fault instead (R203, R204): AccessesFault.
The model's own choices in it: log entries 2, 30, 110. -/
def Obligations.LoadsGoUnderWay : Prop :=
  (∀ (s : State) (i : Instr) (c : Issue) (sp : Spc) (f : MemF) (a : Reg) (off : BitVec 24) (size words : Nat)
      (as : List LaneAcc), loadForm i = some (sp, f, a, off, size, words) → LongIssues s i c →
      s.m.checkLanes c { spc := sp, size := size } (some f.scope) (laneAddrs c (c.active i) sp a off.toInt) = .ok as →
    let ps := as.map fun x => x.place
    let m := (s.start c i).useTlb c sp as
    let m := (m.send m.serial c.core ps).askPeers m.serial ps
    let m := if f.ord = .poll then m.noteDemotion c.t (selectFlag c.hdr (Instr.shape i).ctl.fs) (c.active i) else m
    let m := ps.foldl (fun m p => m.retain c.core f.hint p) m
    let k : LoadK := ⟨size, decide (f.ty = .i8) || decide (f.ty = .i16), as, Opd.base (Instr.shape i).d, words,
      decide (f.ord ≠ .none), if f.ord = .acq then some f.scope else none, false, f.hint, some f.scope⟩
    exec i s = .next (s.underWay c i false (.load k) m) ∧ Quiet s (s.underWay c i false (.load k) m)) ∧
  AccessesFault ∧
  ∀ (s : State) (ct : Ctl) (t : Ty) (sc : Scope) (d a : Reg) (off : BitVec 24) (c : Issue) (as : List LaneAcc),
    let i : Instr := .acqRp ct t sc d a off
    LongIssues s i c →
      s.m.checkLanes c { spc := .va, size := tyWidth t / 8, promote := true } (some sc)
        (laneAddrs c (c.active i) .va a off.toInt) = .ok as →
    let m := (s.start c i).useTlb c .va as
    let m := m.send m.serial c.core (as.map fun x => x.place)
    let k : LoadK := ⟨tyWidth t / 8, false, as, d.toNat, if t.is64 then 2 else 1, true, some sc, true, .nl1, some sc⟩
    exec i s = .next (s.underWay c i false (.load k) m) ∧ Quiet s (s.underWay c i false (.load k) m)

/-- R206, R333, R336: a store whose lanes pass the checks of R204, R205 and R211 completes with each lane's value in the store
path, in ascending lane order. No byte of memory changes before a home performs the store, no register changes, and of the
local stores only bytes the lanes store to; a store into a staging pool outside the task's buffer may change others of that
pool (R120). The model's own choices in it: log entries 30, 40, 110. -/
def Obligations.StoresEnterStorePath : Prop :=
  ∀ (s : State) (i : Instr) (c : Issue) (sp : Spc) (f : MemF) (a b : Reg) (off : BitVec 24) (as : List LaneAcc),
    storeForm i = some (sp, f, a, b, off) → Issues s i c → c.active i ≠ 0 →
    let size := tyWidth f.ty / 8
    s.m.checkLanes c { spc := sp, size := size, write := true } (some f.scope)
      (laneAddrs c (c.active i) sp a off.toInt) = .ok as →
    s.m.overtakes c.t none (as.map fun x => (x.place, size)) = false →
    (f.ord = .rel → s.m.releaseChk c (c.active i) f.scope = .ok) →
    let m := if f.ord = .rel then (s.start c i).released c.t (c.active i) f.scope else s.start c i
    let m := (as.foldl (fun m x => m.retain c.core f.hint x.place) (m.useTlb c sp as)).putStores c
      (as.map fun x => (x.lane, x.place, natBytes size (storeValue c.f f.ty b x.lane)))
    let t := s.goesOn c i m
    exec i s = .next t ∧ t.sys = s.sys ∧ t.agenda = s.agenda ∧ (∀ x, t.byte x = s.byte x) ∧
      (∀ fr r n, t.reg fr r n = s.reg fr r n) ∧
      ∀ k x, (∀ y ∈ as, ∀ o, y.place = .ls k o → ¬(o ≤ x ∧ x < o + size)) →
        ((∀ y ∈ as, s.m.strayPool c.t y.place = false) ∨ x < ((s.m.launchOf k).map (·.teamKib * 1024)).getD 0) →
        t.lsByte k x = s.lsByte k x

/-- R47, R132, R205, R206: a store at the head of its bytes' order, whose home on this module may serve it, whose invalidations reach
the slices that hold replicas and whose acknowledgement reaches the core, is performed and acknowledged: memory holds its bytes and
no other byte changes, but for WAITHEAD of a cell with waiters that it meets, which is zeroed; the store leaves the path and the
warp counts one less. The model's own choices in it: log entries 2, 25. -/
def Obligations.StoreAckPerformsStore : Prop :=
  ∀ (s : State) (st : PStore) (pa : Nat),
    ((s.m.core s.subj.x).stores.find? fun y => y.id = s.subj.y) = some st → st.place = .dev pa → st.place.peer? = none →
    st.done = false → s.m.served s.subj.y true [st.place] = true →
    s.m.storeBefore s.subj.x s.subj.y [(st.place, st.bytes.length)] = false →
    s.m.relcoreFree st.relcore st.place st.bytes.length = true → s.m.atGate [(st.place, st.bytes.length)] = false →
    let done := s.m.performStore s.subj.x s.subj.y
    done.holds s.subj.y false = false → (done.replied s.subj.y s.subj.x [st.place]).1 = true →
    let zeroed (a : Nat) : Prop := ∃ cell ∈ s.m.waitedCells, cell < pa + st.bytes.length ∧ pa < cell + 16 ∧
      cell + 10 ≤ a ∧ a < cell + 16
    ∃ t, exec .storeAck s = .next t ∧ t.sys = s.sys ∧ t.agenda = s.agenda ∧
      (∀ a, zeroed a → t.byte a = 0) ∧
      (∀ a, ¬zeroed a → t.byte a =
        if pa ≤ a ∧ a < pa + st.bytes.length then st.bytes.getD (a - pa) 0 else s.byte a) ∧
      (t.m.core s.subj.x).stores = (s.m.core s.subj.x).stores.filter (fun y => y.id ≠ s.subj.y) ∧
      (∀ x, s.m.warps.get? (warpKey st.team st.warp) = some x →
        t.m.warps.get? (warpKey st.team st.warp) = some { x with unacked := x.unacked - 1 }) ∧
      t.m.frames = s.m.frames ∧ t.m.teams = s.m.teams ∧ t.m.tasks = s.m.tasks

/-! ## Atomics -/

/-- R346-R348: an atomic whose lanes pass the checks of R204, and whose release is done, goes under way, counted as a store,
and changes no register and no byte as it issues. The model's own choices in it: log entry 30. -/
def Obligations.AtomicsGoUnderWay : Prop :=
  ∀ (s : State) (i : Instr) (c : Issue) (f : AtomF) (fn : AtomFn) (a : Reg) (off : Int) (as : List LaneAcc),
    atomForm i = some (f, fn, a, off) → LongIssues s i c →
    s.m.checkLanes c { spc := f.space, size := tyWidth f.ty / 8, write := true, atom := true } (some f.scope)
      (laneAddrs c (c.active i) f.space a off) = .ok as →
    (f.ord = .rel → s.m.releaseChk c (c.active i) f.scope = .ok) →
    let ps := as.map fun x => x.place
    let m := if f.ord = .rel then (s.start c i).released c.t (c.active i) f.scope else s.start c i
    let m := m.useTlb c f.space as
    let m := (m.send m.serial c.core ps).askPeers m.serial ps
    let k : AtomK := ⟨fn, tyWidth f.ty / 8, as.map fun x =>
        ⟨x, Opd.val c.f (Instr.shape i).b x.lane, Opd.val c.f (Instr.shape i).c x.lane⟩,
      if f.nr then none else some (Opd.base (Instr.shape i).d), if f.ord = .acq then some f.scope else none, some f.scope⟩
    exec i s = .next (s.underWay c i true (.atomic k) m) ∧ Quiet s (s.underWay c i true (.atomic k) m)

/-- R346: what an integer atomic of one lane does to a word of HBM when it completes, where its request may be served and its
reply reaches the core: the word becomes op(old, b), or stays
where a compare fails, and the old value goes to D; no other byte of memory
and no other register changes. Not where the launch's own state may be saved (R272). The model's own choices in it: log entry 2. -/
def Obligations.AtomicReadsModifiesWrites : Prop :=
  ∀ (s : State) (n : Nat) (o : Op) (sv : Serve) (k : AtomK) (x : AtomLane) (pa : Nat), s.m.ops.get? n = some o →
    o.kind = .atomic k → o.gone = false → o.dead = false → k.lanes = [x] → x.acc.place = .dev pa → regionOf pa = .hbm →
    s.m.served n true [.dev pa] = true → s.m.overtakes o.task (some n) [(.dev pa, k.size)] = false →
    s.m.storeBefore o.core n [(.dev pa, k.size)] = false →
    s.m.relcoreFree (s.m.relOf o.task o.core o.lanes) (.dev pa) k.size = true → s.m.ownSpill o.task (.dev pa) k.size = false →
    s.m.Arrived n → s.m.atGate [(.dev pa, k.size)] = false →
    (s.m.backOver n o.core [.dev pa, .dev pa] [(.dev pa, k.size)]).1 = true →
    (∀ cell ∈ s.m.waitedCells, ¬(cell < pa + k.size ∧ pa < cell + 16)) →
    let old := bytesNat (Memory.readN s.m.mem pa k.size)
    let new := ((AtomFn.apply k.fn k.size old x.b.toNat x.c.toNat).1).getD old
    ∃ m : Mach, exec (.operationComplete n sv) s = .next { s with m := m.finishOp n [] } ∧ (m.finishOp n []).ops.get? n = none ∧
      (∀ a, Memory.read (m.finishOp n []).mem a =
        if pa ≤ a ∧ a < pa + k.size then (natBytes k.size new).getD (a - pa) 0 else s.byte a) ∧
      ∀ fr, m.frames.get? fr = (s.m.frames.get? fr).map fun f =>
        match k.d with
        | some d =>
          if fr = o.frame then
            ((loadWords k.size (k.size / 4) false (natBytes k.size old)).zipIdx).foldl
              (fun f w => f.setBoth (d + w.2) x.acc.lane w.1) f
          else f
        | none => f

/-! ## Tiles, ranges and caches -/

/-- R339-R343: a tile access or a range of lines that passes its checks goes under way as checked: a tile store counts as a
store and sends its rows to the peers they lie at; nothing that Quiet names changes as it issues. A `tld` that completes leaves the
bytes of its rows back to back from B on, but for those its footprint overlaps (R344); a `tst` leaves row i's bytes at row i of its
tile, but for those the packed rows overlap; neither changes another byte. A `cwb` that completes leaves memory, its lines clean and
every other line as it was; a `dsc` leaves no line of its ranges dirty or replicated and every byte outside them as it was.
The model's own choices in it: log entries 35, 41, 44, 110. -/
def Obligations.TilesAndRangesGoUnderWay : Prop :=
  (∀ (s : State) (ct : Ctl) (t : TileF) (a b : Reg) (load : Bool) (c : Issue) (k : TileK),
    let i : Instr := if load then .tld ct t a b else .tst ct t a b
    LongIssues s i c → s.m.tileChk c (c.active i) t load a b = .ok k →
    let m := k.rows.foldl (fun m p => m.retain c.core t.hint p)
      (((s.start c i).send (s.start c i).serial c.core k.rows).askPeers (s.start c i).serial k.rows)
    let (bytes, m) := m.taskRead c.t (.ls k.team k.packed) (k.rows.length * k.rowlen)
    let out := if load then [] else (k.rows.zip (rowsOf k.rowlen bytes k.rows.length)).filterMap fun r =>
      match r.1, r.1.peer? with
      | .dev pa, some p => some (PeerMsg.write p pa r.2 false)
      | _, _ => none
    let t := s.underWay c i (!load) (.tile k) { m with peerOut := m.peerOut ++ out }
    exec i s = .next t ∧ Quiet s t) ∧
  (∀ (s : State) (n : Nat) (o : Op) (sv : Serve) (k : TileK) (tm : Team), s.m.MayEnd n o → o.kind = .tile k → k.load = true →
    k.image = none → k.units = [] → o.reply = none → o.replyBad = false → s.m.tileMay n o k = true → s.m.team? k.team = some tm →
    s.m.TilePlain o k →
    let bytes := k.rows.flatMap fun p => s.m.placeRead p k.rowlen
    ∃ t, exec (.operationComplete n sv) s = .next t ∧ t.m.ops.get? n = none ∧ (∀ a, t.byte a = s.byte a) ∧
      (∀ q a, q ≠ k.team ∨ a < k.packed ∨ k.packed + k.bytes ≤ a → t.lsByte q a = s.lsByte q a) ∧
      ∀ i < k.bytes, (∀ f ∈ k.foot, (Place.ls k.team (k.packed + i)).meets 1 f.1 f.2 = false) →
        t.lsByte k.team (k.packed + i) = bytes.getD i 0) ∧
  (∀ (s : State) (n : Nat) (o : Op) (sv : Serve) (k : TileK) (p : Place) (rows stride : Nat), s.m.MayEnd n o → o.kind = .tile k →
    k.load = false → k.units = [] → s.m.tileMay n o k = true → s.m.TilePlain o k →
    k.rows = ((List.range rows).map fun i => p.plus (i * stride)) → k.rowlen ≤ stride →
    (∀ cell ∈ s.m.waitedCells, ∀ r ∈ k.rows, r.meets k.rowlen (.dev cell) 16 = false) →
    (∀ r ∈ k.rows, ∀ q a, r = .ls q a → (s.m.team? q).isSome) →
    ∃ t, exec (.operationComplete n sv) s = .next t ∧ t.m.ops.get? n = none ∧
      (∀ q : Place, (∀ r ∈ k.rows, q.meets 1 r k.rowlen = false) → t.at q = s.at q) ∧
      ∀ i < rows, ∀ j < k.rowlen, (p.plus (i * stride + j)).meets 1 (.ls k.team k.packed) k.bytes = false →
        t.at (p.plus (i * stride + j)) = s.lsByte k.team (k.packed + i * k.rowlen + j)) ∧
  (∀ (s : State) (n : Nat) (o : Op) (sv : Serve) (rs : List (Nat × Nat × Bool)), s.m.MayEnd n o → o.kind = .purge false rs →
    Completes s n sv s.byte o.frame [] ∧ ∀ t, exec (.operationComplete n sv) s = .next t →
      (∀ l, l ∈ t.m.dirty ↔ l ∈ s.m.dirty ∧ ∀ r ∈ rs, l ∉ linesOf r.1 r.2.1) ∧ t.m.l2 = s.m.l2 ∧ t.m.replicas = s.m.replicas) ∧
  (∀ (s : State) (n : Nat) (o : Op) (sv : Serve) (rs : List (Nat × Nat × Bool)), s.m.MayEnd n o → o.kind = .purge true rs →
    ∃ t, exec (.operationComplete n sv) s = .next t ∧ t.m.ops.get? n = none ∧ (∀ q a, t.lsByte q a = s.lsByte q a) ∧
      (∀ a, (∀ r ∈ rs, a < r.1 ∨ r.1 + r.2.1 ≤ a) → t.byte a = s.byte a) ∧
      ∀ r ∈ rs, ∀ l ∈ linesOf r.1 r.2.1, l ∉ t.m.dirty ∧ ∀ die < 4, t.m.replicas.get? (l * 4 + die) = none) ∧
  ∀ (s : State) (ct : Ctl) (a b : Reg) (discard : Bool) (c : Issue) (rs : List (Nat × Nat × Bool)),
    let i : Instr := if discard then .dsc ct a b else .cwb ct a b
    let lane := lowLane (c.active i)
    LongIssues s i c →
    s.m.rangeChk c (c.active i) (c.f.pair a.toNat lane).toNat (c.f.reg b.toNat lane).toNat discard = .ok rs →
    let t := s.underWay c i false (.purge discard rs) (s.start c i)
    exec i s = .next t ∧ Quiet s t

/-- R337, R338: prefetches change nothing a program reads; `dcinv` empties the L1D of the core, `icinv` its L1 instruction
cache, and neither changes anything else that Quiet names. -/
def Obligations.CacheInstructions : Prop :=
  (∀ (s : State) (ct : Ctl) (h : Hint) (a : Reg) (off : BitVec 24) (c : Issue), Issues s (.pf ct h a off) c →
    ∃ t, exec (.pf ct h a off) s = .next t ∧ Quiet s t) ∧
  (∀ (s : State) (ct : Ctl) (h : Hint) (a b : Reg) (r : BitVec 6) (w : BitVec 4) (c : Issue),
    Issues s (.pft ct h a b r w) c →
    ∃ t, exec (.pft ct h a b r w) s = .next t ∧ Quiet s t) ∧
  (∀ (s : State) (ct : Ctl) (c : Issue), Issues s (.dcinv ct) c → c.active (.dcinv ct) ≠ 0 →
    let t := s.goesOn c (.dcinv ct) ((s.start c (.dcinv ct)).updCore c.core fun r => { r with l1d := [] })
    exec (.dcinv ct) s = .next t ∧ Quiet s t) ∧
  ∀ (s : State) (ct : Ctl) (c : Issue), Issues s (.icinv ct) c → c.active (.icinv ct) ≠ 0 →
    let t := s.goesOn c (.icinv ct) ((s.start c (.icinv ct)).updCore c.core fun r => { r with icache := [] })
    exec (.icinv ct) s = .next t ∧ Quiet s t

/-! ## Fences and barriers -/

/-- R211-R213, R355: a release completes once its path's reads have returned and, at `.cl` or wider, the warp's stores are
acknowledged; an acquire once the reads have returned, and then drops the L1D at `.cl` or wider; `fence` does both.
The model's own choices in it: log entry 30. -/
def Obligations.FencesReleaseAndAcquire : Prop :=
  ∀ (s : State) (ct : Ctl) (sc : Scope) (c : Issue),
    (Issues s (.rel ct sc) c → c.active (.rel ct sc) ≠ 0 → s.m.releaseChk c (c.active (.rel ct sc)) sc = .ok →
      let t := s.goesOn c (.rel ct sc) ((s.start c (.rel ct sc)).released c.t (c.active (.rel ct sc)) sc)
      exec (.rel ct sc) s = .next t ∧ Quiet s t) ∧
    (Issues s (.acq ct sc) c → c.active (.acq ct sc) ≠ 0 → s.m.readsOut c.t = false →
      let t := s.goesOn c (.acq ct sc) (if 2 ≤ sc.code then
          (s.start c (.acq ct sc)).updCore c.core fun k => { k with l1d := [] } else s.start c (.acq ct sc))
      exec (.acq ct sc) s = .next t ∧ Quiet s t) ∧
    (Issues s (.fence ct sc) c → c.active (.fence ct sc) ≠ 0 → s.m.releaseChk c (c.active (.fence ct sc)) sc = .ok →
      let t := s.goesOn c (.fence ct sc) 
        (((s.start c (.fence ct sc)).released c.t (c.active (.fence ct sc)) sc).acquire c.core sc)
      exec (.fence ct sc) s = .next t ∧ Quiet s t)

namespace Sys2Proof.Machine

/-- A barrier after an arrival with a count (R358): the first arrival of a phase takes the count, from 1 to 1,024; the last
one starts the next generation. -/
def arrived (x : Barrier) (count : Word) : Barrier :=
  let exp := if x.arr = 0 then min (max (count.toNat % 2 ^ 11) 1) 1024 else x.exp
  if x.arr + 1 = exp then ⟨x.gen + 1, 0, exp⟩ else ⟨x.gen, x.arr + 1, exp⟩

end Sys2Proof.Machine

/-- R358: `bar` arrives, and waits unless its arrival starts the next generation; `bar.arr` arrives and writes the generation
it arrived in; `bar.wait` goes on where the generation is not the one it names, and waits where it is. -/
def Obligations.TeamBarriers : Prop :=
  ∀ (s : State) (ct : Ctl) (b : BitVec 4) (a d : Reg) (c : Issue),
    let x := s.m.barrierOf c b.toNat
    (∀ i, i = .bar ct b a → Issues s i c → c.active i ≠ 0 → s.m.releaseChk c (c.active i) .co = .ok →
      let y := arrived x (c.f.reg a.toNat (lowLane (c.active i)))
      let m := (s.start c i).arrive c (c.active i) b.toNat (c.f.reg a.toNat (lowLane (c.active i)))
      let t := if y.gen ≠ x.gen then s.goesOn c i m else s.stops c (.waiting (.bar b.toNat x.gen)) m
      exec i s = .next t ∧ Quiet s t) ∧
    (∀ i, i = .barArr ct b d a → Issues s i c → c.active i ≠ 0 → s.m.releaseChk c (c.active i) .co = .ok →
      let m := (s.start c i).arrive c (c.active i) b.toNat (c.f.reg a.toNat (lowLane (c.active i)))
      exec i s = .next (s.goesOn c i (m.updFrame c.p.frame fun f =>
        f.setLanes d.toNat (laneList (c.active i)) fun _ => x.gen))) ∧
    ∀ i, i = .barWait ct b a → Issues s i c → c.active i ≠ 0 →
      let g := c.f.reg a.toNat (lowLane (c.active i))
      let t := if x.gen ≠ g then s.goesOn c i (s.start c i) else s.stops c (.waiting (.bar b.toNat g)) (s.start c i)
      exec i s = .next t ∧ Quiet s t

/-- R359-R361: a cell is found as its bytes stand, but with free fields where something other than an operation on it has written it
(log entry 39: DEDUCED) and in a staging pool outside the task's buffer (R120); `bb.init` zeroes the 16 bytes of its cell; `bb.exp`
adds to PEND, arms the phase, tests it and writes the generation it found; `bb.wait` goes on with an acquire where GEN is not B, at
its SCOPE and at that of the operations that delivered into the cell (R219, log entry 112), and waits where it is. What an operation
leaves of a cell in a foreign part of a pool is free (R120). -/
def Obligations.ByteBarriers : Prop :=
  (∀ (m : Mach) (tsk tk off : Nat) (tm : Team), m.team? tk = some tm → off / 16 ∉ tm.spoilt → m.strayCell tsk tk off = false →
    m.asCell tsk tk off = m) ∧
  ∀ (s : State) (ct : Ctl) (a b d : Reg) (sc : Scope) (c : Issue),
    (∀ i, i = .bbInit ct a → Issues s i c → c.active i ≠ 0 → s.m.cellChk c (c.active i) a none = .ok →
      let off := (c.f.reg a.toNat (lowLane (c.active i))).toNat
      let m := (s.start c i).updTeam c.tk fun t => { t with wideCells := t.wideCells.filter (· ≠ off) }
      let t := s.goesOn c i (((m.cellWrite c.tk off (List.replicate 16 0)).wakeCell c.tk off).leaveCell c.t c.tk off)
      exec i s = .next t ∧ t.sys = s.sys ∧ (∀ x, t.byte x = s.byte x) ∧ (∀ fr r n, t.reg fr r n = s.reg fr r n) ∧
        (s.m.strayCell c.t c.tk off = false → ∀ k x, t.lsByte k x = if k = c.tk ∧ off ≤ x ∧ x < off + 16 then 0 else s.lsByte k x)) ∧
    (∀ i, i = .bbExp ct d a b → Issues s i c → c.active i ≠ 0 → s.m.cellChk c (c.active i) a none = .ok →
      let off := (c.f.reg a.toNat (lowLane (c.active i))).toNat
      let n := c.f.reg b.toNat (lowLane (c.active i))
      let m := (s.start c i).asCell c.t c.tk off
      let pend : Word := .ofNat 32 (bytesNat (m.lsRead c.tk off 4)) + n
      let gen : Word := .ofNat 32 (bytesNat (m.lsRead c.tk (off + 4) 4))
      let done := decide (pend = 0) || pend.msb
      let cell := natBytes 4 pend.toNat ++ natBytes 4 (if done then gen + 1 else gen).toNat ++ [if done then 0 else 1] ++
        List.replicate 7 0
      exec i s = .next (s.goesOn c i ((((m.cellWrite c.tk off cell).wakeCell c.tk off).leaveCell c.t c.tk off).updFrame c.p.frame
        fun f => f.setLanes d.toNat (laneList (c.active i)) fun _ => gen))) ∧
    ∀ i, i = .bbWait ct sc a b → Issues s i c → c.active i ≠ 0 → s.m.cellChk c (c.active i) a (some sc) = .ok →
      let off := (c.f.reg a.toNat (lowLane (c.active i))).toNat
      let g := c.f.reg b.toNat (lowLane (c.active i))
      let m := (s.start c i).asCell c.t c.tk off
      let t := if m.cellGen c.tk off ≠ g then
          s.goesOn c i ((m.acquire c.core sc).acquire c.core (if m.wideCell c.tk off then .cl else .wp))
        else s.stops c (.waiting (.bb off g sc)) m
      exec i s = .next t ∧
        (∀ tm, s.m.team? c.tk = some tm → off / 16 ∉ tm.spoilt → s.m.strayCell c.t c.tk off = false → Quiet s t)

/-! ## Control flow -/

namespace Sys2Proof.Machine

/-- The lanes a transfer moves, each with its target (R301-R303): the active lanes, or every lane of the path where a vote of
the active lanes takes the branch. -/
def transferTargets : Instr → Option (Issue → Lanes → List (Nat × DWord))
  | .bra _ t => some fun c act => (laneList act).map fun n => (n, c.p.clause + t.signExtend 64 * 64)
  | .braAny _ a t => some fun c act =>
      if act ≠ 0 ∧ ((laneList act).any fun n => (c.f.reg a.toNat n).getLsbD 0) = true then
        (laneList c.p.lanes).map fun n => (n, c.p.clause + t.signExtend 64 * 64)
      else []
  | .braAll _ a t => some fun c act =>
      if act ≠ 0 ∧ ((laneList act).all fun n => (c.f.reg a.toNat n).getLsbD 0) = true then
        (laneList c.p.lanes).map fun n => (n, c.p.clause + t.signExtend 64 * 64)
      else []
  | .jmp _ a => some fun c act => (laneList act).map fun n => (n, c.f.pair a.toNat n)
  | _ => none

/-- What `call` and `call.i` name: whether the header's frame demand must be the field's, F, w, MK, each lane's target. -/
def callForm : Instr → Option (Bool × Bool × BitVec 5 × Reg × (Issue → Nat → DWord))
  | .call _ mk f w t => some (true, mk, f, w, fun c _ => c.p.clause + t.signExtend 64 * 64)
  | .callI _ mk f a w => some (false, mk, f, w, fun c n => c.f.pair a.toNat n)
  | _ => none

end Sys2Proof.Machine

/-- R301-R303: a transfer whose targets pass the checks moves its lanes, one path for each target, to the clause starts
there; the other lanes go on after the instruction. The model's own choices in it: log entry 23. -/
def Obligations.TransfersMoveLanes : Prop :=
  ∀ (s : State) (i : Instr) (c : Issue) (go : Issue → Lanes → List (Nat × DWord)), transferTargets i = some go →
    let ts := go c (c.active i)
    let moved := laneSet (ts.map (·.1))
    IssuesTo s i c (c.p.lanes &&& ~~~moved) → s.m.transferChk c ts = .ok →
    let t := s.splits c i moved (pathsAt c.p.frame ts) (s.start c i)
    exec i s = .next t ∧ Quiet s t

/-- R261, R263, R265: a call that passes its checks and whose frame fits moves the active lanes to their targets, in one fresh
frame one deeper, whose first NARG registers in each lane are the caller's from v(w) up; with no room the lanes are BLOCKED on
the request. The model's own choices in it: log entries 20, 21, 36. -/
def Obligations.CallsOpenFrame : Prop :=
  ∀ (s : State) (i : Instr) (c : Issue) (exact mk : Bool) (f : BitVec 5) (w : Reg) (go : Issue → Nat → DWord) (p : CallPlan),
    callForm i = some (exact, mk, f, w, go) → c.active i ≠ 0 → IssuesTo s i c (c.p.lanes &&& ~~~c.active i) →
    s.m.callChk c (c.active i) exact (f.toNat + 1) w.toNat ((laneList (c.active i)).map fun n => (n, go c n)) = .ok p →
    let m := s.start c i
    let act := laneSet (p.lanes.map (·.lane))
    let ret := m.nextPc c (Instr.bytes i)
    let clause := if ret = c.nextClause then c.nextClause else c.p.clause
    (m.fits c.tk p.gran = true →
      ∃ ps n g, m.openCall c.t { c.p with lanes := act } p.gran w.toNat mk p.lanes ret clause = (ps, n) ∧
        exec i s = .next (s.splits c i act ps n) ∧ (s.splits c i act ps n).m.frames.get? m.serial = some g ∧
        g.depth = c.f.depth + 1 ∧ g.demand = 8 * p.gran ∧
        ∀ l ∈ p.lanes, ∀ k < l.narg, l.lane < 32 → g.reg k l.lane = c.f.reg (w.toNat + k) l.lane) ∧
    (m.fits c.tk p.gran = false →
      exec i s = .next (s.splits c i act
        [{ c.p with lanes := act, attributed := 0, st := .blocked (.call p.gran w.toNat mk p.lanes ret clause) m.serial }]
        { m.updTask c.t fun k => k.satisfy act with serial := m.serial + 1 }))

/-- R257, R262, R266: `ret` from a handler restores the path's PC, clause and latch; at depth 1 with no handler it raises FRAME_DEPTH,
with a result register still awaited UNWAITED (R187), and has no effect; any other `ret` copies the NRES results of
each lane into its caller's window and goes to the lanes' return points; `unwind.to` does so to each lane's nearest marked
frame, with results from v(s) up. The model's own choices in it: log entry 45. -/
def Obligations.ReturnsAndUnwinds : Prop :=
  (∀ (s : State) (ct : Ctl) (c : Issue),
    let i : Instr := .ret ct
    let act := c.active i
    let ls := (laneList act).filterMap fun n => (c.f.links.get? n).map fun l => (n, l)
    IssuesTo s i c (c.p.lanes &&& ~~~act) → act ≠ 0 →
    (∀ h, c.f.handler = some h → exec i s = .next (s.splits c i act [] (((s.start c i).returnTo c act
      [⟨act, h.pc, h.clause, h.entered, (ls.head?.map (·.2.caller)).getD 0, .eligible, 0⟩]).updTask c.t fun k =>
        k.relatch act h.latch))) ∧
    (c.f.handler = none → 1 < c.f.depth →
      (∀ l ∈ ls, ∀ r < l.2.nres, c.f.mark? r l.1 = none) →
      exec i s = .next (s.splits c i act []
        ((ls.foldl (fun m l => m.giveResults c.p.frame 0 l) (s.start c i)).returnTo c act (returnPaths ls))))) ∧
  (∀ (s : State) (ct : Ctl) (c : Issue),
    let i : Instr := .ret ct
    let act := c.active i
    s.m.issuing = some c → checks c (Instr.shape i) act = none → act ≠ 0 → c.f.handler = none →
    (c.f.depth ≤ 1 → exec i s = .next (s.faults c { cause := .frameDepth, lanes := act, detail := 2 })) ∧
    (1 < c.f.depth → (∃ n l r, act.getLsbD n = true ∧ n < 32 ∧ c.f.links.get? n = some l ∧ r < l.nres ∧ (c.f.mark? r n).isSome) →
      exec i s = .next (s.faults c { cause := .unwaited, lanes := act }))) ∧
  ∀ (s : State) (ct : Ctl) (sb : Reg) (c : Issue),
    let i : Instr := .unwindTo ct sb
    let act := c.active i
    let ls := (laneList act).filterMap fun n => (s.m.markedBelow n c.p.frame).map fun l => (n, l)
    IssuesTo s i c (c.p.lanes &&& ~~~act) → act ≠ 0 → (∀ n, act.getLsbD n = true → (s.m.markedBelow n c.p.frame).isSome) →
    (∀ l ∈ ls, ∀ r < l.2.nres, c.f.mark? (sb.toNat + r) l.1 = none) →
    exec i s = .next (s.splits c i act [] ((ls.foldl (fun m l =>
      (m.giveResults c.p.frame sb.toNat l).padResults c.p.frame sb.toNat l) (s.start c i)).returnTo c act (returnPaths ls)))

/-- R250, R306-R309, R311, R368: `exit` of every lane a task has left ends it with the value 0 once the warp's stores are
acknowledged; of some lanes it takes those from the path; `yield` moves the active lanes to the next clause start; `nop` does nothing;
`setpri` sets PRIO; `wflag` on CLEAR flags with no deferred fault clears the marks, and with one takes the earliest.
The model's own choices in it: log entry 23. -/
def Obligations.ExitYieldNopSetpriWflag : Prop :=
  (∀ (s : State) (ct : Ctl) (c : Issue),
    let i : Instr := .exit ct
    let act := c.active i
    let only := s.m.tasks.get? c.t |>.any fun k => k.paths = []
    IssuesTo s i c (c.p.lanes &&& ~~~act) → act ≠ 0 →
    (act = c.p.lanes → only = true → s.m.ackChk c act .dv = .ok →
      exec i s = .next { s with m := ((s.start c i).finishTask c 0).settle c.tk c.w }) ∧
    (¬(act = c.p.lanes ∧ only = true) →
      let m := (s.start c i).updTask c.t fun k =>
        { k.satisfy act with run := k.run.map fun p => { p with lanes := p.lanes &&& ~~~act } }
      let m := { m with frames := m.frames.mapv fun _ f =>
        if f.task = c.t then { f with marks := f.marks.sift fun n _ => !act.getLsbD n } else f }
      exec i s = .next (s.splits c i act [] (m.freeFrames c.t)))) ∧
  (∀ (s : State) (ct : Ctl) (c : Issue),
    let i : Instr := .yield ct
    let act := c.active i
    IssuesTo s i c (c.p.lanes &&& ~~~act) →
    (∃ h, s.m.headerAt c.core c.asid (c.p.clause + .ofNat 64 ((c.hdr.nblk + 1) * 64)).toNat c.priv = .ok h) →
    let t := s.splits c i act [atClause act (c.p.clause + .ofNat 64 ((c.hdr.nblk + 1) * 64)) c.p.frame] (s.start c i)
    exec i s = .next t ∧ Quiet s t) ∧
  ∀ (s : State) (ct : Ctl) (n : BitVec 3) (mask : BitVec 12) (c : Issue),
    (Issues s (.nop ct) c →
      let t := s.goesOn c (.nop ct) (s.start c (.nop ct))
      exec (.nop ct) s = .next t ∧ Quiet s t) ∧
    (Issues s (.setpri ct n) c → c.active (.setpri ct n) ≠ 0 →
      let t := s.goesOn c (.setpri ct n) ((s.start c (.setpri ct n)).updTask c.t fun k => { k with prio := n.toNat })
      exec (.setpri ct n) s = .next t ∧ ∀ k, t.m.tasks.get? c.t = some k → k.prio = n.toNat) ∧
    ∀ k, s.m.tasks.get? c.t = some k → (∀ f ∈ k.flags, mask.toNat.testBit f.1 = true → f.2.count = 0) →
      Issues s (.wflag ct mask) c → c.active (.wflag ct mask) ≠ 0 →
      (k.takeDeferred mask.toNat = none →
        exec (.wflag ct mask) s = .next (s.goesOn c (.wflag ct mask)
          ((s.start c (.wflag ct mask)).observe c.t c.core mask.toNat c.p.lanes))) ∧
      ∀ r k', k.takeDeferred mask.toNat = some (r, k') →
        exec (.wflag ct mask) s = .next { s with m :=
          ((({ s.m with tasks := s.m.tasks.put c.t k' } : Mach).tookCycle c).deliver c
            { r with pc := c.p.pc, depth := c.f.depth }).settle c.tk c.w }

/-- R252, R255, R256, R310: `trap` with a lane active, TRAPVEC naming a handler and the path in none, enters the handler: a
fresh frame one deeper holds the record's words in v0 to v11 of every lane of the path and keeps record, PC, clause and
latch; the path stands at the vector. With no handler the task ends, its future FAULTED (R259). -/
def Obligations.TrapEntersHandler : Prop :=
  ∀ (s : State) (ct : Ctl) (code : BitVec 7) (ad : Option Reg) (c : Issue) (h : Header) (k : Task),
    let i : Instr := .trap ct code ad
    let act := c.active i
    let r := c.record { cause := causeOf code.toNat, lanes := act, addr := match ad with
      | some a => c.f.pair a.toNat (lowLane act)
      | none => 0 }
    let vec := vecAddr (((s.m.team? c.tk).map (·.trapvec)).getD 0)
    Issues s i c → act ≠ 0 → s.m.tasks.get? c.t = some k → c.p.lanes ≠ 0 → s.m.inHandler c.p = false →
    (vec = 0 → exec i s = .next { s with m :=
      (((s.m.tookCycle c).updCore c.core fun k => { k with lastFault := some r }).endTask c.t (.faulted r)).settle c.tk c.w }) ∧
    (vec ≠ 0 → s.m.headerAt c.core c.asid vec c.priv = .ok h → h.fn = true → h.narg = 12 → h.nres = 0 → 1 ≤ h.frame →
      s.m.fits c.tk (h.frame + 1) = true →
      ∃ t g, exec i s = .next t ∧ t.sys = s.sys ∧ (∀ a, t.byte a = s.byte a) ∧
        (t.m.core c.core).lastFault = some r ∧ t.m.frames.get? (s.m.serial + 1) = some g ∧
        g.demand = 8 * (h.frame + 1) ∧ g.depth = c.f.depth + 1 ∧
        g.handler = some ⟨r, c.p.pc, c.p.clause, c.p.entered, k.latchOf c.p⟩ ∧
        (∀ n, c.p.lanes.getLsbD n = true → ∀ j < 12, g.reg j n = r.args.getD j 0) ∧
        (t.m.tasks.get? c.t).map (fun k => (k.run, k.paths)) =
          some (none, k.paths ++ [atClause c.p.lanes (.ofNat 64 vec) (s.m.serial + 1)]))

/-! ## Tasks, futures and scopes -/

/-- R122, R364: a `spawn` that passes its checks writes 0 in D, pushes the task on the hot end of the team's deque and adds one
to its scope; where the deque holds DEQUE descriptors it writes 1, with the scope FREE 2, and queues nothing.
The model's own choices in it: log entry 24. -/
def Obligations.SpawnQueuesTask : Prop :=
  ∀ (s : State) (ct : Ctl) (d a : Reg) (c : Issue) (k : Desc) (l : Launch) (tm : Team),
    let i : Instr := .spawn ct d a
    let act := c.active i
    Issues s i c → act ≠ 0 → s.m.launches.get? c.launch = some l → s.m.team? c.tk = some tm →
    s.m.descChk c act (c.f.reg a.toNat (lowLane act)).toNat = .ok k → s.m.descFutureChk c act k = .ok →
    s.m.releaseChk c act .dv = .ok →
    let m := ((s.start c i).descBytes c (c.f.reg a.toNat (lowLane act)).toNat).2
    let free := (l.scope k.scope).st = .free
    let full := l.dequeCap ≤ tm.deque.length
    let code : Word := if free then 2 else if full then 1 else 0
    let queued : Mach :=
      ({ m with serial := m.serial + 1, tasks := m.tasks.put m.serial (Task.queued c.tk k m.serial) }.updTeam c.tk
        fun t => { t with deque := m.serial :: t.deque }).updLaunch c.launch fun l => l.scopeInc k.scope
    exec i s = .next (s.goesOn c i ((if code = 0 then queued else m).updFrame c.p.frame
      fun f => f.setLanes d.toNat (laneList act) fun _ => code))

/-- R365, R367, R369: operations of tasks that go under way: `spawn.r` sends its task to the peer the handle names, `resolve` its
value to the home of the cell, `fin.open` its scope and parent; nothing that Quiet names changes as they issue. R132, R135, R142: what
they do as they complete: `resolve` writes an EMPTY cell and reports 0, and 1 where it was not EMPTY; `fin.open` opens a FREE scope
under a parent that is not FREE; the answer to a `spawn.r` is reported in D, after CFLAGS.REMOTE of the future is set (code 0) or it
resolves FAULTED(STALE_HANDLE) (code 2). The model's own choices in it: log entry 24. -/
def Obligations.TaskOperationsGoUnderWay : Prop :=
  (∀ (s : State) (ct : Ctl) (d a b : Reg) (c : Issue) (k : Desc),
    let i : Instr := .spawnR ct d a b
    let act := c.active i
    let h := (c.f.pair b.toNat (lowLane act)).toNat
    let peer := h / 2 ^ 16 % 8
    LongIssues s i c → s.m.descChk c act (c.f.reg a.toNat (lowLane act)).toNat = .ok k →
    h / 2 ^ 19 % 2 ^ 13 = 0 → h < 2 ^ 48 → peer ≠ s.m.device → s.m.conn peer ≠ .down → s.m.conn peer ≠ .absent →
    s.m.descFutureChk c act k = .ok → s.m.releaseChk c act .sy = .ok →
    let m := ((s.start c i).descBytes c (c.f.reg a.toNat (lowLane act)).toNat).2
    let t := s.underWay c i false (.spawnR k peer d.toNat) { m with peerOut := m.peerOut ++ [PeerMsg.task peer m.serial] }
    exec i s = .next t ∧ Quiet s t) ∧
  (∀ (s : State) (ct : Ctl) (d a b : Reg) (c : Issue) (pa : Nat),
    let i : Instr := .resolve ct d a b
    let act := c.active i
    LongIssues s i c → s.m.joinChk c act (c.f.pair a.toNat (lowLane act)).toNat true = .ok pa →
    s.m.releaseChk c act .dv = .ok →
    let m := (s.start c i).send (s.start c i).serial c.core [.dev pa]
    let t := s.underWay c i false (.resolve (some pa) (c.f.pair b.toNat (lowLane act)) d.toNat) m
    exec i s = .next t ∧ Quiet s t) ∧
  (∀ (s : State) (ct : Ctl) (d a b : Reg) (c : Issue),
    let i : Instr := .finOpen ct d a b
    let lane := lowLane (c.active i)
    LongIssues s i c →
    let t := s.underWay c i false
      (.finOpen ((c.f.reg a.toNat lane).toNat % 256) ((c.f.reg b.toNat lane).toNat % 256) d.toNat) (s.start c i)
    exec i s = .next t ∧ Quiet s t) ∧
  (∀ (s : State) (n : Nat) (o : Op) (sv : Serve) (pa d : Nat) (v : DWord), s.m.ops.get? n = some o →
    o.kind = .resolve (some pa) v d → o.gone = false → o.dead = false → s.m.served n true [.dev pa] = true → s.m.Arrived n →
    s.m.atGate [(.dev pa, 16)] = false → (s.m.backOver n o.core [.dev pa, .dev pa] [(.dev pa, 16)]).1 = true →
    s.m.poisoned (.dev pa) 16 = false →
    let empty := s.m.cellState pa = 0
    Completes s n sv (fun a =>
        if empty ∧ pa ≤ a ∧ a < pa + 16 then
          (natBytes 8 v.toNat ++ [1, s.byte (pa + 9)] ++ List.replicate 6 0).getD (a - pa) 0
        else s.byte a)
      o.frame ((laneList o.lanes).map fun l => (d, l, if empty then 0 else 1))) ∧
  (∀ (s : State) (n : Nat) (o : Op) (sv : Serve) (sc p d : Nat) (t : Team) (l : Launch), s.m.ops.get? n = some o →
    o.kind = .finOpen sc p d → o.gone = false → o.dead = false → s.m.Arrived n → s.m.team? o.team = some t →
    s.m.launches.get? t.launch = some l →
    let opens := sc ≠ 0 ∧ (l.scope sc).st = .free ∧ (l.scope p).st ≠ .free
    Completes s n sv s.byte o.frame ((laneList o.lanes).map fun l => (d, l, if opens then 0 else 1)) ∧
    ∀ u, exec (.operationComplete n sv) s = .next u → ∀ x, (u.m.launches.get? t.launch).map (fun l => l.scope x) =
      some (if ¬opens then l.scope x else if x = sc then ⟨.opened, p, 0⟩
        else if x = p then { l.scope p with count := (l.scope p).count + 1 } else l.scope x)) ∧
  ∀ (s : State) (n : Nat) (o : Op) (sv : Serve) (k : Desc) (peer d pa : Nat) (bs : List Byte) (t : Team) (l : Launch),
    s.m.ops.get? n = some o → o.kind = .spawnR k peer d → o.gone = false → o.dead = false → s.m.Arrived n → o.reply = some bs →
    s.m.team? o.team = some t → s.m.launches.get? t.launch = some l →
    s.m.cellFor l.asid k.future.toNat = (some pa, s.m) → s.m.placeWaits true (.dev pa) = false →
    let code := bytesNat (bs.take 1)
    let ws := (laneList o.lanes).map fun l => (d, l, (.ofNat 32 code : Word))
    let faulted (a : Nat) : Byte := (natBytes 8 (faultValue 19 0).toNat ++ [2, s.byte (pa + 9)] ++ List.replicate 6 0).getD (a - pa) 0
    (k.future = 0 ∨ code = 1 → Completes s n sv s.byte o.frame ws) ∧
    (k.future ≠ 0 → code = 0 → s.m.conn peer ≠ .down →
      Completes s n sv (fun a => if a = pa + 9 then s.byte a ||| 1 else s.byte a) o.frame ws) ∧
    (k.future ≠ 0 → 2 ≤ code →
      Completes s n sv (fun a => if s.m.cellState pa = 0 ∧ pa ≤ a ∧ a < pa + 16 then faulted a else s.byte a) o.frame ws)

/-- R131, R366: `join` and `join.t` on a cell that is not EMPTY write its value (`join`) or its state and value (`join.t`) in
every active lane and acquire at `.dv`; on an EMPTY one the path waits; `join` on a FAULTED one raises FUTURE_FAULTED. The model's
own choices in it: log entries 24, 25. -/
def Obligations.JoinsReadOrWait : Prop :=
  ∀ (s : State) (ct : Ctl) (trapping : Bool) (d a : Reg) (c : Issue) (pa : Nat),
    let i : Instr := if trapping then .join ct d a else .joinT ct d a
    let act := c.active i
    let va := (c.f.pair a.toNat (lowLane act)).toNat
    let st := s.m.cellState pa
    let v := s.m.cellValue pa
    Issues s i c → act ≠ 0 → s.m.joinChk c act va false = .ok pa → s.m.joinHeld c pa = false →
    (trapping = true → 2 ≤ st → exec i s =
      .next (s.faults c { cause := .futureFaulted, oppos := 2, lanes := act, addr := .ofNat 64 va })) ∧
    (s.m.poisoned (.dev pa) 16 = false → (trapping = true → st < 2) →
    let m := (s.start c i).dropCopies c.core [lineOf pa]
    let ws : List (Nat × Word) := if trapping then [(d.toNat, loWord v), (d.toNat + 1, hiWord v)]
      else [(d.toNat, if st = 1 then 1 else 2), (d.toNat + 1, 0), (d.toNat + 2, loWord v), (d.toNat + 3, hiWord v)]
    (st ≠ 0 → exec i s = .next (s.goesOn c i ((m.updFrame c.p.frame fun f =>
      ws.foldl (fun f w => (laneList act).foldl (fun f n => f.setBoth w.1 n w.2) f) f).acquire c.core .dv))) ∧
    (st = 0 → exec i s = .next (s.stops c (.waiting (.join pa (.ofNat 64 va) trapping d.toNat act))
      (m.addWaiter pa))))

namespace Sys2Proof.Machine

/-- n is the quantity of team t of launch l that `capq` reads with selector sel (R370): free slots of the deque, granules free within
the charge (doubled under SHADOW, R92), the largest free run of the staging pool in 256-byte units, free 4 KiB units of the
Escapement region, IDLE warps, tasks not yet taken, the idle count in units of 1,024 clocks. -/
def CapacityIs (m : Mach) (tk : Nat) (t : Team) (l : Launch) (n : Nat) : Nat → Prop
  | 0 => n = l.dequeCap - t.deque.length
  | 1 => n = (if l.shadow then 2 else 1) * (l.granules - ((m.frames.filter fun f => f.2.spilled.isNone &&
      (m.tasks.get? f.2.task).any fun k => k.team = tk).map fun f => f.2.demand / 8).sum)
  | 2 =>
    let fits (k : Nat) : Prop := k = 0 ∨ ∃ u, l.teamKib * 4 ≤ u ∧ u + k ≤ l.lsBytes / 256 ∧
      ∀ h ∈ m.heldUnits tk, ¬(h.1 < u + k ∧ u < h.1 + h.2)
    (∀ h ∈ m.heldUnits tk, l.teamKib * 4 ≤ h.1 ∧ 0 < h.2) → fits n ∧ ∀ k, fits k → k ≤ n
  | 3 => n = min ((l.spillSize - l.escBase - (l.images.map (·.size)).sum) / 4096) 0xFFFFFFFF
  | 4 => n = (m.warpsOf tk).countP fun w => w.2.st = .idle
  | 5 => n = t.deque.length
  | _ => n = min ((m.clock - t.idleSince) / 1024) 0xFFFFFFFF

end Sys2Proof.Machine

/-- R135, R368-R370: `task.end` ends its task with the value A names once the warp's stores are acknowledged; `fin.close` closes an OPEN
scope; `fin.wait` goes on with an acquire at `.dv` where its scope is quiet, and waits where it is not; `capq` writes the quantity it
selects. -/
def Obligations.TaskEndScopesAndCapacity : Prop :=
  (∀ (s : State) (ct : Ctl) (v : Option Reg) (c : Issue),
    let i : Instr := .taskEnd ct v
    let act := c.active i
    IssuesTo s i c 0 → act ≠ 0 → s.m.ackChk c act .dv = .ok →
    let value : DWord := match v with
      | some r => c.f.pair r.toNat (lowLane act)
      | none => 0
    exec i s = .next { s with m := ((s.start c i).finishTask c value).settle c.tk c.w }) ∧
  (∀ (s : State) (ct : Ctl) (sc : FsRef) (c : Issue),
    let i : Instr := .finClose ct sc
    let n := finScope c (c.active i) sc
    Issues s i c → c.active i ≠ 0 →
    exec i s = .next (s.goesOn c i (((s.start c i).updLaunch c.launch fun l =>
      if n ≠ 0 ∧ (l.scope n).st = .opened then
        { l with scopes := l.scopes.put n { l.scope n with st := .closing } }.settleScope 256 n
      else l).wakeScopes c.launch))) ∧
  (∀ (s : State) (ct : Ctl) (sc : FsRef) (c : Issue) (l : Launch),
    let i : Instr := .finWait ct sc
    let n := finScope c (c.active i) sc
    Issues s i c → c.active i ≠ 0 → s.m.launches.get? c.launch = some l →
    let t := if (l.scope n).st = .free ∨ ((l.scope n).st = .opened ∧ (l.scope n).count = 0) then
        s.goesOn c i ((s.start c i).acquire c.core .dv)
      else s.stops c (.waiting (.fin n)) (s.start c i)
    exec i s = .next t ∧ Quiet s t) ∧
  ∀ (s : State) (ct : Ctl) (sel : BitVec 4) (d : Reg) (c : Issue) (t : Team) (l : Launch),
    let i : Instr := .capq ct sel d
    Issues s i c → c.active i ≠ 0 → s.m.team? c.tk = some t → s.m.launches.get? t.launch = some l →
    ∃ n, CapacityIs s.m c.tk t l n sel.toNat ∧
      exec i s = .next (s.goesOn c i ((s.start c i).updFrame c.p.frame fun f =>
        f.setLanes d.toNat (laneList (c.active i)) fun _ => .ofNat 32 n))

/-! ## Special registers and system instructions -/

namespace Sys2Proof.Machine

/-- The value of a special register (R296): those of the launch, the team, the task and the place of the path, and the
record of the innermost handler frame in the lane's chain (R253). -/
def specialValue (s : State) (c : Issue) (idx lane : Nat) : SReg → Nat
  | .lane => lane
  | .warp => c.w
  | .team => c.teamIx
  | .core => c.core
  | .cluster => c.core / 4
  | .die => c.core / 64
  | .device => s.m.device
  | .clock => s.m.clock + (s.m.core c.core).skew
  | .prio => match s.m.tasks.get? c.t with
    | some k => k.prio
    | none => 0
  | .fpstat => (s.fpstat c.t).toNat
  | .frameDepth => c.f.depth
  | .capacity => s.capacityOf c.tk
  | .noteSeq => match s.m.launches.get? c.launch with
    | some l => l.noteSeq.toNat
    | none => 0
  | .xsteal => match s.m.team? c.tk with
    | some t => t.xsteal.toNat
    | none => 0
  | .trapvec => match s.m.team? c.tk with
    | some t => t.trapvec.toNat
    | none => 0
  | .faultPc => match s.m.handlerOf lane c.p.frame with
    | some h => h.frec.pc.toNat
    | none => 0
  | .faultCause => match s.m.handlerOf lane c.p.frame with
    | some h => h.frec.causeword.toNat
    | none => 0
  | .faultLanes => match s.m.handlerOf lane c.p.frame with
    | some h => h.frec.lanes.toNat
    | none => 0
  | .faultAddr => match s.m.handlerOf lane c.p.frame with
    | some h => h.frec.addr.toNat
    | none => 0
  | .asid => c.asid
  | .partition => match s.m.launches.get? c.launch with
    | some l => l.part
    | none => 0
  | .inbox => match s.m.launches.get? c.launch with
    | some l => if l.hasInbox then c.launch + 2 ^ 16 * s.m.device + 2 ^ 32 * l.inboxGen else 0
    | none => 0
  | .mtime => s.m.mtime
  | .accOwner => ((s.m.core c.core).ownerOf idx).word
  | .leaseState => s.sys.hub.leaseState c.core

/-- The counts of CAPACITY the hub writes into every launch (R153, R154), by the fields of the register. -/
structure CapacityFields (s : State) : Prop where
  peer : ∀ p < 8, s.capacityWord.toNat / 2 ^ (48 + 2 * p) % 4 = match s.m.conn p with
    | .absent => 0 | .up => 1 | .recovering => 2 | .down => 3
  host : ∀ l, s.sys.hub.hostLink = some l →
    s.capacityWord.toNat / 2 ^ 45 % 2 ^ 3 = (if l.width = 8 then 1 else if l.width = 4 then 2 else 0) ∧
    s.capacityWord.toNat / 2 ^ 44 % 2 = l.slow.toNat
  memch : s.capacityWord.toNat / 2 ^ 31 % 2 ^ 10 = 512 - s.sys.hub.retired.countP fun u => u.kind = 3
  slices : s.capacityWord.toNat / 2 ^ 22 % 2 ^ 9 = (List.range 256).countP fun n => s.sliceServes (n / 64) (n % 64)
  cores : s.capacityWord.toNat / 2 ^ 13 % 2 ^ 9 = (List.range 256).countP s.sys.hub.coreIn
  clusters : s.capacityWord.toNat / 2 ^ 6 % 2 ^ 7 = (List.range 64).countP fun q =>
    (List.range 4).any fun k => s.sys.hub.coreIn (4 * q + k)
  edges : s.capacityWord.toNat % 2 ^ 6 = min (s.sys.hub.outOfService.countP fun u => u.kind = 4) 63

/-- CAPACITY as a team reads it: GCORES counts the cores in service that its gang's bound teams stand on; every other bit is of the
counts the hub last wrote into its launch (R153, R154). -/
structure CapacityReads (s : State) (tk : Nat) (t : Team) (l : Launch) : Prop where
  gcores : ∀ cs : List Nat, cs.Nodup → cs.length < 8 →
    (∀ c, c ∈ cs ↔ ∃ x ∈ s.m.teams, x.2.launch = t.launch ∧ x.2.gang = t.gang ∧ x.2.unbound = false ∧ x.2.core = c ∧
      s.sys.hub.coreIn c = true) →
    s.capacityOf tk / 2 ^ 41 % 8 = cs.length
  rest : ∀ k < 64, k < 41 ∨ 44 ≤ k → s.gangCores tk < 8 → (s.capacityOf tk).testBit k = l.capacity.getLsbD k

/-- LEASE_STATE of a core (R298), from the lease of unit u, where no other lease is of u: its state, KIND and number. -/
def leaseFields (v n : Nat) (l : Lease) : Prop :=
  v / 2 ^ 29 = (match l.st with
    | .requested => 1 | .draining => 2 | .testing => 3 | .returning => 4 | .retiring => 5) ∧
  v / 2 ^ 16 % 2 ^ 8 = l.u.kind ∧ v / 2 ^ 24 % 2 ^ 5 = 0 ∧ v % 2 ^ 16 = n

/-- The special registers that are pairs (R296). -/
def pairRegs : List SReg := [.clock, .capacity, .trapvec, .faultPc, .faultAddr, .inbox, .mtime]

/-- The privileged instructions of R381: what goes under way, and the machine the issue leaves; none where a check fails. -/
def systemOp (s : State) (c : Issue) : Instr → Option (OpKind × Mach)
  | i@(.ctxSave _ d a b) =>
    let region := (c.f.pair a.toNat (lowLane (c.active i))).toNat
    let named := (c.f.reg b.toNat (lowLane (c.active i))).toNat
    let key := named % 2 ^ 16 * 256 + named / 2 ^ 16 % 2 ^ 8
    let m := s.start c i
    if region % 4096 ≠ 0 then none
    else match m.team? key with
      | some t =>
        if t.core = c.core ∧ t.res = .resident ∧ m.dying key = false then
          some (.ctxSave (some key) region d.toNat, m.beginSave key)
        else some (.ctxSave none region d.toNat, m)
      | none => some (.ctxSave none region d.toNat, m)
  | i@(.ctxLoad _ d a b) =>
    let region := (c.f.pair a.toNat (lowLane (c.active i))).toNat
    let named := (c.f.reg b.toNat (lowLane (c.active i))).toNat
    if region % 4096 ≠ 0 then none
    else some (.ctxLoad (named % 2 ^ 16 * 256 + named / 2 ^ 16 % 2 ^ 8) region d.toNat, s.start c i)
  | i@(.frecRd _ a) =>
    let pa := (c.f.pair a.toNat (lowLane (c.active i))).toNat
    if pa % 64 ≠ 0 ∨ (s.m.backing pa c.priv).isSome then none
    else some (.frecRd pa (match (s.m.core c.core).lastFault with
      | some r => r.bytes
      | none => List.replicate 64 0), s.start c i)
  | i@(.leaseTst _ d a pat) =>
    let v := (c.f.reg a.toNat (lowLane (c.active i))).toNat
    some (.leaseTst ⟨v % 16, v / 16 % 4, v / 64 % 2 ^ 16⟩ pat.toNat d.toNat, s.start c i)
  | i@(.leaseRel _ d a) =>
    let v := (c.f.reg a.toNat (lowLane (c.active i))).toNat
    some (.leaseRel (v % 2 ^ 16) (v.testBit 16) d.toNat, s.start c i)
  | i@(.tlbInv _ a b) =>
    let v := (c.f.reg b.toNat (lowLane (c.active i))).toNat
    if v / 2 ^ 12 % 4 = 3 then none
    else some (.tlbInv (c.f.pair a.toNat (lowLane (c.active i))).toNat (v % 2 ^ 11) (v / 2 ^ 12 % 4), s.start c i)
  | i@(.bezelRd _ d a off) =>
    let v := (c.f.reg a.toNat (lowLane (c.active i))).toNat
    if off.toNat % 4 ≠ 0 then none
    else some (.bezelRd (v / 2 ^ 10 % 4) (v % 2 ^ 10) off.toNat d.toNat, s.start c i)
  | i@(.bezelWr _ a b off) =>
    let v := (c.f.reg a.toNat (lowLane (c.active i))).toNat
    if off.toNat % 4 ≠ 0 then none
    else some (.bezelWr (v / 2 ^ 10 % 4) (v % 2 ^ 10) off.toNat (c.f.reg b.toNat (lowLane (c.active i))), s.start c i)
  | _ => none

end Sys2Proof.Machine


/-- R154, R253, R296-R298, R326: `movs` reads a special register: each active lane receives its value, a pair or a word, and nothing
else changes but what RegsOnly names; CAPACITY and LEASE_STATE by their fields: with no lease of its own a core reads that of its
cluster (log entry 60: DEDUCED), with neither 0. It writes the RW fields of PRIO, FPSTAT, XSTEAL and TRAPVEC from the lowest active lane,
and to a read-only register does nothing: no byte and no general register changes. -/
def Obligations.SpecialRegistersReadAndWritten : Prop :=
  (∀ (s : State) (ct : Ctl) (r : SReg) (idx : BitVec 6) (d : Reg) (c : Issue), Issues s (.movsRead ct r idx d) c →
    ∃ t, exec (.movsRead ct r idx d) s = .next t ∧ Writes s t c (.movsRead ct r idx d) fun _ _ n =>
      let v := specialValue s c idx.toNat n r
      if r ∈ pairRegs then res64 (.ofNat 64 v) else res32 (.ofNat 32 v)) ∧
  (∀ s : State, CapacityFields s) ∧
  (∀ (s : State) (tk : Nat) (t : Team) (l : Launch), s.m.team? tk = some t → s.m.launches.get? t.launch = some l →
    CapacityReads s tk t l) ∧
  (∀ (s : State) (core : Nat),
    ((∀ e ∈ s.sys.hub.leases, e.2.u ≠ coreUnit core ∧ e.2.u ≠ clusterUnit core) → s.sys.hub.leaseState core = 0) ∧
    ∀ n l, n < 2 ^ 16 → l.u.kind < 2 ^ 8 → (n, l) ∈ s.sys.hub.leases → (∀ e ∈ s.sys.hub.leases, e.2.u = l.u → e = (n, l)) →
      l.u = coreUnit core ∨ (l.u = clusterUnit core ∧ ∀ e ∈ s.sys.hub.leases, e.2.u ≠ coreUnit core) →
      leaseFields (s.sys.hub.leaseState core) n l) ∧
  ∀ (s : State) (ct : Ctl) (r : SReg) (idx : BitVec 6) (a : Reg) (c : Issue),
    let i : Instr := .movsWrite ct r idx a
    let w := c.f.reg a.toNat (lowLane (c.active i))
    let p := c.f.pair a.toNat (lowLane (c.active i))
    Issues s i c → c.active i ≠ 0 →
    ∃ t, exec i s = .next t ∧ t.sys = s.sys ∧ t.agenda = s.agenda ∧ (∀ x, t.byte x = s.byte x) ∧
      (∀ fr k n, t.reg fr k n = s.reg fr k n) ∧
      (r = .fpstat → (∃ k, s.m.tasks.get? c.t = some k) → t.fpstat c.t = w &&& 0x3F) ∧
      (r ≠ .fpstat → t.fpstat c.t = s.fpstat c.t) ∧
      (∀ k, t.m.tasks.get? c.t = some k → ∃ k', s.m.tasks.get? c.t = some k' ∧
        k.prio = if r = .prio then w.toNat % 8 else k'.prio) ∧
      ∀ k tm, s.m.team? k = some tm → ∃ tm', t.m.team? k = some tm' ∧
        tm'.xsteal = (if r = .xsteal ∧ k = c.tk then w else tm.xsteal) ∧
        tm'.trapvec = if r = .trapvec ∧ k = c.tk then p &&& 0x01FFFFFFFFFFFFC0 else tm.trapvec

/-- R381: `sleep` lets its warp issue nothing for n × 16 core clocks; n = 0 has no effect. The clocks passed, the sleep ends,
and a warp still asleep sleeps on. -/
def Obligations.SleepAndExpiry : Prop :=
  (∀ (s : State) (ct : Ctl) (n : BitVec 24) (c : Issue), Issues s (.sleep ct n) c → c.active (.sleep ct n) ≠ 0 →
    let m := s.start c (.sleep ct n)
    let t := s.goesOn c (.sleep ct n)
      (if n = 0 then m else m.updWarp c.tk c.w fun x => { x with sleepUntil := s.m.clock + 16 * n.toNat })
    exec (.sleep ct n) s = .next t ∧ Quiet s t ∧
      ∀ x, n ≠ 0 → t.m.warps.get? (warpKey c.tk c.w) = some x → x.sleepUntil = s.m.clock + 16 * n.toNat) ∧
  ∀ (s : State) (x : Warp), s.m.warps.get? (warpKey s.subj.x s.subj.y) = some x →
    ∃ t, exec .sleepExpiry s = .next t ∧ Quiet s t ∧
      t.m.warps.get? (warpKey s.subj.x s.subj.y) = some (if x.sleepUntil ≤ s.m.clock then { x with sleepUntil := 0 } else x)

namespace Sys2Proof.Machine

/-- The effects of R381's operations as they complete, for operation n, of kind o.kind, with nothing of it held and its write at no
gate: the value D receives, and what it did. -/
structure SystemCompletes (s : State) (n : Nat) (o : Op) (sv : Serve) : Prop where
  frecRd : ∀ pa bs, o.kind = .frecRd pa bs → (Place.dev pa).peer? = none → s.m.atGate [(.dev pa, bs.length)] = false →
    (s.m.backOver n o.core [.dev pa, .dev pa] [(.dev pa, bs.length)]).1 = true →
    (∀ cell ∈ s.m.waitedCells, ¬(cell < pa + bs.length ∧ pa < cell + 16)) →
    Completes s n sv (fun a => if pa ≤ a ∧ a < pa + bs.length then bs.getD (a - pa) 0 else s.byte a) o.frame []
  bezelRd : ∀ die port off d, o.kind = .bezelRd die port off d →
    Completes s n sv s.byte o.frame ((laneList o.lanes).map fun l => (d, l, s.mgmtRead die port off))
  bezelWr : ∀ die port off v, o.kind = .bezelWr die port off v →
    exec (.operationComplete n sv) s = .next ((s.mgmtWrite die port off v).updM fun m => m.finishOp n [])
  tlbInv : ∀ va asid mode, o.kind = .tlbInv va asid mode → Completes s n sv s.byte o.frame [] ∧
    ∀ t, exec (.operationComplete n sv) s = .next t →
      let stays (e : TlbEntry) : Prop :=
        (mode = 0 → ¬(e.asid = asid ∧ e.va ≤ va ∧ va < e.va + e.size)) ∧ (mode ≠ 0 → mode ≠ 2 ∧ e.asid ≠ asid)
      (∀ core e, e ∈ (t.m.core core).tlb ↔ e ∈ (s.m.core core).tlb ∧ stays e) ∧
      ∀ die e, e ∈ t.m.dieTlb.getD die [] ↔ e ∈ s.m.dieTlb.getD die [] ∧ stays e
  leaseTst : ∀ u pat d, o.kind = .leaseTst u pat d →
    ((∀ e ∈ s.sys.hub.leases, e.2.u = u → e.2.st ≠ .testing) →
      Completes s n sv s.byte o.frame ((laneList o.lanes).map fun l => (d, l, 2))) ∧
    ((∃ e ∈ s.sys.hub.leases, e.2.u = u ∧ e.2.st = .testing) →
      ∃ v : Word, (v = 0 ∨ v = 1 ∨ v = 3) ∧ Completes s n sv s.byte o.frame ((laneList o.lanes).map fun l => (d, l, v)))
  leaseRel : ∀ lease fail d, o.kind = .leaseRel lease fail d →
    ((∀ l, s.sys.hub.leases.get? lease = some l → l.st ≠ .testing) →
      Completes s n sv s.byte o.frame ((laneList o.lanes).map fun l => (d, l, 1))) ∧
    ∀ l, s.sys.hub.leases.get? lease = some l → l.st = .testing →
      ∃ t, exec (.operationComplete n sv) s = .next t ∧ t.m.ops.get? n = none ∧ (∀ a, t.byte a = s.byte a) ∧
        t.sys.hub.leases.get? lease = some { l with st := if fail then .retiring else .returning, fail := fail } ∧
        t.sys.hub.score l.u = if fail ∨ (l.u.kind = 3 ∧ l.entry.isSome) then s.sys.hub.score l.u else s.sys.hub.score l.u / 4
  ctxSave : ∀ team region d, o.kind = .ctxSave team region d →
    (team.bind s.m.team? = none → Completes s n sv s.byte o.frame ((laneList o.lanes).map fun l => (d, l, 1))) ∧
    ∀ tk t, team = some tk → s.m.team? tk = some t →
      (t.res = .saving → s.m.saveReady tk = false → exec (.operationComplete n sv) s = .next s) ∧
      (t.res = .waitingSaved ∨ t.res = .restoring ∨ t.res = .resident ∨ t.res = .draining →
        Completes s n sv s.byte o.frame ((laneList o.lanes).map fun l => (d, l, 0))) ∧
      (t.res = .waitingNew ∨ t.res = .ended →
        Completes s n sv s.byte o.frame ((laneList o.lanes).map fun l => (d, l, 1))) ∧
      ∀ l, t.res = .saving → s.m.saveReady tk = true → s.m.launches.get? t.launch = some l → regionOf region = .hbm →
        (∀ x ∈ s.m.waitedCells, ¬(x < region + l.saveBytes ∧ region < x + 16)) →
        ∃ (i : SavedImage) (m : Mach), exec (.operationComplete n sv) s = .next ({ s with m := m.finishOp n [] }.admitChosen t.core) ∧
          i.size = l.saveBytes ∧ i.phys = true ∧ i.addr = region ∧
          (∀ a, Memory.read m.mem a = if region ≤ a ∧ a < region + i.size then i.bytes.getD (a - region) 0 else s.byte a) ∧
          (m.team? tk).map (fun t => (t.res, t.image)) = some (.waitingSaved, some i) ∧
          (∀ k, m.frames.get? k = (s.m.frames.get? k).map fun f =>
            if k = o.frame then (laneList o.lanes).foldl (fun f l => f.setBoth d l 0) f else f) ∧
          ∀ w x, s.m.warps.get? (warpKey tk w) = some x → w < 64 → m.warps.get? (warpKey tk w) = some { x with st := .free }
  ctxLoad : ∀ tk region d, o.kind = .ctxLoad tk region d →
    ((∀ t, s.m.team? tk = some t → t.res ≠ .waitingSaved) →
      Completes s n sv s.byte o.frame ((laneList o.lanes).map fun l => (d, l, 1))) ∧
    ∀ t l, s.m.team? tk = some t → s.m.launches.get? t.launch = some l → t.res = .waitingSaved → t.core = o.core →
      t.unbound = false → s.m.dying tk = false → s.sys.hub.takes t.core = true →
      (s.fitsNow t.core t.chosen l.charge = false →
        Completes s n sv s.byte o.frame ((laneList o.lanes).map fun l => (d, l, 2))) ∧
      (s.fitsNow t.core t.chosen l.charge = true → ∃ u, exec (.operationComplete n sv) s = .next u ∧ u.m.ops.get? n = none ∧
        (u.m.team? tk).map (·.res) = some .resident ∧ ∀ a, u.byte a = s.byte a)

end Sys2Proof.Machine

/-- R185, R381: a privileged long-latency instruction that passes its checks goes under way with what its registers name;
nothing that Quiet names changes as it issues. It completes as R381's table says (SystemCompletes): `ctx.save` and `ctx.load`
save and restore their team, `frec.rd` writes the record, `lease.tst` and `lease.rel` act on a lease that is TESTING, `tlb.inv` drops
the entries it names, `bezel.rd` and `bezel.wr` read and write a register (MgmtRegisters). The model's own choices in it: log entries
1, 59, 60, 109. -/
def Obligations.SystemInstructionsGoUnderWay : Prop :=
  (∀ (s : State) (i : Instr) (c : Issue) (k : OpKind) (m : Mach), systemOp s c i = some (k, m) → LongIssues s i c →
    exec i s = .next (s.underWay c i false k m) ∧ Quiet s (s.underWay c i false k m)) ∧
  ∀ (s : State) (n : Nat) (o : Op) (sv : Serve), s.m.ops.get? n = some o → o.gone = false → o.dead = false → s.m.Arrived n →
    SystemCompletes s n o sv

/-! ## Engines and the matrix unit -/

namespace Sys2Proof.Machine

/-- The checks of an engine copy, of `gath`, `scat` and `stage`: an error, or what goes under way (R375-R377). A count field
holds n − 1. -/
def enginePlan : Instr → Option (Mach → Issue → Lanes → Except Chk EnginePlan)
  | .bcopy _ dst src scope a b e cell => some fun m c act =>
      let n := (c.f.reg e.toNat (lowLane act)).toNat
      m.copyPlan c act ⟨2, dst, spcAddr c act dst a, n, 0, 1, true⟩ ⟨3, src, spcAddr c act src b, n, 0, 1, false⟩ scope cell
  | .bcopy2d _ dst src scope a b e x cell => some fun m c act =>
      let v := (c.f.reg e.toNat (lowLane act)).toNat
      let w := (c.f.reg x.toNat (lowLane act)).toNat
      m.copyPlan c act ⟨2, dst, spcAddr c act dst a, v / 2 ^ 16 * 8, w % 2 ^ 16 * 8, v % 2 ^ 16, true⟩
        ⟨3, src, spcAddr c act src b, v / 2 ^ 16 * 8, w / 2 ^ 16 * 8, v % 2 ^ 16, false⟩ scope cell
  | .gath _ p scope a b e count sh es cell => some fun m c act =>
      m.indexPlan c act true p scope a b e (count.toNat + 1) sh.toNat es.toNat cell
  | .scat _ p scope a b e count sh es cell => some fun m c act =>
      m.indexPlan c act false p scope a b e (count.toNat + 1) sh.toNat es.toNat cell
  | .stage _ scope a b cell => some fun m c act => m.stagePlan c act scope a b cell
  | _ => none

/-- What a matrix operation asks for: form, region, source slots, and where its operands lie (R394, R396-R399). -/
def mmaReq : Instr → Option MmaReq
  | .mma _ f aw bw a b => some ⟨.dense, f, 0, false, aw, bw, a, b, 0, 0, 0, 0⟩
  | .mmaC _ f ch bw b => some ⟨.chained, f, ch.sslot.toNat, ch.hs, false, bw, 0, b, 0, 0, 0, 0⟩
  | .mmaS _ f aw bw a b => some ⟨.packedS, f, 0, false, aw, bw, a, b, 0, 0, 0, 0⟩
  | .mmaDs _ f aw bw a b => some ⟨.packedDs, f, 0, false, aw, bw, a, b, 0, 0, 0, 0⟩
  | .mmaG _ f aw a e x kb nadp => some ⟨.gather, f, 0, false, aw, false, a, 0, e, x, kb.toNat, nadp.toNat + 1⟩
  | .mmaGc _ f ch e x nb nadp =>
    some ⟨.gatherChained, f, ch.sslot.toNat, ch.hs, false, false, 0, 0, e, x, nb.toNat, nadp.toNat + 1⟩
  | _ => none

/-- Places an engine operation reads at peers. -/
def peerReads : OpKind → List Place
  | .engine k => k.rows.map fun r => r.1
  | .stage k => k.rows
  | _ => []

/-- The state after an engine operation with plan p has gone under way (R217, R371): its ranges stand in the range-lock table
of its core. -/
def State.engined (s : State) (c : Issue) (i : Instr) (p : EnginePlan) : State :=
  let m := s.start c i
  let m := { m with free := m.free + p.taken }
  let n := m.serial
  let m := ((m.send n c.core (p.places.map (·.1))).startOp c (Instr.shape i) (c.active i) false p.kind).askPeers n
    (peerReads p.kind)
  s.goesOn c i (m.updCore c.core fun k =>
    { k with locks := k.locks ++ p.spans.map (m.lockOf c.tk c.launch c.teamIx n p.scope) })

/-- Request of a collective (R379, R380). -/
def collRequest (c : Issue) (act : Lanes) : Instr → Option CollReq
  | .cag _ dst src a b e x g bb => some ⟨g.toNat, .gather, (c.f.reg e.toNat (lowLane act)).toNat, dst, src,
      spcAddr c act dst a, spcAddr c act src b, (c.f.reg x.toNat (lowLane act)).toNat, bb⟩
  | .crs _ op t dst src a b e x g bb => some ⟨g.toNat, .reduce op t, (c.f.reg e.toNat (lowLane act)).toNat, dst, src,
      spcAddr c act dst a, spcAddr c act src b, (c.f.reg x.toNat (lowLane act)).toNat, bb⟩
  | .ca2a _ dst src a b e x g bb => some ⟨g.toNat, .exchange, (c.f.reg e.toNat (lowLane act)).toNat, dst, src,
      spcAddr c act dst a, spcAddr c act src b, (c.f.reg x.toNat (lowLane act)).toNat, bb⟩
  | .cbar _ a b bb => some ⟨(c.f.reg b.toNat (lowLane act)).toNat % 32, .barrier, 0, .ls, .ls, 0, 0,
      (c.f.reg a.toNat (lowLane act)).toNat, bb⟩
  | _ => none

end Sys2Proof.Machine

/-- R217, R371, R375-R377: an engine operation that passes its checks goes under way: its ranges are registered, and nothing
that Quiet names changes as it issues. A copy of no bytes completes at once, and changes no byte of memory and no register of
a frame that is left.
The model's own choices in it: log entries 52, 53. -/
def Obligations.EngineOperationsGoUnderWay : Prop :=
  ∀ (s : State) (i : Instr) (c : Issue) (plan : Mach → Issue → Lanes → Except Chk EnginePlan) (p : EnginePlan),
    enginePlan i = some plan → Issues s i c → c.active i ≠ 0 → plan s.m c (c.active i) = .ok p →
    s.m.engineWait c i p = .ok →
    (p.empty = false → exec i s = .next (s.engined c i p) ∧ Quiet s (s.engined c i p)) ∧
    (p.empty = true → ∃ t, exec i s = .next t ∧ t.sys = s.sys ∧ t.agenda = s.agenda ∧ (∀ a, t.byte a = s.byte a) ∧
      ∀ fr r n, fr = c.p.frame ∨ (t.m.frames.get? fr).isSome = true → t.reg fr r n = s.reg fr r n)

/-- R109, R400, R407: a matrix operation, or `acc.st`, that passes its checks goes under way, and its slots have had their
first use; no byte and no register changes as it issues. The model's own choices in it: log entries 57, 58. -/
def Obligations.MatrixOperationsGoUnderWay : Prop :=
  (∀ (s : State) (i : Instr) (c : Issue) (r : MmaReq) (p : EnginePlan), mmaReq i = some r → Issues s i c → c.active i ≠ 0 →
    s.m.mmaPlan c (c.active i) r = .ok p → s.m.engineWait c i p = .ok →
    let t := (s.engined c i p).updM fun m => m.firstUse c.tk r.op.slots
    exec i s = .next t ∧ (∀ a, t.byte a = s.byte a) ∧ ∀ fr k n, t.reg fr k n = s.reg fr k n) ∧
  ∀ (s : State) (ct : Ctl) (slot : BitVec 6) (q : BitVec 2) (sh sat : Bool) (ty : AccT) (a : Reg) (stride : BitVec 16)
    (c : Issue) (p : EnginePlan),
    let i : Instr := .accSt ct slot q sh sat ty a stride
    Issues s i c → c.active i ≠ 0 → s.m.accStPlan c (c.active i) slot.toNat q sh sat ty a stride = .ok p →
    s.m.engineWait c i p = .ok →
    let t := (s.engined c i p).updM fun m => m.firstUse c.tk [slot.toNat]
    exec i s = .next t ∧ (∀ a, t.byte a = s.byte a) ∧ ∀ fr k n, t.reg fr k n = s.reg fr k n

/-- R378: `cgrp` declares its group and writes 0 where it names two or more clusters, each with a gang of the launch; it
writes 2 where it does not, and 1 while collectives on the entry are under way, and then declares nothing. R62, R379, R380: a
collective on a declared group of which the issuing gang is a member, with no member gone, goes under way and finds the
collective it belongs to; one that belongs to a collective that has failed takes its status; on an entry that is not valid it
completes at once with status 1, and `cbar` delivers no byte. The model's own choices in it: log entries 1, 55. -/
def Obligations.GroupsAndCollectives : Prop :=
  (∀ (s : State) (ct : Ctl) (scope : Scope) (g : BitVec 5) (d a b : Reg) (c : Issue),
    let i : Instr := .cgrp ct scope g d a b
    let lane := lowLane (c.active i)
    let grp : Group := ⟨c.f.pair a.toNat lane, (c.f.reg b.toNat lane).toNat % 2 ^ 16, scope⟩
    let code : Word := if s.m.collsOn c.launch g.toNat ≠ [] then 1
      else if 2 ≤ grp.list.length ∧ ∀ cl ∈ grp.list, s.m.gangOn c.launch cl = true then 0 else 2
    Issues s i c → c.active i ≠ 0 →
    let m := s.start c i
    let m := if code = 0 then m.updLaunch c.launch fun l => { l with
      groups := l.groups.put g.toNat grp, owed := l.owed.del g.toNat } else m
    exec i s = .next (s.goesOn c i (m.updFrame c.p.frame fun f =>
      f.setLanes d.toNat (laneList (c.active i)) fun _ => code))) ∧
  ∀ (s : State) (i : Instr) (c : Issue) (r : CollReq) (p : EnginePlan), collRequest c (c.active i) i = some r →
    Issues s i c → c.active i ≠ 0 → s.m.collPlan c (c.active i) r = .ok p → s.m.engineWait c i p = .ok →
    let n := s.m.serial + 1
    (∀ g, s.m.collGroup c r.g = some g →
      (∀ l, s.m.launches.get? c.launch = some l → l.takeOwed r.g (clusterOf c.core) = none) →
      (∀ cl ∈ g.list, cl ∉ s.lostClusters ∧ s.m.gangDead c.launch cl = false) →
      let t := (s.engined c i p).updM fun m => m.admitColls c.launch r.g
      exec i s = .next t ∧ Quiet s t) ∧
    (∀ g k l l' cause mask, s.m.collGroup c r.g = some g → p.kind = .coll k → s.m.launches.get? c.launch = some l →
      l.takeOwed r.g (clusterOf c.core) = some ((cause, mask), l') →
      exec i s = .next ((s.engined c i p).updM fun m =>
        ({ m with launches := m.launches.put c.launch l' } : Mach).lateColl n k cause mask)) ∧
    (s.m.collGroup c r.g = none →
      exec i s = .next ((s.engined c i p).updM fun m => ({ m with free := m.free + 1 } : Mach).endColl n (statusRecord 1 0 0)
        (if r.kind = .barrier then 0 else (Config.freeWord m.free).toNat)) ∧
      ∃ t, exec i s = .next t ∧ t.m.ops.get? n = none ∧ ∀ a, t.byte a = s.byte a)

/-! ## The accumulator store -/

/-- R403: `acc.acq` goes under way: from the matrix unit the token goes to its task, held once no operation on the slot is
left; a task that has it, or waits for it, changes nothing; any other waits behind the waiters. `acc.rel` gives the token to
the oldest waiter, else to the matrix unit, and completes the `acc.acq` of its task that had come to hold it. The model's own
choices in it: log entries 27, 58. -/
def Obligations.AccumulatorTokensMove : Prop :=
  (∀ (s : State) (ct : Ctl) (slot : BitVec 6) (c : Issue),
    let i : Instr := .accAcq ct slot
    LongIssues s i c → s.m.slotsChk c (c.active i) [slot.toNat] = .ok →
    let ops := s.m.mmaOn c.tk slot.toNat
    let next (k : Token) : Token :=
      if k.owner = none ∧ k.awaits = [] ∧ k.waiters = [] then
        if ops = [] then ⟨some c.t, true, [], []⟩ else ⟨some c.t, false, ops, []⟩
      else if k.owner = some c.t ∨ c.t ∈ k.waiters then k
      else { k with waiters := k.waiters ++ [c.t] }
    let m := ((s.start c i).firstUse c.tk [slot.toNat]).updTeam c.tk fun t =>
      t.setToken slot.toNat (next (t.token slot.toNat))
    exec i s = .next (s.underWay c i false (.accAcq slot.toNat) m)) ∧
  ∀ (s : State) (ct : Ctl) (slot : BitVec 6) (c : Issue),
    let i : Instr := .accRel ct slot
    Issues s i c → c.active i ≠ 0 → s.m.heldChk c (c.active i) slot.toNat = .ok →
    let mine (o : Nat × Op) : Prop := o.2.team = c.tk ∧ o.2.task = c.t ∧ o.2.kind = .accAcq slot.toNat
    ∃ t, exec i s = .next t ∧ (∀ a, t.byte a = s.byte a) ∧ (∀ o ∈ s.m.ops, mine o → t.m.ops.get? o.1 = none) ∧
      ((∀ o ∈ s.m.ops, ¬mine o) → Quiet s { t with m := { t.m with cores := s.m.cores } }) ∧
      ∀ tm, s.m.team? c.tk = some tm → ∃ tm', t.m.team? c.tk = some tm' ∧
        let ws := (tm.token slot.toNat).waiters.filter (· ≠ c.t)
        tm'.token slot.toNat =
          if (tm.token slot.toNat).awaits ≠ [] then ⟨none, false, (tm.token slot.toNat).awaits, ws⟩
          else match ws with
            | [] => ⟨none, false, [], []⟩
            | w :: ws => ⟨some w, true, [], ws⟩

/-- R407: `acc.ld` fixes as it issues that D + m of lane i receives S[i, 4c + m]; `acc.zero` zeroes its slot or quarter and
no other element; `acc.q` writes holder, operations on the slot, and ownership. The model's own choices in it: log entry 58. -/
def Obligations.AccumulatorSlotsReadAndZeroed : Prop :=
  (∀ (s : State) (ct : Ctl) (slot : BitVec 6) (quad : BitVec 3) (d : Reg) (c : Issue),
    let i : Instr := .accLd ct slot quad d
    LongIssues s i c → s.m.heldChk c (c.active i) slot.toNat = .ok →
    let m := (s.start c i).firstUse c.tk [slot.toNat]
    let p := (m.physSlot c.tk slot.toNat).getD 0
    exec i s = .next (s.underWay c i false (.writes ((laneList (c.active i)).flatMap fun n =>
      [0, 1, 2, 3].map fun k => (d.toNat + k, n, (m.core c.core).elem p n (4 * quad.toNat + k))) 0) m)) ∧
  (∀ (s : State) (ct : Ctl) (slot : BitVec 6) (q : BitVec 2) (sh : Bool) (c : Issue),
    let i : Instr := .accZero ct slot q sh
    Issues s i c → c.active i ≠ 0 → s.m.heldChk c (c.active i) slot.toNat = .ok →
    let m := (s.start c i).firstUse c.tk [slot.toNat]
    let p := (m.physSlot c.tk slot.toNat).getD 0
    ∃ t, exec i s = .next t ∧ (∀ a, t.byte a = s.byte a) ∧ (∀ fr r n, t.reg fr r n = s.reg fr r n) ∧
      ∀ k row col : Nat, row < 32 → col < 32 → (t.m.core c.core).elem k row col =
        if k = p ∧ (sh = true → row / 16 = q.toNat / 2 ∧ col / 16 = q.toNat % 2) then 0 else (m.core c.core).elem k row col) ∧
  ∀ (s : State) (ct : Ctl) (slot : BitVec 6) (d : Reg) (c : Issue) (l : Launch) (tm : Team),
    let i : Instr := .accQ ct slot d
    let tok := tm.token slot.toNat
    Issues s i c → c.active i ≠ 0 → s.m.launches.get? c.launch = some l → s.m.team? c.tk = some tm →
    slot.toNat < l.accSlots →
    let holder := if tok.held = true then if tok.owner = some c.t then 1 else 2 else 0
    let busy := if s.m.mmaOn c.tk slot.toNat = [] then 0 else 4
    let owned := match tm.slotMap.get? slot.toNat with
      | some p => if (s.m.core c.core).ownerOf p = tm.owns slot.toNat then 8 else 0
      | none => 0
    ∃ t, exec i s = .next t ∧ (∀ a, t.byte a = s.byte a) ∧ ∀ r n, n < 32 → t.reg c.p.frame r n =
      if (c.active i).getLsbD n = true ∧ r = d.toNat then .ofNat 32 (holder + busy + owned) else s.reg c.p.frame r n

namespace Sys2Proof.Machine

/-- The rational a finite value stands for. -/
def ratOf : Machine.Num → ℚ
  | .fin neg m e => (if neg then -1 else 1) * m * 2 ^ e
  | _ => 0

/-- r is the exact sum of the terms ts, rounded once to FP32 (R243): the canonical NaN with a NaN, or with infinities of both signs,
among them; else an infinity that is; else the sum as a rational, to nearest even, where a zero is −0 if every term is. -/
def ExactSum (ts : List Machine.Num) (r : Word) : Prop :=
  let up := .inf false ∈ ts
  let down := .inf true ∈ ts
  ((∃ t ∈ ts, t.isNan = true) ∨ (up ∧ down) → r = 0x7FC00000) ∧
  ((∀ t ∈ ts, t.isNan = false) → up → ¬down → r = 0x7F800000) ∧
  ((∀ t ∈ ts, t.isNan = false) → down → ¬up → r = 0xFF800000) ∧
  ((∀ t ∈ ts, ∃ g n e, t = .fin g n e) → ∃ x e : Int, (x : ℚ) * 2 ^ e = (ts.map ratOf).sum ∧
    (x = 0 → (∀ t ∈ ts, ∃ n e, t = .fin true n e) → r = 0x80000000) ∧
    (x = 0 → (∃ t ∈ ts, ∀ n e, t ≠ .fin true n e) → r = 0) ∧
    (x ≠ 0 → r = .ofNat 32 (f32.round .rne false (decide (x < 0)) x.natAbs e false).bits))

/-- A product of the terms x and y: a NaN for ∞ × 0 or with a NaN, an infinity with the sign of both, or exact (R243). -/
structure TermOf (x y z : Machine.Num) : Prop where
  nan : x.isNan = true ∨ y.isNan = true → z.isNan = true
  zero : ∀ a b e, (x = .inf a ∧ y = .fin b 0 e) ∨ (x = .fin b 0 e ∧ y = .inf a) → z.isNan = true
  inf : ∀ a b m e, m ≠ 0 → (x = .inf a ∧ (y = .inf b ∨ y = .fin b m e)) ∨ (x = .fin a m e ∧ y = .inf b) → z = .inf (a != b)
  exact_ : ∀ a m e b n g, x = .fin a m e → y = .fin b n g → ratOf z = ratOf x * ratOf y ∧ ∃ c k h, z = .fin c k h

end Sys2Proof.Machine

/-- R396, R401: a matrix operation whose operands are read updates the elements of its region, and no other element of the
store: each becomes what R243 makes of the old one and its products; no byte changes, and the operation is over. An INT8
operation leaves the old element, or 0 with ZA, plus the sum of the 64 products, as a 32-bit two's-complement integer; any other the
exact sum of the old element, or +0, and the exact products, rounded once. R393, R397, R399: A[i, q] lies at (i × K + q) elements,
or comes from the source slots by the down-converter, and B[q, j] at byte 64 × j of dense B, or in the blocks of column j; a row's
adapter gives what stands for B, and contributes nothing beyond its rank. The model's own choices in it: log entry 56. -/
def Obligations.MatrixUpdatesRegion : Prop :=
  (∀ (s : State) (o : Op) (k : MmaK), s.m.ops.get? s.subj.x = some o → o.kind = .mma k → k.read = true → k.void = false →
    s.m.mmaWaits s.subj.x o.team k = false →
    let h := (mmaRegion k.f).1
    let r0 := (mmaRegion k.f).2.1
    let c0 := (mmaRegion k.f).2.2
    let p (slot : Nat) := (s.m.physSlot o.team slot).getD 0
    let e := (s.m.core o.core).elem
    ∃ t, exec .accSlotUpdate s = .next t ∧ t.m.ops.get? s.subj.x = none ∧ (∀ a, t.byte a = s.byte a) ∧
      ∀ q row col : Nat, row < 32 → col < 32 → (t.m.core o.core).elem q row col =
        if q = p k.f.dslot.toNat ∧ r0 ≤ row ∧ row < r0 + h ∧ c0 ≤ col ∧ col < c0 + h then
          k.result (fun j row col => e (p (k.sslot + j)) row col) (e q row col) (row - r0) (col - c0)
        else e q row col) ∧
  (∀ (k : MmaK) (src : Nat → Nat → Nat → Word) (old : Word) (i j : Nat), k.f.af = .i8 →
    let a (q : Nat) : Int := (k.aBytes.getD (64 * i + q) 0).toInt
    let b (q : Nat) : Int := (k.bBytes.getD (64 * j + q) 0).toInt
    ((k.result src old i j).toInt - ((if k.f.za = true then 0 else old.toInt) + ∑ q ∈ Finset.range 64, a q * b q)) %
      2 ^ 32 = 0) ∧
  (∀ (k : MmaK) (src : Nat → Nat → Nat → Word) (old : Word) (i j : Nat), k.f.af ≠ .i8 →
    ExactSum (f32.num (if k.f.za = true then 0 else old.toNat) :: (k.products src i j).map fun p => p.getD (.nan false))
      (k.result src old i j)) ∧
  (∀ x y : Machine.Num, TermOf x y ((x.mul y).getD (.nan false))) ∧
  ∀ (k : MmaK) (src : Nat → Nat → Nat → Word) (i j : Nat),
    let w := if k.f.af = .bf16 ∨ k.f.af = .f16 then 2 else 1
    let wb := if k.f.bf = .bf16 ∨ k.f.bf = .f16 then 2 else 1
    let kd := if k.form = .packedS ∨ k.form = .packedDs then 96 else 64 / w
    let own : Prop := k.form = .dense ∨ k.form = .packedS ∨ k.form = .packedDs ∨ k.form = .gather
    let a (q : Nat) : Machine.Num :=
      if own then elemAt k.f.af k.aBytes ((i * kd + q) * w)
      else downConv k.f.af (src (q / 32) ((if k.f.sh = true ∧ k.hs = true then 16 else 0) + i) (q % 32))
    (k.form = .dense ∨ k.form = .chained →
      k.products src i j = (List.range kd).map fun q => (a q).mul (elemAt k.f.bf k.bBytes (64 * j + q * wb))) ∧
    (k.form = .packedS ∨ k.form = .packedDs →
      k.products src i j = (List.range 96).filterMap fun q => (packedAt k.bBytes q j).map (a q).mul) ∧
    (k.form = .gather ∨ k.form = .gatherChained → ∀ h r0 c0, mmaRegion k.f = (h, r0, c0) →
      (k.adapters.get? (k.ids.getD (r0 + i) 0xFFFF) = none → k.products src i j = []) ∧
      ∀ rank bs, k.adapters.get? (k.ids.getD (r0 + i) 0xFFFF) = some (rank, bs) →
        let n := if k.form = .gather then kd else rank
        k.products src i j = if k.form = .gather ∧ rank ≤ c0 + j then []
          else (List.range n).map fun q => (a q).mul (elemAt k.f.bf bs ((j * n + q) * wb)))

/-! ## Deterministic reductions -/

/-- R350, R352, R354: `rctx` that passes its checks opens its context and writes 0; it writes 1 where the context is OPEN and
2 where its teams are not in the launch, and then changes nothing; `rdet` goes under way with its active lanes' values, `rclose` with
its context. R244, R351, R352: an `rdet` that reaches the free slot of its OPEN context writes there the values combined in the tree
of R244, with FILLED set, and no other byte, and sets the FPSTAT bits of the tree; a FAILED context drops it; on a context that is
DONE or not open, or with a TYPE, an element, a team or a slot the context does not have, or a FILLED slot, it ends with a deferred
PROTECTION. R354: `rclose` waits while its context is OPEN, and then D receives 0 where it is DONE, 1 where FAILED, 2 where it was
never opened. The model's own choices in it: log entries 48, 111. -/
def Obligations.ReductionInstructions : Prop :=
  (∀ (s : State) (ct : Ctl) (op : SumOp) (t : Ty) (scope : Scope) (ctx : BitVec 4) (d a b e : Reg) (c : Issue) (l : Launch)
    (dst buf : List (Nat × Nat)),
    let i : Instr := .rctx ct op t scope ctx d a b e
    let lane := lowLane (c.active i)
    let w := (c.f.reg e.toNat lane).toNat
    let r : RctxArgs := ⟨(c.f.pair a.toNat lane).toNat, (c.f.pair b.toNat lane).toNat, w % 2 ^ 8, w / 2 ^ 8 % 2 ^ 8,
      w / 2 ^ 16 % 2 ^ 6 + 1, w / 2 ^ 22 % 2 ^ 6 + 1⟩
    Issues s i c → c.active i ≠ 0 → s.m.launches.get? c.launch = some l → s.m.rctxChk c (c.active i) t scope r = .ok (dst, buf) →
    let code : Word := if (∃ k, l.redctx.get? ctx.toNat = some k ∧ k.st = .opened) then 1
      else if r.thi < r.tlo ∨ l.gangs * l.cores ≤ r.thi then 2 else 0
    let team := s.m.teams.filter fun k => k.2.launch = c.launch && r.tlo ≤ k.2.ix && k.2.ix ≤ r.thi
    let k : RedCtx := ⟨.opened, op, t, scope, (dst.head?.map (·.1)).getD 0, buf, r.tlo, r.thi, r.elems, r.slots,
      team.map fun k => (k.2.ix, k.2.core), [], []⟩
    let m := s.start c i
    let m := if code = 0 then (m.updLaunch c.launch fun l => { l with redctx := l.redctx.put ctx.toNat k }).dropRoots c.launch ctx.toNat
      else m
    exec i s = .next (s.goesOn c i (m.updFrame c.p.frame fun f =>
      f.setLanes d.toNat (laneList (c.active i)) fun _ => code))) ∧
  (∀ (s : State) (ct : Ctl) (t : Ty) (ctx : BitVec 4) (a b e : Reg) (c : Issue),
    let i : Instr := .rdet ct t ctx a b e
    let lane := lowLane (c.active i)
    let elem := (c.f.reg b.toNat lane).toNat
    let k := (c.f.reg e.toNat lane).toNat
    LongIssues s i c →
    let vals := (List.range 32).map fun n =>
      if (c.active i).getLsbD n = true then some (redWiden t (c.f.reg a.toNat n)) else none
    let u := s.underWay c i false (.rdet ctx.toNat elem k t vals)
      ((s.start c i).send (s.start c i).serial c.core ((s.m.slotOf c.tk ctx.toNat elem k).toList.map .dev))
    exec i s = .next u ∧ Quiet s u) ∧
  (∀ (s : State) (ct : Ctl) (ctx : BitVec 4) (d : Reg) (c : Issue),
    let i : Instr := .rclose ct ctx d
    LongIssues s i c →
    let u := s.underWay c i false (.rclose ctx.toNat d.toNat) (s.start c i)
    exec i s = .next u ∧ Quiet s u) ∧
  (∀ (s : State) (n : Nat) (o : Op) (sv : Serve) (ctx e k : Nat) (t : Ty) (vals : List (Option Word)) (tm : Team) (l : Launch),
    s.m.MayEnd n o → o.kind = .rdet ctx e k t vals → vals ≠ [] → s.m.team? o.team = some tm → s.m.launches.get? tm.launch = some l →
    (∀ r, l.redctx.get? ctx = some r →
      let v := warpTree (redFn r.op t) vals
      let pa := r.slot tm.ix e k
      let fits : Prop := t = r.ty ∧ e < r.elems ∧ k < r.slots ∧ r.tlo ≤ tm.ix ∧ tm.ix ≤ r.thi ∧ s.m.slotFilled r tm.ix e k = false
      let bs := natBytes 4 (v.1.getD 0).toNat ++ [1, 0, 0, 0]
      let ends (bytes : Nat → Byte) : Prop :=
        ∃ m : Mach, exec (.operationComplete n sv) s = .next { s with m := m.finishOp n [] } ∧ (m.finishOp n []).ops.get? n = none ∧
          (∀ a, Memory.read (m.finishOp n []).mem a = bytes a) ∧ m.frames = s.m.frames ∧
          ∀ q, m.tasks.get? q = (s.m.tasks.get? q).map fun x => if q = o.task then { x with fpstat := x.fpstat ||| v.2 } else x
      (r.st = .opened → fits → (Place.dev pa).peer? = none → s.m.placeWaits true (.dev pa) = false →
        ends fun a => if pa ≤ a ∧ a < pa + 8 then bs.getD (a - pa) 0 else s.byte a) ∧
      (r.st = .failed → ends s.byte) ∧
      (r.st = .done ∨ (r.st = .opened ∧ ¬fits) →
        exec (.operationComplete n sv) s = .next { s with m := s.m.finishOp n [o.record s.m .protection 0 o.lanes 0 0] })) ∧
    (l.redctx.get? ctx = none →
      exec (.operationComplete n sv) s = .next { s with m := s.m.finishOp n [o.record s.m .protection 0 o.lanes 0 0] })) ∧
  ∀ (s : State) (n : Nat) (o : Op) (sv : Serve) (ctx d : Nat) (tm : Team) (l : Launch),
    s.m.MayEnd n o → o.kind = .rclose ctx d → s.m.team? o.team = some tm → s.m.launches.get? tm.launch = some l →
    let st := (l.redctx.get? ctx).map (·.st)
    (st = some .opened → exec (.operationComplete n sv) s = .next s) ∧
    (st ≠ some .opened → Completes s n sv s.byte o.frame
      ((laneList o.lanes).map fun x => (d, x, if st = some .done then 0 else if st = some .failed then 1 else 2)))


/-! ## Commands -/

namespace Sys2Proof.Machine

/-- Whether a command begins and passes steps 1 to 3 of R72: onPart says whether R70 allows it on partition queues, named
gives the partition of what it names. -/
structure CommandRuns (s : State) (h : CmdHdr) (onPart : Bool) (named : Option Nat) : Prop where
  begins : s.mayBegin h = true
  passes : s.precheck h onPart named = .ok

/-- Bytes [31:0] of the completion record of a command (R82, R83): status and RESULT. -/
def completionRecord (h : CmdHdr) (opcode status result dropped : Nat) (phase : Bool) : List Byte :=
  natBytes 2 0 ++ natBytes 1 (opcode % 256) ++ natBytes 1 h.queue ++ natBytes 4 h.tag.toNat ++ natBytes 2 status ++
    natBytes 2 (min dropped 65535) ++ natBytes 4 0 ++ natBytes 8 (BitVec.ofNat 64 result).toNat ++ natBytes 7 0 ++
    natBytes 1 phase.toNat

end Sys2Proof.Machine

/-- R72, R82, R83: a command with an OPCODE that R73 does not have completes as INVALID: its record stands in the next slot of
the event queue it goes to, PHASE as the lap has it; no other byte of memory changes, and the command is over. That DROPPED of the
record stops at 65,535 is the model's choice (DESIGN CHOICE, log entry 94). The model's own choices in it: log entries 75, 94, 119. -/
def Obligations.UnknownCommandReportsInvalid : Prop :=
  ∀ (s : State) (h : CmdHdr) (opcode : Nat) (q : EvQueue), s.mayBegin h = true → opcode ≠ 0x58 →
    s.sys.hub.eqs.get? (s.recordQueue h) = some q → q.waiting = [] → q.used s.m < 2 ^ q.logn →
    let at_ := q.base + 128 + q.tail % 2 ^ q.logn * 32
    (∀ cell ∈ s.m.waitedCells, ¬(cell < at_ + 32 ∧ at_ < cell + 16)) →
    ∃ t, exec (.unknownCommand h opcode) s = .next t ∧
      (∀ a, t.byte a = if at_ ≤ a ∧ a < at_ + 32 then
        (completionRecord h opcode 1 0 q.dropped (decide (q.tail / 2 ^ q.logn % 2 = 0))).getD (a - at_) 0 else s.byte a) ∧
      t.sys.hub.eqs.get? (s.recordQueue h) = some { q with tail := q.tail + 1, dropped := 0 } ∧
      t.sys.hub.pending = s.sys.hub.pending.filter (fun p => !(p.queue = h.queue && p.entry = h.entry)) ∧
      t.sys.flash = s.sys.flash ∧ t.agenda = s.agenda

/-- R73, R74, R90, R91, R438: the commands on queues, partitions and contexts that pass their checks take effect and complete
with OK: QUEUE_CREATE, QUEUE_DESTROY once no begun command of its queue is left, PART_CREATE, PART_SET (weight and quotas from the
next window), PART_DESTROY and CTX_DESTROY once no launch they cancel is left, CTX_CREATE with the lowest free ASID as RESULT. A launch
whose event queue goes posts to queue 0 from then on. That PART_SET's quotas wait for the window as its weight does is the model's
reading of R73 against R91 (DEDUCED, log entry 120), and that commands consumed and not begun complete with an error status as their
queue goes its choice (log entry 95). The model's own choices in it: log entries 12, 69, 75, 95, 97, 119, 120. -/
def Obligations.QueuesPartitionsContexts : Prop :=
  (∀ (s : State) (h : CmdHdr) (num kind logn vector base : Nat) (bind : Bool), CommandRuns s h false none →
    s.queueChk h num kind logn vector base bind = .ok →
    exec (.queueCreate h num kind logn vector base bind) s = .next ((s.updHub fun b =>
      if kind = 0 then { b with cqs := b.cqs.put num ⟨some h.part, logn, base, 0, false⟩ }
      else { b with eqs := b.eqs.put num ⟨if bind then some h.part else none, logn, base, vector, 0, 0, []⟩ }).complete h 0x01
        .ok 0)) ∧
  (∀ (s : State) (h : CmdHdr) (num kind : Nat), CommandRuns s h false none → num ≠ 0 →
    (kind = 0 ∧ (s.sys.hub.cqs.get? num).isSome = true ∧ (∀ p ∈ s.sys.hub.pending, p.queue = num → p.begun = false) ∨
      kind = 1 ∧ (s.sys.hub.eqs.get? num).isSome = true) →
    exec (.queueDestroy h num kind) s = .next ((if kind = 0 then (s.dropCommands (· = num)).updHub fun b =>
        { b with cqs := b.cqs.del num }
      else (s.updHub fun b => { b with eqs := b.eqs.del num }).unnameQueues (· = num)).complete h 0x02 .ok 0) ∧
    (∀ (n : Nat) (l : Launch), s.m.launches.get? n = some l →
      ((s.unnameQueues (· = num)).m.launches.get? n).map (·.evq) = some (if l.evq = num then 0 else l.evq))) ∧
  (∀ (s : State) (h : CmdHdr) (q : Quota), CommandRuns s h false none → quotaOk q = true →
    (s.sys.hub.parts.get? h.part = none →
      exec (.partCreate h q) s = .next ((s.updHub fun b => { b with parts := b.parts.put h.part q }).complete h 0x10 .ok 0)) ∧
    ((s.sys.hub.parts.get? h.part).isSome = true →
      exec (.partSet h q) s = .next ((s.updHub fun b => { b with newQuotas := b.newQuotas.put h.part q }).complete h 0x11 .ok
        0))) ∧
  (∀ (s : State) (h : CmdHdr), CommandRuns s h false none → (s.sys.hub.parts.get? h.part).isSome = true →
    (∀ l ∈ s.m.launches, l.2.part ≠ h.part) →
    (∀ p ∈ s.sys.hub.pending, ((s.sys.hub.cqs.get? p.queue).bind (·.part)) ≠ some h.part) →
    let gone := (s.sys.hub.eqs.filter fun q => q.2.part = some h.part).map (·.1)
    exec (.partDestroy h) s = .next ((((s.unnameQueues gone.contains).dropContexts fun _ c => c.part = h.part).updHub fun b =>
      { b.dropQueues (· = h.part) with parts := b.parts.del h.part, newQuotas := b.newQuotas.del h.part }).complete h 0x12
        .ok 0)) ∧
  (∀ (s : State) (h : CmdHdr) (root a : Nat), CommandRuns s h false none → root % 4096 = 0 → s.m.inHbm root = true →
    (s.sys.hub.parts.get? h.part).isSome = true → 1 ≤ a → a ≤ 2047 → s.m.ctxs.get? a = none →
    (∀ b, 1 ≤ b → b < a → (s.m.ctxs.get? b).isSome = true) →
    exec (.ctxCreate h root) s = .next ((s.updM fun m => { m with ctxs := m.ctxs.put a ⟨h.part, root⟩ }).complete h 0x18
      .ok a)) ∧
  ∀ (s : State) (h : CmdHdr) (asid : Nat) (c : Ctx), CommandRuns s h false none → s.m.ctxs.get? asid = some c →
    c.part = h.part → (∀ l ∈ s.m.launches, l.2.asid ≠ asid) →
    exec (.ctxDestroy h asid) s = .next ((s.dropContexts fun a _ => a = asid).complete h 0x19 .ok 0)

/-- R75, R76, R198, R201, R203: MAP and UNMAP that pass their checks and need not wait write and remove their entries; a MAP that
pins pages in a local store whose block a team still holds begins, and has its effect once the block is free; DISCARD drops the
lines of its range and leaves its bytes unspecified; the hub fills a page an access has stalled on with zeros and sets V.
The model's own choices in it: log entries 5, 71, 76, 96, 119, 122. -/
def Obligations.PagesMappedAndUnmapped : Prop :=
  (∀ (s : State) (h : CmdHdr) (asid attrs va pa size : Nat),
    let a := mapAttrOf attrs
    let new := s.m.newPins a pa size
    let r := s.mapEntries asid a va pa size
    s.begun h = false → CommandRuns s h true ((s.m.ctxs.get? asid).map (·.part)) → s.mapOk asid a va pa size = true →
    r.2 ≤ Config.tableCount → s.m.pinsFit a new = true →
    let wait := s.updM fun m => ({ m with pinning := m.pinning ++ new } : Mach).markEvicted a.tgt
    if a.home = 1 ∧ new ≠ [] ∧ wait.m.blockBusy a.tgt = true then exec (.mapPages h asid attrs va pa size) s = .next (wait.begin h [])
    else exec (.mapPages h asid attrs va pa size) s = .next
      ((({ s with m := (s.m.setMem r.1).placePages a pa size new } : State).updHub fun b =>
        { b with tablesUsed := r.2 }).complete h 0x20 .ok 0)) ∧
  (∀ (s : State) (h : CmdHdr) (asid va size : Nat), s.begun h = false →
    CommandRuns s h true ((s.m.ctxs.get? asid).map (·.part)) → s.unmapOk asid va size = true →
    (∀ l ∈ s.m.leaves asid va size, s.m.frameBusy (pteAddr l.entry) l.size = false) → s.m.lockBusy asid va size = false →
    exec (.unmapPages h asid va size) s = .next ((s.updM fun m => m.unmap asid va size).complete h 0x21 .ok 0)) ∧
  (∀ (s : State) (h : CmdHdr) (asid va size : Nat) (c : Ctx), CommandRuns s h true (some c.part) →
    s.m.ctxs.get? asid = some c → va + size ≤ 2 ^ 57 →
    exec (.discardRange h asid va size) s = .next ((s.updM fun m =>
      (m.leaves asid va size).foldl (fun m l => m.discardPart l va size) m).complete h 0x22 .ok 0)) ∧
  ∀ (s : State) (e at_ size : Nat), (s.subj.x, s.subj.y) ∈ s.m.demand → s.m.walk s.subj.x s.subj.y = .leaf e at_ size →
    pteV e = false → (∀ b < 8, at_ + b < pteAddr e ∨ pteAddr e + size ≤ at_ + b) →
    ∃ t, exec .demandZeroFill s = .next t ∧ t.sys = s.sys ∧ t.agenda = s.agenda ∧
      ∀ a, t.byte a = if pteAddr e ≤ a ∧ a < pteAddr e + size then 0
        else if at_ ≤ a ∧ a < at_ + 8 then (natBytes 8 (e + 1)).getD (a - at_) 0 else s.byte a

namespace Sys2Proof.Machine

/-- CANCEL has stopped launch n, l (R77): from s to t its teams are ENDED and their warp slots free, its copies under way go on, its
inbox generation advances, and with no collective in flight no byte of memory changes: a future it leaves EMPTY stays so. -/
structure CancelStops (s t : State) (n : Nat) (l : Launch) : Prop where
  stop : (t.m.launches.get? n).map (·.stop) = some (some 6)
  teams : ∀ tk tm, s.m.team? tk = some tm → tm.launch = n → (t.m.team? tk).map (·.res) = some .ended
  warps : ∀ tk tm w x, s.m.team? tk = some tm → tm.launch = n → w < 64 → t.m.warps.get? (warpKey tk w) = some x →
    x.st = .free ∧ x.task = none
  copies : ∀ k o e tm, s.m.ops.get? k = some o → o.kind = .engine e → s.m.team? o.team = some tm → tm.launch = n →
    (t.m.ops.get? k).map (fun o => (o.kind, o.gone)) = some (.engine e, false)
  inbox : l.hasInbox = true → t.sys.hub.inboxGens.getD n 0 = (l.inboxGen + 1) % 65536
  mem : l.colls = [] → ∀ a, t.byte a = s.byte a

/-- The management registers of a die (R48, R49, R57, R79, R100, R162) as a read gives them and a write of v leaves them: RW fields
take v, RO and reserved ones stay, an absent register reads 0 and ignores writes. -/
structure MgmtRegisters (s : State) (die : Nat) (v : Word) : Prop where
  estctl : s.mgmtRead 0 0x3FF 0 = s.sys.hub.estctl ∧
    s.mgmtWrite 0 0x3FF 0 v = s.updHub fun h => { h with estctl := v &&& 0xFF00FFFF }
  svctl : s.mgmtRead 0 0x3FF 4 = s.m.svctl ∧ s.mgmtWrite 0 0x3FF 4 v = s.updM fun m => { m with svctl := v }
  rplctl : s.mgmtRead die 0x3F0 0 = s.m.rplctl.getD die 9 ∧
    let t := s.mgmtWrite die 0x3F0 0 v
    (∀ d, t.m.rplctl.getD d 9 = if d = die then v &&& 0x1F else s.m.rplctl.getD d 9) ∧ (∀ a, t.byte a = s.byte a) ∧
      (v.getLsbD 0 = false → ∀ l, t.m.replicas.get? (4 * l + die) = none)
  scrbctl : ∀ k < 4, s.mgmtRead die 0x3F0 (0x10 + 4 * k) = s.sys.hub.scrbctl.getD (4 * die + k) 0x97 ∧
    let t := s.mgmtWrite die 0x3F0 (0x10 + 4 * k) v
    t.m = s.m ∧ (∀ e, t.sys.hub.scrbctl.getD e 0x97 = if e = 4 * die + k then v &&& 0xFF else s.sys.hub.scrbctl.getD e 0x97) ∧
      ∀ e, e ∈ t.sys.hub.forced ↔ e ∈ s.sys.hub.forced ∨ (v.getLsbD 8 = true ∧ e = 4 * die + k)
  domains : ∀ k < 8, ∀ d, s.m.domains.get? (8 * die + k) = some d →
    let reads (o : Nat) (w : Word) : Prop := s.mgmtRead die 0x3F0 (0x100 + 0x20 * k + o) = w
    reads 0x0 (.ofNat 32 (d.base * 2 ^ 30)) ∧ reads 0x4 (.ofNat 32 (d.base * 2 ^ 30 / 2 ^ 32)) ∧
      reads 0x8 (.ofNat 32 (d.lim * 2 ^ 30)) ∧ reads 0xC (.ofNat 32 (d.lim * 2 ^ 30 / 2 ^ 32)) ∧
      reads 0x10 (.ofNat 32 d.mask.toNat) ∧ reads 0x14 (.ofNat 32 (d.mask.toNat / 2 ^ 32)) ∧
      reads 0x18 (.ofNat 32 (min d.stale.length 15 * 16 + (if d.gen = true then 8 else 0) + match d.st with
        | .inactive => 0
        | .active => 1
        | .writeback => 2
        | .switch => 3
        | .replay => 4))
  domainsKept : ∀ o, 0x100 ≤ o → s.mgmtWrite die 0x3F0 o v = s
  absent : ∀ port off, (port = 0x3FF → die = 0 → off ≠ 0 ∧ off ≠ 4) →
    (port = 0x3F0 → off ≠ 0 ∧ ¬(0x10 ≤ off ∧ off < 0x20) ∧ ¬(0x100 ≤ off ∧ off < 0x200)) →
    s.mgmtRead die port off = 0 ∧ s.mgmtWrite die port off v = s

end Sys2Proof.Machine

/-- R49, R57, R77, R79, R80, R85, R87-R89, R146: LAUNCH admits its launch under the next free number and reports it; CANCEL stops a
launch that is not ending of itself, with RESULT 1 (CancelStops), and has RESULT 0 otherwise; LEASE_POLICY, LEASE_NOW, RETIRE_READ
with the records as the log holds them, ATTEST with a report signed under the device identity key, PATCH_STAGE of an image that
verifies under the release key, MGMT_READ and MGMT_WRITE (MgmtRegisters) take effect; each completes. The model's own choices in
it: log entries 1, 13, 73, 74, 75, 89, 90, 98, 119, 121. -/
def Obligations.LaunchesPoliciesRecords : Prop :=
  (∀ (s : State) (h : CmdHdr) (record n : Nat) (l : Launch) (root : Desc) (m : Mach) (gs : List (Nat × List Nat)),
    CommandRuns s h true none → s.admissible h record = some (l, root, m) →
    s.place h.part l.gangs l.cores l.charge [] = some gs → l.spillSize ≤ s.freeSpill h.part → s.nextLaunch = some n →
    exec (.launch h record) s = .next ((({ s with m := m } : State).admitLaunch n l root gs).complete h 0x28 .ok n)) ∧
  (∀ (s : State) (h : CmdHdr) (n : Nat), CommandRuns s h true ((s.m.launches.get? n).map (·.part)) →
    exec (.cancel h n) s = .next ((s.cancelLaunch n 6).2.complete h 0x29 .ok (s.cancelLaunch n 6).1) ∧
    (s.m.launches.get? n = none → exec (.cancel h n) s = .next (s.complete h 0x29 .ok 0)) ∧
    ∀ l, s.m.launches.get? n = some l →
      let ending : Prop := l.stop.isSome = true ∨ (s.m.tasksDone n = true ∧ s.m.enginesOut n = false)
      (ending → (s.cancelLaunch n 6).1 = 0) ∧
      (¬ending → (s.cancelLaunch n 6).1 = 1 ∧ CancelStops s (s.cancelLaunch n 6).2 n l)) ∧
  (∀ (s : State) (h : CmdHdr) (threshold inflight interval : Nat), CommandRuns s h false none → inflight ≤ 4 →
    exec (.leasePolicy h threshold inflight interval) s = .next ((s.updHub fun b =>
      ({ b with policy := ⟨threshold, inflight, interval⟩ } : Hub).seekLeases).complete h 0x30 .ok 0)) ∧
  (∀ (s : State) (h : CmdHdr) (u : UnitRef), CommandRuns s h false none → unitNamed u = true → s.sys.hub.unitGone u = false →
    (s.sys.hub.requestLease u).1 ≠ 0 →
    exec (.leaseNow h u) s = .next ((s.updHub fun b => (b.requestLease u).2).complete h 0x31 .ok (s.sys.hub.requestLease u).1)) ∧
  (∀ (s : State) (h : CmdHdr) (first buffer count : Nat), CommandRuns s h false none →
    let rs := (s.sys.flash.records.filter fun r => first ≤ r.seq).take count
    s.m.bufferOk buffer (128 * rs.length) = true →
    exec (.retireRead h first buffer count) s = .next
      ((s.updM fun m => m.placeWrite (.dev buffer) (rs.flatMap Retirement.bytes)).complete h 0x38 .ok rs.length)) ∧
  (∀ (s : State) (h : CmdHdr) (nonce buffer : Nat), CommandRuns s h false none → s.m.bufferOk buffer 320 = true →
    let body := s.sys.reportBody nonce
    body.take 32 = natBytes 32 nonce ∧
      exec (.attest h nonce buffer) s = .next
        ((s.updM fun m => m.placeWrite (.dev buffer) (body ++ signObject s.sys.rom.seed body)).complete h 0x40 .ok 0)) ∧
  (∀ (s : State) (h : CmdHdr) (addr len : Nat) (slotB : Bool), CommandRuns s h false none → len ≤ 4 * 2 ^ 20 →
    s.m.bufferOk addr len = true →
    let image : PatchImage := ⟨s.m.homeRead addr len⟩
    let flash : Flash := if s.sys.stagesB slotB = true then { s.sys.flash with patchB := some image }
      else { s.sys.flash with patchA := some image }
    exec (.patchStage h addr len slotB) s = .next (if image.sigOk s.sys.rom = true then
        ({ s with sys := { s.sys with flash := flash } } : State).complete h 0x50 .ok 0
      else s.complete h 0x50 .signature 0)) ∧
  (∀ (s : State) (die : Nat) (v : Word), die < 4 → MgmtRegisters s die v) ∧
  ∀ (s : State) (h : CmdHdr) (target offset : Nat) (v : Word), CommandRuns s h false none → offset % 4 = 0 → target < 2 ^ 12 →
    exec (.mgmtRead h target offset) s = .next (s.complete h 0x60 .ok
      (s.mgmtRead (target / 2 ^ 10) (target % 2 ^ 10) offset).toNat) ∧
    exec (.mgmtWrite h target offset v) s = .next ((s.mgmtWrite (target / 2 ^ 10) (target % 2 ^ 10) offset v).complete h 0x61
      .ok 0)

/-! ## Interleave domains -/

/-- R50, R51, R78: DOMAIN_SPLIT and DOMAIN_MERGE that pass their checks begin, and complete once their die changes no more; an
entry passes WRITEBACK, SWITCH and REPLAY and is then active, its new mask in force and GEN toggled; no byte changes. Of two entries
that change together neither leaves SWITCH while the other is in WRITEBACK; then both take their new ranges and masks, and one left
with no slice is INACTIVE. The model's own choices in it: log entries 14, 93, 123. -/
def Obligations.DomainsChange : Prop :=
  (∀ (s : State) (h : CmdHdr) (die k newEntry base : Nat) (mask : DWord), s.begun h = false → CommandRuns s h false none →
    s.m.splitOk die k newEntry base mask = true → s.sys.hub.splitting.get? die = none →
    exec (.domainSplit h die k newEntry base mask) s = .next ((s.startSplit die k newEntry base mask).begin h [])) ∧
  (∀ (s : State) (h : CmdHdr) (die k absorb : Nat) (mask : DWord), s.begun h = false → CommandRuns s h false none →
    s.mergeOk die k absorb mask = true → s.sys.hub.splitting.get? die = none →
    exec (.domainMerge h die k absorb mask) s = .next ((s.startMerge die k absorb mask).begin h [])) ∧
  (∀ (s : State) (h : CmdHdr) (die k x base : Nat) (mask : DWord), s.begun h = true → s.sys.hub.splitting.get? die = none →
    exec (.domainSplit h die k x base mask) s = .next (s.complete h 0x48 .ok 0) ∧
    exec (.domainMerge h die k x mask) s = .next (s.complete h 0x49 .ok 0)) ∧
  ∀ (s : State),
    let d := s.m.domain s.subj.x s.subj.y
    (d.st = .writeback → ∃ t, exec .domainWritebackDone s = .next t ∧ (∀ a, t.byte a = s.byte a) ∧
      (∀ l ∈ t.m.dirty, d.holds (l * 128) = false) ∧
      t.m.domain s.subj.x s.subj.y = { d with st := .switch, since := s.m.serial }) ∧
    (d.st = .switch → d.partner = none → d.newMask ≠ 0 → s.m.PeersIdle → ∃ t, exec .domainSwitchDone s = .next t ∧
      (∀ a, t.byte a = s.byte a) ∧
      let e := t.m.domain s.subj.x s.subj.y
      e.st = .replay ∧ e.gen = !d.gen ∧ e.base = d.newBase ∧ e.lim = d.newLim ∧ e.mask = d.newMask) ∧
    (∀ p, d.st = .switch → d.partner = some p → p ≠ s.subj.y → s.m.PeersIdle →
      let e := s.m.domain s.subj.x p
      let became (t : State) (k : Nat) (old : Domain) : Prop :=
        let e := t.m.domain s.subj.x k
        e.gen = !old.gen ∧ e.mask = old.newMask ∧
          if old.newMask = 0 then e.st = .inactive ∧ e.base = 0 ∧ e.lim = 0
          else e.st = .replay ∧ e.base = old.newBase ∧ e.lim = old.newLim
      (e.st = .writeback → exec .domainSwitchDone s = .next s) ∧
      (e.st ≠ .writeback → ∃ t, exec .domainSwitchDone s = .next t ∧ (∀ a, t.byte a = s.byte a) ∧ became t s.subj.y d ∧
        became t p e)) ∧
    (d.st = .replay → exec .staleGenReturn s = .next (s.updM fun m =>
      m.putDomain s.subj.x s.subj.y { d with stale := d.stale.drop 1 })) ∧
    (d.st = .replay → d.stale = [] → ∃ t, exec .domainReplayDone s = .next t ∧
      t.m.domain s.subj.x s.subj.y = { d with st := .active } ∧ (∀ a, t.byte a = s.byte a) ∧
      ((∀ e ∈ t.m.domains, e.1 / 8 = s.subj.x → e.2.st = .active ∨ e.2.st = .inactive) →
        t.sys.hub.splitting.get? s.subj.x = none))

/-! ## Start-up, reset, temperature, the host -/

/-- R20, R23, R67: a report of the junction temperature counts the time below 92 °C and above 105 °C; at 95 to 105 °C, or to hold a
power limit, a step down lowers the clock by 0.3 GHz, no lower than 1.8; after 1 ms below 92 °C a step up raises it by 0.3 GHz, no
higher than 3.6; after 1 ms above 105 °C the module is in thermal halt. Each 60 s of module time is recorded, with the scores as they
were written last. The model's own choices in it: log entries 16, 81. -/
def Obligations.TemperatureAndModuleTime : Prop :=
  (∀ s : State, s.sys.hub.phase = .running →
    let x := s.subj.x
    let cool := if x < 92 then s.sys.hub.coolSince.or (some s.m.mtime) else none
    let hot := if 105 < x then s.sys.hub.hotSince.or (some s.m.mtime) else none
    (∃ t, exec .thermalStepDown s = .next t ∧ t.sys.hub.phase = .running ∧ t.sys.hub.temp = x ∧ t.sys.hub.coolSince = cool ∧
      t.sys.hub.hotSince = hot ∧ t.sys.hub.freq =
        if (95 ≤ x ∧ x ≤ 105 ∨ s.subj.y ≠ 0) ∧ 18 < s.sys.hub.freq then s.sys.hub.freq - 3 else s.sys.hub.freq) ∧
    (∃ t, exec .thermalStepUp s = .next t ∧ t.sys.hub.phase = .running ∧ t.sys.hub.temp = x ∧ t.sys.hub.hotSince = hot ∧
      t.sys.hub.coolSince = (if msPast cool s.m.mtime = true then some s.m.mtime else cool) ∧
      t.sys.hub.freq = if msPast cool s.m.mtime = true ∧ s.sys.hub.freq < 36 then s.sys.hub.freq + 3 else s.sys.hub.freq) ∧
    ∃ t, exec .thermalHalt s = .next t ∧ t.sys.hub.temp = x ∧ t.sys.hub.freq = s.sys.hub.freq ∧
      t.sys.hub.phase = if msPast hot s.m.mtime = true then .thermalHalt else .running) ∧
  (∀ s : State, s.sys.hub.phase ≠ .running → exec .thermalStepDown s = .next s ∧ exec .thermalStepUp s = .next s ∧
    exec .thermalHalt s = .next s) ∧
  (∀ (since : Option Nat) (now : Nat), msPast since now = true ↔ ∃ t, since = some t ∧ t + 1000000 ≤ now) ∧
  ∀ s : State, ∃ t, exec .mtimeRecord s = .next t ∧ (t.m = s.m ∧ t.agenda = s.agenda) ∧
    (s.m.mtime < s.sys.hub.lastRecord + 60000000000 → t = s) ∧
    (s.sys.hub.lastRecord + 60000000000 ≤ s.m.mtime → t.sys.flash.stored = ⟨s.sys.flash.stored.scores, s.m.mtime⟩ ∧
      t.sys.hub = { s.sys.hub with lastRecord := s.m.mtime } ∧ t.sys.rom = s.sys.rom)

/-- R21, R24, R66, R73, R439: `POWER_ON` runs the start-up sequence: HBM reads zero, host memory stays, no launch and no
context is left; with a store that verifies the module runs, with the settings and the module time the store holds, and with one
that does not it is in the fatal state. An undervoltage holds the module in reset, its flash store as it was. A RESET that passes its
checks, warm with no launch left: partitions, contexts and every queue but the admin queues are gone, the commands they held with them,
module time and scores are written, ENA stays; full: the module stands at step 1 of R24. The admin queues start with ENA where ADMCQ
and ADMEQ hold a LOGN from 4 to 12, and not otherwise; they stop, with every queue gone, where ENA is cleared and no launch is left, and
start again where ENA has been set in between. That every byte outside host memory reads 0 whenever the module restarts, in the fatal
state and under an undervoltage too and at the addresses of peer apertures, is the model's choice (log entries 3, 43): R24 clears HBM at
step 4, and the bytes behind an aperture are the peer's. The model's own choices in it: log entries 3, 4, 43, 75, 79, 81, 95. -/
def Obligations.StartUpAndResets : Prop :=
  (∀ (s : State) (bad moved : List UnitRef) (link : HostLink), s.sys.hub.phase = .off ∨ s.sys.hub.phase = .startup →
    ∃ t, exec (.powerOn bad moved link) s = .next t ∧ (∀ a, t.byte a = if regionOf a = .host then s.byte a else 0) ∧
      t.m.launches = [] ∧ t.m.ctxs = [] ∧ t.sys.hub.ena = false ∧
      (s.sys.flash.verifies s.sys.rom = false → t.sys.hub.phase = .fatal) ∧
      ∀ (c : Settings) (v : Service), s.sys.flash.verifies s.sys.rom = true → s.sys.flash.config = some c →
        s.sys.flash.service = some v → t.sys.hub.phase = .running ∧ t.sys.hub.memoryActive = true ∧
          t.sys.hub.hostLink = some link ∧ t.sys.hub.freq = 36 ∧ t.sys.hub.policy = c.policy ∧ t.sys.hub.hdm = c.hdm ∧
          t.m.device = c.module ∧ t.m.mtime = v.mtime ∧ t.m.domains = t.startupDomains) ∧
  (∀ s : State, ∃ t, exec .undervoltage s = .next t ∧ t.sys = ⟨s.sys.flash, { Hub.reset with phase := .off }, s.sys.rom⟩ ∧
    t.m.launches = [] ∧ ∀ a, t.byte a = if regionOf a = .host then s.byte a else 0) ∧
  (∀ (s : State) (h : CmdHdr), s.mayReset h = true → s.precheck h false none = .ok → s.m.launches = [] →
    ∃ t, exec (.resetWarm h) s = .next t ∧ t.sys.hub.parts = [] ∧ t.m.ctxs = [] ∧ t.sys.hub.ena = s.sys.hub.ena ∧
      t.sys.hub.cqs = s.sys.hub.cqs.filter (fun q => q.1 = 0) ∧ (∀ n, n ≠ 0 → t.sys.hub.eqs.get? n = none) ∧
      t.sys.flash.stored = ⟨s.sys.hub.scores, s.m.mtime⟩ ∧
      t.sys.hub.phase = (if s.sys.hub.phase = .thermalHalt then .running else s.sys.hub.phase) ∧
      ((∀ p ∈ s.sys.hub.pending, p.queue = 0) →
        t.sys.hub.eqs = s.sys.hub.eqs.filter (fun q => q.1 = 0) ∧ ∀ a, t.byte a = s.byte a) ∧
      ∀ p ∈ t.sys.hub.pending, p.queue = 0 ∧ ¬(p.queue = h.queue ∧ p.entry = h.entry)) ∧
  (∀ (s : State) (h : CmdHdr), s.mayReset h = true → s.precheck h false none = .ok →
    ∃ t, exec (.resetFull h) s = .next t ∧ t.sys.hub = Hub.reset ∧ t.sys.rom = s.sys.rom ∧
      t.sys.flash.stored = ⟨s.sys.hub.scores, s.m.mtime⟩ ∧ t.sys.flash.log = s.sys.flash.log ∧ t.m.mtime = s.m.mtime ∧
      t.m.launches = [] ∧ ∀ a, t.byte a = if regionOf a = .host then s.byte a else 0) ∧
  (∀ s : State, s.sys.hub.phase = .running → s.sys.hub.ena = false → s.sys.hub.ready = true →
    exec .adminQueueStart s = .next (s.updHub fun h => { h with again := true })) ∧
  (∀ s : State, s.sys.hub.phase = .running → s.sys.hub.ena = false → s.sys.hub.ready = false →
    (lognOk s.sys.hub.admcq = true → lognOk s.sys.hub.admeq = true →
      ∃ t, exec .adminQueueStart s = .next t ∧ t.sys.hub.ena = true ∧ t.sys.hub.ready = true ∧
        t.sys.hub.cqs.get? 0 = some ⟨none, s.sys.hub.admcq.toNat % 16, adminBase s.sys.hub.admcq, 0, false⟩ ∧
        ∃ q, t.sys.hub.eqs.get? 0 = some q ∧ q.base = adminBase s.sys.hub.admeq ∧ q.logn = s.sys.hub.admeq.toNat % 16) ∧
    (lognOk s.sys.hub.admcq = false ∨ lognOk s.sys.hub.admeq = false →
      exec .adminQueueStart s = .next (s.updHub fun h => { h with ena := true }))) ∧
  (∀ s : State, s.sys.hub.phase = .running → s.sys.hub.ena = true ∨ (s.sys.hub.ready = true ∧ s.sys.hub.again = false) →
    s.m.launches = [] →
    ∃ t, exec .adminQueueStop s = .next t ∧ t.sys.hub.ena = false ∧ t.sys.hub.ready = false ∧ t.sys.hub.cqs = [] ∧
      t.sys.hub.eqs = [] ∧ t.sys.hub.pending = [] ∧ t.sys.hub.parts = [] ∧ t.m.ctxs = [] ∧
      (s.sys.hub.pending = [] → ∀ a, t.byte a = s.byte a)) ∧
  ∀ s : State, s.sys.hub.phase = .running → s.sys.hub.ena = false → s.sys.hub.ready = true → s.sys.hub.again = true →
    s.m.launches = [] → ∃ t, exec .adminQueueStop s = .next t ∧ t.sys.hub.ena = true ∧ t.sys.hub.again = false ∧ t.sys.hub.parts = [] ∧
      t.m.ctxs = [] ∧ (∀ n, n ≠ 0 → t.sys.hub.cqs.get? n = none ∧ t.sys.hub.eqs.get? n = none) ∧
      t.sys.hub.ready = (lognOk s.sys.hub.admcq && lognOk s.sys.hub.admeq)

/-- R25-R27, R48, R66, R68, R69, R79, R153, R155, R160: a write of TAIL lets the hub consume the entries it covers, or stops the
queue where it covers more than the queue holds; a write of HEAD frees event entries; ADMCQ and ADMEQ take BASE and LOGN while ENA is 0;
RPLCTL takes its five bits; ENA written starts or stops the admin queues; the HDM range is set; training reports the host link; a host
read is answered with the bytes at their home and their poison, a host write reaches memory, a read of a freed range is answered with
poison and a write to one dropped; an access outside the HDM range faults. The model's own choices in it: log entries 1, 83, 105. -/
def Obligations.HostWrites : Prop :=
  (∀ (s : State) (n : Nat) (tail : Word) (q : CmdQueue), s.sys.hub.cqs.get? n = some q → q.stopped = false →
    s.sys.hub.ena = true →
    ∃ t, exec (.tailWrite n tail) s = .next t ∧ t.sys.hub.cqs.get? n =
        some (if (tail - q.head).toNat ≤ 2 ^ q.logn then { q with head := tail } else { q with stopped := true }) ∧
      t.sys.hub.pending.length = s.sys.hub.pending.length +
        if (tail - q.head).toNat ≤ 2 ^ q.logn then (tail - q.head).toNat else 0) ∧
  (∀ (s : State) (n : Nat) (head : Word) (q : EvQueue), s.sys.hub.eqs.get? n = some q →
    exec (.eventHeadWrite n head) s =
      .next ((s.updM fun m => m.placeWrite (.dev q.base) (natBytes 4 head.toNat)).flushQueue n) ∧
    (q.waiting = [] → (∀ cell ∈ s.m.waitedCells, ¬(cell < q.base + 4 ∧ q.base < cell + 16)) →
      ∃ t, exec (.eventHeadWrite n head) s = .next t ∧ t.sys = s.sys ∧ ∀ a, t.byte a =
        if q.base ≤ a ∧ a < q.base + 4 then (natBytes 4 head.toNat).getD (a - q.base) 0 else s.byte a)) ∧
  (∀ (s : State) (v : DWord), s.sys.hub.phase = .running →
    (exec (.registerWrite (.bar0 0x10) v) s = .next (if s.sys.hub.ena = true then s else
      s.updHub fun h => { h with admcq := v &&& 0x000FFFFFFFFFF00F })) ∧
    (exec (.registerWrite (.bar0 0x18) v) s = .next (if s.sys.hub.ena = true then s else
      s.updHub fun h => { h with admeq := v &&& 0x000FFFFFFFFFF00F })) ∧
    (v.getLsbD 0 = true → exec (.registerWrite (.bar0 0x20) v) s = exec .adminQueueStart s) ∧
    (v.getLsbD 0 = false → s.sys.hub.ena = true → exec (.registerWrite (.bar0 0x20) v) s = exec .adminQueueStop s) ∧
    (v.getLsbD 0 = false → s.sys.hub.ena = false → exec (.registerWrite (.bar0 0x20) v) s = .next s) ∧
    (∀ off, off ∉ [0x10, 0x18, 0x20] → exec (.registerWrite (.bar0 off) v) s = .next s) ∧
    (exec (.registerWrite .hdm v) s =
      .next (if v.toNat ≤ 512 then s.updHub fun h => { h with hdm := v.toNat } else s)) ∧
    (exec (.registerWrite (.mgmt 0 0x3FF 0) v) s =
      .next (s.updHub fun h => { h with estctl := loWord v &&& 0xFF00FFFF })) ∧
    (exec (.registerWrite (.mgmt 0 0x3FF 4) v) s = .next (s.updM fun m => { m with svctl := loWord v }))) ∧
  (∀ (s : State) (die : Nat) (v : Word), ∃ t, exec (.rplctlWrite die v) s = .next t ∧
    t.m.rplctlOf die = v &&& 0x1F ∧ (∀ d, d ≠ die → t.m.rplctlOf d = s.m.rplctlOf d) ∧ (∀ a, t.byte a = s.byte a) ∧
    (v.getLsbD 0 = false → ∀ r ∈ t.m.replicas, r.1 % 4 ≠ die)) ∧
  (∀ (s : State) (link : HostLink), s.sys.hub.phase = .running →
    ∃ t, exec (.hostLinkTrain link) s = .next t ∧ t.sys.hub.hostLink = some link ∧ t.sys.hub.phase = .running ∧
      t.sys.hub.capSeq = if s.sys.hub.hostLink = some link then s.sys.hub.capSeq else s.sys.hub.capSeq + 1) ∧
  (∀ (s : State) (line : Nat) (data : Option (List Byte)), regionOf (line * 128) = .host →
    (∀ bs, data = some bs → bs.length ≤ 128) →
    ∃ t, exec (.hostSnoop line data) s = .next t ∧ t.sys = s.sys ∧ (∀ k ∈ t.m.hostLines, k / 4 ≠ line) ∧
      ∀ a, t.byte a = if line * 128 ≤ a ∧ a < line * 128 + (data.getD []).length then (data.getD []).getD (a - line * 128) 0
        else s.byte a) ∧
  (∀ (s : State) (pa size : Nat) (bs : List Byte), pa + size ≤ s.sys.hub.hdm * 2 ^ 30 → bs.length = size →
    (s.sys.hub.memoryActive = false → ∀ data, exec (.hostHdmAccess pa size data) s = .next s) ∧
    (s.sys.hub.memoryActive = true → s.m.placeWaits false (.dev pa) = false →
      ∃ t, exec (.hostHdmAccess pa size none) s = .next t ∧ t.sys = s.sys ∧ (∀ a, t.byte a = s.byte a) ∧
        (s.m.isFreed pa = false → t.m.hostOut = s.m.hostOut ++
          [.data ((List.range size).map fun i => s.byte (pa + i)) (s.m.poisoned (.dev pa) size)]) ∧
        (s.m.isFreed pa = true → ∃ free, t.m.hostOut = s.m.hostOut ++ [.data free true])) ∧
    (s.sys.hub.memoryActive = true → s.m.isFreed pa = true → exec (.hostHdmAccess pa size (some bs)) s = .next s) ∧
    (s.sys.hub.memoryActive = true → s.m.isFreed pa = false → s.m.placeWaits true (.dev pa) = false →
      (∀ cell ∈ s.m.waitedCells, ¬(cell < pa + size ∧ pa < cell + 16)) →
      ∃ t, exec (.hostHdmAccess pa size (some bs)) s = .next t ∧ t.sys = s.sys ∧
        ∀ a, t.byte a = if pa ≤ a ∧ a < pa + size then bs.getD (a - pa) 0 else s.byte a)) ∧
  ∀ (s : State) (pa size : Nat) (data : Option (List Byte)), s.sys.hub.hdm * 2 ^ 30 < pa + size →
    exec (.hostHdmAccess pa size data) s = .fault .outsideHdm

/-! ## Errors, scores, leases -/

namespace Sys2Proof.Machine

/-- What R145 adds to a unit's score. -/
def scoreRise : ScoreEvent → Nat
  | .coreEcc => 16
  | .sliceEcc => 16
  | .channelRead => 8
  | .channelHourly => 256
  | .linkRetry => 1
  | .laneMoved => 1024
  | .shadowMismatch => 4096

end Sys2Proof.Machine

/-- R54-R57, R144, R145, R155: a corrected error raises its unit's score, an uncorrectable one by 16,384: one in a line of a slice
poisons that line, one in HBM the four lines of its block, one in the storage of a team that holds its core asks for its gang's kill,
one in storage no team holds condemns the unit. A scrub pass that is due or forced, on a stack that does not yield, counts its
corrected errors and poisons the blocks of the bad sectors; scrubbing yields above the threshold and resumes below it; each hour the
scores of the units that have not left fall by a sixteenth, and are written. That the stack's temperature comes with the demand report,
and the hour of its corrected errors is the hour since the last decay, are the model's choices (log entries 117, 118). The model's own
choices in it: log entries 78, 117, 118. -/
def Obligations.ErrorsAndScores : Prop :=
  (∀ (s : State) (u : UnitRef) (k : ScoreEvent), s.sys.hub.scoreStill u = false → k ≠ .channelRead →
    ∃ t, exec (.correctedError u k) s = .next t ∧ t.sys.hub.score u = min (s.sys.hub.score u + scoreRise k) 65535) ∧
  (∀ (s : State) (u : UnitRef), s.sys.hub.scoreStill u = false →
    let c := s.sys.hub.corrected.getD ((4 * u.die + u.unit / 32) * 64 + u.unit % 32) 0
    ∃ t, exec (.correctedError u .channelRead) s = .next t ∧
      t.sys.hub.score u = min (s.sys.hub.score u + 8 + if c = 63 then 256 else 0) 65535) ∧
  (∀ (s : State) (u : UnitRef) (pa : Nat), s.sys.hub.scoreStill u = false →
    (∃ t, exec (.uncorrectableError u (.block pa)) s = .next t ∧
      t.sys.hub.score u = min (s.sys.hub.score u + 16384) 65535 ∧
      ∀ l, l ∈ t.m.poison ↔ l / 4 = pa / 512 ∨ l ∈ s.m.poison) ∧
    ∃ t, exec (.uncorrectableError u (.line pa)) s = .next t ∧ t.sys.hub.score u = min (s.sys.hub.score u + 16384) 65535 ∧
      ∀ l, l ∈ t.m.poison ↔ (if u.kind = 2 then l = pa / 128 else l / 4 = pa / 512) ∨ l ∈ s.m.poison) ∧
  (∀ (s : State) (u : UnitRef) (tk off : Nat) (x : Team), s.m.team? tk = some x →
    (x.holds = true → (∃ t, exec (.uncorrectableError u (.localStore tk off)) s = .next t ∧
        ∃ k ∈ t.m.kills, k.launch = x.launch ∧ k.gang = x.gang) ∧
      ∃ t, exec (.uncorrectableError u (.coreStore off (some tk))) s = .next t ∧
        ∃ k ∈ t.m.kills, k.launch = x.launch ∧ k.gang = x.gang) ∧
    (x.holds = false →
      exec (.uncorrectableError u (.localStore tk off)) s = .next ((s.charge u 16384).condemn u) ∧
      exec (.uncorrectableError u (.coreStore off (some tk))) s = .next ((s.charge u 16384).condemn (coreUnit off)))) ∧
  (∀ (s : State) (u : UnitRef) (core : Nat),
    exec (.uncorrectableError u (.coreStore core none)) s = .next ((s.charge u 16384).condemn (coreUnit core))) ∧
  (∀ (s : State) (stack channel corrected : Nat) (bad : List Nat),
    let due := (s.sys.hub.scrb stack).getLsbD 0 = true ∧
      s.sys.hub.scrubAt.getD (stack * 64 + channel) 0 + s.sys.hub.scrubPeriod stack channel ≤ s.m.mtime
    let u : UnitRef := ⟨3, stack / 4, 32 * (stack % 4) + channel⟩
    (due ∨ stack ∈ s.sys.hub.forced → stack ∉ s.sys.hub.yielding →
      exec (.scrubPass stack channel corrected bad) s = .next
        (((bad.filter fun pa => regionOf pa = .hbm && stackOf pa = stack).foldl (fun s pa =>
          (s.charge u 16384).poisonBlock pa) (s.countCorrected u corrected)).updHub fun h => { h with
            scrubAt := h.scrubAt.norm (stack * 64 + channel) s.m.mtime 0
            tested := match h.scrubTest u with
              | some n => if stack ∈ s.sys.hub.forced then h.tested.put n ⟨false, bad ≠ [], corrected, 0, 0, true⟩ else h.tested
              | none => h.tested
            forced := if channel = 31 then h.forced.filter (· ≠ stack) else h.forced })) ∧
    (¬(due ∨ stack ∈ s.sys.hub.forced) ∨ stack ∈ s.sys.hub.yielding →
      exec (.scrubPass stack channel corrected bad) s = .next s)) ∧
  (∀ (s : State) (stack demand : Nat), ∃ t, exec (.scrubYield stack demand) s = .next t ∧
    ∀ k, k ∈ t.sys.hub.yielding ↔ if k = stack then s.sys.hub.yieldAt stack < demand ∨
      (s.sys.hub.yieldAt stack = demand ∧ k ∈ s.sys.hub.yielding) else k ∈ s.sys.hub.yielding) ∧
  (∀ (s : State) (stack demand : Nat), ∃ t, exec (.scrubYield stack demand) s = .next t ∧
    ∀ k, t.sys.hub.stackTemp.getD k 25 = if k = stack then s.subj.x else s.sys.hub.stackTemp.getD k 25) ∧
  (∀ s : State, ∃ t, exec .scrubForce s = .next t ∧
    ∀ k, k ∈ t.sys.hub.forced ↔ k = s.subj.x ∨ k ∈ s.sys.hub.forced) ∧
  ∀ s : State, s.sys.hub.lastHour + 3600000000000 ≤ s.m.mtime →
    ∃ t, exec .hourlyScoreDecay s = .next t ∧ t.sys.hub.corrected = [] ∧ t.sys.flash.stored.scores = t.sys.hub.scores ∧
      t.sys.hub.lastHour = s.sys.hub.lastHour + 3600000000000 ∧
      t.sys.hub.scores = (s.sys.hub.scores.map fun e =>
        (e.1, if s.sys.hub.scoreStill ⟨e.1 / 2 ^ 16, e.1 / 2 ^ 12 % 16, e.1 % 2 ^ 12⟩ = true then e.2
          else e.2 - e.2 / 16)).filter fun e => e.2 ≠ 0

/-- R146-R151, R160: a lease that may start drains its unit, which is then out of service; a drained unit is tested, or retires where
it has failed already, and a channel is evacuated onto its spare first; what a test found decides whether it ends in RETURNING, with a
quarter of the score, or RETIRING, and a read-only test found what its scrub pass counted; a returned unit is back in service, its
cores from the next window on; a retired one leaves a signed record in the log, and its number is unused where it has no spare. A spare
slice takes the retired one's number and merges back into its domain before it serves; an evacuated channel's record names the channel it
left, and the spare keeps its score; a channel without a spare waits for the pages of the range that goes and for the copy of its
stack's blocks, one channel of a stack at a time, and then the range is freed. The model's own choices in it: log entry 77. -/
def Obligations.LeasesRunTheirCourse : Prop :=
  (∀ (s : State) (l : Lease), s.sys.hub.leases.get? s.subj.x = some l → s.leaseMayStart s.subj.x l = true →
    ∃ t, exec .leaseStart s = .next t ∧ l.u ∈ t.sys.hub.outOfService ∧
      ∃ k, t.sys.hub.leases.get? s.subj.x = some k ∧ k.u = l.u ∧ k.st = .draining) ∧
  (∀ (s : State) (l : Lease), s.sys.hub.leases.get? s.subj.x = some l → l.st = .draining → s.drainedUnit l.u = true →
    (l.u.kind = 3 → s.findSpare l.u = none) →
    ∃ t, exec .leaseDrainDone s = .next t ∧
      ∃ k, t.sys.hub.leases.get? s.subj.x = some k ∧ k.u = l.u ∧ k.st = if l.fail = true then .retiring else .testing) ∧
  (∀ (s : State) (l : Lease) (p : Nat), s.sys.hub.leases.get? s.subj.x = some l → l.st = .draining → l.u.kind = 3 →
    s.findSpare l.u = some p → l.copying = true → s.m.copying (chanStack l.u) = false →
    ∃ t, exec .leaseDrainDone s = .next t ∧ t.m.physOf l.u = p ∧
      t.sys.hub.leases.get? s.subj.x = some { l with
        st := .testing, copying := false, entry := some (s.m.physOf l.u), score := s.sys.hub.score l.u }) ∧
  (∀ (s : State) (n : Nat) (r q : TestResult) (l : Lease), s.sys.hub.leases.get? n = some l → l.st = .testing →
    let only := l.u.kind = 3 ∧ l.entry = none
    let fail := if only then TestResult.fails q 3 true else TestResult.fails r l.u.kind false
    (only → s.sys.hub.tested.get? n = some q) →
    ∃ t, exec (.leaseTestDone n r) s = .next t ∧
      t.sys.hub.score l.u = (if fail = true ∨ (l.u.kind = 3 ∧ l.entry.isSome = true) then s.sys.hub.score l.u
        else s.sys.hub.score l.u / 4) ∧
      t.sys.hub.leases.get? n = some { l with st := if fail = true then .retiring else .returning, fail := fail }) ∧
  (∀ (r : TestResult) (kind : Nat), (kind = 3 → ((TestResult.fails r kind false = true ↔ r.uncorrectable = true ∨ 16 < r.corrected) ∧
      (TestResult.fails r kind true = true ↔ r.uncorrectable = true ∨ 64 < r.corrected))) ∧
    (kind = 4 ∨ kind = 5 → ∀ only, (TestResult.fails r kind only = true ↔ r.trained = false ∨ r.bits < r.bitErrors * 10 ^ 12)) ∧
    (kind = 0 ∨ kind = 1 ∨ kind = 2 → ∀ only, (TestResult.fails r kind only = true ↔ r.mismatch = true ∨ r.uncorrectable = true))) ∧
  (∀ (s : State) (l : Lease), s.sys.hub.leases.get? s.subj.x = some l → l.st = .returning →
    (l.u.kind = 2 → s.sys.hub.splitting.get? l.u.die = none ∧ (l.moving = true ∨ s.m.mergeEntry l = none)) →
    ∃ t, exec .leaseReturn s = .next t ∧ l.u ∉ t.sys.hub.outOfService ∧ (∀ c ∈ leaseCores l.u, t.sys.hub.takes c = false) ∧
      t.sys.flash.stored.scores = s.sys.hub.scores) ∧
  (∀ (s : State) (l : Lease), s.sys.hub.leases.get? s.subj.x = some l → l.st = .retiring → l.moving = false → l.u.kind ≠ 3 →
    (l.u.kind = 2 → s.sys.hub.splitting.get? l.u.die = none ∧ (s.findSpare l.u = none ∨ s.m.mergeEntry l = none)) →
    let r : Retirement := ⟨s.sys.flash.records.length + 1, l.u, s.m.physOf l.u, (s.findSpare l.u).getD 0xFFFF, l.reason,
      s.sys.hub.score l.u, s.m.mtime, []⟩
    ∃ t, exec .leaseRetire s = .next t ∧
      t.sys.flash.log = s.sys.flash.records ++ [{ r with sig := signObject s.sys.rom.seed r.body }] ∧
      ((s.findSpare l.u).isSome = true → l.u ∉ t.sys.hub.outOfService) ∧
      (s.findSpare l.u = none → l.u ∈ t.sys.hub.outOfService ∧ l.u ∈ t.sys.hub.retired)) ∧
  (∀ (s : State) (l : Lease) (p : Nat), s.sys.hub.leases.get? s.subj.x = some l → l.st = .retiring → l.u.kind = 2 →
    s.sys.hub.splitting.get? l.u.die = none →
    (l.moving = false → s.findSpare l.u = some p → (s.m.mergeEntry l).isSome = true →
      let r : Retirement := ⟨s.sys.flash.records.length + 1, l.u, s.m.physOf l.u, p, l.reason, s.sys.hub.score l.u, s.m.mtime, []⟩
      ∃ t, exec .leaseRetire s = .next t ∧ t.m.physOf l.u = p ∧ t.sys.hub.score l.u = 0 ∧
        t.sys.flash.log = s.sys.flash.records ++ [{ r with sig := signObject s.sys.rom.seed r.body }] ∧
        t.sys.hub.leases.get? s.subj.x = some { l with moving := true } ∧ (t.sys.hub.splitting.get? l.u.die).isSome = true) ∧
    (l.moving = true → ∃ t, exec .leaseRetire s = .next t ∧ l.u ∉ t.sys.hub.outOfService ∧ t.sys.flash.log = s.sys.flash.log)) ∧
  ∀ (s : State) (l : Lease), s.sys.hub.leases.get? s.subj.x = some l → l.st = .retiring → l.u.kind = 3 →
    s.sys.hub.stackMoves s.subj.x l.u = false →
    let range := s.m.shrinkBase (chanStack l.u)
    (∀ old, l.moving = false → l.entry = some old →
      let r : Retirement := ⟨s.sys.flash.records.length + 1, l.u, old, s.m.physOf l.u, l.reason, l.score, s.m.mtime, []⟩
      ∃ t, exec .leaseRetire s = .next t ∧ l.u ∉ t.sys.hub.outOfService ∧ t.sys.hub.score l.u = s.sys.hub.score l.u ∧
        t.sys.flash.log = s.sys.flash.records ++ [{ r with sig := signObject s.sys.rom.seed r.body }]) ∧
    (l.moving = false → l.entry = none →
      let r : Retirement := ⟨s.sys.flash.records.length + 1, l.u, s.m.physOf l.u, 0xFFFF, l.reason, s.sys.hub.score l.u, s.m.mtime, []⟩
      ∃ t, exec .leaseRetire s = .next t ∧ t.sys.flash.log = s.sys.flash.records ++ [{ r with sig := signObject s.sys.rom.seed r.body }] ∧
        t.sys.hub.leases.get? s.subj.x = some { l with moving := true, copying := false } ∧ t.m.freed = s.m.freed) ∧
    (l.moving = true →
      let waits : Prop := (∃ g ∈ s.m.migs, rangesMeet g.2.old g.2.size range channelBytes = true) ∨ s.m.copying (chanStack l.u) = true
      (waits → exec .leaseRetire s = .next s) ∧
      (¬waits → s.m.framesIn range channelBytes ≠ [] → exec .leaseRetire s = .next (s.startMoves (chanStack l.u) range)) ∧
      (¬waits → s.m.framesIn range channelBytes = [] → l.copying = false →
        exec .leaseRetire s = .next ((s.updM fun m => m.startCopy (chanStack l.u) range).updHub fun h =>
          { h with leases := h.leases.put s.subj.x { l with copying := true } })) ∧
      (¬waits → s.m.framesIn range channelBytes = [] → l.copying = true →
        ∃ t, exec .leaseRetire s = .next t ∧ t.m.freed = s.m.freed ++ [(range, channelBytes)] ∧ l.u ∈ t.sys.hub.retired ∧
          l.u ∈ t.sys.hub.outOfService))


/-! ## Peers, the fabric, page migration -/

namespace Sys2Proof.Machine

/-- No path waits on a future cell that n bytes from pa meet (R132). -/
def State.unwaited (s : State) (pa n : Nat) : Prop := ∀ cell ∈ s.m.waitedCells, ¬(cell < pa + n ∧ pa < cell + 16)

/-- A connected peer asks for n bytes of local HBM at pa, a page that has not moved, with nothing of any peer waiting (R31). -/
structure State.PeerAsks (s : State) (module pa n : Nat) : Prop where
  idle : s.m.PeersIdle
  up : s.m.conn module = .up
  stays : s.m.forwarded pa = pa
  first : s.m.inHbm pa = true
  last : s.m.inHbm (pa + n - 1) = true

/-- From s to t the bytes from pa on became bs, and no other byte of memory changed. -/
def State.bytesBecome (s t : State) (pa : Nat) (bs : List Byte) : Prop :=
  ∀ a, t.byte a = if pa ≤ a ∧ a < pa + bs.length then bs.getD (a - pa) 0 else s.byte a

end Sys2Proof.Machine

/-- R31-R33, R39, R45, R141-R143, R155, R161: connections follow their links, and one left without a link is DOWN; a peer's read,
write or atomic to local HBM is performed and answered, poison with it, and a write to a sealed page waits at its gate; replies, remote
spawns and remote resolutions arrive, and a resolution that overtakes the answer to its spawn waits for it; inbox descriptors are
delivered in order; a switched page has its bytes in the new frame, and a write held too long is refused with the later ones of its
sender; routers are gated and woken, and an NI releases what it has held in order; a replica ends. The model's own choices in it:
log entries 17, 31, 33, 80, 84, 104. -/
def Obligations.PeersFabricMigration : Prop :=
  (∀ s : State, s.running = true → s.subj.x < 8 → s.subj.y < 8 → s.subj.y ≠ s.m.device → s.sys.hub.lanesLost s.subj.x ≤ 4 →
    ∃ t, exec .peerLinkUp s = .next t ∧ t.m.conn s.subj.y = .up ∧ t.m.links.get? s.subj.x = some s.subj.y ∧
      ∀ p, p ≠ s.subj.y → t.m.conn p = if s.m.links.get? s.subj.x = some p ∧ (s.m.conn p = .up ∨ s.m.conn p = .recovering) ∧
        (∀ l ∈ t.m.links, l.2 ≠ p) then .down else s.m.conn p) ∧
  (∀ s : State, s.running = true → s.m.conn s.subj.x = .up →
    ∃ t, exec .peerLinkRecovering s = .next t ∧ t.m.conn s.subj.x = .recovering ∧
      ∀ p, p ≠ s.subj.x → t.m.conn p = s.m.conn p) ∧
  (∀ s : State, s.running = true → s.m.conn s.subj.x ≠ .absent → s.m.conn s.subj.x ≠ .down →
    ∃ t, exec .peerLinkDown s = .next t ∧ t.m.conn s.subj.x = .down ∧ (∀ p, p ≠ s.subj.x → t.m.conn p = s.m.conn p) ∧
      (∀ l ∈ t.m.links, l.2 ≠ s.subj.x) ∧
      (s.m.migs = [] → (∀ d ∈ s.m.domains, d.2.st ≠ .switch) → s.m.late = [] → ∀ e ∈ t.m.remoteCells, e.module ≠ s.subj.x) ∧
      ∀ k ∈ t.m.cores, ∀ w ∈ k.2.stores, w.place.peer? ≠ some s.subj.x) ∧
  (∀ (s : State) (module pa size : Nat), s.PeerAsks module pa size → s.m.placeWaits false (.dev pa) = false →
    ∃ t, exec (.peerMemoryRequest module pa (.read size)) s = .next t ∧ t.sys = s.sys ∧ (∀ a, t.byte a = s.byte a) ∧
      t.m.peerIn = [] ∧ t.m.peerOut = s.m.peerOut ++
        [.data module ((List.range size).map fun i => s.byte (pa + i)) (s.m.poisoned (.dev pa) size)]) ∧
  (∀ (s : State) (module pa : Nat) (bs : List Byte) (poison : Bool), s.PeerAsks module pa bs.length →
    s.m.atGate [(.dev pa, bs.length)] = false → s.m.placeWaits true (.dev pa) = false → s.unwaited pa bs.length →
    ∃ t, exec (.peerMemoryRequest module pa (.write bs poison)) s = .next t ∧ s.bytesBecome t pa bs ∧ t.m.peerIn = [] ∧
      (poison = true → ∀ l ∈ linesOf pa bs.length, l ∈ t.m.poison) ∧ t.m.peerOut = s.m.peerOut ++ [.data module [] false]) ∧
  (∀ (s : State) (module pa : Nat) (bs : List Byte) (poison : Bool), s.PeerAsks module pa bs.length →
    s.m.atGate [(.dev pa, bs.length)] = true →
    ∃ t, exec (.peerMemoryRequest module pa (.write bs poison)) s = .next t ∧ t.sys = s.sys ∧ (∀ a, t.byte a = s.byte a) ∧
      t.m.peerIn = [⟨s.m.serial, module, pa, .write bs poison, s.m.mtime⟩] ∧ t.m.peerOut = s.m.peerOut ∧
      ∀ n u, s.m.migs.get? n = some u → (Place.dev pa).meets bs.length (.dev u.old) u.size = true →
        ∃ v, t.m.migs.get? n = some v ∧ .peer s.m.serial ∈ v.gate) ∧
  (∀ (s : State) (module pa size : Nat) (fn : AtomFn) (b c : DWord), s.PeerAsks module pa size →
    s.m.atGate [(.dev pa, size)] = false → s.m.placeWaits true (.dev pa) = false → s.unwaited pa size →
    let old := (List.range size).map fun i => s.byte (pa + i)
    ∃ t, exec (.peerMemoryRequest module pa (.atom fn size b c)) s = .next t ∧
      t.m.peerOut = s.m.peerOut ++ [.data module old (s.m.poisoned (.dev pa) size)] ∧
      match (AtomFn.apply fn size (bytesNat old) b.toNat c.toNat).1 with
      | some v => s.bytesBecome t pa (natBytes size v)
      | none => ∀ a, t.byte a = s.byte a) ∧
  (∀ (s : State) (op : Nat) (data : PeerData) (o : Op), s.m.ops.get? op = some o → o.reply = none →
    ∃ t, exec (.peerReply op data) s = .next t ∧
      t.m.ops.get? op = some { o with reply := some data.bytes, replyBad := data.poison } ∧
      (∀ n, n ≠ op → t.m.ops.get? n = s.m.ops.get? n) ∧ ∀ a, t.byte a = s.byte a) ∧
  (∀ (s : State) (module handle : Nat) (desc : List Byte) (l : Launch),
    let d : Desc := { descOf desc with remote := true, origin := module }
    let n := handle % 2 ^ 16
    s.m.launches.get? n = some l → l.hasInbox = true → l.inboxGen = handle / 2 ^ 32 % 2 ^ 16 →
    (l.scope d.scope).st ≠ .free →
    ∃ t, exec (.peerTask module handle desc) s = .next t ∧
      t.m.peerOut = s.m.peerOut ++ [.taskReply module (if 256 ≤ l.inbox.length then 1 else 0)] ∧
      t.m.launches.get? n = some (if 256 ≤ l.inbox.length then l else
        { l.scopeInc d.scope with inbox := l.inbox ++ [(d, module)] })) ∧
  (∀ (s : State) (module handle : Nat) (desc : List Byte),
    (∀ l, s.m.launches.get? (handle % 2 ^ 16) = some l → l.hasInbox = false ∨ l.inboxGen ≠ handle / 2 ^ 32 % 2 ^ 16) →
    exec (.peerTask module handle desc) s = .next (s.updM fun m =>
      { m with peerOut := m.peerOut ++ [.taskReply module 2] })) ∧
  (∀ (s : State) (module va pa : Nat) (faulted : Bool) (value : DWord) (m : Mach),
    let r : RemoteCell := ⟨s.subj.x, va, module⟩
    r ∈ s.m.remoteCells → s.m.cellFor s.subj.x va = (some pa, m) → m.placeWaits true (.dev pa) = false → m.cellState pa = 0 →
    ∃ t, exec (.peerFuture module va faulted value) s = .next t ∧ r ∉ t.m.remoteCells ∧
      t.m.cellState pa = (if faulted = true then 2 else 1) ∧ t.m.cellValue pa = value ∧
      ∀ a, a < pa ∨ pa + 16 ≤ a ∨ a = pa + 9 → t.byte a = Memory.read m.mem a) ∧
  (∀ (s : State) (module va : Nat) (faulted : Bool) (value : DWord),
    let c : CellOp := ⟨s.subj.x, va, .answer module faulted value⟩
    ⟨s.subj.x, va, module⟩ ∉ s.m.remoteCells → s.m.spawnOut c module = true →
    ∃ t, exec (.peerFuture module va faulted value) s = .next t ∧ t.m.late.get? s.m.serial = some c ∧
      t.m.remoteCells = s.m.remoteCells ∧ ∀ a, t.byte a = s.byte a) ∧
  (∀ (s : State) (l : Launch) (d : Desc × Nat) (ds : List (Desc × Nat)) (tk : Nat), s.m.launches.get? s.subj.x = some l →
    l.inbox = d :: ds → s.inboxTeam s.subj.x l = some tk →
    ∃ t, exec .inboxDeliver s = .next t ∧ t.m.tasks.get? s.m.serial = some (Task.queued tk d.1 s.m.serial) ∧
      (t.m.team? tk).map (·.deque) = (s.m.team? tk).map (fun x => x.deque ++ [s.m.serial]) ∧
      t.m.launches.get? s.subj.x = some { l with inbox := ds, inboxNext := (tk % 256 + 1) % (l.gangs * l.cores) } ∧
      ∀ a, t.byte a = s.byte a) ∧
  (∀ (s : State) (u : Migration), s.m.migs.get? s.subj.x = some u → u.pages = [] → u.gate = [] → s.m.PeersIdle →
    ∃ t, exec .migrationSwitch s = .next t ∧ ∀ a, t.byte a = s.byte a) ∧
  (∀ (s : State) (u : Migration), s.m.migs.get? s.subj.x = some u → u.pages ≠ [] → u.gate = [] → s.m.PeersIdle →
    Memory.wf s.m.mem = true → u.old + u.size ≤ u.new ∨ u.new + u.size ≤ u.old →
    let r := (s.m.remap u.old u.new u.size u.pages).mem
    ∃ t, exec .migrationSwitch s = .next t ∧ t.m.migs.get? s.subj.x = none ∧
      ∀ a, t.byte a = if u.new ≤ a ∧ a < u.new + u.size then Memory.read r (u.old + (a - u.new))
        else if u.old ≤ a ∧ a < u.old + u.size then 0 else Memory.read r a) ∧
  (∀ (s : State) (u : Migration) (w : PeerIn), s.m.migs.get? s.subj.x = some u →
    s.m.peerIn.find? (fun r => r.module = s.subj.y && u.gate.contains (.peer r.id) && r.at_ + s.m.holdNs < s.m.mtime) = some w →
    let back (x : PeerIn) : Bool := x.module = s.subj.y && w.id ≤ x.id
    ∃ t, exec .peerHoldExpiry s = .next t ∧ t.m.peerIn = s.m.peerIn.filter (fun x => !back x) ∧
      t.m.peerOut = s.m.peerOut ++ (s.m.peerIn.filter back).map (fun x => .refuse x.module x.pa) ∧
      (∀ e ∈ t.m.migs, ∀ x ∈ s.m.peerIn, back x = true → .peer x.id ∉ e.2.gate) ∧ ∀ a, t.byte a = s.byte a) ∧
  (∀ s : State, ∃ t, exec .wake s = .next t ∧
    (∀ g, g ∈ t.m.gated ↔ g ∈ s.m.gated ∧ g ≠ routerAt (68 * s.subj.x + s.subj.y) (decide (s.subj.z ≠ 0))) ∧
      ∀ a, t.byte a = s.byte a) ∧
  (∀ s : State, s.subj.x < 4 → s.subj.y < 68 → s.m.mayGate s.subj.x s.subj.y = true →
    ∃ t, exec .powerGate s = .next t ∧
      (∀ g, g ∈ t.m.gated ↔ g ∈ s.m.gated ∨ ∃ reply, g = routerAt (68 * s.subj.x + s.subj.y) reply) ∧
      ∀ a, t.byte a = s.byte a) ∧
  (∀ s : State, ∃ t, exec .wakeRelease s = .next t ∧ t.m.heldMsgs.Sublist s.m.heldMsgs ∧
    (∀ h ∈ s.m.heldMsgs, h.n ≠ s.subj.x ∨ (∃ g ∈ h.shut, g ∈ s.m.gated) → h ∈ t.m.heldMsgs) ∧
    (∀ pre h post, t.m.heldMsgs = pre ++ h :: post → h.n = s.subj.x →
      (∃ g ∈ h.shut, g ∈ s.m.gated) ∨ ∃ k ∈ pre, h.follows k = true) ∧ ∀ a, t.byte a = s.byte a) ∧
  ∀ s : State, ∃ t, exec .replicaEvict s = .next t ∧ t.m.replicas.get? (s.subj.x * 4 + s.subj.y) = none ∧
    (∀ k, k ≠ s.subj.x * 4 + s.subj.y → t.m.replicas.get? k = s.m.replicas.get? k) ∧ ∀ a, t.byte a = s.byte a

/-! ## Residency, gangs, staging, tasks -/

/-- R91, R96, R97, R98, R102, R106, R108, R113, R150, R157-R159: a window boundary takes the new weights and quotas, starts the
counts of issue and eligible cycles anew and lets cores that came back from a lease take teams; a drained
or overdue team is saved; a save or a restore completes; a gang kill advances KILLED, keeps the first record and stops the
gang's teams; a relaunch zeroes their local stores and reloads XSTEAL and TRAPVEC; a launch that is over is gone.
The model's own choices in it: log entries 63, 65, 70, 87, 120. -/
def Obligations.ResidencyAndGangs : Prop :=
  (∀ s : State, s.sys.hub.window < s.m.clock / 2 ^ 20 →
    ∃ t, exec .accountingWindow s = .next t ∧ t.sys.hub.window = s.m.clock / 2 ^ 20 ∧ t.sys.hub.newQuotas = [] ∧
      (∀ p q, s.sys.hub.parts.get? p = some q → t.sys.hub.parts.get? p = some (s.sys.hub.newQuotas.getD p q)) ∧
      t.sys.hub.resting = [] ∧ ∀ c, (t.m.core c).used = [] ∧ (t.m.core c).elig = []) ∧
  (∀ (s : State) (x : Team), s.m.team? s.subj.x = some x → x.res = .draining → s.m.framesHeld s.subj.x = false →
    ∃ t, exec .drainDone s = .next t ∧ (∃ y, t.m.team? s.subj.x = some y ∧ y.res = .saving) ∧ ∀ a, t.byte a = s.byte a) ∧
  (∀ (s : State) (x : Team), s.m.team? s.subj.x = some x → x.res = .draining → x.drainEnd ≤ s.m.clock →
    ∃ t, exec .drainLimit s = .next t ∧ (∃ y, t.m.team? s.subj.x = some y ∧ y.res = .saving) ∧ ∀ a, t.byte a = s.byte a) ∧
  (∀ (s : State) (x : Team), s.m.team? s.subj.x = some x → x.res = .saving → s.m.saveReady s.subj.x = true →
    s.m.dying s.subj.x = false → s.m.savedElsewhere s.subj.x = false →
    exec .saveComplete s = .next ((s.updM fun m => m.saveTeam s.subj.x).admitChosen x.core)) ∧
  (∀ (s : State) (x : Team), s.m.team? s.subj.x = some x → x.res = .restoring →
    ∃ t, exec .restoreComplete s = .next t ∧ (∃ y, t.m.team? s.subj.x = some y ∧ y.res = .resident) ∧
      (t.m.core x.core).l1d = []) ∧
  (∀ (s : State) (l : Launch) (k : Kill) (tk : Nat) (x : Team), s.m.launches.get? s.subj.x = some l →
    s.m.kills.find? (fun k => k.launch = s.subj.x && k.gang = s.subj.y) = some k →
    s.m.team? tk = some x → x.launch = s.subj.x → x.gang = s.subj.y → x.res ≠ .ended →
    ∃ t, exec .gangKill s = .next t ∧
      (∃ y, t.m.team? tk = some y ∧ y.res = if l.restart = true then x.res.afterStop else .ended) ∧
      ∃ y, t.m.launches.get? s.subj.x = some y ∧ y.killed = l.killed + 1 ∧ y.first = l.first.or (some k.frec)) ∧
  (∀ (s : State) (l : Launch), s.m.launches.get? s.subj.x = some l → s.subj.y ∈ l.relaunching →
    (s.m.gangTeams s.subj.x s.subj.y).any s.m.lsBusy = false →
    ∃ t, exec .gangRelaunch s = .next t ∧
      t.m.launches.get? s.subj.x = some { l with
        relaunching := l.relaunching.filter (· ≠ s.subj.y), relaunched := l.relaunched + 1 } ∧
      (∀ tk x, s.m.team? tk = some x → x.launch = s.subj.x → x.gang = s.subj.y →
        ∃ y, t.m.team? tk = some y ∧ y.ls = [] ∧ y.lsPoison = [] ∧ y.xsteal = l.xsteal ∧ y.trapvec = l.trapvec) ∧
      ∀ a, t.byte a = s.byte a) ∧
  ∀ s : State, s.m.launchOver s.subj.x = true →
    ∃ t, exec .launchCompletion s = .next t ∧ t.m.launches.get? s.subj.x = none ∧
      ∀ e ∈ t.m.teams, e.2.launch ≠ s.subj.x

/-- R103, R111, R120, R124, R126-R128, R130: the staging engine starts the first QUEUED task that fits; a task whose declaration
is staged is READY; a buffer comes back for a RESUMABLE task with the bytes, cells and poison its image holds; an idle warp takes a
RESUMABLE task, in a DRAINING team too, else starts the READY one nearest the hot end in a fresh frame with its entry registers;
firmware loads a slot at its first use. The model's own choices in it: log entries 42, 47, 101. -/
def Obligations.StagingAndTaskStart : Prop :=
  (∀ (s : State) (tm : Team) (l : Launch) (k u : Nat) (rest : List Nat) (x : Task) (e : TtEntry) (m : Mach),
    let tk := s.subj.x
    s.m.team? tk = some tm → s.m.launchOf tk = some l → tm.runs = true → s.m.dying tk = false →
    s.m.stagingOn tm.core < 8 → s.m.stageOpsOn tm.core = false → s.m.stagingOrder l tm.deque = k :: rest →
    s.m.tasks.get? k = some x → s.m.readTte l x.desc.typ = (.ok e, m) →
    (if e.lsdem = 0 then some 0 else firstFit (s.m.heldUnits tk) (s.m.poolUnits tk).1 (s.m.poolUnits tk).2 e.lsdem) = some u →
    ∃ t, exec .stagingStart s = .next t ∧ t.m.tasks.get? k = some { x with
      tte := some e, buf := if e.lsdem = 0 then none else some (u * 256, e.lsdem * 256)
      st := if e.noper = 0 then .ready else .staging }) ∧
  (∀ (s : State) (x : Task) (tm : Team) (l : Launch) (e : TtEntry) (o : Oper) (line : List Byte) (bad b : Bool)
    (m m' n : Mach) (rows : List (List Byte)),
    let k := s.subj.x
    s.m.tasks.get? k = some x → x.st = .staging → s.m.team? x.team = some tm → x.tte = some e → e.opers = [o] → x.opers = 0 →
    tm.res ≠ .ended → s.m.dying x.team = false → s.m.launches.get? tm.launch = some l →
    s.m.closureLine k x tm.core l.asid = (.ok (line, bad), m) → m.askRows k x tm.core l.asid line [(0, o)] = (true, m') →
    let buf := x.buf.getD (0, 0)
    let p := planOf line o x.desc.x x.desc.y x.desc.z buf.1
    planOk p o buf.2 = true → m'.stageRead k 0 tm.core tm.launch x.team l.asid p = (.done rows b, n) →
    ∃ t, exec .stagingComplete s = .next t ∧
      t.m.tasks.get? k = some { x with st := .ready, opers := 1, staged := x.staged + p.rows * p.rowlen }) ∧
  (∀ (s : State) (tm : Team) (l : Launch) (k off : Nat) (x : Task) (buf : Nat × Nat),
    let tk := s.subj.x
    let ts := s.m.tasksOf tk
    let waiting := ts.filter fun e => e.2.st = .resumable
    s.m.team? tk = some tm → s.m.launchOf tk = some l → tm.runs = true → (∃ w ∈ s.m.warpsOf tk, w.2.st = .idle) →
    (∀ e ∈ ts, e.2.st ≠ .ready ∧ e.2.st ≠ .staging) → (∀ e ∈ waiting, e.2.bufImage ≠ none) →
    s.m.stageOpsOn tm.core = false → earliest waiting = some (k, x) → s.m.tasks.get? k = some x →
    x.buf = some buf → x.bufImage = some off → s.m.rangeFree tk buf = true →
    ∃ t, exec .lsShortage s = .next t ∧ t.m.tasks.get? k = some { x with bufImage := none } ∧ (∀ a, t.byte a = s.byte a) ∧
      ∀ i, l.images.find? (fun i => i.off = off) = some i →
        s.m.imageIntact l.asid (l.spillBase.toNat + off) i.base (i.size / 65536 + 2) i.size = true →
        (∀ j a, t.lsByte j a =
          if j = tk ∧ buf.1 ≤ a ∧ a < buf.1 + i.bytes.length then i.bytes.getD (a - buf.1) 0 else s.lsByte j a) ∧
        ∃ y, t.m.team? tk = some y ∧
          (∀ g, inBuffer buf.1 i.bytes.length 16 g = true → (g ∈ y.spoilt ↔ g ∈ i.spoilt)) ∧
          ∀ g, inBuffer buf.1 i.bytes.length 128 g = true → (g ∈ y.lsPoison ↔ g ∈ i.poison)) ∧
  (∀ (s : State) (tm : Team) (y : Warp) (k : Nat) (x : Task),
    let tk := s.subj.x
    s.m.team? tk = some tm → s.m.warps.get? (warpKey tk s.subj.y) = some y → y.st = .idle → tm.runs = true →
    s.m.dying tk = false →
    earliest ((s.m.tasksOf tk).filter fun e => e.2.st = .resumable && e.2.bufImage.isNone) = some (k, x) →
    s.m.tasks.get? k = some x → (∀ p ∈ x.paths, s.m.spilledNeed p.frame = none) → x.paths.any Path.selectable = true →
    ∃ t, exec .taskStart s = .next t ∧ t.m.tasks.get? k = some { x with st := .running s.subj.y } ∧
      t.m.warps.get? (warpKey tk s.subj.y) = some { y with st := .active, task := some k, sleepUntil := 0 } ∧ ∀ a, t.byte a = s.byte a) ∧
  (∀ (s : State) (tm : Team) (l : Launch) (y : Warp) (k : Nat) (x : Task) (e : TtEntry) (h : Header),
    let tk := s.subj.x
    s.m.team? tk = some tm → s.m.launchOf tk = some l → s.m.warps.get? (warpKey tk s.subj.y) = some y → y.st = .idle →
    tm.res = .resident → tm.kept = [] → s.m.dying tk = false →
    earliest ((s.m.tasksOf tk).filter fun e => e.2.st = .resumable && e.2.bufImage.isNone) = none →
    tm.deque.find? (fun n => (s.m.tasks.get? n).any fun z => z.st = .ready) = some k → s.m.tasks.get? k = some x →
    x.tte = some e → s.m.fits tk (e.frame + 1) = true → s.m.headerAt tm.core l.asid e.entry.toNat x.priv = .ok h →
    h.fn = true → h.frame = e.frame → h.narg = 8 → h.nres ≤ 8 →
    ∃ t, exec .taskStart s = .next t ∧ t.m.tasks.get? k = some { x with
        st := .running s.subj.y, paths := [atClause 0xFFFFFFFF e.entry s.m.serial], prio := e.prio, fpstat := 0, flags := []
        demote := 0, latch := [], trail := [], diverged := false, swapFail := [], lost := 0, rel := 0, watch := 0
        startClock := s.m.clock } ∧
      (t.m.team? tk).map (·.deque) = some (tm.deque.filter (· ≠ k)) ∧ (∀ a, t.byte a = s.byte a) ∧
      ∀ r n, n < 32 → t.reg s.m.serial r n = x.entryRegs.getD r 0) ∧
  ∀ (s : State) (tm : Team) (l : Launch) (w p : Nat),
    let tk := s.subj.x
    let k := s.subj.y
    s.m.team? tk = some tm → s.m.launchOf tk = some l → tm.accWanted.find? (fun e => e.1 = k) = some (k, w) →
    tm.slotMap.get? k = some p → tm.runs = true → s.m.dying tk = false → ((s.m.core tm.core).ownerOf p).v = false →
    k ∉ tm.savedAcc →
    ∃ t, exec .accFirstuse s = .next t ∧ (t.m.core tm.core).ownerOf p = tm.owns k ∧
      (∀ row col, row < 32 → col < 32 → (t.m.core tm.core).elem p row col = 0) ∧
      (∀ q row col, q ≠ p → row < 32 → col < 32 → (t.m.core tm.core).elem q row col = (s.m.core tm.core).elem q row col) ∧
      ∀ a, t.byte a = s.byte a

/-- R132, R138-R140, R163, R164, R169, R179, R268, R269: an eligible path with the lowest PC is selected; the oldest frame
request is granted once it fits, else a victim is spilled; a resolved cell wakes its waiters with the value; a wait beyond its
limit ends; a thief asks a nearest victim, which gives its task at the cold end, across dies only one with no more bytes copied
than the thief allows, or refuses; what it gives arrives once the thief's deque has room; a round without success backs off.
The model's own choices in it: log entries 1, 20, 37, 65, 68, 113. -/
def Obligations.PathsWaitsStealing : Prop :=
  (∀ (s : State) (k : Nat) (p : Path), s.m.mayIssue s.subj.x s.subj.y = true →
    (s.m.warps.get? (warpKey s.subj.x s.subj.y)).bind (·.task) = some k → (s.m.tasks.get? k).bind (·.run) = some p →
    p.entered = true →
    exec .pathSelection s = .next (s.updM fun m => { m with focus := some (s.subj.x, s.subj.y) })) ∧
  (∀ (s : State) (k : Nat) (x : Task), s.m.mayIssue s.subj.x s.subj.y = true →
    (s.m.warps.get? (warpKey s.subj.x s.subj.y)).bind (·.task) = some k → s.m.tasks.get? k = some x → x.run = none →
    exec .pathSelection s = .next (s.updM fun m => (((({ m with focus := some (s.subj.x, s.subj.y) } : Mach).landTask
      s.subj.x k).settle s.subj.x s.subj.y).updTask k Task.select).enter s.subj.x s.subj.y k)) ∧
  (∀ (x : Task) (p : Path), x.demote = 0 → (∀ q ∈ x.paths, q.lanes ≠ 0) → p ∈ x.paths → p.st = .eligible →
    ∃ r, x.select.run = some r ∧ r.st = .eligible ∧ r.pc.toNat ≤ p.pc.toNat ∧
      ∃ q ∈ x.paths, q.st = .eligible ∧ q.pc = r.pc ∧ q.frame = r.frame ∧ q.lanes &&& ~~~r.lanes = 0) ∧
  (∀ (s : State) (tm : Team) (r : Request), s.m.oldestRequest s.subj.x = some r → s.m.team? s.subj.x = some tm →
    tm.runs = true → s.m.dying s.subj.x = false →
    s.m.granulesUsed s.subj.x + r.granules ≤ s.m.granulesCharge s.subj.x →
    exec .frameGrant s = .next (s.updM fun m => m.grant s.subj.x r)) ∧
  (∀ (s : State) (tm : Team) (r : Request), s.m.oldestRequest s.subj.x = some r → s.m.team? s.subj.x = some tm →
    tm.runs = true → s.m.dying s.subj.x = false → s.m.starved s.subj.x r = true →
    (s.m.victim s.subj.x r = none → exec .frameStarved s = .next (s.updM fun m => m.spillFull s.subj.x r 1)) ∧
    ∀ (frs : List Nat) (m : Mach), s.m.victim s.subj.x r = some frs →
      (s.m.ops.any fun o => frs.contains o.2.frame && o.2.kind.writesRegs && !o.2.dead) = false →
      s.m.spillFrames s.subj.x frs = (true, m) → exec .frameStarved s = .next { s with m := m }) ∧
  (∀ (s : State) (k : Nat) (x : Task) (tm : Team) (p : Path) (va : DWord) (d : Nat) (act : Lanes) (f : Frame),
    let cell := s.subj.x
    s.m.tasks.get? k = some x → x.st = .parked → x.paths = [p] → p.st = .waiting (.join cell va true d act) →
    s.m.team? x.team = some tm → tm.res ≠ .ended → s.m.frames.get? p.frame = some f → (k, x) ∈ s.m.tasks →
    (∀ e ∈ s.m.tasks, (∃ q ∈ e.2.paths, ∃ va tr d act, q.st = .waiting (.join cell va tr d act)) → e = (k, x)) →
    s.m.placeWaits true (.dev cell) = false → s.m.cellState cell = 1 →
    ∃ t, exec .joinWake s = .next t ∧ (∃ y, t.m.tasks.get? k = some y ∧ y.st = .resumable) ∧
      (∀ a, t.byte a = s.byte a) ∧ ∀ r n, n < 32 → t.reg p.frame r n =
        if act.getLsbD n = true ∧ r = d then loWord (s.m.cellValue cell)
        else if act.getLsbD n = true ∧ r = d + 1 then hiWord (s.m.cellValue cell) else s.reg p.frame r n) ∧
  (∀ (s : State) (x : Task) (tm : Team), s.m.tasks.get? s.subj.x = some x → s.m.team? x.team = some tm → tm.runs = true →
    s.m.dying x.team = false → s.m.allWait s.subj.x x = true → s.m.svctl.toNat % 2 ^ 12 ≠ 0 →
    s.m.svctl.toNat % 2 ^ 12 * 16000000 < x.watch →
    exec .watchdog s = .next (s.updM fun m => m.endWait s.subj.x x .watchdog 0 x.lowestPath)) ∧
  (∀ (s : State) (o : Op), s.m.ops.get? s.subj.x = some o → s.m.rcap < o.waitNs → s.m.awaitsRecovering o = true →
    exec .recoveryCapExpiry s = .next (s.updM fun m => m.loseOp (fun p => m.conn p = .recovering) s.subj.x o)) ∧
  (∀ (s : State) (x : Team) (n : Nat), s.m.team? s.subj.x = some x → s.m.mayAsk s.subj.x x = true →
    s.coreOut x.core = false → (s.subj.y, n) ∈ s.m.victimsLeft x → (∀ e ∈ s.m.victimsLeft x, n ≤ e.2) →
    exec .stealRequest s = .next (s.updM fun m => m.updTeam s.subj.x fun t =>
      { t with steal := { t.steal with victim := some s.subj.y, reply := none } })) ∧
  (∀ (s : State) (x y : Team) (v n : Nat) (k : Task), s.m.team? s.subj.x = some x → x.steal.victim = some v →
    x.steal.reply = none → s.m.team? v = some y → y.runs = true → s.m.dying v = false → s.coreOut y.core = false →
    coreDie x.core = coreDie y.core → y.deque.reverse.find? (fun n => (s.m.tasks.get? n).any fun z => !z.desc.loc) = some n →
    s.m.tasks.get? n = some k → y.kept = [] →
    ∃ t, exec .stealRequestReceive s = .next t ∧
      t.m.tasks.get? n = some { k with st := .inTransit, buf := none, tte := none, staged := 0, opers := 0 } ∧
      (t.m.team? v).map (·.deque) = some (y.deque.filter (· ≠ n)) ∧
      (t.m.team? s.subj.x).map (·.steal) = some { x.steal with reply := some (some n) } ∧ ∀ a, t.byte a = s.byte a) ∧
  (∀ (s : State) (x y : Team) (v n : Nat) (k : Task), s.m.team? s.subj.x = some x → x.steal.victim = some v →
    x.steal.reply = none → s.m.team? v = some y → y.runs = true → s.m.dying v = false → s.coreOut y.core = false →
    coreDie x.core ≠ coreDie y.core → y.deque.reverse.find? (fun n => (s.m.tasks.get? n).any fun z => !z.desc.loc) = some n →
    s.m.tasks.get? n = some k → y.kept = [] →
    let copied := (s.m.stagedBytes k).1
    (k.staged ≤ copied ∧ copied ≤ max k.staged ((k.buf.map (·.2)).getD 0) ∧ (k.st ≠ .staging → copied = k.staged)) ∧
    ∃ t, exec .stealRequestReceive s = .next t ∧ (∀ a, t.byte a = s.byte a) ∧
      if x.xsteal.toNat % 2 ^ 16 * 256 < copied then
        t.m.tasks = s.m.tasks ∧ (t.m.team? v).map (·.deque) = some y.deque ∧
          (t.m.team? s.subj.x).map (·.steal) = some { x.steal with reply := some none }
      else
        t.m.tasks.get? n = some { k with st := .inTransit, buf := none, tte := none, staged := 0, opers := 0 } ∧
          (t.m.team? v).map (·.deque) = some (y.deque.filter (· ≠ n)) ∧
          (t.m.team? s.subj.x).map (·.steal) = some { x.steal with reply := some (some n) }) ∧
  (∀ (s : State) (x : Team) (v : Nat), s.m.team? s.subj.x = some x → x.steal.victim = some v → x.steal.reply = none →
    (∀ y, s.m.team? v = some y → y.runs = false ∨ s.coreOut y.core = true ∨
      ∀ n ∈ y.deque, ∀ k, s.m.tasks.get? n = some k → k.desc.loc = true) →
    exec .stealRequestReceive s = .next (s.updM fun m => m.updTeam s.subj.x fun t =>
      { t with steal := { t.steal with reply := some none } })) ∧
  (∀ (s : State) (x : Team) (v n : Nat) (k : Task), s.m.team? s.subj.x = some x → x.steal.victim = some v →
    let cap := ((s.m.launches.get? x.launch).map (·.dequeCap)).getD 0
    (x.steal.reply = some (some n) → cap ≤ x.slotsUsed → exec .stealReply s = .next s) ∧
    (x.steal.reply = some (some n) → x.slotsUsed < cap → s.m.tasks.get? n = some k →
      ∃ t, exec .stealReply s = .next t ∧
        t.m.tasks.get? s.m.serial = some { k with
          team := s.subj.x
          st := .queued
          entry := if ((s.m.team? k.team).any fun y => y.gang = x.gang) = true then k.entry else s.m.serial } ∧
        (t.m.team? s.subj.x).map (fun y => (y.deque, y.steal)) =
          some (s.m.serial :: x.deque, ⟨none, none, [], 0, false⟩)) ∧
    (x.steal.reply = some none → exec .stealReply s = .next (s.updM fun m => m.updTeam s.subj.x fun t =>
      { t with steal := { t.steal with victim := none, reply := none, tried := v :: t.steal.tried } }))) ∧
  (∀ (s : State) (x : Team), s.m.team? s.subj.x = some x → x.steal.victim = none → x.steal.tried ≠ [] →
    s.m.victimsLeft x = [] →
    ∃ t, exec .stealBackoff s = .next t ∧ t.m.team? s.subj.x = some { x with
      steal := ⟨none, none, [], s.m.clock + 256, x.steal.crossDie⟩ } ∧ ∀ a, t.byte a = s.byte a) ∧
  ∀ (s : State) (x : Team), s.m.team? s.subj.x = some x →
    ∃ t, exec .stealIdleThreshold s = .next t ∧ t.m.team? s.subj.x = some { x with
      steal := { x.steal with crossDie := x.steal.crossDie || s.m.crossDie x } } ∧ ∀ a, t.byte a = s.byte a

namespace Sys2Proof.Machine

/-- Operation n, o, of an engine may end: its requests have reached their homes, and its data and acknowledgements cross the reply mesh
(R35, R39). -/
structure Mach.EngineEnds (m : Mach) (n : Nat) (o : Op) : Prop where
  here : m.ops.get? n = some o
  back : (m.backOver n o.core (o.kind.spots.map (·.1)) o.kind.targets).1 = true

/-- Whatever n bytes at dst come to hold, n bytes at src lie in no region where the launch of task t may be saved (R272). -/
def Mach.PlainSource (m : Mach) (t src dst n : Nat) : Prop :=
  ∀ mem, (∀ a, a < dst ∨ dst + n ≤ a → Memory.read mem a = Memory.read m.mem a) →
    ({ m with mem := mem } : Mach).ownSpill t (.dev src) n = false

end Sys2Proof.Machine

/-- R61, R62, R217-R219, R353, R373, R377, R407: a copy that completes leaves the source's bytes at its destination and no other
byte changed; rows of `acc.st` reach the local store, an explicit staging its packed row; a collective commits once all its
members have arrived and every part's data has crossed the meshes, where its timeout has not passed, and completes once peers have
acknowledged what went to them; at its timeout it fails and commits no more; a full element of a reduction is applied to its destination
word, and one at a peer counts as applied once the peer has answered. The model's own choices in it: log entries 42, 52, 55, 111. -/
def Obligations.EnginesCollectivesReductions : Prop :=
  (∀ (s : State) (o : Op) (k : EngineK) (src dst len : Nat), s.m.EngineEnds s.subj.x o → o.kind = .engine k →
    k.rows = [(.dev src, .dev dst, len)] → k.doneUnits = [] → k.lost = false → k.sent = false → k.overlap = false →
    k.cell = none →
    len % 8 = 0 → (Place.dev src).peer? = none → (Place.dev dst).peer? = none → src + len ≤ dst ∨ dst + len ≤ src →
    s.m.engineMay s.subj.x o k.rows = true → s.m.atGate [(.dev dst, len)] = false → s.unwaited dst len →
    s.m.PlainSource o.task src dst len →
    ∃ t, exec .engineComplete s = .next t ∧ t.m.ops.get? s.subj.x = none ∧
      ∀ a, t.byte a = if dst ≤ a ∧ a < dst + len then s.byte (src + (a - dst)) else s.byte a) ∧
  (∀ (s : State) (o : Op) (x : Team) (off : Nat) (bs : List Byte), s.m.EngineEnds s.subj.x o →
    o.kind = .accStore [(off, bs)] → s.m.team? o.team = some x → s.m.engineHeld o.core s.subj.x = false →
    s.m.served s.subj.x true [.ls o.team 0] = true →
    ∃ t, exec .engineComplete s = .next t ∧ t.m.ops.get? s.subj.x = none ∧ (∀ a, t.byte a = s.byte a) ∧
      ((∀ j, j < bs.length → s.m.strayPool o.task (.ls o.team (off + j)) = false) →
        ∀ k a, t.lsByte k a = if k = o.team ∧ off ≤ a ∧ a < off + bs.length then bs.getD (a - off) 0 else s.lsByte k a)) ∧
  (∀ (s : State) (o : Op) (k : StageK) (x : Team) (pa : Nat), s.m.EngineEnds s.subj.x o → o.kind = .stage k →
    k.rows = [.dev pa] → k.fault = none → k.units = [] → k.fmt ≠ 6 → k.cell = none → o.reply = none → (Place.dev pa).peer? = none →
    (∀ e ∈ s.m.ops, e.1 < s.subj.x → e.2.core = o.core → ∀ j, e.2.kind ≠ .stage j) → s.m.team? o.team = some x →
    s.m.engineHeld o.core s.subj.x = false → s.m.served s.subj.x false k.rows = true →
    s.m.served s.subj.x true [.ls o.team k.dst] = true → s.m.storeBefore o.core s.subj.x [(.dev pa, k.rowlen)] = false →
    ∃ t, exec .engineComplete s = .next t ∧ t.m.ops.get? s.subj.x = none ∧ (∀ a, t.byte a = s.byte a) ∧
      ((∀ j, j < k.rowlen → s.m.strayPool o.task (.ls o.team (k.dst + j)) = false) →
        ∀ j a, t.lsByte j a = if j = o.team ∧ k.dst ≤ a ∧ a < k.dst + k.rowlen then s.byte (pa + (a - k.dst))
          else s.lsByte j a)) ∧
  (∀ (s : State) (l : Launch) (k : Collective) (grp : Group),
    let g := s.subj.y
    s.m.launches.get? s.subj.x = some l → l.colls.get? g = some k → l.groups.get? g = some grp →
    s.m.collExpired grp k = false →
    (k.sent = false → (∀ c ∈ grp.list, ∃ a ∈ k.arrived, a.1 = c) → (∀ o ∈ s.m.arrivedOps k, s.m.collMay o = true) →
      let (back, m) := s.m.collBack (s.m.arrivedOps k)
      ∃ t, exec .collectiveCommit s = .next t ∧ t = { s with m := if back = true then m.commitColl s.subj.x g k else m } ∧
        (back = true → (∀ o ∈ s.m.arrivedOps k, ∀ d ∈ o.2.2.dst, d.1.peer? = none) →
          ∀ o ∈ s.m.arrivedOps k, t.m.ops.get? o.1 = none)) ∧
    (k.sent = true → (∀ o ∈ s.m.arrivedOps k, s.m.peersAck o.2.2.dst = true) →
      ∃ t, exec .collectiveCommit s = .next t ∧ t = s.updM (fun m => m.finishColl s.subj.x g (s.m.arrivedOps k)) ∧
        ∀ o ∈ s.m.arrivedOps k, t.m.ops.get? o.1 = none)) ∧
  (∀ (kind : CollKind) (size i : Nat) (srcs : List Cargo), (kind = .gather → collResult kind size i srcs = srcs.flatten) ∧
    (kind = .exchange → (∀ c ∈ srcs, (i + 1) * size ≤ c.length) → ∀ j e, j < srcs.length → e < size →
      (collResult kind size i srcs)[j * size + e]? = (srcs.getD j [])[i * size + e]?) ∧
    (kind = .barrier → collResult kind size i srcs = [])) ∧
  (∀ (s : State) (l : Launch) (k : Collective) (grp : Group),
    let g := s.subj.y
    s.m.launches.get? s.subj.x = some l → l.colls.get? g = some k → l.groups.get? g = some grp → grp.timeout ≠ 0 →
    k.start + grp.timeout * 2 ^ 16 ≤ s.m.clock →
    exec .collectiveCommit s = .next s ∧ ∃ t, exec .collectiveTimeout s = .next t ∧ t = s.updM (fun m => m.failColl s.subj.x g 2 (l.absent g)) ∧
      ∀ o ∈ s.m.arrivedOps k, t.m.ops.get? o.1 = none) ∧
  (∀ (s : State) (n : Nat) (o : Op) (sv : Serve) (l : Launch) (ln ctx e : Nat) (r : RedCtx), s.m.MayEnd n o →
    o.kind = .combine ln ctx e → o.reply.isSome = true → s.m.launches.get? ln = some l → l.redctx.get? ctx = some r →
    ∃ t, exec (.operationComplete n sv) s = .next t ∧ t.m.ops.get? n = none ∧ (∀ a, t.byte a = s.byte a) ∧
      t.m.launches.get? ln = some { l with redctx := l.redctx.put ctx { r with
        applied := e :: r.applied, st := if r.st = .opened ∧ r.applied.length + 1 = r.elems then .done else r.st } }) ∧
  ∀ (s : State) (l : Launch) (r : RedCtx) (root : Word),
    let e := s.subj.z
    let size := redSize r.ty
    let pa := r.dst + e * size
    s.m.launches.get? s.subj.x = some l → l.redctx.get? s.subj.y = some r → r.st = .opened → e < r.elems → e ∉ r.applied →
    (∀ b ∈ r.bind, ∀ k, k < r.slots → s.m.slotFilled r b.1 e k = true) → s.m.placeWaits true (.dev pa) = false →
    s.m.elementAway s.subj.x s.subj.y e r = false → s.m.redRoot r e = some root →
    (∀ p, (Place.dev pa).peer? = some p → (s.m.conn p ≠ .up → exec .reductionElementApply s = .next s) ∧
      (s.m.conn p = .up → ∃ t, exec .reductionElementApply s = .next t ∧ t.m.launches = s.m.launches ∧ (∀ a, t.byte a = s.byte a) ∧
        t.m.peerOut = s.m.peerOut ++ [.combine p pa r.op r.ty root] ∧
        ∃ o, t.m.ops.get? s.m.serial = some o ∧ o.kind = .combine s.subj.x s.subj.y e ∧ o.reply = none)) ∧
    ((Place.dev pa).peer? = none →
    let old := (List.range size).map fun i => s.byte (pa + i)
    ∃ t, exec .reductionElementApply s = .next t ∧
      s.bytesBecome t pa (natBytes size (redApply r.op r.ty (.ofNat 32 (bytesNat old)) root).toNat) ∧
      t.m.launches.get? s.subj.x = some { l with redctx := l.redctx.put s.subj.y { r with
        applied := e :: r.applied, st := if r.applied.length + 1 = r.elems then .done else .opened } })

/-! ## The machine as a whole -/

/-- R273, R277-R283: words written out from the encoding tables, one for each group of opcodes and each length, decode to the
instruction they stand for; reserved bits, unassigned opcodes and header words are refused by name. -/
def Obligations.WordsDecode : Prop :=
  decodeTableWord 64 0x000000000000001C = some (.ret ⟨none, .none, false⟩) ∧
  decodeTableWord 96 0x00000200002B000000C00015 = some (.call ⟨none, .none, false⟩ true 0x0B 12 2) ∧
  decodeTableWord 64 0x1900000030205100 = some (.iadd ⟨none, .none, false⟩ .i32 true 5 2 3) ∧
  decodeTableWord 64 0x0027000000809214 = some (.shl ⟨none, .none, false⟩ 9 8 (.imm 7)) ∧
  decodeTableWord 64 0x002100F000809320 =
    some (.shflXor ⟨some ⟨7, false⟩, .none, false⟩ 9 8 (.imm 1)) ∧
  decodeTableWord 64 0x4A0030F060504400 = some (.fadd ⟨some ⟨7, true⟩, .a, false⟩ .rz 4 5 6) ∧
  decodeTableWord 64 0x590A000000609520 = some (.cvt ⟨none, .none, false⟩ .bf16 .f16 .rne true 9 6) ∧
  decodeTableWord 96 0xFFFFFC000240000000402601 = some (.ld ⟨none, .none, false⟩ ⟨.b32, .cl, .poll, .none⟩ 2 4 0xFFFFFC) ∧
  decodeTableWord 128 0x0000100000DF00000400000061400702 =
    some (.tld ⟨none, .none, false⟩ ⟨.va, .dv, .none, .imm 31 3 0x1000⟩ 20 6) ∧
  decodeTableWord 64 0x0400000000000900 = some (.fence ⟨none, .none, false⟩ .dv) ∧
  decodeTableWord 64 0x0000000000408A00 = some (.spawn ⟨none, .none, false⟩ 8 4) ∧
  decodeTableWord 128 0x00000000801000070401000080600B02 =
    some (.bcopy ⟨none, .none, false⟩ .ls .va .dv 6 8 7 (some 0x10)) ∧
  decodeTableWord 128 0x00000000000000000003000050400C0E =
    some (.mmaDs ⟨none, .none, false⟩ ⟨3, 0, false, .bf16, .bf16, false⟩ false false 4 5) ∧
  decodeTableWord 64 0x003F000000000D00 = some (.accAcq ⟨none, .none, false⟩ 63) ∧
  decodeTableWord 64 0x000A000000006E00 = some (.movsRead ⟨none, .none, false⟩ .prio 0 6) ∧
  decode 0x800000000000001C = .error .reserved ∧ decode 0x3C = .error .unassigned ∧ decode 0x13 = .error .header ∧
  decode 0x000000200000001C = .error .guard

/-- R273, R277-R283: every well-formed instruction of the ISA has a word, which fits its length and decodes to it, with every
operand at every value; an event has none; and a word that decodes is, in the bits of its length, the word of the instruction it
decodes to. -/
def Obligations.EncodingAndDecodingAgree : Prop :=
  (∀ (i : Instr) (w : Nat), i.wf = true → encode i = some w →
    decode w = .ok i ∧ w < 2 ^ (8 * itemLen w) ∧ itemLen w = Instr.bytes i) ∧
  (∀ i : Instr, (i.enc ≠ none → i.wf = true → ∃ w, encode i = some w) ∧ (i.enc = none → encode i = none)) ∧
  ∀ (w : Nat) (i : Instr), decode w = .ok i → encode i = some (w % 2 ^ (8 * itemLen w)) ∧ i.permitted = true

namespace Sys2Proof.Machine

/-- The turn a step from s takes, and the machine once its time has passed: the next of the agenda; with none to come, one that lets a
core clock pass where it may and has the warp in focus, or a core that has yet to use its clock, issue. -/
def State.Takes (s u : State) (turn : Turn) : Prop :=
  (∃ ts, s.agenda = turn :: ts ∧ u = ({ s with agenda := ts } : State).turnTime turn) ∨
  (s.agenda = [] ∧ s.running = true ∧ ∃ f, s.m.focus = some f ∧ turn = ⟨1, 0, [], s.m.nextAct f.1 f.2⟩ ∧ u = s.turnTime turn)

end Sys2Proof.Machine

/-- R96, R97, R98, R156, R168, R169, R178, R274, R296: a step takes the next turn of the agenda, or, with no turn to come, lets a core
clock pass where it may and the warp in focus issue. A turn in which a core issues has the eligible warp issue that R97 chooses, once in
a clock: the instruction that the bytes at its PC decode to runs, on the machine whose instruction cache the fetch has filled; bytes
that are no instruction raise ILLEGAL and use the cycle; a warp with no path at an instruction selects one. Clocks do not pass a core
whose eligible warps have not used theirs, nor the end of an accounting window without its boundary. A turn that names an event has it
happen. In shadow mode a leader stalls where R156 says, and one whose held effect its shadow does not match has its gang's kill asked
for instead. The model's own choices in it: log entries 2, 22, 102, 103. -/
def Obligations.StepRunsDecodedInstruction : Prop :=
  (∀ (s u : State) (turn : Turn) (tk w : Nat) (all : Bool) (x : Team) (d : Claim), s.Takes u turn → turn.act = .issue tk w all →
    u.running = true → u.m.team? tk = some x → (tk, w) ∉ turn.held → u.m.warpReady tk w = true →
    u.m.chosen turn.held x.core = some d → d.shadow = false →
    let v : State := { u with m := { u.m with focus := some (d.tk, d.w), refetch := all } }
    (∀ (c : Issue) (m : Mach) (i : Instr), u.m.cycleUsed x.core = false → v.m.issuing = some c → v.m.fetch c = (m, .ok i) →
      m.shadowed c.tk = false → step s = exec i { v with m := m }) ∧
    (∀ (c : Issue) (m : Mach) (e : Fail), u.m.cycleUsed x.core = false → v.m.issuing = some c → v.m.fetch c = (m, .error e) →
      step s = .next (({ v with m := m } : State).faults c e)) ∧
    (v.m.issuing = none → step s = exec .pathSelection { v with subj := ⟨d.tk, d.w, 0⟩ }) ∧
    (u.m.cycleUsed x.core = true → v.m.issuing ≠ none → step s = .next u)) ∧
  (∀ (s u : State) (turn : Turn) (i : Instr) (x y z : Nat), s.Takes u turn → turn.act = .event i x y z → i.enc = none →
    i.isCommand = false → step s = exec i { u with subj := ⟨x, y, z⟩ }) ∧
  (∀ (s : State) (turn : Turn), let u := s.turnTime turn
    s.m.clock ≤ u.m.clock ∧ u.m.clock ≤ (s.m.clock / 2 ^ 20 + 1) * 2 ^ 20 ∧ u.m.clock / 2 ^ 20 ≤ u.sys.hub.window) ∧
  (∀ (m : Mach) (tk w : Nat), m.shadowReady tk w = false → (∀ x, m.team? tk = some x → m.cycleUsed x.core = false) →
    m.nextAct tk w = .issue tk w m.refetch) ∧
  (∀ (m : Mach) (c : Issue) (w v : Nat), let pc := c.p.pc.toNat
    m.codeWord c.core c.asid pc c.priv = .ok w → m.codeWords c.core c.asid pc c.priv (itemLen w / 4) = .ok v →
    pc % 32 ≠ 28 → w % 4 ≠ 3 → pc % 32 + itemLen w ≤ 32 →
    (∀ i, decode v = .ok i → m.fetchAt c = .ok i) ∧
    ∀ r, decode v = .error r → m.fetchAt c = .error { cause := .illegal, oppos := unusedField v, lanes := c.guarded v }) ∧
  (∀ (m : Mach) (held : List (Nat × Nat)) (core : Nat) (d : Claim), m.chosen held core = some d →
    d ∈ m.claims held core ∧ ∀ e ∈ m.claims held core, m.comesBefore core e d = false) ∧
  (∀ (m : Mach) (held : List (Nat × Nat)) (core n : Nat), core ∈ m.busyCores → m.claims held core ≠ [] →
    m.clocksMay held n ≤ 1 ∧ (m.cycleUsed core = false → m.clocksMay held n = 0)) ∧
  ∀ (s : State) (c : Issue) (k : Task) (i : Instr), s.m.shadowed c.tk = true → s.m.tasks.get? c.t = some k →
    (shadowClass i = .value → 64 ≤ k.queueUse → issueInstr c i s = .next s) ∧
    (shadowClass i = .effect → k.trail ≠ [] → issueInstr c i s = .next s) ∧
    ∀ t, shadowClass i = .effect → k.trail = [] → exec i s = .next t → s.m.hasIssued t.m c.tk c.w = true →
      k.diverged = true ∨ s.m.agrees c i = false → issueInstr c i s = .next { s with m := s.m.mismatch c.tk c.w }

/-- R20, R23, R64, R191: no instruction of the ISA changes the hub, the flash store or what is to come; its first failing check
is raised at it, with no other effect but the use of its core's cycle; and the core clock stays a multiple of 0.3 GHz from 1.8 to
3.6 GHz, whatever step is taken. The model's own choices in it: log entry 2. -/
def Obligations.HubChangesByEventsOnly : Prop :=
  (∀ (s t : State) (i : Instr), i.enc ≠ none → exec i s = .next t →
    t.sys = s.sys ∧ t.agenda = s.agenda ∧ t.subj = s.subj) ∧
  (∀ (s : State) (i : Instr), i.enc ≠ none → ∃ t, exec i s = .next t) ∧
  (∀ (s : State) (i : Instr) (c : Issue) (f : Fail), i.enc ≠ none → s.m.issuing = some c →
    checks c (Instr.shape i) (c.active i) = some f → s.m.Form → exec i s = .next (s.faults c f)) ∧
  ∀ s t : State, step s = .next t → 18 ≤ s.sys.hub.freq → s.sys.hub.freq ≤ 36 → s.sys.hub.freq % 3 = 0 →
    18 ≤ t.sys.hub.freq ∧ t.sys.hub.freq ≤ 36 ∧ t.sys.hub.freq % 3 = 0

/-- Whatever step is taken, memory keeps its canonical form (addresses strictly rising, no byte listed that an unlisted address
reads as) and every operation under way a number given out before; and two memories in that form that read alike are equal.
The model's own choices in it: log entry 3. -/
def Obligations.StepKeepsMachineForm : Prop :=
  (∀ s t : State, step s = .next t → s.m.Form → t.m.Form) ∧
  ∀ a b : List Host.Cell, Memory.wf a = true → Memory.wf b = true → (∀ n, Memory.read a n = Memory.read b n) → a = b

/-- R20, R24, R42, R48, R57, R66, R100, R162: at reset the module stands at step 1 of start-up, its clock at 3.6 GHz, ESTCTL,
SCRBCTL, SVCTL and RPLCTL at their reset values, the admin registers 0 and nothing in memory; the first step starts it up, with
the domains R42 gives. The model's own choices in it: log entries 2, 3, 4. -/
def Obligations.ResetState : Prop :=
  State.reset.sys.hub.phase = .startup ∧ State.reset.sys.hub.freq = 36 ∧ State.reset.sys.hub.estctl = 0x04004020 ∧
  State.reset.m.svctl = 0x08040080 ∧ (∀ stack, State.reset.sys.hub.scrb stack = 0x97) ∧
  (∀ die, State.reset.m.rplctlOf die = 0x9) ∧ State.reset.sys.hub.admcq = 0 ∧ State.reset.sys.hub.admeq = 0 ∧
  State.reset.sys.hub.ena = false ∧ State.reset.sys.hub.ready = false ∧ (∀ a, State.reset.byte a = 0) ∧
  State.reset.m.Form ∧ State.reset.m.launches = [] ∧
  ∃ t, step State.reset = .next t ∧ t.sys.hub.phase = .running ∧ t.sys.hub.memoryActive = true ∧
    (∀ stack, stack < 16 → t.m.domain (stack / 4) (stack % 4) =
      let base := 48 * stack
      let mask : DWord := BitVec.ofNat 64 ((2 ^ 16 - 1) * 2 ^ (16 * (stack % 4)))
      ⟨base, base + 47, mask, false, .active, base, base + 47, mask, none, 0, []⟩) ∧
    ∀ die k, die < 4 → 4 ≤ k → k < 8 → (t.m.domain die k).st = .inactive
end

