-- ==== Sys2Proof/Laws/Slices.lean ====
section
/-! SUPPORT. What the slices do with the lines they hold changes no byte and no table of the machine: only which lines they hold
and how their blocks are stored. -/

namespace Sys2Proof.Machine

/-- The machine without what its slices hold: their lines and their retention, which of them are dirty, the replicas and host lines
among them, how blocks are stored, and the count of free values. -/
def Mach.offSlices (m : Mach) : Mach :=
  { m with dirty := [], l2 := [], l2rank := [], replicas := [], hostLines := [], blocks := [], free := 0 }

/-- Two machines that differ in what their slices hold alone. -/
def Mach.SameButSlices (m n : Mach) : Prop := n.offSlices = m.offSlices

namespace Mach.SameButSlices

variable {a b c : Mach}

theorem refl (m : Mach) : Mach.SameButSlices m m := rfl
theorem trans (h : a.SameButSlices b) (g : b.SameButSlices c) : a.SameButSlices c := Eq.trans g h
theorem mem (h : a.SameButSlices b) : b.mem = a.mem := congrArg (·.mem) h
theorem poison (h : a.SameButSlices b) : b.poison = a.poison := congrArg (·.poison) h
theorem ops (h : a.SameButSlices b) : b.ops = a.ops := congrArg (·.ops) h
theorem serial (h : a.SameButSlices b) : b.serial = a.serial := congrArg (·.serial) h
theorem teams (h : a.SameButSlices b) : b.teams = a.teams := congrArg (·.teams) h
theorem tasks (h : a.SameButSlices b) : b.tasks = a.tasks := congrArg (·.tasks) h
theorem frames (h : a.SameButSlices b) : b.frames = a.frames := congrArg (·.frames) h
theorem cores (h : a.SameButSlices b) : b.cores = a.cores := congrArg (·.cores) h
theorem control (h : a.SameButSlices b) : b.svctl = a.svctl ∧ b.rplctl = a.rplctl :=
  ⟨congrArg (·.svctl) h, congrArg (·.rplctl) h⟩

theorem foldl {α : Type} (f : Mach → α → Mach) (hf : ∀ m x, Mach.SameButSlices m (f m x)) (l : List α) (m : Mach) :
    m.SameButSlices (l.foldl f m) := by
  induction l generalizing m with
  | nil => exact refl m
  | cons x l ih => exact (hf m x).trans (ih _)

end Mach.SameButSlices

theorem Mach.packBlock_slices (m : Mach) (b : Nat) (cmp : Bool) : m.SameButSlices (m.packBlock b cmp) := by
  unfold Mach.packBlock
  extract_lets zero
  split_ifs <;> rfl

theorem Mach.l2Evict_slices (m : Mach) (k : Nat) : m.SameButSlices (m.l2Evict k) := by
  unfold Mach.l2Evict
  extract_lets l home m'
  have h : m.SameButSlices m' := rfl
  split_ifs
  · exact h.trans (Mach.packBlock_slices _ _ _)
  · exact h

theorem Mach.anyOf_slices (m : Mach) (ks : List Nat) : m.SameButSlices (m.anyOf ks).2 := by
  unfold Mach.anyOf
  split_ifs <;> rfl

theorem Mach.l2Fill_slices (m : Mach) (die slice l : Nat) : m.SameButSlices (m.l2Fill die slice l) := by
  unfold Mach.l2Fill
  extract_lets full
  have h : m.SameButSlices
      (if full.length < 16 then (none, m) else m.anyOf (m.leastKept (full.filter m.evictable)) : Option Nat × Mach).2 := by
    split_ifs
    · rfl
    · exact Mach.anyOf_slices _ _
  generalize (if full.length < 16 then (none, m) else m.anyOf (m.leastKept (full.filter m.evictable)) : Option Nat × Mach) = r at *
  obtain ⟨out, m1⟩ := r
  cases out with
  | none => dsimp only at *; split_ifs <;> exact h
  | some k =>
    have h2 := Mach.SameButSlices.trans h (Mach.l2Evict_slices m1 k)
    dsimp only at *; split_ifs <;> exact h2

theorem Mach.l2Home_slices (m : Mach) (l : Nat) : m.SameButSlices (m.l2Home l) := by
  unfold Mach.l2Home
  split
  · split_ifs
    · exact Mach.l2Fill_slices _ _ _ _
    · rfl
  · rfl

theorem Mach.dirtyLine_slices (m : Mach) (l : Nat) : m.SameButSlices (m.dirtyLine l) := by
  unfold Mach.dirtyLine
  split_ifs
  · exact Mach.packBlock_slices _ _ _
  · rfl
  · extract_lets m1
    have h : m.SameButSlices m1 := Mach.l2Home_slices m l
    split_ifs
    · exact h.trans (Mach.packBlock_slices _ _ _)
    · exact h

theorem Mach.flushRange_slices (m : Mach) (pa n : Nat) : m.SameButSlices (m.flushRange pa n) := by
  unfold Mach.flushRange
  extract_lets inside ls m1
  exact Mach.SameButSlices.trans (b := m1) rfl (Mach.SameButSlices.foldl _ (fun m _ => Mach.packBlock_slices m _ _) _ _)

/-- Writing back what a pinned page holds. -/
theorem Mach.unpin_slices (m : Mach) (p : Pin) : m.SameButSlices (m.unpin p) := by
  unfold Mach.unpin
  split_ifs
  · exact Mach.SameButSlices.foldl _ (fun m _ => Mach.packBlock_slices m _ _) _ _
  · exact Mach.flushRange_slices m _ _

/-- Everything a write at the home does to bytes, poison and tables. -/
theorem Mach.homeWrite_spec (m : Mach) (pa : Nat) (bs : List Byte) :
    (m.homeWrite pa bs).mem = Memory.writeN m.mem pa bs ∧ (m.homeWrite pa bs).ops = m.ops ∧
    (m.homeWrite pa bs).serial = m.serial ∧ (m.homeWrite pa bs).teams = m.teams ∧ (m.homeWrite pa bs).tasks = m.tasks ∧
    (m.homeWrite pa bs).frames = m.frames ∧ (m.homeWrite pa bs).cores = m.cores := by
  unfold Mach.homeWrite
  extract_lets ls whole
  have h := fun m1 => Mach.SameButSlices.foldl Mach.dirtyLine Mach.dirtyLine_slices ls m1
  replace h := h { m with
    mem := Memory.writeN m.mem pa bs
    replicas := m.replicas.sift fun k _ => !ls.contains (k / 4)
    poison := m.poison.filter fun l => !whole.contains l
    hostOut := m.hostOut ++ (ls.filter m.hostCopies.contains).map .backInvalidate
    hostCopies := m.hostCopies.filter fun l => !ls.contains l }
  exact ⟨h.mem, h.ops, h.serial, h.teams, h.tasks, h.frames, h.cores⟩

end Sys2Proof.Machine
end

