-- ==== Sys2Proof/Laws/Sparse.lean ====
section
/-! SUPPORT. Laws of tables by number and of memory: what a read gives after a write, and that every operation keeps the
canonical form. -/

namespace Sys2Proof.Machine

variable {α : Type}

/-! ## Reading tables -/

@[simp] theorem Sparse.get?_nil (k : Nat) : Sparse.get? ([] : Sparse α) k = none := rfl

theorem Sparse.get?_cons (e : Nat × α) (t : Sparse α) (k : Nat) :
    Sparse.get? (e :: t) k = if k = e.1 then some e.2 else Sparse.get? t k := rfl

@[simp] theorem Sparse.get?_put_self (t : Sparse α) (k : Nat) (v : α) : Sparse.get? (Sparse.put t k v) k = some v := by
  induction t with
  | nil => simp [Sparse.put, Sparse.get?]
  | cons e t ih => simp only [Sparse.put]; split_ifs <;> simp_all [Sparse.get?]

@[simp] theorem Sparse.get?_put_ne (t : Sparse α) {j k : Nat} (h : k ≠ j) (v : α) :
    Sparse.get? (Sparse.put t j v) k = Sparse.get? t k := by
  induction t with
  | nil => simp [Sparse.put, Sparse.get?, h]
  | cons e t ih => simp only [Sparse.put]; split_ifs <;> simp_all [Sparse.get?]

theorem Sparse.get?_put (t : Sparse α) (j k : Nat) (v : α) :
    Sparse.get? (Sparse.put t j v) k = if k = j then some v else Sparse.get? t k := by
  split_ifs with h
  · subst h; simp
  · simp [h]

theorem Sparse.get?_del (t : Sparse α) (j k : Nat) :
    Sparse.get? (Sparse.del t j) k = if k = j then none else Sparse.get? t k := by
  induction t with
  | nil => simp [Sparse.del]
  | cons e t ih =>
    simp only [Sparse.del, List.filter_cons] at ih ⊢
    by_cases h1 : e.1 = j <;> by_cases h2 : k = j <;> by_cases h3 : k = e.1 <;> simp_all [Sparse.get?]

theorem Sparse.get?_upd (t : Sparse α) (j k : Nat) (f : α → α) :
    Sparse.get? (Sparse.upd t j f) k = if k = j then (Sparse.get? t k).map f else Sparse.get? t k := by
  induction t with
  | nil => simp [Sparse.upd]
  | cons e t ih => simp only [Sparse.upd]; split_ifs at ih ⊢ <;> simp_all [Sparse.get?]

@[simp] theorem Sparse.get?_upd_self (t : Sparse α) (k : Nat) (f : α → α) :
    Sparse.get? (Sparse.upd t k f) k = (Sparse.get? t k).map f := by simp [Sparse.get?_upd]

@[simp] theorem Sparse.get?_upd_ne (t : Sparse α) {j k : Nat} (h : k ≠ j) (f : α → α) :
    Sparse.get? (Sparse.upd t j f) k = Sparse.get? t k := by simp [Sparse.get?_upd, h]

@[simp] theorem Sparse.get?_mapv (t : Sparse α) (f : Nat → α → α) (k : Nat) :
    Sparse.get? (Sparse.mapv t f) k = (Sparse.get? t k).map (f k) := by
  induction t with
  | nil => simp [Sparse.mapv]
  | cons e t ih => simp only [Sparse.mapv, List.map_cons] at ih ⊢; simp only [Sparse.get?]; split_ifs <;> simp_all

theorem Sparse.getD_norm [DecidableEq α] (t : Sparse α) (j k : Nat) (v d : α) :
    Sparse.getD (Sparse.norm t j v d) k d = if k = j then v else Sparse.getD t k d := by
  unfold Sparse.getD Sparse.norm
  split_ifs with h1 h2 h2 <;> simp_all [Sparse.get?_del]

/-! ## The canonical order of tables -/

theorem Sparse.above_mono {lo hi : Nat} (h : lo ≤ hi) : ∀ {t : Sparse α}, Sparse.above hi t = true → Sparse.above lo t = true
  | [], _ => rfl
  | (j, _) :: t, ht => by
    simp only [Sparse.above, Bool.and_eq_true, decide_eq_true_eq] at ht ⊢
    exact ⟨by omega, ht.2⟩

theorem Sparse.wf_cons (j : Nat) (v : α) (t : Sparse α) : Sparse.wf ((j, v) :: t) = Sparse.above j t := rfl

theorem Sparse.above_put (t : Sparse α) (lo k : Nat) (v : α) (hk : lo < k) (h : Sparse.above lo t = true) :
    Sparse.above lo (Sparse.put t k v) = true := by
  induction t generalizing lo with
  | nil => simp [Sparse.put, Sparse.above, hk]
  | cons e t ih =>
    simp only [Sparse.above, Bool.and_eq_true, decide_eq_true_eq] at h
    simp only [Sparse.put]
    split_ifs with h1 h2
    · subst h1; simp [Sparse.above, hk, h.2]
    · simp only [Sparse.above, Bool.and_eq_true, decide_eq_true_eq]; exact ⟨hk, h2, h.2⟩
    · simp only [Sparse.above, Bool.and_eq_true, decide_eq_true_eq]; exact ⟨h.1, ih e.1 (by omega) h.2⟩

theorem Sparse.above_filter (t : Sparse α) (lo : Nat) (p : Nat × α → Bool) (h : Sparse.above lo t = true) :
    Sparse.above lo (t.filter p) = true := by
  induction t generalizing lo with
  | nil => rfl
  | cons e t ih =>
    simp only [Sparse.above, Bool.and_eq_true, decide_eq_true_eq] at h
    simp only [List.filter_cons]
    split_ifs
    · simp only [Sparse.above, Bool.and_eq_true, decide_eq_true_eq]; exact ⟨h.1, ih e.1 h.2⟩
    · exact ih lo (Sparse.above_mono (by omega) h.2)

theorem Sparse.wf_put (t : Sparse α) (k : Nat) (v : α) (h : Sparse.wf t = true) : Sparse.wf (Sparse.put t k v) = true := by
  cases t with
  | nil => rfl
  | cons e t =>
    simp only [Sparse.wf] at h
    simp only [Sparse.put]
    split_ifs with h1 h2
    · subst h1; simpa [Sparse.wf] using h
    · simp [Sparse.wf, Sparse.above, h2, h]
    · simp only [Sparse.wf]; exact Sparse.above_put t e.1 k v (by omega) h

theorem Sparse.wf_of_above {lo : Nat} {t : Sparse α} (h : Sparse.above lo t = true) : Sparse.wf t = true := by
  cases t with
  | nil => rfl
  | cons e t => simp only [Sparse.above, Bool.and_eq_true, decide_eq_true_eq] at h; exact h.2

theorem Sparse.wf_filter (t : Sparse α) (p : Nat × α → Bool) (h : Sparse.wf t = true) : Sparse.wf (t.filter p) = true := by
  cases t with
  | nil => rfl
  | cons e t =>
    simp only [Sparse.wf] at h
    simp only [List.filter_cons]
    split_ifs
    · exact Sparse.above_filter t e.1 p h
    · exact Sparse.wf_of_above (Sparse.above_filter t e.1 p h)

/-! ## Memory -/

/-- A read after a write of one byte. -/
theorem Memory.read_write (mem : List Host.Cell) (a b : Nat) (v : Byte) :
    Memory.read (Memory.write mem a v) b = if b = a then v else Memory.read mem b :=
  Sparse.getD_norm (α := Byte) mem a b v Memory.blank

/-- A read after a write of a run of bytes. -/
theorem Memory.read_writeN (mem : List Host.Cell) (a b : Nat) (bs : List Byte) :
    Memory.read (Memory.writeN mem a bs) b =
      if a ≤ b ∧ b < a + bs.length then bs.getD (b - a) 0 else Memory.read mem b := by
  induction bs generalizing mem a with
  | nil => simp [Memory.writeN]
  | cons x bs ih =>
    simp only [Memory.writeN, ih, Memory.read_write, List.length_cons]
    by_cases h1 : b = a
    · subst h1; simp
    · by_cases h2 : a + 1 ≤ b ∧ b < a + 1 + bs.length
      · have h3 : b - a = (b - (a + 1)) + 1 := by omega
        rw [if_pos h2, if_pos (by omega), h3, List.getD_cons_succ]
      · rw [if_neg h2, if_neg h1, if_neg (by omega)]

/-- A read of a run after a write of the same run gives the bytes written. -/
theorem Memory.readN_writeN (mem : List Host.Cell) (a : Nat) (bs : List Byte) :
    Memory.readN (Memory.writeN mem a bs) a bs.length = bs := by
  have h : ∀ (n a b : Nat) (mem : List Host.Cell), Memory.readN (Memory.writeN mem a bs) (a + b) n =
      (List.range n).map fun i => Memory.read (Memory.writeN mem a bs) (a + b + i) := by
    intro n
    induction n with
    | zero => intros; rfl
    | succ n ih =>
      intro a b mem
      rw [List.range_succ_eq_map, List.map_cons, List.map_map, Memory.readN, Nat.add_assoc a b 1, ih]
      simp only [Nat.add_zero, List.cons.injEq, true_and, List.map_inj_left, Function.comp]
      intro i _; congr 1; omega
  have := h bs.length a 0 mem
  simp only [Nat.add_zero] at this
  rw [this]
  apply List.ext_getElem
  · simp
  · intro i h1 h2
    simp only [List.getElem_map, List.getElem_range, Memory.read_writeN]
    rw [if_pos (by omega)]
    simp [List.getD_eq_getElem?_getD, h2]

theorem Memory.wf_iff (mem : List Host.Cell) :
    Memory.wf mem = true ↔ Sparse.wf (α := Byte) mem = true ∧ ∀ c ∈ mem, c.2 ≠ Memory.blank := by
  simp [Memory.wf]

theorem Sparse.mem_put {t : Sparse α} {k : Nat} {v : α} {e : Nat × α} (h : e ∈ Sparse.put t k v) : e = (k, v) ∨ e ∈ t := by
  induction t with
  | nil => simpa [Sparse.put] using h
  | cons x t ih =>
    simp only [Sparse.put] at h
    split_ifs at h
    · simp_all
      tauto
    · simp_all
    · rcases List.mem_cons.mp h with h | h
      · simp [h]
      · rcases ih h with h | h <;> simp [h]

/-- A write of one byte keeps the canonical form. -/
theorem Memory.wf_write (mem : List Host.Cell) (a : Nat) (v : Byte) (h : Memory.wf mem = true) :
    Memory.wf (Memory.write mem a v) = true := by
  rw [Memory.wf_iff] at h ⊢
  unfold Memory.write Sparse.norm
  split_ifs with hv
  · exact ⟨Sparse.wf_filter mem _ h.1, fun c hc => h.2 c (List.mem_of_mem_filter hc)⟩
  · refine ⟨Sparse.wf_put mem a v h.1, fun c hc => ?_⟩
    rcases Sparse.mem_put hc with rfl | hc
    · exact hv
    · exact h.2 c hc

/-- A write of a run of bytes keeps the canonical form. -/
theorem Memory.wf_writeN (mem : List Host.Cell) (a : Nat) (bs : List Byte) (h : Memory.wf mem = true) :
    Memory.wf (Memory.writeN mem a bs) = true := by
  induction bs generalizing mem a with
  | nil => exact h
  | cons b bs ih => exact ih _ _ (Memory.wf_write mem a b h)

/-- Leaving out cells keeps the canonical form. -/
theorem Memory.wf_filter (mem : List Host.Cell) (p : Host.Cell → Bool) (h : Memory.wf mem = true) :
    Memory.wf (mem.filter p) = true := by
  rw [Memory.wf_iff] at h ⊢
  exact ⟨Sparse.wf_filter mem p h.1, fun c hc => h.2 c (List.mem_of_mem_filter hc)⟩

end Sys2Proof.Machine
end

