-- ==== Sys2Proof/Laws/Issue.lean ====
section
/-! SUPPORT. Laws of issue: what the issuing path is, what an instruction does once its checks have passed, and what the
shared operations around its effect leave alone. -/

namespace Sys2Proof.Machine

/-! ## The issuing path -/

/-- Everything `issuing` answers: the warp in focus is active on a running task, whose path has passed its header. -/
theorem Mach.issuing_eq {m : Mach} {c : Issue} (h : m.issuing = some c) :
    ∃ tm l x k, m.focus = some (c.tk, c.w) ∧ m.team? c.tk = some tm ∧ m.launches.get? tm.launch = some l ∧
      m.warps.get? (warpKey c.tk c.w) = some x ∧ x.task = some c.t ∧ m.tasks.get? c.t = some k ∧ k.run = some c.p ∧
      m.frames.get? c.p.frame = some c.f ∧ c.p.entered = true ∧ c.f.spilled = none ∧ c.p.st = .eligible ∧
      x.st = .active ∧ k.st = .running c.w ∧ tm.runs = true ∧ x.sleepUntil ≤ m.clock ∧
      (m.kills.any fun y => y.launch = tm.launch && y.gang = tm.gang) = false ∧
      m.headerAt tm.core l.asid c.p.clause.toNat k.priv = .ok c.hdr ∧ c.core = tm.core ∧ c.asid = l.asid ∧
      c.priv = k.priv ∧ c.launch = tm.launch ∧ c.teamIx = tm.ix ∧ c.latch = k.latchOf c.p := by
  unfold Mach.issuing at h
  simp only [Option.bind_eq_bind, Option.bind_eq_some_iff] at h
  obtain ⟨⟨tk, w⟩, hf, tm, htm, l, hl, x, hx, t, ht, k, hk, p, hp, f, hfr, h⟩ := h
  split_ifs at h with hc
  split at h
  · rename_i hd hh
    simp only [Option.some.injEq] at h
    subst h
    simp only [Bool.and_eq_true, decide_eq_true_eq, Bool.not_eq_true', Option.isNone_iff_eq_none, and_assoc] at hc
    obtain ⟨entered, here, eligible, active, running, runs, awake, kept⟩ := hc
    exact ⟨tm, l, x, k, hf, htm, hl, hx, ht, hk, hp, hfr, entered, here, eligible, active, running, runs, awake, kept, hh,
      by simp only [and_self]⟩
  · cases h

/-! ## What stays -/

theorem OwnOnly.refl (m : Mach) (c : Issue) : OwnOnly m m c :=
  ⟨rfl, fun _ _ => rfl, rfl, fun _ _ => rfl, rfl, fun _ => rfl, fun _ => rfl, fun _ _ => rfl, rfl⟩

theorem OwnOnly.trans {a b d : Mach} {c : Issue} (h : OwnOnly a b c) (g : OwnOnly b d c) : OwnOnly a d c := by
  refine ⟨?_, fun k hk => (g.tasks k hk).trans (h.tasks k hk), g.task.trans h.task,
    fun k hk => (g.warps k hk).trans (h.warps k hk), g.warp.trans h.warp, fun k => (g.teams k).trans (h.teams k),
    fun k => (g.cores k).trans (h.cores k), fun k hk => (g.frames k hk).trans (h.frames k hk), g.frame.trans h.frame⟩
  have h1 := h.other
  have h2 := g.other
  rw [← h2] at h1
  exact h1

/-- A change of the issuing task that leaves the rest of it alone. -/
theorem OwnOnly.updTask (m : Mach) (c : Issue) (f : Task → Task) (hf : ∀ k, (f k).rest = k.rest) :
    OwnOnly m (m.updTask c.t f) c := by
  refine ⟨rfl, fun k hk => ?_, ?_, fun _ _ => rfl, rfl, fun _ => rfl, fun _ => rfl, fun _ _ => rfl, rfl⟩
  · simp [Mach.updTask, hk]
  · simp only [Mach.updTask, Sparse.get?_upd_self, Option.map_map]
    congr 1; funext k; exact hf k

/-- A change of the issuing warp that leaves the rest of it alone. -/
theorem OwnOnly.updWarp (m : Mach) (c : Issue) (f : Warp → Warp) (hf : ∀ k, (f k).rest = k.rest) :
    OwnOnly m (m.updWarp c.tk c.w f) c := by
  refine ⟨rfl, fun _ _ => rfl, rfl, fun k hk => ?_, ?_, fun _ => rfl, fun _ => rfl, fun _ _ => rfl, rfl⟩
  · simp [Mach.updWarp, hk]
  · simp only [Mach.updWarp, Sparse.get?_upd_self, Option.map_map]
    congr 1; funext k; exact hf k

/-- A change of a team that leaves the rest of it alone. -/
theorem OwnOnly.updTeam (m : Mach) (c : Issue) (tk : Nat) (f : Team → Team) (hf : ∀ k, (f k).rest = k.rest) :
    OwnOnly m (m.updTeam tk f) c := by
  refine ⟨rfl, fun _ _ => rfl, rfl, fun _ _ => rfl, rfl, fun k => ?_, fun _ => rfl, fun _ _ => rfl, rfl⟩
  simp only [Mach.updTeam, Mach.team?, Sparse.get?_upd]
  split_ifs
  · rw [Option.map_map]; congr 1; funext k; exact hf k
  · rfl

/-- A change of a core that leaves the rest of it alone. -/
theorem OwnOnly.updCore (m : Mach) (c : Issue) (n : Nat) (f : Core → Core) (hf : ∀ k, (f k).rest = k.rest) :
    OwnOnly m (m.updCore n f) c := by
  refine ⟨rfl, fun _ _ => rfl, rfl, fun _ _ => rfl, rfl, fun _ => rfl, fun k => ?_, fun _ _ => rfl, rfl⟩
  simp only [Mach.updCore, Mach.core, Sparse.getD, Sparse.get?_put]
  split_ifs with h
  · subst h; exact hf _
  · rfl

/-- A change of the issuing path's frame that leaves the rest of it alone. -/
theorem OwnOnly.updFrame (m : Mach) (c : Issue) (f : Frame → Frame) (hf : ∀ k, (f k).rest = k.rest) :
    OwnOnly m (m.updFrame c.p.frame f) c := by
  refine ⟨rfl, fun _ _ => rfl, rfl, fun _ _ => rfl, rfl, fun _ => rfl, fun _ => rfl, fun k hk => ?_, ?_⟩
  · simp [Mach.updFrame, hk]
  · simp only [Mach.updFrame, Sparse.get?_upd_self, Option.map_map]
    congr 1; funext k; exact hf k

theorem OwnOnly.serial (m : Mach) (c : Issue) (n : Nat) : OwnOnly m { m with serial := n } c :=
  ⟨rfl, fun _ _ => rfl, rfl, fun _ _ => rfl, rfl, fun _ => rfl, fun _ => rfl, fun _ _ => rfl, rfl⟩

/-- The issue cycle. -/
theorem OwnOnly.tookCycle (m : Mach) (c : Issue) : OwnOnly m (m.tookCycle c) c := by
  unfold Mach.tookCycle
  extract_lets m1
  have h1 : OwnOnly m m1 c := OwnOnly.updWarp m c _ fun _ => rfl
  have h2 : ∀ k, OwnOnly m1 (m1.spendCycle c.core k) c := fun k => OwnOnly.updCore m1 c _ _ fun _ => rfl
  exact (h1.trans (h2 _)).trans (OwnOnly.serial _ c _)

/-- Issue itself. -/
theorem OwnOnly.issued (m : Mach) (c : Issue) : OwnOnly m (m.issued c) c := by
  unfold Mach.issued
  exact (OwnOnly.updTask m c (fun k => { k with watch := 0, lastIssue := m.serial }) fun _ => rfl).trans (OwnOnly.tookCycle _ c)

theorem OwnOnly.latched (m : Mach) (c : Issue) (h : Shape) : OwnOnly m (m.latched c h) c :=
  OwnOnly.updTask m c _ fun _ => rfl

theorem OwnOnly.updPath (m : Mach) (c : Issue) (f : Path → Path) : OwnOnly m (m.updPath c f) c :=
  OwnOnly.updTask m c _ fun _ => rfl

theorem OwnOnly.orFpstat (m : Mach) (c : Issue) (w : Word) : OwnOnly m (m.orFpstat c.t w) c :=
  OwnOnly.updTask m c _ fun _ => rfl

theorem Task.rest_addPath (k : Task) (p : Path) : (k.addPath p).rest = k.rest := by
  unfold Task.addPath; split_ifs <;> rfl

theorem Task.rest_addPaths (ps : List Path) (k : Task) : (ps.foldl Task.addPath k).rest = k.rest := by
  induction ps generalizing k with
  | nil => rfl
  | cons p ps ih => rw [List.foldl_cons, ih, Task.rest_addPath]

theorem OwnOnly.leaveClause (m : Mach) (c : Issue) (ps : List Path) : OwnOnly m (m.leaveClause c ps) c := by
  unfold Mach.leaveClause
  exact (OwnOnly.updTask m c _ fun k => by rw [Task.rest_addPaths]; rfl).trans (OwnOnly.updTeam _ c _ _ fun _ => rfl)

theorem OwnOnly.goOn (m : Mach) (c : Issue) (n : Nat) (moved : Lanes) (ps : List Path) :
    OwnOnly m (m.goOn c n moved ps) c := by
  unfold Mach.goOn
  extract_lets rest pc
  split
  · exact OwnOnly.leaveClause m c ps
  · split
    · exact OwnOnly.leaveClause m c _
    · exact OwnOnly.updTask m c _ fun k => by rw [Task.rest_addPaths]; rfl

/-- Settling the warp of a task that runs. -/
theorem OwnOnly.settle (m : Mach) (c : Issue) {x : Warp} {k : Task} (hx : m.warps.get? (warpKey c.tk c.w) = some x)
    (ht : x.task = some c.t) (hk : m.tasks.get? c.t = some k) (hs : k.st = .running c.w) :
    OwnOnly m (m.settle c.tk c.w) c := by
  unfold Mach.settle
  by_cases hf : x.st = .free
  · simp only [hx, Option.filter_some, hf, ne_eq, not_true_eq_false, decide_false, Bool.false_eq_true, if_false, Option.bind_none]
    exact OwnOnly.refl m c
  simp -zeta only [hx, Option.filter_some, ne_eq, hf, not_false_eq_true, decide_true, if_true, Option.bind_some, ht, hk, hs]
  split
  · exact OwnOnly.updWarp m c _ fun _ => rfl
  split
  · exact OwnOnly.refl m c
  split
  · split
    · extract_lets m1 m2 m3
      have h1 : OwnOnly m m1 c := OwnOnly.updTask m c _ fun _ => rfl
      have h2 : OwnOnly m1 m2 c := OwnOnly.serial m1 c _
      have h3 : OwnOnly m2 m3 c := OwnOnly.updTeam m2 c _ _ fun _ => rfl
      exact ((h1.trans h2).trans h3).trans (OwnOnly.updWarp m3 c _ fun _ => rfl)
    · exact OwnOnly.refl m c
  · exact OwnOnly.updWarp m c _ fun _ => rfl

/-! ## Frames and FPSTAT around an effect -/

@[simp] theorem Mach.frames_updTask (m : Mach) (t : Nat) (f : Task → Task) : (m.updTask t f).frames = m.frames := rfl
@[simp] theorem Mach.frames_updWarp (m : Mach) (tk w : Nat) (f : Warp → Warp) : (m.updWarp tk w f).frames = m.frames := rfl
@[simp] theorem Mach.frames_updTeam (m : Mach) (tk : Nat) (f : Team → Team) : (m.updTeam tk f).frames = m.frames := rfl
@[simp] theorem Mach.frames_updCore (m : Mach) (n : Nat) (f : Core → Core) : (m.updCore n f).frames = m.frames := rfl
@[simp] theorem Mach.frames_orFpstat (m : Mach) (t : Nat) (w : Word) : (m.orFpstat t w).frames = m.frames := rfl
@[simp] theorem Mach.frames_updPath (m : Mach) (c : Issue) (f : Path → Path) : (m.updPath c f).frames = m.frames := rfl
@[simp] theorem Mach.frames_latched (m : Mach) (c : Issue) (h : Shape) : (m.latched c h).frames = m.frames := rfl
@[simp] theorem Mach.frames_spendCycle (m : Mach) (core part : Nat) : (m.spendCycle core part).frames = m.frames := rfl
@[simp] theorem Mach.frames_issued (m : Mach) (c : Issue) : (m.issued c).frames = m.frames := by
  unfold Mach.issued Mach.tookCycle
  simp only [Mach.frames_spendCycle, Mach.frames_updWarp, Mach.frames_updTask]
@[simp] theorem Mach.frames_leaveClause (m : Mach) (c : Issue) (ps : List Path) : (m.leaveClause c ps).frames = m.frames := rfl

@[simp] theorem Mach.frames_goOn (m : Mach) (c : Issue) (n : Nat) (l : Lanes) (ps : List Path) :
    (m.goOn c n l ps).frames = m.frames := by
  unfold Mach.goOn
  extract_lets
  split
  · rfl
  · split <;> rfl

@[simp] theorem Mach.frames_stopPath (m : Mach) (c : Issue) (st : PathSt) : (m.stopPath c st).frames = m.frames := rfl

@[simp] theorem Mach.frames_settle (m : Mach) (tk w : Nat) : (m.settle tk w).frames = m.frames := by
  unfold Mach.settle
  split
  · rfl
  split
  · rfl
  split
  · split <;> rfl
  · split
    · rfl
    split
    · rfl
    split
    · split <;> rfl
    · rfl

/-- FPSTAT of a task in a machine. -/
def Mach.fpstatOf (m : Mach) (t : Nat) : Word := ((m.tasks.get? t).map fun k => k.fpstat).getD 0

theorem Mach.fpstatOf_updTask (m : Mach) (t : Nat) (f : Task → Task) (hf : ∀ k, (f k).fpstat = k.fpstat) :
    (m.updTask t f).fpstatOf t = m.fpstatOf t := by
  simp only [Mach.fpstatOf, Mach.updTask, Sparse.get?_upd_self, Option.map_map]
  congr 2; funext k; exact hf k

theorem Mach.issued_tasks (m : Mach) (c : Issue) : (m.issued c).tasks =
    m.tasks.upd c.t fun k => { k with watch := 0, lastIssue := m.serial } := rfl

theorem Mach.fpstatOf_issued (m : Mach) (c : Issue) : (m.issued c).fpstatOf c.t = m.fpstatOf c.t := by
  rw [Mach.fpstatOf, Mach.issued_tasks, Sparse.get?_upd_self, Option.map_map]
  rfl

theorem Mach.fpstatOf_latched (m : Mach) (c : Issue) (h : Shape) : (m.latched c h).fpstatOf c.t = m.fpstatOf c.t :=
  Mach.fpstatOf_updTask m c.t _ fun _ => rfl

theorem Mach.fpstatOf_updPath (m : Mach) (c : Issue) (f : Path → Path) : (m.updPath c f).fpstatOf c.t = m.fpstatOf c.t :=
  Mach.fpstatOf_updTask m c.t _ fun _ => rfl

theorem Task.fpstat_addPaths (ps : List Path) (k : Task) : (ps.foldl Task.addPath k).fpstat = k.fpstat := by
  induction ps generalizing k with
  | nil => rfl
  | cons p ps ih =>
    rw [List.foldl_cons, ih]
    unfold Task.addPath
    split_ifs <;> rfl

theorem Mach.fpstatOf_leaveClause (m : Mach) (c : Issue) (ps : List Path) :
    (m.leaveClause c ps).fpstatOf c.t = m.fpstatOf c.t :=
  Mach.fpstatOf_updTask m c.t _ fun _ => Task.fpstat_addPaths ps _

theorem Mach.fpstatOf_goOn (m : Mach) (c : Issue) (n : Nat) (l : Lanes) (ps : List Path) :
    (m.goOn c n l ps).fpstatOf c.t = m.fpstatOf c.t := by
  unfold Mach.goOn
  extract_lets rest pc
  split
  · exact Mach.fpstatOf_leaveClause m c ps
  · split
    · exact Mach.fpstatOf_leaveClause m c _
    · exact Mach.fpstatOf_updTask m c.t _ fun _ => Task.fpstat_addPaths ps _

theorem Mach.fpstatOf_settle (m : Mach) (c : Issue) {x : Warp} {k : Task}
    (hx : m.warps.get? (warpKey c.tk c.w) = some x) (ht : x.task = some c.t) (hk : m.tasks.get? c.t = some k)
    (hs : k.st = .running c.w) : (m.settle c.tk c.w).fpstatOf c.t = m.fpstatOf c.t := by
  unfold Mach.settle
  by_cases hf : x.st = .free
  · simp only [hx, Option.filter_some, hf, ne_eq, not_true_eq_false, decide_false, Bool.false_eq_true, if_false, Option.bind_none]
  simp -zeta only [hx, Option.filter_some, ne_eq, hf, not_false_eq_true, decide_true, if_true, Option.bind_some, ht, hk, hs]
  split
  · rfl
  split
  · rfl
  split
  · split
    · exact Mach.fpstatOf_updTask m c.t _ fun _ => rfl
    · rfl
  · rfl

/-! ## An instruction past its checks -/

/-- What becomes of the issuing path after an effect. -/
def Mach.follow (m : Mach) (c : Issue) (n : Nat) : Flow → Mach
  | .on moved ps => m.goOn c n moved ps
  | .stop st => m.stopPath c st
  | .gone => m

/-- Everything `issue` does once every check has passed. -/
theorem Mach.issue_ok {m : Mach} {i : Instr} {stay : Issue → Lanes → Lanes} {chk : Issue → Lanes → Chk}
    {eff : Issue → Lanes → Mach → Flow × Mach} {c : Issue} (hp : m.issuing = some c)
    (hl : checks c (Instr.shape i) (c.active i) = none)
    (hr : c.active i = 0 → (Instr.shape i).lat = .l → m.flagRoom c (Instr.shape i) = true)
    (hc : c.active i ≠ 0 → chk c (c.active i) = .ok)
    (hn : m.fallThrough c (Instr.bytes i) (stay c (c.active i)) (c.active i) = none) :
    m.issue i stay chk eff =
      (((eff c (c.active i) (m.issuedWith c i)).2.follow c (Instr.bytes i)
        (eff c (c.active i) (m.issuedWith c i)).1).settle c.tk c.w) := by
  have hc' : (if c.active i = 0 then
      (if (Instr.shape i).lat = .l && !m.flagRoom c (Instr.shape i) then Chk.wait else .ok) else chk c (c.active i)) = .ok := by
    split_ifs with h h'
    · simp only [Bool.and_eq_true, decide_eq_true_eq, Bool.not_eq_true'] at h'
      rw [hr h h'.1] at h'; exact absurd h'.2 (by decide)
    · rfl
    · exact hc h
  unfold Issue.active at *
  unfold Mach.issue
  simp only [hp, hl, hc', hn]
  rcases h : eff c (activeLanes c.f c.p.lanes (Instr.shape i).ctl.guard) (m.issuedWith c i) with ⟨fl, m'⟩
  unfold Mach.issuedWith at h
  rw [h]
  cases fl <;> rfl

theorem Mach.task_updTask {m : Mach} {t : Nat} {k : Task} (f : Task → Task) (hk : m.tasks.get? t = some k) :
    (m.updTask t f).tasks.get? t = some (f k) := by simp [Mach.updTask, hk]

theorem Mach.warp_updWarp {m : Mach} {tk w : Nat} {x : Warp} (f : Warp → Warp)
    (hx : m.warps.get? (warpKey tk w) = some x) : (m.updWarp tk w f).warps.get? (warpKey tk w) = some (f x) := by
  simp [Mach.updWarp, hx]

/-- The warp and task of a path stand in a machine as `settle` asks for. -/
structure Mach.Runs (m : Mach) (c : Issue) : Prop where
  warp : ∃ x, m.warps.get? (warpKey c.tk c.w) = some x ∧ x.task = some c.t
  task : ∃ k, m.tasks.get? c.t = some k ∧ k.st = .running c.w

theorem Mach.runs_issuing {m : Mach} {c : Issue} (hp : m.issuing = some c) : m.Runs c := by
  obtain ⟨tm, l, x, k, -, -, -, hx, ht, hk, -, -, -, -, -, -, hs, -⟩ := Mach.issuing_eq hp
  exact ⟨⟨x, hx, ht⟩, ⟨k, hk, hs⟩⟩

theorem Mach.Runs.updTask {m : Mach} {c : Issue} (h : m.Runs c) (f : Task → Task) (hf : ∀ k, (f k).st = k.st) :
    (m.updTask c.t f).Runs c := by
  obtain ⟨k, hk, hs⟩ := h.task
  exact ⟨h.warp, ⟨f k, Mach.task_updTask f hk, (hf k).trans hs⟩⟩

theorem Mach.Runs.updWarp {m : Mach} {c : Issue} (h : m.Runs c) (f : Warp → Warp) (hf : ∀ x, (f x).task = x.task) :
    (m.updWarp c.tk c.w f).Runs c := by
  obtain ⟨x, hx, ht⟩ := h.warp
  exact ⟨⟨f x, Mach.warp_updWarp f hx, (hf x).trans ht⟩, h.task⟩

theorem Mach.Runs.issuedWith {m : Mach} {c : Issue} (h : m.Runs c) (i : Instr) : (m.issuedWith c i).Runs c := by
  have h1 := h.updTask (fun k => { k with watch := 0, lastIssue := m.serial }) fun _ => rfl
  have h2 := h1.updWarp (fun x => { x with lastIssue := m.serial }) fun _ => rfl
  have h3 : (m.issued c).Runs c := ⟨h2.warp, h2.task⟩
  exact h3.updTask _ fun _ => rfl

theorem OwnOnly.issuedWith (m : Mach) (c : Issue) (i : Instr) : OwnOnly m (m.issuedWith c i) c :=
  (OwnOnly.issued m c).trans (OwnOnly.latched _ c _)

theorem Task.st_addPaths (ps : List Path) (k : Task) : (ps.foldl Task.addPath k).st = k.st := by
  induction ps generalizing k with
  | nil => rfl
  | cons p ps ih => rw [List.foldl_cons, ih]; unfold Task.addPath; split_ifs <;> rfl

theorem Mach.Runs.leaveClause {m : Mach} {c : Issue} (h : m.Runs c) (ps : List Path) : (m.leaveClause c ps).Runs c := by
  have h1 := h.updTask (fun k => ps.foldl Task.addPath { k.dropLatch c.p with run := none }) fun k => Task.st_addPaths ps _
  exact ⟨h1.warp, h1.task⟩

theorem Mach.Runs.goOn {m : Mach} {c : Issue} (h : m.Runs c) (n : Nat) (l : Lanes) (ps : List Path) :
    (m.goOn c n l ps).Runs c := by
  unfold Mach.goOn
  extract_lets rest pc
  split
  · exact h.leaveClause _
  · split
    · exact h.leaveClause _
    · exact h.updTask _ fun k => Task.st_addPaths ps _

theorem OwnOnly.settled {m : Mach} {c : Issue} (h : m.Runs c) : OwnOnly m (m.settle c.tk c.w) c := by
  obtain ⟨⟨x, hx, ht⟩, ⟨k, hk, hs⟩⟩ := h
  exact OwnOnly.settle m c hx ht hk hs

theorem Mach.fpstatOf_settled {m : Mach} {c : Issue} (h : m.Runs c) :
    (m.settle c.tk c.w).fpstatOf c.t = m.fpstatOf c.t := by
  obtain ⟨⟨x, hx, ht⟩, ⟨k, hk, hs⟩⟩ := h
  exact Mach.fpstatOf_settle m c hx ht hk hs

/-- A path that goes on, settled. -/
theorem OwnOnly.finish {m : Mach} {c : Issue} (h : m.Runs c) (n : Nat) (l : Lanes) (ps : List Path) :
    OwnOnly m ((m.goOn c n l ps).settle c.tk c.w) c :=
  (OwnOnly.goOn m c n l ps).trans (OwnOnly.settled (h.goOn n l ps))

theorem Mach.fpstatOf_finish {m : Mach} {c : Issue} (h : m.Runs c) (n : Nat) (l : Lanes) (ps : List Path) :
    ((m.goOn c n l ps).settle c.tk c.w).fpstatOf c.t = m.fpstatOf c.t := by
  rw [Mach.fpstatOf_settled (h.goOn n l ps), Mach.fpstatOf_goOn]

/-! ## Registers -/

/-- What a register reads after one write. -/
theorem Frame.reg_setReg (f : Frame) (r n q k : Nat) (v : Word) (hn : n < 32) (hk : k < 32) :
    (f.setReg r n v).reg q k = if q = r ∧ k = n then v else f.reg q k := by
  unfold Frame.setReg Frame.reg
  simp only [Sparse.getD_norm]
  by_cases h : q = r ∧ k = n
  · rw [if_pos h, if_pos (by rw [h.1, h.2])]
  · rw [if_neg h, if_neg (by intro e; apply h; omega)]

theorem Frame.rest_setReg (f : Frame) (r n : Nat) (v : Word) : (f.setReg r n v).rest = f.rest := rfl

/-- What a register reads after the words of one lane's result. -/
theorem Frame.reg_words (ws : List Word) (f : Frame) (d n q k i : Nat) (hn : n < 32) (hk : k < 32) :
    ((ws.zipIdx i).foldl (fun f w => f.setReg (d + w.2) n w.1) f).reg q k =
      if k = n ∧ d + i ≤ q ∧ q < d + i + ws.length then ws.getD (q - d - i) 0 else f.reg q k := by
  induction ws generalizing f i with
  | nil => simp
  | cons w ws ih =>
    simp only [List.zipIdx_cons, List.foldl_cons, ih, Frame.reg_setReg _ _ _ _ _ _ hn hk, List.length_cons]
    by_cases h1 : k = n
    · by_cases h2 : q = d + i
      · subst h2; simp [h1]
      · by_cases h3 : d + (i + 1) ≤ q ∧ q < d + (i + 1) + ws.length
        · have e : q - d - i = (q - d - (i + 1)) + 1 := by omega
          rw [if_pos ⟨h1, h3⟩, if_pos ⟨h1, by omega⟩, e, List.getD_cons_succ]
        · rw [if_neg (fun h => h3 h.2), if_neg (fun h => h2 h.1), if_neg (by omega)]
    · simp [h1]

theorem Frame.rest_words (ws : List (Word × Nat)) (f : Frame) (d n : Nat) :
    (ws.foldl (fun f w => f.setReg (d + w.2) n w.1) f).rest = f.rest := by
  induction ws generalizing f with
  | nil => rfl
  | cons w ws ih => rw [List.foldl_cons, ih]; rfl

theorem Frame.rest_writeRes (f : Frame) (d : Nat) (rs : List (Nat × Res)) : (f.writeRes d rs).rest = f.rest := by
  unfold Frame.writeRes
  induction rs generalizing f with
  | nil => rfl
  | cons r rs ih => rw [List.foldl_cons, ih, Frame.rest_words]

/-- What a register reads after the results of lanes, each lane's given by g. -/
theorem Frame.reg_writeRes (ns : List Nat) (f : Frame) (d q k : Nat) (g : Nat → Res) (hk : k < 32)
    (hs : ∀ n ∈ ns, n < 32) :
    (f.writeRes d (ns.map fun n => (n, g n))).reg q k =
      if k ∈ ns ∧ d ≤ q ∧ q < d + (g k).ws.length then (g k).ws.getD (q - d) 0 else f.reg q k := by
  unfold Frame.writeRes
  induction ns generalizing f with
  | nil => simp
  | cons n ns ih =>
    simp only [List.map_cons, List.foldl_cons]
    rw [ih _ (fun x hx => hs x (List.mem_cons_of_mem n hx)),
      Frame.reg_words _ _ _ _ _ _ _ (hs n List.mem_cons_self) hk]
    by_cases h1 : k ∈ ns ∧ d ≤ q ∧ q < d + (g k).ws.length
    · rw [if_pos h1, if_pos ⟨List.mem_cons_of_mem n h1.1, h1.2⟩]
    · rw [if_neg h1]
      by_cases h2 : k = n
      · subst h2; simp
      · simp only [h2, false_and, if_false, List.mem_cons, false_or, if_neg h1]

theorem mem_laneList {l : Lanes} {n : Nat} : n ∈ laneList l ↔ n < 32 ∧ l.getLsbD n = true := by
  simp [laneList]

/-- Everything `act` does once every check has passed. -/
theorem Mach.act_ok {m : Mach} {i : Instr} {chk : Issue → Lanes → Chk} {eff : Issue → Lanes → Mach → Mach} {c : Issue}
    (hp : m.issuing = some c) (hl : checks c (Instr.shape i) (c.active i) = none)
    (hr : c.active i = 0 → (Instr.shape i).lat = .l → m.flagRoom c (Instr.shape i) = true)
    (hc : c.active i ≠ 0 → chk c (c.active i) = .ok)
    (hn : m.fallThrough c (Instr.bytes i) c.p.lanes (c.active i) = none) :
    m.act i chk eff =
      ((if c.active i = 0 then m.issuedWith c i else eff c (c.active i) (m.issuedWith c i)).goOn c (Instr.bytes i) 0
        []).settle c.tk c.w :=
  Mach.issue_ok hp hl hr hc hn

theorem Mach.fpstatOf_issuedWith (m : Mach) (c : Issue) (i : Instr) : (m.issuedWith c i).fpstatOf c.t = m.fpstatOf c.t := by
  rw [Mach.issuedWith, Mach.fpstatOf_latched, Mach.fpstatOf_issued]

@[simp] theorem Mach.frames_issuedWith (m : Mach) (c : Issue) (i : Instr) : (m.issuedWith c i).frames = m.frames := by
  rw [Mach.issuedWith, Mach.frames_latched, Mach.frames_issued]

theorem Mach.frame_issuing {m : Mach} {c : Issue} (hp : m.issuing = some c) : m.frames.get? c.p.frame = some c.f := by
  obtain ⟨_, _, _, _, -, -, -, -, -, -, -, h, -⟩ := Mach.issuing_eq hp
  exact h

/-- The results of a register instruction land in its frame, and nothing else but the path's own things changes. -/
theorem Mach.land {m : Mach} {c : Issue} (hr : m.Runs c) (hf : m.frames.get? c.p.frame = some c.f) (n d : Nat)
    (rs : List (Nat × Res)) :
    let t := ((((m.updFrame c.p.frame fun f => f.writeRes d rs).orFpstat c.t (fpOf rs)).goOn c n 0 []).settle c.tk c.w)
    OwnOnly m t c ∧ t.frames.get? c.p.frame = some (c.f.writeRes d rs) ∧ t.fpstatOf c.t = m.fpstatOf c.t ||| fpOf rs := by
  intro t
  have h1 : OwnOnly m (m.updFrame c.p.frame fun f => f.writeRes d rs) c :=
    OwnOnly.updFrame m c _ fun f => Frame.rest_writeRes f d rs
  have hr1 : (m.updFrame c.p.frame fun f => f.writeRes d rs).Runs c := ⟨hr.warp, hr.task⟩
  have hr2 : ((m.updFrame c.p.frame fun f => f.writeRes d rs).orFpstat c.t (fpOf rs)).Runs c := hr1.updTask _ fun _ => rfl
  refine ⟨(h1.trans (OwnOnly.orFpstat _ c _)).trans (OwnOnly.finish hr2 n 0 []), ?_, ?_⟩
  · show (Mach.settle _ _ _).frames.get? _ = _
    rw [Mach.frames_settle, Mach.frames_goOn, Mach.frames_orFpstat]
    simp [Mach.updFrame, hf]
  · show (Mach.settle _ _ _).fpstatOf _ = _
    rw [Mach.fpstatOf_finish hr2]
    obtain ⟨k, hk, -⟩ := hr.task
    have hk1 : (m.updFrame c.p.frame fun f => f.writeRes d rs).tasks.get? c.t = some k := hk
    simp [Mach.fpstatOf, Mach.orFpstat, Mach.task_updTask _ hk1, hk]

/-- Everything a register instruction does once every check has passed: results in the frame's registers, FPSTAT bits set,
and nothing else but the path's own things. -/
theorem Mach.alu_ok {m : Mach} {i : Instr} {c : Issue} (g : Lanes → (Nat → Args) → Nat → Res)
    (hp : m.issuing = some c) (hl : checks c (Instr.shape i) (c.active i) = none)
    (hr : c.active i = 0 → (Instr.shape i).lat = .l → m.flagRoom c (Instr.shape i) = true)
    (hn : m.fallThrough c (Instr.bytes i) c.p.lanes (c.active i) = none) :
    OwnOnly m (m.alu i g) c ∧
      (m.alu i g).frames.get? c.p.frame = some (c.f.writeRes (Opd.base (Instr.shape i).d)
        ((laneList (c.active i)).map fun n => (n, g (c.active i) (argsOf c.f (Instr.shape i)) n))) ∧
      (m.alu i g).fpstatOf c.t = m.fpstatOf c.t |||
        fpOf ((laneList (c.active i)).map fun n => (n, g (c.active i) (argsOf c.f (Instr.shape i)) n)) := by
  have hw := (Mach.runs_issuing hp).issuedWith i
  have hf : (m.issuedWith c i).frames.get? c.p.frame = some c.f := by
    rw [Mach.frames_issuedWith]; exact Mach.frame_issuing hp
  have hown := OwnOnly.issuedWith m c i
  have hfp := Mach.fpstatOf_issuedWith m c i
  unfold Mach.alu
  rw [Mach.act_ok hp hl hr (fun _ => rfl) hn]
  generalize m.issuedWith c i = m1 at *
  by_cases h0 : c.active i = 0
  · have e : laneList (c.active i) = [] := by rw [h0]; decide
    rw [if_pos h0, e]
    refine ⟨hown.trans (OwnOnly.finish hw _ _ _), ?_, ?_⟩
    · rw [Mach.frames_settle, Mach.frames_goOn, hf]; rfl
    · rw [Mach.fpstatOf_finish hw, hfp]; simp [fpOf]
  · rw [if_neg h0]
    obtain ⟨h1, h2, h3⟩ := Mach.land hw hf (Instr.bytes i) (Opd.base (Instr.shape i).d)
      ((laneList (c.active i)).map fun n => (n, g (c.active i) (argsOf c.f (Instr.shape i)) n))
    exact ⟨hown.trans h1, h2, by rw [h3, hfp]⟩

end Sys2Proof.Machine
end

