-- ==== Sys2Proof/Laws/Shared.lean ====
section
/-! SUPPORT. One law for each shared shape of an instruction: what it does from a state in which it issues with every check
passed. -/

namespace Sys2Proof.Machine

/-- An instruction of which every lane goes on. -/
theorem State.act_goesOn {s : State} {i : Instr} {c : Issue} {chk : Issue → Lanes → Chk} {eff : Issue → Lanes → Mach → Mach}
    {f : Mach → Mach} (hf : f s.m = s.m.act i chk eff) (h : Issues s i c) (ha : c.active i ≠ 0)
    (hc : chk c (c.active i) = .ok) : s.on f = .next (s.goesOn c i (eff c (c.active i) (s.start c i))) := by
  unfold State.on
  rw [hf, Mach.act_ok h.path h.legal h.idle (fun _ => hc) h.next, if_neg ha]
  rfl

/-- An instruction of which every lane goes on, whichever lanes are active, where its checks ask for nothing. -/
theorem State.act_any {s : State} {i : Instr} {c : Issue} {eff : Issue → Lanes → Mach → Mach} {f : Mach → Mach}
    (hf : f s.m = s.m.act i (fun _ _ => .ok) eff) (h : Issues s i c) :
    s.on f = .next (s.goesOn c i (if c.active i = 0 then s.start c i else eff c (c.active i) (s.start c i))) := by
  unfold State.on
  rw [hf, Mach.act_ok h.path h.legal h.idle (fun _ => rfl) h.next]
  rfl

/-- An instruction that lanes of the path leave. -/
theorem State.issue_splits {s : State} {i : Instr} {c : Issue} {stay : Issue → Lanes → Lanes} {chk : Issue → Lanes → Chk}
    {eff : Issue → Lanes → Mach → Flow × Mach} {f : Mach → Mach} (hf : f s.m = s.m.issue i stay chk eff)
    (h : IssuesTo s i c (stay c (c.active i))) (hc : c.active i ≠ 0 → chk c (c.active i) = .ok) {moved : Lanes}
    {ps : List Path} {m' : Mach} (he : eff c (c.active i) (s.start c i) = (.on moved ps, m')) :
    s.on f = .next (s.splits c i moved ps m') := by
  unfold State.on
  rw [hf, Mach.issue_ok h.path h.legal h.idle hc h.next]
  rw [State.start] at he
  rw [he]
  rfl

/-- An instruction whose path stops. -/
theorem State.issue_stops {s : State} {i : Instr} {c : Issue} {stay : Issue → Lanes → Lanes} {chk : Issue → Lanes → Chk}
    {eff : Issue → Lanes → Mach → Flow × Mach} {f : Mach → Mach} (hf : f s.m = s.m.issue i stay chk eff)
    (h : IssuesTo s i c (stay c (c.active i))) (hc : c.active i ≠ 0 → chk c (c.active i) = .ok) {st : PathSt} {m' : Mach}
    (he : eff c (c.active i) (s.start c i) = (.stop st, m')) : s.on f = .next (s.stops c st m') := by
  unfold State.on
  rw [hf, Mach.issue_ok h.path h.legal h.idle hc h.next]
  rw [State.start] at he
  rw [he]
  rfl

/-- An instruction that ends its task. -/
theorem State.issue_gone {s : State} {i : Instr} {c : Issue} {stay : Issue → Lanes → Lanes} {chk : Issue → Lanes → Chk}
    {eff : Issue → Lanes → Mach → Flow × Mach} {f : Mach → Mach} (hf : f s.m = s.m.issue i stay chk eff)
    (h : IssuesTo s i c (stay c (c.active i))) (hc : c.active i ≠ 0 → chk c (c.active i) = .ok) {m' : Mach}
    (he : eff c (c.active i) (s.start c i) = (.gone, m')) : s.on f = .next { s with m := m'.settle c.tk c.w } := by
  unfold State.on
  rw [hf, Mach.issue_ok h.path h.legal h.idle hc h.next]
  rw [State.start] at he
  rw [he]
  rfl

/-- A long-latency instruction with room on its flag goes under way. -/
theorem State.long_underWay {s : State} {i : Instr} {c : Issue} {counted : Bool} {chk : Issue → Lanes → Chk}
    {kind : Issue → Lanes → Mach → OpKind × Mach} {f : Mach → Mach} (hf : f s.m = s.m.long i counted chk kind)
    (h : LongIssues s i c) (hc : chk c (c.active i) = .ok) :
    s.on f = .next (s.underWay c i counted (kind c (c.active i) (s.start c i)).1 (kind c (c.active i) (s.start c i)).2) := by
  unfold Mach.long at hf
  rw [State.act_goesOn hf h.toIssues h.some (by simp only [hc, h.room, if_true])]
  rfl

/-- A register instruction. -/
theorem State.alu_regs {s : State} {i : Instr} {c : Issue} (g : Lanes → (Nat → Args) → Nat → Res) (h : Issues s i c) :
    ∃ t, s.on (fun m => m.alu i g) = .next t ∧ Writes s t c i g := by
  obtain ⟨h1, h2, h3⟩ := Mach.alu_ok g h.path h.legal h.idle h.next
  refine ⟨_, rfl, ⟨rfl, rfl, rfl, fun a => ?_, fun k a => ?_, h1⟩, h3, fun r n hn => ?_⟩
  · have := congrArg (fun x : Mach => Memory.read x.mem a) h1.other
    exact this
  · have := h1.teams k
    simp only [State.lsByte]
    cases e1 : (s.m.alu i g).team? k <;> cases e2 : s.m.team? k <;> simp_all [Team.rest]
  · have hf := Mach.frame_issuing h.path
    simp only [State.reg, h2, hf, Option.map_some, Option.getD_some]
    rw [Frame.reg_writeRes _ _ _ _ _ _ hn (fun x hx => (mem_laneList.mp hx).1)]
    simp [mem_laneList, hn]

/-- A register instruction whose result is one word: D of an active lane receives it, every other register stays. -/
theorem Writes.word {s t : State} {c : Issue} {i : Instr} {g : Lanes → (Nat → Args) → Nat → Word}
    (h : Writes s t c i fun act v n => res32 (g act v n)) :
    t.fpstat c.t = s.fpstat c.t ∧
      (∀ n < 32, (c.active i).getLsbD n = true → t.reg c.p.frame (Opd.base (Instr.shape i).d) n =
        g (c.active i) (argsOf c.f (Instr.shape i)) n) ∧
      ∀ r n, n < 32 → ¬((c.active i).getLsbD n = true ∧ r = Opd.base (Instr.shape i).d) →
        t.reg c.p.frame r n = s.reg c.p.frame r n := by
  refine ⟨?_, fun n hn ha => ?_, fun r n hn hne => ?_⟩
  · rw [h.fpstat]
    have : ∀ (ns : List Nat) (f : Nat → Word) (a : Word),
        (ns.map fun n => (n, res32 (f n))).foldl (fun a r => a ||| r.2.fp) a = a := by
      intro ns f
      induction ns with
      | nil => intro a; rfl
      | cons x xs ih => intro a; simpa [res32] using ih a
    rw [fpOf, this]; simp
  · rw [h.regs _ _ hn]
    simp [ha, res32]
  · rw [h.regs _ _ hn]
    refine if_neg ?_
    rintro ⟨h1, h2, h3⟩
    exact hne ⟨h1, by simp only [res32, List.length_singleton] at h3; omega⟩

/-- A register of the issuing path's frame. -/
theorem Issues.reg {s : State} {i : Instr} {c : Issue} (h : Issues s i c) (r n : Nat) :
    c.f.reg r n = s.reg c.p.frame r n := by simp [State.reg, Mach.frame_issuing h.path]

end Sys2Proof.Machine
end

