-- ==== Sys2Proof/Laws/Still.lean ====
section
/-! SUPPORT. Which shared operations leave memory, local stores, registers, accumulators and special registers alone. -/

namespace Sys2Proof.Machine

theorem Still.refl (m : Mach) : Still m m :=
  ⟨fun _ => rfl, fun _ => rfl, fun _ => rfl, fun _ => rfl, fun _ x h => ⟨x, h, rfl, rfl⟩, fun _ => rfl, rfl, rfl⟩

theorem Still.trans {a b c : Mach} (h : Still a b) (g : Still b c) : Still a c := by
  refine ⟨fun k => (g.mem k).trans (h.mem k), fun k => (g.ls k).trans (h.ls k), fun k => (g.regs k).trans (h.regs k),
    fun k => (g.acc k).trans (h.acc k), fun k x hx => ?_, fun k => (g.teams k).trans (h.teams k),
    g.control.1.trans h.control.1, g.control.2.trans h.control.2⟩
  obtain ⟨y, hy, h1, h2⟩ := g.tasks k x hx
  obtain ⟨z, hz, h3, h4⟩ := h.tasks k y hy
  exact ⟨z, hz, h1.trans h3, h2.trans h4⟩

/-- What no field that Still names reads: a change of the other fields of the machine. -/
theorem Still.of_eq {m n : Mach} (h1 : n.mem = m.mem) (h2 : n.teams = m.teams) (h3 : n.frames = m.frames)
    (h4 : n.cores = m.cores) (h5 : n.tasks = m.tasks) (h6 : n.svctl = m.svctl) (h7 : n.rplctl = m.rplctl) : Still m n := by
  refine ⟨fun _ => by rw [h1], fun _ => by rw [Mach.team?, Mach.team?, h2], fun _ => by rw [h3],
    fun _ => by rw [Mach.core, Mach.core, h4], fun _ x hx => ⟨x, by rw [← h5]; exact hx, rfl, rfl⟩,
    fun _ => by rw [Mach.team?, Mach.team?, h2], h6, h7⟩

theorem Still.updTask (m : Mach) (t : Nat) (f : Task → Task) (hf : ∀ k, (f k).fpstat = k.fpstat ∧ (f k).prio = k.prio) :
    Still m (m.updTask t f) := by
  refine ⟨fun _ => rfl, fun _ => rfl, fun _ => rfl, fun _ => rfl, fun k x hx => ?_, fun _ => rfl, rfl, rfl⟩
  simp only [Mach.updTask, Sparse.get?_upd] at hx
  split_ifs at hx
  · obtain ⟨y, hy, rfl⟩ := Option.map_eq_some_iff.mp hx
    exact ⟨y, hy, hf y⟩
  · exact ⟨x, hx, rfl, rfl⟩

theorem Still.delTask (m : Mach) (t : Nat) : Still m { m with tasks := m.tasks.del t } := by
  refine ⟨fun _ => rfl, fun _ => rfl, fun _ => rfl, fun _ => rfl, fun k x hx => ?_, fun _ => rfl, rfl, rfl⟩
  simp only [Sparse.get?_del] at hx
  split_ifs at hx
  exact ⟨x, hx, rfl, rfl⟩

theorem Still.putTask (m : Mach) (t : Nat) {k k' : Task} (hk : m.tasks.get? t = some k) (h1 : k'.fpstat = k.fpstat)
    (h2 : k'.prio = k.prio) : Still m { m with tasks := m.tasks.put t k' } := by
  refine ⟨fun _ => rfl, fun _ => rfl, fun _ => rfl, fun _ => rfl, fun j x hx => ?_, fun _ => rfl, rfl, rfl⟩
  simp only [Sparse.get?_put] at hx
  split_ifs at hx with h
  · subst h; cases hx; exact ⟨k, hk, h1, h2⟩
  · exact ⟨x, hx, rfl, rfl⟩

theorem Still.updWarp (m : Mach) (tk w : Nat) (f : Warp → Warp) : Still m (m.updWarp tk w f) :=
  Still.of_eq rfl rfl rfl rfl rfl rfl rfl

theorem Still.updLaunch (m : Mach) (l : Nat) (f : Launch → Launch) : Still m (m.updLaunch l f) :=
  Still.of_eq rfl rfl rfl rfl rfl rfl rfl

theorem Still.updTeam (m : Mach) (tk : Nat) (f : Team → Team)
    (hf : ∀ t, (f t).ls = t.ls ∧ (f t).xsteal = t.xsteal ∧ (f t).trapvec = t.trapvec) : Still m (m.updTeam tk f) := by
  refine ⟨fun _ => rfl, fun k => ?_, fun _ => rfl, fun _ => rfl, fun _ x h => ⟨x, h, rfl, rfl⟩, fun k => ?_, rfl, rfl⟩ <;>
    simp only [Mach.updTeam, Mach.team?, Sparse.get?_upd] <;> split_ifs <;> simp [hf, Function.comp_def]

theorem Still.updCore (m : Mach) (n : Nat) (f : Core → Core) (hf : ∀ k, (f k).acc = k.acc) : Still m (m.updCore n f) := by
  refine ⟨fun _ => rfl, fun _ => rfl, fun _ => rfl, fun k => ?_, fun _ x h => ⟨x, h, rfl, rfl⟩, fun _ => rfl, rfl, rfl⟩
  simp only [Mach.updCore, Mach.core, Sparse.getD, Sparse.get?_put]
  split_ifs with h
  · subst h; exact hf _
  · rfl

theorem Still.updFrame (m : Mach) (n : Nat) (f : Frame → Frame) (hf : ∀ k, (f k).regs = k.regs) : Still m (m.updFrame n f) := by
  refine ⟨fun _ => rfl, fun _ => rfl, fun k => ?_, fun _ => rfl, fun _ x h => ⟨x, h, rfl, rfl⟩, fun _ => rfl, rfl, rfl⟩
  simp only [Mach.updFrame, Sparse.get?_upd]
  split_ifs
  · simp [hf, Function.comp_def]
  · rfl

theorem Task.kept_addPaths (ps : List Path) (k : Task) :
    (ps.foldl Task.addPath k).fpstat = k.fpstat ∧ (ps.foldl Task.addPath k).prio = k.prio := by
  induction ps generalizing k with
  | nil => exact ⟨rfl, rfl⟩
  | cons p ps ih => rw [List.foldl_cons]; unfold Task.addPath at ih ⊢; split_ifs <;> exact ih _

theorem Still.tookCycle (m : Mach) (c : Issue) : Still m (m.tookCycle c) := by
  unfold Mach.tookCycle
  extract_lets m1
  have h1 : Still m m1 := Still.updWarp m _ _ _
  have h2 : ∀ k, Still m1 (m1.spendCycle c.core k) := fun k => Still.updCore m1 _ _ fun _ => rfl
  exact (h1.trans (h2 _)).trans (Still.of_eq rfl rfl rfl rfl rfl rfl rfl)

theorem Still.issuedWith (m : Mach) (c : Issue) (i : Instr) : Still m (m.issuedWith c i) := by
  have h1 : Still m (m.updTask c.t fun k => { k with watch := 0, lastIssue := m.serial }) :=
    Still.updTask m _ _ fun _ => ⟨rfl, rfl⟩
  exact (h1.trans (Still.tookCycle _ c)).trans (Still.updTask _ _ _ fun _ => ⟨rfl, rfl⟩)

theorem Still.leaveClause (m : Mach) (c : Issue) (ps : List Path) : Still m (m.leaveClause c ps) := by
  unfold Mach.leaveClause
  extract_lets m1
  have h1 : Still m m1 := Still.updTask m _ _ fun k => ⟨(Task.kept_addPaths ps _).1, (Task.kept_addPaths ps _).2⟩
  exact h1.trans (Still.updTeam m1 _ _ fun _ => ⟨rfl, rfl, rfl⟩)

theorem Still.goOn (m : Mach) (c : Issue) (n : Nat) (l : Lanes) (ps : List Path) : Still m (m.goOn c n l ps) := by
  unfold Mach.goOn
  extract_lets
  split
  · exact Still.leaveClause m c ps
  · split
    · exact Still.leaveClause m c _
    · exact Still.updTask m _ _ fun k => Task.kept_addPaths ps _

theorem Still.stopPath (m : Mach) (c : Issue) (st : PathSt) : Still m (m.stopPath c st) := by
  unfold Mach.stopPath
  exact Still.updTask m _ _ fun k => by
    dsimp only
    split <;> exact ⟨rfl, rfl⟩

theorem Still.settle (m : Mach) (tk w : Nat) : Still m (m.settle tk w) := by
  unfold Mach.settle
  split
  · exact Still.refl m
  split
  · exact Still.updWarp m _ _ _
  split
  · split
    · exact (Still.updWarp m _ _ _).trans (Still.delTask _ _)
    · exact Still.refl m
  · split
    · exact Still.updWarp m _ _ _
    split
    · exact Still.refl m
    split
    · split
      · extract_lets m1 m2 m3
        have h1 : Still m m1 := Still.updTask m _ _ fun _ => ⟨rfl, rfl⟩
        have h2 : Still m1 m2 := Still.of_eq rfl rfl rfl rfl rfl rfl rfl
        have h3 : Still m2 m3 := Still.updTeam m2 _ _ fun _ => ⟨rfl, rfl, rfl⟩
        exact ((h1.trans h2).trans h3).trans (Still.updWarp m3 _ _ _)
      · exact Still.refl m
    · exact Still.updWarp m _ _ _

/-- An instruction whose effect leaves everything alone leaves it alone as it issues and goes on. -/
theorem Quiet.goesOn {s : State} {c : Issue} {i : Instr} {m : Mach} (h : Still (s.start c i) m) : Quiet s (s.goesOn c i m) :=
  ⟨rfl, rfl, (((Still.issuedWith s.m c i).trans h).trans (Still.goOn m _ _ _ _)).trans (Still.settle _ _ _)⟩

theorem Quiet.splits {s : State} {c : Issue} {i : Instr} {m : Mach} (l : Lanes) (ps : List Path) (h : Still (s.start c i) m) :
    Quiet s (s.splits c i l ps m) :=
  ⟨rfl, rfl, (((Still.issuedWith s.m c i).trans h).trans (Still.goOn m _ _ _ _)).trans (Still.settle _ _ _)⟩

theorem Quiet.stops {s : State} {c : Issue} {i : Instr} {m : Mach} (st : PathSt) (h : Still (s.start c i) m) :
    Quiet s (s.stops c st m) :=
  ⟨rfl, rfl, (((Still.issuedWith s.m c i).trans h).trans (Still.stopPath m _ _)).trans (Still.settle _ _ _)⟩

theorem Frame.regs_markRegs (f : Frame) (rs ls : List Nat) (n : Nat) : (f.markRegs rs ls n).regs = f.regs := rfl

theorem Still.startOp (m : Mach) (c : Issue) (h : Shape) (a : Lanes) (b : Bool) (k : OpKind) : Still m (m.startOp c h a b k) := by
  unfold Mach.startOp
  extract_lets flag op m1 m2
  have h1 : Still m m1 := Still.of_eq rfl rfl rfl rfl rfl rfl rfl
  have h2 : Still m1 m2 := by
    rcases hf : flag with _ | n <;> simp only [m2, hf]
    · exact Still.refl m1
    · have h3 : Still m1 (m1.updTask c.t fun t => t.flagUp n) := Still.updTask m1 _ _ fun _ => ⟨rfl, rfl⟩
      exact h3.trans (Still.updFrame _ _ _ fun _ => rfl)
  split
  · exact (h1.trans h2).trans (Still.updWarp _ _ _ _)
  · exact h1.trans h2

/-- A long-latency instruction leaves everything alone as it issues. -/
theorem Quiet.underWay {s : State} {c : Issue} {i : Instr} {m : Mach} {b : Bool} {k : OpKind} (h : Still (s.start c i) m) :
    Quiet s (s.underWay c i b k m) := Quiet.goesOn (h.trans (Still.startOp m _ _ _ _ _))

theorem Still.fillTlb (m : Mach) (core asid va : Nat) : Still m (m.fillTlb core asid va) := by
  unfold Mach.fillTlb
  split
  · split_ifs
    · extract_lets x m1
      have h1 : Still m m1 := Still.updCore m _ _ fun _ => rfl
      exact h1.trans (Still.of_eq rfl rfl rfl rfl rfl rfl rfl)
    · exact Still.refl m
  · exact Still.refl m

theorem Still.foldl {α : Type} (f : Mach → α → Mach) (hf : ∀ m a, Still m (f m a)) (l : List α) (m : Mach) :
    Still m (l.foldl f m) := by
  induction l generalizing m with
  | nil => exact Still.refl m
  | cons a l ih => exact (hf m a).trans (ih _)

theorem Still.useTlb (m : Mach) (c : Issue) (spc : Spc) (as : List LaneAcc) : Still m (m.useTlb c spc as) := by
  unfold Mach.useTlb
  split
  · exact Still.foldl _ (fun m a => Still.fillTlb m _ _ _) _ _
  · exact Still.refl m

theorem Still.sendMsg (m : Mach) (n : Nat) (b : Bool) (src dst : Nat) : Still m (m.sendMsg n b src dst) := by
  unfold Mach.sendMsg
  extract_lets
  split
  · exact Still.refl m
  · exact Still.of_eq rfl rfl rfl rfl rfl rfl rfl

theorem Still.send (m : Mach) (n core : Nat) (ps : List Place) : Still m (m.send n core ps) :=
  Still.foldl _ (fun m _ => Still.sendMsg m _ _ _ _) _ _

theorem Still.askPeers (m : Mach) (n : Nat) (ps : List Place) : Still m (m.askPeers n ps) :=
  Still.of_eq rfl rfl rfl rfl rfl rfl rfl

theorem Still.noteDemotion (m : Mach) (t : Nat) (flag : Option Nat) (l : Lanes) : Still m (m.noteDemotion t flag l) := by
  unfold Mach.noteDemotion
  split
  · split
    · exact Still.refl m
    · exact Still.updTask m _ _ fun _ => ⟨rfl, rfl⟩
  · exact Still.refl m

theorem Still.released (m : Mach) (t : Nat) (l : Lanes) (sc : Scope) : Still m (m.released t l sc) := by
  unfold Mach.released
  split
  · exact Still.refl m
  · exact Still.updTask m _ _ fun _ => ⟨rfl, rfl⟩

theorem Still.acquire (m : Mach) (core : Nat) (sc : Scope) : Still m (m.acquire core sc) := by
  unfold Mach.acquire
  split
  · exact Still.updCore m _ _ fun _ => rfl
  · exact Still.refl m

theorem Still.wakePaths (m : Mach) (t : Nat) (p : Path → Bool) (f : Path → Path) : Still m (m.wakePaths t p f) := by
  unfold Mach.wakePaths
  split
  · exact Still.refl m
  · rename_i k hk
    split
    · extract_lets left k' m1
      split
      · have h1 : Still m { m with tasks := m.tasks.put t { k' with st := .resumable, order := m.serial } } :=
          Still.putTask m t hk rfl rfl
        have h2 : Still m m1 := h1.trans (Still.of_eq rfl rfl rfl rfl rfl rfl rfl)
        exact h2.trans (Still.updTeam m1 _ _ fun _ => ⟨rfl, rfl, rfl⟩)
      · have h1 : Still m { m with tasks := m.tasks.put t k' } := Still.putTask m t hk rfl rfl
        exact h1.trans (Still.settle _ _ _)
      · exact Still.putTask m t hk rfl rfl
    · exact Still.refl m

theorem Still.endWaits (m : Mach) (tk : Nat) (w : Wait → Bool) : Still m (m.endWaits tk w) := by
  unfold Mach.endWaits
  exact Still.foldl _ (fun m e => Still.wakePaths m _ _ _) _ _

@[simp] theorem Mach.ops_settle (m : Mach) (tk w : Nat) : (m.settle tk w).ops = m.ops := by
  unfold Mach.settle
  split
  · rfl
  split
  · rfl
  split
  · split <;> rfl
  · split
    · rfl
    split
    · rfl
    split
    · split <;> rfl
    · rfl

@[simp] theorem Mach.ops_dropFlag (m : Mach) (n : Nat) (o : Op) (fs : List FaultRec) : (m.dropFlag n o fs).ops = m.ops := by
  unfold Mach.dropFlag
  extract_lets m1
  have : m1.ops = m.ops := by
    simp only [m1]; split
    · split <;> rfl
    · rfl
  split <;> (try rw [Mach.ops_settle]) <;> exact this

theorem Still.dropFlag (m : Mach) (n : Nat) (o : Op) (fs : List FaultRec) : Still m (m.dropFlag n o fs) := by
  unfold Mach.dropFlag
  extract_lets m1
  have h1 : Still m m1 := by
    simp only [m1]; split
    · split
      · exact Still.refl m
      · exact Still.updTask m _ _ fun _ => ⟨rfl, rfl⟩
    · exact Still.refl m
  split
  · exact h1.trans (Still.settle _ _ _)
  · exact h1.trans (Still.settle _ _ _)
  · exact h1

/-- Freeing frames touches neither memory nor local stores nor operations. -/
theorem Mach.freeFrames_rest (m : Mach) (t : Nat) : (m.freeFrames t).mem = m.mem ∧ (m.freeFrames t).teams = m.teams ∧
    (m.freeFrames t).ops = m.ops := by
  unfold Mach.freeFrames
  extract_lets live stays offs m1
  have : m1.mem = m.mem ∧ m1.teams = m.teams ∧ m1.ops = m.ops := by
    simp only [m1]
    split
    · split_ifs <;> exact ⟨rfl, rfl, rfl⟩
    · exact ⟨rfl, rfl, rfl⟩
  exact this

/-- Everything an operation's end does to memory, to local stores and to its own entry. -/
theorem Mach.finishOp_spec (m : Mach) (n : Nat) (fs : List FaultRec) :
    (∀ a, Memory.read (m.finishOp n fs).mem a = Memory.read m.mem a) ∧
    (∀ k, ((m.finishOp n fs).team? k).map (·.ls) = (m.team? k).map (·.ls)) ∧
    (∀ o, m.ops.get? n = some o → (m.finishOp n fs).ops.get? n = none) := by
  unfold Mach.finishOp
  split
  · exact ⟨fun _ => rfl, fun _ => rfl, fun o h => by simp_all⟩
  · rename_i o ho
    extract_lets m1 m2
    have e : m2.mem = m.mem ∧ m2.teams = m.teams ∧ m2.ops = m1.ops := by
      simp only [m2]; split_ifs <;> exact ⟨rfl, rfl, rfl⟩
    have h3 := Still.dropFlag (m2.freeFrames o.task) n o fs
    obtain ⟨f1, f2, f3⟩ := Mach.freeFrames_rest m2 o.task
    refine ⟨fun a => ?_, fun k => ?_, fun o' _ => ?_⟩
    · exact (h3.mem a).trans (by rw [f1, e.1])
    · exact (h3.ls k).trans (by simp only [Mach.team?, f2, e.2.1])
    · show ((m2.freeFrames o.task).dropFlag n o fs).ops.get? n = none
      rw [Mach.ops_dropFlag, f3, e.2.2]; simp [m1, Sparse.get?_del]

end Sys2Proof.Machine
end

