-- ==== Sys2Proof/Laws/Form.lean ====
section
/-! SUPPORT. Every operation over memory keeps the canonical form, local stores included, and reset has it; so does every
operation that gives or ends a number of an operation under way. -/

namespace Sys2Proof.Machine

/-! ## Memory -/

theorem Memory.wf_nil : Memory.wf [] = true := rfl

/-- Zeroing a range keeps the canonical form. -/
theorem Memory.wf_clear (mem : List Host.Cell) (pa n : Nat) (h : Memory.wf mem = true) : Memory.wf (Memory.clear mem pa n) = true :=
  Memory.wf_filter mem _ h

/-- A run of changes that each keep the canonical form keeps it. -/
theorem Memory.wf_foldl {α : Type} (f : List Host.Cell → α → List Host.Cell)
    (hf : ∀ mem a, Memory.wf mem = true → Memory.wf (f mem a) = true) (l : List α) (mem : List Host.Cell)
    (h : Memory.wf mem = true) : Memory.wf (l.foldl f mem) = true := by
  induction l generalizing mem with
  | nil => exact h
  | cons a l ih => exact ih _ (hf mem a h)

/-- A read of memory after a range is zeroed. -/
theorem Memory.read_clear (mem : List Host.Cell) (pa n a : Nat) :
    Memory.read (Memory.clear mem pa n) a = if pa ≤ a ∧ a < pa + n then 0 else Memory.read mem a := by
  unfold Memory.read Sparse.getD Memory.clear
  induction mem with
  | nil => simp [Memory.blank]
  | cons e t ih =>
    obtain ⟨k, v⟩ := e
    rw [List.filter_cons]
    by_cases hk : k < pa ∨ pa + n ≤ k
    · rw [if_pos (by simpa using hk)]
      by_cases ha : a = k
      · subst ha
        have : ¬(pa ≤ a ∧ a < pa + n) := by omega
        simp [Sparse.get?_cons, this]
      · rw [Sparse.get?_cons, Sparse.get?_cons, if_neg ha, if_neg ha]; exact ih
    · rw [if_neg (by simpa using hk)]
      by_cases ha : a = k
      · subst ha
        have : pa ≤ a ∧ a < pa + n := by omega
        rw [if_pos this] at ih ⊢; exact ih
      · rw [Sparse.get?_cons, if_neg ha]; exact ih

/-- Two memories in canonical form list the same cells where they read alike: what a canonical memory lists at an address. -/
theorem Memory.listed (mem : List Host.Cell) (h : Memory.wf mem = true) (a : Nat) (v : Byte) :
    (a, v) ∈ mem → Memory.read mem a = v := by
  rw [Memory.wf_iff] at h
  intro hm
  unfold Memory.read Sparse.getD
  have key : ∀ (t : List Host.Cell), Sparse.wf (α := Byte) t = true → (a, v) ∈ t → Sparse.get? (α := Byte) t a = some v := by
    intro t
    induction t with
    | nil => intro _ h; cases h
    | cons e t ih =>
      intro hw hm
      rw [Sparse.get?_cons]
      rcases List.mem_cons.mp hm with rfl | hm
      · simp
      · have hab : ∀ (lo : Nat) (u : List Host.Cell), Sparse.above (α := Byte) lo u = true → ∀ c ∈ u, lo < c.1 := by
          intro lo u
          induction u generalizing lo with
          | nil => intro _ c hc; cases hc
          | cons c u ihu =>
            intro hu d hd
            simp only [Sparse.above, Bool.and_eq_true, decide_eq_true_eq] at hu
            rcases List.mem_cons.mp hd with rfl | hd
            · exact hu.1
            · exact lt_trans hu.1 (ihu _ hu.2 d hd)
        have := hab e.1 t hw (a, v) hm
        rw [if_neg (by simp only at this; omega)]
        exact ih (Sparse.wf_of_above hw) hm
  rw [key mem h.1 hm]; rfl

/-! ## Operations of the machine over memory -/

theorem Mach.wf_homeWrite (m : Mach) (pa : Nat) (bs : List Byte) (h : Memory.wf m.mem = true) :
    Memory.wf (m.homeWrite pa bs).mem = true := by
  rw [(Mach.homeWrite_spec m pa bs).1]; exact Memory.wf_writeN _ _ _ h

theorem Mach.wf_clearWaitheads (m : Mach) (pa n : Nat) (h : Memory.wf m.mem = true) :
    Memory.wf (m.clearWaitheads pa n).mem = true := Memory.wf_foldl _ (fun _ _ h => Memory.wf_writeN _ _ _ h) _ _ h

theorem Mach.movePoison_rest (m : Mach) (p : Place) (n : Nat) (b : Bool) : (m.movePoison p n b).mem = m.mem ∧
    (m.movePoison p n b).ops = m.ops ∧ (m.movePoison p n b).serial = m.serial := by
  rcases n with _ | n <;> cases p <;> exact ⟨rfl, rfl, rfl⟩

theorem Mach.wf_placeWrite (m : Mach) (p : Place) (bs : List Byte) (h : Memory.wf m.mem = true) :
    Memory.wf (m.placeWrite p bs).mem = true := by
  unfold Mach.placeWrite
  split
  · exact h
  · exact Mach.wf_clearWaitheads _ _ _ (Mach.wf_homeWrite _ _ _ h)
  · rw [(Mach.movePoison_rest _ _ _ _).1]; exact h

theorem Mach.wf_demandFill (m : Mach) (asid va : Nat) (h : Memory.wf m.mem = true) :
    Memory.wf (m.demandFill asid va).mem = true := by
  unfold Mach.demandFill
  split
  · split
    · exact h
    · exact Memory.wf_writeN _ _ _ (Memory.wf_clear _ _ _ h)
  · exact h

theorem Mach.wf_translateServiced (m : Mach) (asid va : Nat) (k : AccKind) (h : Memory.wf m.mem = true) :
    Memory.wf (m.translateServiced asid va k).2.mem = true := by
  unfold Mach.translateServiced
  split
  · exact Mach.wf_demandFill _ _ _ h
  · exact h

theorem Mach.dropPins_mem (m : Mach) (fs : List Nat) : (m.dropPins fs).mem = m.mem := by
  unfold Mach.dropPins
  extract_lets all named pinned uncached cmps ended m1
  exact (Mach.SameButSlices.foldl _ Mach.unpin_slices ended m).mem

theorem Mach.purgeRange_mem (m : Mach) (pa n : Nat) : (m.purgeRange pa n).mem = m.mem := (Mach.flushRange_slices m pa n).mem

theorem Mach.wf_unmap (m : Mach) (asid va size : Nat) (h : Memory.wf m.mem = true) :
    Memory.wf (m.unmap asid va size).mem = true := by
  unfold Mach.unmap
  rw [(Mach.dropPins_mem _ _)]
  exact Memory.wf_foldl _ (fun _ _ h => Memory.wf_writeN _ _ _ h) _ _ h

theorem Mach.wf_forget (m : Mach) (pa n : Nat) (h : Memory.wf m.mem = true) : Memory.wf (m.forget pa n).mem = true :=
  Memory.wf_writeN _ _ _ h

theorem Mach.wf_copyFrame (m : Mach) (old new size : Nat) (h : Memory.wf m.mem = true) :
    Memory.wf (m.copyFrame old new size).mem = true := by
  have e : ((m.purgeRange old size).purgeRange new size).mem = m.mem := by rw [Mach.purgeRange_mem, Mach.purgeRange_mem]
  refine Memory.wf_foldl _ (fun _ _ h => Memory.wf_write _ _ _ h) _ _ (Memory.wf_clear _ _ _ (Memory.wf_clear _ _ _ ?_))
  rw [e]; exact h

theorem Mach.wf_remap (m : Mach) (old new size : Nat) (pages : List (Nat × Nat)) (h : Memory.wf m.mem = true) :
    Memory.wf (m.remap old new size pages).mem = true := Memory.wf_foldl _ (fun _ _ h => Memory.wf_writeN _ _ _ h) _ _ h

theorem Mach.wf_addWaiter (m : Mach) (pa : Nat) (h : Memory.wf m.mem = true) : Memory.wf (m.addWaiter pa).mem = true :=
  Memory.wf_writeN _ _ _ h

theorem wf_mapPath (ls : List (Nat × Nat × Bool)) (mem : List Host.Cell) (used table va leaf : Nat)
    (h : Memory.wf mem = true) : Memory.wf (mapPath mem used table va leaf ls).1 = true := by
  induction ls generalizing mem used table with
  | nil => exact h
  | cons l ls ih =>
    obtain ⟨shift, n, b⟩ := l
    unfold mapPath
    extract_lets a e t
    split
    · exact Memory.wf_writeN _ _ _ h
    · split
      · exact ih _ _ _ h
      · exact ih _ _ _ (Memory.wf_writeN _ _ _ h)

theorem State.wf_mapEntries (s : State) (asid : Nat) (a : MapAttr) (va pa size : Nat) (h : Memory.wf s.m.mem = true) :
    Memory.wf (s.mapEntries asid a va pa size).1 = true := by
  unfold State.mapEntries
  split
  · exact h
  · rename_i c _
    have : ∀ (l : List (Nat × Nat)) (r : List Host.Cell × Nat), Memory.wf r.1 = true →
        Memory.wf (l.foldl (fun r p => mapPath r.1 r.2 c.root p.1 (a.leaf p.2) a.levels) r).1 = true := by
      intro l
      induction l with
      | nil => intro r h; exact h
      | cons p l ih => intro r h; exact ih _ (wf_mapPath _ _ _ _ _ _ h)
    exact this _ _ h

theorem State.wf_restart (s : State) (b : Bool) (h : Memory.wf s.m.mem = true) : Memory.wf (s.restart b).m.mem = true :=
  Memory.wf_filter _ _ h

/-! ## Local stores -/

/-- An update of one team that keeps its local store in canonical form keeps every team's so. -/
theorem Mach.wf_updTeam_ls (m : Mach) (tk : Nat) (f : Team → Team) (hf : ∀ t, Memory.wf t.ls = true → Memory.wf (f t).ls = true)
    (h : ∀ k t, m.team? k = some t → Memory.wf t.ls = true) :
    ∀ k t, (m.updTeam tk f).team? k = some t → Memory.wf t.ls = true := by
  intro k t ht
  rw [show (m.updTeam tk f).team? k = _ from Sparse.get?_upd m.teams tk k _] at ht
  split_ifs at ht with e
  · rcases hx : m.teams.get? k with _ | x <;> rw [hx] at ht
    · cases ht
    · obtain rfl := Option.some.inj ht
      exact hf x (h k x hx)
  · exact h k t ht

/-- Every local store in canonical form. -/
theorem Mach.wf_lsWrite (m : Mach) (tk off : Nat) (bs : List Byte) (h : ∀ k t, m.team? k = some t → Memory.wf t.ls = true) :
    ∀ k t, (m.lsWrite tk off bs).team? k = some t → Memory.wf t.ls = true :=
  m.wf_updTeam_ls tk _ (fun _ ht => Memory.wf_writeN _ _ _ ht) h

/-- So for the cells of byte barriers. -/
theorem Mach.wf_cellWrite (m : Mach) (tk off : Nat) (bs : List Byte) (h : ∀ k t, m.team? k = some t → Memory.wf t.ls = true) :
    ∀ k t, (m.cellWrite tk off bs).team? k = some t → Memory.wf t.ls = true :=
  m.wf_updTeam_ls tk _ (fun _ ht => Memory.wf_writeN _ _ _ ht) h

/-! ## The whole form -/

/-- What changes neither memory nor the operations under way, and takes no number back, keeps the form. -/
theorem Mach.Form.of_eq {m n : Mach} (h : m.Form) (h1 : n.mem = m.mem) (h2 : n.ops = m.ops) (h3 : m.serial ≤ n.serial) : n.Form :=
  ⟨by rw [h1]; exact h.mem, by rw [h2]; exact fun o ho => lt_of_lt_of_le (h.ops o ho) h3⟩

/-- An operation that goes under way takes the next number. -/
theorem Mach.Form.startOp {m : Mach} (h : m.Form) (c : Issue) (x : Shape) (a : Lanes) (b : Bool) (k : OpKind) :
    (m.startOp c x a b k).Form := by
  unfold Mach.startOp
  extract_lets flag op m1 m2
  have h1 : m1.Form := ⟨h.mem, fun o ho => by
    rcases Sparse.mem_put ho with rfl | ho
    · exact Nat.lt_succ_self m.serial
    · exact Nat.lt_succ_of_lt (h.ops o ho)⟩
  have h2 : m2.Form := by
    have : ∀ f : Option Nat, Mach.Form (match f with
        | some n => (m1.updTask c.t fun t => t.flagUp n).updFrame c.p.frame
            fun f => f.markRegs (Opd.dests x.d) (laneList a) n
        | none => m1) := by
      intro f
      cases f
      · exact h1
      · exact h1.of_eq rfl rfl le_rfl
    exact this flag
  split
  · exact h2.of_eq rfl rfl le_rfl
  · exact h2

/-- An operation that is over leaves its number. -/
theorem Mach.Form.delOp {m : Mach} (h : m.Form) (n : Nat) : Mach.Form { m with ops := m.ops.del n } :=
  ⟨h.mem, fun o ho => h.ops o (List.mem_of_mem_filter ho)⟩

theorem Mach.Form.placeWrite {m : Mach} (h : m.Form) (p : Place) (bs : List Byte) : (m.placeWrite p bs).Form := by
  refine ⟨Mach.wf_placeWrite m p bs h.mem, ?_⟩
  have e : (m.placeWrite p bs).ops = m.ops ∧ (m.placeWrite p bs).serial = m.serial := by
    unfold Mach.placeWrite
    split
    · exact ⟨rfl, rfl⟩
    · exact ⟨(Mach.homeWrite_spec _ _ _).2.1, (Mach.homeWrite_spec _ _ _).2.2.1⟩
    · exact (Mach.movePoison_rest _ _ _ _).2
  rw [e.1, e.2]; exact h.ops

theorem reset_form : State.reset.m.Form := ⟨rfl, fun _ h => by cases h⟩

end Sys2Proof.Machine
end

