-- ==== Sys2Proof/Laws/PerInstr.lean ====
section
/-! SUPPORT. Statements about instructions as syntax, one lemma for each constructor. -/

namespace Sys2Proof

/-! ## Codes -/

theorem Ty.code_lt (x : Ty) : x.code < 16 := by cases x <;> decide
theorem Scope.code_lt (x : Scope) : x.code < 6 := by cases x <;> decide
theorem Rnd.code_lt (x : Rnd) : x.code < 4 := by cases x <;> decide
theorem Ordr.code_lt (x : Ordr) : x.code < 4 := by cases x <;> decide
theorem Hint.code_lt (x : Hint) : x.code < 4 := by cases x <;> decide
theorem Hold.code_lt (x : Hold) : x.code < 4 := by cases x <;> decide
theorem Spc.code_lt (x : Spc) : x.code < 3 := by cases x <;> decide
theorem ICond.code_lt (x : ICond) : x.code < 6 := by cases x <;> decide
theorem FCond.code_lt (x : FCond) : x.code < 8 := by cases x <;> decide
theorem LFn.code_lt (x : LFn) : x.code < 8 := by cases x <;> decide
theorem RedOp.code_lt (x : RedOp) : x.code < 6 := by cases x <;> decide
theorem SumOp.code_lt (x : SumOp) : x.code < 3 := by cases x <;> decide
theorem LogOp.code_lt (x : LogOp) : x.code < 3 := by cases x <;> decide
theorem MFmt.code_lt (x : MFmt) : x.code < 5 := by cases x <;> decide
theorem AccT.code_lt (x : AccT) : x.code < 14 := by cases x <;> decide
theorem SReg.code_lt (x : SReg) : x.code < 64 := by cases x <;> decide

theorem modA_lt (t : Ty) (r : Rnd) (s : Bool) {x : Nat} (h : x < 256) : modA t r s x < 2 ^ 16 := by
  have := t.code_lt; have := r.code_lt; have := s.toNat_lt; unfold modA; omega

theorem modM_lt (t : Ty) (s : Scope) (o : Ordr) (k : Hint) {x : Nat} (h : x < 16) : modM t s o k x < 2 ^ 16 := by
  have := t.code_lt; have := s.code_lt; have := o.code_lt; have := k.code_lt; unfold modM; omega

theorem Count.opx_lt {w : Nat} (k : Count w) : k.opx < 2 ^ (w + 1) := by
  cases k with
  | reg => exact Nat.two_pow_pos _
  | imm n => have := n.isLt; simp only [Count.opx, Nat.pow_succ]; omega

theorem bcastOpx_lt (k : Option (BitVec 5)) : bcastOpx k < 64 := by
  cases k with
  | none => decide
  | some n => have := n.isLt; simp only [bcastOpx]; omega

theorem cellBits_lt (c : CellRef) : cellBits c < 2 ^ 16 := by
  cases c with
  | none => decide
  | some n => have := n.isLt; simp only [cellBits]; omega

theorem TileShape.ext_lt (t : TileShape) : t.ext < 2 ^ 16 := by
  cases t with
  | imm r b s => simp only [TileShape.ext]; omega
  | reg => show 2 ^ 15 < 2 ^ 16; decide

theorem TileShape.imm32_lt (t : TileShape) : t.imm32 < 2 ^ 32 := by
  cases t with
  | imm r b s => simp only [TileShape.imm32]; omega
  | reg => show 0 < 2 ^ 32; decide

theorem FsRef.opx_lt (s : FsRef) : s.opx < 2 ^ 16 := by
  cases s with
  | imm n => simp only [FsRef.opx]; omega
  | reg => show 256 < 2 ^ 16; decide

theorem MmaF.opx_lt (f : MmaF) : f.opx < 2 ^ 16 := by
  have := f.af.code_lt; have := f.bf.code_lt; have := f.sh.toNat_lt; have := f.za.toNat_lt
  simp only [MmaF.opx]; omega

theorem ChainF.ext_lt (s : ChainF) : s.ext < 128 := by
  have := s.hs.toNat_lt; simp only [ChainF.ext]; omega

/-! ## What an opcode fixes fits its fields (R277) -/

/-- Opcode, LEN, MOD, immediate and extension each fit the bits R277 gives them in the form LEN names. -/
structure Enc.Fits (e : Enc) : Prop where
  opc : e.opc < 2 ^ 10
  len : e.len < 3
  mod : e.mod < 2 ^ 16
  short : e.len = 0 → e.imm = 0 ∧ e.ext = 0
  mid : e.len = 1 → e.imm < 2 ^ 24 ∧ e.ext = 0
  long : e.imm < 2 ^ 32 ∧ e.ext < 2 ^ 16

theorem Enc.fits_short {o m : Nat} (ho : o < 2 ^ 10) (hm : m < 2 ^ 16) : Enc.Fits ⟨o, 0, m, 0, 0⟩ :=
  ⟨ho, by show 0 < 3; decide, hm, fun _ => ⟨rfl, rfl⟩, fun h => absurd h (by show ¬0 = 1; decide),
    ⟨by show 0 < 2 ^ 32; decide, by show 0 < 2 ^ 16; decide⟩⟩

theorem Enc.fits_mid {o m k : Nat} (ho : o < 2 ^ 10) (hm : m < 2 ^ 16) (hk : k < 2 ^ 24) : Enc.Fits ⟨o, 1, m, k, 0⟩ :=
  ⟨ho, by show 1 < 3; decide, hm, fun h => absurd h (by show ¬1 = 0; decide), fun _ => ⟨hk, rfl⟩,
    ⟨lt_trans hk (by decide), by show 0 < 2 ^ 16; decide⟩⟩

theorem Enc.fits_long {o m k x : Nat} (ho : o < 2 ^ 10) (hm : m < 2 ^ 16) (hk : k < 2 ^ 32) (hx : x < 2 ^ 16) :
    Enc.Fits ⟨o, 2, m, k, x⟩ :=
  ⟨ho, by show 2 < 3; decide, hm, fun h => absurd h (by show ¬2 = 0; decide), fun h => absurd h (by show ¬2 = 1; decide),
    ⟨hk, hx⟩⟩

/-- What an instruction's opcode fixes fits its fields; an event has none. -/
def Laws.Fits.Statement (i : Instr) : Prop := ∀ e, i.enc = some e → e.Fits

theorem Laws.Fits.powerOn (a0 : _) (a1 : _) (a2 : _) : Fits.Statement (.powerOn a0 a1 a2) := fun _ h => nomatch h
theorem Laws.Fits.hostLinkTrain (a0 : _) : Fits.Statement (.hostLinkTrain a0) := fun _ h => nomatch h
theorem Laws.Fits.registerWrite (a0 : _) (a1 : _) : Fits.Statement (.registerWrite a0 a1) := fun _ h => nomatch h
theorem Laws.Fits.rplctlWrite (a0 : _) (a1 : _) : Fits.Statement (.rplctlWrite a0 a1) := fun _ h => nomatch h
theorem Laws.Fits.tailWrite (a0 : _) (a1 : _) : Fits.Statement (.tailWrite a0 a1) := fun _ h => nomatch h
theorem Laws.Fits.eventHeadWrite (a0 : _) (a1 : _) : Fits.Statement (.eventHeadWrite a0 a1) := fun _ h => nomatch h
theorem Laws.Fits.unknownCommand (a0 : _) (a1 : _) : Fits.Statement (.unknownCommand a0 a1) := fun _ h => nomatch h
theorem Laws.Fits.queueCreate (a0 : _) (a1 : _) (a2 : _) (a3 : _) (a4 : _) (a5 : _) (a6 : _) : Fits.Statement (.queueCreate a0 a1 a2 a3 a4 a5 a6) := fun _ h => nomatch h
theorem Laws.Fits.queueDestroy (a0 : _) (a1 : _) (a2 : _) : Fits.Statement (.queueDestroy a0 a1 a2) := fun _ h => nomatch h
theorem Laws.Fits.partCreate (a0 : _) (a1 : _) : Fits.Statement (.partCreate a0 a1) := fun _ h => nomatch h
theorem Laws.Fits.partSet (a0 : _) (a1 : _) : Fits.Statement (.partSet a0 a1) := fun _ h => nomatch h
theorem Laws.Fits.partDestroy (a0 : _) : Fits.Statement (.partDestroy a0) := fun _ h => nomatch h
theorem Laws.Fits.ctxCreate (a0 : _) (a1 : _) : Fits.Statement (.ctxCreate a0 a1) := fun _ h => nomatch h
theorem Laws.Fits.ctxDestroy (a0 : _) (a1 : _) : Fits.Statement (.ctxDestroy a0 a1) := fun _ h => nomatch h
theorem Laws.Fits.mapPages (a0 : _) (a1 : _) (a2 : _) (a3 : _) (a4 : _) (a5 : _) : Fits.Statement (.mapPages a0 a1 a2 a3 a4 a5) := fun _ h => nomatch h
theorem Laws.Fits.unmapPages (a0 : _) (a1 : _) (a2 : _) (a3 : _) : Fits.Statement (.unmapPages a0 a1 a2 a3) := fun _ h => nomatch h
theorem Laws.Fits.discardRange (a0 : _) (a1 : _) (a2 : _) (a3 : _) : Fits.Statement (.discardRange a0 a1 a2 a3) := fun _ h => nomatch h
theorem Laws.Fits.launch (a0 : _) (a1 : _) : Fits.Statement (.launch a0 a1) := fun _ h => nomatch h
theorem Laws.Fits.cancel (a0 : _) (a1 : _) : Fits.Statement (.cancel a0 a1) := fun _ h => nomatch h
theorem Laws.Fits.leasePolicy (a0 : _) (a1 : _) (a2 : _) (a3 : _) : Fits.Statement (.leasePolicy a0 a1 a2 a3) := fun _ h => nomatch h
theorem Laws.Fits.leaseNow (a0 : _) (a1 : _) : Fits.Statement (.leaseNow a0 a1) := fun _ h => nomatch h
theorem Laws.Fits.retireRead (a0 : _) (a1 : _) (a2 : _) (a3 : _) : Fits.Statement (.retireRead a0 a1 a2 a3) := fun _ h => nomatch h
theorem Laws.Fits.attest (a0 : _) (a1 : _) (a2 : _) : Fits.Statement (.attest a0 a1 a2) := fun _ h => nomatch h
theorem Laws.Fits.domainSplit (a0 : _) (a1 : _) (a2 : _) (a3 : _) (a4 : _) (a5 : _) : Fits.Statement (.domainSplit a0 a1 a2 a3 a4 a5) := fun _ h => nomatch h
theorem Laws.Fits.domainMerge (a0 : _) (a1 : _) (a2 : _) (a3 : _) (a4 : _) : Fits.Statement (.domainMerge a0 a1 a2 a3 a4) := fun _ h => nomatch h
theorem Laws.Fits.patchStage (a0 : _) (a1 : _) (a2 : _) (a3 : _) : Fits.Statement (.patchStage a0 a1 a2 a3) := fun _ h => nomatch h
theorem Laws.Fits.resetWarm (a0 : _) : Fits.Statement (.resetWarm a0) := fun _ h => nomatch h
theorem Laws.Fits.resetFull (a0 : _) : Fits.Statement (.resetFull a0) := fun _ h => nomatch h
theorem Laws.Fits.mgmtRead (a0 : _) (a1 : _) (a2 : _) : Fits.Statement (.mgmtRead a0 a1 a2) := fun _ h => nomatch h
theorem Laws.Fits.mgmtWrite (a0 : _) (a1 : _) (a2 : _) (a3 : _) : Fits.Statement (.mgmtWrite a0 a1 a2 a3) := fun _ h => nomatch h
theorem Laws.Fits.correctedError (a0 : _) (a1 : _) : Fits.Statement (.correctedError a0 a1) := fun _ h => nomatch h
theorem Laws.Fits.uncorrectableError (a0 : _) (a1 : _) : Fits.Statement (.uncorrectableError a0 a1) := fun _ h => nomatch h
theorem Laws.Fits.scrubPass (a0 : _) (a1 : _) (a2 : _) (a3 : _) : Fits.Statement (.scrubPass a0 a1 a2 a3) := fun _ h => nomatch h
theorem Laws.Fits.scrubYield (a0 : _) (a1 : _) : Fits.Statement (.scrubYield a0 a1) := fun _ h => nomatch h
theorem Laws.Fits.leaseTestDone (a0 : _) (a1 : _) : Fits.Statement (.leaseTestDone a0 a1) := fun _ h => nomatch h
theorem Laws.Fits.hostSnoop (a0 : _) (a1 : _) : Fits.Statement (.hostSnoop a0 a1) := fun _ h => nomatch h
theorem Laws.Fits.hostHdmAccess (a0 : _) (a1 : _) (a2 : _) : Fits.Statement (.hostHdmAccess a0 a1 a2) := fun _ h => nomatch h
theorem Laws.Fits.peerMemoryRequest (a0 : _) (a1 : _) (a2 : _) : Fits.Statement (.peerMemoryRequest a0 a1 a2) := fun _ h => nomatch h
theorem Laws.Fits.peerReply (a0 : _) (a1 : _) : Fits.Statement (.peerReply a0 a1) := fun _ h => nomatch h
theorem Laws.Fits.peerTask (a0 : _) (a1 : _) (a2 : _) : Fits.Statement (.peerTask a0 a1 a2) := fun _ h => nomatch h
theorem Laws.Fits.peerFuture (a0 : _) (a1 : _) (a2 : _) (a3 : _) : Fits.Statement (.peerFuture a0 a1 a2 a3) := fun _ h => nomatch h
theorem Laws.Fits.operationComplete (a0 : _) (a1 : _) : Fits.Statement (.operationComplete a0 a1) := fun _ h => nomatch h
theorem Laws.Fits.nop (a0 : _) : Fits.Statement (.nop a0) := by
  rintro _ ⟨⟩; exact Enc.fits_short (by decide) (by decide)
theorem Laws.Fits.bra (a0 : _) (target : _) : Fits.Statement (.bra a0 target) := by
  rintro _ ⟨⟩; exact Enc.fits_mid (by decide) (by decide) (by omega)
theorem Laws.Fits.braAny (a0 : _) (a1 : _) (target : _) : Fits.Statement (.braAny a0 a1 target) := by
  rintro _ ⟨⟩; exact Enc.fits_mid (by decide) (by decide) (by omega)
theorem Laws.Fits.braAll (a0 : _) (a1 : _) (target : _) : Fits.Statement (.braAll a0 a1 target) := by
  rintro _ ⟨⟩; exact Enc.fits_mid (by decide) (by decide) (by omega)
theorem Laws.Fits.jmp (a0 : _) (a1 : _) : Fits.Statement (.jmp a0 a1) := by
  rintro _ ⟨⟩; exact Enc.fits_short (by decide) (by decide)
theorem Laws.Fits.call (a0 : _) (mk : _) (f : _) (a3 : _) (target : _) : Fits.Statement (.call a0 mk f a3 target) := by
  rintro _ ⟨⟩; exact Enc.fits_mid (by decide) (by have := mk.toNat_lt; omega) (by omega)
theorem Laws.Fits.callI (a0 : _) (mk : _) (f : _) (a3 : _) (a4 : _) : Fits.Statement (.callI a0 mk f a3 a4) := by
  rintro _ ⟨⟩; exact Enc.fits_short (by decide) (by have := mk.toNat_lt; omega)
theorem Laws.Fits.ret (a0 : _) : Fits.Statement (.ret a0) := by
  rintro _ ⟨⟩; exact Enc.fits_short (by decide) (by decide)
theorem Laws.Fits.unwindTo (a0 : _) (a1 : _) : Fits.Statement (.unwindTo a0 a1) := by
  rintro _ ⟨⟩; exact Enc.fits_short (by decide) (by decide)
theorem Laws.Fits.exit (a0 : _) : Fits.Statement (.exit a0) := by
  rintro _ ⟨⟩; exact Enc.fits_short (by decide) (by decide)
theorem Laws.Fits.yield (a0 : _) : Fits.Statement (.yield a0) := by
  rintro _ ⟨⟩; exact Enc.fits_short (by decide) (by decide)
theorem Laws.Fits.setpri (a0 : _) (n : _) : Fits.Statement (.setpri a0 n) := by
  rintro _ ⟨⟩; exact Enc.fits_short (by decide) (by omega)
theorem Laws.Fits.wflag (a0 : _) (mask : _) : Fits.Statement (.wflag a0 mask) := by
  rintro _ ⟨⟩; exact Enc.fits_short (by decide) (by omega)
theorem Laws.Fits.trap (a0 : _) (code : _) (ad : _) : Fits.Statement (.trap a0 code ad) := by
  rintro _ ⟨⟩; exact Enc.fits_short (by decide) (by have := ad.isSome.toNat_lt; omega)
theorem Laws.Fits.iadd (a0 : _) (t : _) (sat : _) (a3 : _) (a4 : _) (a5 : _) : Fits.Statement (.iadd a0 t sat a3 a4 a5) := by
  rintro _ ⟨⟩; exact Enc.fits_short (by decide) (modA_lt _ _ _ (by decide))
theorem Laws.Fits.isub (a0 : _) (t : _) (sat : _) (a3 : _) (a4 : _) (a5 : _) : Fits.Statement (.isub a0 t sat a3 a4 a5) := by
  rintro _ ⟨⟩; exact Enc.fits_short (by decide) (modA_lt _ _ _ (by decide))
theorem Laws.Fits.imul (a0 : _) (t : _) (sat : _) (a3 : _) (a4 : _) (a5 : _) : Fits.Statement (.imul a0 t sat a3 a4 a5) := by
  rintro _ ⟨⟩; exact Enc.fits_short (by decide) (modA_lt _ _ _ (by decide))
theorem Laws.Fits.imulhi (a0 : _) (t : _) (a2 : _) (a3 : _) (a4 : _) : Fits.Statement (.imulhi a0 t a2 a3 a4) := by
  rintro _ ⟨⟩; exact Enc.fits_short (by decide) (modA_lt _ _ _ (by decide))
theorem Laws.Fits.imad (a0 : _) (t : _) (sat : _) (a3 : _) (a4 : _) (a5 : _) (a6 : _) : Fits.Statement (.imad a0 t sat a3 a4 a5 a6) := by
  rintro _ ⟨⟩; exact Enc.fits_mid (by decide) (modA_lt _ _ _ (by decide)) (by decide)
theorem Laws.Fits.ineg (a0 : _) (sat : _) (a2 : _) (a3 : _) : Fits.Statement (.ineg a0 sat a2 a3) := by
  rintro _ ⟨⟩; exact Enc.fits_short (by decide) (modA_lt _ _ _ (by decide))
theorem Laws.Fits.iabs (a0 : _) (sat : _) (a2 : _) (a3 : _) : Fits.Statement (.iabs a0 sat a2 a3) := by
  rintro _ ⟨⟩; exact Enc.fits_short (by decide) (modA_lt _ _ _ (by decide))
theorem Laws.Fits.imin (a0 : _) (t : _) (a2 : _) (a3 : _) (a4 : _) : Fits.Statement (.imin a0 t a2 a3 a4) := by
  rintro _ ⟨⟩; exact Enc.fits_short (by decide) (modA_lt _ _ _ (by decide))
theorem Laws.Fits.imax (a0 : _) (t : _) (a2 : _) (a3 : _) (a4 : _) : Fits.Statement (.imax a0 t a2 a3 a4) := by
  rintro _ ⟨⟩; exact Enc.fits_short (by decide) (modA_lt _ _ _ (by decide))
theorem Laws.Fits.iaddW (a0 : _) (t : _) (sat : _) (a3 : _) (a4 : _) (a5 : _) : Fits.Statement (.iaddW a0 t sat a3 a4 a5) := by
  rintro _ ⟨⟩; exact Enc.fits_short (by decide) (modA_lt _ _ _ (by decide))
theorem Laws.Fits.isubW (a0 : _) (t : _) (sat : _) (a3 : _) (a4 : _) (a5 : _) : Fits.Statement (.isubW a0 t sat a3 a4 a5) := by
  rintro _ ⟨⟩; exact Enc.fits_short (by decide) (modA_lt _ _ _ (by decide))
theorem Laws.Fits.imulW (a0 : _) (t : _) (a2 : _) (a3 : _) (a4 : _) : Fits.Statement (.imulW a0 t a2 a3 a4) := by
  rintro _ ⟨⟩; exact Enc.fits_short (by decide) (modA_lt _ _ _ (by decide))
theorem Laws.Fits.imadW (a0 : _) (t : _) (a2 : _) (a3 : _) (a4 : _) (a5 : _) : Fits.Statement (.imadW a0 t a2 a3 a4 a5) := by
  rintro _ ⟨⟩; exact Enc.fits_mid (by decide) (modA_lt _ _ _ (by decide)) (by decide)
theorem Laws.Fits.lea (a0 : _) (t : _) (sh : _) (a3 : _) (a4 : _) (a5 : _) (imm : _) : Fits.Statement (.lea a0 t sh a3 a4 a5 imm) := by
  rintro _ ⟨⟩; exact Enc.fits_mid (by decide) (modA_lt _ _ _ (by omega)) (by omega)
theorem Laws.Fits.mov (a0 : _) (a1 : _) (a2 : _) : Fits.Statement (.mov a0 a1 a2) := by
  rintro _ ⟨⟩; exact Enc.fits_short (by decide) (modA_lt _ _ _ (by decide))
theorem Laws.Fits.movW (a0 : _) (a1 : _) (a2 : _) : Fits.Statement (.movW a0 a1 a2) := by
  rintro _ ⟨⟩; exact Enc.fits_short (by decide) (modA_lt _ _ _ (by decide))
theorem Laws.Fits.movi (a0 : _) (a1 : _) (imm : _) : Fits.Statement (.movi a0 a1 imm) := by
  rintro _ ⟨⟩; exact Enc.fits_mid (by decide) (modA_lt _ _ _ (by decide)) (by omega)
theorem Laws.Fits.moviL (a0 : _) (t : _) (a2 : _) (imm : _) : Fits.Statement (.moviL a0 t a2 imm) := by
  rintro _ ⟨⟩; exact Enc.fits_long (by decide) (modA_lt _ _ _ (by decide)) (by omega) (by decide)
theorem Laws.Fits.iaddi (a0 : _) (t : _) (sat : _) (a3 : _) (a4 : _) (imm : _) : Fits.Statement (.iaddi a0 t sat a3 a4 imm) := by
  rintro _ ⟨⟩; exact Enc.fits_mid (by decide) (modA_lt _ _ _ (by decide)) (by omega)
theorem Laws.Fits.idiv (a0 : _) (t : _) (sat : _) (a3 : _) (a4 : _) (a5 : _) : Fits.Statement (.idiv a0 t sat a3 a4 a5) := by
  rintro _ ⟨⟩; exact Enc.fits_short (by decide) (modA_lt _ _ _ (by decide))
theorem Laws.Fits.irem (a0 : _) (t : _) (a2 : _) (a3 : _) (a4 : _) : Fits.Statement (.irem a0 t a2 a3 a4) := by
  rintro _ ⟨⟩; exact Enc.fits_short (by decide) (modA_lt _ _ _ (by decide))
theorem Laws.Fits.sad (a0 : _) (t : _) (a2 : _) (a3 : _) (a4 : _) (a5 : _) : Fits.Statement (.sad a0 t a2 a3 a4 a5) := by
  rintro _ ⟨⟩; exact Enc.fits_mid (by decide) (modA_lt _ _ _ (by decide)) (by decide)
theorem Laws.Fits.and (a0 : _) (a1 : _) (a2 : _) (a3 : _) : Fits.Statement (.and a0 a1 a2 a3) := by
  rintro _ ⟨⟩; exact Enc.fits_short (by decide) (modA_lt _ _ _ (by decide))
theorem Laws.Fits.or (a0 : _) (a1 : _) (a2 : _) (a3 : _) : Fits.Statement (.or a0 a1 a2 a3) := by
  rintro _ ⟨⟩; exact Enc.fits_short (by decide) (modA_lt _ _ _ (by decide))
theorem Laws.Fits.xor (a0 : _) (a1 : _) (a2 : _) (a3 : _) : Fits.Statement (.xor a0 a1 a2 a3) := by
  rintro _ ⟨⟩; exact Enc.fits_short (by decide) (modA_lt _ _ _ (by decide))
theorem Laws.Fits.not (a0 : _) (a1 : _) (a2 : _) : Fits.Statement (.not a0 a1 a2) := by
  rintro _ ⟨⟩; exact Enc.fits_short (by decide) (modA_lt _ _ _ (by decide))
theorem Laws.Fits.lmix (a0 : _) (fn : _) (inv : _) (a3 : _) (a4 : _) (a5 : _) (a6 : _) : Fits.Statement (.lmix a0 fn inv a3 a4 a5 a6) := by
  rintro _ ⟨⟩; exact Enc.fits_mid (by decide) (modA_lt _ _ _ (by have := fn.code_lt; have := inv.a.toNat_lt; have := inv.b.toNat_lt; have := inv.c.toNat_lt; have := inv.d.toNat_lt; omega)) (by decide)
theorem Laws.Fits.shl (a0 : _) (a1 : _) (a2 : _) (k : _) : Fits.Statement (.shl a0 a1 a2 k) := by
  rintro _ ⟨⟩; exact Enc.fits_short (by decide) (modA_lt _ _ _ (by have := k.opx_lt; omega))
theorem Laws.Fits.shr (a0 : _) (a1 : _) (a2 : _) (k : _) : Fits.Statement (.shr a0 a1 a2 k) := by
  rintro _ ⟨⟩; exact Enc.fits_short (by decide) (modA_lt _ _ _ (by have := k.opx_lt; omega))
theorem Laws.Fits.sar (a0 : _) (a1 : _) (a2 : _) (k : _) : Fits.Statement (.sar a0 a1 a2 k) := by
  rintro _ ⟨⟩; exact Enc.fits_short (by decide) (modA_lt _ _ _ (by have := k.opx_lt; omega))
theorem Laws.Fits.rot (a0 : _) (a1 : _) (a2 : _) (k : _) : Fits.Statement (.rot a0 a1 a2 k) := by
  rintro _ ⟨⟩; exact Enc.fits_short (by decide) (modA_lt _ _ _ (by have := k.opx_lt; omega))
theorem Laws.Fits.shlW (a0 : _) (a1 : _) (a2 : _) (k : _) : Fits.Statement (.shlW a0 a1 a2 k) := by
  rintro _ ⟨⟩; exact Enc.fits_short (by decide) (modA_lt _ _ _ (by have := k.opx_lt; omega))
theorem Laws.Fits.shrW (a0 : _) (t : _) (a2 : _) (a3 : _) (k : _) : Fits.Statement (.shrW a0 t a2 a3 k) := by
  rintro _ ⟨⟩; exact Enc.fits_short (by decide) (modA_lt _ _ _ (by have := k.opx_lt; omega))
theorem Laws.Fits.bfe (a0 : _) (t : _) (a2 : _) (a3 : _) (pos : _) (len : _) : Fits.Statement (.bfe a0 t a2 a3 pos len) := by
  rintro _ ⟨⟩; exact Enc.fits_mid (by decide) (modA_lt _ _ _ (by decide)) (by omega)
theorem Laws.Fits.bfi (a0 : _) (a1 : _) (a2 : _) (a3 : _) (pos : _) (len : _) : Fits.Statement (.bfi a0 a1 a2 a3 pos len) := by
  rintro _ ⟨⟩; exact Enc.fits_mid (by decide) (modA_lt _ _ _ (by decide)) (by omega)
theorem Laws.Fits.popc (a0 : _) (a1 : _) (a2 : _) : Fits.Statement (.popc a0 a1 a2) := by
  rintro _ ⟨⟩; exact Enc.fits_short (by decide) (modA_lt _ _ _ (by decide))
theorem Laws.Fits.clz (a0 : _) (a1 : _) (a2 : _) : Fits.Statement (.clz a0 a1 a2) := by
  rintro _ ⟨⟩; exact Enc.fits_short (by decide) (modA_lt _ _ _ (by decide))
theorem Laws.Fits.brev (a0 : _) (a1 : _) (a2 : _) : Fits.Statement (.brev a0 a1 a2) := by
  rintro _ ⟨⟩; exact Enc.fits_short (by decide) (modA_lt _ _ _ (by decide))
theorem Laws.Fits.icmp (a0 : _) (t : _) (cond : _) (a3 : _) (a4 : _) (a5 : _) : Fits.Statement (.icmp a0 t cond a3 a4 a5) := by
  rintro _ ⟨⟩; exact Enc.fits_short (by decide) (modA_lt _ _ _ (by have := cond.code_lt; omega))
theorem Laws.Fits.icmpW (a0 : _) (t : _) (cond : _) (a3 : _) (a4 : _) (a5 : _) : Fits.Statement (.icmpW a0 t cond a3 a4 a5) := by
  rintro _ ⟨⟩; exact Enc.fits_short (by decide) (modA_lt _ _ _ (by have := cond.code_lt; omega))
theorem Laws.Fits.fcmp (a0 : _) (cond : _) (a2 : _) (a3 : _) (a4 : _) : Fits.Statement (.fcmp a0 cond a2 a3 a4) := by
  rintro _ ⟨⟩; exact Enc.fits_short (by decide) (modA_lt _ _ _ (by have := cond.code_lt; omega))
theorem Laws.Fits.sel (a0 : _) (t : _) (a2 : _) (a3 : _) (a4 : _) (a5 : _) : Fits.Statement (.sel a0 t a2 a3 a4 a5) := by
  rintro _ ⟨⟩; exact Enc.fits_mid (by decide) (modA_lt _ _ _ (by decide)) (by decide)
theorem Laws.Fits.ballot (a0 : _) (a1 : _) (a2 : _) : Fits.Statement (.ballot a0 a1 a2) := by
  rintro _ ⟨⟩; exact Enc.fits_short (by decide) (modA_lt _ _ _ (by decide))
theorem Laws.Fits.shfl (a0 : _) (a1 : _) (a2 : _) (k : _) : Fits.Statement (.shfl a0 a1 a2 k) := by
  rintro _ ⟨⟩; exact Enc.fits_short (by decide) (modA_lt _ _ _ (by have := k.opx_lt; omega))
theorem Laws.Fits.shflUp (a0 : _) (a1 : _) (a2 : _) (k : _) : Fits.Statement (.shflUp a0 a1 a2 k) := by
  rintro _ ⟨⟩; exact Enc.fits_short (by decide) (modA_lt _ _ _ (by have := k.opx_lt; omega))
theorem Laws.Fits.shflDown (a0 : _) (a1 : _) (a2 : _) (k : _) : Fits.Statement (.shflDown a0 a1 a2 k) := by
  rintro _ ⟨⟩; exact Enc.fits_short (by decide) (modA_lt _ _ _ (by have := k.opx_lt; omega))
theorem Laws.Fits.shflXor (a0 : _) (a1 : _) (a2 : _) (k : _) : Fits.Statement (.shflXor a0 a1 a2 k) := by
  rintro _ ⟨⟩; exact Enc.fits_short (by decide) (modA_lt _ _ _ (by have := k.opx_lt; omega))
theorem Laws.Fits.bcast (a0 : _) (a1 : _) (a2 : _) (k : _) : Fits.Statement (.bcast a0 a1 a2 k) := by
  rintro _ ⟨⟩; exact Enc.fits_short (by decide) (modA_lt _ _ _ (by have := bcastOpx_lt k; omega))
theorem Laws.Fits.wred (a0 : _) (op : _) (t : _) (rnd : _) (a4 : _) (a5 : _) : Fits.Statement (.wred a0 op t rnd a4 a5) := by
  rintro _ ⟨⟩; exact Enc.fits_short (by decide) (modA_lt _ _ _ (by have := op.code_lt; omega))
theorem Laws.Fits.wscan (a0 : _) (ex : _) (op : _) (t : _) (rnd : _) (a5 : _) (a6 : _) : Fits.Statement (.wscan a0 ex op t rnd a5 a6) := by
  rintro _ ⟨⟩; exact Enc.fits_short (by decide) (modA_lt _ _ _ (by have := ex.toNat_lt; have := op.code_lt; omega))
theorem Laws.Fits.fadd (a0 : _) (rnd : _) (a2 : _) (a3 : _) (a4 : _) : Fits.Statement (.fadd a0 rnd a2 a3 a4) := by
  rintro _ ⟨⟩; exact Enc.fits_short (by decide) (modA_lt _ _ _ (by decide))
theorem Laws.Fits.fsub (a0 : _) (rnd : _) (a2 : _) (a3 : _) (a4 : _) : Fits.Statement (.fsub a0 rnd a2 a3 a4) := by
  rintro _ ⟨⟩; exact Enc.fits_short (by decide) (modA_lt _ _ _ (by decide))
theorem Laws.Fits.fmul (a0 : _) (rnd : _) (a2 : _) (a3 : _) (a4 : _) : Fits.Statement (.fmul a0 rnd a2 a3 a4) := by
  rintro _ ⟨⟩; exact Enc.fits_short (by decide) (modA_lt _ _ _ (by decide))
theorem Laws.Fits.ffma (a0 : _) (rnd : _) (a2 : _) (a3 : _) (a4 : _) (a5 : _) : Fits.Statement (.ffma a0 rnd a2 a3 a4 a5) := by
  rintro _ ⟨⟩; exact Enc.fits_mid (by decide) (modA_lt _ _ _ (by decide)) (by decide)
theorem Laws.Fits.fmin (a0 : _) (a1 : _) (a2 : _) (a3 : _) : Fits.Statement (.fmin a0 a1 a2 a3) := by
  rintro _ ⟨⟩; exact Enc.fits_short (by decide) (modA_lt _ _ _ (by decide))
theorem Laws.Fits.fmax (a0 : _) (a1 : _) (a2 : _) (a3 : _) : Fits.Statement (.fmax a0 a1 a2 a3) := by
  rintro _ ⟨⟩; exact Enc.fits_short (by decide) (modA_lt _ _ _ (by decide))
theorem Laws.Fits.fabs (a0 : _) (a1 : _) (a2 : _) : Fits.Statement (.fabs a0 a1 a2) := by
  rintro _ ⟨⟩; exact Enc.fits_short (by decide) (modA_lt _ _ _ (by decide))
theorem Laws.Fits.fneg (a0 : _) (a1 : _) (a2 : _) : Fits.Statement (.fneg a0 a1 a2) := by
  rintro _ ⟨⟩; exact Enc.fits_short (by decide) (modA_lt _ _ _ (by decide))
theorem Laws.Fits.ffloor (a0 : _) (a1 : _) (a2 : _) : Fits.Statement (.ffloor a0 a1 a2) := by
  rintro _ ⟨⟩; exact Enc.fits_short (by decide) (modA_lt _ _ _ (by decide))
theorem Laws.Fits.fceil (a0 : _) (a1 : _) (a2 : _) : Fits.Statement (.fceil a0 a1 a2) := by
  rintro _ ⟨⟩; exact Enc.fits_short (by decide) (modA_lt _ _ _ (by decide))
theorem Laws.Fits.ftrunc (a0 : _) (a1 : _) (a2 : _) : Fits.Statement (.ftrunc a0 a1 a2) := by
  rintro _ ⟨⟩; exact Enc.fits_short (by decide) (modA_lt _ _ _ (by decide))
theorem Laws.Fits.frint (a0 : _) (rnd : _) (a2 : _) (a3 : _) : Fits.Statement (.frint a0 rnd a2 a3) := by
  rintro _ ⟨⟩; exact Enc.fits_short (by decide) (modA_lt _ _ _ (by decide))
theorem Laws.Fits.fclass (a0 : _) (a1 : _) (a2 : _) : Fits.Statement (.fclass a0 a1 a2) := by
  rintro _ ⟨⟩; exact Enc.fits_short (by decide) (modA_lt _ _ _ (by decide))
theorem Laws.Fits.fscale (a0 : _) (rnd : _) (a2 : _) (a3 : _) (a4 : _) : Fits.Statement (.fscale a0 rnd a2 a3 a4) := by
  rintro _ ⟨⟩; exact Enc.fits_short (by decide) (modA_lt _ _ _ (by decide))
theorem Laws.Fits.ffrac (a0 : _) (rnd : _) (a2 : _) (a3 : _) : Fits.Statement (.ffrac a0 rnd a2 a3) := by
  rintro _ ⟨⟩; exact Enc.fits_short (by decide) (modA_lt _ _ _ (by decide))
theorem Laws.Fits.frcp (a0 : _) (rnd : _) (a2 : _) (a3 : _) : Fits.Statement (.frcp a0 rnd a2 a3) := by
  rintro _ ⟨⟩; exact Enc.fits_short (by decide) (modA_lt _ _ _ (by decide))
theorem Laws.Fits.frsq (a0 : _) (rnd : _) (a2 : _) (a3 : _) : Fits.Statement (.frsq a0 rnd a2 a3) := by
  rintro _ ⟨⟩; exact Enc.fits_short (by decide) (modA_lt _ _ _ (by decide))
theorem Laws.Fits.fsqrt (a0 : _) (rnd : _) (a2 : _) (a3 : _) : Fits.Statement (.fsqrt a0 rnd a2 a3) := by
  rintro _ ⟨⟩; exact Enc.fits_short (by decide) (modA_lt _ _ _ (by decide))
theorem Laws.Fits.fdiv (a0 : _) (rnd : _) (a2 : _) (a3 : _) (a4 : _) : Fits.Statement (.fdiv a0 rnd a2 a3 a4) := by
  rintro _ ⟨⟩; exact Enc.fits_short (by decide) (modA_lt _ _ _ (by decide))
theorem Laws.Fits.fexp2 (a0 : _) (a1 : _) (a2 : _) : Fits.Statement (.fexp2 a0 a1 a2) := by
  rintro _ ⟨⟩; exact Enc.fits_short (by decide) (modA_lt _ _ _ (by decide))
theorem Laws.Fits.flog2 (a0 : _) (a1 : _) (a2 : _) : Fits.Statement (.flog2 a0 a1 a2) := by
  rintro _ ⟨⟩; exact Enc.fits_short (by decide) (modA_lt _ _ _ (by decide))
theorem Laws.Fits.fsin (a0 : _) (a1 : _) (a2 : _) : Fits.Statement (.fsin a0 a1 a2) := by
  rintro _ ⟨⟩; exact Enc.fits_short (by decide) (modA_lt _ _ _ (by decide))
theorem Laws.Fits.fcos (a0 : _) (a1 : _) (a2 : _) : Fits.Statement (.fcos a0 a1 a2) := by
  rintro _ ⟨⟩; exact Enc.fits_short (by decide) (modA_lt _ _ _ (by decide))
theorem Laws.Fits.ftanh (a0 : _) (a1 : _) (a2 : _) : Fits.Statement (.ftanh a0 a1 a2) := by
  rintro _ ⟨⟩; exact Enc.fits_short (by decide) (modA_lt _ _ _ (by decide))
theorem Laws.Fits.hadd (a0 : _) (t : _) (rnd : _) (a3 : _) (a4 : _) (a5 : _) : Fits.Statement (.hadd a0 t rnd a3 a4 a5) := by
  rintro _ ⟨⟩; exact Enc.fits_short (by decide) (modA_lt _ _ _ (by decide))
theorem Laws.Fits.hsub (a0 : _) (t : _) (rnd : _) (a3 : _) (a4 : _) (a5 : _) : Fits.Statement (.hsub a0 t rnd a3 a4 a5) := by
  rintro _ ⟨⟩; exact Enc.fits_short (by decide) (modA_lt _ _ _ (by decide))
theorem Laws.Fits.hmul (a0 : _) (t : _) (rnd : _) (a3 : _) (a4 : _) (a5 : _) : Fits.Statement (.hmul a0 t rnd a3 a4 a5) := by
  rintro _ ⟨⟩; exact Enc.fits_short (by decide) (modA_lt _ _ _ (by decide))
theorem Laws.Fits.hfma (a0 : _) (t : _) (rnd : _) (a3 : _) (a4 : _) (a5 : _) (a6 : _) : Fits.Statement (.hfma a0 t rnd a3 a4 a5 a6) := by
  rintro _ ⟨⟩; exact Enc.fits_mid (by decide) (modA_lt _ _ _ (by decide)) (by decide)
theorem Laws.Fits.hmin (a0 : _) (t : _) (a2 : _) (a3 : _) (a4 : _) : Fits.Statement (.hmin a0 t a2 a3 a4) := by
  rintro _ ⟨⟩; exact Enc.fits_short (by decide) (modA_lt _ _ _ (by decide))
theorem Laws.Fits.hmax (a0 : _) (t : _) (a2 : _) (a3 : _) (a4 : _) : Fits.Statement (.hmax a0 t a2 a3 a4) := by
  rintro _ ⟨⟩; exact Enc.fits_short (by decide) (modA_lt _ _ _ (by decide))
theorem Laws.Fits.hdot2 (a0 : _) (t : _) (rnd : _) (a3 : _) (a4 : _) (a5 : _) (a6 : _) : Fits.Statement (.hdot2 a0 t rnd a3 a4 a5 a6) := by
  rintro _ ⟨⟩; exact Enc.fits_mid (by decide) (modA_lt _ _ _ (by decide)) (by decide)
theorem Laws.Fits.hcmp (a0 : _) (t : _) (cond : _) (a3 : _) (a4 : _) (a5 : _) : Fits.Statement (.hcmp a0 t cond a3 a4 a5) := by
  rintro _ ⟨⟩; exact Enc.fits_short (by decide) (modA_lt _ _ _ (by have := cond.code_lt; omega))
theorem Laws.Fits.cvt (a0 : _) (dst : _) (src : _) (rnd : _) (sat : _) (a5 : _) (a6 : _) : Fits.Statement (.cvt a0 dst src rnd sat a5 a6) := by
  rintro _ ⟨⟩; exact Enc.fits_short (by decide) (modA_lt _ _ _ (by have := src.code_lt; omega))
theorem Laws.Fits.cvtW (a0 : _) (dst : _) (src : _) (rnd : _) (sat : _) (a5 : _) (a6 : _) : Fits.Statement (.cvtW a0 dst src rnd sat a5 a6) := by
  rintro _ ⟨⟩; exact Enc.fits_short (by decide) (modA_lt _ _ _ (by have := src.code_lt; omega))
theorem Laws.Fits.icvt (a0 : _) (dst : _) (src : _) (rnd : _) (sat : _) (a5 : _) (a6 : _) : Fits.Statement (.icvt a0 dst src rnd sat a5 a6) := by
  rintro _ ⟨⟩; exact Enc.fits_short (by decide) (modA_lt _ _ _ (by have := src.code_lt; omega))
theorem Laws.Fits.cvtX2 (a0 : _) (dst : _) (src : _) (rnd : _) (sat : _) (a5 : _) (a6 : _) (a7 : _) : Fits.Statement (.cvtX2 a0 dst src rnd sat a5 a6 a7) := by
  rintro _ ⟨⟩; exact Enc.fits_short (by decide) (modA_lt _ _ _ (by have := src.code_lt; omega))
theorem Laws.Fits.cvtX4 (a0 : _) (dst : _) (src : _) (rnd : _) (sat : _) (a5 : _) (a6 : _) (a7 : _) (a8 : _) (a9 : _) : Fits.Statement (.cvtX4 a0 dst src rnd sat a5 a6 a7 a8 a9) := by
  rintro _ ⟨⟩; exact Enc.fits_long (by decide) (modA_lt _ _ _ (by have := src.code_lt; omega)) (by decide) (by decide)
theorem Laws.Fits.cvtEl (a0 : _) (src : _) (a2 : _) (a3 : _) (a4 : _) : Fits.Statement (.cvtEl a0 src a2 a3 a4) := by
  rintro _ ⟨⟩; exact Enc.fits_short (by decide) (modA_lt _ _ _ (by have := src.code_lt; omega))
theorem Laws.Fits.cvtPk (a0 : _) (a1 : _) (a2 : _) (a3 : _) : Fits.Statement (.cvtPk a0 a1 a2 a3) := by
  rintro _ ⟨⟩; exact Enc.fits_mid (by decide) (modA_lt _ _ _ (by decide)) (by decide)
theorem Laws.Fits.ld (a0 : _) (m : _) (a2 : _) (a3 : _) (off : _) : Fits.Statement (.ld a0 m a2 a3 off) := by
  rintro _ ⟨⟩; exact Enc.fits_mid (by decide) (modM_lt _ _ _ _ (by decide)) (by omega)
theorem Laws.Fits.ldX4 (a0 : _) (m : _) (a2 : _) (a3 : _) (off : _) : Fits.Statement (.ldX4 a0 m a2 a3 off) := by
  rintro _ ⟨⟩; exact Enc.fits_mid (by decide) (modM_lt _ _ _ _ (by decide)) (by omega)
theorem Laws.Fits.st (a0 : _) (m : _) (a2 : _) (a3 : _) (off : _) : Fits.Statement (.st a0 m a2 a3 off) := by
  rintro _ ⟨⟩; exact Enc.fits_mid (by decide) (modM_lt _ _ _ _ (by decide)) (by omega)
theorem Laws.Fits.ldl (a0 : _) (m : _) (a2 : _) (a3 : _) (off : _) : Fits.Statement (.ldl a0 m a2 a3 off) := by
  rintro _ ⟨⟩; exact Enc.fits_mid (by decide) (modM_lt _ _ _ _ (by decide)) (by omega)
theorem Laws.Fits.ldlX4 (a0 : _) (m : _) (a2 : _) (a3 : _) (off : _) : Fits.Statement (.ldlX4 a0 m a2 a3 off) := by
  rintro _ ⟨⟩; exact Enc.fits_mid (by decide) (modM_lt _ _ _ _ (by decide)) (by omega)
theorem Laws.Fits.stl (a0 : _) (m : _) (a2 : _) (a3 : _) (off : _) : Fits.Statement (.stl a0 m a2 a3 off) := by
  rintro _ ⟨⟩; exact Enc.fits_mid (by decide) (modM_lt _ _ _ _ (by decide)) (by omega)
theorem Laws.Fits.ldw (a0 : _) (m : _) (a2 : _) (a3 : _) (off : _) : Fits.Statement (.ldw a0 m a2 a3 off) := by
  rintro _ ⟨⟩; exact Enc.fits_mid (by decide) (modM_lt _ _ _ _ (by decide)) (by omega)
theorem Laws.Fits.ldwX4 (a0 : _) (m : _) (a2 : _) (a3 : _) (off : _) : Fits.Statement (.ldwX4 a0 m a2 a3 off) := by
  rintro _ ⟨⟩; exact Enc.fits_mid (by decide) (modM_lt _ _ _ _ (by decide)) (by omega)
theorem Laws.Fits.stw (a0 : _) (m : _) (a2 : _) (a3 : _) (off : _) : Fits.Statement (.stw a0 m a2 a3 off) := by
  rintro _ ⟨⟩; exact Enc.fits_mid (by decide) (modM_lt _ _ _ _ (by decide)) (by omega)
theorem Laws.Fits.pf (a0 : _) (hint : _) (a2 : _) (off : _) : Fits.Statement (.pf a0 hint a2 off) := by
  rintro _ ⟨⟩; exact Enc.fits_mid (by decide) (modM_lt _ _ _ _ (by decide)) (by omega)
theorem Laws.Fits.tld (a0 : _) (t : _) (a2 : _) (a3 : _) : Fits.Statement (.tld a0 t a2 a3) := by
  rintro _ ⟨⟩; exact Enc.fits_long (by decide) (modM_lt _ _ _ _ (by have := t.space.code_lt; omega)) (by have := t.shape.imm32_lt; omega) (by have := t.shape.ext_lt; omega)
theorem Laws.Fits.tst (a0 : _) (t : _) (a2 : _) (a3 : _) : Fits.Statement (.tst a0 t a2 a3) := by
  rintro _ ⟨⟩; exact Enc.fits_long (by decide) (modM_lt _ _ _ _ (by have := t.space.code_lt; omega)) (by have := t.shape.imm32_lt; omega) (by have := t.shape.ext_lt; omega)
theorem Laws.Fits.pft (a0 : _) (hint : _) (a2 : _) (a3 : _) (rowsM1 : _) (rowb : _) : Fits.Statement (.pft a0 hint a2 a3 rowsM1 rowb) := by
  rintro _ ⟨⟩; exact Enc.fits_mid (by decide) (modM_lt _ _ _ _ (by decide)) (by omega)
theorem Laws.Fits.dcinv (a0 : _) : Fits.Statement (.dcinv a0) := by
  rintro _ ⟨⟩; exact Enc.fits_short (by decide) (modM_lt _ _ _ _ (by decide))
theorem Laws.Fits.icinv (a0 : _) : Fits.Statement (.icinv a0) := by
  rintro _ ⟨⟩; exact Enc.fits_short (by decide) (modM_lt _ _ _ _ (by decide))
theorem Laws.Fits.dsc (a0 : _) (a1 : _) (a2 : _) : Fits.Statement (.dsc a0 a1 a2) := by
  rintro _ ⟨⟩; exact Enc.fits_mid (by decide) (modM_lt _ _ _ _ (by decide)) (by decide)
theorem Laws.Fits.cwb (a0 : _) (a1 : _) (a2 : _) : Fits.Statement (.cwb a0 a1 a2) := by
  rintro _ ⟨⟩; exact Enc.fits_mid (by decide) (modM_lt _ _ _ _ (by decide)) (by decide)
theorem Laws.Fits.aadd (a0 : _) (m : _) (a2 : _) (a3 : _) (a4 : _) (off : _) : Fits.Statement (.aadd a0 m a2 a3 a4 off) := by
  rintro _ ⟨⟩; exact Enc.fits_mid (by decide) (modM_lt _ _ _ _ (by have := m.space.code_lt; have := m.nr.toNat_lt; omega)) (by omega)
theorem Laws.Fits.amin (a0 : _) (m : _) (a2 : _) (a3 : _) (a4 : _) (off : _) : Fits.Statement (.amin a0 m a2 a3 a4 off) := by
  rintro _ ⟨⟩; exact Enc.fits_mid (by decide) (modM_lt _ _ _ _ (by have := m.space.code_lt; have := m.nr.toNat_lt; omega)) (by omega)
theorem Laws.Fits.amax (a0 : _) (m : _) (a2 : _) (a3 : _) (a4 : _) (off : _) : Fits.Statement (.amax a0 m a2 a3 a4 off) := by
  rintro _ ⟨⟩; exact Enc.fits_mid (by decide) (modM_lt _ _ _ _ (by have := m.space.code_lt; have := m.nr.toNat_lt; omega)) (by omega)
theorem Laws.Fits.alog (a0 : _) (op : _) (m : _) (a3 : _) (a4 : _) (a5 : _) (off : _) : Fits.Statement (.alog a0 op m a3 a4 a5 off) := by
  rintro _ ⟨⟩; exact Enc.fits_mid (by decide) (modM_lt _ _ _ _ (by have := m.space.code_lt; have := m.nr.toNat_lt; omega)) (by have := op.code_lt; omega)
theorem Laws.Fits.axchg (a0 : _) (m : _) (a2 : _) (a3 : _) (a4 : _) (off : _) : Fits.Statement (.axchg a0 m a2 a3 a4 off) := by
  rintro _ ⟨⟩; exact Enc.fits_mid (by decide) (modM_lt _ _ _ _ (by have := m.space.code_lt; have := m.nr.toNat_lt; omega)) (by omega)
theorem Laws.Fits.acas (a0 : _) (m : _) (a2 : _) (a3 : _) (a4 : _) (a5 : _) (off : _) : Fits.Statement (.acas a0 m a2 a3 a4 a5 off) := by
  rintro _ ⟨⟩; exact Enc.fits_long (by decide) (modM_lt _ _ _ _ (by have := m.space.code_lt; have := m.nr.toNat_lt; omega)) (by omega) (by decide)
theorem Laws.Fits.afadd (a0 : _) (rnd : _) (m : _) (a3 : _) (a4 : _) (a5 : _) (off : _) : Fits.Statement (.afadd a0 rnd m a3 a4 a5 off) := by
  rintro _ ⟨⟩; exact Enc.fits_mid (by decide) (modM_lt _ _ _ _ (by have := m.space.code_lt; have := m.nr.toNat_lt; omega)) (by have := rnd.code_lt; omega)
theorem Laws.Fits.afmin (a0 : _) (m : _) (a2 : _) (a3 : _) (a4 : _) (off : _) : Fits.Statement (.afmin a0 m a2 a3 a4 off) := by
  rintro _ ⟨⟩; exact Enc.fits_mid (by decide) (modM_lt _ _ _ _ (by have := m.space.code_lt; have := m.nr.toNat_lt; omega)) (by omega)
theorem Laws.Fits.afmax (a0 : _) (m : _) (a2 : _) (a3 : _) (a4 : _) (off : _) : Fits.Statement (.afmax a0 m a2 a3 a4 off) := by
  rintro _ ⟨⟩; exact Enc.fits_mid (by decide) (modM_lt _ _ _ _ (by have := m.space.code_lt; have := m.nr.toNat_lt; omega)) (by omega)
theorem Laws.Fits.rctx (a0 : _) (op : _) (t : _) (scope : _) (ctx : _) (a5 : _) (a6 : _) (a7 : _) (a8 : _) : Fits.Statement (.rctx a0 op t scope ctx a5 a6 a7 a8) := by
  rintro _ ⟨⟩; exact Enc.fits_long (by decide) (modM_lt _ _ _ _ (by omega)) (by decide) (by have := op.code_lt; omega)
theorem Laws.Fits.rdet (a0 : _) (t : _) (ctx : _) (a3 : _) (a4 : _) (a5 : _) : Fits.Statement (.rdet a0 t ctx a3 a4 a5) := by
  rintro _ ⟨⟩; exact Enc.fits_mid (by decide) (modM_lt _ _ _ _ (by omega)) (by decide)
theorem Laws.Fits.rclose (a0 : _) (ctx : _) (a2 : _) : Fits.Statement (.rclose a0 ctx a2) := by
  rintro _ ⟨⟩; exact Enc.fits_short (by decide) (modM_lt _ _ _ _ (by omega))
theorem Laws.Fits.fence (a0 : _) (scope : _) : Fits.Statement (.fence a0 scope) := by
  rintro _ ⟨⟩; exact Enc.fits_short (by decide) (modM_lt _ _ _ _ (by decide))
theorem Laws.Fits.acq (a0 : _) (scope : _) : Fits.Statement (.acq a0 scope) := by
  rintro _ ⟨⟩; exact Enc.fits_short (by decide) (modM_lt _ _ _ _ (by decide))
theorem Laws.Fits.rel (a0 : _) (scope : _) : Fits.Statement (.rel a0 scope) := by
  rintro _ ⟨⟩; exact Enc.fits_short (by decide) (modM_lt _ _ _ _ (by decide))
theorem Laws.Fits.acqRp (a0 : _) (t : _) (scope : _) (a3 : _) (a4 : _) (off : _) : Fits.Statement (.acqRp a0 t scope a3 a4 off) := by
  rintro _ ⟨⟩; exact Enc.fits_mid (by decide) (modM_lt _ _ _ _ (by decide)) (by omega)
theorem Laws.Fits.bar (a0 : _) (b : _) (a2 : _) : Fits.Statement (.bar a0 b a2) := by
  rintro _ ⟨⟩; exact Enc.fits_short (by decide) (modM_lt _ _ _ _ (by omega))
theorem Laws.Fits.barArr (a0 : _) (b : _) (a2 : _) (a3 : _) : Fits.Statement (.barArr a0 b a2 a3) := by
  rintro _ ⟨⟩; exact Enc.fits_short (by decide) (modM_lt _ _ _ _ (by omega))
theorem Laws.Fits.barWait (a0 : _) (b : _) (a2 : _) : Fits.Statement (.barWait a0 b a2) := by
  rintro _ ⟨⟩; exact Enc.fits_short (by decide) (modM_lt _ _ _ _ (by omega))
theorem Laws.Fits.bbInit (a0 : _) (a1 : _) : Fits.Statement (.bbInit a0 a1) := by
  rintro _ ⟨⟩; exact Enc.fits_mid (by decide) (modM_lt _ _ _ _ (by decide)) (by decide)
theorem Laws.Fits.bbExp (a0 : _) (a1 : _) (a2 : _) (a3 : _) : Fits.Statement (.bbExp a0 a1 a2 a3) := by
  rintro _ ⟨⟩; exact Enc.fits_mid (by decide) (modM_lt _ _ _ _ (by decide)) (by decide)
theorem Laws.Fits.bbWait (a0 : _) (scope : _) (a2 : _) (a3 : _) : Fits.Statement (.bbWait a0 scope a2 a3) := by
  rintro _ ⟨⟩; exact Enc.fits_short (by decide) (modM_lt _ _ _ _ (by decide))
theorem Laws.Fits.spawn (a0 : _) (a1 : _) (a2 : _) : Fits.Statement (.spawn a0 a1 a2) := by
  rintro _ ⟨⟩; exact Enc.fits_short (by decide) (by decide)
theorem Laws.Fits.spawnR (a0 : _) (a1 : _) (a2 : _) (a3 : _) : Fits.Statement (.spawnR a0 a1 a2 a3) := by
  rintro _ ⟨⟩; exact Enc.fits_short (by decide) (by decide)
theorem Laws.Fits.join (a0 : _) (a1 : _) (a2 : _) : Fits.Statement (.join a0 a1 a2) := by
  rintro _ ⟨⟩; exact Enc.fits_short (by decide) (by decide)
theorem Laws.Fits.joinT (a0 : _) (a1 : _) (a2 : _) : Fits.Statement (.joinT a0 a1 a2) := by
  rintro _ ⟨⟩; exact Enc.fits_short (by decide) (by decide)
theorem Laws.Fits.resolve (a0 : _) (a1 : _) (a2 : _) (a3 : _) : Fits.Statement (.resolve a0 a1 a2 a3) := by
  rintro _ ⟨⟩; exact Enc.fits_short (by decide) (by decide)
theorem Laws.Fits.taskEnd (a0 : _) (v : _) : Fits.Statement (.taskEnd a0 v) := by
  rintro _ ⟨⟩; exact Enc.fits_short (by decide) (by have := v.isSome.toNat_lt; omega)
theorem Laws.Fits.finOpen (a0 : _) (a1 : _) (a2 : _) (a3 : _) : Fits.Statement (.finOpen a0 a1 a2 a3) := by
  rintro _ ⟨⟩; exact Enc.fits_short (by decide) (by decide)
theorem Laws.Fits.finClose (a0 : _) (s : _) : Fits.Statement (.finClose a0 s) := by
  rintro _ ⟨⟩; exact Enc.fits_short (by decide) (by have := s.opx_lt; omega)
theorem Laws.Fits.finWait (a0 : _) (s : _) : Fits.Statement (.finWait a0 s) := by
  rintro _ ⟨⟩; exact Enc.fits_short (by decide) (by have := s.opx_lt; omega)
theorem Laws.Fits.capq (a0 : _) (n : _) (a2 : _) : Fits.Statement (.capq a0 n a2) := by
  rintro _ ⟨⟩; exact Enc.fits_short (by decide) (by omega)
theorem Laws.Fits.bcopy (a0 : _) (dst : _) (src : _) (scope : _) (a4 : _) (a5 : _) (a6 : _) (cell : _) : Fits.Statement (.bcopy a0 dst src scope a4 a5 a6 cell) := by
  rintro _ ⟨⟩; exact Enc.fits_long (by decide) (modM_lt _ _ _ _ (by have := dst.code_lt; have := src.code_lt; omega)) (by decide) (by have := cellBits_lt cell; omega)
theorem Laws.Fits.bcopy2d (a0 : _) (dst : _) (src : _) (scope : _) (a4 : _) (a5 : _) (a6 : _) (a7 : _) (cell : _) : Fits.Statement (.bcopy2d a0 dst src scope a4 a5 a6 a7 cell) := by
  rintro _ ⟨⟩; exact Enc.fits_long (by decide) (modM_lt _ _ _ _ (by have := dst.code_lt; have := src.code_lt; omega)) (by decide) (by have := cellBits_lt cell; omega)
theorem Laws.Fits.gath (a0 : _) (p : _) (scope : _) (a3 : _) (a4 : _) (a5 : _) (count : _) (sh : _) (es : _) (cell : _) : Fits.Statement (.gath a0 p scope a3 a4 a5 count sh es cell) := by
  rintro _ ⟨⟩; exact Enc.fits_long (by decide) (modM_lt _ _ _ _ (by have := p.code_lt; omega)) (by omega) (by have := cellBits_lt cell; omega)
theorem Laws.Fits.scat (a0 : _) (p : _) (scope : _) (a3 : _) (a4 : _) (a5 : _) (count : _) (sh : _) (es : _) (cell : _) : Fits.Statement (.scat a0 p scope a3 a4 a5 count sh es cell) := by
  rintro _ ⟨⟩; exact Enc.fits_long (by decide) (modM_lt _ _ _ _ (by have := p.code_lt; omega)) (by omega) (by have := cellBits_lt cell; omega)
theorem Laws.Fits.stage (a0 : _) (scope : _) (a2 : _) (a3 : _) (cell : _) : Fits.Statement (.stage a0 scope a2 a3 cell) := by
  rintro _ ⟨⟩; exact Enc.fits_mid (by decide) (modM_lt _ _ _ _ (by decide)) (by have := cellBits_lt cell; omega)
theorem Laws.Fits.cgrp (a0 : _) (scope : _) (g : _) (a3 : _) (a4 : _) (a5 : _) : Fits.Statement (.cgrp a0 scope g a3 a4 a5) := by
  rintro _ ⟨⟩; exact Enc.fits_long (by decide) (modM_lt _ _ _ _ (by decide)) (by decide) (by omega)
theorem Laws.Fits.cag (a0 : _) (dst : _) (src : _) (a3 : _) (a4 : _) (a5 : _) (a6 : _) (g : _) (bb : _) : Fits.Statement (.cag a0 dst src a3 a4 a5 a6 g bb) := by
  rintro _ ⟨⟩; exact Enc.fits_long (by decide) (modM_lt _ _ _ _ (by have := dst.code_lt; have := src.code_lt; omega)) (by decide) (by have := bb.toNat_lt; omega)
theorem Laws.Fits.crs (a0 : _) (op : _) (t : _) (dst : _) (src : _) (a5 : _) (a6 : _) (a7 : _) (a8 : _) (g : _) (bb : _) : Fits.Statement (.crs a0 op t dst src a5 a6 a7 a8 g bb) := by
  rintro _ ⟨⟩; exact Enc.fits_long (by decide) (modM_lt _ _ _ _ (by have := dst.code_lt; have := src.code_lt; omega)) (by decide) (by have := bb.toNat_lt; have := op.code_lt; omega)
theorem Laws.Fits.ca2a (a0 : _) (dst : _) (src : _) (a3 : _) (a4 : _) (a5 : _) (a6 : _) (g : _) (bb : _) : Fits.Statement (.ca2a a0 dst src a3 a4 a5 a6 g bb) := by
  rintro _ ⟨⟩; exact Enc.fits_long (by decide) (modM_lt _ _ _ _ (by have := dst.code_lt; have := src.code_lt; omega)) (by decide) (by have := bb.toNat_lt; omega)
theorem Laws.Fits.cbar (a0 : _) (a1 : _) (a2 : _) (bb : _) : Fits.Statement (.cbar a0 a1 a2 bb) := by
  rintro _ ⟨⟩; exact Enc.fits_short (by decide) (modM_lt _ _ _ _ (by have := bb.toNat_lt; omega))
theorem Laws.Fits.mma (a0 : _) (f : _) (aw : _) (bw : _) (a4 : _) (a5 : _) : Fits.Statement (.mma a0 f aw bw a4 a5) := by
  rintro _ ⟨⟩; exact Enc.fits_long (by decide) (by have := f.opx_lt; omega) (by decide) (by have := bw.toNat_lt; have := aw.toNat_lt; omega)
theorem Laws.Fits.mmaC (a0 : _) (f : _) (s : _) (bw : _) (a4 : _) : Fits.Statement (.mmaC a0 f s bw a4) := by
  rintro _ ⟨⟩; exact Enc.fits_long (by decide) (by have := f.opx_lt; omega) (by decide) (by have := s.ext_lt; have := bw.toNat_lt; omega)
theorem Laws.Fits.mmaS (a0 : _) (f : _) (aw : _) (bw : _) (a4 : _) (a5 : _) : Fits.Statement (.mmaS a0 f aw bw a4 a5) := by
  rintro _ ⟨⟩; exact Enc.fits_long (by decide) (by have := f.opx_lt; omega) (by decide) (by have := bw.toNat_lt; have := aw.toNat_lt; omega)
theorem Laws.Fits.mmaDs (a0 : _) (f : _) (aw : _) (bw : _) (a4 : _) (a5 : _) : Fits.Statement (.mmaDs a0 f aw bw a4 a5) := by
  rintro _ ⟨⟩; exact Enc.fits_long (by decide) (by have := f.opx_lt; omega) (by decide) (by have := bw.toNat_lt; have := aw.toNat_lt; omega)
theorem Laws.Fits.mmaG (a0 : _) (f : _) (aw : _) (a3 : _) (a4 : _) (a5 : _) (kb : _) (nadp : _) : Fits.Statement (.mmaG a0 f aw a3 a4 a5 kb nadp) := by
  rintro _ ⟨⟩; exact Enc.fits_long (by decide) (by have := f.opx_lt; omega) (by omega) (by have := aw.toNat_lt; omega)
theorem Laws.Fits.mmaGc (a0 : _) (f : _) (s : _) (a3 : _) (a4 : _) (nb : _) (nadp : _) : Fits.Statement (.mmaGc a0 f s a3 a4 nb nadp) := by
  rintro _ ⟨⟩; exact Enc.fits_long (by decide) (by have := f.opx_lt; omega) (by omega) (by have := s.ext_lt; omega)
theorem Laws.Fits.accAcq (a0 : _) (slot : _) : Fits.Statement (.accAcq a0 slot) := by
  rintro _ ⟨⟩; exact Enc.fits_short (by decide) (by omega)
theorem Laws.Fits.accRel (a0 : _) (slot : _) : Fits.Statement (.accRel a0 slot) := by
  rintro _ ⟨⟩; exact Enc.fits_short (by decide) (by omega)
theorem Laws.Fits.accLd (a0 : _) (slot : _) (quad : _) (a3 : _) : Fits.Statement (.accLd a0 slot quad a3) := by
  rintro _ ⟨⟩; exact Enc.fits_short (by decide) (by omega)
theorem Laws.Fits.accSt (a0 : _) (slot : _) (q : _) (sh : _) (sat : _) (t : _) (a6 : _) (stride : _) : Fits.Statement (.accSt a0 slot q sh sat t a6 stride) := by
  rintro _ ⟨⟩; exact Enc.fits_mid (by decide) (by have := sh.toNat_lt; have := sat.toNat_lt; have := t.code_lt; omega) (by omega)
theorem Laws.Fits.accZero (a0 : _) (slot : _) (q : _) (sh : _) : Fits.Statement (.accZero a0 slot q sh) := by
  rintro _ ⟨⟩; exact Enc.fits_short (by decide) (by have := sh.toNat_lt; omega)
theorem Laws.Fits.accQ (a0 : _) (slot : _) (a2 : _) : Fits.Statement (.accQ a0 slot a2) := by
  rintro _ ⟨⟩; exact Enc.fits_short (by decide) (by omega)
theorem Laws.Fits.movsRead (a0 : _) (r : _) (idx : _) (a3 : _) : Fits.Statement (.movsRead a0 r idx a3) := by
  rintro _ ⟨⟩; exact Enc.fits_short (by decide) (by have := r.code_lt; omega)
theorem Laws.Fits.movsWrite (a0 : _) (r : _) (idx : _) (a3 : _) : Fits.Statement (.movsWrite a0 r idx a3) := by
  rintro _ ⟨⟩; exact Enc.fits_short (by decide) (by have := r.code_lt; omega)
theorem Laws.Fits.sleep (a0 : _) (n : _) : Fits.Statement (.sleep a0 n) := by
  rintro _ ⟨⟩; exact Enc.fits_mid (by decide) (by decide) (by omega)
theorem Laws.Fits.ctxSave (a0 : _) (a1 : _) (a2 : _) (a3 : _) : Fits.Statement (.ctxSave a0 a1 a2 a3) := by
  rintro _ ⟨⟩; exact Enc.fits_short (by decide) (by decide)
theorem Laws.Fits.ctxLoad (a0 : _) (a1 : _) (a2 : _) (a3 : _) : Fits.Statement (.ctxLoad a0 a1 a2 a3) := by
  rintro _ ⟨⟩; exact Enc.fits_short (by decide) (by decide)
theorem Laws.Fits.frecRd (a0 : _) (a1 : _) : Fits.Statement (.frecRd a0 a1) := by
  rintro _ ⟨⟩; exact Enc.fits_short (by decide) (by decide)
theorem Laws.Fits.leaseTst (a0 : _) (a1 : _) (a2 : _) (pat : _) : Fits.Statement (.leaseTst a0 a1 a2 pat) := by
  rintro _ ⟨⟩; exact Enc.fits_mid (by decide) (by decide) (by omega)
theorem Laws.Fits.leaseRel (a0 : _) (a1 : _) (a2 : _) : Fits.Statement (.leaseRel a0 a1 a2) := by
  rintro _ ⟨⟩; exact Enc.fits_short (by decide) (by decide)
theorem Laws.Fits.tlbInv (a0 : _) (a1 : _) (a2 : _) : Fits.Statement (.tlbInv a0 a1 a2) := by
  rintro _ ⟨⟩; exact Enc.fits_mid (by decide) (by decide) (by decide)
theorem Laws.Fits.bezelRd (a0 : _) (a1 : _) (a2 : _) (off : _) : Fits.Statement (.bezelRd a0 a1 a2 off) := by
  rintro _ ⟨⟩; exact Enc.fits_mid (by decide) (by decide) (by omega)
theorem Laws.Fits.bezelWr (a0 : _) (a1 : _) (a2 : _) (off : _) : Fits.Statement (.bezelWr a0 a1 a2 off) := by
  rintro _ ⟨⟩; exact Enc.fits_mid (by decide) (by decide) (by omega)
theorem Laws.Fits.undervoltage : Fits.Statement .undervoltage := fun _ h => nomatch h
theorem Laws.Fits.peerLinkUp : Fits.Statement .peerLinkUp := fun _ h => nomatch h
theorem Laws.Fits.peerLinkRecovering : Fits.Statement .peerLinkRecovering := fun _ h => nomatch h
theorem Laws.Fits.peerLinkDown : Fits.Statement .peerLinkDown := fun _ h => nomatch h
theorem Laws.Fits.thermalStepDown : Fits.Statement .thermalStepDown := fun _ h => nomatch h
theorem Laws.Fits.thermalStepUp : Fits.Statement .thermalStepUp := fun _ h => nomatch h
theorem Laws.Fits.thermalHalt : Fits.Statement .thermalHalt := fun _ h => nomatch h
theorem Laws.Fits.mtimeRecord : Fits.Statement .mtimeRecord := fun _ h => nomatch h
theorem Laws.Fits.hourlyScoreDecay : Fits.Statement .hourlyScoreDecay := fun _ h => nomatch h
theorem Laws.Fits.adminQueueStart : Fits.Statement .adminQueueStart := fun _ h => nomatch h
theorem Laws.Fits.adminQueueStop : Fits.Statement .adminQueueStop := fun _ h => nomatch h
theorem Laws.Fits.scrubForce : Fits.Statement .scrubForce := fun _ h => nomatch h
theorem Laws.Fits.leaseStart : Fits.Statement .leaseStart := fun _ h => nomatch h
theorem Laws.Fits.leaseDrainDone : Fits.Statement .leaseDrainDone := fun _ h => nomatch h
theorem Laws.Fits.leaseReturn : Fits.Statement .leaseReturn := fun _ h => nomatch h
theorem Laws.Fits.leaseRetire : Fits.Statement .leaseRetire := fun _ h => nomatch h
theorem Laws.Fits.migrationSwitch : Fits.Statement .migrationSwitch := fun _ h => nomatch h
theorem Laws.Fits.peerHoldExpiry : Fits.Statement .peerHoldExpiry := fun _ h => nomatch h
theorem Laws.Fits.domainWritebackDone : Fits.Statement .domainWritebackDone := fun _ h => nomatch h
theorem Laws.Fits.domainSwitchDone : Fits.Statement .domainSwitchDone := fun _ h => nomatch h
theorem Laws.Fits.domainReplayDone : Fits.Statement .domainReplayDone := fun _ h => nomatch h
theorem Laws.Fits.staleGenReturn : Fits.Statement .staleGenReturn := fun _ h => nomatch h
theorem Laws.Fits.wake : Fits.Statement .wake := fun _ h => nomatch h
theorem Laws.Fits.wakeRelease : Fits.Statement .wakeRelease := fun _ h => nomatch h
theorem Laws.Fits.replicaEvict : Fits.Statement .replicaEvict := fun _ h => nomatch h
theorem Laws.Fits.inboxDeliver : Fits.Statement .inboxDeliver := fun _ h => nomatch h
theorem Laws.Fits.accountingWindow : Fits.Statement .accountingWindow := fun _ h => nomatch h
theorem Laws.Fits.drainDone : Fits.Statement .drainDone := fun _ h => nomatch h
theorem Laws.Fits.drainLimit : Fits.Statement .drainLimit := fun _ h => nomatch h
theorem Laws.Fits.saveComplete : Fits.Statement .saveComplete := fun _ h => nomatch h
theorem Laws.Fits.restoreComplete : Fits.Statement .restoreComplete := fun _ h => nomatch h
theorem Laws.Fits.gangKill : Fits.Statement .gangKill := fun _ h => nomatch h
theorem Laws.Fits.gangRelaunch : Fits.Statement .gangRelaunch := fun _ h => nomatch h
theorem Laws.Fits.launchCompletion : Fits.Statement .launchCompletion := fun _ h => nomatch h
theorem Laws.Fits.accFirstuse : Fits.Statement .accFirstuse := fun _ h => nomatch h
theorem Laws.Fits.stagingStart : Fits.Statement .stagingStart := fun _ h => nomatch h
theorem Laws.Fits.stagingComplete : Fits.Statement .stagingComplete := fun _ h => nomatch h
theorem Laws.Fits.lsShortage : Fits.Statement .lsShortage := fun _ h => nomatch h
theorem Laws.Fits.taskStart : Fits.Statement .taskStart := fun _ h => nomatch h
theorem Laws.Fits.stealRequest : Fits.Statement .stealRequest := fun _ h => nomatch h
theorem Laws.Fits.stealRequestReceive : Fits.Statement .stealRequestReceive := fun _ h => nomatch h
theorem Laws.Fits.stealReply : Fits.Statement .stealReply := fun _ h => nomatch h
theorem Laws.Fits.stealBackoff : Fits.Statement .stealBackoff := fun _ h => nomatch h
theorem Laws.Fits.stealIdleThreshold : Fits.Statement .stealIdleThreshold := fun _ h => nomatch h
theorem Laws.Fits.frameStarved : Fits.Statement .frameStarved := fun _ h => nomatch h
theorem Laws.Fits.frameGrant : Fits.Statement .frameGrant := fun _ h => nomatch h
theorem Laws.Fits.pathSelection : Fits.Statement .pathSelection := fun _ h => nomatch h
theorem Laws.Fits.storeAck : Fits.Statement .storeAck := fun _ h => nomatch h
theorem Laws.Fits.engineComplete : Fits.Statement .engineComplete := fun _ h => nomatch h
theorem Laws.Fits.collectiveCommit : Fits.Statement .collectiveCommit := fun _ h => nomatch h
theorem Laws.Fits.collectiveTimeout : Fits.Statement .collectiveTimeout := fun _ h => nomatch h
theorem Laws.Fits.reductionElementApply : Fits.Statement .reductionElementApply := fun _ h => nomatch h
theorem Laws.Fits.accSlotUpdate : Fits.Statement .accSlotUpdate := fun _ h => nomatch h
theorem Laws.Fits.joinWake : Fits.Statement .joinWake := fun _ h => nomatch h
theorem Laws.Fits.demandZeroFill : Fits.Statement .demandZeroFill := fun _ h => nomatch h
theorem Laws.Fits.watchdog : Fits.Statement .watchdog := fun _ h => nomatch h
theorem Laws.Fits.recoveryCapExpiry : Fits.Statement .recoveryCapExpiry := fun _ h => nomatch h
theorem Laws.Fits.sleepExpiry : Fits.Statement .sleepExpiry := fun _ h => nomatch h
theorem Laws.Fits.powerGate : Fits.Statement .powerGate := fun _ h => nomatch h

end Sys2Proof
end

