-- ==== Sys2Proof/Laws/Signed.lean ====
section
/-! SUPPORT. Signed objects: the flash store as shipped verifies, and what its regions hold. -/

namespace Sys2Proof.Machine

/-- Of two copies the good one counts where the other is not (R88). -/
theorem bestCopy_left {α : Type} {key : List Byte} {entries : Nat → α → List (List Byte)} {a b : Copy α}
    (ha : entriesOk key (entries a.seq a.val) a.sigs = true) (hb : entriesOk key (entries b.seq b.val) b.sigs = false) :
    bestCopy key entries a b = some a := by
  simp only [bestCopy, ha, hb]

/-- The identity record as shipped verifies under the release key (R85, R86). -/
theorem Flash.shipped_identity :
    objectOk Rom.shipped.releaseKey Flash.shipped.identity.body Flash.shipped.identity.sig = true := by decide +kernel

/-- The configuration as shipped is good in its first copy (R88). -/
theorem Flash.shipped_configA : entriesOk Flash.shipped.identity.idkey
    (Settings.entries Flash.shipped.configA.seq Flash.shipped.configA.val) Flash.shipped.configA.sigs = true := by
  decide +kernel

/-- The service store as shipped is good in its first copy (R88). -/
theorem Flash.shipped_serviceA : entriesOk Flash.shipped.identity.idkey
    (Service.entries Flash.shipped.serviceA.seq Flash.shipped.serviceA.val) Flash.shipped.serviceA.sigs = true := by
  decide +kernel

/-- The configuration as shipped. -/
theorem Flash.shipped_config : Flash.shipped.config = some ⟨0, 0, ⟨Config.defaultThreshold, 1, 0⟩⟩ := by
  rw [Flash.config, bestCopy_left Flash.shipped_configA (by decide +kernel), Option.map_some]
  rfl

/-- The service store as shipped. -/
theorem Flash.shipped_service : Flash.shipped.service = some ⟨[], 0⟩ := by
  rw [Flash.service, bestCopy_left Flash.shipped_serviceA (by decide +kernel), Option.map_some]
  rfl

/-- The store the model names at reset verifies (R24 step 1). -/
theorem Flash.shipped_verifies : Flash.shipped.verifies Rom.shipped = true := by
  simp only [Flash.verifies, Flash.shipped_identity, Flash.shipped_config, Flash.shipped_service, Option.isSome_some, Bool.and_self]

end Sys2Proof.Machine
end

