-- ==== Sys2Proof/Laws/State.lean ====
section
/-! SUPPORT. What each update of one table of the machine, of the hub or of the machine as a whole leaves in every field. -/

namespace Sys2Proof.Machine

variable (m : Mach) (s : State)

/-! ## `updTeam` -/

@[simp] theorem Mach.updTeam_mem (k : Nat) (f : Team → Team) : (m.updTeam k f).mem = m.mem := rfl
@[simp] theorem Mach.updTeam_poison (k : Nat) (f : Team → Team) : (m.updTeam k f).poison = m.poison := rfl
@[simp] theorem Mach.updTeam_dirty (k : Nat) (f : Team → Team) : (m.updTeam k f).dirty = m.dirty := rfl
@[simp] theorem Mach.updTeam_replicas (k : Nat) (f : Team → Team) : (m.updTeam k f).replicas = m.replicas := rfl
@[simp] theorem Mach.updTeam_hostLines (k : Nat) (f : Team → Team) : (m.updTeam k f).hostLines = m.hostLines := rfl
@[simp] theorem Mach.updTeam_l2 (k : Nat) (f : Team → Team) : (m.updTeam k f).l2 = m.l2 := rfl
@[simp] theorem Mach.updTeam_l2rank (k : Nat) (f : Team → Team) : (m.updTeam k f).l2rank = m.l2rank := rfl
@[simp] theorem Mach.updTeam_hostCopies (k : Nat) (f : Team → Team) : (m.updTeam k f).hostCopies = m.hostCopies := rfl
@[simp] theorem Mach.updTeam_hostOut (k : Nat) (f : Team → Team) : (m.updTeam k f).hostOut = m.hostOut := rfl
@[simp] theorem Mach.updTeam_relcore (k : Nat) (f : Team → Team) : (m.updTeam k f).relcore = m.relcore := rfl
@[simp] theorem Mach.updTeam_blocks (k : Nat) (f : Team → Team) : (m.updTeam k f).blocks = m.blocks := rfl
@[simp] theorem Mach.updTeam_domains (k : Nat) (f : Team → Team) : (m.updTeam k f).domains = m.domains := rfl
@[simp] theorem Mach.updTeam_pins (k : Nat) (f : Team → Team) : (m.updTeam k f).pins = m.pins := rfl
@[simp] theorem Mach.updTeam_pinning (k : Nat) (f : Team → Team) : (m.updTeam k f).pinning = m.pinning := rfl
@[simp] theorem Mach.updTeam_uncached (k : Nat) (f : Team → Team) : (m.updTeam k f).uncached = m.uncached := rfl
@[simp] theorem Mach.updTeam_cmps (k : Nat) (f : Team → Team) : (m.updTeam k f).cmps = m.cmps := rfl
@[simp] theorem Mach.updTeam_migs (k : Nat) (f : Team → Team) : (m.updTeam k f).migs = m.migs := rfl
@[simp] theorem Mach.updTeam_moved (k : Nat) (f : Team → Team) : (m.updTeam k f).moved = m.moved := rfl
@[simp] theorem Mach.updTeam_freed (k : Nat) (f : Team → Team) : (m.updTeam k f).freed = m.freed := rfl
@[simp] theorem Mach.updTeam_phys (k : Nat) (f : Team → Team) : (m.updTeam k f).phys = m.phys := rfl
@[simp] theorem Mach.updTeam_gated (k : Nat) (f : Team → Team) : (m.updTeam k f).gated = m.gated := rfl
@[simp] theorem Mach.updTeam_heldMsgs (k : Nat) (f : Team → Team) : (m.updTeam k f).heldMsgs = m.heldMsgs := rfl
@[simp] theorem Mach.updTeam_device (k : Nat) (f : Team → Team) : (m.updTeam k f).device = m.device := rfl
@[simp] theorem Mach.updTeam_peers (k : Nat) (f : Team → Team) : (m.updTeam k f).peers = m.peers := rfl
@[simp] theorem Mach.updTeam_links (k : Nat) (f : Team → Team) : (m.updTeam k f).links = m.links := rfl
@[simp] theorem Mach.updTeam_peerOut (k : Nat) (f : Team → Team) : (m.updTeam k f).peerOut = m.peerOut := rfl
@[simp] theorem Mach.updTeam_peerIn (k : Nat) (f : Team → Team) : (m.updTeam k f).peerIn = m.peerIn := rfl
@[simp] theorem Mach.updTeam_remoteCells (k : Nat) (f : Team → Team) : (m.updTeam k f).remoteCells = m.remoteCells := rfl
@[simp] theorem Mach.updTeam_late (k : Nat) (f : Team → Team) : (m.updTeam k f).late = m.late := rfl
@[simp] theorem Mach.updTeam_dueFutures (k : Nat) (f : Team → Team) : (m.updTeam k f).dueFutures = m.dueFutures := rfl
@[simp] theorem Mach.updTeam_ctxs (k : Nat) (f : Team → Team) : (m.updTeam k f).ctxs = m.ctxs := rfl
@[simp] theorem Mach.updTeam_demand (k : Nat) (f : Team → Team) : (m.updTeam k f).demand = m.demand := rfl
@[simp] theorem Mach.updTeam_clock (k : Nat) (f : Team → Team) : (m.updTeam k f).clock = m.clock := rfl
@[simp] theorem Mach.updTeam_mtime (k : Nat) (f : Team → Team) : (m.updTeam k f).mtime = m.mtime := rfl
@[simp] theorem Mach.updTeam_dieTlb (k : Nat) (f : Team → Team) : (m.updTeam k f).dieTlb = m.dieTlb := rfl
@[simp] theorem Mach.updTeam_cores (k : Nat) (f : Team → Team) : (m.updTeam k f).cores = m.cores := rfl
@[simp] theorem Mach.updTeam_launches (k : Nat) (f : Team → Team) : (m.updTeam k f).launches = m.launches := rfl
@[simp] theorem Mach.updTeam_teams (k : Nat) (f : Team → Team) : (m.updTeam k f).teams = m.teams.upd k f := rfl
@[simp] theorem Mach.updTeam_warps (k : Nat) (f : Team → Team) : (m.updTeam k f).warps = m.warps := rfl
@[simp] theorem Mach.updTeam_tasks (k : Nat) (f : Team → Team) : (m.updTeam k f).tasks = m.tasks := rfl
@[simp] theorem Mach.updTeam_frames (k : Nat) (f : Team → Team) : (m.updTeam k f).frames = m.frames := rfl
@[simp] theorem Mach.updTeam_ops (k : Nat) (f : Team → Team) : (m.updTeam k f).ops = m.ops := rfl
@[simp] theorem Mach.updTeam_kills (k : Nat) (f : Team → Team) : (m.updTeam k f).kills = m.kills := rfl
@[simp] theorem Mach.updTeam_svctl (k : Nat) (f : Team → Team) : (m.updTeam k f).svctl = m.svctl := rfl
@[simp] theorem Mach.updTeam_rplctl (k : Nat) (f : Team → Team) : (m.updTeam k f).rplctl = m.rplctl := rfl
@[simp] theorem Mach.updTeam_focus (k : Nat) (f : Team → Team) : (m.updTeam k f).focus = m.focus := rfl
@[simp] theorem Mach.updTeam_serial (k : Nat) (f : Team → Team) : (m.updTeam k f).serial = m.serial := rfl
@[simp] theorem Mach.updTeam_free (k : Nat) (f : Team → Team) : (m.updTeam k f).free = m.free := rfl
@[simp] theorem Mach.updTeam_refetch (k : Nat) (f : Team → Team) : (m.updTeam k f).refetch = m.refetch := rfl

/-! ## `updWarp` -/

@[simp] theorem Mach.updWarp_mem (tk w : Nat) (f : Warp → Warp) : (m.updWarp tk w f).mem = m.mem := rfl
@[simp] theorem Mach.updWarp_poison (tk w : Nat) (f : Warp → Warp) : (m.updWarp tk w f).poison = m.poison := rfl
@[simp] theorem Mach.updWarp_dirty (tk w : Nat) (f : Warp → Warp) : (m.updWarp tk w f).dirty = m.dirty := rfl
@[simp] theorem Mach.updWarp_replicas (tk w : Nat) (f : Warp → Warp) : (m.updWarp tk w f).replicas = m.replicas := rfl
@[simp] theorem Mach.updWarp_hostLines (tk w : Nat) (f : Warp → Warp) : (m.updWarp tk w f).hostLines = m.hostLines := rfl
@[simp] theorem Mach.updWarp_l2 (tk w : Nat) (f : Warp → Warp) : (m.updWarp tk w f).l2 = m.l2 := rfl
@[simp] theorem Mach.updWarp_l2rank (tk w : Nat) (f : Warp → Warp) : (m.updWarp tk w f).l2rank = m.l2rank := rfl
@[simp] theorem Mach.updWarp_hostCopies (tk w : Nat) (f : Warp → Warp) : (m.updWarp tk w f).hostCopies = m.hostCopies := rfl
@[simp] theorem Mach.updWarp_hostOut (tk w : Nat) (f : Warp → Warp) : (m.updWarp tk w f).hostOut = m.hostOut := rfl
@[simp] theorem Mach.updWarp_relcore (tk w : Nat) (f : Warp → Warp) : (m.updWarp tk w f).relcore = m.relcore := rfl
@[simp] theorem Mach.updWarp_blocks (tk w : Nat) (f : Warp → Warp) : (m.updWarp tk w f).blocks = m.blocks := rfl
@[simp] theorem Mach.updWarp_domains (tk w : Nat) (f : Warp → Warp) : (m.updWarp tk w f).domains = m.domains := rfl
@[simp] theorem Mach.updWarp_pins (tk w : Nat) (f : Warp → Warp) : (m.updWarp tk w f).pins = m.pins := rfl
@[simp] theorem Mach.updWarp_pinning (tk w : Nat) (f : Warp → Warp) : (m.updWarp tk w f).pinning = m.pinning := rfl
@[simp] theorem Mach.updWarp_uncached (tk w : Nat) (f : Warp → Warp) : (m.updWarp tk w f).uncached = m.uncached := rfl
@[simp] theorem Mach.updWarp_cmps (tk w : Nat) (f : Warp → Warp) : (m.updWarp tk w f).cmps = m.cmps := rfl
@[simp] theorem Mach.updWarp_migs (tk w : Nat) (f : Warp → Warp) : (m.updWarp tk w f).migs = m.migs := rfl
@[simp] theorem Mach.updWarp_moved (tk w : Nat) (f : Warp → Warp) : (m.updWarp tk w f).moved = m.moved := rfl
@[simp] theorem Mach.updWarp_freed (tk w : Nat) (f : Warp → Warp) : (m.updWarp tk w f).freed = m.freed := rfl
@[simp] theorem Mach.updWarp_phys (tk w : Nat) (f : Warp → Warp) : (m.updWarp tk w f).phys = m.phys := rfl
@[simp] theorem Mach.updWarp_gated (tk w : Nat) (f : Warp → Warp) : (m.updWarp tk w f).gated = m.gated := rfl
@[simp] theorem Mach.updWarp_heldMsgs (tk w : Nat) (f : Warp → Warp) : (m.updWarp tk w f).heldMsgs = m.heldMsgs := rfl
@[simp] theorem Mach.updWarp_device (tk w : Nat) (f : Warp → Warp) : (m.updWarp tk w f).device = m.device := rfl
@[simp] theorem Mach.updWarp_peers (tk w : Nat) (f : Warp → Warp) : (m.updWarp tk w f).peers = m.peers := rfl
@[simp] theorem Mach.updWarp_links (tk w : Nat) (f : Warp → Warp) : (m.updWarp tk w f).links = m.links := rfl
@[simp] theorem Mach.updWarp_peerOut (tk w : Nat) (f : Warp → Warp) : (m.updWarp tk w f).peerOut = m.peerOut := rfl
@[simp] theorem Mach.updWarp_peerIn (tk w : Nat) (f : Warp → Warp) : (m.updWarp tk w f).peerIn = m.peerIn := rfl
@[simp] theorem Mach.updWarp_remoteCells (tk w : Nat) (f : Warp → Warp) : (m.updWarp tk w f).remoteCells = m.remoteCells := rfl
@[simp] theorem Mach.updWarp_late (tk w : Nat) (f : Warp → Warp) : (m.updWarp tk w f).late = m.late := rfl
@[simp] theorem Mach.updWarp_dueFutures (tk w : Nat) (f : Warp → Warp) : (m.updWarp tk w f).dueFutures = m.dueFutures := rfl
@[simp] theorem Mach.updWarp_ctxs (tk w : Nat) (f : Warp → Warp) : (m.updWarp tk w f).ctxs = m.ctxs := rfl
@[simp] theorem Mach.updWarp_demand (tk w : Nat) (f : Warp → Warp) : (m.updWarp tk w f).demand = m.demand := rfl
@[simp] theorem Mach.updWarp_clock (tk w : Nat) (f : Warp → Warp) : (m.updWarp tk w f).clock = m.clock := rfl
@[simp] theorem Mach.updWarp_mtime (tk w : Nat) (f : Warp → Warp) : (m.updWarp tk w f).mtime = m.mtime := rfl
@[simp] theorem Mach.updWarp_dieTlb (tk w : Nat) (f : Warp → Warp) : (m.updWarp tk w f).dieTlb = m.dieTlb := rfl
@[simp] theorem Mach.updWarp_cores (tk w : Nat) (f : Warp → Warp) : (m.updWarp tk w f).cores = m.cores := rfl
@[simp] theorem Mach.updWarp_launches (tk w : Nat) (f : Warp → Warp) : (m.updWarp tk w f).launches = m.launches := rfl
@[simp] theorem Mach.updWarp_teams (tk w : Nat) (f : Warp → Warp) : (m.updWarp tk w f).teams = m.teams := rfl
@[simp] theorem Mach.updWarp_warps (tk w : Nat) (f : Warp → Warp) : (m.updWarp tk w f).warps = m.warps.upd (warpKey tk w) f := rfl
@[simp] theorem Mach.updWarp_tasks (tk w : Nat) (f : Warp → Warp) : (m.updWarp tk w f).tasks = m.tasks := rfl
@[simp] theorem Mach.updWarp_frames (tk w : Nat) (f : Warp → Warp) : (m.updWarp tk w f).frames = m.frames := rfl
@[simp] theorem Mach.updWarp_ops (tk w : Nat) (f : Warp → Warp) : (m.updWarp tk w f).ops = m.ops := rfl
@[simp] theorem Mach.updWarp_kills (tk w : Nat) (f : Warp → Warp) : (m.updWarp tk w f).kills = m.kills := rfl
@[simp] theorem Mach.updWarp_svctl (tk w : Nat) (f : Warp → Warp) : (m.updWarp tk w f).svctl = m.svctl := rfl
@[simp] theorem Mach.updWarp_rplctl (tk w : Nat) (f : Warp → Warp) : (m.updWarp tk w f).rplctl = m.rplctl := rfl
@[simp] theorem Mach.updWarp_focus (tk w : Nat) (f : Warp → Warp) : (m.updWarp tk w f).focus = m.focus := rfl
@[simp] theorem Mach.updWarp_serial (tk w : Nat) (f : Warp → Warp) : (m.updWarp tk w f).serial = m.serial := rfl
@[simp] theorem Mach.updWarp_free (tk w : Nat) (f : Warp → Warp) : (m.updWarp tk w f).free = m.free := rfl
@[simp] theorem Mach.updWarp_refetch (tk w : Nat) (f : Warp → Warp) : (m.updWarp tk w f).refetch = m.refetch := rfl

/-! ## `updTask` -/

@[simp] theorem Mach.updTask_mem (t : Nat) (f : Task → Task) : (m.updTask t f).mem = m.mem := rfl
@[simp] theorem Mach.updTask_poison (t : Nat) (f : Task → Task) : (m.updTask t f).poison = m.poison := rfl
@[simp] theorem Mach.updTask_dirty (t : Nat) (f : Task → Task) : (m.updTask t f).dirty = m.dirty := rfl
@[simp] theorem Mach.updTask_replicas (t : Nat) (f : Task → Task) : (m.updTask t f).replicas = m.replicas := rfl
@[simp] theorem Mach.updTask_hostLines (t : Nat) (f : Task → Task) : (m.updTask t f).hostLines = m.hostLines := rfl
@[simp] theorem Mach.updTask_l2 (t : Nat) (f : Task → Task) : (m.updTask t f).l2 = m.l2 := rfl
@[simp] theorem Mach.updTask_l2rank (t : Nat) (f : Task → Task) : (m.updTask t f).l2rank = m.l2rank := rfl
@[simp] theorem Mach.updTask_hostCopies (t : Nat) (f : Task → Task) : (m.updTask t f).hostCopies = m.hostCopies := rfl
@[simp] theorem Mach.updTask_hostOut (t : Nat) (f : Task → Task) : (m.updTask t f).hostOut = m.hostOut := rfl
@[simp] theorem Mach.updTask_relcore (t : Nat) (f : Task → Task) : (m.updTask t f).relcore = m.relcore := rfl
@[simp] theorem Mach.updTask_blocks (t : Nat) (f : Task → Task) : (m.updTask t f).blocks = m.blocks := rfl
@[simp] theorem Mach.updTask_domains (t : Nat) (f : Task → Task) : (m.updTask t f).domains = m.domains := rfl
@[simp] theorem Mach.updTask_pins (t : Nat) (f : Task → Task) : (m.updTask t f).pins = m.pins := rfl
@[simp] theorem Mach.updTask_pinning (t : Nat) (f : Task → Task) : (m.updTask t f).pinning = m.pinning := rfl
@[simp] theorem Mach.updTask_uncached (t : Nat) (f : Task → Task) : (m.updTask t f).uncached = m.uncached := rfl
@[simp] theorem Mach.updTask_cmps (t : Nat) (f : Task → Task) : (m.updTask t f).cmps = m.cmps := rfl
@[simp] theorem Mach.updTask_migs (t : Nat) (f : Task → Task) : (m.updTask t f).migs = m.migs := rfl
@[simp] theorem Mach.updTask_moved (t : Nat) (f : Task → Task) : (m.updTask t f).moved = m.moved := rfl
@[simp] theorem Mach.updTask_freed (t : Nat) (f : Task → Task) : (m.updTask t f).freed = m.freed := rfl
@[simp] theorem Mach.updTask_phys (t : Nat) (f : Task → Task) : (m.updTask t f).phys = m.phys := rfl
@[simp] theorem Mach.updTask_gated (t : Nat) (f : Task → Task) : (m.updTask t f).gated = m.gated := rfl
@[simp] theorem Mach.updTask_heldMsgs (t : Nat) (f : Task → Task) : (m.updTask t f).heldMsgs = m.heldMsgs := rfl
@[simp] theorem Mach.updTask_device (t : Nat) (f : Task → Task) : (m.updTask t f).device = m.device := rfl
@[simp] theorem Mach.updTask_peers (t : Nat) (f : Task → Task) : (m.updTask t f).peers = m.peers := rfl
@[simp] theorem Mach.updTask_links (t : Nat) (f : Task → Task) : (m.updTask t f).links = m.links := rfl
@[simp] theorem Mach.updTask_peerOut (t : Nat) (f : Task → Task) : (m.updTask t f).peerOut = m.peerOut := rfl
@[simp] theorem Mach.updTask_peerIn (t : Nat) (f : Task → Task) : (m.updTask t f).peerIn = m.peerIn := rfl
@[simp] theorem Mach.updTask_remoteCells (t : Nat) (f : Task → Task) : (m.updTask t f).remoteCells = m.remoteCells := rfl
@[simp] theorem Mach.updTask_late (t : Nat) (f : Task → Task) : (m.updTask t f).late = m.late := rfl
@[simp] theorem Mach.updTask_dueFutures (t : Nat) (f : Task → Task) : (m.updTask t f).dueFutures = m.dueFutures := rfl
@[simp] theorem Mach.updTask_ctxs (t : Nat) (f : Task → Task) : (m.updTask t f).ctxs = m.ctxs := rfl
@[simp] theorem Mach.updTask_demand (t : Nat) (f : Task → Task) : (m.updTask t f).demand = m.demand := rfl
@[simp] theorem Mach.updTask_clock (t : Nat) (f : Task → Task) : (m.updTask t f).clock = m.clock := rfl
@[simp] theorem Mach.updTask_mtime (t : Nat) (f : Task → Task) : (m.updTask t f).mtime = m.mtime := rfl
@[simp] theorem Mach.updTask_dieTlb (t : Nat) (f : Task → Task) : (m.updTask t f).dieTlb = m.dieTlb := rfl
@[simp] theorem Mach.updTask_cores (t : Nat) (f : Task → Task) : (m.updTask t f).cores = m.cores := rfl
@[simp] theorem Mach.updTask_launches (t : Nat) (f : Task → Task) : (m.updTask t f).launches = m.launches := rfl
@[simp] theorem Mach.updTask_teams (t : Nat) (f : Task → Task) : (m.updTask t f).teams = m.teams := rfl
@[simp] theorem Mach.updTask_warps (t : Nat) (f : Task → Task) : (m.updTask t f).warps = m.warps := rfl
@[simp] theorem Mach.updTask_tasks (t : Nat) (f : Task → Task) : (m.updTask t f).tasks = m.tasks.upd t f := rfl
@[simp] theorem Mach.updTask_frames (t : Nat) (f : Task → Task) : (m.updTask t f).frames = m.frames := rfl
@[simp] theorem Mach.updTask_ops (t : Nat) (f : Task → Task) : (m.updTask t f).ops = m.ops := rfl
@[simp] theorem Mach.updTask_kills (t : Nat) (f : Task → Task) : (m.updTask t f).kills = m.kills := rfl
@[simp] theorem Mach.updTask_svctl (t : Nat) (f : Task → Task) : (m.updTask t f).svctl = m.svctl := rfl
@[simp] theorem Mach.updTask_rplctl (t : Nat) (f : Task → Task) : (m.updTask t f).rplctl = m.rplctl := rfl
@[simp] theorem Mach.updTask_focus (t : Nat) (f : Task → Task) : (m.updTask t f).focus = m.focus := rfl
@[simp] theorem Mach.updTask_serial (t : Nat) (f : Task → Task) : (m.updTask t f).serial = m.serial := rfl
@[simp] theorem Mach.updTask_free (t : Nat) (f : Task → Task) : (m.updTask t f).free = m.free := rfl
@[simp] theorem Mach.updTask_refetch (t : Nat) (f : Task → Task) : (m.updTask t f).refetch = m.refetch := rfl

/-! ## `updFrame` -/

@[simp] theorem Mach.updFrame_mem (k : Nat) (f : Frame → Frame) : (m.updFrame k f).mem = m.mem := rfl
@[simp] theorem Mach.updFrame_poison (k : Nat) (f : Frame → Frame) : (m.updFrame k f).poison = m.poison := rfl
@[simp] theorem Mach.updFrame_dirty (k : Nat) (f : Frame → Frame) : (m.updFrame k f).dirty = m.dirty := rfl
@[simp] theorem Mach.updFrame_replicas (k : Nat) (f : Frame → Frame) : (m.updFrame k f).replicas = m.replicas := rfl
@[simp] theorem Mach.updFrame_hostLines (k : Nat) (f : Frame → Frame) : (m.updFrame k f).hostLines = m.hostLines := rfl
@[simp] theorem Mach.updFrame_l2 (k : Nat) (f : Frame → Frame) : (m.updFrame k f).l2 = m.l2 := rfl
@[simp] theorem Mach.updFrame_l2rank (k : Nat) (f : Frame → Frame) : (m.updFrame k f).l2rank = m.l2rank := rfl
@[simp] theorem Mach.updFrame_hostCopies (k : Nat) (f : Frame → Frame) : (m.updFrame k f).hostCopies = m.hostCopies := rfl
@[simp] theorem Mach.updFrame_hostOut (k : Nat) (f : Frame → Frame) : (m.updFrame k f).hostOut = m.hostOut := rfl
@[simp] theorem Mach.updFrame_relcore (k : Nat) (f : Frame → Frame) : (m.updFrame k f).relcore = m.relcore := rfl
@[simp] theorem Mach.updFrame_blocks (k : Nat) (f : Frame → Frame) : (m.updFrame k f).blocks = m.blocks := rfl
@[simp] theorem Mach.updFrame_domains (k : Nat) (f : Frame → Frame) : (m.updFrame k f).domains = m.domains := rfl
@[simp] theorem Mach.updFrame_pins (k : Nat) (f : Frame → Frame) : (m.updFrame k f).pins = m.pins := rfl
@[simp] theorem Mach.updFrame_pinning (k : Nat) (f : Frame → Frame) : (m.updFrame k f).pinning = m.pinning := rfl
@[simp] theorem Mach.updFrame_uncached (k : Nat) (f : Frame → Frame) : (m.updFrame k f).uncached = m.uncached := rfl
@[simp] theorem Mach.updFrame_cmps (k : Nat) (f : Frame → Frame) : (m.updFrame k f).cmps = m.cmps := rfl
@[simp] theorem Mach.updFrame_migs (k : Nat) (f : Frame → Frame) : (m.updFrame k f).migs = m.migs := rfl
@[simp] theorem Mach.updFrame_moved (k : Nat) (f : Frame → Frame) : (m.updFrame k f).moved = m.moved := rfl
@[simp] theorem Mach.updFrame_freed (k : Nat) (f : Frame → Frame) : (m.updFrame k f).freed = m.freed := rfl
@[simp] theorem Mach.updFrame_phys (k : Nat) (f : Frame → Frame) : (m.updFrame k f).phys = m.phys := rfl
@[simp] theorem Mach.updFrame_gated (k : Nat) (f : Frame → Frame) : (m.updFrame k f).gated = m.gated := rfl
@[simp] theorem Mach.updFrame_heldMsgs (k : Nat) (f : Frame → Frame) : (m.updFrame k f).heldMsgs = m.heldMsgs := rfl
@[simp] theorem Mach.updFrame_device (k : Nat) (f : Frame → Frame) : (m.updFrame k f).device = m.device := rfl
@[simp] theorem Mach.updFrame_peers (k : Nat) (f : Frame → Frame) : (m.updFrame k f).peers = m.peers := rfl
@[simp] theorem Mach.updFrame_links (k : Nat) (f : Frame → Frame) : (m.updFrame k f).links = m.links := rfl
@[simp] theorem Mach.updFrame_peerOut (k : Nat) (f : Frame → Frame) : (m.updFrame k f).peerOut = m.peerOut := rfl
@[simp] theorem Mach.updFrame_peerIn (k : Nat) (f : Frame → Frame) : (m.updFrame k f).peerIn = m.peerIn := rfl
@[simp] theorem Mach.updFrame_remoteCells (k : Nat) (f : Frame → Frame) : (m.updFrame k f).remoteCells = m.remoteCells := rfl
@[simp] theorem Mach.updFrame_late (k : Nat) (f : Frame → Frame) : (m.updFrame k f).late = m.late := rfl
@[simp] theorem Mach.updFrame_dueFutures (k : Nat) (f : Frame → Frame) : (m.updFrame k f).dueFutures = m.dueFutures := rfl
@[simp] theorem Mach.updFrame_ctxs (k : Nat) (f : Frame → Frame) : (m.updFrame k f).ctxs = m.ctxs := rfl
@[simp] theorem Mach.updFrame_demand (k : Nat) (f : Frame → Frame) : (m.updFrame k f).demand = m.demand := rfl
@[simp] theorem Mach.updFrame_clock (k : Nat) (f : Frame → Frame) : (m.updFrame k f).clock = m.clock := rfl
@[simp] theorem Mach.updFrame_mtime (k : Nat) (f : Frame → Frame) : (m.updFrame k f).mtime = m.mtime := rfl
@[simp] theorem Mach.updFrame_dieTlb (k : Nat) (f : Frame → Frame) : (m.updFrame k f).dieTlb = m.dieTlb := rfl
@[simp] theorem Mach.updFrame_cores (k : Nat) (f : Frame → Frame) : (m.updFrame k f).cores = m.cores := rfl
@[simp] theorem Mach.updFrame_launches (k : Nat) (f : Frame → Frame) : (m.updFrame k f).launches = m.launches := rfl
@[simp] theorem Mach.updFrame_teams (k : Nat) (f : Frame → Frame) : (m.updFrame k f).teams = m.teams := rfl
@[simp] theorem Mach.updFrame_warps (k : Nat) (f : Frame → Frame) : (m.updFrame k f).warps = m.warps := rfl
@[simp] theorem Mach.updFrame_tasks (k : Nat) (f : Frame → Frame) : (m.updFrame k f).tasks = m.tasks := rfl
@[simp] theorem Mach.updFrame_frames (k : Nat) (f : Frame → Frame) : (m.updFrame k f).frames = m.frames.upd k f := rfl
@[simp] theorem Mach.updFrame_ops (k : Nat) (f : Frame → Frame) : (m.updFrame k f).ops = m.ops := rfl
@[simp] theorem Mach.updFrame_kills (k : Nat) (f : Frame → Frame) : (m.updFrame k f).kills = m.kills := rfl
@[simp] theorem Mach.updFrame_svctl (k : Nat) (f : Frame → Frame) : (m.updFrame k f).svctl = m.svctl := rfl
@[simp] theorem Mach.updFrame_rplctl (k : Nat) (f : Frame → Frame) : (m.updFrame k f).rplctl = m.rplctl := rfl
@[simp] theorem Mach.updFrame_focus (k : Nat) (f : Frame → Frame) : (m.updFrame k f).focus = m.focus := rfl
@[simp] theorem Mach.updFrame_serial (k : Nat) (f : Frame → Frame) : (m.updFrame k f).serial = m.serial := rfl
@[simp] theorem Mach.updFrame_free (k : Nat) (f : Frame → Frame) : (m.updFrame k f).free = m.free := rfl
@[simp] theorem Mach.updFrame_refetch (k : Nat) (f : Frame → Frame) : (m.updFrame k f).refetch = m.refetch := rfl

/-! ## `updLaunch` -/

@[simp] theorem Mach.updLaunch_mem (k : Nat) (f : Launch → Launch) : (m.updLaunch k f).mem = m.mem := rfl
@[simp] theorem Mach.updLaunch_poison (k : Nat) (f : Launch → Launch) : (m.updLaunch k f).poison = m.poison := rfl
@[simp] theorem Mach.updLaunch_dirty (k : Nat) (f : Launch → Launch) : (m.updLaunch k f).dirty = m.dirty := rfl
@[simp] theorem Mach.updLaunch_replicas (k : Nat) (f : Launch → Launch) : (m.updLaunch k f).replicas = m.replicas := rfl
@[simp] theorem Mach.updLaunch_hostLines (k : Nat) (f : Launch → Launch) : (m.updLaunch k f).hostLines = m.hostLines := rfl
@[simp] theorem Mach.updLaunch_l2 (k : Nat) (f : Launch → Launch) : (m.updLaunch k f).l2 = m.l2 := rfl
@[simp] theorem Mach.updLaunch_l2rank (k : Nat) (f : Launch → Launch) : (m.updLaunch k f).l2rank = m.l2rank := rfl
@[simp] theorem Mach.updLaunch_hostCopies (k : Nat) (f : Launch → Launch) : (m.updLaunch k f).hostCopies = m.hostCopies := rfl
@[simp] theorem Mach.updLaunch_hostOut (k : Nat) (f : Launch → Launch) : (m.updLaunch k f).hostOut = m.hostOut := rfl
@[simp] theorem Mach.updLaunch_relcore (k : Nat) (f : Launch → Launch) : (m.updLaunch k f).relcore = m.relcore := rfl
@[simp] theorem Mach.updLaunch_blocks (k : Nat) (f : Launch → Launch) : (m.updLaunch k f).blocks = m.blocks := rfl
@[simp] theorem Mach.updLaunch_domains (k : Nat) (f : Launch → Launch) : (m.updLaunch k f).domains = m.domains := rfl
@[simp] theorem Mach.updLaunch_pins (k : Nat) (f : Launch → Launch) : (m.updLaunch k f).pins = m.pins := rfl
@[simp] theorem Mach.updLaunch_pinning (k : Nat) (f : Launch → Launch) : (m.updLaunch k f).pinning = m.pinning := rfl
@[simp] theorem Mach.updLaunch_uncached (k : Nat) (f : Launch → Launch) : (m.updLaunch k f).uncached = m.uncached := rfl
@[simp] theorem Mach.updLaunch_cmps (k : Nat) (f : Launch → Launch) : (m.updLaunch k f).cmps = m.cmps := rfl
@[simp] theorem Mach.updLaunch_migs (k : Nat) (f : Launch → Launch) : (m.updLaunch k f).migs = m.migs := rfl
@[simp] theorem Mach.updLaunch_moved (k : Nat) (f : Launch → Launch) : (m.updLaunch k f).moved = m.moved := rfl
@[simp] theorem Mach.updLaunch_freed (k : Nat) (f : Launch → Launch) : (m.updLaunch k f).freed = m.freed := rfl
@[simp] theorem Mach.updLaunch_phys (k : Nat) (f : Launch → Launch) : (m.updLaunch k f).phys = m.phys := rfl
@[simp] theorem Mach.updLaunch_gated (k : Nat) (f : Launch → Launch) : (m.updLaunch k f).gated = m.gated := rfl
@[simp] theorem Mach.updLaunch_heldMsgs (k : Nat) (f : Launch → Launch) : (m.updLaunch k f).heldMsgs = m.heldMsgs := rfl
@[simp] theorem Mach.updLaunch_device (k : Nat) (f : Launch → Launch) : (m.updLaunch k f).device = m.device := rfl
@[simp] theorem Mach.updLaunch_peers (k : Nat) (f : Launch → Launch) : (m.updLaunch k f).peers = m.peers := rfl
@[simp] theorem Mach.updLaunch_links (k : Nat) (f : Launch → Launch) : (m.updLaunch k f).links = m.links := rfl
@[simp] theorem Mach.updLaunch_peerOut (k : Nat) (f : Launch → Launch) : (m.updLaunch k f).peerOut = m.peerOut := rfl
@[simp] theorem Mach.updLaunch_peerIn (k : Nat) (f : Launch → Launch) : (m.updLaunch k f).peerIn = m.peerIn := rfl
@[simp] theorem Mach.updLaunch_remoteCells (k : Nat) (f : Launch → Launch) : (m.updLaunch k f).remoteCells = m.remoteCells := rfl
@[simp] theorem Mach.updLaunch_late (k : Nat) (f : Launch → Launch) : (m.updLaunch k f).late = m.late := rfl
@[simp] theorem Mach.updLaunch_dueFutures (k : Nat) (f : Launch → Launch) : (m.updLaunch k f).dueFutures = m.dueFutures := rfl
@[simp] theorem Mach.updLaunch_ctxs (k : Nat) (f : Launch → Launch) : (m.updLaunch k f).ctxs = m.ctxs := rfl
@[simp] theorem Mach.updLaunch_demand (k : Nat) (f : Launch → Launch) : (m.updLaunch k f).demand = m.demand := rfl
@[simp] theorem Mach.updLaunch_clock (k : Nat) (f : Launch → Launch) : (m.updLaunch k f).clock = m.clock := rfl
@[simp] theorem Mach.updLaunch_mtime (k : Nat) (f : Launch → Launch) : (m.updLaunch k f).mtime = m.mtime := rfl
@[simp] theorem Mach.updLaunch_dieTlb (k : Nat) (f : Launch → Launch) : (m.updLaunch k f).dieTlb = m.dieTlb := rfl
@[simp] theorem Mach.updLaunch_cores (k : Nat) (f : Launch → Launch) : (m.updLaunch k f).cores = m.cores := rfl
@[simp] theorem Mach.updLaunch_launches (k : Nat) (f : Launch → Launch) : (m.updLaunch k f).launches = m.launches.upd k f := rfl
@[simp] theorem Mach.updLaunch_teams (k : Nat) (f : Launch → Launch) : (m.updLaunch k f).teams = m.teams := rfl
@[simp] theorem Mach.updLaunch_warps (k : Nat) (f : Launch → Launch) : (m.updLaunch k f).warps = m.warps := rfl
@[simp] theorem Mach.updLaunch_tasks (k : Nat) (f : Launch → Launch) : (m.updLaunch k f).tasks = m.tasks := rfl
@[simp] theorem Mach.updLaunch_frames (k : Nat) (f : Launch → Launch) : (m.updLaunch k f).frames = m.frames := rfl
@[simp] theorem Mach.updLaunch_ops (k : Nat) (f : Launch → Launch) : (m.updLaunch k f).ops = m.ops := rfl
@[simp] theorem Mach.updLaunch_kills (k : Nat) (f : Launch → Launch) : (m.updLaunch k f).kills = m.kills := rfl
@[simp] theorem Mach.updLaunch_svctl (k : Nat) (f : Launch → Launch) : (m.updLaunch k f).svctl = m.svctl := rfl
@[simp] theorem Mach.updLaunch_rplctl (k : Nat) (f : Launch → Launch) : (m.updLaunch k f).rplctl = m.rplctl := rfl
@[simp] theorem Mach.updLaunch_focus (k : Nat) (f : Launch → Launch) : (m.updLaunch k f).focus = m.focus := rfl
@[simp] theorem Mach.updLaunch_serial (k : Nat) (f : Launch → Launch) : (m.updLaunch k f).serial = m.serial := rfl
@[simp] theorem Mach.updLaunch_free (k : Nat) (f : Launch → Launch) : (m.updLaunch k f).free = m.free := rfl
@[simp] theorem Mach.updLaunch_refetch (k : Nat) (f : Launch → Launch) : (m.updLaunch k f).refetch = m.refetch := rfl

/-! ## `updOp` -/

@[simp] theorem Mach.updOp_mem (k : Nat) (f : Op → Op) : (m.updOp k f).mem = m.mem := rfl
@[simp] theorem Mach.updOp_poison (k : Nat) (f : Op → Op) : (m.updOp k f).poison = m.poison := rfl
@[simp] theorem Mach.updOp_dirty (k : Nat) (f : Op → Op) : (m.updOp k f).dirty = m.dirty := rfl
@[simp] theorem Mach.updOp_replicas (k : Nat) (f : Op → Op) : (m.updOp k f).replicas = m.replicas := rfl
@[simp] theorem Mach.updOp_hostLines (k : Nat) (f : Op → Op) : (m.updOp k f).hostLines = m.hostLines := rfl
@[simp] theorem Mach.updOp_l2 (k : Nat) (f : Op → Op) : (m.updOp k f).l2 = m.l2 := rfl
@[simp] theorem Mach.updOp_l2rank (k : Nat) (f : Op → Op) : (m.updOp k f).l2rank = m.l2rank := rfl
@[simp] theorem Mach.updOp_hostCopies (k : Nat) (f : Op → Op) : (m.updOp k f).hostCopies = m.hostCopies := rfl
@[simp] theorem Mach.updOp_hostOut (k : Nat) (f : Op → Op) : (m.updOp k f).hostOut = m.hostOut := rfl
@[simp] theorem Mach.updOp_relcore (k : Nat) (f : Op → Op) : (m.updOp k f).relcore = m.relcore := rfl
@[simp] theorem Mach.updOp_blocks (k : Nat) (f : Op → Op) : (m.updOp k f).blocks = m.blocks := rfl
@[simp] theorem Mach.updOp_domains (k : Nat) (f : Op → Op) : (m.updOp k f).domains = m.domains := rfl
@[simp] theorem Mach.updOp_pins (k : Nat) (f : Op → Op) : (m.updOp k f).pins = m.pins := rfl
@[simp] theorem Mach.updOp_pinning (k : Nat) (f : Op → Op) : (m.updOp k f).pinning = m.pinning := rfl
@[simp] theorem Mach.updOp_uncached (k : Nat) (f : Op → Op) : (m.updOp k f).uncached = m.uncached := rfl
@[simp] theorem Mach.updOp_cmps (k : Nat) (f : Op → Op) : (m.updOp k f).cmps = m.cmps := rfl
@[simp] theorem Mach.updOp_migs (k : Nat) (f : Op → Op) : (m.updOp k f).migs = m.migs := rfl
@[simp] theorem Mach.updOp_moved (k : Nat) (f : Op → Op) : (m.updOp k f).moved = m.moved := rfl
@[simp] theorem Mach.updOp_freed (k : Nat) (f : Op → Op) : (m.updOp k f).freed = m.freed := rfl
@[simp] theorem Mach.updOp_phys (k : Nat) (f : Op → Op) : (m.updOp k f).phys = m.phys := rfl
@[simp] theorem Mach.updOp_gated (k : Nat) (f : Op → Op) : (m.updOp k f).gated = m.gated := rfl
@[simp] theorem Mach.updOp_heldMsgs (k : Nat) (f : Op → Op) : (m.updOp k f).heldMsgs = m.heldMsgs := rfl
@[simp] theorem Mach.updOp_device (k : Nat) (f : Op → Op) : (m.updOp k f).device = m.device := rfl
@[simp] theorem Mach.updOp_peers (k : Nat) (f : Op → Op) : (m.updOp k f).peers = m.peers := rfl
@[simp] theorem Mach.updOp_links (k : Nat) (f : Op → Op) : (m.updOp k f).links = m.links := rfl
@[simp] theorem Mach.updOp_peerOut (k : Nat) (f : Op → Op) : (m.updOp k f).peerOut = m.peerOut := rfl
@[simp] theorem Mach.updOp_peerIn (k : Nat) (f : Op → Op) : (m.updOp k f).peerIn = m.peerIn := rfl
@[simp] theorem Mach.updOp_remoteCells (k : Nat) (f : Op → Op) : (m.updOp k f).remoteCells = m.remoteCells := rfl
@[simp] theorem Mach.updOp_late (k : Nat) (f : Op → Op) : (m.updOp k f).late = m.late := rfl
@[simp] theorem Mach.updOp_dueFutures (k : Nat) (f : Op → Op) : (m.updOp k f).dueFutures = m.dueFutures := rfl
@[simp] theorem Mach.updOp_ctxs (k : Nat) (f : Op → Op) : (m.updOp k f).ctxs = m.ctxs := rfl
@[simp] theorem Mach.updOp_demand (k : Nat) (f : Op → Op) : (m.updOp k f).demand = m.demand := rfl
@[simp] theorem Mach.updOp_clock (k : Nat) (f : Op → Op) : (m.updOp k f).clock = m.clock := rfl
@[simp] theorem Mach.updOp_mtime (k : Nat) (f : Op → Op) : (m.updOp k f).mtime = m.mtime := rfl
@[simp] theorem Mach.updOp_dieTlb (k : Nat) (f : Op → Op) : (m.updOp k f).dieTlb = m.dieTlb := rfl
@[simp] theorem Mach.updOp_cores (k : Nat) (f : Op → Op) : (m.updOp k f).cores = m.cores := rfl
@[simp] theorem Mach.updOp_launches (k : Nat) (f : Op → Op) : (m.updOp k f).launches = m.launches := rfl
@[simp] theorem Mach.updOp_teams (k : Nat) (f : Op → Op) : (m.updOp k f).teams = m.teams := rfl
@[simp] theorem Mach.updOp_warps (k : Nat) (f : Op → Op) : (m.updOp k f).warps = m.warps := rfl
@[simp] theorem Mach.updOp_tasks (k : Nat) (f : Op → Op) : (m.updOp k f).tasks = m.tasks := rfl
@[simp] theorem Mach.updOp_frames (k : Nat) (f : Op → Op) : (m.updOp k f).frames = m.frames := rfl
@[simp] theorem Mach.updOp_ops (k : Nat) (f : Op → Op) : (m.updOp k f).ops = m.ops.upd k f := rfl
@[simp] theorem Mach.updOp_kills (k : Nat) (f : Op → Op) : (m.updOp k f).kills = m.kills := rfl
@[simp] theorem Mach.updOp_svctl (k : Nat) (f : Op → Op) : (m.updOp k f).svctl = m.svctl := rfl
@[simp] theorem Mach.updOp_rplctl (k : Nat) (f : Op → Op) : (m.updOp k f).rplctl = m.rplctl := rfl
@[simp] theorem Mach.updOp_focus (k : Nat) (f : Op → Op) : (m.updOp k f).focus = m.focus := rfl
@[simp] theorem Mach.updOp_serial (k : Nat) (f : Op → Op) : (m.updOp k f).serial = m.serial := rfl
@[simp] theorem Mach.updOp_free (k : Nat) (f : Op → Op) : (m.updOp k f).free = m.free := rfl
@[simp] theorem Mach.updOp_refetch (k : Nat) (f : Op → Op) : (m.updOp k f).refetch = m.refetch := rfl

/-! ## `updCore` -/

@[simp] theorem Mach.updCore_mem (c : Nat) (f : Core → Core) : (m.updCore c f).mem = m.mem := rfl
@[simp] theorem Mach.updCore_poison (c : Nat) (f : Core → Core) : (m.updCore c f).poison = m.poison := rfl
@[simp] theorem Mach.updCore_dirty (c : Nat) (f : Core → Core) : (m.updCore c f).dirty = m.dirty := rfl
@[simp] theorem Mach.updCore_replicas (c : Nat) (f : Core → Core) : (m.updCore c f).replicas = m.replicas := rfl
@[simp] theorem Mach.updCore_hostLines (c : Nat) (f : Core → Core) : (m.updCore c f).hostLines = m.hostLines := rfl
@[simp] theorem Mach.updCore_l2 (c : Nat) (f : Core → Core) : (m.updCore c f).l2 = m.l2 := rfl
@[simp] theorem Mach.updCore_l2rank (c : Nat) (f : Core → Core) : (m.updCore c f).l2rank = m.l2rank := rfl
@[simp] theorem Mach.updCore_hostCopies (c : Nat) (f : Core → Core) : (m.updCore c f).hostCopies = m.hostCopies := rfl
@[simp] theorem Mach.updCore_hostOut (c : Nat) (f : Core → Core) : (m.updCore c f).hostOut = m.hostOut := rfl
@[simp] theorem Mach.updCore_relcore (c : Nat) (f : Core → Core) : (m.updCore c f).relcore = m.relcore := rfl
@[simp] theorem Mach.updCore_blocks (c : Nat) (f : Core → Core) : (m.updCore c f).blocks = m.blocks := rfl
@[simp] theorem Mach.updCore_domains (c : Nat) (f : Core → Core) : (m.updCore c f).domains = m.domains := rfl
@[simp] theorem Mach.updCore_pins (c : Nat) (f : Core → Core) : (m.updCore c f).pins = m.pins := rfl
@[simp] theorem Mach.updCore_pinning (c : Nat) (f : Core → Core) : (m.updCore c f).pinning = m.pinning := rfl
@[simp] theorem Mach.updCore_uncached (c : Nat) (f : Core → Core) : (m.updCore c f).uncached = m.uncached := rfl
@[simp] theorem Mach.updCore_cmps (c : Nat) (f : Core → Core) : (m.updCore c f).cmps = m.cmps := rfl
@[simp] theorem Mach.updCore_migs (c : Nat) (f : Core → Core) : (m.updCore c f).migs = m.migs := rfl
@[simp] theorem Mach.updCore_moved (c : Nat) (f : Core → Core) : (m.updCore c f).moved = m.moved := rfl
@[simp] theorem Mach.updCore_freed (c : Nat) (f : Core → Core) : (m.updCore c f).freed = m.freed := rfl
@[simp] theorem Mach.updCore_phys (c : Nat) (f : Core → Core) : (m.updCore c f).phys = m.phys := rfl
@[simp] theorem Mach.updCore_gated (c : Nat) (f : Core → Core) : (m.updCore c f).gated = m.gated := rfl
@[simp] theorem Mach.updCore_heldMsgs (c : Nat) (f : Core → Core) : (m.updCore c f).heldMsgs = m.heldMsgs := rfl
@[simp] theorem Mach.updCore_device (c : Nat) (f : Core → Core) : (m.updCore c f).device = m.device := rfl
@[simp] theorem Mach.updCore_peers (c : Nat) (f : Core → Core) : (m.updCore c f).peers = m.peers := rfl
@[simp] theorem Mach.updCore_links (c : Nat) (f : Core → Core) : (m.updCore c f).links = m.links := rfl
@[simp] theorem Mach.updCore_peerOut (c : Nat) (f : Core → Core) : (m.updCore c f).peerOut = m.peerOut := rfl
@[simp] theorem Mach.updCore_peerIn (c : Nat) (f : Core → Core) : (m.updCore c f).peerIn = m.peerIn := rfl
@[simp] theorem Mach.updCore_remoteCells (c : Nat) (f : Core → Core) : (m.updCore c f).remoteCells = m.remoteCells := rfl
@[simp] theorem Mach.updCore_late (c : Nat) (f : Core → Core) : (m.updCore c f).late = m.late := rfl
@[simp] theorem Mach.updCore_dueFutures (c : Nat) (f : Core → Core) : (m.updCore c f).dueFutures = m.dueFutures := rfl
@[simp] theorem Mach.updCore_ctxs (c : Nat) (f : Core → Core) : (m.updCore c f).ctxs = m.ctxs := rfl
@[simp] theorem Mach.updCore_demand (c : Nat) (f : Core → Core) : (m.updCore c f).demand = m.demand := rfl
@[simp] theorem Mach.updCore_clock (c : Nat) (f : Core → Core) : (m.updCore c f).clock = m.clock := rfl
@[simp] theorem Mach.updCore_mtime (c : Nat) (f : Core → Core) : (m.updCore c f).mtime = m.mtime := rfl
@[simp] theorem Mach.updCore_dieTlb (c : Nat) (f : Core → Core) : (m.updCore c f).dieTlb = m.dieTlb := rfl
@[simp] theorem Mach.updCore_cores (c : Nat) (f : Core → Core) : (m.updCore c f).cores = m.cores.put c (f (m.core c)) := rfl
@[simp] theorem Mach.updCore_launches (c : Nat) (f : Core → Core) : (m.updCore c f).launches = m.launches := rfl
@[simp] theorem Mach.updCore_teams (c : Nat) (f : Core → Core) : (m.updCore c f).teams = m.teams := rfl
@[simp] theorem Mach.updCore_warps (c : Nat) (f : Core → Core) : (m.updCore c f).warps = m.warps := rfl
@[simp] theorem Mach.updCore_tasks (c : Nat) (f : Core → Core) : (m.updCore c f).tasks = m.tasks := rfl
@[simp] theorem Mach.updCore_frames (c : Nat) (f : Core → Core) : (m.updCore c f).frames = m.frames := rfl
@[simp] theorem Mach.updCore_ops (c : Nat) (f : Core → Core) : (m.updCore c f).ops = m.ops := rfl
@[simp] theorem Mach.updCore_kills (c : Nat) (f : Core → Core) : (m.updCore c f).kills = m.kills := rfl
@[simp] theorem Mach.updCore_svctl (c : Nat) (f : Core → Core) : (m.updCore c f).svctl = m.svctl := rfl
@[simp] theorem Mach.updCore_rplctl (c : Nat) (f : Core → Core) : (m.updCore c f).rplctl = m.rplctl := rfl
@[simp] theorem Mach.updCore_focus (c : Nat) (f : Core → Core) : (m.updCore c f).focus = m.focus := rfl
@[simp] theorem Mach.updCore_serial (c : Nat) (f : Core → Core) : (m.updCore c f).serial = m.serial := rfl
@[simp] theorem Mach.updCore_free (c : Nat) (f : Core → Core) : (m.updCore c f).free = m.free := rfl
@[simp] theorem Mach.updCore_refetch (c : Nat) (f : Core → Core) : (m.updCore c f).refetch = m.refetch := rfl

/-! ## Hub and machine -/

@[simp] theorem State.updHub_hub (f : Hub → Hub) : (s.updHub f).sys.hub = f s.sys.hub := rfl
@[simp] theorem State.updHub_flash (f : Hub → Hub) : (s.updHub f).sys.flash = s.sys.flash := rfl
@[simp] theorem State.updHub_rom (f : Hub → Hub) : (s.updHub f).sys.rom = s.sys.rom := rfl
@[simp] theorem State.updHub_m (f : Hub → Hub) : (s.updHub f).m = s.m := rfl
@[simp] theorem State.updHub_agenda (f : Hub → Hub) : (s.updHub f).agenda = s.agenda := rfl
@[simp] theorem State.updHub_subj (f : Hub → Hub) : (s.updHub f).subj = s.subj := rfl
@[simp] theorem State.updM_m (f : Mach → Mach) : (s.updM f).m = f s.m := rfl
@[simp] theorem State.updM_sys (f : Mach → Mach) : (s.updM f).sys = s.sys := rfl
@[simp] theorem State.updM_agenda (f : Mach → Mach) : (s.updM f).agenda = s.agenda := rfl
@[simp] theorem State.updM_subj (f : Mach → Mach) : (s.updM f).subj = s.subj := rfl

/-! ## Parts of an entry -/

@[simp] theorem Frame.setReg_demand (g : Frame) (r n : Nat) (v : Word) : (g.setReg r n v).demand = g.demand := rfl
@[simp] theorem Frame.setReg_pend (g : Frame) (r n : Nat) (v : Word) : (g.setReg r n v).pend = g.pend := rfl
@[simp] theorem Frame.setReg_depth (g : Frame) (r n : Nat) (v : Word) : (g.setReg r n v).depth = g.depth := rfl
@[simp] theorem Frame.setReg_links (g : Frame) (r n : Nat) (v : Word) : (g.setReg r n v).links = g.links := rfl
@[simp] theorem Frame.setReg_marks (g : Frame) (r n : Nat) (v : Word) : (g.setReg r n v).marks = g.marks := rfl
@[simp] theorem Frame.setReg_handler (g : Frame) (r n : Nat) (v : Word) : (g.setReg r n v).handler = g.handler := rfl
@[simp] theorem Task.setFlag_fpstat (t : Task) (n : Nat) (f : Flag) : (t.setFlag n f).fpstat = t.fpstat := rfl
@[simp] theorem Task.setFlag_prio (t : Task) (n : Nat) (f : Flag) : (t.setFlag n f).prio = t.prio := rfl
@[simp] theorem Task.setFlag_st (t : Task) (n : Nat) (f : Flag) : (t.setFlag n f).st = t.st := rfl
@[simp] theorem Task.setFlag_run (t : Task) (n : Nat) (f : Flag) : (t.setFlag n f).run = t.run := rfl
@[simp] theorem Task.setFlag_paths (t : Task) (n : Nat) (f : Flag) : (t.setFlag n f).paths = t.paths := rfl
@[simp] theorem Team.setToken_ls (t : Team) (n : Nat) (k : Token) : (t.setToken n k).ls = t.ls := rfl
@[simp] theorem Team.setToken_deque (t : Team) (n : Nat) (k : Token) : (t.setToken n k).deque = t.deque := rfl
@[simp] theorem Team.setToken_xsteal (t : Team) (n : Nat) (k : Token) : (t.setToken n k).xsteal = t.xsteal := rfl
@[simp] theorem Team.setToken_trapvec (t : Team) (n : Nat) (k : Token) : (t.setToken n k).trapvec = t.trapvec := rfl

end Sys2Proof.Machine
end

