-- ==== Sys2Proof/Tests/Slice0.lean ====
section
/-! SUPPORT. Tests: words written out from the tables of spec/, ill-formed terms and words refused, single steps with the values
spec/ works out, and for every statement with hypotheses a state that meets them. -/

set_option Elab.async false
open Sys2Proof Sys2Proof.Machine
namespace Sys2Proof.Tests
/-- No guard, nothing held, flag SETA. -/
def N : Ctl := ⟨none, .none, false⟩
/-- No guard, nothing held, flag SETB. -/
def L : Ctl := ⟨none, .none, true⟩
/-- The word decodes to the instruction, which is well-formed. -/
def decodesTo (w : Nat) (i : Instr) : Bool := decide (decode w = .ok i) && i.wf
/-- Words and instructions of the control group. -/
def controlWords : List (Nat × Instr) := [
  (0x0000000000000000, .nop N),
  (0xFFFFFF000000000000000005, .bra N 0xFFFFFF),
  (0x000002000000000000400009, .braAny N 4 2),
  (0x00000300000000000050000D, .braAll N 5 3),
  (0x0000000000600010, .jmp N 6),
  (0x00000200002B000000C00015, .call N true 11 12 2),
  (0x00030000D0400018, .callI N false 3 4 13),
  (0x000000000000001C, .ret N),
  (0x0000000000900020, .unwindTo N 9),
  (0x000000F000000024, .exit ⟨some ⟨7, false⟩, .none, false⟩),
  (0x0000000000000028, .yield N),
  (0x000500000000002C, .setpri N 5),
  (0x0802000000000030, .wflag N 0x802),
  (0x0089000000400034, .trap N 9 (some 4))]

theorem test_control_words : controlWords.all (fun e => decodesTo e.1 e.2) = true := by decide +kernel

/-- Words and instructions of the integer group. -/
def integerWords : List (Nat × Instr) := [
  (0x0900000050408100, .iadd N .i8 true 8 4 5),
  (0x3000000050408104, .isub N .n16 false 8 4 5),
  (0x1900000050408108, .imul N .i32 true 8 4 5),
  (0x380000005040810C, .imulhi N .n32 8 4 5),
  (0x000000061800000050408111, .imad N .i32 false 8 4 5 6),
  (0x1900000000408114, .ineg N true 8 4),
  (0x1800000000408118, .iabs N false 8 4),
  (0x100000005040811C, .imin N .i16 8 4 5),
  (0x2800000050408120, .imax N .n8 8 4 5),
  (0x2100000060408124, .iaddW N .i64 true 8 4 6),
  (0x4000000060408128, .isubW N .n64 false 8 4 6),
  (0x180000005040812C, .imulW N .i32 8 4 5),
  (0x000000043800000070608131, .imadW N .n32 8 6 7 4),
  (0xFFFFF0001803000060408135, .lea N .i32 3 8 4 6 0xFFFFF0),
  (0x0000200000408138, .mov ⟨none, .a, false⟩ 8 4),
  (0x000000000040813C, .movW N 8 4),
  (0x800000000000000000008141, .movi N 8 0x800000),
  (0x80000001000000002000000000008146, .moviL N .i64 8 0x80000001),
  (0x000007003900000000408149, .iaddi N .n32 true 8 4 7),
  (0x190080005040814C, .idiv L .i32 true 8 4 5),
  (0x3800000050408150, .irem N .n32 8 4 5),
  (0x000000061800000050408155, .sad N .i32 8 4 5 6)]

theorem test_integer_words : integerWords.all (fun e => decodesTo e.1 e.2) = true := by decide +kernel

/-- Words and instructions of the logic group. -/
def logicWords : List (Nat × Instr) := [
  (0x0000000050408200, .and N 8 4 5),
  (0x0000000050408204, .or N 8 4 5),
  (0x0000000050408208, .xor N 8 4 5),
  (0x000010B00040820C, .not ⟨some ⟨5, true⟩, .none, false⟩ 8 4),
  (0x00000006006C000050408211, .lmix N .mux ⟨true, false, true, true⟩ 8 4 5 6),
  (0x003F000000408214, .shl N 8 4 (.imm 31)),
  (0x0000000050408218, .shr N 8 4 (.reg 5)),
  (0x002100000040821C, .sar N 8 4 (.imm 1)),
  (0x0000000050408220, .rot N 8 4 (.reg 5)),
  (0x007F000000408224, .shlW N 8 4 (.imm 63)),
  (0x2000000060408228, .shrW N .i64 8 4 (.reg 6)),
  (0x00201F00180000000040822D, .bfe N .i32 8 4 31 32),
  (0x000904000000000050408231, .bfi N 8 4 5 4 9),
  (0x0000000000408234, .popc N 8 4),
  (0x0000000000408238, .clz N 8 4),
  (0x000000000040823C, .brev N 8 4)]

theorem test_logic_words : logicWords.all (fun e => decodesTo e.1 e.2) = true := by decide +kernel

/-- Words and instructions of the lane group. -/
def laneWords : List (Nat × Instr) := [
  (0x0805000050408300, .icmp N .i8 .ge 8 4 5),
  (0x4002000060408304, .icmpW N .n64 .lt 8 4 6),
  (0x4807000050408308, .fcmp N .ord 8 4 5),
  (0x00000006000000005040830D, .sel N .b32 8 4 5 6),
  (0x0000000000408310, .ballot N 8 4),
  (0x0000000050408314, .shfl N 8 4 (.reg 5)),
  (0x0021000000408318, .shflUp N 8 4 (.imm 1)),
  (0x003F00000040831C, .shflDown N 8 4 (.imm 31)),
  (0x0000000060408320, .shflXor N 8 4 (.reg 6)),
  (0x0031000000408324, .bcast N 8 4 (some 17)),
  (0x3801000000408328, .wred N .min .n32 .rne 8 4),
  (0x4C0800000040832C, .wscan N true .add .f32 .rp 8 4)]

theorem test_lane_words : laneWords.all (fun e => decodesTo e.1 e.2) = true := by decide +kernel

/-- Words and instructions of the float group. -/
def floatWords : List (Nat × Instr) := [
  (0x4A00000050408400, .fadd N .rz 8 4 5),
  (0x4C00000050408404, .fsub N .rp 8 4 5),
  (0x4E00000050408408, .fmul N .rm 8 4 5),
  (0x00000006480000005040840D, .ffma N .rne 8 4 5 6),
  (0x4800000050408410, .fmin N 8 4 5),
  (0x4800000050408414, .fmax N 8 4 5),
  (0x4800000000408418, .fabs N 8 4),
  (0x480000000040841C, .fneg N 8 4),
  (0x4800000000408420, .ffloor N 8 4),
  (0x4800000000408424, .fceil N 8 4),
  (0x4800000000408428, .ftrunc N 8 4),
  (0x4A0000000040842C, .frint N .rz 8 4),
  (0x4800000000408430, .fclass N 8 4),
  (0x4E00000050408434, .fscale N .rm 8 4 5),
  (0x4800000000408438, .ffrac N .rne 8 4),
  (0x4A0080000040843C, .frcp L .rz 8 4),
  (0x4C00800000408440, .frsq L .rp 8 4),
  (0x4800800000408444, .fsqrt L .rne 8 4),
  (0x4E00000050408448, .fdiv N .rm 8 4 5),
  (0x480000000040844C, .fexp2 N 8 4),
  (0x4800000000408450, .flog2 N 8 4),
  (0x4800000000408454, .fsin N 8 4),
  (0x4800000000408458, .fcos N 8 4),
  (0x480000000040845C, .ftanh N 8 4)]

theorem test_float_words : floatWords.all (fun e => decodesTo e.1 e.2) = true := by decide +kernel

/-- Words and instructions of the packed group. -/
def packedWords : List (Nat × Instr) := [
  (0x5200000050408500, .hadd N .f16 .rz 8 4 5),
  (0x5C00000050408504, .hsub N .bf16 .rp 8 4 5),
  (0x5600000050408508, .hmul N .f16 .rm 8 4 5),
  (0x00000006580000005040850D, .hfma N .bf16 .rne 8 4 5 6),
  (0x5000000050408510, .hmin N .f16 8 4 5),
  (0x5000000050408514, .hmax N .f16 8 4 5),
  (0x000000065200000050408519, .hdot2 N .f16 .rz 8 4 5 6),
  (0x580600005040851C, .hcmp N .bf16 .un 8 4 5),
  (0x6309000000408520, .cvt N .e4m3 .f32 .rz true 8 4),
  (0x1908000000408524, .cvtW N .i32 .n64 .rne true 8 4),
  (0x4E06000000408528, .icvt N .f32 .n16 .rm false 8 4),
  (0x5D0900005040852C, .cvtX2 N .bf16 .f32 .rp true 8 4 5),
  (0x00000000000007067A09000050408532, .cvtX4 N .sp4 .f32 .rz false 8 4 5 6 7),
  (0x480E000050408534, .cvtEl N .ds8 8 4 5),
  (0x000000004800800050408539, .cvtPk L 8 4 5)]

theorem test_packed_words : packedWords.all (fun e => decodesTo e.1 e.2) = true := by decide +kernel

/-- Words and instructions of the memory group. -/
def memoryWords : List (Nat × Instr) := [
  (0xFFFFFC000A40000000409601, .ld N ⟨.i8, .cl, .poll, .none⟩ 9 4 0xFFFFFC),
  (0x000010000020000000408605, .ldX4 N ⟨.b32, .wp, .none, .nl1⟩ 8 4 0x10),
  (0x0000080044C0000060400609, .st N ⟨.n64, .dv, .rel, .none⟩ 4 6 8),
  (0x00004000418080000040860D, .ldl L ⟨.n64, .co, .acq, .none⟩ 8 4 0x40),
  (0x000020000000000000408611, .ldlX4 N ⟨.b32, .wp, .none, .none⟩ 8 4 0x20),
  (0x000002003000000050400615, .stl N ⟨.n16, .wp, .none, .none⟩ 4 5 2),
  (0x000004000240000000408619, .ldw N ⟨.b32, .cl, .poll, .none⟩ 8 4 4),
  (0x00001000000000000040861D, .ldwX4 N ⟨.b32, .wp, .none, .none⟩ 8 4 0x10),
  (0x000003002800000050400621, .stw N ⟨.n8, .wp, .none, .none⟩ 4 5 3),
  (0x000080000010000000400625, .pf N .ro 4 0x80)]

theorem test_memory_words : memoryWords.all (fun e => decodesTo e.1 e.2) = true := by decide +kernel

/-- Words and instructions of the tile group. -/
def tileWords : List (Nat × Instr) := [
  (0x0000100000DF00000430000060400702, .tld N ⟨.va, .dv, .str, .imm 31 3 0x1000⟩ 4 6),
  (0x00000000800007060101800050400706, .tst L ⟨.ls, .co, .none, .reg 6 7⟩ 4 5),
  (0x000147000000000060400709, .pft N .none 4 6 7 5),
  (0x000000000000070C, .dcinv N),
  (0x0000000000000710, .icinv N),
  (0x000000000000000060400715, .dsc N 4 6),
  (0x000000000000000060400719, .cwb N 4 6)]

theorem test_tile_words : tileWords.all (fun e => decodesTo e.1 e.2) = true := by decide +kernel

/-- Words and instructions of the atomic group. -/
def atomicWords : List (Nat × Instr) := [
  (0x0FFFFC001CC0000060408801, .aadd N ⟨.i32, .dv, .rel, .va, false⟩ 8 4 6 0xFFFFC),
  (0x000008004284000060400805, .amin N ⟨.n64, .cl, .acq, .va, true⟩ 0 4 6 8),
  (0x000010002101000060408809, .amax N ⟨.i64, .co, .none, .ls, false⟩ 8 4 6 0x10),
  (0x20000400040000006040880D, .alog N .xor ⟨.b32, .dv, .none, .va, false⟩ 8 4 6 4),
  (0x000004000502000050408811, .axchg N ⟨.b32, .sy, .none, .cw, false⟩ 8 4 5 4),
  (0x00000100000000070480800060408816, .acas L ⟨.b32, .dv, .acq, .va, false⟩ 8 4 6 7 0x100),
  (0x100004004C00000060408819, .afadd N .rz ⟨.f32, .dv, .none, .va, false⟩ 8 4 6 4),
  (0x000004004C0400006040081D, .afmin N ⟨.f32, .dv, .none, .va, true⟩ 0 4 6 4),
  (0x000004004C01000050408821, .afmax N ⟨.f32, .dv, .none, .ls, false⟩ 8 4 5 4),
  (0x00000000000200055B03000060408826, .rctx N .max .bf16 .di 3 8 4 6 5),
  (0x000000061803000050400829, .rdet N .i32 3 4 5 6),
  (0x000380000000882C, .rclose L 3 8)]

theorem test_atomic_words : atomicWords.all (fun e => decodesTo e.1 e.2) = true := by decide +kernel

/-- Words and instructions of the sync group. -/
def syncWords : List (Nat × Instr) := [
  (0x0500000000000900, .fence N .sy),
  (0x0200000000000904, .acq N .cl),
  (0x0300000000000908, .rel N .di),
  (0x00000800440000000040890D, .acqRp N .n64 .dv 8 4 8),
  (0x000F000000400910, .bar N 15 4),
  (0x0003000000408914, .barArr N 3 8 4),
  (0x0002000000400918, .barWait N 2 4),
  (0x00000000000000000040091D, .bbInit N 4),
  (0x000000000000000050408921, .bbExp N 8 4 5),
  (0x0400000050400924, .bbWait N .dv 4 5)]

theorem test_sync_words : syncWords.all (fun e => decodesTo e.1 e.2) = true := by decide +kernel

/-- Words and instructions of the task group. -/
def taskWords : List (Nat × Instr) := [
  (0x0000000000408A00, .spawn N 8 4),
  (0x0000800060508A04, .spawnR L 8 5 6),
  (0x0000000000408A08, .join N 8 4),
  (0x0000000000408A0C, .joinT N 8 4),
  (0x0000000060408A10, .resolve N 8 4 6),
  (0x0001000000400A14, .taskEnd N (some 4)),
  (0x0000000050408A18, .finOpen N 8 4 5),
  (0x00C8000000000A1C, .finClose N (.imm 200)),
  (0x0100000000400A20, .finWait N (.reg 4)),
  (0x0006000000008A24, .capq N 6 8)]

theorem test_task_words : taskWords.all (fun e => decodesTo e.1 e.2) = true := by decide +kernel

/-- Words and instructions of the engine group. -/
def engineWords : List (Nat × Instr) := [
  (0x00000000801000070401000080600B02, .bcopy N .ls .va .dv 6 8 7 (some 0x10)),
  (0x00000000000007060109800050400B06, .bcopy2d L .ls .cw .co 4 5 6 7 none),
  (0x0005201F000000070401000040600B0A, .gath N .ls .dv 6 4 7 31 2 5 none),
  (0x0000FFFFFFFF00070201000040600B0E, .scat N .ls .cl 6 4 7 4095 15 0 (some 0x7FFF)),
  (0x008001000100000050400B11, .stage N .co 4 5 (some 1)),
  (0x00000000001100000300000060408B16, .cgrp N .di 17 8 4 6),
  (0x00000000800307060005000050400B1A, .cag N .ls .ls 4 5 6 7 3 true),
  (0x00000000005F07065805000050400B1E, .crs N .max .bf16 .ls .ls 4 5 6 7 31 false),
  (0x00000000000007060005000050400B22, .ca2a N .ls .ls 4 5 6 7 0 false),
  (0x0001000050400B24, .cbar N 4 5 true)]

theorem test_engine_words : engineWords.all (fun e => decodesTo e.1 e.2) = true := by decide +kernel

/-- Words and instructions of the matrix group. -/
def matrixWords : List (Nat × Instr) := [
  (0x0000000080000000B583000050400C02, .mma N ⟨3, 2, true, .e4m3, .e5m2, true⟩ true false 4 5),
  (0x00000000400200001001000050000C06, .mmaC N ⟨1, 0, false, .bf16, .f16, false⟩ ⟨2, false⟩ true 5),
  (0x00000000400000008207000050400C0A, .mmaS N ⟨7, 0, false, .f16, .bf16, true⟩ false true 4 5),
  (0x00000000000000000005800050400C0E, .mmaDs L ⟨5, 0, false, .bf16, .bf16, false⟩ false false 4 5),
  (0x00030020000006050202000000400C12, .mmaG N ⟨2, 0, false, .f16, .bf16, false⟩ false 4 5 6 0x20 3),
  (0x00010040000106051004000000000C16, .mmaGc N ⟨4, 0, false, .bf16, .f16, false⟩ ⟨1, false⟩ 5 6 0x40 1)]

theorem test_matrix_words : matrixWords.all (fun e => decodesTo e.1 e.2) = true := by decide +kernel

/-- Words and instructions of the accumulator group. -/
def accumulatorWords : List (Nat × Instr) := [
  (0x0007000000000D00, .accAcq N 7),
  (0x0006000000000D04, .accRel N 6),
  (0x01C5800000008D08, .accLd L 5 7 8),
  (0x00003000B9C4000000400D0D, .accSt N 4 3 true true .bf16 4 0x30),
  (0x0183000000000D10, .accZero N 3 2 true),
  (0x0002000000008D14, .accQ N 2 8)]

theorem test_accumulator_words : accumulatorWords.all (fun e => decodesTo e.1 e.2) = true := by decide +kernel

/-- Words and instructions of the system group. -/
def systemWords : List (Nat × Instr) := [
  (0x2D20000000008E00, .movsRead N .accOwner 45 8),
  (0x8012000000400E00, .movsWrite N .trapvec 0 4),
  (0xFFFFFF000000000000000E05, .sleep N 0xFFFFFF),
  (0x0000000060408E08, .ctxSave N 8 4 6),
  (0x0000800060408E0C, .ctxLoad L 8 4 6),
  (0x0000000000400E10, .frecRd N 4),
  (0x000009000000000000408E15, .leaseTst N 8 4 9),
  (0x0000000000408E18, .leaseRel N 8 4),
  (0x000000000000000060400E1D, .tlbInv N 4 6),
  (0x000010000000000000408E21, .bezelRd N 8 4 0x10),
  (0xFFFFFC000000000050400E25, .bezelWr N 4 5 0xFFFFFC)]

theorem test_system_words : systemWords.all (fun e => decodesTo e.1 e.2) = true := by decide +kernel


/-- From reset, an instruction in the first place a step fetches from, its registers as given in every lane. -/
def probe (i : Instr) (rs : List (Nat × Word)) : State :=
  (State.reset.withFetchWord 128 ((encode i).getD 0)).updM fun m => m.updFrame 0 fun f =>
    rs.foldl (fun f r => f.setLanes r.1 (List.range 32) fun _ => r.2) f

/-- Instruction i issues from s with every check passed, the lanes `stay` of its path falling through, and p holds of the
issue. -/
def meets (s : State) (i : Instr) (stay : Issue → Lanes) (p : Issue → Bool) : Bool :=
  match s.m.issuing with
  | some c => (checks c (Instr.shape i) (c.active i)).isNone &&
      (s.m.fallThrough c (Instr.bytes i) (stay c) (c.active i)).isNone &&
      (c.active i != 0 || (Instr.shape i).lat != .l || s.m.flagRoom c (Instr.shape i)) && p c
  | none => false

theorem meets_spec {s : State} {i : Instr} {stay : Issue → Lanes} {p : Issue → Bool} (h : meets s i stay p = true) :
    ∃ c, IssuesTo s i c (stay c) ∧ p c = true := by
  unfold meets at h
  split at h
  · rename_i c hc
    simp only [Bool.and_eq_true, Option.isNone_iff_eq_none, Bool.or_eq_true, bne_iff_ne, ne_eq] at h
    exact ⟨c, ⟨hc, h.1.1.1, h.1.1.2, fun a l => by simpa [a, l] using h.1.2⟩, h.2⟩
  · cases h

/-- All lanes of the path go on. -/
def all (c : Issue) : Lanes := c.p.lanes

theorem meets_issues {s : State} {i : Instr} {p : Issue → Bool} (h : meets s i all p = true) :
    ∃ c, Issues s i c ∧ p c = true := by
  obtain ⟨c, h, hp⟩ := meets_spec h
  exact ⟨c, ⟨h.path, h.legal, h.next, h.idle⟩, hp⟩

/-- A lane is active, and the flag has room. -/
def room (s : State) (i : Instr) (c : Issue) : Bool := c.active i != 0 && s.m.flagRoom c (Instr.shape i)

theorem meets_long {s : State} {i : Instr} {p : Issue → Bool} (h : meets s i all (fun c => room s i c && p c) = true) :
    ∃ c, LongIssues s i c ∧ p c = true := by
  obtain ⟨c, h, hp⟩ := meets_issues h
  simp only [room, Bool.and_eq_true, bne_iff_ne, ne_eq] at hp
  exact ⟨c, ⟨h, hp.1.1, hp.1.2⟩, hp.2⟩

/-! ## Witnesses: states in which the hypotheses of the statements hold together -/

/-- Whether a check's answer is a value. -/
def isOk {ε α : Type} : Except ε α → Bool
  | .ok _ => true
  | .error _ => false

theorem isOk_spec {ε α : Type} {e : Except ε α} (h : isOk e = true) : ∃ a, e = .ok a := by
  cases e with
  | ok a => exact ⟨a, rfl⟩
  | error _ => cases h

/-- Every instruction of a list that q holds of issues from its probe with every check passed and p of the issue. -/
theorem each_meets {ws : List (Nat × Instr)} {q : Instr → Bool} {rs : List (Nat × Word)} {p : Instr → Issue → Bool}
    (h : (ws.all fun e => !q e.2 || meets (probe e.2 rs) e.2 all (p e.2)) = true) :
    ∀ e ∈ ws, q e.2 = true → ∃ c, Issues (probe e.2 rs) e.2 c ∧ p e.2 c = true := by
  intro e he hq
  have := List.all_eq_true.mp h e he
  rw [hq] at this
  exact meets_issues (by simpa using this)

/-- The ISA's register instructions of the word lists. -/
def registerWords : List (Nat × Instr) := integerWords ++ logicWords ++ laneWords ++ floatWords ++ packedWords

/-- Every instruction the value tables name, counted. -/
theorem witness_IntegerAndLogicResults :
    (registerWords.countP fun e => (intValue e.2).isSome || (logicValue e.2).isSome || (compareValue e.2).isSome) = 34 ∧
    ∀ e ∈ registerWords, ((intValue e.2).isSome || (logicValue e.2).isSome || (compareValue e.2).isSome) = true →
      ∃ c, Issues (probe e.2 []) e.2 c ∧ (c.active e.2 != 0) = true :=
  ⟨by decide +kernel, each_meets (q := fun i => (intValue i).isSome || (logicValue i).isSome || (compareValue i).isSome)
    (p := fun i c => c.active i != 0) (by decide +kernel)⟩

theorem witness_ShiftsByAnyCount : (registerWords.countP fun e => (shiftValue e.2).isSome) = 5 ∧
    ∀ e ∈ registerWords, (shiftValue e.2).isSome = true → ∃ c, Issues (probe e.2 []) e.2 c ∧ (c.active e.2 != 0) = true :=
  ⟨by decide +kernel, each_meets (q := fun i => (shiftValue i).isSome) (p := fun i c => c.active i != 0) (by decide +kernel)⟩

theorem witness_ShufflesTakeSourceLane : (registerWords.countP fun e => (shuffleSource e.2).isSome) = 4 ∧
    ∀ e ∈ registerWords, (shuffleSource e.2).isSome = true → ∃ c, Issues (probe e.2 []) e.2 c ∧ (c.active e.2 != 0) = true :=
  ⟨by decide +kernel, each_meets (q := fun i => (shuffleSource i).isSome) (p := fun i c => c.active i != 0) (by decide +kernel)⟩

theorem witness_WarpReductionsAndScans : (registerWords.countP fun e => (reduceValue e.2).isSome) = 2 ∧
    ∀ e ∈ registerWords, (reduceValue e.2).isSome = true → ∃ c, Issues (probe e.2 []) e.2 c ∧ (c.active e.2 != 0) = true :=
  ⟨by decide +kernel, each_meets (q := fun i => (reduceValue i).isSome) (p := fun i c => c.active i != 0) (by decide +kernel)⟩

theorem witness_FloatAndConversionResults :
    (registerWords.countP fun e => (fpValue e.2).isSome || (convertValue e.2).isSome) = 22 ∧
    ∀ e ∈ registerWords, ((fpValue e.2).isSome || (convertValue e.2).isSome) = true →
      ∃ c, Issues (probe e.2 []) e.2 c ∧ (c.active e.2 != 0) = true :=
  ⟨by decide +kernel, each_meets (q := fun i => (fpValue i).isSome || (convertValue i).isSome)
    (p := fun i c => c.active i != 0) (by decide +kernel)⟩

theorem witness_PackedHalvesIndependent : (registerWords.countP fun e => (halfValue e.2).isSome) = 6 ∧
    ∀ e ∈ registerWords, (halfValue e.2).isSome = true → ∃ c, Issues (probe e.2 []) e.2 c ∧ (c.active e.2 != 0) = true :=
  ⟨by decide +kernel, each_meets (q := fun i => (halfValue i).isSome) (p := fun i c => c.active i != 0) (by decide +kernel)⟩

theorem witness_LongArithmeticUnderWay : (registerWords.countP fun e => (longValue e.2).isSome) = 11 ∧
    ∀ e ∈ registerWords, (longValue e.2).isSome = true →
      ∃ c, Issues (probe e.2 []) e.2 c ∧ room (probe e.2 []) e.2 c = true :=
  ⟨by decide +kernel, each_meets (q := fun i => (longValue i).isSome) (p := fun i c => room (probe i []) i c) (by decide +kernel)⟩

/-- Every instruction of a list issues from its probe with every check passed and a lane active. -/
theorem all_issue {is : List Instr}
    (h : (is.all fun i => meets (probe i []) i all fun c => c.active i != 0) = true) :
    ∀ i ∈ is, ∃ c, Issues (probe i []) i c ∧ c.active i ≠ 0 := by
  intro i hi
  obtain ⟨c, h, p⟩ := meets_issues (List.all_eq_true.mp h i hi)
  exact ⟨c, h, by simpa using p⟩

/-- `lmix`, `ballot`, both forms of `bcast`, `hcmp`, `pf`, `pft`, `dcinv`, `icinv`, `nop`, `setpri`. -/
theorem witness_plain_instructions : ∀ i ∈ ([.lmix N .mux ⟨true, false, true, true⟩ 8 4 5 6, .ballot N 8 4, .bcast N 8 4 none,
    .bcast N 8 4 (some 17), .hcmp N .bf16 .un 8 4 5, .pf N .ro 4 0x80, .pft N .none 4 6 7 5, .dcinv N, .icinv N, .nop N,
    .setpri N 5, .sleep N 3, .cgrp N .di 17 8 4 6, .finClose N (.imm 1), .capq N 6 8] : List Instr),
    ∃ c, Issues (probe i []) i c ∧ c.active i ≠ 0 := all_issue (by decide +kernel)

/-! ### Operations under way -/

/-- An operation of the probe's task, counted on `cf0`. -/
def anOp (k : OpKind) : Op := ⟨256, 0, 0, 0, 0, some 0, 0xFFFFFFFF, 0, false, none, false, false, false, 0, k⟩

/-- A probe's state with one operation under way, number 5; `more` changes the rest. -/
def withOp (k : OpKind) (more : Mach → Mach := id) : State :=
  (probe (.nop N) []).updM fun m => more { m with ops := [(5, anOp k)], serial := 6 }

/-- No message of operation n is held and no home is to return it, decided. -/
def comes (m : Mach) (n : Nat) : Bool := (m.heldMsgs.all fun h => h.n != n) && m.domains.all fun d => !d.2.stale.contains n

theorem arrived {m : Mach} {n : Nat} (h : comes m n = true) : m.Arrived n := by
  simp only [comes, Bool.and_eq_true, List.all_eq_true, bne_iff_ne, ne_eq, Bool.not_eq_true', List.contains_eq_mem,
    decide_eq_false_iff_not] at h
  exact ⟨h.1, h.2⟩

theorem witness_cvtPk : ∃ c, LongIssues (probe (.cvtPk L 8 4 5) []) (.cvtPk L 8 4 5) c ∧
    (probe (.cvtPk L 8 4 5) []).m.cvtPkChk c (c.active (.cvtPk L 8 4 5)) 4 = .ok := by
  obtain ⟨c, h, p⟩ := meets_long (s := probe (.cvtPk L 8 4 5) []) (i := .cvtPk L 8 4 5)
    (p := fun c => (probe (.cvtPk L 8 4 5) []).m.cvtPkChk c (c.active (.cvtPk L 8 4 5)) 4 = .ok) (by decide +kernel)
  exact ⟨c, h, by simpa using p⟩

theorem witness_RegisterOperationLands : ∃ o ws fp, (withOp (.writes [(8, 3, 7)] 1)).m.ops.get? 5 = some o ∧
    o.kind = .writes ws fp ∧ o.gone = false ∧ o.dead = false ∧ (withOp (.writes [(8, 3, 7)] 1)).m.Arrived 5 :=
  ⟨anOp (.writes [(8, 3, 7)] 1), [(8, 3, 7)], 1, by decide +kernel, rfl, rfl, rfl, arrived (by decide +kernel)⟩

/-! ### Loads, stores, atomics, tiles -/

/-- Register values for the memory probes: v4 holds 0x100 and v6 0x200. -/
def addrRegs : List (Nat × Word) := [(4, 0x100), (6, 0x200)]

/-- Whether a load of the table passes the checks of R204. -/
def loadPasses (i : Instr) (c : Issue) : Bool :=
  let s := probe i addrRegs
  match loadForm i with
  | some (sp, f, a, off, size, _) => room s i c && isOk (s.m.checkLanes c { spc := sp, size := size } (some f.scope)
      (laneAddrs c (c.active i) sp a off.toInt))
  | none => false

theorem witness_LoadsGoUnderWay : (memoryWords.countP fun e => (loadForm e.2).isSome) = 6 ∧
    (∀ e ∈ memoryWords, (loadForm e.2).isSome = true → ∃ c, Issues (probe e.2 addrRegs) e.2 c ∧ loadPasses e.2 c = true) ∧
    ∃ c as, LongIssues (probe (.acqRp N .n64 .dv 8 4 8) addrRegs) (.acqRp N .n64 .dv 8 4 8) c ∧
      (probe (.acqRp N .n64 .dv 8 4 8) addrRegs).m.checkLanes c { spc := .va, size := 8, promote := true } (some .dv)
        (laneAddrs c (c.active (.acqRp N .n64 .dv 8 4 8)) .va 4 8) = .ok as := by
  refine ⟨by decide +kernel, each_meets (q := fun i => (loadForm i).isSome) (p := loadPasses) (by decide +kernel), ?_⟩
  obtain ⟨c, h, p⟩ := meets_long (s := probe (.acqRp N .n64 .dv 8 4 8) addrRegs) (i := .acqRp N .n64 .dv 8 4 8)
    (p := fun c => isOk ((probe (.acqRp N .n64 .dv 8 4 8) addrRegs).m.checkLanes c { spc := .va, size := 8, promote := true }
      (some .dv) (laneAddrs c (c.active (.acqRp N .n64 .dv 8 4 8)) .va 4 8))) (by decide +kernel)
  obtain ⟨as, ha⟩ := isOk_spec p
  exact ⟨c, as, h, ha⟩

/-- Whether a store of the table passes the checks of R204, R205 and R211. -/
def storePasses (i : Instr) (c : Issue) : Bool :=
  let s := probe i addrRegs
  match storeForm i with
  | some (sp, f, a, _, off) =>
    match s.m.checkLanes c { spc := sp, size := tyWidth f.ty / 8, write := true } (some f.scope)
      (laneAddrs c (c.active i) sp a off.toInt) with
    | .ok as => c.active i != 0 && !s.m.overtakes c.t none (as.map fun x => (x.place, tyWidth f.ty / 8)) &&
        (f.ord != .rel || s.m.releaseChk c (c.active i) f.scope = .ok)
    | .error _ => false
  | none => false

theorem witness_StoresEnterStorePath : (memoryWords.countP fun e => (storeForm e.2).isSome) = 3 ∧
    ∀ e ∈ memoryWords, (storeForm e.2).isSome = true → ∃ c, Issues (probe e.2 addrRegs) e.2 c ∧ storePasses e.2 c = true :=
  ⟨by decide +kernel, each_meets (q := fun i => (storeForm i).isSome) (p := storePasses) (by decide +kernel)⟩

/-- Store 9, on its way to address 0x100. -/
def aStore : PStore := ⟨9, 256, 0, 0, .dev 0x100, [1, 2], false, none, 0⟩

/-- A state in which core 0 has sent it. -/
def storing : State :=
  { (probe (.nop N) []).updM fun m => m.updCore 0 fun k => { k with stores := [aStore] }
      with subj := ⟨0, 9, 0⟩ }

theorem witness_StoreAckPerformsStore : ∃ st : PStore,
    ((storing.m.core storing.subj.x).stores.find? fun y => y.id = storing.subj.y) = some st ∧ st.place = .dev 0x100 ∧
    st.place.peer? = none ∧ st.done = false ∧ storing.m.served storing.subj.y true [st.place] = true ∧
    storing.m.storeBefore storing.subj.x storing.subj.y [(st.place, st.bytes.length)] = false ∧
    storing.m.relcoreFree st.relcore st.place st.bytes.length = true ∧
    storing.m.atGate [(st.place, st.bytes.length)] = false ∧
    (storing.m.performStore storing.subj.x storing.subj.y).holds storing.subj.y false = false ∧
    ((storing.m.performStore storing.subj.x storing.subj.y).replied storing.subj.y storing.subj.x [st.place]).1 = true :=
  ⟨aStore, by decide +kernel, rfl, by decide +kernel, rfl, by decide +kernel⟩

/-- Whether an atomic of the table passes the checks of R204, and of R211 with `.rel`. -/
def atomPasses (i : Instr) (c : Issue) : Bool :=
  let s := probe i addrRegs
  match atomForm i with
  | some (f, _, a, off) => room s i c && isOk (s.m.checkLanes c
      { spc := f.space, size := tyWidth f.ty / 8, write := true, atom := true } (some f.scope)
      (laneAddrs c (c.active i) f.space a off)) && (f.ord != .rel || s.m.releaseChk c (c.active i) f.scope = .ok)
  | none => false

theorem witness_AtomicsGoUnderWay : (atomicWords.countP fun e => (atomForm e.2).isSome) = 9 ∧
    ∀ e ∈ atomicWords, (atomForm e.2).isSome = true → ∃ c, Issues (probe e.2 addrRegs) e.2 c ∧ atomPasses e.2 c = true :=
  ⟨by decide +kernel, each_meets (q := fun i => (atomForm i).isSome) (p := atomPasses) (by decide +kernel)⟩

/-- One lane's `aadd` of 3 at 0x100. -/
def adding : AtomK := ⟨.add, 4, [⟨⟨2, 0x100, .dev 0x100, false⟩, 3, 0⟩], some 8, none, none⟩

theorem witness_AtomicReadsModifiesWrites : ∃ (o : Op) (x : AtomLane), (withOp (.atomic adding)).m.Arrived 5 ∧
    o.kind = .atomic adding ∧ adding.lanes = [x] ∧ (withOp (.atomic adding)).m.ops.get? 5 = some o ∧ o.gone = false ∧
      o.dead = false ∧ x.acc.place = .dev 0x100 ∧
    regionOf 0x100 = .hbm ∧ (withOp (.atomic adding)).m.served 5 true [.dev 0x100] = true ∧
    (withOp (.atomic adding)).m.overtakes o.task (some 5) [(.dev 0x100, adding.size)] = false ∧
    (withOp (.atomic adding)).m.storeBefore o.core 5 [(.dev 0x100, adding.size)] = false ∧
    (withOp (.atomic adding)).m.relcoreFree ((withOp (.atomic adding)).m.relOf o.task o.core o.lanes) (.dev 0x100) adding.size =
      true ∧ (withOp (.atomic adding)).m.ownSpill o.task (.dev 0x100) adding.size = false ∧
    (withOp (.atomic adding)).m.atGate [(.dev 0x100, adding.size)] = false ∧
    ((withOp (.atomic adding)).m.backOver 5 o.core [.dev 0x100, .dev 0x100] [(.dev 0x100, adding.size)]).1 = true ∧
    (∀ cell ∈ (withOp (.atomic adding)).m.waitedCells, ¬(cell < 0x100 + adding.size ∧ 0x100 < cell + 16)) :=
  ⟨anOp (.atomic adding), ⟨⟨2, 0x100, .dev 0x100, false⟩, 3, 0⟩, arrived (by decide +kernel), rfl, rfl, by decide +kernel⟩

theorem witness_TilesAndRangesGoUnderWay :
    (∀ load : Bool, ∀ t ∈ ([⟨.va, .dv, .none, .imm 3 0 0x100⟩] : List TileF),
      let i : Instr := if load then .tld N t 4 6 else .tst N t 4 6
      ∃ c k, LongIssues (probe i addrRegs) i c ∧ (probe i addrRegs).m.tileChk c (c.active i) t load 4 6 = .ok k) ∧
    ∀ discard : Bool, let i : Instr := if discard then .dsc N 4 6 else .cwb N 4 6
      ∃ c rs, LongIssues (probe i addrRegs) i c ∧ (probe i addrRegs).m.rangeChk c (c.active i)
        (c.f.pair 4 (lowLane (c.active i))).toNat (c.f.reg 6 (lowLane (c.active i))).toNat discard = .ok rs := by
  constructor
  · intro load t ht
    obtain rfl := List.mem_singleton.mp ht
    intro i
    obtain ⟨c, h, p⟩ := meets_long (s := probe i addrRegs) (i := i)
      (p := fun c => isOk ((probe i addrRegs).m.tileChk c (c.active i) ⟨.va, .dv, .none, .imm 3 0 0x100⟩ load 4 6))
      (by cases load <;> decide +kernel)
    obtain ⟨k, hk⟩ := isOk_spec p
    exact ⟨c, k, h, hk⟩
  · intro discard i
    obtain ⟨c, h, p⟩ := meets_long (s := probe i addrRegs) (i := i)
      (p := fun c => isOk ((probe i addrRegs).m.rangeChk c (c.active i)
        (c.f.pair 4 (lowLane (c.active i))).toNat (c.f.reg 6 (lowLane (c.active i))).toNat discard))
      (by cases discard <;> decide +kernel)
    obtain ⟨k, hk⟩ := isOk_spec p
    exact ⟨c, k, h, hk⟩

/-! ### Synchronisation -/

/-- A check that answers ok, as a Bool. -/
def okChk (k : Chk) : Bool := k = .ok

theorem meets_chk {s : State} {i : Instr} {f : Issue → Chk}
    (h : meets s i all (fun c => c.active i != 0 && okChk (f c)) = true) : ∃ c, Issues s i c ∧ c.active i ≠ 0 ∧ f c = .ok := by
  obtain ⟨c, h, p⟩ := meets_issues h
  simp only [okChk, Bool.and_eq_true, bne_iff_ne, ne_eq, decide_eq_true_eq] at p
  exact ⟨c, h, p.1, p.2⟩

theorem witness_FencesReleaseAndAcquire :
    (∃ c, Issues (probe (.rel N .dv) []) (.rel N .dv) c ∧ c.active (.rel N .dv) ≠ 0 ∧
      (probe (.rel N .dv) []).m.releaseChk c (c.active (.rel N .dv)) .dv = .ok) ∧
    (∃ c, Issues (probe (.acq N .dv) []) (.acq N .dv) c ∧ (c.active (.acq N .dv) != 0 &&
      !(probe (.acq N .dv) []).m.readsOut c.t) = true) ∧
    ∃ c, Issues (probe (.fence N .dv) []) (.fence N .dv) c ∧ c.active (.fence N .dv) ≠ 0 ∧
      (probe (.fence N .dv) []).m.releaseChk c (c.active (.fence N .dv)) .dv = .ok :=
  ⟨meets_chk (by decide +kernel), meets_issues (p := fun c => c.active (.acq N .dv) != 0 &&
    !(probe (.acq N .dv) []).m.readsOut c.t) (by decide +kernel), meets_chk (by decide +kernel)⟩

theorem witness_TeamBarriers :
    (∃ c, Issues (probe (.bar N 3 4) []) (.bar N 3 4) c ∧ c.active (.bar N 3 4) ≠ 0 ∧
      (probe (.bar N 3 4) []).m.releaseChk c (c.active (.bar N 3 4)) .co = .ok) ∧
    (∃ c, Issues (probe (.barArr N 3 8 4) []) (.barArr N 3 8 4) c ∧ c.active (.barArr N 3 8 4) ≠ 0 ∧
      (probe (.barArr N 3 8 4) []).m.releaseChk c (c.active (.barArr N 3 8 4)) .co = .ok) ∧
    ∃ c, Issues (probe (.barWait N 3 4) []) (.barWait N 3 4) c ∧ c.active (.barWait N 3 4) ≠ 0 ∧ Chk.ok = .ok :=
  ⟨meets_chk (by decide +kernel), meets_chk (by decide +kernel), meets_chk (by decide +kernel)⟩

theorem witness_ByteBarriers :
    (∃ c, Issues (probe (.bbInit N 4) addrRegs) (.bbInit N 4) c ∧ c.active (.bbInit N 4) ≠ 0 ∧
      (probe (.bbInit N 4) addrRegs).m.cellChk c (c.active (.bbInit N 4)) 4 none = .ok) ∧
    (∃ c, Issues (probe (.bbExp N 8 4 5) addrRegs) (.bbExp N 8 4 5) c ∧ c.active (.bbExp N 8 4 5) ≠ 0 ∧
      (probe (.bbExp N 8 4 5) addrRegs).m.cellChk c (c.active (.bbExp N 8 4 5)) 4 none = .ok) ∧
    ∃ c, Issues (probe (.bbWait N .dv 4 5) addrRegs) (.bbWait N .dv 4 5) c ∧ c.active (.bbWait N .dv 4 5) ≠ 0 ∧
      (probe (.bbWait N .dv 4 5) addrRegs).m.cellChk c (c.active (.bbWait N .dv 4 5)) 4 (some .dv) = .ok :=
  ⟨meets_chk (by decide +kernel), meets_chk (by decide +kernel), meets_chk (by decide +kernel)⟩

theorem witness_ByteBarriers_fresh :
    ((probe (.bbWait N .dv 4 5) addrRegs).m.team? 256).map (·.spoilt) = some [] := by decide +kernel

/-- R361: a plain store to a cell leaves its fields unspecified. -/
theorem test_store_spoils_cell :
    (((probe (.bbWait N .dv 4 5) []).m.lsWrite 256 0x108 [1]).team? 256).map (·.spoilt) = some [0x10] := by decide +kernel

/-! ### Control flow -/

/-- Registers for the transfers: v4 = 1 in every lane, v6:v7 the start of the probe's clause. -/
def jumpRegs : List (Nat × Word) := [(4, 1), (6, 0x100000)]

/-- A probe with a function of one granule, n arguments and m results in the clause after the probe's. -/
def withFn (i : Instr) (rs : List (Nat × Word)) (n m : Nat) : State :=
  (probe i rs).updM fun k =>
    { k with mem := Memory.writeN k.mem 0x100040 (natBytes 8 (3 + 2 ^ 26 + 2 ^ 27 + 2 ^ 32 * n + 2 ^ 36 * m)) }

/-- The lanes a transfer leaves behind. -/
def leftBy (go : Issue → Lanes → List (Nat × DWord)) (i : Instr) (c : Issue) : Lanes :=
  c.p.lanes &&& ~~~laneSet ((go c (c.active i)).map (·.1))

theorem witness_TransfersMoveLanes : ∀ i ∈ ([.bra N 0, .braAny N 4 0, .braAll N 4 0, .jmp N 6] : List Instr),
    ∃ go, transferTargets i = some go ∧ ∃ c, IssuesTo (probe i jumpRegs) i c (leftBy go i c) ∧
      (probe i jumpRegs).m.transferChk c (go c (c.active i)) = .ok := by
  intro i hi
  have key : ∀ go, transferTargets i = some go →
      (meets (probe i jumpRegs) i (leftBy go i)
        fun c => okChk ((probe i jumpRegs).m.transferChk c (go c (c.active i)))) = true →
      ∃ go, transferTargets i = some go ∧ ∃ c, IssuesTo (probe i jumpRegs) i c (leftBy go i c) ∧
        (probe i jumpRegs).m.transferChk c (go c (c.active i)) = .ok := by
    intro go hg h
    obtain ⟨c, h, p⟩ := meets_spec h
    exact ⟨go, hg, c, h, by simpa [okChk] using p⟩
  fin_cases hi <;> exact key _ rfl (by decide +kernel)

/-- The lanes an instruction takes with it leave the path. -/
def rest (i : Instr) (c : Issue) : Lanes := c.p.lanes &&& ~~~c.active i

/-- Frames that fill the register charge of the probe's launch. -/
def crowded (m : Mach) : Mach :=
  { m with frames := m.frames ++ (List.range 24).map fun k => (10 + k, ⟨0, 256, [], [], 1, [], [], none, none, []⟩) }

/-- Hypotheses of CallsOpenFrame at s, with the frame fitting or not. -/
def callMeets (s : State) (i : Instr) (exact : Bool) (f w : Nat) (go : Issue → Nat → DWord) (fits : Bool) : Bool :=
  meets s i (rest i) fun c => c.active i != 0 &&
    match s.m.callChk c (c.active i) exact f w ((laneList (c.active i)).map fun n => (n, go c n)) with
    | .ok p => (s.start c i).fits c.tk p.gran == fits
    | .error _ => false

theorem callMeets_spec {s : State} {i : Instr} {exact : Bool} {f w : Nat} {go : Issue → Nat → DWord} {fits : Bool}
    (h : callMeets s i exact f w go fits = true) : ∃ c p, c.active i ≠ 0 ∧ IssuesTo s i c (rest i c) ∧
      s.m.callChk c (c.active i) exact f w ((laneList (c.active i)).map fun n => (n, go c n)) = .ok p ∧
      (s.start c i).fits c.tk p.gran = fits := by
  obtain ⟨c, h, p⟩ := meets_spec h
  simp only [Bool.and_eq_true, bne_iff_ne, ne_eq] at p
  obtain ⟨ha, hp⟩ := p
  split at hp
  · rename_i q hq
    exact ⟨c, q, ha, h, hq, by simpa using hp⟩
  · cases hp

theorem witness_CallsOpenFrame :
    (∃ c p, c.active (.call N true 1 12 1) ≠ 0 ∧
      IssuesTo (withFn (.call N true 1 12 1) [] 3 1) (.call N true 1 12 1) c (rest (.call N true 1 12 1) c) ∧
      (withFn (.call N true 1 12 1) [] 3 1).m.callChk c (c.active (.call N true 1 12 1)) true 2 12
        ((laneList (c.active (.call N true 1 12 1))).map fun n => (n, c.p.clause + (1 : BitVec 24).signExtend 64 * 64)) = .ok p ∧
      ((withFn (.call N true 1 12 1) [] 3 1).start c (.call N true 1 12 1)).fits c.tk p.gran = true) ∧
    (∃ c p, c.active (.callI N false 3 6 12) ≠ 0 ∧
      IssuesTo (withFn (.callI N false 3 6 12) [(6, 0x100040)] 3 1) (.callI N false 3 6 12) c (rest (.callI N false 3 6 12) c) ∧
      (withFn (.callI N false 3 6 12) [(6, 0x100040)] 3 1).m.callChk c (c.active (.callI N false 3 6 12)) false 4 12
        ((laneList (c.active (.callI N false 3 6 12))).map fun n => (n, c.f.pair 6 n)) = .ok p ∧
      ((withFn (.callI N false 3 6 12) [(6, 0x100040)] 3 1).start c (.callI N false 3 6 12)).fits c.tk p.gran = true) ∧
    ∃ c p, c.active (.call N true 1 12 1) ≠ 0 ∧
      IssuesTo ((withFn (.call N true 1 12 1) [] 3 1).updM crowded) (.call N true 1 12 1) c (rest (.call N true 1 12 1) c) ∧
      ((withFn (.call N true 1 12 1) [] 3 1).updM crowded).m.callChk c (c.active (.call N true 1 12 1)) true 2 12
        ((laneList (c.active (.call N true 1 12 1))).map fun n => (n, c.p.clause + (1 : BitVec 24).signExtend 64 * 64)) = .ok p ∧
      (((withFn (.call N true 1 12 1) [] 3 1).updM crowded).start c (.call N true 1 12 1)).fits c.tk p.gran = false :=
  ⟨callMeets_spec (go := fun c _ => c.p.clause + (1 : BitVec 24).signExtend 64 * 64) (by decide +kernel),
    callMeets_spec (go := fun c n => c.f.pair 6 n) (by decide +kernel),
    callMeets_spec (go := fun c _ => c.p.clause + (1 : BitVec 24).signExtend 64 * 64) (by decide +kernel)⟩

/-- A record for tests. -/
def aRecord : FaultRec := ⟨4, 0, false, 0, false, false, false, 1, 0, 0, 0, 1, 0, 0, 1, 0⟩

/-- A probe whose path is lane 3 alone and whose frame has a caller, frame 9, with an unwind mark. -/
def called (i : Instr) (h : Option Handler) : State :=
  (probe i []).updM fun m =>
    let m := m.updTask 0 fun k => { k with run := k.run.map fun p => { p with lanes := 8 } }
    let m := m.updFrame 0 fun f => { f with depth := 2, handler := h, links := [(3, ⟨9, 0x100050, 0x100000, 20, 2⟩)] }
    { m with frames := m.frames.put 9 ⟨0, 64, [], [], 1, [], [(3, ⟨9, 0x100050, 0x100000, 20, 2⟩)], none, none, []⟩ }

theorem witness_ReturnsAndUnwinds :
    (∃ c h, IssuesTo (called (.ret N) (some ⟨aRecord, 0x100010, 0x100000, true, []⟩)) (.ret N) c (rest (.ret N) c) ∧
      c.active (.ret N) ≠ 0 ∧ c.f.handler = some h) ∧
    (∃ c, IssuesTo (called (.ret N) none) (.ret N) c (rest (.ret N) c) ∧ (c.active (.ret N) != 0 &&
      c.f.handler.isNone && decide (1 < c.f.depth) && ((laneList (c.active (.ret N))).filterMap fun n =>
        (c.f.links.get? n).map fun l => (n, l)).all fun l => (List.range l.2.nres).all fun r =>
          (c.f.mark? r l.1).isNone) = true) ∧
    ∃ c, IssuesTo (called (.unwindTo N 12) none) (.unwindTo N 12) c (rest (.unwindTo N 12) c) ∧
      (c.active (.unwindTo N 12) != 0 && ((List.range 32).all fun n => !(c.active (.unwindTo N 12)).getLsbD n ||
        ((called (.unwindTo N 12) none).m.markedBelow n c.p.frame).isSome) &&
        ((laneList (c.active (.unwindTo N 12))).filterMap fun n =>
          ((called (.unwindTo N 12) none).m.markedBelow n c.p.frame).map fun l => (n, l)).all fun l =>
            (List.range l.2.nres).all fun r => (c.f.mark? (12 + r) l.1).isNone) = true := by
  refine ⟨?_, meets_spec (stay := rest (.ret N)) (p := fun c => c.active (.ret N) != 0 &&
      c.f.handler.isNone && decide (1 < c.f.depth) && ((laneList (c.active (.ret N))).filterMap fun n =>
        (c.f.links.get? n).map fun l => (n, l)).all fun l => (List.range l.2.nres).all fun r =>
          (c.f.mark? r l.1).isNone) (by decide +kernel), meets_spec (stay := rest (.unwindTo N 12))
      (p := fun c => c.active (.unwindTo N 12) != 0 && ((List.range 32).all fun n => !(c.active (.unwindTo N 12)).getLsbD n ||
        ((called (.unwindTo N 12) none).m.markedBelow n c.p.frame).isSome) &&
        ((laneList (c.active (.unwindTo N 12))).filterMap fun n =>
          ((called (.unwindTo N 12) none).m.markedBelow n c.p.frame).map fun l => (n, l)).all fun l =>
            (List.range l.2.nres).all fun r => (c.f.mark? (12 + r) l.1).isNone) (by decide +kernel)⟩
  obtain ⟨c, h, p⟩ := meets_spec (s := called (.ret N) (some ⟨aRecord, 0x100010, 0x100000, true, []⟩)) (i := .ret N)
    (stay := rest (.ret N)) (p := fun c => c.active (.ret N) != 0 && c.f.handler.isSome) (by decide +kernel)
  simp only [Bool.and_eq_true, bne_iff_ne, ne_eq, Option.isSome_iff_exists] at p
  obtain ⟨ha, k, hk⟩ := p
  exact ⟨c, k, h, ha, hk⟩

/-- A probe whose task has a deferred fault on the CLEAR flag `cf1`. -/
def deferring : State := (probe (.wflag N 0x802) []).updM fun m => m.updTask 0 fun k => k.setFlag 1 ⟨0, [(3, aRecord)], false⟩

/-- What the task of s answers about a `wflag` of mask 0x802: its flags are CLEAR, and whether a deferred fault is left. -/
def wflagTask (s : State) (fault : Bool) : Bool :=
  match s.m.tasks.get? 0 with
  | some k => k.flags.all (fun f => !(0x802).testBit f.1 || f.2.count == 0) && (k.takeDeferred 0x802).isSome == fault
  | none => false

/-- The whole path exits, and no other path is left. -/
def exitsAll (c : Issue) : Bool :=
  c.active (.exit N) != 0 && c.active (.exit N) == c.p.lanes &&
    ((probe (.exit N) []).m.tasks.get? c.t).any (fun k => k.paths == []) &&
    okChk ((probe (.exit N) []).m.ackChk c (c.active (.exit N)) .dv)

/-- `exit` where bit 0 of v4 is set, and a state in which that is lane 3. -/
def exitSome : Instr := .exit ⟨some ⟨4, false⟩, .none, false⟩
@[inherit_doc exitSome] def oneExits : State := (probe exitSome []).updM fun m => m.updFrame 0 fun f => f.setReg 4 3 1

/-- Some lanes of the path exit. -/
def exitsOne (c : Issue) : Bool := c.active exitSome != 0 && c.active exitSome != c.p.lanes

/-- A clause follows. -/
def yields (c : Issue) : Bool := isOk ((withFn (.yield N) [] 0 0).m.headerAt c.core c.asid
  (c.p.clause + .ofNat 64 ((c.hdr.nblk + 1) * 64)).toNat c.priv)

/-- `wflag` of a task whose flags are CLEAR. -/
def flagsClear (s : State) (fault : Bool) (c : Issue) : Bool :=
  c.active (.wflag N 0x802) != 0 && c.t == 0 && wflagTask s fault

theorem witness_exit : ∃ c, IssuesTo (probe (.exit N) []) (.exit N) c (rest (.exit N) c) ∧ exitsAll c = true :=
  meets_spec (s := probe (.exit N) []) (i := .exit N) (stay := rest (.exit N)) (p := exitsAll) (by decide +kernel)

theorem witness_exit_of_some : ∃ c, IssuesTo oneExits exitSome c (rest exitSome c) ∧ exitsOne c = true :=
  meets_spec (s := oneExits) (i := exitSome) (stay := rest exitSome) (p := exitsOne) (by decide +kernel)

theorem witness_yield : ∃ c, IssuesTo (withFn (.yield N) [] 0 0) (.yield N) c (rest (.yield N) c) ∧ yields c = true :=
  meets_spec (s := withFn (.yield N) [] 0 0) (i := .yield N) (stay := rest (.yield N)) (p := yields) (by decide +kernel)

theorem witness_wflag : ∃ c, Issues (probe (.wflag N 0x802) []) (.wflag N 0x802) c ∧
    flagsClear (probe (.wflag N 0x802) []) false c = true :=
  meets_issues (s := probe (.wflag N 0x802) []) (i := .wflag N 0x802) (p := flagsClear _ false) (by decide +kernel)

theorem witness_wflag_fault : ∃ c, Issues deferring (.wflag N 0x802) c ∧ flagsClear deferring true c = true :=
  meets_issues (s := deferring) (i := .wflag N 0x802) (p := flagsClear _ true) (by decide +kernel)

/-- A probe whose team has its handler in the clause after the probe's. -/
def handling : State := (withFn (.trap N 9 (some 4)) [] 12 0).updM fun m => m.updTeam 256 fun t => { t with trapvec := 0x100040 }

/-- Hypotheses of TrapEntersHandler that every case has. -/
def trapMeets (s : State) (c : Issue) : Bool :=
  c.active (.trap N 9 (some 4)) != 0 && (s.m.tasks.get? c.t).isSome && c.p.lanes != 0 && !s.m.inHandler c.p

theorem witness_TrapEntersHandler :
    (∃ c, Issues (probe (.trap N 9 (some 4)) []) (.trap N 9 (some 4)) c ∧ (trapMeets (probe (.trap N 9 (some 4)) []) c &&
      vecAddr ((((probe (.trap N 9 (some 4)) []).m.team? c.tk).map (·.trapvec)).getD 0) == 0) = true) ∧
    ∃ c, Issues handling (.trap N 9 (some 4)) c ∧ (trapMeets handling c &&
      match handling.m.headerAt c.core c.asid (vecAddr (((handling.m.team? c.tk).map (·.trapvec)).getD 0)) c.priv with
      | .ok h => h.fn && h.narg == 12 && h.nres == 0 && decide (1 ≤ h.frame) && handling.m.fits c.tk (h.frame + 1) &&
          vecAddr (((handling.m.team? c.tk).map (·.trapvec)).getD 0) != 0
      | .error _ => false) = true :=
  ⟨meets_issues (p := fun c => trapMeets (probe (.trap N 9 (some 4)) []) c &&
      vecAddr ((((probe (.trap N 9 (some 4)) []).m.team? c.tk).map (·.trapvec)).getD 0) == 0) (by decide +kernel),
    meets_issues (p := fun c => trapMeets handling c &&
      match handling.m.headerAt c.core c.asid (vecAddr (((handling.m.team? c.tk).map (·.trapvec)).getD 0)) c.priv with
      | .ok h => h.fn && h.narg == 12 && h.nres == 0 && decide (1 ≤ h.frame) && handling.m.fits c.tk (h.frame + 1) &&
          vecAddr (((handling.m.team? c.tk).map (·.trapvec)).getD 0) != 0
      | .error _ => false) (by decide +kernel)⟩

/-! ### Tasks, futures, scopes -/

/-- i issues from s with every check passed, and p holds of the issue. -/
def Can (s : State) (i : Instr) (p : Issue → Bool) : Prop := ∃ c, Issues s i c ∧ p c = true

theorem can {s : State} {i : Instr} {p : Issue → Bool} (h : meets s i all p = true) : Can s i p := meets_issues h

/-- With its flag, too. -/
def CanLong (s : State) (i : Instr) (p : Issue → Bool) : Prop := ∃ c, LongIssues s i c ∧ p c = true

theorem canLong {s : State} {i : Instr} {p : Issue → Bool} (h : meets s i all (fun c => room s i c && p c) = true) :
    CanLong s i p := meets_long h

/-- A lane of the path is active. -/
def someLane (i : Instr) (c : Issue) : Bool := c.active i != 0

/-- A probe with a descriptor in local store at 0x100, its scope byte and the deque as given. -/
def spawning (i : Instr) (scope : Nat) (deque : List Nat) : State :=
  (probe i [(4, 0x100), (6, 0x10000)]).updM fun m =>
    let m := m.updTeam 256 fun t => { t with deque := deque, ls := Memory.writeN [] 0x118 (natBytes 1 scope) }
    { m.updLaunch 1 fun l => { l with ttCount := 1, teamKib := 64 } with peers := [(1, .up)] }

/-- The descriptor passes its checks, its scope and the deque being as said. -/
def spawnPasses (s : State) (i : Instr) (sc : Scope) (free full : Bool) (c : Issue) : Bool :=
  someLane i c && okChk (s.m.releaseChk c (c.active i) sc) &&
    match s.m.descChk c (c.active i) (c.f.reg 4 (lowLane (c.active i))).toNat, s.m.launches.get? c.launch, s.m.team? c.tk with
    | .ok k, some l, some t => okChk (s.m.descFutureChk c (c.active i) k) && ((l.scope k.scope).st == .free) == free &&
        decide (l.dequeCap ≤ t.deque.length) == full
    | _, _, _ => false

theorem witness_SpawnQueuesTask :
    Can (spawning (.spawn N 8 4) 0 []) (.spawn N 8 4) (spawnPasses (spawning (.spawn N 8 4) 0 []) (.spawn N 8 4) .dv false false) ∧
    Can (spawning (.spawn N 8 4) 0 [1, 2, 3, 4, 5, 6, 7, 8]) (.spawn N 8 4)
      (spawnPasses (spawning (.spawn N 8 4) 0 [1, 2, 3, 4, 5, 6, 7, 8]) (.spawn N 8 4) .dv false true) ∧
    Can (spawning (.spawn N 8 4) 3 []) (.spawn N 8 4) (spawnPasses (spawning (.spawn N 8 4) 3 []) (.spawn N 8 4) .dv true false) :=
  ⟨can (by decide +kernel), can (by decide +kernel), can (by decide +kernel)⟩

/-- `spawn.r` to module 1, whose connection is up. -/
def spawnsRemote (c : Issue) : Bool :=
  let s := spawning (.spawnR N 8 4 6) 0 []
  let h := (c.f.pair 6 (lowLane (c.active (.spawnR N 8 4 6)))).toNat
  spawnPasses s (.spawnR N 8 4 6) .sy false false c && h == 0x10000 && s.m.device == 0 && s.m.conn 1 == .up

/-- `resolve` of the cell at 0x100. -/
def resolves (c : Issue) : Bool :=
  let s := probe (.resolve N 8 4 6) addrRegs
  let act := c.active (.resolve N 8 4 6)
  isOk (s.m.joinChk c act (c.f.pair 4 (lowLane act)).toNat true) && okChk (s.m.releaseChk c act .dv)

theorem witness_TaskOperationsGoUnderWay :
    CanLong (spawning (.spawnR N 8 4 6) 0 []) (.spawnR N 8 4 6) spawnsRemote ∧
    CanLong (probe (.resolve N 8 4 6) addrRegs) (.resolve N 8 4 6) resolves ∧
    CanLong (probe (.finOpen N 8 4 6) []) (.finOpen N 8 4 6) (fun _ => true) :=
  ⟨canLong (by decide +kernel), canLong (by decide +kernel), canLong (by decide +kernel)⟩

/-- A probe with a future cell at 0x100 in a state. -/
def joining (i : Instr) (st : Nat) : State :=
  (probe i addrRegs).updM fun m => { m with mem := Memory.writeN m.mem 0x108 (natBytes 1 st) }

/-- `join` or `join.t` passes its checks, the cell in the state. -/
def joinPasses (i : Instr) (st : Nat) (c : Issue) : Bool :=
  let s := joining i st
  match s.m.joinChk c (c.active i) (c.f.pair 4 (lowLane (c.active i))).toNat false with
  | .ok pa => someLane i c && !s.m.joinHeld c pa && !s.m.poisoned (.dev pa) 16 && s.m.cellState pa == st
  | .error _ => false

theorem witness_JoinsReadOrWait :
    Can (joining (.join N 8 4) 1) (.join N 8 4) (joinPasses (.join N 8 4) 1) ∧
    Can (joining (.join N 8 4) 0) (.join N 8 4) (joinPasses (.join N 8 4) 0) ∧
    Can (joining (.joinT N 8 4) 2) (.joinT N 8 4) (joinPasses (.joinT N 8 4) 2) ∧
    Can (joining (.joinT N 8 4) 0) (.joinT N 8 4) (joinPasses (.joinT N 8 4) 0) :=
  ⟨can (by decide +kernel), can (by decide +kernel), can (by decide +kernel), can (by decide +kernel)⟩

theorem witness_TaskEndScopesAndCapacity :
    (∃ c, IssuesTo (probe (.taskEnd N (some 4)) []) (.taskEnd N (some 4)) c 0 ∧ (someLane (.taskEnd N (some 4)) c &&
      okChk ((probe (.taskEnd N (some 4)) []).m.ackChk c (c.active (.taskEnd N (some 4))) .dv)) = true) ∧
    Can (probe (.finClose N (.imm 1)) []) (.finClose N (.imm 1)) (someLane (.finClose N (.imm 1))) ∧
    Can (probe (.finWait N (.imm 0)) []) (.finWait N (.imm 0)) (fun c => someLane (.finWait N (.imm 0)) c &&
      ((probe (.finWait N (.imm 0)) []).m.launches.get? c.launch).isSome) ∧
    Can (probe (.capq N 3 8) []) (.capq N 3 8) (someLane (.capq N 3 8)) :=
  ⟨meets_spec (stay := fun _ => 0) (by decide +kernel), can (by decide +kernel), can (by decide +kernel), can (by decide +kernel)⟩

/-! ### Special registers and system instructions -/

/-- A probe of a privileged task. -/
def privileged (i : Instr) (rs : List (Nat × Word)) : State := (probe i rs).updM fun m => m.updTask 0 fun k => { k with priv := true }

/-- Every special register. -/
def specials : List SReg := [.lane, .warp, .team, .core, .cluster, .die, .device, .clock, .prio, .fpstat, .frameDepth, .capacity,
  .noteSeq, .xsteal, .trapvec, .faultPc, .faultCause, .faultLanes, .faultAddr, .asid, .partition, .inbox, .mtime, .accOwner,
  .leaseState]

theorem special_listed (r : SReg) : r ∈ specials := by cases r <;> decide

theorem witness_movs_read : ∀ r : SReg, Can (privileged (.movsRead N r 0 8) []) (.movsRead N r 0 8) (someLane (.movsRead N r 0 8)) := by
  have h : (specials.all fun r => meets (privileged (.movsRead N r 0 8) []) (.movsRead N r 0 8) all
    (someLane (.movsRead N r 0 8))) = true := by decide +kernel
  exact fun r => can (List.all_eq_true.mp h r (special_listed r))

theorem witness_movs_write : ∀ r ∈ ([.prio, .fpstat, .xsteal, .trapvec, .mtime] : List SReg),
    Can (privileged (.movsWrite N r 0 8) []) (.movsWrite N r 0 8) (someLane (.movsWrite N r 0 8)) := by
  have h : (([.prio, .fpstat, .xsteal, .trapvec, .mtime] : List SReg).all fun r =>
    meets (privileged (.movsWrite N r 0 8) []) (.movsWrite N r 0 8) all (someLane (.movsWrite N r 0 8))) = true := by decide +kernel
  exact fun r hr => can (List.all_eq_true.mp h r hr)

/-- A statement that needs a state and its witness: a read and a write of every special register a program may write. -/
theorem witness_SpecialRegistersReadAndWritten :
    (∀ r : SReg, ∃ s c, Issues s (.movsRead N r 0 8) c) ∧
    ∀ r ∈ ([.prio, .fpstat, .xsteal, .trapvec, .mtime] : List SReg), ∃ s c, Issues s (.movsWrite N r 0 8) c ∧
      someLane (.movsWrite N r 0 8) c = true := by
  refine ⟨fun r => ?_, fun r hr => ⟨_, witness_movs_write r hr⟩⟩
  obtain ⟨c, h, _⟩ := witness_movs_read r
  exact ⟨_, c, h⟩

theorem witness_SleepAndExpiry :
    Can (probe (.sleep N 3) []) (.sleep N 3) (someLane (.sleep N 3)) ∧
    Can (probe (.sleep N 0) []) (.sleep N 0) (someLane (.sleep N 0)) ∧
    ∃ x, ({ probe (.nop N) [] with subj := ⟨256, 0, 0⟩ } : State).m.warps.get? (warpKey 256 0) = some x :=
  ⟨can (by decide +kernel), can (by decide +kernel), ⟨⟨.active, some 0, 0, 0, 0, 0⟩, by decide +kernel⟩⟩

/-- The privileged instructions that go under way. -/
def systemOps : List Instr := [.ctxSave N 8 4 6, .ctxLoad N 8 4 6, .frecRd N 4, .leaseTst N 8 4 5, .leaseRel N 8 4, .tlbInv N 4 6,
  .bezelRd N 8 4 8, .bezelWr N 4 6 8]

/-- v4:v5 = 0x1000, v6 = 1. -/
def systemRegs : List (Nat × Word) := [(4, 0x1000), (6, 1)]

theorem witness_SystemInstructionsGoUnderWay : ∀ i ∈ systemOps,
    CanLong (privileged i systemRegs) i fun c => (systemOp (privileged i systemRegs) c i).isSome := by
  have h : (systemOps.all fun i => meets (privileged i systemRegs) i all fun c => room (privileged i systemRegs) i c &&
    (systemOp (privileged i systemRegs) c i).isSome) = true := by decide +kernel
  exact fun i hi => canLong (List.all_eq_true.mp h i hi)

/-! ### Engines, the matrix unit, collectives -/

/-- A plan that passes, its operation not waiting, with bytes to move or with none. -/
def planGoes (s : State) (i : Instr) (empty : Bool) (c : Issue) (p : Except Chk EnginePlan) : Bool :=
  someLane i c && match p with
    | .ok p => okChk (s.m.engineWait c i p) && p.empty == empty
    | .error _ => false

/-- A probe whose launch has one task type, with one declaration of one row of 16 bytes. -/
def engineState (i : Instr) (rs : List (Nat × Word)) : State :=
  (probe i rs).updM fun m =>
    { m.updLaunch 1 fun l => { l with ttBase := 0x20000, ttCount := 1, teamKib := 64 } with
      mem := Memory.writeN m.mem 0x20000 (natBytes 8 0x100000 ++ natBytes 5 0x100010000) }

/-- Engine operations with their registers. -/
def engineOps : List (Instr × List (Nat × Word)) := [
  (.bcopy N .ls .va .dv 6 8 7 none, [(6, 0x1000), (8, 0x2000), (7, 16)]),
  (.bcopy2d N .ls .ls .dv 4 5 6 7 (some 2), [(4, 0x1000), (5, 0x2000), (6, 0x10002), (7, 0x20002)]),
  (.gath N .ls .dv 6 4 7 1 3 0 none, [(6, 0x1000), (4, 0x2000), (7, 0x100)]),
  (.scat N .ls .dv 6 4 7 1 3 0 none, [(6, 0x1000), (4, 0x2000), (7, 0x100)]),
  (.stage N .dv 4 5 none, [(4, 0x1000), (5, 0x2000)])]

/-- A copy of no bytes. -/
def emptyCopy : Instr := .bcopy N .ls .va .dv 6 8 7 none

/-- The plan of an engine operation. -/
def engineGoes (i : Instr) (rs : List (Nat × Word)) (empty : Bool) (c : Issue) : Bool :=
  match enginePlan i with
  | some plan => planGoes (engineState i rs) i empty c (plan (engineState i rs).m c (c.active i))
  | none => false

theorem witness_EngineOperationsGoUnderWay :
    (∀ e ∈ engineOps, Can (engineState e.1 e.2) e.1 (engineGoes e.1 e.2 false)) ∧
    Can (engineState emptyCopy []) emptyCopy (engineGoes emptyCopy [] true) := by
  have h : (engineOps.all fun e => meets (engineState e.1 e.2) e.1 all (engineGoes e.1 e.2 false)) = true := by
    decide +kernel
  exact ⟨fun e he => can (List.all_eq_true.mp h e he), can (by decide +kernel)⟩

/-- A probe whose team has the token of slot 1. -/
def accState (i : Instr) : State :=
  (probe i [(4, 0x1000), (5, 0x4000), (6, 0x8000)]).updM fun m =>
    m.updTeam 256 fun t => { t with tokens := [(1, ⟨some 0, true, [], []⟩)] }

/-- The matrix operations. -/
def matrixOps : List Instr := [.mma N ⟨3, 2, true, .e4m3, .e5m2, true⟩ false false 4 5,
  .mmaC N ⟨2, 0, false, .bf16, .f16, false⟩ ⟨4, false⟩ false 5, .mmaS N ⟨7, 0, false, .f16, .bf16, true⟩ false false 4 5,
  .mmaDs L ⟨5, 0, false, .bf16, .bf16, false⟩ false false 4 5, .mmaG N ⟨2, 0, false, .f16, .bf16, false⟩ false 4 5 6 0x20 3,
  .mmaGc N ⟨4, 0, false, .bf16, .f16, false⟩ ⟨2, false⟩ 5 6 0x40 1]

/-- The plan of a matrix operation. -/
def mmaGoes (i : Instr) (c : Issue) : Bool :=
  match mmaReq i with
  | some r => planGoes (accState i) i false c ((accState i).m.mmaPlan c (c.active i) r)
  | none => false

/-- `acc.st` of slot 1. -/
def accStore : Instr := .accSt N 1 0 false false .b32 4 128
@[inherit_doc accStore] def accStoreGoes (c : Issue) : Bool :=
  planGoes (accState accStore) accStore false c ((accState accStore).m.accStPlan c (c.active accStore) 1 0 false false .b32 4 128)

theorem witness_MatrixOperationsGoUnderWay :
    (∀ i ∈ matrixOps, Can (accState i) i (mmaGoes i)) ∧ Can (accState accStore) accStore accStoreGoes := by
  have h : (matrixOps.all fun i => meets (accState i) i all (mmaGoes i)) = true := by decide +kernel
  exact ⟨fun i hi => can (List.all_eq_true.mp h i hi), can (by decide +kernel)⟩

/-- A probe whose launch has gangs on clusters 0 and 1, with a group of both at entry 3 or none. -/
def grouped (i : Instr) (group : Bool) : State :=
  (probe i [(4, 0x1000), (5, 0x2000), (6, 16), (7, 0x3000)]).updM fun m =>
    { m.updLaunch 1 fun l => { l with groups := if group then [(3, ⟨3, 0, .di⟩)] else [] } with
      teams := m.teams.put 257 { probeTeam with ix := 1, gang := 1, core := 4 } }

/-- `cgrp` of entry 17, with the members v4:v5 names. -/
def declares : Instr := .cgrp N .di 17 8 4 6
@[inherit_doc declares] def declaring (members : Word) : State :=
  (grouped declares false).updM fun m => m.updFrame 0 fun f =>
    (f.setLanes 4 (List.range 32) fun _ => members).setLanes 5 (List.range 32) fun _ => 0
@[inherit_doc declares] def declaresCode (members : Word) (good : Bool) (c : Issue) : Bool :=
  let g : Group := ⟨c.f.pair 4 (lowLane (c.active declares)), (c.f.reg 6 (lowLane (c.active declares))).toNat % 2 ^ 16, .di⟩
  someLane declares c && (declaring members).m.collsOn c.launch 17 == [] &&
    (decide (2 ≤ g.list.length) && g.list.all ((declaring members).m.gangOn c.launch)) == good

/-- The collectives. -/
def collOps : List Instr := [.cag N .ls .ls 4 5 6 7 3 true, .crs N .max .bf16 .ls .ls 4 5 6 7 3 false,
  .ca2a N .ls .ls 4 5 6 7 3 false]

/-- A collective passes, its group declared with every member there, or its entry not valid. -/
def collGoes (i : Instr) (group : Bool) (c : Issue) : Bool :=
  let s := grouped i group
  match collRequest c (c.active i) i with
  | some r => planGoes s i false c (s.m.collPlan c (c.active i) r) && match s.m.collGroup c r.g with
    | some g => group && g.list.all fun cl => !s.lostClusters.contains cl && !s.m.gangDead c.launch cl
    | none => !group
  | none => false

/-- `cbar`, whose group v6 names: 16, which is not valid. -/
def barrier : Instr := .cbar N 7 6 true

theorem witness_GroupsAndCollectives :
    Can (declaring 3) declares (declaresCode 3 true) ∧ Can (declaring 5) declares (declaresCode 5 false) ∧
    (∀ i ∈ collOps, Can (grouped i true) i (collGoes i true)) ∧ Can (grouped barrier false) barrier (collGoes barrier false) := by
  have h : (collOps.all fun i => meets (grouped i true) i all (collGoes i true)) = true := by decide +kernel
  exact ⟨can (by decide +kernel), can (by decide +kernel), fun i hi => can (List.all_eq_true.mp h i hi), can (by decide +kernel)⟩

/-! ### The accumulator store, reductions -/

/-- The slots of an accumulator instruction pass, or its token is held. -/
def accPasses (i : Instr) (slot : Nat) (held : Bool) (c : Issue) : Bool :=
  someLane i c && okChk (if held then (accState i).m.heldChk c (c.active i) slot else (accState i).m.slotsChk c (c.active i) [slot])

theorem witness_AccumulatorTokensMove :
    CanLong (accState (.accAcq N 2)) (.accAcq N 2) (accPasses (.accAcq N 2) 2 false) ∧
    CanLong (accState (.accAcq N 1)) (.accAcq N 1) (accPasses (.accAcq N 1) 1 false) ∧
    Can (accState (.accRel N 1)) (.accRel N 1) (accPasses (.accRel N 1) 1 true) ∧
    ∃ tm, (accState (.accRel N 1)).m.team? 256 = some tm :=
  ⟨canLong (by decide +kernel), canLong (by decide +kernel), can (by decide +kernel), Option.isSome_iff_exists.mp (by decide +kernel)⟩

/-- `acc.q` of a slot the launch has. -/
def accQPasses (c : Issue) : Bool :=
  someLane (.accQ N 1 8) c && ((accState (.accQ N 1 8)).m.team? c.tk).isSome &&
    ((accState (.accQ N 1 8)).m.launches.get? c.launch).any fun l => decide (1 < l.accSlots)

theorem witness_AccumulatorSlotsReadAndZeroed :
    CanLong (accState (.accLd N 1 3 8)) (.accLd N 1 3 8) (accPasses (.accLd N 1 3 8) 1 true) ∧
    Can (accState (.accZero N 1 2 true)) (.accZero N 1 2 true) (accPasses (.accZero N 1 2 true) 1 true) ∧
    Can (accState (.accZero N 1 0 false)) (.accZero N 1 0 false) (accPasses (.accZero N 1 0 false) 1 true) ∧
    Can (accState (.accQ N 1 8)) (.accQ N 1 8) accQPasses :=
  ⟨canLong (by decide +kernel), can (by decide +kernel), can (by decide +kernel), can (by decide +kernel)⟩

/-- An INT8 matrix operation whose operands are read. -/
def readMma : MmaK :=
  { form := .dense, f := ⟨3, 0, true, .i8, .i8, false⟩, sslot := 0, hs := false, a := none, b := none, aAddr := 0, bAddr := 0
    ids := [], table := 0, kb := 0, nadp := 0, aBytes := [], bBytes := [], adapters := [], read := true, void := false
    asked := none, got := [] }

@[inherit_doc readMma] def updating : State := { withOp (.mma readMma) with subj := ⟨5, 0, 0⟩ }

theorem witness_MatrixUpdatesRegion : ∃ o, updating.m.ops.get? updating.subj.x = some o ∧
    o.kind = .mma readMma ∧ readMma.read = true ∧ readMma.void = false ∧
    updating.m.mmaWaits updating.subj.x o.team readMma = false ∧ readMma.f.af = .i8 :=
  ⟨anOp (.mma readMma), by decide +kernel, rfl, rfl, rfl, by decide +kernel, rfl⟩

/-- `rctx` of context 3: destination 0x1000, buffer 0x2000, teams, elements and slots as v8 says, which
the operand latch holds. -/
def opens : Instr := .rctx N .add .i32 .dv 3 9 4 6 8
@[inherit_doc opens] def opening (teams : Word) (ctx : Sparse RedCtx) : State :=
  (probe opens [(4, 0x1000), (6, 0x2000), (8, teams)]).updM fun m => (m.updLaunch 1 fun l => { l with redctx := ctx }).updTask 0
    fun k => { k with latch := [⟨0xFFFFFFFF, 0, 8, false, [], 1⟩] }

/-- A context that is OPEN. -/
def openCtx : RedCtx := ⟨.opened, .add, .i32, .dv, 0x1000, [(0x2000, 64)], 0, 0, 1, 1, [(0, 0)], [], []⟩

/-- The checks of `rctx` pass, and its code is as given. -/
def opensCode (teams : Word) (ctx : Sparse RedCtx) (code : Nat) (c : Issue) : Bool :=
  let s := opening teams ctx
  let lane := lowLane (c.active opens)
  let w := (c.f.reg 8 lane).toNat
  let r : RctxArgs := ⟨(c.f.pair 4 lane).toNat, (c.f.pair 6 lane).toNat, w % 2 ^ 8, w / 2 ^ 8 % 2 ^ 8,
      w / 2 ^ 16 % 2 ^ 6 + 1, w / 2 ^ 22 % 2 ^ 6 + 1⟩
  someLane opens c && isOk (s.m.rctxChk c (c.active opens) .i32 .dv r) && (s.m.launches.get? c.launch).any fun l =>
    (if (l.redctx.get? 3).any (fun k => k.st == .opened) then 1
      else if decide (r.thi < r.tlo) || decide (l.gangs * l.cores ≤ r.thi) then 2 else 0) == code

/-- `rdet` on the OPEN context 3. -/
def addsTo : Instr := .rdet N .i32 3 4 5 6

theorem witness_ReductionInstructions :
    Can (opening 0 []) opens (opensCode 0 [] 0) ∧ Can (opening 0 [(3, openCtx)]) opens (opensCode 0 [(3, openCtx)] 1) ∧
    Can (opening 0x100 []) opens (opensCode 0x100 [] 2) ∧
    CanLong ((probe addsTo []).updM fun m => m.updLaunch 1 fun l => { l with redctx := [(3, openCtx)] }) addsTo
      (fun c => c.launch == 1) ∧
    CanLong (probe (.rclose N 3 8) []) (.rclose N 3 8) (fun _ => true) :=
  ⟨can (by decide +kernel), can (by decide +kernel), can (by decide +kernel), canLong (by decide +kernel),
    canLong (by decide +kernel)⟩

/-! ### Commands -/

/-- A partition's quota that allows everything. -/
def aQuota : Quota := ⟨16, 0xFFFFFFFFFFFFFFFF, 48, 64, 768, 512, 2048, 0x10000000⟩

/-- A launch record and its task-type table. -/
def launchRecord : List Byte :=
  natBytes 8 0x20000 ++ natBytes 2 1 ++ natBytes 2 1 ++ [0, 1, 1, 4] ++ List.replicate 40 0 ++ natBytes 8 0x1000000 ++
    natBytes 2 4 ++ natBytes 4 0x400 ++ [0, 0] ++ natBytes 2 8

/-- A module that runs: the admin queues, partitions 0 and 2, contexts 1 and 2, the probe's launch in partition 0, a launch record
at 0x60000, and a page of context 1 that is filled on demand at 1 GiB. -/
def hubState : State :=
  let s := probe (.nop N) []
  { s with
    sys := ⟨Flash.shipped, { Hub.reset with
      phase := .running, ena := true, ready := true, memoryActive := true, hdm := 1
      cqs := [(0, ⟨none, 4, 0x8000000000000, 0, false⟩), (7, ⟨some 0, 4, 0x8000000001000, 0, false⟩)]
      eqs := [(0, ⟨none, 4, 0x30000, 255, 0, 0, []⟩), (3, ⟨some 0, 4, 0x31000, 255, 0, 0, []⟩)]
      parts := [(0, aQuota), (2, aQuota)] }, Rom.shipped⟩
    m := { s.m with
      ctxs := [(1, ⟨0, 0x10000⟩), (2, ⟨0, 0x10000⟩)]
      mem := Memory.writeN (Memory.writeN (Memory.writeN s.m.mem 0x60000 launchRecord) 0x20000 (natBytes 8 0x100000)) 0x12008
        (natBytes 8 0x4000011A)
      demand := [(1, 0x40000000)] }
    subj := ⟨1, 0x40000000, 0⟩ }

/-- A command of a partition on the admin queue. -/
def cmdOf (part : Nat) : CmdHdr := ⟨0, 0, false, false, 7, part, 0, false⟩

theorem witness_UnknownCommandReportsInvalid : ∃ q, hubState.mayBegin (cmdOf 0) = true ∧ (0x99 : Nat) ≠ 0x58 ∧
    hubState.sys.hub.eqs.get? (hubState.recordQueue (cmdOf 0)) = some q ∧ q.waiting = [] ∧ q.used hubState.m < 2 ^ q.logn ∧
    ∀ cell ∈ hubState.m.waitedCells, ¬(cell < q.base + 128 + q.tail % 2 ^ q.logn * 32 + 32 ∧
      q.base + 128 + q.tail % 2 ^ q.logn * 32 < cell + 16) :=
  ⟨⟨none, 4, 0x30000, 255, 0, 0, []⟩, by decide +kernel, by decide, by decide +kernel, rfl, by decide +kernel, by decide +kernel⟩

/-- A command runs. -/
theorem runs {s : State} {h : CmdHdr} {p : Bool} {n : Option Nat} (a : (s.mayBegin h && s.precheck h p n == .ok) = true) :
    CommandRuns s h p n := by
  simp only [Bool.and_eq_true, beq_iff_eq] at a
  exact ⟨a.1, a.2⟩

theorem witness_QueuesPartitionsContexts :
    CommandRuns hubState (cmdOf 0) false none ∧ CommandRuns hubState (cmdOf 1) false none ∧
    CommandRuns hubState (cmdOf 2) false none ∧
    hubState.queueChk (cmdOf 0) 5 0 4 0 0x8000000002000 false = .ok ∧ hubState.queueChk (cmdOf 0) 5 1 12 255 0x40000 true = .ok ∧
    ((hubState.sys.hub.cqs.get? 7).isSome = true ∧ ∀ p ∈ hubState.sys.hub.pending, p.queue = 7 → p.begun = false) ∧
    (hubState.sys.hub.eqs.get? 3).isSome = true ∧ (hubState.m.launches.get? 1).isSome = true ∧
    quotaOk aQuota = true ∧ hubState.sys.hub.parts.get? (cmdOf 1).part = none ∧
    (hubState.sys.hub.parts.get? (cmdOf 2).part).isSome = true ∧ (∀ l ∈ hubState.m.launches, l.2.part ≠ (cmdOf 2).part) ∧
    (∀ p ∈ hubState.sys.hub.pending, ((hubState.sys.hub.cqs.get? p.queue).bind (·.part)) ≠ some (cmdOf 2).part) ∧
    0x50000 % 4096 = 0 ∧ hubState.m.inHbm 0x50000 = true ∧ hubState.m.ctxs.get? 3 = none ∧
    (∀ b < 3, 1 ≤ b → (hubState.m.ctxs.get? b).isSome = true) ∧
    hubState.m.ctxs.get? 2 = some ⟨0, 0x10000⟩ ∧ ∀ l ∈ hubState.m.launches, l.2.asid ≠ 2 :=
  ⟨runs (by decide +kernel), runs (by decide +kernel), runs (by decide +kernel), by decide +kernel⟩

/-- A state in which the one team on core 0, with no local store charged, has been told to leave a block of core 0. -/
def leaving : State := hubState.updM fun m =>
  (m.updTeam 256 fun t => { t with evict := true }).updLaunch 1 fun l => { l with lsBytes := 0 }

/-- MAP of a page pinned in the local store of core 0. -/
def pinning : MapAttr := mapAttrOf 0x43

theorem witness_PagesMappedAndUnmapped :
    (CommandRuns hubState (cmdOf 0) true ((hubState.m.ctxs.get? 1).map (·.part)) ∧ hubState.begun (cmdOf 0) = false ∧
      hubState.mapOk 1 (mapAttrOf 3) 0x80000000 0x50000000 0x20000 = true ∧
      (hubState.mapEntries 1 (mapAttrOf 3) 0x80000000 0x50000000 0x20000).2 ≤ Config.tableCount ∧
      hubState.m.pinsFit (mapAttrOf 3) (hubState.m.newPins (mapAttrOf 3) 0x50000000 0x20000) = true ∧ (mapAttrOf 3).home ≠ 1) ∧
    (CommandRuns leaving (cmdOf 0) true ((leaving.m.ctxs.get? 1).map (·.part)) ∧ leaving.begun (cmdOf 0) = false ∧
      leaving.mapOk 1 pinning 0x80000000 0x50000000 0x10000 = true ∧
      (leaving.mapEntries 1 pinning 0x80000000 0x50000000 0x10000).2 ≤ Config.tableCount ∧
      leaving.m.pinsFit pinning (leaving.m.newPins pinning 0x50000000 0x10000) = true ∧ pinning.home = 1 ∧
      leaving.m.newPins pinning 0x50000000 0x10000 ≠ [] ∧
      ((leaving.updM fun m => ({ m with pinning := m.pinning ++ leaving.m.newPins pinning 0x50000000 0x10000 } :
        Mach).markEvicted pinning.tgt).m.blockBusy pinning.tgt) = true) ∧
    (hubState.unmapOk 1 0x40000000 0x40000000 = true ∧
      (∀ l ∈ hubState.m.leaves 1 0x40000000 0x40000000, hubState.m.frameBusy (pteAddr l.entry) l.size = false) ∧
      hubState.m.lockBusy 1 0x40000000 0x40000000 = false) ∧
    (CommandRuns hubState (cmdOf 0) true (some 0) ∧ hubState.m.ctxs.get? 1 = some ⟨0, 0x10000⟩ ∧ 0x1000 + 0x100 ≤ 2 ^ 57) ∧
    ((hubState.subj.x, hubState.subj.y) ∈ hubState.m.demand ∧
      hubState.m.walk hubState.subj.x hubState.subj.y = .leaf 0x4000011A 0x12008 (2 ^ 30) ∧ pteV 0x4000011A = false ∧
      ∀ b < 8, 0x12008 + b < pteAddr 0x4000011A ∨ pteAddr 0x4000011A + 2 ^ 30 ≤ 0x12008 + b) :=
  ⟨⟨runs (by decide +kernel), by decide +kernel⟩, ⟨runs (by decide +kernel), by decide +kernel⟩, by decide +kernel,
    ⟨runs (by decide +kernel), by decide +kernel⟩, by decide +kernel⟩

/-- A state in which channel 5 has a lease. -/
def leased : State := hubState.updHub fun b => { b with leases := [(5, ⟨⟨3, 0, 5⟩, .requested, false, false, none, 0, false, 0⟩)] }

theorem next_launch : hubState.nextLaunch = some 2 := by
  rw [State.nextLaunch, show 65535 = 65533 + 1 + 1 from rfl, List.range_succ_eq_map, List.range_succ_eq_map]
  simp only [List.map_cons, List.map_map, List.find?]
  rw [show (hubState.m.launches.get? ((hubState.sys.hub.lastLaunch + 0) % 65535 + 1)).isNone = false by decide +kernel,
    show (hubState.m.launches.get? ((hubState.sys.hub.lastLaunch + Nat.succ 0) % 65535 + 1)).isNone = true by decide +kernel]
  decide +kernel

/-- What LAUNCH asks for, and where. -/
def launchFits : Bool :=
  match hubState.admissible (cmdOf 0) 0x60000 with
  | some (l, _, _) => (hubState.place (cmdOf 0).part l.gangs l.cores l.charge []).isSome && decide (l.spillSize ≤ hubState.freeSpill 0)
  | none => false

theorem witness_LaunchesPoliciesRecords :
    (CommandRuns hubState (cmdOf 0) true none ∧ launchFits = true ∧ hubState.nextLaunch = some 2) ∧
    (CommandRuns hubState (cmdOf 0) true ((hubState.m.launches.get? 1).map (·.part)) ∧
      CommandRuns hubState (cmdOf 0) true ((hubState.m.launches.get? 9).map (·.part)) ∧ hubState.m.launches.get? 9 = none) ∧
    CommandRuns hubState (cmdOf 0) false none ∧
    (CommandRuns leased (cmdOf 0) false none ∧ unitNamed ⟨3, 0, 5⟩ = true ∧ leased.sys.hub.unitGone ⟨3, 0, 5⟩ = false ∧
      (leased.sys.hub.requestLease ⟨3, 0, 5⟩).1 ≠ 0) ∧
    hubState.m.bufferOk 0x70000 (128 * ((hubState.sys.flash.records.filter fun r => 0 ≤ r.seq).take 8).length) = true ∧
    hubState.m.bufferOk 0x70000 320 = true ∧ (64 ≤ 4 * 2 ^ 20 ∧ hubState.m.bufferOk 0x70000 64 = true) ∧
    0x104 % 4 = 0 ∧ 0x3FF < 2 ^ 12 :=
  ⟨⟨runs (by decide +kernel), by decide +kernel, next_launch⟩, ⟨runs (by decide +kernel), runs (by decide +kernel),
    by decide +kernel⟩, runs (by decide +kernel), ⟨runs (by decide +kernel), by decide +kernel⟩, by decide +kernel⟩

/-! ### Domains, power, the host, errors, leases -/

/-- A state in which domain entry 0 of die 0 has the state. -/
def inDomain (st : DomSt) : State :=
  { hubState.updM fun m => { m with domains := [(0, ⟨0, 47, 0xFFFF, false, st, 0, 47, 0xFF, none, 0, []⟩)] } with subj := ⟨0, 0, 0⟩ }

/-- A state in which the command has begun. -/
def hasBegun : State := hubState.updHub fun b => { b with pending := [⟨0, 0, .domainSplit (cmdOf 0) 0 0 255 0 1, true, []⟩] }

theorem witness_DomainsChange :
    CommandRuns (inDomain .active) (cmdOf 0) false none ∧ (inDomain .switch).m.PeersIdle ∧ (inDomain .active).begun (cmdOf 0) = false ∧
    (inDomain .active).m.splitOk 0 0 4 24 0xFF = true ∧ (inDomain .active).mergeOk 0 0 255 0xFF = true ∧
    (inDomain .active).sys.hub.splitting.get? 0 = none ∧
    (hasBegun.begun (cmdOf 0) = true ∧ hasBegun.sys.hub.splitting.get? 0 = none) ∧
    ((inDomain .writeback).m.domain 0 0).st = .writeback ∧
    (((inDomain .switch).m.domain 0 0).st = .switch ∧ ((inDomain .switch).m.domain 0 0).partner = none ∧
      ((inDomain .switch).m.domain 0 0).newMask ≠ 0) ∧
    ((inDomain .replay).m.domain 0 0).st = .replay ∧ ((inDomain .replay).m.domain 0 0).stale = [] ∧
    ∀ e ∈ (inDomain .active).m.domains, e.1 / 8 = 0 → e.2.st = .active ∨ e.2.st = .inactive :=
  ⟨runs (by decide +kernel), ⟨rfl, rfl, by decide +kernel⟩, by decide +kernel⟩

/-- A running module, its subject a junction temperature, the counts of R23 as given, long after the last records. -/
def hotOrCold (temp : Nat) (since : Option Nat) : State :=
  { hubState.updHub fun b => { b with coolSince := since, hotSince := since } with
    m := { hubState.m with mtime := 3600000000001 }, subj := ⟨temp, 0, 0⟩ }

/-- A module in thermal halt. -/
def halted : State := hubState.updHub fun b => { b with phase := .thermalHalt }

theorem witness_TemperatureAndModuleTime :
    (∀ x ∈ [80, 91, 92, 94, 95, 105, 106], (hotOrCold x none).sys.hub.phase = .running ∧
      (hotOrCold x (some 0)).sys.hub.phase = .running) ∧ halted.sys.hub.phase ≠ .running ∧
    msPast (some 0) 1000000 = true ∧ msPast (some 0) 999999 = false ∧
    hubState.m.mtime < hubState.sys.hub.lastRecord + 60000000000 ∧
    (hotOrCold 80 none).sys.hub.lastRecord + 60000000000 ≤ (hotOrCold 80 none).m.mtime := by decide +kernel

/-- A running module without launches. -/
def unloaded : State := hubState.updM fun m => { m with launches := [] }

/-- A running module whose admin queues have not started, its LOGN fields good or not. -/
def beforeQueues (good : Bool) : State :=
  hubState.updHub fun b =>
    { b with ena := false, ready := false, admcq := 0x8000000000000 + if good then 12 else 13,
             admeq := 0x8000000001004 }

/-- A module at start-up whose identity record has lost its signature. -/
def unsigned : State :=
  { State.reset with sys := { State.reset.sys with flash := { Flash.shipped with identity := Identity.shipped } } }

theorem witness_StartUpAndResets :
    (State.reset.sys.hub.phase = .startup ∧ State.reset.sys.flash.verifies State.reset.sys.rom = true ∧
      (∃ c, State.reset.sys.flash.config = some c) ∧ ∃ v, State.reset.sys.flash.service = some v) ∧
    (unsigned.sys.hub.phase = .startup ∧ unsigned.sys.flash.verifies unsigned.sys.rom = false) ∧
    (unloaded.mayReset (cmdOf 0) = true ∧ unloaded.precheck (cmdOf 0) false none = .ok ∧ unloaded.m.launches = []) ∧
    (hubState.mayReset (cmdOf 0) = true ∧ hubState.precheck (cmdOf 0) false none = .ok) ∧
    ((beforeQueues true).sys.hub.phase = .running ∧ (beforeQueues true).sys.hub.ena = false ∧ (beforeQueues true).sys.hub.ready = false ∧
      lognOk (beforeQueues true).sys.hub.admcq = true ∧ lognOk (beforeQueues true).sys.hub.admeq = true) ∧
    ((beforeQueues false).sys.hub.phase = .running ∧ (beforeQueues false).sys.hub.ena = false ∧
      lognOk (beforeQueues false).sys.hub.admcq = false) ∧
    unloaded.sys.hub.phase = .running ∧ unloaded.sys.hub.ena = true :=
  ⟨⟨rfl, Flash.shipped_verifies, ⟨_, Flash.shipped_config⟩, ⟨_, Flash.shipped_service⟩⟩, by decide +kernel⟩

/-- A running module with a GiB at 5 GiB freed. -/
def withFreed : State := hubState.updM fun m => { m with freed := [(0x100, 0x40)] }

theorem witness_HostWrites :
    (hubState.sys.hub.cqs.get? 7 = some ⟨some 0, 4, 0x8000000001000, 0, false⟩ ∧ hubState.sys.hub.ena = true) ∧
    (hubState.sys.hub.eqs.get? 0 = some ⟨none, 4, 0x30000, 255, 0, 0, []⟩ ∧ hubState.m.waitedCells = []) ∧
    hubState.sys.hub.phase = .running ∧ regionOf (0x100000000000 * 128) = .host ∧
    (0x100 + 8 ≤ hubState.sys.hub.hdm * 2 ^ 30 ∧ hubState.m.isFreed 0x100 = false ∧
      hubState.m.placeWaits true (.dev 0x100) = false ∧ hubState.m.placeWaits false (.dev 0x100) = false ∧
      hubState.sys.hub.memoryActive = true) ∧
    (withFreed.m.isFreed 0x100 = true ∧ withFreed.m.placeWaits false (.dev 0x100) = false) ∧
    (State.reset.sys.hub.memoryActive = false ∧ 0 + 0 ≤ State.reset.sys.hub.hdm * 2 ^ 30) ∧
    hubState.sys.hub.hdm * 2 ^ 30 < 2 ^ 30 - 4 + 8 := by decide +kernel

/-- A day after start-up. -/
def dayAfter : State := hubState.updM fun m => { m with mtime := 24 * 3600000000000 }

/-- A state whose stack 3 has a forced pass asked for; one whose scrubber there yields. -/
def forcedScrub : State := hubState.updHub fun b => { b with forced := [3] }
@[inherit_doc forcedScrub] def yieldingScrub : State := hubState.updHub fun b => { b with yielding := [3] }

theorem witness_ErrorsAndScores :
    (⟨0, 1, 2⟩ : UnitRef) ∉ hubState.sys.hub.retired ∧ (∃ x, hubState.m.team? 256 = some x ∧ x.holds = true) ∧
    (∃ x, (hubState.updM fun m => m.updTeam 256 fun t => { t with res := .ended }).m.team? 256 = some x ∧ x.holds = false) ∧
    ((dayAfter.sys.hub.scrb 3).getLsbD 0 = true ∧ 3 ∉ dayAfter.sys.hub.yielding ∧
      dayAfter.sys.hub.scrubAt.getD (3 * 64 + 1) 0 + dayAfter.sys.hub.scrubPeriod 3 1 ≤ dayAfter.m.mtime) ∧
    (hubState.m.mtime < hubState.sys.hub.scrubAt.getD (3 * 64 + 1) 0 + hubState.sys.hub.scrubPeriod 3 1 ∧
      3 ∉ hubState.sys.hub.forced) ∧
    (3 ∈ forcedScrub.sys.hub.forced ∧ 3 ∉ forcedScrub.sys.hub.yielding) ∧ 3 ∈ yieldingScrub.sys.hub.yielding ∧
    hubState.sys.hub.yieldAt 3 = 75 ∧
    (hotOrCold 80 none).sys.hub.lastHour + 3600000000000 ≤ (hotOrCold 80 none).m.mtime :=
  ⟨by decide +kernel, ⟨_, rfl, by decide +kernel⟩, ⟨_, rfl, by decide +kernel⟩, by decide +kernel⟩

/-- Lease 5 of a unit in a state. -/
def aLease (u : UnitRef) (st : LeaseSt) : Lease := ⟨u, st, false, false, none, 0, false, 0⟩

/-- A state with that lease. -/
def leaseIn (l : Lease) : State := { hubState.updHub fun b => { b with leases := [(5, l)] } with subj := ⟨5, 0, 0⟩ }

/-- The lease of a channel whose stack has been copied. -/
def copied : Lease := { aLease ⟨3, 0, 5⟩ .draining with copying := true }

/-- A read-only test that counted 64 corrected errors. -/
def counted : State := (leaseIn (aLease ⟨3, 0, 5⟩ .testing)).updHub fun b => { b with tested := [(5, ⟨false, false, 64, 0, 0, true⟩)] }

/-- A lane group to retire whose spare lane is in use. -/
def spareless : State := (leaseIn (aLease ⟨4, 0, 1⟩ .retiring)).updHub fun b => { b with usedSpares := [unitCode ⟨4, 0, 1⟩] }

theorem witness_LeasesRunTheirCourse :
    ((leaseIn (aLease ⟨3, 0, 5⟩ .requested)).sys.hub.leases.get? 5 = some (aLease ⟨3, 0, 5⟩ .requested) ∧
      (leaseIn (aLease ⟨3, 0, 5⟩ .requested)).leaseMayStart 5 (aLease ⟨3, 0, 5⟩ .requested) = true) ∧
    ((leaseIn (aLease ⟨0, 1, 2⟩ .draining)).sys.hub.leases.get? 5 = some (aLease ⟨0, 1, 2⟩ .draining) ∧
      (leaseIn (aLease ⟨0, 1, 2⟩ .draining)).drainedUnit ⟨0, 1, 2⟩ = true) ∧
    ((leaseIn copied).sys.hub.leases.get? 5 = some copied ∧ (leaseIn copied).findSpare ⟨3, 0, 5⟩ = some 32 ∧
      (leaseIn copied).m.copying (chanStack ⟨3, 0, 5⟩) = false) ∧
    (counted.sys.hub.leases.get? 5 = some (aLease ⟨3, 0, 5⟩ .testing) ∧
      counted.sys.hub.tested.get? 5 = some ⟨false, false, 64, 0, 0, true⟩) ∧
    ((leaseIn (aLease ⟨0, 1, 2⟩ .testing)).sys.hub.leases.get? 5 = some (aLease ⟨0, 1, 2⟩ .testing)) ∧
    ((leaseIn (aLease ⟨3, 0, 5⟩ .returning)).sys.hub.leases.get? 5 = some (aLease ⟨3, 0, 5⟩ .returning)) ∧
    ((leaseIn (aLease ⟨2, 0, 1⟩ .returning)).sys.hub.leases.get? 5 = some (aLease ⟨2, 0, 1⟩ .returning) ∧
      (leaseIn (aLease ⟨2, 0, 1⟩ .returning)).sys.hub.splitting.get? 0 = none ∧
      (leaseIn (aLease ⟨2, 0, 1⟩ .returning)).m.mergeEntry (aLease ⟨2, 0, 1⟩ .returning) = none) ∧
    (leaseIn (aLease ⟨0, 1, 2⟩ .retiring)).sys.hub.leases.get? 5 = some (aLease ⟨0, 1, 2⟩ .retiring) ∧
    ((leaseIn (aLease ⟨0, 1, 2⟩ .retiring)).findSpare ⟨0, 1, 2⟩).isSome = true ∧
    (spareless.sys.hub.leases.get? 5 = some (aLease ⟨4, 0, 1⟩ .retiring) ∧ spareless.findSpare ⟨4, 0, 1⟩ = none) := by decide +kernel

/-! ### Peers, the fabric, migration -/

/-- A running module whose module 3 is connected, with a page and a block that move, an inbox, a remote cell; the event's subject as
given. -/
def peered (x y : Nat) : State :=
  { hubState.updM fun m => { m.updLaunch 1 fun l =>
      { l with hasInbox := true, inbox := [((probeTask 0).desc, 3), ((probeTask 0).desc, 3)] } with
      peers := [(3, .up)], links := [(0, 3)], remoteCells := [⟨1, 0x100, 3⟩], mtime := 10000000
      migs := [(1, ⟨0x50000000, 0x60000000, 0x10000, [(1, 0x50000000)], [], 0⟩), (2, ⟨0x70000000, 0x78000000, 0x200, [], [], 0⟩)] } with
    subj := ⟨x, y, 0⟩ }

/-- One in which a write of module 3 waits at the gate of that page. -/
def gating : State :=
  { (peered 1 3).updM fun m => { m with
      peerIn := [⟨7, 3, 0x50000008, .write [1] false, 0⟩]
      migs := m.migs.upd 1 fun u => { u with gate := [.peer 7] } } with subj := ⟨1, 3, 0⟩ }

/-- A connected peer asks at pa, decided. -/
def asks (s : State) (module pa n : Nat) : Bool :=
  s.m.late.isEmpty && s.m.peerIn.isEmpty && (s.m.remoteCells.all fun r => s.m.conn r.module ≠ .down) && s.m.conn module = .up &&
    s.m.forwarded pa = pa && s.m.inHbm pa && s.m.inHbm (pa + n - 1)

theorem asks_spec {s : State} {module pa n : Nat} (h : asks s module pa n = true) : s.PeerAsks module pa n := by
  simp only [asks, Bool.and_eq_true, List.isEmpty_iff, List.all_eq_true, decide_eq_true_eq] at h
  exact ⟨⟨h.1.1.1.1.1.1, h.1.1.1.1.1.2, h.1.1.1.1.2⟩, h.1.1.1.2, h.1.1.2, h.1.2, h.2⟩

theorem witness_PeersFabricMigration :
    ((peered 2 5).running = true ∧ (peered 2 5).subj.x < 8 ∧ (peered 2 5).subj.y < 8 ∧ (peered 2 5).subj.y ≠ (peered 2 5).m.device ∧
      (peered 2 5).sys.hub.lanesLost (peered 2 5).subj.x ≤ 4) ∧
    (peered 3 0).m.conn (peered 3 0).subj.x = .up ∧ ((unloaded.m.migs = []) ∧ ∀ d ∈ unloaded.m.domains, d.2.st ≠ .switch) ∧
    (peered 0 0).PeerAsks 3 0x100 8 ∧ (peered 0 0).PeerAsks 3 0x50000008 1 ∧
    ((peered 0 0).m.placeWaits false (.dev 0x100) = false ∧ (peered 0 0).m.placeWaits true (.dev 0x100) = false ∧
      (peered 0 0).m.atGate [(.dev 0x100, 8)] = false ∧ (peered 0 0).m.atGate [(.dev 0x50000008, 1)] = true ∧
      (peered 0 0).m.waitedCells = []) ∧
    ((withOp (.accAcq 1)).m.ops.get? 5 = some (anOp (.accAcq 1)) ∧ (anOp (.accAcq 1)).reply = none) ∧
    (∃ l, (peered 1 0).m.launches.get? (1 % 2 ^ 16) = some l ∧ l.hasInbox = true ∧ l.inboxGen = 1 / 2 ^ 32 % 2 ^ 16 ∧
      (l.scope 0).st ≠ .free ∧ l.inbox ≠ [] ∧ (peered 1 0).inboxTeam (peered 1 0).subj.x l = some 256) ∧
    (peered 1 0).m.launches.get? (9 % 2 ^ 16) = none ∧
    ((⟨1, 0x100, 3⟩ : RemoteCell) ∈ (peered 1 0).m.remoteCells ∧ ((peered 1 0).m.cellFor 1 0x100).1 = some 0x100 ∧
      ((peered 1 0).m.cellFor 1 0x100).2.placeWaits true (.dev 0x100) = false ∧
      ((peered 1 0).m.cellFor 1 0x100).2.cellState 0x100 = 0) ∧
    (peered 1 0).m.PeersIdle ∧ Memory.wf (peered 1 0).m.mem = true ∧
    (∃ u, (peered 1 0).m.migs.get? (peered 1 0).subj.x = some u ∧ u.pages ≠ [] ∧ u.gate = [] ∧ u.old + u.size ≤ u.new) ∧
    (∃ u, (peered 2 0).m.migs.get? (peered 2 0).subj.x = some u ∧ u.pages = [] ∧ u.gate = []) ∧
    (∃ u w, gating.m.migs.get? gating.subj.x = some u ∧ gating.m.peerIn.find? (fun r => r.module = gating.subj.y &&
      u.gate.contains (.peer r.id) && r.at_ + gating.m.holdNs < gating.m.mtime) = some w) ∧
    ((peered 1 5).subj.x < 4 ∧ (peered 1 5).subj.y < 68 ∧ (peered 1 5).m.mayGate (peered 1 5).subj.x (peered 1 5).subj.y = true) :=
  ⟨by decide +kernel, by decide +kernel, by decide +kernel, asks_spec (by decide +kernel), asks_spec (by decide +kernel),
    by decide +kernel, by decide +kernel, ⟨_, rfl, by decide +kernel⟩, by decide +kernel, by decide +kernel,
    ⟨rfl, by decide +kernel, by decide +kernel⟩, by decide +kernel, ⟨_, rfl, by decide +kernel⟩, ⟨_, rfl, by decide +kernel⟩,
    ⟨_, _, rfl, Option.some_get (by decide +kernel) |>.symm⟩, by decide +kernel⟩

/-! ### Residency, gangs -/

/-- A running module with the probe's team in a residency state and its launch changed; the event's subject as given. -/
def team (x y : Nat) (r : Residency) (f : Launch → Launch) (more : Mach → Mach) : State :=
  { hubState.updM fun m => more ((m.updTeam 256 fun t => { t with res := r }).updLaunch 1 f) with subj := ⟨x, y, 0⟩ }

/-- A gang kill asked for. -/
def killAsked (m : Mach) : Mach := { m with kills := [⟨1, 0, aRecord⟩] }

/-- No task, frame or warp in use. -/
def quiet (m : Mach) : Mach := { m with tasks := [], frames := [], warps := [] }

theorem witness_ResidencyAndGangs :
    (team 0 0 .resident id fun m => { m with clock := 2 ^ 20 }).sys.hub.window <
      (team 0 0 .resident id fun m => { m with clock := 2 ^ 20 }).m.clock / 2 ^ 20 ∧
    (∃ x, (team 256 0 .draining id quiet).m.team? 256 = some x ∧ x.res = .draining ∧ x.drainEnd ≤ (team 256 0 .draining id quiet).m.clock ∧
      (team 256 0 .draining id quiet).m.framesHeld 256 = false) ∧
    (∃ x, (team 256 0 .saving id quiet).m.team? 256 = some x ∧ x.res = .saving ∧ (team 256 0 .saving id quiet).m.saveReady 256 = true ∧
      (team 256 0 .saving id quiet).m.dying 256 = false) ∧
    (∃ x, (team 256 0 .restoring id quiet).m.team? 256 = some x ∧ x.res = .restoring) ∧
    (∃ l x, (team 1 0 .resident id killAsked).m.launches.get? 1 = some l ∧
      (team 1 0 .resident id killAsked).m.kills.find? (fun k => k.launch = 1 && k.gang = 0) = some ⟨1, 0, aRecord⟩ ∧
      (team 1 0 .resident id killAsked).m.team? 256 = some x ∧ x.launch = 1 ∧ x.gang = 0 ∧ x.res ≠ .ended) ∧
    (∃ l, (team 1 0 .waitingNew (fun l => { l with relaunching := [0] }) quiet).m.launches.get? 1 = some l ∧ 0 ∈ l.relaunching ∧
      ((team 1 0 .waitingNew (fun l => { l with relaunching := [0] }) quiet).m.gangTeams 1 0).any
        (team 1 0 .waitingNew (fun l => { l with relaunching := [0] }) quiet).m.lsBusy = false) ∧
    (team 1 0 .resident (fun l => { l with stop := some 6 }) quiet).m.launchOver 1 = true :=
  ⟨by decide +kernel, ⟨_, rfl, by decide +kernel⟩, ⟨_, rfl, by decide +kernel⟩, ⟨_, rfl, by decide +kernel⟩,
    ⟨_, _, rfl, rfl, rfl, by decide +kernel⟩, ⟨_, rfl, by decide +kernel⟩, by decide +kernel⟩

/-! ### Staging, tasks, waits, stealing -/

/-- The probe's task in another state and place, with its declarations. -/
def taskIn (st : TaskSt) (paths : List Path) (opers : List Oper) : Task :=
  { probeTask 0 with
    st := st, run := none, paths := paths, buf := some (0, 256), tte := some ⟨0x100040, 1, 0, 1, opers.length, 0, opers⟩ }

/-- A path of one lane in a state, in frame 1. -/
def pathIn (st : PathSt) : Path := ⟨8, 0x100008, 0x100000, true, 1, st, 0⟩

/-- A running module: task 1 in the team's deque, frame 1 its own, warp 1 idle, a function of 8 arguments at 0x100040. -/
def tasked (x y : Nat) (t : Task) (more : Mach → Mach) : State :=
  { hubState.updM fun m => more { (m.updTeam 256 fun t => { t with deque := [1] }).updLaunch 1 fun l =>
      { l with ttBase := 0x20000, ttCount := 1, spillSize := 0x4000000 } with
      tasks := m.tasks ++ [(1, t)]
      frames := m.frames ++ [(1, ⟨1, 16, [], [], 1, [], [], none, none, []⟩)]
      warps := m.warps ++ [(256 * 64 + 1, ⟨.idle, none, 0, 0, 0, 0⟩)]
      mem := Memory.writeN m.mem 0x100040 (natBytes 8 (3 + 2 ^ 26 + 2 ^ 27 + 2 ^ 35))
      serial := 9 } with
    subj := ⟨x, y, 0⟩ }

/-- What STAGING_COMPLETE asks of the module. -/
def stages (s : State) : Bool :=
  match s.m.tasks.get? 1, s.m.launches.get? 1 with
  | some x, some l => match s.m.closureLine 1 x 0 l.asid, x.tte with
    | (.ok (line, _), m), some e => match e.opers, m.askRows 1 x 0 l.asid line (e.opers.zipIdx.map fun o => (o.2, o.1)) with
      | [o], (true, m') => x.opers == 0 &&
        let p := planOf line o x.desc.x x.desc.y x.desc.z (x.buf.getD (0, 0)).1
        planOk p o (x.buf.getD (0, 0)).2 && match m'.stageRead 1 0 0 1 256 l.asid p with
          | (.done _ _, _) => true
          | _ => false
      | _, _ => false
    | _, _ => false
  | _, _ => false

/-- One declaration: a row of 16 bytes. -/
def anOper : Oper := ⟨0, 0, 0, 0, 0, 0, 0, 0, 0, 0⟩

/-- The state of STAGING_START, of LS_SHORTAGE, and of the two kinds of TASK_START. -/
def stagingState : State := tasked 256 0 (taskIn .queued [] []) id
@[inherit_doc stagingState] def shortState : State :=
  tasked 256 0 { taskIn .resumable [pathIn .eligible] [] with bufImage := some 0 } fun m =>
    { m.updLaunch 1 fun l => { l with spillBase := 0, images := [⟨0, 1, none, 0, [7], [], [0]⟩] }
      with mem := ⟨0, Config.freeByte 0⟩ :: m.mem }
@[inherit_doc stagingState] def resumeState : State := tasked 256 1 (taskIn .resumable [pathIn .eligible] []) id
@[inherit_doc stagingState] def startState : State := tasked 256 1 (taskIn .ready [] []) id
@[inherit_doc stagingState] def firstUseState : State :=
  tasked 256 2 (taskIn .queued [] []) fun m => m.updTeam 256 fun t => { t with accWanted := [(2, 0)] }

/-- The image of the buffer stands as it was written. -/
theorem short_intact : shortState.m.imageIntact 1 0 0 (1 / 65536 + 2) 1 = true := by
  have h : (shortState.m.translateServiced 1 0 { priv := true }).1 = .ok ⟨0, 0, 0, 0, 2 ^ 30, false⟩ := by
    decide +kernel
  have r : shortState.m.homeRead 0 1 = [Config.freeByte 0] := by rfl
  simp [Mach.imageIntact, h, r]

theorem witness_StagingAndTaskStart :
    (∃ tm l x, stagingState.m.team? 256 = some tm ∧ stagingState.m.launchOf 256 = some l ∧ tm.runs = true ∧ tm.kept = [] ∧
      stagingState.m.dying 256 = false ∧ stagingState.m.stagingOn tm.core < 8 ∧ stagingState.m.stageOpsOn tm.core = false ∧
      stagingState.m.stagingOrder l tm.deque = [1] ∧ stagingState.m.tasks.get? 1 = some x ∧
      (match (stagingState.m.readTte l x.desc.typ).1 with
        | .ok e => (if e.lsdem = 0 then some 0 else firstFit (stagingState.m.heldUnits 256) (stagingState.m.poolUnits 256).1
            (stagingState.m.poolUnits 256).2 e.lsdem).isSome
        | .error _ => false) = true) ∧
    (stages (tasked 1 0 (taskIn .staging [] [anOper]) id) = true) ∧
    (∃ tm l x, shortState.m.team? 256 = some tm ∧ shortState.m.launchOf 256 = some l ∧ tm.runs = true ∧
      (∃ w ∈ shortState.m.warpsOf 256, w.2.st = .idle) ∧ (∀ e ∈ shortState.m.tasksOf 256, e.2.st ≠ .ready ∧ e.2.st ≠ .staging) ∧
      (∀ e ∈ (shortState.m.tasksOf 256).filter (fun e => e.2.st = .resumable), e.2.bufImage ≠ none) ∧
      shortState.m.stageOpsOn tm.core = false ∧
      earliest ((shortState.m.tasksOf 256).filter fun e => e.2.st = .resumable) = some (1, x) ∧
      shortState.m.tasks.get? 1 = some x ∧ x.buf = some (0, 256) ∧ x.bufImage = some 0 ∧
      shortState.m.rangeFree 256 (0, 256) = true ∧ l.images.find? (fun i => i.off = 0) = some ⟨0, 1, none, 0, [7], [], [0]⟩ ∧
      l.asid = 1 ∧ l.spillBase.toNat + 0 = 0) ∧
    (∃ tm y x, resumeState.m.team? 256 = some tm ∧ resumeState.m.warps.get? (warpKey 256 1) = some y ∧ y.st = .idle ∧
      tm.runs = true ∧ resumeState.m.dying 256 = false ∧
      earliest ((resumeState.m.tasksOf 256).filter fun e => e.2.st = .resumable && e.2.bufImage.isNone) = some (1, x) ∧
      (∀ p ∈ x.paths, resumeState.m.spilledNeed p.frame = none) ∧ x.paths.any Path.selectable = true) ∧
    (∃ tm l x e, startState.m.team? 256 = some tm ∧ startState.m.launchOf 256 = some l ∧ startState.m.dying 256 = false ∧
      (tm.res = .resident ∧ tm.kept = [] ∧ (startState.m.warps.get? (warpKey 256 1)).any (·.st == .idle) = true) ∧
      earliest ((startState.m.tasksOf 256).filter fun e => e.2.st = .resumable && e.2.bufImage.isNone) = none ∧
      tm.deque.find? (fun n => (startState.m.tasks.get? n).any fun z => z.st = .ready) = some 1 ∧
      startState.m.tasks.get? 1 = some x ∧ x.tte = some e ∧ startState.m.fits 256 (e.frame + 1) = true ∧
      (match startState.m.headerAt tm.core l.asid e.entry.toNat x.priv with
        | .ok h => h.fn && h.frame == e.frame && h.narg == 8 && decide (h.nres ≤ 8)
        | .error _ => false) = true) ∧
    ∃ tm l, firstUseState.m.team? 256 = some tm ∧ firstUseState.m.launchOf 256 = some l ∧
      tm.accWanted.find? (fun e => e.1 = 2) = some (2, 0) ∧ tm.slotMap.get? 2 = some 2 ∧ tm.runs = true ∧
      firstUseState.m.dying 256 = false ∧ ((firstUseState.m.core tm.core).ownerOf 2).v = false ∧ 2 ∉ tm.savedAcc :=
  ⟨⟨_, _, _, rfl, rfl, rfl, rfl, by decide +kernel, by decide +kernel, by decide +kernel, by decide +kernel, rfl,
      by decide +kernel⟩, by decide +kernel,
    ⟨_, _, _, rfl, rfl, rfl, by decide +kernel, by decide +kernel, by decide +kernel, by decide +kernel, rfl, by decide +kernel⟩,
    ⟨_, _, _, rfl, rfl, rfl, rfl, by decide +kernel, rfl, by decide +kernel, by decide +kernel⟩,
    ⟨_, _, _, _, rfl, rfl, by decide +kernel, by decide +kernel, by decide +kernel, by decide +kernel, rfl, rfl,
      by decide +kernel, by decide +kernel⟩,
    ⟨_, _, rfl, rfl, rfl, rfl, rfl, by decide +kernel, by decide +kernel, by decide +kernel⟩⟩

/-- The state of PATH_SELECTION with no path in the run slot, and of the frame requests: task 0 blocked on a request of k
granules, task 1 parked with frame 1 or gone. -/
def unselected : State := tasked 256 0 (taskIn .parked [] []) fun m => m.updTask 0 fun k => { k with run := none, paths := [pathIn .eligible] }
@[inherit_doc unselected] def requesting (k : Nat) (parked : Bool) : State := tasked 256 0 (taskIn .parked [] []) fun m =>
  let m := m.updTask 0 fun t => { t with run := none, paths := [{ pathIn (.blocked (.call k 12 true [] 0 0) 1) with frame := 0 }] }
  let m := m.updWarp 256 0 fun x => { x with st := .blocked }
  if parked then m else { m with tasks := m.tasks.filter fun e => e.1 = 0, frames := m.frames.filter fun e => e.1 = 0 }

/-- The states of JOIN_WAKE and WATCHDOG: task 1 waits for the cell at 0x100, for longer than SVCTL allows. -/
def joinWaiting : State := tasked 0x100 0 { taskIn .parked [pathIn (.waiting (.join 0x100 0x100 true 12 8))] [] with watch := 3000000000 }
  fun m => { m with mem := Memory.writeN m.mem 0x108 [1] }
@[inherit_doc joinWaiting] def overdue : State := { joinWaiting with subj := ⟨1, 0, 0⟩ }

/-- A read of one word at module 3, whose connection is RECOVERING. -/
def peerRead : OpKind := .load ⟨4, false, [⟨3, 0x1000, .dev 0x1030000000000, false⟩], 8, 1, false, none, false, .none, none⟩
@[inherit_doc peerRead] def recovering : State :=
  { withOp peerRead fun m => { m with
      peers := [(3, .recovering)], ops := m.ops.map fun e => (e.1, { e.2 with waitNs := 2 ^ 40 }) } with subj := ⟨5, 0, 0⟩ }

/-- A team on core 1 of the same gang, task 1 in its deque, and what the probe's team has asked. -/
def stealing (y : Nat) (asked : Steal) (st : TaskSt) (deque : List Nat) : State :=
  tasked 256 y { taskIn st [] [] with team := 257 } fun m =>
    let m := m.updTeam 256 fun t => { t with deque := [], steal := asked }
    { m with teams := m.teams.put 257 { probeTeam with ix := 1, coreIx := 1, core := 1, deque := deque } }

/-- Nothing asked yet. -/
def noSteal : Steal := ⟨none, none, [], 0, false⟩

theorem witness_PathsWaitsStealing :
    (∃ p, (tasked 256 0 (taskIn .parked [] []) id).m.mayIssue 256 0 = true ∧
      ((tasked 256 0 (taskIn .parked [] []) id).m.warps.get? (warpKey 256 0)).bind (·.task) = some 0 ∧
      ((tasked 256 0 (taskIn .parked [] []) id).m.tasks.get? 0).bind (·.run) = some p ∧ p.entered = true) ∧
    (∃ x, unselected.m.mayIssue 256 0 = true ∧ (unselected.m.warps.get? (warpKey 256 0)).bind (·.task) = some 0 ∧
      unselected.m.tasks.get? 0 = some x ∧ x.run = none ∧ x.demote = 0 ∧ (∀ q ∈ x.paths, q.lanes ≠ 0) ∧
      ∃ p ∈ x.paths, p.st = .eligible) ∧
    (∃ r tm, (requesting 2 true).m.oldestRequest 256 = some r ∧ (requesting 2 true).m.team? 256 = some tm ∧ tm.runs = true ∧
      (requesting 2 true).m.dying 256 = false ∧
      (requesting 2 true).m.granulesUsed 256 + r.granules ≤ (requesting 2 true).m.granulesCharge 256) ∧
    (∃ r, (requesting 750 false).m.oldestRequest 256 = some r ∧ (requesting 750 false).m.starved 256 r = true ∧
      (requesting 750 false).m.dying 256 = false ∧ (requesting 750 false).m.victim 256 r = none) ∧
    (∃ r, (requesting 750 true).m.oldestRequest 256 = some r ∧ (requesting 750 true).m.starved 256 r = true ∧
      (requesting 750 true).m.dying 256 = false ∧ (requesting 750 true).m.victim 256 r = some [1] ∧
      (requesting 750 true).m.ops = [] ∧ ((requesting 750 true).m.spillFrames 256 [1]).1 = true) ∧
    (∃ x tm f, joinWaiting.m.tasks.get? 1 = some x ∧ x.st = .parked ∧
      x.paths = [pathIn (.waiting (.join 0x100 0x100 true 12 8))] ∧ joinWaiting.m.team? x.team = some tm ∧ tm.res ≠ .ended ∧
      joinWaiting.m.frames.get? 1 = some f ∧ (1, x) ∈ joinWaiting.m.tasks ∧
      (∀ e ∈ joinWaiting.m.tasks, e = (1, x) ∨ e.2.paths = []) ∧
      joinWaiting.m.placeWaits true (.dev 0x100) = false ∧ joinWaiting.m.cellState 0x100 = 1) ∧
    (∃ x tm, overdue.m.tasks.get? 1 = some x ∧ overdue.m.team? x.team = some tm ∧ tm.runs = true ∧ overdue.m.dying x.team = false ∧
      overdue.m.allWait 1 x = true ∧ overdue.m.svctl.toNat % 2 ^ 12 ≠ 0 ∧ overdue.m.svctl.toNat % 2 ^ 12 * 16000000 < x.watch) ∧
    (∃ o, recovering.m.ops.get? 5 = some o ∧ recovering.m.rcap < o.waitNs ∧ recovering.m.awaitsRecovering o = true) ∧
    (∃ x, (stealing 257 noSteal .queued [1]).m.team? 256 = some x ∧ (stealing 257 noSteal .queued [1]).m.mayAsk 256 x = true ∧
      (stealing 257 noSteal .queued [1]).coreOut x.core = false ∧ (257, 1) ∈ (stealing 257 noSteal .queued [1]).m.victimsLeft x ∧
      ∀ e ∈ (stealing 257 noSteal .queued [1]).m.victimsLeft x, 1 ≤ e.2) ∧
    (∃ x y k, (stealing 0 { noSteal with victim := some 257 } .queued [1]).m.team? 256 = some x ∧ x.steal.victim = some 257 ∧
      x.steal.reply = none ∧ (stealing 0 { noSteal with victim := some 257 } .queued [1]).m.team? 257 = some y ∧ y.runs = true ∧
      (stealing 0 { noSteal with victim := some 257 } .queued [1]).m.dying 257 = false ∧ coreDie x.core = coreDie y.core ∧
      (stealing 0 { noSteal with victim := some 257 } .queued [1]).coreOut y.core = false ∧
      (stealing 0 { noSteal with victim := some 257 } .queued [1]).m.tasks.get? 1 = some k ∧ y.deque = [1] ∧ k.desc.loc = false) ∧
    (∃ x k, (stealing 0 ⟨some 257, some (some 1), [], 0, false⟩ .inTransit []).m.team? 256 = some x ∧ x.steal.victim = some 257 ∧
      x.steal.reply = some (some 1) ∧ (stealing 0 ⟨some 257, some (some 1), [], 0, false⟩ .inTransit []).m.tasks.get? 1 = some k) ∧
    (∃ x, (stealing 0 ⟨some 257, some none, [], 0, false⟩ .inTransit []).m.team? 256 = some x ∧ x.steal.victim = some 257 ∧
      x.steal.reply = some none) ∧
    ((stealing 0 ⟨none, none, [257], 0, false⟩ .queued [1]).m.team? 256).any (fun x => x.steal.victim == none &&
      x.steal.tried != [] && (stealing 0 ⟨none, none, [257], 0, false⟩ .queued [1]).m.victimsLeft x == []) = true :=
  ⟨⟨_, by decide +kernel, by decide +kernel, rfl, rfl⟩, ⟨_, by decide +kernel, by decide +kernel, rfl, by decide +kernel⟩,
    ⟨_, _, rfl, rfl, by decide +kernel⟩, ⟨_, rfl, by decide +kernel⟩, ⟨_, rfl, by decide +kernel⟩,
    ⟨_, _, _, rfl, by decide +kernel, rfl, rfl, by decide +kernel, rfl, by decide +kernel⟩, ⟨_, _, rfl, rfl, by decide +kernel⟩,
    ⟨_, rfl, by decide +kernel⟩, ⟨_, rfl, by decide +kernel⟩, ⟨_, _, _, rfl, rfl, rfl, rfl, rfl, by decide +kernel, rfl,
      by decide +kernel, rfl, rfl, rfl⟩, ⟨_, _, rfl, rfl, rfl, rfl⟩, ⟨_, rfl, rfl, rfl⟩, by decide +kernel⟩

/-! ### Engines, collectives and reductions that complete -/

/-- A state with one engine operation of the probe's team, number 5. -/
def engineAt (k : OpKind) (f : Mach → Mach) : State := { withOp k f with subj := ⟨5, 3, 0⟩ }

/-- A copy of 16 bytes from 0x1000 to 0x2000. -/
def aCopy : EngineK := ⟨[(.dev 0x1000, .dev 0x2000, 16)], [], false, .dv, none, 16, false, false⟩

/-- An explicit staging of one row. -/
def aStage : StageK := ⟨0x1000, [.dev 0x1000], 16, 0, 0, 0x200, .dv, none, none, 16, true, []⟩

/-- R343: a `tld` of one row of 16 bytes puts them at its packed place. -/
theorem test_tld_lands :
    let m := (withOp (.tile ⟨true, 16, [.dev 0x1000], 256, 0x200, none, [], none⟩) fun m =>
      { m.updLaunch 1 fun l => { l with teamKib := 64 } with mem := Memory.writeN m.mem 0x1008 [7] }).m
    ((m.completeTile 5 (anOp (.tile ⟨true, 16, [.dev 0x1000], 256, 0x200, none, [], none⟩))
        ⟨true, 16, [.dev 0x1000], 256, 0x200, none, [], none⟩).lsRead 256 0x207 2) = [0, 7] := by decide +kernel

/-- R344: a unit that a `tst` has read early keeps the value it had then. -/
theorem test_tst_early_unit :
    let k : TileK := ⟨false, 16, [.dev 0x1000], 256, 0x200, none, [], none⟩
    let m := ((withOp (.tile k) fun m =>
      (m.updLaunch 1 fun l => { l with teamKib := 64 }).lsWrite 256 0x200 [7]).m.moveUnit 5 0).lsWrite 256 0x200 [8, 0, 0, 0, 0, 0, 0, 0, 9]
    let n := match m.ops.get? 5 with
      | some o => match o.kind with
        | .tile k => m.completeTile 5 o k
        | _ => m
      | none => m
    (Memory.readN n.mem 0x1000 1, Memory.readN n.mem 0x1008 1) = ([7], [9]) := by decide +kernel

/-- One member's part of a gather of groups {0, 1}. -/
def aPart (member : Nat) : CollK := ⟨3, member, .gather, 16, [(.ls 256 0x1000, 16)], [(.ls 256 0x2000, 32)], 0x3000, false, .di, 0⟩

/-- A state in which all members of group 3 have arrived; its TIMEOUT, and whether its data has been written. -/
def gathered (timeout : Nat) (sent : Bool) : State := { withOp (.coll (aPart 0)) fun m =>
    { m.updLaunch 1 fun l =>
        { l with groups := [(3, ⟨3, timeout, .di⟩)], colls := [(3, ⟨.gather, 16, [(0, 5), (1, 6)], 0, sent⟩)] } with
      ops := m.ops ++ [(6, anOp (.coll (aPart 1)))], clock := 2 ^ 20 } with subj := ⟨1, 3, 0⟩ }

/-- A reduction whose one element is full: its slot holds 7. -/
def reduced : State := { withOp (.accAcq 1) fun m =>
    { m.updLaunch 1 fun l => { l with redctx := [(3, openCtx)] } with
      mem := Memory.writeN m.mem 0x2000 [7, 0, 0, 0, 1] } with subj := ⟨1, 3, 0⟩ }

/-- A copy under way for a launch with no spill region, whose state is saved nowhere. -/
def copyAt : State := engineAt (.engine aCopy) fun m => m.updLaunch 1 fun l => { l with spillSize := 0 }

theorem witness_EnginesCollectivesReductions :
    (copyAt.m.ops.get? 5 = some (anOp (.engine aCopy)) ∧
      copyAt.m.engineMay 5 (anOp (.engine aCopy)) aCopy.rows = true ∧
      (aCopy.doneUnits = [] ∧ aCopy.lost = false ∧ aCopy.sent = false ∧ aCopy.overlap = false ∧ aCopy.cell = none ∧ 16 % 8 = 0) ∧
      copyAt.m.atGate [(.dev 0x2000, 16)] = false ∧
      (Place.dev 0x1000).peer? = none ∧ (Place.dev 0x2000).peer? = none ∧ copyAt.m.waitedCells = []) ∧
    (∃ x, (engineAt (.accStore [(0x100, [1, 2])]) id).m.team? 256 = some x ∧
      (engineAt (.accStore [(0x100, [1, 2])]) id).m.engineHeld 0 5 = false ∧
      (engineAt (.accStore [(0x100, [1, 2])]) id).m.served 5 true [.ls 256 0] = true) ∧
    (∃ x, (engineAt (.stage aStage) id).m.team? 256 = some x ∧ (anOp (.stage aStage)).reply = none ∧
      (engineAt (.stage aStage) id).m.engineHeld 0 5 = false ∧ (engineAt (.stage aStage) id).m.served 5 false aStage.rows = true ∧
      (engineAt (.stage aStage) id).m.served 5 true [.ls 256 aStage.dst] = true ∧
      (engineAt (.stage aStage) id).m.storeBefore 0 5 [(.dev 0x1000, aStage.rowlen)] = false ∧
      ∀ e ∈ (engineAt (.stage aStage) id).m.ops, 5 ≤ e.1) ∧
    (∃ l k grp, (gathered 0 false).m.launches.get? 1 = some l ∧ l.colls.get? 3 = some k ∧ l.groups.get? 3 = some grp ∧
      (gathered 0 false).m.collExpired grp k = false ∧ k.sent = false ∧ (∀ c ∈ grp.list, ∃ a ∈ k.arrived, a.1 = c) ∧
      (∀ o ∈ (gathered 0 false).m.arrivedOps k, (gathered 0 false).m.collMay o = true ∧ ∀ d ∈ o.2.2.dst, d.1.peer? = none)) ∧
    (∃ l k grp, (gathered 0 true).m.launches.get? 1 = some l ∧ l.colls.get? 3 = some k ∧ l.groups.get? 3 = some grp ∧
      (gathered 0 true).m.collExpired grp k = false ∧ k.sent = true ∧ (gathered 0 true).m.arrivedOps k ≠ [] ∧
      ∀ o ∈ (gathered 0 true).m.arrivedOps k, (gathered 0 true).m.peersAck o.2.2.dst = true) ∧
    (∃ l k grp, (gathered 16 false).m.launches.get? 1 = some l ∧ l.colls.get? 3 = some k ∧ l.groups.get? 3 = some grp ∧
      grp.timeout ≠ 0 ∧ k.sent = false ∧ k.start + grp.timeout * 2 ^ 16 = (gathered 16 false).m.clock) ∧
    (∀ c ∈ ([[(1, false), (2, false)], [(3, false), (4, false)]] : List Cargo), (1 + 1) * 1 ≤ c.length) ∧
    ∃ l r, reduced.m.launches.get? 1 = some l ∧ l.redctx.get? 3 = some r ∧ r.st = .opened ∧ 0 < r.elems ∧ 0 ∉ r.applied ∧
      (∀ b ∈ r.bind, ∀ k < r.slots, reduced.m.slotFilled r b.1 0 k = true) ∧ reduced.m.placeWaits true (.dev r.dst) = false ∧
      (Place.dev r.dst).peer? = none ∧ reduced.m.redRoot r 0 = some 7 :=
  ⟨by decide +kernel, ⟨_, rfl, by decide +kernel⟩, ⟨_, rfl, by decide +kernel⟩, ⟨_, _, _, rfl, rfl, rfl, by decide +kernel⟩,
    ⟨_, _, _, rfl, rfl, rfl, by decide +kernel⟩, ⟨_, _, _, rfl, rfl, rfl, by decide +kernel⟩, by decide +kernel,
    ⟨_, _, rfl, rfl, by decide +kernel⟩⟩

/-! ### Operations as they complete, checks that fail -/

/-- Operation 5 of a state, of the probe's task and of kind k, may end, decided. -/
def ends (s : State) (k : OpKind) : Bool :=
  decide (s.m.ops.get? 5 = some (anOp k)) && comes s.m 5 && !s.m.atGate (s.m.targetsOf (anOp k)) &&
    (s.m.backOver 5 0 (k.homes ++ (s.m.targetsOf (anOp k)).map (·.1)) (s.m.targetsOf (anOp k))).1

theorem may_end {s : State} {k : OpKind} (h : ends s k = true) : s.m.MayEnd 5 (anOp k) := by
  simp only [ends, Bool.and_eq_true, decide_eq_true_eq, Bool.not_eq_true'] at h
  exact ⟨h.1.1.1, ⟨rfl, rfl⟩, arrived h.1.1.2, h.1.2, h.2⟩

/-- One lane's signed 16-bit load at 0x100, whose line the L1D holds or does not. -/
def loading : LoadK := ⟨2, true, [⟨3, 0x100, .dev 0x100, true⟩], 8, 1, false, none, false, .none, none⟩
@[inherit_doc loading] def loads (held : Bool) : State := withOp (.load loading) fun m =>
  if held then m.updCore 0 fun k => { k with l1d := [(2, List.replicate 128 7)] } else m

theorem witness_LoadLands : ∀ held, (loads held).m.ops.get? 5 = some (anOp (.load loading)) ∧ (loads held).m.Arrived 5 ∧
    (loads held).m.served 5 false (loading.lanes.map (·.place)) = true ∧
    (loads held).m.overtakes 0 (some 5) (OpKind.load loading).ranges = false ∧
    ((loads held).m.backOver 5 0 (loading.lanes.map (·.place)) []).1 = true ∧
    ∀ a ∈ loading.lanes, plainPlace (loads held).m 0 a.place 2 ∧ (loads held).m.poisoned a.place 2 = false := by
  intro held
  refine ⟨by cases held <;> decide +kernel, arrived (by cases held <;> decide +kernel), by cases held <;> decide +kernel,
    by cases held <;> decide +kernel, by cases held <;> decide +kernel, fun a h => ?_⟩
  obtain rfl := List.mem_singleton.mp h
  exact ⟨.inl (by cases held <;> decide +kernel), by cases held <;> decide +kernel⟩

/-- R332: a narrow signed load at its sign bit, and a pair. -/
theorem test_load_extends : loadResult loading [0, 0x80] = [0xFFFF8000] ∧ loadResult { loading with sext := false } [0, 0x80] = [0x8000] ∧
    loadResult { loading with size := 8, words := 2 } [1, 0, 0, 0, 2, 0, 0, 0] = [1, 2] := by decide +kernel

/-- A tile of two rows of 16 bytes, 32 apart. -/
def aTile (load : Bool) : TileK := ⟨load, 16, [.dev 0x1000, .dev 0x1020], 256, 0x200, none, [], none⟩
@[inherit_doc aTile] def tiling (load : Bool) : State :=
  withOp (.tile (aTile load)) fun m => m.updLaunch 1 fun l => { l with teamKib := 64 }

theorem witness_TilesLand : ∀ load, (tiling load).m.MayEnd 5 (anOp (.tile (aTile load))) ∧
    (tiling load).m.tileMay 5 (anOp (.tile (aTile load))) (aTile load) = true ∧ ((tiling load).m.team? 256).isSome = true ∧
    (tiling load).m.TilePlain (anOp (.tile (aTile load))) (aTile load) ∧
    (aTile load).rows = (List.range 2).map (fun i => (Place.dev 0x1000).plus (i * 32)) ∧ (tiling load).m.waitedCells = [] :=
  fun load => ⟨may_end (by cases load <;> decide +kernel), by cases load <;> decide +kernel, by cases load <;> decide +kernel,
    ⟨by cases load <;> decide +kernel, by cases load <;> decide +kernel⟩, rfl, by cases load <;> decide +kernel⟩

/-- A write-back and a discard of two lines. -/
def purging (discard : Bool) : OpKind := .purge discard [(0x1000, 256, true)]

theorem witness_RangesEnd : ∀ discard, (withOp (purging discard)).m.MayEnd 5 (anOp (purging discard)) :=
  fun discard => may_end (by cases discard <;> decide +kernel)

/-- A `resolve` of the cell at 0x100, EMPTY or not. -/
def resolving (st : Nat) : State :=
  withOp (.resolve (some 0x100) 7 8) fun m => { m with mem := Memory.writeN m.mem 0x108 (natBytes 1 st) }

theorem witness_ResolveEnds : ∀ st ∈ [0, 1], (resolving st).m.ops.get? 5 = some (anOp (.resolve (some 0x100) 7 8)) ∧
    (resolving st).m.served 5 true [.dev 0x100] = true ∧ comes (resolving st).m 5 = true ∧
    (resolving st).m.atGate [(.dev 0x100, 16)] = false ∧
    ((resolving st).m.backOver 5 0 [.dev 0x100, .dev 0x100] [(.dev 0x100, 16)]).1 = true ∧
    (resolving st).m.poisoned (.dev 0x100) 16 = false ∧ (resolving st).m.cellState 0x100 = st := by decide +kernel

/-- `fin.open` of scope 4 or 0 under the root scope. -/
def opensScope (sc : Nat) : State := withOp (.finOpen sc 0 8)

theorem witness_FinOpenEnds : ∀ sc ∈ [4, 0], (opensScope sc).m.ops.get? 5 = some (anOp (.finOpen sc 0 8)) ∧
    comes (opensScope sc).m 5 = true ∧ ((opensScope sc).m.team? 256).map (·.launch) = some 1 ∧
    (opensScope sc).m.launches.get? 1 = some probeLaunch := by decide +kernel

/-- A `spawn.r` to module 3 of a task with its future at an address, or none. -/
def spawnsTo (future : DWord) : OpKind := .spawnR { (probeTask 0).desc with future := future } 3 8
@[inherit_doc spawnsTo] def answered (future : DWord) (code : Byte) : State := (probe (.nop N) []).updM fun m =>
  { m with peers := [(3, .up)], ops := [(5, { anOp (spawnsTo future) with reply := some [code] })], serial := 6 }

/-- A cell at an address that translates lies at its home, and nothing changes. -/
theorem cell_found {m : Mach} {asid va : Nat} {l : Loc} (h : m.translate asid va { write := true } = .ok l) (ok : l.cellOk = true) :
    m.cellFor asid va = (some l.pa, m) := by
  simp [Mach.cellFor, Mach.translateServiced, h, ok]

/-- What the clauses on the answer to a `spawn.r` ask of a state. -/
def Answers (future : DWord) (code : Byte) : Prop :=
  let m := (answered future code).m
  m.ops.get? 5 = some { anOp (spawnsTo future) with reply := some [code] } ∧ m.Arrived 5 ∧ m.conn 3 = .up ∧
    m.placeWaits true (.dev 0x100) = false ∧ m.cellFor 1 0x100 = (some 0x100, m)

theorem answers {future : DWord} {code : Byte} (h : (
    let m := (answered future code).m
    decide (m.ops.get? 5 = some { anOp (spawnsTo future) with reply := some [code] }) && comes m 5 && decide (m.conn 3 = .up) &&
      !m.placeWaits true (.dev 0x100) && decide (m.translate 1 0x100 { write := true } = .ok ⟨0x100, 0, 0, 0, 2 ^ 30, false⟩)) = true) :
    Answers future code := by
  simp only [Bool.and_eq_true, decide_eq_true_eq, Bool.not_eq_true'] at h
  exact ⟨h.1.1.1.1, arrived h.1.1.1.2, h.1.1.2, h.1.2, cell_found h.2 rfl⟩

theorem witness_SpawnRemoteEnds : Answers 0 0 ∧ Answers 0x100 1 ∧ Answers 0x100 0 ∧ Answers 0x100 2 :=
  ⟨answers (by decide +kernel), answers (by decide +kernel), answers (by decide +kernel), answers (by decide +kernel)⟩

/-- A state with one operation of R381's table under way, its team in a residency state, and core 6 under test (lease 5). -/
def systemAt (k : OpKind) (r : Residency) (f : Team → Team := id) : State :=
  (withOp k fun m => m.updTeam 256 fun t => f { t with res := r }).updHub fun h =>
    { h with leases := [(5, aLease ⟨0, 1, 2⟩ .testing)] }

/-- Its operation's message is on its way to no gated router. -/
def systemRuns (k : OpKind) (r : Residency) (p : State → Bool) : Bool :=
  let s := systemAt k r
  decide (s.m.ops.get? 5 = some (anOp k)) && comes s.m 5 && p s

/-- What `ctx.load` asks of the state; whether the team fits its core. -/
def reloads (s : State) (fits : Bool) : Bool :=
  match s.m.team? 256 with
  | some t => t.core == 0 && !t.unbound && !s.m.dying 256 && s.sys.hub.takes t.core &&
    (s.m.launches.get? t.launch).any fun l => s.fitsNow t.core t.chosen l.charge == fits
  | none => false

/-- A team that fills core 0. -/
def filled : State := (systemAt (.ctxLoad 256 0x40000 8) .waitingSaved).updM fun m =>
  { m with teams := m.teams.put 257 { probeTeam with ix := 1 } }

theorem witness_SystemCompletes :
    (∀ k ∈ ([.bezelRd 0 0x3FF 0 8, .bezelWr 0 0x3FF 0 7, .tlbInv 0x1000 1 0, .tlbInv 0 1 1, .tlbInv 0 0 2, .leaseTst ⟨0, 1, 2⟩ 0 8,
      .leaseTst ⟨0, 1, 3⟩ 0 8, .leaseRel 5 false 8, .leaseRel 5 true 8, .leaseRel 6 true 8, .ctxSave none 0 8] : List OpKind),
      systemRuns k .resident (fun _ => true) = true) ∧
    systemRuns (.frecRd 0x1000 (List.replicate 64 7)) .resident (fun s => !s.m.atGate [(.dev 0x1000, 64)] &&
      (s.m.backOver 5 0 [.dev 0x1000, .dev 0x1000] [(.dev 0x1000, 64)]).1 && s.m.waitedCells == []) = true ∧
    systemRuns (.ctxSave (some 256) 0x40000 8) .saving (fun s => !s.m.saveReady 256) = true ∧
    (∀ r ∈ ([.waitingSaved, .restoring, .resident, .draining, .waitingNew, .ended] : List Residency),
      systemRuns (.ctxSave (some 256) 0x40000 8) r (fun _ => true) = true) ∧
    systemRuns (.ctxLoad 256 0x40000 8) .resident (fun _ => true) = true ∧
    systemRuns (.ctxLoad 256 0x40000 8) .waitingSaved (fun s => reloads s true) = true ∧
    (comes filled.m 5 && reloads filled false) = true := by
  decide +kernel

/-- A state whose `ctx.save` names another team, which is ready to be saved. -/
def savingOther : State := (systemAt (.ctxSave (some 257) 0x40000 8) .resident).updM fun m =>
  { m with teams := m.teams.put 257 { probeTeam with ix := 1, res := .saving } }

theorem witness_CtxSaveReady : savingOther.m.ops.get? 5 = some (anOp (.ctxSave (some 257) 0x40000 8)) ∧ comes savingOther.m 5 = true ∧
    (savingOther.m.team? 257).map (·.res) = some .saving ∧ savingOther.m.saveReady 257 = true ∧
    savingOther.m.launches.get? 1 = some probeLaunch ∧ regionOf 0x40000 = .hbm ∧ savingOther.m.waitedCells = [] := by decide +kernel

/-- The reduction state of the completion clauses: operation 5, with context 3 of its launch as given or not open. -/
def reducing (k : OpKind) (r : Option RedCtx) : State :=
  withOp k fun m => m.updLaunch 1 fun l => { l with redctx := (r.map fun x => (3, x)).toList }

/-- `rdet` of one lane on element e and slot k of context 3. -/
def addsOne (e k : Nat) : OpKind := .rdet 3 e k .i32 (some 7 :: List.replicate 31 none)

/-- The context and slot that the clauses on `rdet` name: what fits, and what fails. -/
def reduces (e k : Nat) (r : RedCtx) (fits : Bool) : Bool :=
  let s := reducing (addsOne e k) (some r)
  ends s (addsOne e k) && (decide (e < r.elems) && decide (k < r.slots) && !s.m.slotFilled r 0 e k) == fits &&
    !s.m.placeWaits true (.dev (r.slot 0 e k))

theorem witness_RdetEnds :
    (reduces 0 0 openCtx true && reduces 1 0 openCtx false && reduces 0 1 openCtx false &&
      reduces 0 0 { openCtx with st := .failed } true && reduces 0 0 { openCtx with st := .done } true &&
      ends (reducing (addsOne 0 0) none) (addsOne 0 0)) = true ∧ (Place.dev (openCtx.slot 0 0 0)).peer? = none := by decide +kernel

theorem witness_RcloseEnds : ∀ r ∈ [none, some openCtx, some { openCtx with st := .done }, some { openCtx with st := .failed }],
    ends (reducing (.rclose 3 8) r) (.rclose 3 8) = true := by decide +kernel

/-- The probe of i with v4:v5 an address and the second GiB mapped by the entry. -/
def mapped (i : Instr) (addr : Nat) (entry : Nat) (more : Mach → Mach := id) : State :=
  (probe i [(4, .ofNat 32 addr), (5, .ofNat 32 (addr / 2 ^ 32)), (6, 0x200)]).updM fun m =>
    more { m with mem := Memory.writeN m.mem 0x12008 (natBytes 8 entry) }

/-- A memory instruction of lanes issues from s, and its checks answer that fault at its lanes' addresses. -/
def refuses (s : State) (i : Instr) (x : Cause → Bool) : Bool :=
  match s.m.issuing, laneForm i with
  | some c, some (k, sc, a, off) => (checks c (Instr.shape i) (c.active i)).isNone && c.active i != 0 &&
    match s.m.checkLanes c k (some sc) (laneAddrs c (c.active i) k.spc a off) with
    | .error (.fail f) => x f.cause
    | _ => false
  | _, _ => false

/-- A load, a store and an atomic of 4 bytes. -/
def ld4 : Instr := .ld N ⟨.b32, .wp, .none, .none⟩ 8 4 0
@[inherit_doc ld4] def st4 : Instr := .st N ⟨.b32, .wp, .none, .none⟩ 4 6 0
@[inherit_doc ld4] def add4 : Instr := .aadd N ⟨.i32, .dv, .none, .va, false⟩ 8 4 6 0

/-- Bytes 0x40000100 to 0x4000010F locked by an engine that writes them. -/
def locking (m : Mach) : Mach := m.updCore 0 fun k => { k with locks := [⟨0x40000100, 16, 0, 1, true, 0, 1, 0, 0, 1⟩] }

/-- A page of the second GiB at a physical address, with W, or without V. -/
def pageAt (pa : Nat) : Nat := pa + 0x1B

theorem witness_AccessesFault_raise :
    ((memoryWords ++ atomicWords ++ syncWords).countP fun e => (laneForm e.2).isSome) = 19 ∧
    (∀ e ∈ memoryWords ++ atomicWords ++ syncWords, (laneForm e.2).isSome = true →
      refuses (mapped e.2 0xFFFFFFF1 0) e.2 (fun _ => true) = true) ∧
    refuses (mapped ld4 0x101 0) ld4 (· == .align) = true ∧ refuses (mapped ld4 (2 ^ 57) 0) ld4 (· == .pageFault) = true ∧
    refuses (mapped ld4 0x40000000 0) ld4 (· == .pageFault) = true ∧
    refuses (mapped st4 0x40000000 0x40000003) st4 (· == .protection) = true ∧
    refuses (mapped ld4 0x40000000 (pageAt 0xD000000000)) ld4 (· == .protection) = true ∧
    refuses (mapped ld4 0x40000000 (pageAt 0x0FF0000000000)) ld4 (· == .priv) = true ∧
    refuses (mapped add4 0x40000000 (pageAt 0x8000000000000)) add4 (· == .atomicDeviceSpace) = true ∧
    refuses (mapped ld4 0x40000100 (pageAt 0x40000000) locking) ld4 (· == .rangeLocked) = true := by decide +kernel

/-- Every lane of a misaligned load fails at the first step, and no page of the probe stands in a TLB. -/
theorem witness_AccessesFault_lanes :
    (match (mapped ld4 0x101 0).m.issuing with
      | some c => let as := laneAddrs c (c.active ld4) .va 4 0
        as.contains (0, 0x101) && as.all fun b => (mapped ld4 0x101 0).m.checkLane c { spc := .va, size := 4 } b.1 b.2 == .bad 1 .align
      | none => false) = true ∧
    ∀ t ∈ ((mapped ld4 0x101 0).m.core 0).tlb ++ (mapped ld4 0x101 0).m.dieTlb.getD (coreDie 0) [], t.serves 1 0x40000000 = false := by
  decide +kernel

theorem witness_AccessesFault_pages :
    (mapped ld4 0 0).m.walk 1 0x40000000 = .none ∧
    ∀ e ∈ [0x40000003, 0x4000011A, pageAt 0xD000000000, pageAt 0x0FF0000000000],
      (mapped ld4 0 e).m.walk 1 0x40000000 = .leaf e 0x12008 (2 ^ 30) := by
  decide +kernel

/-- A tile access and a range that fail their checks. -/
theorem witness_AccessesFault_tiles : ∀ load discard : Bool,
    let i : Instr := if load then .tld N ⟨.va, .dv, .none, .imm 3 0 0x100⟩ 4 6 else .tst N ⟨.va, .dv, .none, .imm 3 0 0x100⟩ 4 6
    let j : Instr := if discard then .dsc N 4 6 else .cwb N 4 6
    (meets (mapped i 0x40000000 0) i all fun c => c.active i != 0 &&
      match (mapped i 0x40000000 0).m.tileChk c (c.active i) ⟨.va, .dv, .none, .imm 3 0 0x100⟩ load 4 6 with
      | .error (.fail f) => f.cause == .pageFault
      | _ => false) = true ∧
    (meets (mapped j 0x40000000 0) j all fun c => c.active j != 0 &&
      match (mapped j 0x40000000 0).m.rangeChk c (c.active j) (c.f.pair 4 (lowLane (c.active j))).toNat
        (c.f.reg 6 (lowLane (c.active j))).toNat discard with
      | .error (.fail f) => f.cause == .pageFault
      | _ => false) = true := by
  intro load discard
  cases load <;> cases discard <;> decide +kernel

/-! ### Clauses on commands, domains, leases, matrix sums -/

/-- A path at call depth 1 with no handler, and one whose caller's result v1 is still awaited in lane 3. -/
def awaiting : State := (called (.ret N) none).updM fun m => m.updFrame 0 fun f => { f with pend := [(32 + 3, 0)] }

@[inherit_doc awaiting] def retFaults (s : State) (deep : Bool) : Bool :=
  match s.m.issuing with
  | some c => (checks c (Instr.shape (.ret N)) (c.active (.ret N))).isNone && c.active (.ret N) != 0 && c.f.handler.isNone &&
    (decide (1 < c.f.depth) == deep) && (!deep || ((c.f.links.get? 3).any (fun l => decide (1 < l.nres)) &&
      (c.active (.ret N)).getLsbD 3 && (c.f.mark? 1 3).isSome))
  | none => false

theorem witness_ReturnFaults : retFaults (probe (.ret N) []) false = true ∧ retFaults awaiting true = true := by decide +kernel

theorem witness_JoinsFault : Can (joining (.join N 8 4) 2) (.join N 8 4) (joinPasses (.join N 8 4) 2) := can (by decide +kernel)

/-- `capq` with each selector, of a team whose launch stands. -/
theorem witness_CapacityQueries : ∀ sel : Fin 8, Can (probe (.capq N (.ofFin (sel.castLE (by decide))) 8) [])
    (.capq N (.ofFin (sel.castLE (by decide))) 8) fun c => someLane (.capq N (.ofFin (sel.castLE (by decide))) 8) c &&
      ((probe (.capq N (.ofFin (sel.castLE (by decide))) 8) []).m.team? c.tk).any fun t => t.launch == 1 := by
  intro sel
  exact can (by revert sel; decide +kernel)

/-- Leases of core 6 and of its cluster. -/
def twoLeases : State :=
  hubState.updHub fun h => { h with leases := [(5, aLease (coreUnit 6) .testing), (9, aLease (clusterUnit 6) .retiring)] }

theorem witness_CapacityAndLeaseReads :
    (hubState.m.team? 256 = some probeTeam ∧ hubState.m.launches.get? 1 = some probeLaunch ∧ ([0] : List Nat).Nodup ∧
      hubState.gangCores 256 = 1 ∧ ∀ x ∈ hubState.m.teams, x.2.core = 0 ∧ x.2.unbound = false) ∧
    hubState.sys.hub.leases = [] ∧ (∀ e ∈ twoLeases.sys.hub.leases, e.2.u = coreUnit 6 → e = (5, aLease (coreUnit 6) .testing)) ∧
    (∀ e ∈ twoLeases.sys.hub.leases, e.2.u = clusterUnit 7 → e = (9, aLease (clusterUnit 6) .retiring)) ∧
    (∀ e ∈ twoLeases.sys.hub.leases, e.2.u ≠ coreUnit 7) := by decide +kernel

/-- Matrix operations of each form whose format is not INT8, with an adapter of rank 2. -/
def formed (f : MForm) : MmaK := { readMma with form := f, f := { readMma.f with af := .e4m3 }, adapters := [(0xFFFF, 2, [])] }

/-- Terms of each kind R243 names. -/
theorem witness_MatrixSums : (∀ f, (formed f).form = f ∧ (formed f).f.af ≠ .i8 ∧ (formed f).adapters.get? 0xFFFF = some (2, [])) ∧
    (f32.num 0x7FC00000).isNan = true ∧ f32.num 0x7F800000 = .inf false ∧ f32.num 0xFF800000 = .inf true ∧
    f32.num 0x80000000 = .fin true 0 (-149) ∧ (f32.num 0x3F800000).isNan = false :=
  ⟨fun f => ⟨rfl, nofun, rfl⟩, by decide +kernel⟩

/-- A running launch with an inbox and a copy under way; the same with a stop asked for. -/
def cancelling (stop : Option Nat) : State := hubState.updM fun m =>
  { m.updLaunch 1 fun l => { l with hasInbox := true, stop := stop } with ops := [(5, anOp (.engine aCopy))] }

theorem witness_CancelStops : (∃ l, (cancelling none).m.launches.get? 1 = some l ∧ l.stop = none ∧ l.hasInbox = true ∧ l.colls = []) ∧
    ((cancelling none).m.tasksDone 1 = false ∧ ((cancelling none).m.team? 256).map (·.launch) = some 1 ∧
      (cancelling none).m.ops.get? 5 = some (anOp (.engine aCopy)) ∧
      ((cancelling none).cancelLaunch 1 6).2.m.warps.get? (warpKey 256 0) ≠ none) ∧
    ∃ l, (cancelling (some 2)).m.launches.get? 1 = some l ∧ l.stop.isSome = true :=
  ⟨⟨_, rfl, by decide +kernel⟩, by decide +kernel, _, rfl, rfl⟩

/-- Two entries of die 0 that change together, entry 0 in SWITCH, entry 1 in a state, its new mask empty or not. -/
def twoDomains (st : DomSt) (mask : DWord) : State :=
  { hubState.updM fun m => { m with domains := [(0, ⟨0, 24, 0xFFFF, false, .switch, 0, 24, 0xFF, some 1, 0, []⟩),
      (1, ⟨24, 47, 0xF0000, true, st, 24, 47, mask, some 0, 0, []⟩)] } with subj := ⟨0, 0, 0⟩ }

theorem witness_DomainsChangeTogether : ∀ e ∈ ([(.writeback, 0xFF00), (.switch, 0xFF00), (.switch, 0)] : List (DomSt × DWord)),
    ((twoDomains e.1 e.2).m.domain 0 0).st = .switch ∧ ((twoDomains e.1 e.2).m.domain 0 0).partner = some 1 ∧
    ((twoDomains e.1 e.2).m.domain 0 1).st = e.1 ∧ ((twoDomains e.1 e.2).m.domain 0 1).newMask = e.2 ∧
    (twoDomains e.1 e.2).m.late = [] ∧ (twoDomains e.1 e.2).m.peerIn = [] ∧ (twoDomains e.1 e.2).m.remoteCells = [] := by decide +kernel

/-- A domain entry that MGMT_READ shows. -/
theorem witness_MgmtRegisters : ((inDomain .active).m.domains.get? (8 * 0 + 0)).isSome = true := by decide +kernel

/-- The admin queues stop, ENA having been set again in between or not. -/
def stopping (again : Bool) : State := unloaded.updHub fun h => { h with ena := false, ready := true, again := again }

theorem witness_AdminQueuesAgain : ∀ again, (stopping again).sys.hub.phase = .running ∧ (stopping again).sys.hub.ena = false ∧
    (stopping again).sys.hub.ready = true ∧ (stopping again).sys.hub.again = again ∧ (stopping again).m.launches = [] ∧
    (stopping again).sys.hub.pending = [] := by decide +kernel

theorem witness_ScoresMove : hubState.sys.hub.scoreStill ⟨0, 1, 2⟩ = false ∧ hubState.sys.hub.scoreStill ⟨3, 0, 5⟩ = false ∧
    hubState.sys.hub.scoreStill ⟨5, 2, 3⟩ = false := by decide +kernel

/-- A slice to retire that left entry 0 of its die; one with no domain to merge back into. -/
def slice (l : Lease) : State := { inDomain .active with
    sys := { (inDomain .active).sys with hub := { (inDomain .active).sys.hub with leases := [(5, l)] } }, subj := ⟨5, 0, 0⟩ }
@[inherit_doc slice] def aSlice : Lease := { aLease ⟨2, 0, 40⟩ .retiring with entry := some 0 }

theorem witness_SlicesRetire :
    ((slice aSlice).sys.hub.splitting.get? 0 = none ∧ (slice aSlice).sys.hub.leases.get? 5 = some aSlice ∧ aSlice.moving = false ∧
      ((slice aSlice).findSpare aSlice.u).isSome = true ∧ ((slice aSlice).m.mergeEntry aSlice).isSome = true) ∧
    (leaseIn (aLease ⟨2, 0, 40⟩ .retiring)).m.mergeEntry (aLease ⟨2, 0, 40⟩ .retiring) = none ∧
    (slice { aSlice with moving := true }).sys.hub.leases.get? 5 = some { aSlice with moving := true } := by decide +kernel

/-- A channel to retire: evacuated onto its spare, or without one and past its first step, its pages moved or not, its stack's blocks
copied or not. -/
def aChannel (entry : Option Nat) (moving copying : Bool) : Lease :=
  { aLease ⟨3, 0, 5⟩ .retiring with entry := entry, moving := moving, copying := copying }
@[inherit_doc aChannel] def retiring (l : Lease) (f : Mach → Mach) : State := (leaseIn l).updM f

/-- No page is mapped; one of context 1 is, in the range that goes. -/
def unpaged (m : Mach) : Mach := { m with ctxs := [] }
@[inherit_doc unpaged] def inRange (m : Mach) : Mach := { m with
  ctxs := [(1, ⟨0, 0x10000⟩)], mem := Memory.writeN (Memory.writeN (Memory.writeN [] 0x10000 [1, 0x10, 1]) 0x11000 [1, 0x20, 1]) 0x12000
    (natBytes 5 (m.shrinkBase 0 / 2 ^ 30 * 2 ^ 30 + 0x1B)) }

theorem witness_ChannelsRetire :
    (∀ l ∈ [aChannel (some 3) false false, aChannel none false false, aChannel none true false, aChannel none true true],
      (retiring l id).sys.hub.leases.get? 5 = some l ∧ (retiring l id).sys.hub.stackMoves 5 l.u = false) ∧
    (retiring (aChannel none true false) id).m.copying (chanStack ⟨3, 0, 5⟩) = false ∧
    (retiring (aChannel none true false) id).m.migs = [] ∧
    (retiring (aChannel none true false) unpaged).m.framesIn ((retiring (aChannel none true false) unpaged).m.shrinkBase (chanStack ⟨3, 0, 5⟩))
      channelBytes = [] ∧
    (retiring (aChannel none true false) inRange).m.framesIn
      ((retiring (aChannel none true false) inRange).m.shrinkBase (chanStack ⟨3, 0, 5⟩)) channelBytes ≠ [] := by
  decide +kernel

/-! ### Clauses on futures, stealing, engines -/

/-- A `spawn.r` to module 3 with its future at 0x100 under way, of which the module does not know yet. -/
def overtaken : State := { withOp (.spawnR { (probeTask 0).desc with future := 0x100 } 3 8) with subj := ⟨1, 0, 0⟩ }

theorem witness_FutureOvertakes : overtaken.m.remoteCells = [] ∧
    ∀ v : Bool, overtaken.m.spawnOut ⟨overtaken.subj.x, 0x100, .answer 3 v 7⟩ 3 = true := by decide +kernel

theorem witness_SavesAlone : (team 256 0 .saving id quiet).m.savedElsewhere 256 = false := by decide +kernel

/-- Across dies: the victim on core 64, its task with 256 bytes copied; the thief allows none or all. -/
def farSteal (st : TaskSt) (loc : Bool) (allow : Word) : State :=
  tasked 256 0 { taskIn st [] [] with team := 257, staged := 256, desc := { (probeTask 0).desc with loc := loc } } fun m =>
    let m := m.updTeam 256 fun t => { t with deque := [], steal := { noSteal with victim := some 257 }, xsteal := allow }
    { m with teams := m.teams.put 257 { probeTeam with ix := 1, coreIx := 1, core := 64, deque := [1] } }

/-- The request has come, and the task at the victim's cold end has more bytes copied than the thief allows, or not. -/
def farAsks (s : State) (refused : Bool) : Bool :=
  match s.m.team? 256, s.m.team? 257, s.m.tasks.get? 1 with
  | some x, some y, some k => x.steal.victim == some 257 && x.steal.reply.isNone && y.runs && !s.m.dying 257 && !s.coreOut y.core &&
    coreDie x.core != coreDie y.core && y.kept.isEmpty && y.deque == [1] && !k.desc.loc &&
    decide (x.xsteal.toNat % 2 ^ 16 * 256 < (s.m.stagedBytes k).1) == refused
  | _, _, _ => false

theorem witness_FarSteals : ∀ st ∈ ([.queued, .ready] : List TaskSt), farAsks (farSteal st false 0) true = true ∧
    farAsks (farSteal st false 1) false = true := by decide +kernel

/-- A victim whose tasks are all LOCAL. -/
theorem witness_StealRefused : ((farSteal .queued true 1).m.team? 256).map (·.steal) = some { noSteal with victim := some 257 } ∧
    ((farSteal .queued true 1).m.team? 257).map (·.deque) = some [1] ∧
      ((farSteal .queued true 1).m.tasks.get? 1).any (·.desc.loc) = true := by
  decide +kernel

/-- A stolen task that comes back to a deque with room, and to one that is full. -/
def comesTo (deque : List Nat) : State :=
  (stealing 0 ⟨some 257, some (some 1), [], 0, false⟩ .inTransit []).updM fun m => m.updTeam 256 fun t => { t with deque := deque }

theorem witness_StealArrives : ∀ e ∈ ([([], false), ([2, 3, 4, 5, 6, 7, 8, 9], true)] : List (List Nat × Bool)), ∃ x,
    (comesTo e.1).m.team? 256 = some x ∧ x.steal.reply = some (some 1) ∧ ((comesTo e.1).m.tasks.get? 1).isSome = true ∧
      decide (((((comesTo e.1).m.launches.get? x.launch).map (·.dequeCap)).getD 0) ≤ x.slotsUsed) = e.2 := by
  intro e h
  fin_cases h <;> exact ⟨_, rfl, by decide +kernel⟩

/-- What the clauses on engine operations ask beside the operation: its requests and replies cross the meshes. -/
theorem witness_EngineEnds : ∀ k ∈ ([.engine aCopy, .accStore [(0x100, [1, 2])], .stage aStage] : List OpKind),
    (engineAt k id).m.ops.get? 5 = some (anOp k) ∧ ((engineAt k id).m.backOver 5 0 (k.spots.map (·.1)) k.targets).1 = true := by
  decide +kernel

theorem witness_PlainSource : copyAt.m.PlainSource 0 0x1000 0x2000 16 ∧
    (copyAt.m.backOver 5 0 ((OpKind.engine aCopy).spots.map (·.1)) (OpKind.engine aCopy).targets).1 = true :=
  ⟨fun _ _ => rfl, by decide +kernel⟩

theorem witness_CollectiveCrosses : ((gathered 0 false).m.collBack ((gathered 0 false).m.arrivedOps
    ⟨.gather, 16, [(0, 5), (1, 6)], 0, false⟩)).1 = true := by decide +kernel

/-- The same reduction with its destination at module 3; the operation that waits for module 3, answered. -/
def reducedFar (conn : Conn) : State := reduced.updM fun m =>
  { m.updLaunch 1 fun l => { l with redctx := [(3, { openCtx with dst := 0x1030000000000 })] } with peers := [(3, conn)] }
@[inherit_doc reducedFar] def combining : State := (withOp (.combine 1 3 0) fun m =>
  { m.updLaunch 1 fun l => { l with redctx := [(3, openCtx)] } with ops := [(5, { anOp (.combine 1 3 0) with reply := some [] })] })

theorem witness_ElementAtPeer : (∀ conn ∈ ([.up, .recovering] : List Conn),
    (reducedFar conn).m.conn 3 = conn ∧ (Place.dev 0x1030000000000).peer? = some 3 ∧
      (∀ k < 1, (reducedFar conn).m.slotFilled { openCtx with dst := 0x1030000000000 } 0 0 k = true) ∧
      (reducedFar conn).m.placeWaits true (.dev 0x1030000000000) = false ∧
      (reducedFar conn).m.elementAway 1 3 0 { openCtx with dst := 0x1030000000000 } = false ∧
      (reducedFar conn).m.redRoot { openCtx with dst := 0x1030000000000 } 0 = some 7) ∧
    reduced.m.elementAway 1 3 0 openCtx = false ∧
    (combining.m.ops.get? 5).any (fun o => o.reply.isSome && o.kind == .combine 1 3 0 && !combining.m.atGate (combining.m.targetsOf o) &&
      (combining.m.backOver 5 o.core (o.kind.homes ++ (combining.m.targetsOf o).map (·.1)) (combining.m.targetsOf o)).1) = true ∧
    comes combining.m 5 = true := by decide +kernel

theorem witness_EncodingOfAll : (Instr.nop N).enc ≠ none ∧ (Instr.nop N).wf = true ∧ Instr.mtimeRecord.enc = none := by decide +kernel

/-! ### The machine as a whole -/

theorem witness_EncodingAndDecodingAgree :
    (∃ w, (Instr.nop N).wf = true ∧ encode (.nop N) = some w) ∧ ∃ i, decode 0x1900000030205100 = .ok i :=
  ⟨⟨_, rfl, rfl⟩, ⟨.iadd N .i32 true 5 2 3, by decide +kernel⟩⟩

/-- The probe issues, what it fetches being an instruction or not. -/
def fetches (u : State) (good : Bool) : Bool :=
  u.running && match u.m.issuing with
    | some c => isOk (u.m.fetch c).2 == good
    | none => false

/-- The probe where its core has used its issue cycle of this clock. -/
def spent : State := (probe (.nop N) []).updM fun m => m.updCore 0 fun k => { k with issuedAt := some m.clock }

/-- The probe of i in shadow mode, with what its shadow has yet to issue. -/
def shadowing (i : Instr) (trail : List Trail) (diverged : Bool) : State :=
  (probe i addrRegs).updM fun m =>
    (m.updLaunch 1 fun l => { l with shadow := true }).updTask 0 fun k => { k with trail := trail, diverged := diverged }

/-- A store, and the state after it. -/
def shadowStore : Instr := .st N ⟨.b32, .wp, .none, .none⟩ 4 6 0
@[inherit_doc shadowStore] def storedBy (s : State) : State :=
  match exec shadowStore s with
  | .next t => t
  | _ => s

/-- What the shadow-mode clauses ask of a state. -/
def shadows (s : State) (p : Issue → Task → Bool) : Bool :=
  match s.m.issuing with
  | some c => s.m.shadowed c.tk && (s.m.tasks.get? c.t).any (p c)
  | none => false

/-- What the fetch of the probe reads: the two words of its instruction, of 8 bytes. -/
def codeReads (good : Bool) (s : State) : Bool :=
  match s.m.issuing with
  | some c => match s.m.codeWord c.core c.asid c.p.pc.toNat c.priv with
    | .ok w => match s.m.codeWords c.core c.asid c.p.pc.toNat c.priv (itemLen w / 4) with
      | .ok v => c.p.pc.toNat % 32 != 28 && w % 4 != 3 && decide (c.p.pc.toNat % 32 + itemLen w ≤ 32) && isOk (decode v) == good
      | .error _ => false
    | .error _ => false
  | none => false

/-- The word of no instruction where the probe fetches. -/
def noInstr : State := State.reset.withFetchWord 64 0x3C

/-- The turn a step of the probe takes with none to come, and the machine after its time. -/
def ownTurn (s : State) : Turn := ⟨1, 0, [], s.m.nextAct 256 0⟩
@[inherit_doc ownTurn] def afterOwn (s : State) : State := s.turnTime (ownTurn s)

/-- With an empty agenda and the probe's warp in focus, that is the turn taken. -/
theorem takes_own {s : State} (h : (s.agenda.isEmpty && s.running && s.m.focus == some (256, 0)) = true) :
    s.Takes (afterOwn s) (ownTurn s) := by
  simp only [Bool.and_eq_true, List.isEmpty_iff, beq_iff_eq] at h
  exact .inr ⟨h.1.1, h.1.2, (256, 0), h.2, rfl, rfl⟩

/-- The probe's warp issues in a turn that u stands in; whether its core has used the clock. -/
def issuesIn (u : State) (used : Bool) : Bool :=
  u.running && (u.m.team? 256).any (·.core == 0) && u.m.warpReady 256 0 && u.m.chosen [] 0 == some ⟨256, 0, false⟩ &&
    u.m.cycleUsed 0 == used && !u.m.shadowed 256

/-- u with that warp in focus. -/
def inFocus (u : State) : State := { u with m := { u.m with focus := some (256, 0) } }

/-- The probe's warp issues in the turn a step from s takes of itself, and p holds of the machine. -/
def ownIssues (s : State) (p : State → Bool) : Bool :=
  s.agenda.isEmpty && s.running && s.m.focus == some (256, 0) && (ownTurn s).act == .issue 256 0 s.m.refetch &&
    issuesIn (afterOwn s) false && p (inFocus (afterOwn s))

/-- The probe with a turn to come in which nothing passes. -/
def withTurn (s : State) (a : Act) : State := { s with agenda := [⟨0, 0, [], a⟩] }

theorem witness_StepRunsDecodedInstruction :
    (∀ s, ownIssues s (fun u => fetches u true) = true → s.Takes (afterOwn s) (ownTurn s)) ∧
    ownIssues (probe (.nop N) []) (fun u => fetches u true) = true ∧ ownIssues noInstr (fun u => fetches u false) = true ∧
    ownIssues unselected (fun u => u.m.issuing.isNone) = true ∧
    (issuesIn ((withTurn spent (.issue 256 0 true)).turnTime ⟨0, 0, [], .issue 256 0 true⟩) true &&
      (inFocus ((withTurn spent (.issue 256 0 true)).turnTime ⟨0, 0, [], .issue 256 0 true⟩)).m.issuing.isSome) = true ∧
    (withTurn (probe (.nop N) []) (.event .mtimeRecord 0 0 0)).agenda = [⟨0, 0, [], .event .mtimeRecord 0 0 0⟩] ∧
    (Instr.mtimeRecord.enc.isNone && !Instr.mtimeRecord.isCommand) = true := by
  refine ⟨fun s h => takes_own ?_, ?_⟩
  · simp only [ownIssues, Bool.and_eq_true] at h ⊢
    exact h.1.1.1
  · decide +kernel

theorem witness_StepReadsCode : codeReads true (probe (.nop N) []) = true ∧ codeReads false noInstr = true := by decide +kernel

theorem witness_CoresTakeTurns : 0 ∈ spent.m.busyCores ∧ spent.m.claims [] 0 ≠ [] ∧ (probe (.nop N) []).m.claims [] 0 ≠ [] ∧
    (probe (.nop N) []).m.cycleUsed 0 = false ∧ (probe (.nop N) []).m.shadowReady 256 0 = false := by decide +kernel

theorem witness_ShadowsFollow :
    (shadows (shadowing (.ld N ⟨.b32, .wp, .none, .none⟩ 8 4 0) (List.replicate 64 ⟨true, false⟩) false) fun _ k =>
      decide (64 ≤ k.queueUse)) = true ∧
    (shadows (shadowing shadowStore [⟨false, false⟩] false) fun _ k => k.trail != []) = true ∧
    (shadows (shadowing shadowStore [] true) fun c k => k.trail == [] && k.diverged &&
      (shadowing shadowStore [] true).m.hasIssued (storedBy (shadowing shadowStore [] true)).m c.tk c.w) = true := by decide +kernel

/-- A probe whose instruction fails a check: v8 lies beyond a frame of 8 registers. -/
def failing : State := (probe (.iadd N .i32 true 8 2 3) []).updM fun m => m.updFrame 0 fun f => { f with demand := 8 }

theorem witness_HubChangesByEventsOnly :
    ((Instr.nop N).enc ≠ none ∧ ∃ t, exec (.nop N) (probe (.nop N) []) = .next t) ∧
    (∃ c, failing.m.issuing = some c ∧ (checks c (Instr.shape (.iadd N .i32 true 8 2 3)) (c.active (.iadd N .i32 true 8 2 3))).isSome = true) ∧
    failing.m.Form ∧
    ((∃ t, step State.reset = .next t) ∧ 18 ≤ State.reset.sys.hub.freq ∧ State.reset.sys.hub.freq ≤ 36 ∧
      State.reset.sys.hub.freq % 3 = 0) :=
  ⟨⟨by decide, ⟨_, rfl⟩⟩, ⟨_, rfl, by decide +kernel⟩, ⟨by decide +kernel, fun _ h => by cases h⟩, ⟨_, rfl⟩, by decide⟩

theorem witness_StepKeepsMachineForm : State.reset.m.Form ∧ (∃ t, step State.reset = .next t) ∧
    (Memory.wf [⟨3, 1⟩] = true ∧ ∀ n, Memory.read [⟨3, 1⟩] n = Memory.read [⟨3, 1⟩] n) :=
  ⟨reset_form, ⟨_, rfl⟩, by decide, fun _ => rfl⟩

/-! ## Ill-formed terms, words refused -/

/-- A wrong type for `iadd`; HOLD on a field that is no source; FS on an instruction that is not long-latency; an odd pair. -/
theorem test_ill_formed :
    (Instr.iadd N .f32 false 5 2 3).permitted = false ∧ (Instr.iadd N .f32 false 5 2 3).wf = false ∧
    (Instr.shape (.nop ⟨none, .a, false⟩)).holdOk = false ∧ (Instr.nop ⟨none, .a, false⟩).wf = false ∧
    (Instr.shape (.mov L 4 5)).fsOk = false ∧ (Instr.mov L 4 5).wf = false ∧
    (Instr.shape (.jmp N 5)).aligned = false ∧ (Instr.jmp N 5).wf = false ∧
    (Instr.iadd N .i32 false 5 2 3).wf = true := by decide +kernel

/-- R273, R278, R283: reserved bit 63 of `ret`; OPC `0x003`; LEN of a header; GR without G. -/
theorem test_words_refused : decode 0x800000000000001C = .error .reserved ∧ decode 0x3C = .error .unassigned ∧
    decode 0x13 = .error .header ∧ decode 0x000000200000001C = .error .guard := by decide +kernel

/-- The example of R275: a header of two fetch blocks that waits for `cf0`, of a function of 12 granules, 3 arguments, 1 result. -/
theorem test_header : headerOf 0x000000135C000017 = some ⟨1, 3, 11, true, none, none, 1, 1⟩ := by decide +kernel

/-! ## Steps whose results spec/ works out -/

/-- Register r of lane n after i from s. -/
def after (s : State) (i : Instr) (r n : Nat) : Option Word :=
  match exec i s with
  | .next t => some (t.reg 0 r n)
  | _ => none

/-- The example of R318. -/
def mux (invd : Bool) : Instr := .lmix N .mux ⟨false, false, false, invd⟩ 9 4 5 6
@[inherit_doc mux] def muxRegs : List (Nat × Word) := [(4, 0x11223344), (5, 0xAABBCCDD), (6, 0x00FF00FF)]

theorem test_lmix_mux : after (probe (mux false) muxRegs) (mux false) 9 31 = some 0xAA22CC44 := by decide +kernel
theorem test_lmix_invd : after (probe (mux true) muxRegs) (mux true) 9 0 = some 0x55DD33BB := by decide +kernel

/-- The example of R325: lanes 0 to 7, v8 = LANE × 10, bit 0 of v7 set but in lane 3. -/
def butterfly (i : Instr) : State := (probe i []).updM fun m =>
  (m.updTask 0 fun k => { k with run := k.run.map fun p => { p with lanes := 0xFF } }).updFrame 0 fun f =>
    (f.setLanes 8 (List.range 32) fun n => .ofNat 32 (n * 10)).setLanes 7 (List.range 32) fun n => if n = 3 then 0 else 1

/-- Its guard. -/
def G7 : Ctl := ⟨some ⟨7, false⟩, .none, false⟩

/-- A register of lanes 0 to 8 after i. -/
def lanes9 (i : Instr) (r : Nat) : List (Option Word) := (List.range 9).map (after (butterfly i) i r)

theorem test_butterfly_shfl : lanes9 (.shflXor G7 9 8 (.imm 1)) 9 =
    [some 10, some 0, some 20, some 0, some 50, some 40, some 70, some 60, some 0] := by decide +kernel
theorem test_butterfly_wred : lanes9 (.wred G7 .add .i32 .rne 10 8) 10 =
    [some 250, some 250, some 250, some 0, some 250, some 250, some 250, some 250, some 0] := by decide +kernel
theorem test_butterfly_ballot : lanes9 (.ballot G7 11 7) 11 =
    [some 0xF7, some 0xF7, some 0xF7, some 0, some 0xF7, some 0xF7, some 0xF7, some 0xF7, some 0] := by decide +kernel

/-- What lane 0 of a long-latency instruction under way will write, and its FPSTAT bits. -/
def written (s : State) (i : Instr) : Option (Nat × Word × Word) :=
  match exec i s with
  | .next t => t.m.ops.findSome? fun o => match o.2.kind with
    | .writes ws fp => (ws.find? fun w => w.2.1 = 0).map fun w => (w.1, w.2.2, fp)
    | _ => none
  | _ => none

/-- R314: the corners of `idiv` and `irem`. SAT is FPSTAT bit 5. -/
def quotient (t : Ty) (sat : Bool) (a b : Word) : Option (Nat × Word × Word) :=
  written (probe (.idiv N t sat 8 4 5) [(4, a), (5, b)]) (.idiv N t sat 8 4 5)
@[inherit_doc quotient] def remainder (t : Ty) (a b : Word) : Option (Nat × Word × Word) :=
  written (probe (.irem N t 8 4 5) [(4, a), (5, b)]) (.irem N t 8 4 5)

theorem test_idiv_by_zero : quotient .n32 false 7 0 = some (8, 0xFFFFFFFF, 0) ∧ quotient .i32 true 7 0 = some (8, 0xFFFFFFFF, 0) := by
  decide +kernel
theorem test_idiv_least : quotient .i32 false 0x80000000 0xFFFFFFFF = some (8, 0x80000000, 0) ∧
    quotient .i32 true 0x80000000 0xFFFFFFFF = some (8, 0x7FFFFFFF, 0x20) := by decide +kernel
theorem test_irem : remainder .i32 7 0 = some (8, 7, 0) ∧ remainder .i32 0x80000000 0xFFFFFFFF = some (8, 0, 0) := by decide +kernel

/-- The example of R364: with the deque full `spawn` writes 1 and queues nothing; with room it writes 0. -/
theorem test_spawn_full : after (spawning (.spawn N 8 4) 0 [1, 2, 3, 4, 5, 6, 7, 8]) (.spawn N 8 4) 8 31 = some 1 ∧
    after (spawning (.spawn N 8 4) 0 [1, 2, 3]) (.spawn N 8 4) 8 31 = some 0 := by decide +kernel

/-- The example of R244: lanes 0, 1 and 2 hold 2^24, 1.0 and 1.0; the reduction rounds twice. -/
theorem test_three_values : (warpTree (redFn .add .f32) ([some 0x4B800000, some 0x3F800000, some 0x3F800000] ++
    List.replicate 29 none)).1 = some 0x4B800000 := by decide +kernel

/-- The example of R60: members in the order 1.0, 2^24, 1.0. -/
theorem test_three_members : pairTree (redFn .add .f32) [0x3F800000, 0x4B800000, 0x3F800000] = some 0x4B800000 := by decide +kernel

/-- The examples of R231 and R234: a dense DS8 block of scale 0.75. -/
theorem test_ds8_block : (blockRes ([0x84, 0x7E, 0x12, 0x27] ++ List.replicate 60 0) 0).bits = 0x3F100000 ∧
    (blockRes ([0x84, 0x7E, 0x12, 0x27] ++ List.replicate 60 0) 1).bits = 0x3E400000 := by decide +kernel

/-- The example of R231: −0.75, 0.75, 0.25 and 2 as DS8. -/
theorem test_ds8 : [0xBF400000, 0x3F400000, 0x3E800000, 0x40000000].map (fun v => (toDs8 .rne v).bits) = [0x9A, 0x12, 0x27, 0] := by
  decide +kernel

/-- The example of R43: the line's slice in a domain of slices 16 to 31. -/
theorem test_home : sliceOf 0xFFFF0000 0x1234567880 = 22 := by decide +kernel

/-- The example of R95: the save region of a team. -/
theorem test_save_size : ({ probeLaunch with
    warps := 32, granules := 512, lsBytes := 256 * 1024, accSlots := 16, dequeCap := 256 } : Launch).saveSize = 1064960 := by
  decide +kernel

/-- The example of R118: the declaration, encoded. -/
theorem test_declaration : operOf 0x4004227A0E62 = ⟨0, 1024, 4, 1, 1, 15, 8, 7, 6, 2⟩ ∧ operOk 0x4004227A0E62 = true := by
  decide +kernel

/-- R85: the digest of the three bytes "abc" (FIPS 180-4), and the signature of the empty message of RFC 8032 (7.1, test 1). -/
theorem test_sha512 : bigNat (sha512 [0x61, 0x62, 0x63]) =
    0xddaf35a193617abacc417349ae20413112e6fa4e89a97ea20a9eeee64b55d39a2192992a274fc1a836ba3c23a3feebbd454d4423643ce80e2a9ac94fa54ca49f := by
  decide +kernel
theorem test_ed25519 : bigNat (edSign (bigBytes 32 0x9d61b19deffd5a60ba844af492ec2cc44449c5697b326919703bac031cae7f60) []) =
    0xe5564300c360ac729086e2cc806e828a84877f1eb8e5d974d873e065224901555fb8821590a33bacc61e39701cf9b46bd25bf5f0595bbe24655141438e7a100b := by
  decide +kernel

/-! ## The statements whose witnesses stand above in parts -/

theorem issues_plain {i : Instr} (h : (meets (probe i []) i all fun c => c.active i != 0) = true) : Can (probe i []) i (someLane i) :=
  can h

theorem witness_LmixBitByBit : Can (probe (.lmix N .mux ⟨true, false, true, true⟩ 8 4 5 6) [])
    (.lmix N .mux ⟨true, false, true, true⟩ 8 4 5 6) (someLane (.lmix N .mux ⟨true, false, true, true⟩ 8 4 5 6)) :=
  issues_plain (by decide +kernel)

theorem witness_BallotAndBroadcast : Can (probe (.ballot N 8 4) []) (.ballot N 8 4) (someLane (.ballot N 8 4)) ∧
    Can (probe (.bcast N 8 4 none) []) (.bcast N 8 4 none) (someLane (.bcast N 8 4 none)) ∧
    Can (probe (.bcast N 8 4 (some 17)) []) (.bcast N 8 4 (some 17)) (someLane (.bcast N 8 4 (some 17))) :=
  ⟨issues_plain (by decide +kernel), issues_plain (by decide +kernel), issues_plain (by decide +kernel)⟩

theorem witness_CacheInstructions : Can (probe (.pf N .ro 4 0x80) []) (.pf N .ro 4 0x80) (someLane (.pf N .ro 4 0x80)) ∧
    Can (probe (.pft N .none 4 6 7 5) []) (.pft N .none 4 6 7 5) (someLane (.pft N .none 4 6 7 5)) ∧
    Can (probe (.dcinv N) []) (.dcinv N) (someLane (.dcinv N)) ∧ Can (probe (.icinv N) []) (.icinv N) (someLane (.icinv N)) :=
  ⟨issues_plain (by decide +kernel), issues_plain (by decide +kernel), issues_plain (by decide +kernel),
    issues_plain (by decide +kernel)⟩

theorem witness_ExitYieldNopSetpriWflag :
    (∃ c, IssuesTo (probe (.exit N) []) (.exit N) c (rest (.exit N) c) ∧ exitsAll c = true) ∧
    (∃ c, IssuesTo oneExits exitSome c (rest exitSome c) ∧ exitsOne c = true) ∧
    (∃ c, IssuesTo (withFn (.yield N) [] 0 0) (.yield N) c (rest (.yield N) c) ∧ yields c = true) ∧
    Can (probe (.nop N) []) (.nop N) (someLane (.nop N)) ∧ Can (probe (.setpri N 5) []) (.setpri N 5) (someLane (.setpri N 5)) ∧
    Can (probe (.wflag N 0x802) []) (.wflag N 0x802) (flagsClear (probe (.wflag N 0x802) []) false) ∧
    Can deferring (.wflag N 0x802) (flagsClear deferring true) :=
  ⟨witness_exit, witness_exit_of_some, witness_yield, issues_plain (by decide +kernel), issues_plain (by decide +kernel),
    witness_wflag, witness_wflag_fault⟩

end Sys2Proof.Tests
end

section
/-! Every step keeps the machine's form, and the core clock in its range (R20, R28, R185): the relation, and what composes it. -/

namespace Sys2Proof.Machine

/-! ## The machine's form through composed changes -/

theorem Mach.Form.of_ops {m n : Mach} (h : m.Form) (hm : n.mem = m.mem) (ho : ∀ o ∈ n.ops, o.1 < n.serial) : n.Form :=
  ⟨hm ▸ h.mem, ho⟩

theorem Mach.Form.of_wf {m n : Mach} (h : m.Form) (hm : Memory.wf n.mem = true) (ho : n.ops = m.ops) (hs : m.serial ≤ n.serial) :
    n.Form :=
  ⟨hm, ho ▸ fun o g => (h.ops o g).trans_le hs⟩

/-- Fewer operations under way, the rest of the form as it was. -/
theorem Mach.Form.of_sub {m n : Mach} (h : m.Form) (hm : n.mem = m.mem) (ho : n.ops ⊆ m.ops)
    (hs : m.serial ≤ n.serial) : n.Form :=
  h.of_ops hm fun o g => (h.ops o (ho g)).trans_le hs

/-- The same operations under way, each changed. -/
theorem Mach.Form.of_map {m n : Mach} {g : Nat × Op → Nat × Op} (h : m.Form) (hm : n.mem = m.mem) (ho : n.ops = m.ops.map g)
    (hg : ∀ x, (g x).1 = x.1) (hs : m.serial ≤ n.serial) : n.Form := by
  refine h.of_ops hm fun o ho' => ?_
  obtain ⟨x, hx, rfl⟩ := List.mem_map.1 (ho ▸ ho')
  exact hg x ▸ (h.ops x hx).trans_le hs

/-- One operation more under way, by the next number. -/
theorem Mach.Form.of_put {m n : Mach} {o : Op} (h : m.Form) (hm : n.mem = m.mem) (ho : n.ops = m.ops.put m.serial o)
    (hs : n.serial = m.serial + 1) : n.Form := by
  refine h.of_ops hm fun x g => ?_
  rcases Sparse.mem_put (ho ▸ g) with rfl | g
  · exact hs ▸ Nat.lt_succ_self _
  · exact hs ▸ Nat.lt_succ_of_lt (h.ops x g)

theorem Mach.Form.ite {c : Prop} [Decidable c] {a b : Mach} (ha : a.Form) (hb : b.Form) : (if c then a else b).Form := by
  split
  · exact ha
  · exact hb

/-- The machine of a pair whose value is known. -/
theorem Mach.Form.of_pair {α : Type} {r : α × Mach} {x : α} {m : Mach} (h : r.2.Form) (e : r = (x, m)) : m.Form := by
  subst e
  exact h

/-- The machine of a triple whose values are known. -/
theorem Mach.Form.of_triple {α β : Type} {r : α × β × Mach} {x : α} {y : β} {m : Mach} (h : r.2.2.Form) (e : r = (x, y, m)) :
    m.Form := by
  subst e
  exact h

theorem Mach.Form.foldl {α : Type} {f : Mach → α → Mach} {l : List α} {m : Mach} (h : m.Form)
    (hf : ∀ m x, m.Form → (f m x).Form) : (l.foldl f m).Form := by
  induction l generalizing m with
  | nil => exact h
  | cons x l ih => exact ih (hf m x h)

/-- A run of changes that each answer a value beside the machine. -/
theorem Mach.Form.foldl_pair {α β : Type} {f : β × Mach → α → β × Mach} {l : List α} {r : β × Mach} (h : r.2.Form)
    (hf : ∀ r x, r.2.Form → (f r x).2.Form) : (l.foldl f r).2.Form := by
  induction l generalizing r with
  | nil => exact h
  | cons x l ih => exact ih (hf r x h)

/-! ## What a state keeps -/

/-- The core clock is a multiple of 0.3 GHz from 1.8 to 3.6 GHz (R20). -/
def Hub.ClockOk (h : Hub) : Prop := 18 ≤ h.freq ∧ h.freq ≤ 36 ∧ h.freq % 3 = 0

/-- A state has the machine's form where F asks for it, and its clock in range where C does. -/
structure State.Kept (F C : Prop) (s : State) : Prop where
  form : F → s.m.Form
  clock : C → s.sys.hub.ClockOk

/-- So has the state an outcome goes on with. -/
def Out.Kept (F C : Prop) : Out → Prop
  | .next t => t.Kept F C
  | _ => True

variable {F C : Prop} {s t : State}

theorem Out.Kept.next (h : s.Kept F C) : Out.Kept F C (.next s) := h

theorem State.Kept.of_eq (h : s.Kept F C) (hm : t.m = s.m) (hf : t.sys.hub.freq = s.sys.hub.freq) : t.Kept F C :=
  ⟨fun f => hm ▸ h.form f, fun c => by unfold Hub.ClockOk; rw [hf]; exact h.clock c⟩

theorem State.Kept.withM (h : s.Kept F C) (hm : F → t.m.Form) (hf : t.sys.hub.freq = s.sys.hub.freq) : t.Kept F C :=
  ⟨hm, fun c => by unfold Hub.ClockOk; rw [hf]; exact h.clock c⟩

/-- What is done to the machine alone. -/
theorem State.Kept.updM {f : Mach → Mach} (h : s.Kept F C) (hm : s.m.Form → (f s.m).Form) : (s.updM f).Kept F C :=
  h.withM (fun hF => hm (h.form hF)) rfl

theorem State.Kept.updHub {f : Hub → Hub} (h : s.Kept F C) (hf : (f s.sys.hub).freq = s.sys.hub.freq) : (s.updHub f).Kept F C :=
  h.of_eq rfl hf

theorem State.Kept.on {f : Mach → Mach} (h : s.Kept F C) (hm : s.m.Form → (f s.m).Form) : (s.on f).Kept F C := h.updM hm

theorem State.Kept.ite {c : Prop} [Decidable c] {a b : State} (ha : a.Kept F C) (hb : b.Kept F C) :
    (if c then a else b).Kept F C := by
  split
  · exact ha
  · exact hb

theorem State.Kept.of_pair {α : Type} {r : α × State} {x : α} (h : r.2.Kept F C) (e : r = (x, s)) : s.Kept F C := by
  subst e
  exact h

theorem State.Kept.foldl {α : Type} {f : State → α → State} {l : List α} (h : s.Kept F C)
    (hf : ∀ s x, s.Kept F C → (f s x).Kept F C) : (l.foldl f s).Kept F C := by
  induction l generalizing s with
  | nil => exact h
  | cons x l ih => exact ih (hf s x h)

end Sys2Proof.Machine
end

section
/-! What the memory and table operations of the machine keep. -/

namespace Sys2Proof.Machine

variable {F C : Prop}

theorem Mach.Form.takeFree {m : Mach} (h : m.Form) : m.takeFree.2.Form := by
  unfold Mach.takeFree
  exact h.of_eq rfl rfl le_rfl

theorem Mach.Form.takeBytes {m : Mach} {n : Nat} (h : m.Form) : (m.takeBytes n).2.Form := by
  unfold Mach.takeBytes
  exact h.of_eq rfl rfl le_rfl

theorem Mach.Form.takeWord {m : Mach} (h : m.Form) : m.takeWord.2.Form := by
  unfold Mach.takeWord
  exact h.of_eq rfl rfl le_rfl

theorem Mach.Form.anyOf {m : Mach} {ks : List Nat} (h : m.Form) : (m.anyOf ks).2.Form := by
  unfold Mach.anyOf
  split
  · exact h
  · split
    · rename_i x1 x2 m1 e1
      have h1 : m1.Form := .of_pair h.takeFree e1
      exact h1

theorem Mach.Form.updCore {m : Mach} {c : Nat} {f : Core → Core} (h : m.Form) : (m.updCore c f).Form := by
  unfold Mach.updCore
  exact h.of_eq rfl rfl le_rfl

theorem Mach.Form.fillTlb {m : Mach} {core asid va : Nat} (h : m.Form) : (m.fillTlb core asid va).Form := by
  unfold Mach.fillTlb
  split
  · split
    · extract_lets x m1
      have h1 : m1.Form := h.updCore
      exact h1.of_eq rfl rfl le_rfl
    · exact h
  · exact h

theorem Mach.Form.cacheUnit {m : Mach} {core u : Nat} (h : m.Form) : (m.cacheUnit core u).Form := by
  unfold Mach.cacheUnit
  extract_lets m1 have_
  have h1 : m1.Form := by
    unfold m1
    split
    · exact h.of_eq rfl rfl (Nat.le_add_right _ _)
    · exact h
  split
  · rename_i x1 out1 m2 e1
    have h2 : m2.Form := by
      refine .of_pair ?_ e1
      split
      · exact h1
      · exact h1.anyOf
    exact h2.updCore

theorem Mach.Form.fetchInto {m : Mach} {core asid : Nat} {priv all : Bool} {vas : List Nat} (h : m.Form) :
    (m.fetchInto core asid priv all vas).Form := by
  induction vas generalizing m with
  | nil => exact h
  | cons va vas ih =>
    unfold Mach.fetchInto
    extract_lets m1
    refine ih ?_
    unfold m1
    split
    · exact .ite h.cacheUnit h
    · exact h

theorem Mach.Form.sendMsg {m : Mach} {n : Nat} {reply : Bool} {src dst : Nat} (h : m.Form) :
    (m.sendMsg n reply src dst).Form := by
  unfold Mach.sendMsg
  extract_lets msg
  exact .ite h (h.of_eq rfl rfl le_rfl)

theorem Mach.Form.send {m : Mach} {n core : Nat} {ps : List Place} (h : m.Form) : (m.send n core ps).Form := by
  unfold Mach.send
  exact h.foldl fun _ _ g1 => g1.sendMsg

theorem Mach.Form.reply {m : Mach} {n core : Nat} {ps : List Place} (h : m.Form) : (m.reply n core ps).Form := by
  unfold Mach.reply
  exact h.foldl fun _ _ g1 => g1.sendMsg

theorem Mach.Form.packBlock {m : Mach} {blk : Nat} {cmp : Bool} (h : m.Form) : (m.packBlock blk cmp).Form := by
  unfold Mach.packBlock
  extract_lets zero
  split
  · rename_i x1 x2 m1 e1
    have h1 : m1.Form := by
      refine .of_pair ?_ e1
      split
      · split
        · rename_i x3 x4 m2 e2
          have h1 : m2.Form := .of_pair h.takeFree e2
          exact h1
      · exact h
    exact h1.of_eq rfl rfl le_rfl

theorem Mach.Form.l2Evict {m : Mach} {key : Nat} (h : m.Form) : (m.l2Evict key).Form := by
  unfold Mach.l2Evict
  extract_lets l home m1
  have h1 : m1.Form := h.of_eq rfl rfl le_rfl
  exact .ite h1.packBlock h1

theorem Mach.Form.l2Fill {m : Mach} {die slice l : Nat} (h : m.Form) : (m.l2Fill die slice l).Form := by
  unfold Mach.l2Fill
  extract_lets full
  split
  · rename_i x1 out1 m1 e1
    have h1 : m1.Form := by
      refine .of_pair ?_ e1
      split
      · exact h
      · exact h.anyOf
    extract_lets m2
    have h2 : m2.Form := by
      unfold m2
      split
      · exact h1.l2Evict
      · exact h1
    exact .ite (h2.of_eq rfl rfl le_rfl) h2

theorem Mach.Form.l2Home {m : Mach} {l : Nat} (h : m.Form) : (m.l2Home l).Form := by
  unfold Mach.l2Home
  split
  · exact .ite h.l2Fill h
  · exact h

theorem Mach.Form.retain {m : Mach} {core : Nat} {hint : Hint} {p : Place} (h : m.Form) : (m.retain core hint p).Form := by
  unfold Mach.retain
  split
  · exact h
  · exact h
  · exact h
  · extract_lets l keys m1
    have h1 : m1.Form := h.of_eq rfl rfl le_rfl
    exact .ite h1.updCore h1

theorem Mach.Form.setMem {m : Mach} {mem : List Host.Cell} (h : m.Form) (hm : Memory.wf mem = true) : (m.setMem mem).Form :=
  h.of_wf hm rfl le_rfl

theorem Mach.Form.homeWrite {m : Mach} {pa : Nat} {bs : List Byte} (h : m.Form) : (m.homeWrite pa bs).Form := by
  obtain ⟨-, ho, hs, -⟩ := Mach.homeWrite_spec m pa bs
  exact h.of_wf (Mach.wf_homeWrite m pa bs h.mem) ho hs.ge

theorem Mach.Form.updTeam {m : Mach} {k : Nat} {f : Team → Team} (h : m.Form) : (m.updTeam k f).Form := by
  unfold Mach.updTeam
  exact h.of_eq rfl rfl le_rfl

theorem Mach.Form.updWarp {m : Mach} {tk w : Nat} {f : Warp → Warp} (h : m.Form) : (m.updWarp tk w f).Form := by
  unfold Mach.updWarp
  exact h.of_eq rfl rfl le_rfl

theorem Mach.Form.updTask {m : Mach} {t : Nat} {f : Task → Task} (h : m.Form) : (m.updTask t f).Form := by
  unfold Mach.updTask
  exact h.of_eq rfl rfl le_rfl

theorem Mach.Form.updFrame {m : Mach} {k : Nat} {f : Frame → Frame} (h : m.Form) : (m.updFrame k f).Form := by
  unfold Mach.updFrame
  exact h.of_eq rfl rfl le_rfl

theorem Mach.Form.updLaunch {m : Mach} {k : Nat} {f : Launch → Launch} (h : m.Form) : (m.updLaunch k f).Form := by
  unfold Mach.updLaunch
  exact h.of_eq rfl rfl le_rfl

theorem Sparse.fst_mem_upd {α : Type} {t : Sparse α} {k : Nat} {f : α → α} {e : Nat × α} (h : e ∈ t.upd k f) :
    ∃ x ∈ t, x.1 = e.1 := by
  induction t with
  | nil => cases h
  | cons x t ih =>
    have hx : e = x ∨ e ∈ t ∨ e = (x.1, f x.2) ∨ e ∈ Sparse.upd t k f := by
      unfold Sparse.upd at h
      split at h
      · rcases List.mem_cons.1 h with h | h
        · exact .inr (.inr (.inl h))
        · exact .inr (.inl h)
      · rcases List.mem_cons.1 h with h | h
        · exact .inl h
        · exact .inr (.inr (.inr h))
    rcases hx with rfl | h | rfl | h
    · exact ⟨e, List.mem_cons_self, rfl⟩
    · exact ⟨e, List.mem_cons_of_mem _ h, rfl⟩
    · exact ⟨x, List.mem_cons_self, rfl⟩
    · obtain ⟨y, hy, g⟩ := ih h
      exact ⟨y, List.mem_cons_of_mem _ hy, g⟩

theorem Mach.Form.updOp {m : Mach} {k : Nat} {f : Op → Op} (h : m.Form) : (m.updOp k f).Form :=
  ⟨h.mem, fun o ho => by
    obtain ⟨x, hx, e⟩ := Sparse.fst_mem_upd ho
    exact e ▸ h.ops x hx⟩

theorem Mach.Form.fresh {m : Mach} (h : m.Form) : m.fresh.2.Form := by
  unfold Mach.fresh
  exact h.of_eq rfl rfl (Nat.le_add_right _ _)

theorem Mach.Form.demandFill {m : Mach} {asid va : Nat} (h : m.Form) : (m.demandFill asid va).Form := by
  unfold Mach.demandFill
  split
  · split
    · exact h
    · extract_lets out m1
      have h1 : m1.Form := h.setMem (Memory.wf_writeN _ _ _ (Memory.wf_clear _ _ _ h.mem))
      exact h1.of_eq rfl rfl le_rfl
  · exact h

theorem Mach.Form.stallOn {m : Mach} {asid page : Nat} (h : m.Form) : (m.stallOn asid page).Form := by
  unfold Mach.stallOn
  exact .ite h (h.of_eq rfl rfl le_rfl)

theorem Mach.Form.translateServiced {m : Mach} {asid va : Nat} {k : AccKind} (h : m.Form) :
    (m.translateServiced asid va k).2.Form := by
  unfold Mach.translateServiced
  split
  · extract_lets m1
    have h1 : m1.Form := h.demandFill
    exact h1
  · exact h

theorem Mach.Form.lsWrite {m : Mach} {tk off : Nat} {bs : List Byte} (h : m.Form) : (m.lsWrite tk off bs).Form := by
  unfold Mach.lsWrite
  exact h.updTeam

theorem Mach.Form.cellWrite {m : Mach} {tk off : Nat} {bs : List Byte} (h : m.Form) : (m.cellWrite tk off bs).Form := by
  unfold Mach.cellWrite
  exact h.updTeam

theorem Mach.Form.freeFrames {m : Mach} {t : Nat} (h : m.Form) : (m.freeFrames t).Form := by
  unfold Mach.freeFrames
  extract_lets live stays offs m1
  have h1 : m1.Form := by
    unfold m1
    split
    · exact .ite h h.updLaunch
    · exact h
  exact h1.of_eq rfl rfl le_rfl

theorem Mach.Form.newFrame {m : Mach} {task demand depth : Nat} {links : Sparse Link} {h0 : Option Handler} (h : m.Form) :
    (m.newFrame task demand depth links h0).2.Form := by
  unfold Mach.newFrame
  exact h.of_eq rfl rfl (Nat.le_add_right _ _)

theorem Mach.Form.meetGate {m : Mach} {g : Gated} {ps : List (Place × Nat)} (h : m.Form) : (m.meetGate g ps).Form := by
  unfold Mach.meetGate
  exact h.of_eq rfl rfl le_rfl

theorem Mach.Form.cellFor {m : Mach} {asid va : Nat} (h : m.Form) : (m.cellFor asid va).2.Form := by
  unfold Mach.cellFor
  split
  · rename_i x1 l1 m1 e1
    have h1 : m1.Form := .of_pair h.translateServiced e1
    exact h1
  · rename_i x1 fst1 m1 hc1 e1
    have h1 : m1.Form := .of_pair h.translateServiced e1
    exact h1

theorem Mach.Form.resolveCell {m : Mach} {pa state : Nat} {v : DWord} (h : m.Form) : (m.resolveCell pa state v).2.Form := by
  unfold Mach.resolveCell
  split
  · extract_lets flags
    exact h.homeWrite
  · exact h

theorem Mach.Form.sendDue {m : Mach} (h : m.Form) : m.sendDue.Form := by
  unfold Mach.sendDue
  exact h.of_eq rfl rfl le_rfl

theorem Mach.Form.forgetRemote {m : Mach} {r : RemoteCell} (h : m.Form) : (m.forgetRemote r).Form := by
  unfold Mach.forgetRemote
  exact h.of_eq rfl rfl le_rfl

theorem Mach.Form.actOn {m : Mach} {pa : Nat} {c : CellOp} (h : m.Form) : (m.actOn pa c).Form := by
  unfold Mach.actOn
  extract_lets answer
  split
  · exact h.resolveCell
  · have h1 := h.homeWrite (pa := pa + 9) (bs := [Memory.read m.mem (pa + 9) ||| 1])
    exact .ite h1.resolveCell (h1.of_eq rfl rfl le_rfl)
  · exact .ite h.forgetRemote.resolveCell h

theorem Mach.Form.cellNow {m n : Mach} {c : CellOp} (h : m.Form) (e : m.cellNow c = some n) : n.Form := by
  unfold Mach.cellNow at e
  extract_lets early at e
  have hc := h.cellFor (asid := c.asid) (va := c.va)
  split at e
  · cases e
  · split at e
    · rename_i pa m1 e1
      have h1 : m1.Form := .of_pair hc e1
      split at e
      · cases e
      · cases e
        exact h1.actOn
    · rename_i m1 e1
      have h1 : m1.Form := .of_pair hc e1
      cases e
      split
      · exact h1.forgetRemote
      · exact h1

theorem Mach.Form.cellWaits {m : Mach} {g : Gated} {c : CellOp} (h : m.Form) : (m.cellWaits g c).Form := by
  unfold Mach.cellWaits
  split
  · exact h.meetGate
  · exact h

theorem Mach.Form.holdCell {m : Mach} {id : Nat} {c : CellOp} (h : m.Form) : (m.holdCell id c).Form := by
  unfold Mach.holdCell
  exact .cellWaits (h.of_eq rfl rfl le_rfl)

theorem Mach.meetGate_serial (m : Mach) (g : Gated) (ps : List (Place × Nat)) : (m.meetGate g ps).serial = m.serial := rfl

theorem Mach.holdCell_serial (m : Mach) (id : Nat) (c : CellOp) : (m.holdCell id c).serial = m.serial := by
  unfold Mach.holdCell Mach.cellWaits
  split
  · exact Mach.meetGate_serial _ _ _
  · rfl

theorem Mach.Form.postCell {m : Mach} {c : CellOp} (h : m.Form) : (m.postCell c).Form := by
  unfold Mach.postCell
  split
  · rename_i m1 e1
    exact h.cellNow e1
  · exact (h.holdCell (id := m.serial)).of_eq rfl rfl ((m.holdCell_serial m.serial c).le.trans (Nat.le_succ _))

theorem Mach.Form.retryCell {m : Mach} {id : Nat} (h : m.Form) : (m.retryCell id).Form := by
  unfold Mach.retryCell
  split
  · exact h
  · split
    · rename_i m1 e1
      refine Mach.Form.cellNow ?_ e1
      exact h.of_eq rfl rfl le_rfl
    · exact h.holdCell

theorem Mach.Form.retryCells {m : Mach} (h : m.Form) : m.retryCells.Form := by
  unfold Mach.retryCells
  exact h.foldl fun _ _ g1 => g1.retryCell

theorem Mach.Form.resolveLost {m : Mach} (h : m.Form) : m.resolveLost.Form := by
  unfold Mach.resolveLost
  extract_lets value
  exact h.foldl fun _ _ g1 => g1.postCell

theorem Mach.Form.resolveFuture {m : Mach} {t asid : Nat} {d : Desc} {faulted : Bool} {v : DWord} (h : m.Form) :
    (m.resolveFuture t asid d faulted v).Form := by
  unfold Mach.resolveFuture
  split
  · exact h
  · split
    · exact .sendDue (h.of_eq rfl rfl le_rfl)
    · exact h.postCell

theorem Mach.Form.settle {m : Mach} {tk w : Nat} (h : m.Form) : (m.settle tk w).Form := by
  unfold Mach.settle
  split
  · exact h
  · split
    · exact h.updWarp
    · split
      · split
        · extract_lets m1
          have h1 : m1.Form := h.updWarp
          exact h1.of_eq rfl rfl le_rfl
        · exact h
      · split
        · exact h.updWarp
        · split
          · exact h
          · split
            · split
              · extract_lets m1 m2 m3
                have h1 : m1.Form := h.updTask
                have h2 : m2.Form := h1.of_eq rfl rfl (Nat.le_add_right _ _)
                have h3 : m3.Form := h2.updTeam
                exact h3.updWarp
              · exact h
            · exact h.updWarp

end Sys2Proof.Machine
end

section
/-! What waking and ending paths and tasks, faults, and issuing an instruction keep. -/

namespace Sys2Proof.Machine

variable {F C : Prop}

theorem Mach.Form.wakePaths {m : Mach} {t : Nat} {p : Path → Bool} {f : Path → Path} (h : m.Form) : (m.wakePaths t p f).Form := by
  unfold Mach.wakePaths
  split
  · exact h
  · split
    · extract_lets left k'
      split
      · exact .updTeam (h.of_eq rfl rfl (Nat.le_add_right _ _))
      · exact .settle (h.of_eq rfl rfl le_rfl)
      · exact h.of_eq rfl rfl le_rfl
    · exact h

theorem Mach.Form.acquire {m : Mach} {core : Nat} {s : Scope} (h : m.Form) : (m.acquire core s).Form := by
  unfold Mach.acquire
  exact .ite h.updCore h

theorem Mach.Form.endWaits {m : Mach} {tk : Nat} {w : Wait → Bool} (h : m.Form) : (m.endWaits tk w).Form := by
  unfold Mach.endWaits
  refine h.foldl fun m e g1 => ?_
  extract_lets sel
  exact g1.wakePaths

theorem Mach.Form.wakeScopes {m : Mach} {ln : Nat} (h : m.Form) : (m.wakeScopes ln).Form := by
  unfold Mach.wakeScopes
  split
  · exact h
  · extract_lets ready
    refine h.foldl fun m t g1 => ?_
    extract_lets hit
    exact .ite g1.endWaits.acquire g1

theorem Mach.Form.endTask {m : Mach} {t : Nat} {e : Ending} (h : m.Form) : (m.endTask t e).Form := by
  unfold Mach.endTask
  split
  · exact h
  · split
    · exact h
    · extract_lets asid m1 m2 m3 m4
      have h1 : m1.Form := by
        unfold m1
        split
        · exact h.resolveFuture
        · exact h.updCore.resolveFuture
        · exact h
      have h4 : m4.Form := h1.updLaunch.updTeam.wakeScopes
      split
      · exact h4.updTask.updWarp.freeFrames
      · exact (h4.updTask.freeFrames (t := t)).of_eq rfl rfl le_rfl

theorem Mach.Form.leaveClause {m : Mach} {c : Issue} {ps : List Path} (h : m.Form) : (m.leaveClause c ps).Form := by
  unfold Mach.leaveClause
  extract_lets m1
  have h1 : m1.Form := h.updTask
  exact h1.updTeam

theorem Mach.Form.goOn {m : Mach} {c : Issue} {n : Nat} {moved : Lanes} {ps : List Path} (h : m.Form) :
    (m.goOn c n moved ps).Form := by
  unfold Mach.goOn
  extract_lets rest pc
  exact .ite h.leaveClause (.ite h.leaveClause h.updTask)

theorem Mach.Form.stopPath {m : Mach} {c : Issue} {st : PathSt} (h : m.Form) : (m.stopPath c st).Form := by
  unfold Mach.stopPath
  exact h.updTask

theorem Mach.Form.dieOf {m : Mach} {c : Issue} {r : FaultRec} (h : m.Form) : (m.dieOf c r).Form := by
  unfold Mach.dieOf
  exact h.endTask

theorem Mach.Form.openHandler {m : Mach} {t : Nat} {p : Path} {demand vec : Nat} {r : FaultRec} (h : m.Form) :
    (m.openHandler t p demand vec r).2.Form := by
  unfold Mach.openHandler
  extract_lets depth ls links latch
  split
  · rename_i x1 x2 m1 e1
    have h1 : m1.Form := .of_pair h.newFrame e1
    extract_lets m2
    have h2 : m2.Form := h1.updTask
    exact h2.updFrame

theorem Mach.Form.deliver {m : Mach} {c : Issue} {r : FaultRec} (h : m.Form) : (m.deliver c r).Form := by
  unfold Mach.deliver
  split
  · exact h.dieOf
  · extract_lets m1 vec
    have h1 : m1.Form := h.updCore
    split
    · exact h1.dieOf
    · split
      · exact h1.dieOf
      · split
        · split
          · split
            · rename_i x1 q1 m2 e1
              have h2 : m2.Form := .of_pair h1.openHandler e1
              exact h2.leaveClause
          · extract_lets m2
            have h2 : m2.Form := h1.stopPath
            exact h2.of_eq rfl rfl (Nat.le_add_right _ _)
        · exact h1.dieOf

theorem Mach.Form.raise {m : Mach} {c : Issue} {f : Fail} (h : m.Form) : (m.raise c f).Form := by
  unfold Mach.raise
  exact .deliver (.ite h.updTask h)

theorem Mach.Form.askKill {m : Mach} {launch gang : Nat} {r : FaultRec} (h : m.Form) : (m.askKill launch gang r).Form := by
  unfold Mach.askKill
  exact .ite h (h.of_eq rfl rfl le_rfl)

theorem Mach.Form.openCall {m : Mach} {t : Nat} {p : Path} {gran w : Nat} {mk : Bool} {ls : List CallLane}
    {retPc retClause : DWord} (h : m.Form) :
    (m.openCall t p gran w mk ls retPc retClause).2.Form := by
  unfold Mach.openCall
  split
  · exact h
  · extract_lets link targets
    split
    · rename_i x1 x2 m1 e1
      have h1 : m1.Form := .of_pair h.newFrame e1
      extract_lets m2 m3
      have h2 : m2.Form := h1.updFrame
      have h3 : m3.Form := .ite h2.updFrame h2
      exact h3

theorem Mach.Form.freeRegs {m : Mach} {demand : Nat} (h : m.Form) : (m.freeRegs demand).2.Form := by
  unfold Mach.freeRegs
  exact h.of_eq rfl rfl le_rfl

theorem Mach.Form.strayFrame {m : Mach} {fr : Nat} (h : m.Form) : (m.strayFrame fr).Form := by
  unfold Mach.strayFrame
  split
  · exact h
  · split
    · rename_i x1 regs1 m1 e1
      have h1 : m1.Form := .of_pair h.freeRegs e1
      extract_lets x kept
      exact .updFrame (h1.of_eq rfl rfl le_rfl)

theorem Mach.Form.readBad {m : Mach} {tk va : Nat} {bad : Bool} (h : m.Form) : (m.readBad tk va bad).Form := by
  unfold Mach.readBad
  split
  · exact h.askKill
  · exact h

theorem Mach.Form.restoreFrame {m : Mach} {fr : Nat} (h : m.Form) : (m.restoreFrame fr).Form := by
  unfold Mach.restoreFrame
  split
  · exact h
  · split
    · exact h
    · extract_lets m1
      have h1 : m1.Form := h.updFrame
      split
      · extract_lets l intact bad va m2
        have h2 : m2.Form := h1.updLaunch.readBad
        exact .ite h2 h2.strayFrame
      · exact h1

theorem Mach.Form.landPath {m : Mach} {tk : Nat} {p : Path} (h : m.Form) : (m.landPath tk p).2.Form := by
  unfold Mach.landPath
  split
  · exact h
  · split
    · exact h.restoreFrame
    · exact h.of_eq rfl rfl (Nat.le_add_right _ _)

theorem Mach.Form.landTask {m : Mach} {tk t : Nat} (h : m.Form) : (m.landTask tk t).Form := by
  unfold Mach.landTask
  split
  · exact h
  · refine h.foldl fun m p g1 => ?_
    split
    · split
      · rename_i x1 q1 m1 e1
        have h1 : m1.Form := .of_pair g1.landPath e1
        exact h1.updTask
    · exact g1

theorem Mach.Form.copyResults {m : Mach} {fr s lane dst w n : Nat} (h : m.Form) : (m.copyResults fr s lane dst w n).Form := by
  unfold Mach.copyResults
  split
  · exact h
  · exact h.updFrame

theorem Mach.Form.orFpstat {m : Mach} {t : Nat} {w : Word} (h : m.Form) : (m.orFpstat t w).Form := by
  unfold Mach.orFpstat
  exact h.updTask

theorem Mach.Form.clearMarks {m : Mach} {t mask : Nat} {lanes : Lanes} (h : m.Form) : (m.clearMarks t mask lanes).Form := by
  unfold Mach.clearMarks
  exact h.of_eq rfl rfl le_rfl

theorem Mach.Form.spendCycle {m : Mach} {core part : Nat} (h : m.Form) : (m.spendCycle core part).Form := by
  unfold Mach.spendCycle
  exact h.updCore

theorem Mach.Form.tookCycle {m : Mach} {c : Issue} (h : m.Form) : (m.tookCycle c).Form := by
  unfold Mach.tookCycle
  extract_lets m1 m2
  have h1 : m1.Form := h.updWarp
  have h2 : m2.Form := h1.spendCycle
  exact h2.of_eq rfl rfl (Nat.le_add_right _ _)

theorem Mach.Form.issued {m : Mach} {c : Issue} (h : m.Form) : (m.issued c).Form := by
  unfold Mach.issued
  exact h.updTask.tookCycle

theorem Mach.Form.latched {m : Mach} {c : Issue} {h0 : Shape} (h : m.Form) : (m.latched c h0).Form := by
  unfold Mach.latched
  exact h.updTask

theorem Mach.Form.issue {m : Mach} {i : Instr} {stay : Issue → Lanes → Lanes} {chk : Issue → Lanes → Chk}
    {eff : Issue → Lanes → Mach → Flow × Mach} (h : m.Form) (he : ∀ c a m, m.Form → (eff c a m).2.Form) :
    (m.issue i stay chk eff).Form := by
  unfold Mach.issue
  split
  · exact h
  · rename_i c e
    extract_lets x n act m1 m2
    split
    · exact h.tookCycle.raise.settle
    · split
      · exact h.tookCycle.raise.settle
      · exact h.stallOn
      · exact h.updTeam
      · exact h
      · split
        · exact h.tookCycle.raise.settle
        · refine .settle ?_
          have h1 : m1.Form := h.issued.latched
          have h3 := he c act m1 h1
          unfold m2
          split
          · rename_i e1
            exact (Mach.Form.of_pair h3 e1).goOn
          · rename_i e1
            exact (Mach.Form.of_pair h3 e1).stopPath
          · rename_i e1
            exact .of_pair h3 e1

theorem Mach.Form.act {m : Mach} {i : Instr} {chk : Issue → Lanes → Chk} {eff : Issue → Lanes → Mach → Mach} (h : m.Form)
    (he : ∀ c a m, m.Form → (eff c a m).Form) : (m.act i chk eff).Form :=
  h.issue fun c a m g => .ite g (he c a m g)

theorem Mach.Form.alu {m : Mach} {i : Instr} {g : Lanes → (Nat → Args) → Nat → Res} (h : m.Form) : (m.alu i g).Form := by
  unfold Mach.alu
  refine h.act (fun c a m g1 => ?_)
  extract_lets h2 rs
  exact g1.updFrame.orFpstat

theorem Mach.Form.long {m : Mach} {i : Instr} {counted : Bool} {chk : Issue → Lanes → Chk}
    {kind : Issue → Lanes → Mach → OpKind × Mach} (h : m.Form) (hk : ∀ c a m, m.Form → (kind c a m).2.Form) :
    (m.long i counted chk kind).Form :=
  h.act fun c a m g => (hk c a m g).startOp _ _ _ _ _

theorem Mach.Form.longAlu {m : Mach} {i : Instr} {g : Args → Res} (h : m.Form) : (m.longAlu i g).Form := by
  unfold Mach.longAlu
  refine h.long (fun c a m g1 => ?_)
  extract_lets h2 rs
  exact g1

theorem Mach.Form.dropFlag {m : Mach} {n : Nat} {o : Op} {faults : List FaultRec} (h : m.Form) :
    (m.dropFlag n o faults).Form := by
  unfold Mach.dropFlag
  extract_lets m1
  have h1 : m1.Form := by
    unfold m1
    split
    · exact .ite h h.updTask
    · exact h
  split
  · exact h1.settle
  · exact h1.settle
  · exact h1

theorem Mach.Form.finishOp {m : Mach} {n : Nat} {faults : List FaultRec} (h : m.Form) : (m.finishOp n faults).Form := by
  unfold Mach.finishOp
  split
  · exact h
  · extract_lets m1 m2
    have h1 : m1.Form := (h.delOp n).of_eq rfl rfl le_rfl
    have h2 : m2.Form := .ite h1.updWarp h1
    exact h2.freeFrames.dropFlag.sendDue

theorem Mach.Form.landRegs {m : Mach} {o : Op} {ws : List (Nat × Nat × Word)} (h : m.Form) : (m.landRegs o ws).Form := by
  unfold Mach.landRegs
  exact .ite h h.updFrame

theorem Mach.Form.useTlb {m : Mach} {c : Issue} {spc : Spc} {as : List LaneAcc} (h : m.Form) : (m.useTlb c spc as).Form := by
  unfold Mach.useTlb
  exact .ite (h.foldl fun _ _ g1 => g1.fillTlb) h

theorem Mach.Form.consume {m : Mach} {tk w : Nat} {bad : Bool} {addr : Nat} (h : m.Form) : (m.consume tk w bad addr).Form := by
  unfold Mach.consume
  split
  · split
    · exact h.askKill
    · exact h
  · exact h

theorem Mach.Form.movePoison {m : Mach} {p : Place} {n : Nat} {bad : Bool} (h : m.Form) : (m.movePoison p n bad).Form := by
  unfold Mach.movePoison
  extract_lets step
  split
  · exact .ite h (h.of_eq rfl rfl le_rfl)
  · exact .ite h h.updTeam

theorem Mach.Form.l1dDrop {m : Mach} {core : Nat} {ls : List Nat} (h : m.Form) : (m.l1dDrop core ls).Form := by
  unfold Mach.l1dDrop
  exact h.updCore

theorem Mach.Form.l1dVictim {m : Mach} {core : Nat} (h : m.Form) : (m.l1dVictim core).2.Form := by
  unfold Mach.l1dVictim
  extract_lets c low
  exact h.anyOf

theorem Mach.Form.l1dFill {m : Mach} {core l : Nat} {bytes : List Byte} (h : m.Form) : (m.l1dFill core l bytes).Form := by
  unfold Mach.l1dFill
  extract_lets old
  split
  · rename_i x1 out1 m1 e1
    have h1 : m1.Form := by
      refine .of_pair ?_ e1
      split
      · exact h
      · exact h.l1dVictim
    extract_lets m2
    have h2 : m2.Form := by
      unfold m2
      split
      · exact h1.l1dDrop
      · exact h1
    exact h2.updCore

theorem Mach.Form.addReplica {m : Mach} {die l : Nat} {bytes : List Byte} (h : m.Form) : (m.addReplica die l bytes).Form := by
  unfold Mach.addReplica
  extract_lets slice peers
  split
  · rename_i x1 out1 m1 e1
    have h1 : m1.Form := by
      refine .of_pair ?_ e1
      split
      · exact h
      · exact h.anyOf
    extract_lets m2 m3
    have h2 : m2.Form := by
      unfold m2
      split
      · exact h1.l2Evict
      · exact h1
    have h3 : m3.Form := h2.l2Fill
    exact .ite (h3.of_eq rfl rfl le_rfl) h3

theorem Mach.Form.dropReplicas {m : Mach} {die : Nat} {ls : List Nat} (h : m.Form) : (m.dropReplicas die ls).Form := by
  unfold Mach.dropReplicas
  extract_lets mine
  exact h.of_eq rfl rfl le_rfl

theorem Mach.Form.dropCopies {m : Mach} {core : Nat} {ls : List Nat} (h : m.Form) : (m.dropCopies core ls).Form := by
  unfold Mach.dropCopies
  exact h.l1dDrop.dropReplicas

theorem Mach.Form.homeLine {m : Mach} {core l : Nat} {cache fill grant : Bool} (h : m.Form) :
    (m.homeLine core l cache fill grant).Form := by
  unfold Mach.homeLine
  extract_lets die bytes m1 m2 has
  have h1 : m1.Form := h.dropReplicas.l2Home
  have h2 : m2.Form := .ite h1.addReplica h1
  exact .ite h2.l1dFill (.ite h2.l1dDrop h2)

theorem Mach.Form.anyPool {m : Mach} {tk n : Nat} (h : m.Form) : (m.anyPool tk n).2.Form := by
  unfold Mach.anyPool
  extract_lets l pool lim
  split
  · rename_i x1 x2 m1 e1
    have h1 : m1.Form := .of_pair h.takeFree e1
    exact h1

theorem Mach.Form.taskRead {m : Mach} {t : Nat} {p : Place} {n : Nat} (h : m.Form) : (m.taskRead t p n).2.Form := by
  unfold Mach.taskRead
  extract_lets bs
  split
  · exact h.takeBytes
  · split
    · exact h.of_eq rfl rfl le_rfl
    · exact h

end Sys2Proof.Machine
end

section
/-! What the memory instructions and their completions keep. -/

namespace Sys2Proof.Machine

variable {F C : Prop}

theorem Mach.Form.taskWrite {m : Mach} {t : Nat} {p : Place} {bs : List Byte} (h : m.Form) : (m.taskWrite t p bs).Form := by
  unfold Mach.taskWrite
  split
  · split
    · refine h.foldl fun m b g1 => ?_
      split
      · split
        · rename_i x1 q1 m1 e1
          have h1 : m1.Form := .of_pair g1.anyPool e1
          split
          · rename_i x2 free1 m2 e2
            have h2 : m2.Form := .of_pair h1.takeBytes e2
            exact h2.placeWrite _ _
      · exact g1.placeWrite _ _
    · exact h.placeWrite _ _
  · split
    · split
      · rename_i x1 free1 m1 e1
        have h1 : m1.Form := .of_pair h.takeBytes e1
        exact h1.placeWrite _ _
    · exact h.placeWrite _ _

theorem Mach.Form.holdHost {m : Mach} {core pa : Nat} (h : m.Form) : (m.holdHost core pa).Form := by
  unfold Mach.holdHost
  extract_lets die key m1
  have h1 : m1.Form := h.l2Fill
  exact .ite (h1.of_eq rfl rfl le_rfl) h1

theorem Mach.Form.readFor {m : Mach} {n core : Nat} {a : LaneAcc} {size : Nat} {atHome fill : Bool} {sv : Serve} (h : m.Form) :
    (m.readFor n core a size atHome fill sv).2.Form := by
  unfold Mach.readFor
  split
  · split
    · exact h.takeBytes
    · exact h
  · split
    · exact h.takeBytes
    · exact h.takeBytes
    · exact h.takeBytes
    · exact .ite h.holdHost h
    · split
      · exact h.takeBytes
      · extract_lets l cache home
        have h1 : home.2.Form := h.homeLine
        split
        · rename_i x1 free1 m1 e1
          have h2 : m1.Form := by
            refine .of_pair ?_ e1
            split
            · exact h1
            · split
              · exact h
              · split
                · exact .ite h.l1dFill h
                · exact h1
              · exact h1
          exact h2

theorem Mach.Form.putStore {m : Mach} {c : Issue} {lane : Nat} {p : Place} {bs : List Byte} (h : m.Form) :
    (m.putStore c lane p bs).Form := by
  unfold Mach.putStore
  split
  · rename_i x1 p1 bs1 m1 e1
    have h1 : m1.Form := by
      refine .of_triple ?_ e1
      split
      · split
        · split
          · rename_i x2 q1 m2 e2
            have h1 : m2.Form := .of_pair h.anyPool e2
            split
            · rename_i x3 free1 m3 e3
              have h2 : m3.Form := .of_pair h1.takeBytes e3
              exact h2
        · exact h
      · split
        · split
          · rename_i x2 free1 m2 e2
            have h1 : m2.Form := .of_pair h.takeBytes e2
            exact h1
        · exact h
    split
    · exact h1.placeWrite _ _
    · extract_lets s m2 m3 m4 m5
      have h2 : m2.Form := h1.updCore
      have h3 : m3.Form := h2.updWarp
      have h4 : m4.Form := h3.send
      have h5 : m5.Form := by
        unfold m5
        split
        · exact h4.of_eq rfl rfl le_rfl
        · exact h4
      exact h5.of_eq rfl rfl (Nat.le_add_right _ _)

theorem Mach.Form.markRelcore {m : Mach} {rel : Option Nat} {p : Place} {k : Nat} (h : m.Form) :
    (m.markRelcore rel p k).Form := by
  unfold Mach.markRelcore
  split
  · exact .ite (h.of_eq rfl rfl le_rfl) h
  · exact h

theorem Mach.Form.invalidate {m : Mach} {n : Nat} {rs : List (Place × Nat)} (h : m.Form) : (m.invalidate n rs).Form := by
  unfold Mach.invalidate
  refine h.foldl fun m e g1 => ?_
  split
  · exact g1.sendMsg
  · exact g1

theorem Mach.Form.performStore {m : Mach} {core id : Nat} (h : m.Form) : (m.performStore core id).Form := by
  unfold Mach.performStore
  split
  · exact h
  · extract_lets r old m1 m2 m3
    have h1 : m1.Form := h.invalidate.placeWrite _ _
    have h2 : m2.Form := h1.of_eq rfl rfl le_rfl
    have h3 : m3.Form := h2.markRelcore
    exact .ite h.meetGate (.ite h h3.updCore)

theorem Mach.Form.replied {m : Mach} {n core : Nat} {ps : List Place} (h : m.Form) : (m.replied n core ps).2.Form := by
  unfold Mach.replied
  split
  · exact h
  · extract_lets m1
    have h1 : m1.Form := h.reply
    exact h1

theorem Mach.Form.roundTrip {m : Mach} {n core : Nat} {ps : List Place} (h : m.Form) : (m.roundTrip n core ps).2.Form := by
  unfold Mach.roundTrip
  split
  · exact h
  · extract_lets m1
    have h1 : m1.Form := h.send
    split
    · exact h1
    · exact h1.replied

theorem Mach.Form.backOver {m : Mach} {n core : Nat} {ps : List Place} {rs : List (Place × Nat)} (h : m.Form) :
    (m.backOver n core ps rs).2.Form := by
  unfold Mach.backOver
  extract_lets m1
  have h1 : m1.Form := h.invalidate
  split
  · exact h1
  · exact h1.replied

theorem Mach.Form.crossed {m done : Mach} {n core : Nat} {ps : List Place} {rs : List (Place × Nat)} (h : m.Form)
    (hd : done.Form) :
    (m.crossed done n core ps rs).Form := by
  unfold Mach.crossed
  split
  · exact hd
  · split
    rename_i m1 e1
    exact .ite hd (.of_pair h.backOver e1)

theorem Mach.Form.ackStore {m : Mach} {core id : Nat} (h : m.Form) : (m.ackStore core id).Form := by
  unfold Mach.ackStore
  extract_lets m1
  have h1 : m1.Form := h.performStore
  split
  · exact h1
  · extract_lets peerUp
    split
    · rename_i x1 here1 m2 e1
      have h2 : m2.Form := by
        refine .of_pair ?_ e1
        split
        · exact h1.replied
        · exact h1
      split
      · exact h2
      · extract_lets m3 m4
        have h3 : m3.Form := by
          unfold m3
          split
          · exact h2.of_eq rfl rfl le_rfl
          · exact h2
        have h4 : m4.Form := h3.updCore
        exact h4.updWarp.sendDue

theorem Mach.Form.released {m : Mach} {t : Nat} {lanes : Lanes} {s : Scope} (h : m.Form) : (m.released t lanes s).Form := by
  unfold Mach.released
  exact .ite h h.updTask

theorem Mach.Form.noteDemotion {m : Mach} {t : Nat} {flag : Option Nat} {lanes : Lanes} (h : m.Form) :
    (m.noteDemotion t flag lanes).Form := by
  unfold Mach.noteDemotion
  split
  · exact .ite h h.updTask
  · exact h

theorem Mach.Form.askPeers {m : Mach} {n : Nat} {ps : List Place} (h : m.Form) : (m.askPeers n ps).Form := by
  unfold Mach.askPeers
  exact h.of_eq rfl rfl le_rfl

theorem Mach.Form.load {m0 : Mach} {i : Instr} {spc : Spc} {f : MemF} {a : Reg} {off : BitVec 24} {size words : Nat}
    (h : m0.Form) :
    (m0.load i spc f a off size words).Form := by
  unfold Mach.load
  extract_lets spec h2
  refine h.long (fun c act m g1 => ?_)
  extract_lets as m1 ps m2 m3
  have h1 : m1.Form := g1.useTlb
  have h3 : m2.Form := h1.send.askPeers
  have h4 : m3.Form := .ite h3.noteDemotion h3
  exact h4.foldl fun _ _ g2 => g2.retain

theorem Mach.Form.readLanes {m : Mach} {n core size : Nat} {atHome fill : Bool} {sv : Serve} {as : List LaneAcc}
    {reply : List Byte}
    (h : m.Form) : (m.readLanes n core size atHome fill sv as reply).2.Form := by
  induction as generalizing m reply with
  | nil => exact h
  | cons a as ih =>
    unfold Mach.readLanes
    extract_lets peer
    split
    rename_i bs m1 e1
    have h1 : m1.Form := by
      refine .of_pair ?_ e1
      split
      · exact h
      · exact h.readFor
    exact ih h1

theorem Mach.Form.completeLoad {m : Mach} {n : Nat} {o : Op} {k : LoadK} {sv : Serve} (h : m.Form) :
    (m.completeLoad n o k sv).Form := by
  unfold Mach.completeLoad
  extract_lets ps marks m1 bad
  have h1 : m1.Form := h.l1dDrop
  split
  · exact h
  · split
    · rename_i x1 rest1 m2 e1
      have h2 : m2.Form := .of_pair h1.readLanes e1
      extract_lets m3 m4
      have h3 : m3.Form := h2.landRegs
      have h4 : m4.Form := by
        unfold m4
        split
        · exact h3.acquire
        · exact h3
      exact h4.consume.finishOp

theorem Mach.Form.putStores {m : Mach} {c : Issue} {l : List (Nat × Place × List Byte)} (h : m.Form) :
    (m.putStores c l).Form := by
  induction l generalizing m with
  | nil => exact h
  | cons x l ih => exact ih h.putStore

theorem Mach.Form.store {m0 : Mach} {i : Instr} {spc : Spc} {f : MemF} {a : Reg} {off : BitVec 24} (h : m0.Form) :
    (m0.store i spc f a off).Form := by
  unfold Mach.store
  extract_lets size spec
  refine h.act (fun c act m g1 => ?_)
  split
  · extract_lets m1
    have h1 : m1.Form := .ite g1.released g1
    exact (h1.useTlb.foldl fun _ _ g2 => g2.retain).putStores
  · exact g1

theorem Mach.Form.fetchLine {m : Mach} {core pa : Nat} (h : m.Form) : (m.fetchLine core pa).Form := by
  unfold Mach.fetchLine
  split
  · exact h
  · split
    · exact h.l2Home
    · exact h.holdHost
    · exact h

theorem Mach.Form.purge {m0 : Mach} {i : Instr} {discard : Bool} (h : m0.Form) : (m0.purge i discard).Form := by
  unfold Mach.purge
  extract_lets args
  exact h.long (fun _ _ _ g1 => g1)

theorem Mach.Form.forget {m : Mach} {pa n : Nat} (h : m.Form) : (m.forget pa n).Form :=
  h.of_wf (Mach.wf_forget m pa n h.mem) rfl le_rfl

theorem Mach.Form.writeBack {m : Mach} {pa n : Nat} {cmp : Bool} (h : m.Form) : (m.writeBack pa n cmp).Form := by
  unfold Mach.writeBack
  extract_lets ls m1
  have h1 : m1.Form := h.of_eq rfl rfl le_rfl
  exact h1.foldl fun _ _ g1 => g1.packBlock

theorem Mach.Form.completePurge {m : Mach} {n : Nat} {discard : Bool} {rs : List (Nat × Nat × Bool)} (h : m.Form) :
    (m.completePurge n discard rs).Form := by
  unfold Mach.completePurge
  exact (h.foldl fun _ _ g1 => .ite g1.forget g1.writeBack).finishOp

theorem Mach.Form.tile {m0 : Mach} {i : Instr} {t : TileF} {load : Bool} {a b : Reg} (h : m0.Form) :
    (m0.tile i t load a b).Form := by
  unfold Mach.tile
  refine h.long (fun c act m g1 => ?_)
  split
  · exact g1
  · extract_lets m1
    have h1 : m1.Form := g1.send.askPeers.foldl fun _ _ g2 => g2.retain
    split
    · rename_i x1 free1 m2 e1
      have h2 : m2.Form := .of_pair h1.taskRead e1
      extract_lets out
      exact h2.of_eq rfl rfl le_rfl

theorem Mach.Form.blur {m : Mach} {dst : Place} {n : Nat} {srcs : List (Place × Nat)} (h : m.Form) :
    (m.blur dst n srcs).Form := by
  unfold Mach.blur
  refine h.foldl fun m i g1 => ?_
  split
  · split
    · rename_i x1 free1 m1 e1
      have h1 : m1.Form := .of_pair g1.takeBytes e1
      exact h1.placeWrite _ _
  · exact g1

theorem Mach.Form.rowsRead {m : Mach} {t rowlen : Nat} {ps : List Place} (h : m.Form) : (m.rowsRead t rowlen ps).2.Form := by
  induction ps generalizing m with
  | nil => exact h
  | cons p ps ih => exact ih h.taskRead

theorem Mach.Form.readTile {m : Mach} {n : Nat} {o : Op} {k : TileK} (h : m.Form) : (m.readTile n o k).Form := by
  unfold Mach.readTile
  split
  · exact h
  · extract_lets bad lines
    split
    · rename_i x1 free1 m1 e1
      have h1 : m1.Form := by
        refine .of_pair ?_ e1
        split
        · exact h
        · exact h.rowsRead
      extract_lets m2
      have h2 : m2.Form := h1.dropCopies
      exact h2.consume.updOp

theorem Mach.Form.tileUnit {m : Mach} {n u : Nat} {o : Op} {k : TileK} (h : m.Form) : (m.tileUnit n u o k).Form := by
  unfold Mach.tileUnit
  extract_lets place moved
  have hmoved {m : Mach} {bs : List Byte} (h : m.Form) : (moved m bs).Form := h.updOp
  split
  · exact h
  · split
    · exact h
    · exact hmoved h.taskWrite
    · split
      · exact h
      · split
        rename_i e1
        exact hmoved (.of_pair h.taskRead e1)

theorem Mach.Form.packTile {m : Mach} {t : Nat} {k : TileK} {bytes : List Byte} (h : m.Form) : (m.packTile t k bytes).Form := by
  unfold Mach.packTile
  exact .ite h.taskWrite (h.foldl fun _ _ g1 => g1.taskWrite)

theorem Mach.Form.completeTile {m : Mach} {n : Nat} {o : Op} {k : TileK} (h : m.Form) : (m.completeTile n o k).Form := by
  unfold Mach.completeTile
  extract_lets packed m1 rel
  have h1 : m1.Form := h.readTile
  split
  · split
    · exact .ite h1.packTile.blur.finishOp h1
    · exact h1
  · split
    · exact h
    · split
      · rename_i x1 free1 m2 e1
        have h2 : m2.Form := .of_pair h.taskRead e1
        extract_lets bytes m3
        have h3 : m3.Form := by
          unfold m3
          refine h2.foldl fun m r g1 => ?_
          split
          · exact g1
          · extract_lets m4 m5
            have h3 : m4.Form := g1.taskWrite.markRelcore
            have h4 : m5.Form := by
              unfold m5
              split
              · exact h3.updCore
              · exact h3
            exact h4.blur
        exact h3.finishOp

theorem Mach.Form.atomic {m0 : Mach} {i : Instr} {f : AtomF} {fn : AtomFn} {a : Reg} {off : ℤ} (h : m0.Form) :
    (m0.atomic i f fn a off).Form := by
  unfold Mach.atomic
  extract_lets size spec h2
  refine h.long (fun c act m g1 => ?_)
  extract_lets as m1 ps m2
  have h1 : m1.Form := .ite g1.released g1
  have h3 : m2.Form := h1.useTlb.send.askPeers
  exact h3

theorem Mach.Form.atomLanes {m : Mach} {t core size : Nat} {fn : AtomFn} {rel : Option Nat} {as : List AtomLane}
    {reply : List Byte}
    (h : m.Form) : (m.atomLanes t core size fn rel as reply).2.2.2.Form := by
  induction as generalizing m reply with
  | nil => exact h
  | cons a as ih =>
    unfold Mach.atomLanes
    extract_lets peer
    split
    rename_i bs m1 e1
    have h1 : m1.Form := by
      refine .of_pair ?_ e1
      split
      · exact h
      · exact h.taskRead
    extract_lets old
    split
    extract_lets m2 m3
    have h2 : m2.Form := by
      unfold m2
      split
      · exact .ite h1 h1.taskWrite.markRelcore
      · exact h1
    have h3 : m3.Form := by
      unfold m3
      split
      · exact h2.dropCopies
      · exact h2
    exact ih h3

theorem Mach.Form.completeAtomic {m : Mach} {n : Nat} {o : Op} {k : AtomK} (h : m.Form) : (m.completeAtomic n o k).Form := by
  unfold Mach.completeAtomic
  extract_lets ps rs rel bad r olds failed fp m1 m2 m3 m4
  have h1 : m1.Form := h.atomLanes
  have h2 : m2.Form := by
    unfold m2
    split
    · exact h1.landRegs
    · exact h1
  have h3 : m3.Form := .ite h2 h2.orFpstat.noteDemotion
  have h4 : m4.Form := by
    unfold m4
    split
    · exact h3.acquire
    · exact h3
  exact .ite h h4.consume.finishOp

theorem Mach.Form.dropRoots {m : Mach} {ln ctx : Nat} (h : m.Form) : (m.dropRoots ln ctx).Form :=
  h.of_sub rfl (List.filter_subset_self _) le_rfl

theorem Mach.Form.updRed {m : Mach} {ln ctx : Nat} {f : RedCtx → RedCtx} (h : m.Form) : (m.updRed ln ctx f).Form := by
  unfold Mach.updRed
  exact h.updLaunch

theorem Mach.Form.completeRdet {m : Mach} {n : Nat} {o : Op} {ctx e k : Nat} {t : Ty} {vals : List (Option Word)} (h : m.Form) :
    (m.completeRdet n o ctx e k t vals).Form := by
  unfold Mach.completeRdet
  split
  · exact h.finishOp
  · extract_lets m1
    have h1 : m1.Form := h.finishOp
    split
    · exact h1
    · extract_lets v m2 pa w bs m3
      have h2 : m2.Form := .ite h h.orFpstat
      have h3 : m3.Form := h2.updRed
      split
      · exact .ite h.finishOp h
      · split
        · exact h2.finishOp
        · exact h1
        · split
          · exact h1
          · split
            · exact h
            · split
              · exact h2.homeWrite.finishOp
              · split
                · exact h
                · exact h.finishOp
                · exact .updOp (h3.of_eq rfl rfl le_rfl)

theorem Mach.Form.completeRclose {m : Mach} {n : Nat} {o : Op} {ctx d : Nat} (h : m.Form) :
    (m.completeRclose n o ctx d).Form := by
  unfold Mach.completeRclose
  extract_lets r v m1 m2
  have h1 : m1.Form := h.landRegs
  have h2 : m2.Form := by
    unfold m2
    split
    · exact h1.updTask
    · exact h1
  exact .ite h h2.finishOp

theorem Mach.Form.elementDone {m : Mach} {ln ctx e : Nat} (h : m.Form) : (m.elementDone ln ctx e).Form := by
  unfold Mach.elementDone
  exact h.updRed

theorem Mach.Form.sendRoot {m : Mach} {ln ctx e p pa : Nat} {r : RedCtx} {root : Word} (h : m.Form) :
    (m.sendRoot ln ctx e p pa r root).Form :=
  h.of_put rfl rfl rfl

theorem Mach.Form.completeCombine {m : Mach} {n : Nat} {o : Op} {ln ctx e : Nat} (h : m.Form) :
    (m.completeCombine n o ln ctx e).Form :=
  .ite h (h.delOp n).elementDone

theorem Mach.Form.arrive {m : Mach} {c : Issue} {act : Lanes} {b : Nat} {count : Word} (h : m.Form) :
    (m.arrive c act b count).Form := by
  unfold Mach.arrive
  extract_lets x m1
  have h1 : m1.Form := h.updTeam
  exact h1.released.endWaits

theorem Mach.Form.asCell {m : Mach} {t tk off : Nat} (h : m.Form) : (m.asCell t tk off).Form := by
  unfold Mach.asCell
  split
  · split
    · rename_i x1 free1 m1 e1
      have h1 : m1.Form := .of_pair h.takeBytes e1
      exact h1.cellWrite
  · exact h

theorem Mach.Form.leaveCell {m : Mach} {t tk off : Nat} (h : m.Form) : (m.leaveCell t tk off).Form := by
  unfold Mach.leaveCell
  split
  · split
    · rename_i x1 q1 m1 e1
      have h1 : m1.Form := .of_pair h.anyPool e1
      split
      · rename_i x2 free1 m2 e2
        have h2 : m2.Form := .of_pair h1.takeBytes e2
        split
        · rename_i x3 free2 m3 e3
          have h3 : m3.Form := .of_pair h2.takeBytes e3
          exact h3.lsWrite.placeWrite _ _
  · exact h

theorem Mach.Form.wakeCell {m : Mach} {tk off : Nat} (h : m.Form) : (m.wakeCell tk off).Form := by
  unfold Mach.wakeCell
  extract_lets gen ready deep m1
  have h1 : m1.Form := h.endWaits
  clear_value deep
  split
  · exact h1.acquire
  · exact h1

theorem Mach.Form.cellAdd {m : Mach} {tk off : Nat} {n : Word} {arm : Bool} (h : m.Form) : (m.cellAdd tk off n arm).Form := by
  unfold Mach.cellAdd
  extract_lets pend armed
  exact h.cellWrite.wakeCell

theorem Mach.Form.deliverBytes {m : Mach} {t tk off bytes : Nat} {scope : Scope} (h : m.Form) :
    (m.deliverBytes t tk off bytes scope).Form := by
  unfold Mach.deliverBytes
  extract_lets m1
  have h1 : m1.Form := .ite h.updTeam h
  exact h1.asCell.cellAdd.leaveCell

theorem Mach.Form.observe {m : Mach} {t core mask : Nat} {lanes : Lanes} (h : m.Form) : (m.observe t core mask lanes).Form := by
  unfold Mach.observe
  extract_lets acq m1 m2
  have h1 : m1.Form := h.updTask
  have h2 : m2.Form := h1.clearMarks
  exact .ite h2.acquire h2

theorem Mach.Form.enter {m : Mach} {tk w t : Nat} (h : m.Form) : (m.enter tk w t).Form := by
  unfold Mach.enter
  split
  · exact h
  · split
    · exact h
    · split
      · exact h
      · extract_lets m1 q m2
        have h1 : m1.Form := h.fetchInto
        have h2 : m2.Form := h1.updTask
        split
        · exact h1.raise.settle
        · split
          · exact h1
          · split
            · exact h1
            · extract_lets m3
              have h3 : m3.Form := h2.observe
              split
              · exact h3
              · extract_lets m4
                have h4 : m4.Form := h3.of_eq rfl rfl le_rfl
                exact h4.deliver.settle

end Sys2Proof.Machine
end

section
/-! What calls, spawns, engine operations and staging keep. -/

namespace Sys2Proof.Machine

variable {F C : Prop}

theorem Mach.Form.transfer {m : Mach} {i : Instr} {go : Issue → Lanes → List (Nat × DWord)} (h : m.Form) :
    (m.transfer i go).Form := by
  unfold Mach.transfer
  exact h.issue (fun _ _ _ g1 => g1)

theorem Mach.Form.callNow {m : Mach} {c : Issue} {n w : Nat} {mk : Bool} {p : CallPlan} (h : m.Form) :
    (m.callNow c n w mk p).2.Form := by
  unfold Mach.callNow
  extract_lets act ret clause __src q m1
  have h1 : m1.Form := h.updTask
  split
  · split
    · rename_i x1 ps1 m2 e1
      have h2 : m2.Form := .of_pair h.openCall e1
      exact h2
  · exact h1.of_eq rfl rfl (Nat.le_add_right _ _)

theorem Mach.Form.callOp {m0 : Mach} {i : Instr} {exact mk : Bool} {f : BitVec 5} {w : Reg} {go : Issue → Nat → DWord}
    (h : m0.Form) :
    (m0.callOp i exact mk f w go).Form := by
  unfold Mach.callOp
  extract_lets ts
  refine h.issue (fun c act m g1 => ?_)
  split
  · exact g1.callNow
  · exact g1

theorem Mach.Form.returnTo {m : Mach} {c : Issue} {act : Lanes} {ps : List Path} (h : m.Form) : (m.returnTo c act ps).Form := by
  unfold Mach.returnTo
  extract_lets m1 m2
  have h1 : m1.Form := h.updTask
  have h2 : m2.Form := h1.freeFrames
  refine h2.foldl fun m p g1 => ?_
  split
  · rename_i x1 q1 m3 e1
    have h3 : m3.Form := .of_pair g1.landPath e1
    exact h3.updTask

theorem Mach.Form.giveResults {m : Mach} {fr s : Nat} {l : Nat × Link} (h : m.Form) : (m.giveResults fr s l).Form := by
  unfold Mach.giveResults
  exact h.copyResults.updFrame

theorem Mach.Form.padResults {m : Mach} {fr s : Nat} {l : Nat × Link} (h : m.Form) : (m.padResults fr s l).Form := by
  unfold Mach.padResults
  extract_lets demand
  refine h.foldl fun m i g1 => ?_
  split
  · split
    · rename_i x1 v1 m1 e1
      have h1 : m1.Form := .of_pair g1.takeWord e1
      exact h1.updFrame
  · exact g1

theorem Mach.Form.finishTask {m : Mach} {c : Issue} {v : DWord} (h : m.Form) : (m.finishTask c v).Form := by
  unfold Mach.finishTask
  split
  · exact h.endTask
  · exact h.endTask

theorem Mach.Form.pushHot {m : Mach} {tk t : Nat} (h : m.Form) : (m.pushHot tk t).Form := by
  unfold Mach.pushHot
  exact h.updTeam

theorem Mach.Form.pushCold {m : Mach} {tk t : Nat} (h : m.Form) : (m.pushCold tk t).Form := by
  unfold Mach.pushCold
  exact h.updTeam

theorem Mach.Form.refill {m : Mach} {tk cap fuel : Nat} (h : m.Form) : (m.refill tk cap fuel).Form := by
  induction fuel generalizing m with
  | zero => exact h
  | succ fuel ih =>
    unfold Mach.refill
    split
    · exact h
    · split
      · exact h
      · split
        · exact h
        · exact ih (.pushHot (.updTeam (h.fresh.of_eq rfl rfl le_rfl)))

theorem Mach.Form.unqueue {m : Mach} {tk t : Nat} (h : m.Form) : (m.unqueue tk t).Form := by
  unfold Mach.unqueue
  extract_lets m1
  have h1 : m1.Form := h.of_sub rfl (List.filter_subset_self _) le_rfl
  exact h1.updTeam.refill

theorem Mach.Form.descBytes {m : Mach} {c : Issue} {addr : Nat} (h : m.Form) : (m.descBytes c addr).2.Form := by
  unfold Mach.descBytes
  exact h.taskRead

theorem Mach.Form.completeSpawnR {m : Mach} {n : Nat} {o : Op} {k : Desc} {peer d : Nat} (h : m.Form) :
    (m.completeSpawnR n o k peer d).Form := by
  unfold Mach.completeSpawnR
  split
  · exact h
  · extract_lets code asid cell
    split
    · rename_i m1 e1
      have h1 : m1.Form := by
        split at e1
        · cases e1
          exact h
        · exact h.cellNow e1
      exact h1.landRegs.finishOp
    · exact h.cellWaits

theorem Mach.Form.writeJoin {m : Mach} {fr : Nat} {act : Lanes} {ws : List (Nat × Word)} (h : m.Form) :
    (m.writeJoin fr act ws).Form := by
  unfold Mach.writeJoin
  exact h.updFrame

theorem Mach.Form.addWaiter {m : Mach} {pa : Nat} (h : m.Form) : (m.addWaiter pa).Form :=
  h.takeBytes.setMem (Memory.wf_writeN _ _ _ h.takeBytes.mem)

theorem Mach.Form.joinOp {m0 : Mach} {i : Instr} {trapping : Bool} {d a : Reg} (h : m0.Form) :
    (m0.joinOp i trapping d a).Form := by
  unfold Mach.joinOp
  refine h.issue (fun x act m g1 => ?_)
  split
  · exact g1
  · extract_lets m1 st
    have h1 : m1.Form := g1.consume.dropCopies
    split
    · exact h1.addWaiter
    · dsimp only
      exact h1.writeJoin.acquire

theorem Mach.Form.consumeParked {m : Mach} {k : Task} {p : Path} {bad : Bool} {addr : DWord} (h : m.Form) :
    (m.consumeParked k p bad addr).Form := by
  unfold Mach.consumeParked
  split
  · exact h.askKill
  · exact h

theorem Mach.Form.wakeJoins {m : Mach} {t cell : Nat} (h : m.Form) : (m.wakeJoins t cell).Form := by
  unfold Mach.wakeJoins
  split
  · exact h
  · extract_lets st v traps m1 core
    have h1 : m1.Form := by
      unfold m1
      refine h.foldl fun m p g1 => ?_
      split
      · split
        · extract_lets m2
          have h1 : m2.Form := g1.writeJoin
          split
          · exact h1.consume
          · exact h1.consumeParked
        · exact g1
      · exact g1
    exact h1.wakePaths.dropCopies.acquire

theorem Mach.Form.completeResolve {m : Mach} {n : Nat} {o : Op} {cell : Option Nat} {v : DWord} {d : Nat} (h : m.Form) :
    (m.completeResolve n o cell v d).Form := by
  unfold Mach.completeResolve
  split
  · exact h.finishOp
  · split
    · exact h
    · extract_lets bad
      split
      · rename_i x1 here1 m1 e1
        have h1 : m1.Form := .of_pair h.resolveCell e1
        extract_lets m2
        have h2 : m2.Form := h1.dropCopies.landRegs
        exact h2.consume.finishOp

theorem Mach.Form.completeFinOpen {m : Mach} {n : Nat} {o : Op} {sc p d : Nat} (h : m.Form) :
    (m.completeFinOpen n o sc p d).Form := by
  unfold Mach.completeFinOpen
  extract_lets ok m1
  have h1 : m1.Form := by
    unfold m1
    clear_value ok
    split
    · exact h.updLaunch
    · exact h
  exact h1.landRegs.finishOp

theorem Mach.Form.readVa {m : Mach} {asid va : Nat} {poison : Bool} {fuel n : Nat} (h : m.Form) :
    (m.readVa asid va poison fuel n).2.Form := by
  induction fuel generalizing m va poison n with
  | zero => exact h
  | succ fuel ih =>
    unfold Mach.readVa
    split
    · exact h
    · split
      · rename_i l m1 e1
        have h1 : m1.Form := .of_pair h.translateServiced e1
        extract_lets k
        split
        · rename_i bs p m2 e2
          have h2 : m2.Form := .of_pair (ih h1) e2
          dsimp only
          split
          · exact h2.takeBytes
          · exact h2
        · exact ih h1
      · rename_i m1 e1
        exact .of_pair h.translateServiced e1
      · rename_i m1 e1
        exact .of_pair h.translateServiced e1

theorem Mach.Form.readTte {m : Mach} {l : Launch} {typ : Nat} (h : m.Form) : (m.readTte l typ).2.Form := by
  unfold Mach.readTte
  extract_lets va
  split
  · rename_i x1 fst1 a1 m1 e1
    have h1 : m1.Form := .of_pair h.readVa e1
    exact h1
  · rename_i x1 bs1 snd1 m1 e1
    have h1 : m1.Form := .of_pair h.readVa e1
    split
    · exact h1
    · exact h1

theorem Mach.Form.stagingFault {m : Mach} {t cause addr k scope : Nat} {sv : Bool} (h : m.Form) :
    (m.stagingFault t cause addr k scope sv).Form := by
  unfold Mach.stagingFault
  split
  · exact h
  · split
    · extract_lets __src r
      exact h.unqueue.endTask

theorem Mach.Form.askFetch {m : Mach} {t : Nat} {x : Task} {core peer k pa n : Nat} (h : m.Form) :
    (m.askFetch t x core peer k pa n).Form :=
  .ite h (h.of_put rfl rfl rfl)

theorem Mach.Form.closureLine {m : Mach} {t : Nat} {x : Task} {core asid : Nat} (h : m.Form) :
    (m.closureLine t x core asid).2.Form := by
  unfold Mach.closureLine
  extract_lets va
  split
  · rename_i x1 l1 m1 e1
    have h1 : m1.Form := .of_pair h.translateServiced e1
    split
    · split
      · exact h1
      · exact h1.askFetch
    · exact h1
  · rename_i x1 fst1 m1 hc1 e1
    have h1 : m1.Form := .of_pair h.translateServiced e1
    exact h1

theorem Mach.Form.askRows {m : Mach} {t : Nat} {x : Task} {core asid : Nat} {line : List Byte} {opers : List (Nat × Oper)}
    (h : m.Form) : (m.askRows t x core asid line opers).2.Form := by
  induction opers generalizing m with
  | nil => exact h
  | cons k opers ih =>
    unfold Mach.askRows
    extract_lets p
    split
    rename_i here m1 e1
    have h1 : m1.Form := by
      refine .of_pair ?_ e1
      split
      · rename_i l m2 e2
        have h2 : m2.Form := .of_pair h.translateServiced e2
        split
        · split
          · exact h2
          · exact h2.askFetch
        · exact h2
      · rename_i m2 _ e2
        exact .of_pair h.translateServiced e2
    exact ih h1

theorem Mach.Form.stageRead {m : Mach} {t k core launch tk asid : Nat} {p : StagePlan} (h : m.Form) :
    (m.stageRead t k core launch tk asid p).2.Form := by
  unfold Mach.stageRead
  extract_lets foot
  split
  · rename_i x1 c1 m1 e1
    have h1 : m1.Form := .of_pair h.translateServiced e1
    exact h1
  · rename_i x1 page1 m1 e1
    have h1 : m1.Form := .of_pair h.translateServiced e1
    exact h1
  · rename_i x1 l1 m1 e1
    have h1 : m1.Form := .of_pair h.translateServiced e1
    extract_lets ps
    split
    · exact h1
    · split
      · exact h1
      · split
        · exact h1
        · split
          · rename_i x2 here1 m2 e2
            have h2 : m2.Form := .of_pair h1.roundTrip e2
            split
            · exact h2
            · split
              · extract_lets flawed
                clear_value flawed
                split
                · exact h2
                · exact h2

theorem Mach.Form.stageWrite {m : Mach} {tk dst : Nat} {rows : List (List Byte)} {poison : Bool} (h : m.Form) :
    (m.stageWrite tk dst rows poison).Form := by
  refine .foldl_pair h fun _ _ g => ?_
  dsimp only
  exact (g.placeWrite _ _).movePoison

theorem Mach.Form.stageOpers {m : Mach} {t : Nat} {x : Task} {core launch asid : Nat} {line : List Byte} {poison : Bool}
    {opers : List (Nat × Oper)} (h : m.Form) : (m.stageOpers t x core launch asid line poison opers).2.Form := by
  induction opers generalizing m with
  | nil => exact h
  | cons k opers ih =>
    unfold Mach.stageOpers
    extract_lets buf p
    split
    · exact h.stagingFault
    · split
      · rename_i m1 e1
        exact (Mach.Form.of_pair h.stageRead e1).stagingFault
      · rename_i m1 e1
        exact .of_pair h.stageRead e1
      · rename_i m1 e1
        exact ih (Mach.Form.of_pair h.stageRead e1).stageWrite.updTask

theorem Mach.Form.stageTask {m : Mach} {t : Nat} {all : Bool} (h : m.Form) : (m.stageTask t all).Form := by
  unfold Mach.stageTask
  split
  · exact h
  · split
    · split
      · exact h
      · split
        · exact h
        · extract_lets left opers
          split
          · exact h
          · split
            · rename_i m1 e1
              exact (Mach.Form.of_pair h.closureLine e1).stagingFault
            · rename_i m1 e1
              exact .of_pair h.closureLine e1
            · rename_i m1 e1
              have h1 : m1.Form := .of_pair h.closureLine e1
              split
              · rename_i m2 e2
                exact .of_pair h1.askRows e2
              · rename_i m2 e2
                have h2 : m2.Form := .of_pair h1.askRows e2
                split
                rename_i m3 e3
                have h3 : m3.Form := .of_pair h2.stageOpers e3
                exact .ite (h3.of_sub rfl (List.filter_subset_self _) le_rfl) h3
    · exact h

theorem Mach.Form.startStaging {m : Mach} {tk : Nat} {l : Launch} {ts : List Nat} (h : m.Form) :
    (m.startStaging tk l ts).Form := by
  induction ts generalizing m with
  | nil => exact h
  | cons t ts ih =>
    unfold Mach.startStaging
    split
    · exact ih h
    · split
      · rename_i m1 e1
        exact (Mach.Form.of_pair h.readTte e1).stagingFault
      · rename_i m1 e1
        have h1 : m1.Form := .of_pair h.readTte e1
        extract_lets pool fit
        clear_value fit
        split
        · exact ih h1
        · exact h1.updTask

theorem Mach.Form.writeFrom {m : Mach} {asid va base fuel n : Nat} (h : m.Form) : (m.writeFrom asid va base fuel n).2.Form := by
  induction fuel generalizing m va base n with
  | zero => exact h
  | succ fuel ih =>
    unfold Mach.writeFrom
    split
    · exact h
    · split
      · rename_i m1 e1
        exact ih ((Mach.Form.of_pair h.translateServiced e1).placeWrite _ _)
      · rename_i m1 e1
        exact .of_pair h.translateServiced e1
      · rename_i m1 e1
        exact .of_pair h.translateServiced e1

theorem Mach.Form.writeImage {m : Mach} {asid va n : Nat} (h : m.Form) : (m.writeImage asid va n).2.2.Form := by
  unfold Mach.writeImage
  extract_lets base
  split
  rename_i m1 e1
  dsimp only
  refine .of_pair (.writeFrom ?_) e1
  exact h.of_eq rfl rfl le_rfl

set_option maxRecDepth 600 in
theorem Mach.Form.spillImage {m : Mach} {tk n : Nat} {pair buf : Option Nat} (h : m.Form) :
    (m.spillImage tk n pair buf).2.Form := by
  unfold Mach.spillImage
  split
  · split
    · exact h
    · split
      · rename_i x1 c1 a1 fst1 m1 e1
        have h1 : m1.Form := .of_triple h.writeImage e1
        exact h1.askKill
      · rename_i x1 base1 m1 e1
        have h1 : m1.Form := .of_triple h.writeImage e1
        extract_lets i
        exact h1.updLaunch
  · exact h

theorem Mach.Form.refillBuffer {m : Mach} {tk off : Nat} {i : Image} (h : m.Form) : (m.refillBuffer tk off i).Form := by
  unfold Mach.refillBuffer
  exact h.updTeam

theorem Mach.Form.restoreBuffer {m : Mach} {t : Nat} (h : m.Form) : (m.restoreBuffer t).Form := by
  unfold Mach.restoreBuffer
  split
  · split
    · extract_lets m1 va
      have h1 : m1.Form := h.updTask.updLaunch
      split
      · extract_lets m2
        have h2 : m2.Form := h1.readBad
        split
        · exact h2.refillBuffer
        · split
          · rename_i x1 free1 m3 e1
            have h3 : m3.Form := .of_pair h2.takeBytes e1
            exact h3.lsWrite
      · exact h1
    · exact h
  · exact h

theorem Mach.Form.execLsShortage_spillOne {m : Mach} {tk : Nat} {queued : Option Nat} (h : m.Form) :
    (execLsShortage.spillOne m tk queued).Form := by
  unfold Machine.execLsShortage.spillOne
  extract_lets victim
  clear_value victim
  split
  · exact h
  · split
    · split
      · rename_i x1 pa1 m1 e1
        have h1 : m1.Form := .of_pair h.spillImage e1
        exact h1.updTask
      · rename_i x1 m1 e1
        have h1 : m1.Form := .of_pair h.spillImage e1
        split
        · exact h1
        · split
          · exact h.stagingFault
          · exact h

theorem Mach.Form.startTask {m : Mach} {tk w t : Nat} (h : m.Form) : (m.startTask tk w t).Form := by
  unfold Mach.startTask
  split
  · split
    · exact h
    · extract_lets fail
      have h_fail {c : Cause} {detail : DWord} : (fail c detail).Form := by
        unfold fail
        extract_lets __src r
        exact h.endTask.settle
      split
      · exact h_fail
      · split
        · exact h_fail
        · split
          · exact h_fail
          · split
            · exact h_fail
            · split
              · exact h_fail
              · split
                · rename_i x1 x2 m1 e1
                  have h1 : m1.Form := .of_pair h.newFrame e1
                  extract_lets m2 m3
                  have h2 : m2.Form := h1.updFrame
                  have h3 : m3.Form := h2.updTask
                  exact h3.updWarp
  · exact h

theorem Mach.Form.grant {m : Mach} {tk : Nat} {r : Request} (h : m.Form) : (m.grant tk r).Form := by
  unfold Mach.grant
  split
  · exact h.updWarp.startTask
  · extract_lets swap
    have h_swap {m : Mach} {ps : List Path} (g : m.Form) : (swap m ps).Form := g.updTask
    split
    · split
      · rename_i x1 ps1 m1 e1
        have h1 : m1.Form := .of_pair h.openCall e1
        exact (h_swap h1).settle
    · split
      · rename_i x1 q1 m1 e1
        have h1 : m1.Form := .of_pair h.openHandler e1
        exact (h_swap h1).settle
    · exact (h_swap h.restoreFrame).settle
    · exact h

theorem Mach.Form.spillFrames {m : Mach} {tk : Nat} {frs : List Nat} (h : m.Form) : (m.spillFrames tk frs).2.Form := by
  induction frs generalizing m with
  | nil => exact h
  | cons fr frs ih =>
    unfold Mach.spillFrames
    split
    · exact ih h
    · split
      · rename_i m1 e1
        have h1 : m1.Form := .of_pair h.spillImage e1
        split
        · rename_i m2 e2
          have h2 : m2.Form := by
            refine .of_pair ?_ e2
            split
            · exact h1.spillImage
            · exact h1
          exact ih h2.updFrame
        · rename_i m2 e2
          have h2 : m2.Form := by
            refine .of_pair ?_ e2
            split
            · exact h1.spillImage
            · exact h1
          dsimp only
          split
          · exact h2.updLaunch
          · exact h2
      · rename_i m1 e1
        exact .of_pair h.spillImage e1

theorem Mach.Form.spillFull {m : Mach} {tk : Nat} {r : Request} {detail : DWord} (h : m.Form) :
    (m.spillFull tk r detail).Form := by
  unfold Mach.spillFull
  split
  · extract_lets __src frec
    exact h.endTask.settle

theorem Mach.Form.stagedBytes {m : Mach} {x : Task} (h : m.Form) : (m.stagedBytes x).2.Form := by
  unfold Mach.stagedBytes
  split
  · split
    · rename_i x1 x2 m1 e1
      have h1 : m1.Form := .of_pair h.takeFree e1
      exact h1
  · exact h

theorem Mach.Form.unlockOp {m : Mach} {core n : Nat} (h : m.Form) : (m.unlockOp core n).Form := by
  unfold Mach.unlockOp
  exact h.updCore

theorem Mach.Form.flagAcq {m : Mach} {o : Op} {s : Scope} (h : m.Form) : (m.flagAcq o s).Form := by
  unfold Mach.flagAcq
  split
  · exact h.updTask
  · exact h

theorem Mach.Form.endEngine {m : Mach} {n : Nat} {o : Op} {scope : Scope} {dst : List (Place × Nat)} {cell : Option Nat}
    {bytes : Nat} {faults : List FaultRec} (h : m.Form) :
    (m.endEngine n o scope dst cell bytes faults).Form := by
  unfold Mach.endEngine
  extract_lets m1 m2
  have h1 : m1.Form := .ite h.l1dDrop h
  have h2 : m2.Form := h1.unlockOp.flagAcq.finishOp
  split
  · exact h2.deliverBytes
  · exact h2

theorem Mach.Form.copyBytes {m : Mach} {t : Nat} {src dst : Place} {n : Nat} (h : m.Form) : (m.copyBytes t src dst n).Form := by
  unfold Mach.copyBytes
  extract_lets bad
  split
  · rename_i x1 free1 m1 e1
    have h1 : m1.Form := .of_pair h.taskRead e1
    exact h1.taskWrite.movePoison

theorem Mach.Form.sendBytes {m : Mach} {t : Nat} {dst : Place} {bs : List Byte} {bad : Bool} (h : m.Form) :
    (m.sendBytes t dst bs bad).Form := by
  unfold Mach.sendBytes
  split
  · exact h.of_eq rfl rfl le_rfl
  · exact h.taskWrite.movePoison

theorem Mach.Form.copyPiece {m : Mach} {t : Nat} {done : List Nat} {u : Nat} {r : Place × Place × Nat} {reply : List Byte}
    {bad : Bool} (h : m.Form) :
    (m.copyPiece t done u r reply bad).Form := by
  unfold Mach.copyPiece
  split
  · exact h.sendBytes
  · split
    · split
      · rename_i x1 free1 m1 e1
        have h1 : m1.Form := .of_pair h.taskRead e1
        exact h1.sendBytes
    · extract_lets m1
      have h1 : m1.Form := h.foldl fun _ _ g1 => g1.copyBytes
      exact .ite h1 h1.movePoison

theorem Mach.Form.copyPieces {m : Mach} {t u : Nat} {done : List Nat} {bad : Bool} {rs : List (Place × Place × Nat)}
    {reply : List Byte} (h : m.Form) : (m.copyPieces t done bad u rs reply).Form := by
  induction rs generalizing m u reply with
  | nil => exact h
  | cons r rs ih => exact ih h.copyPiece

theorem Mach.Form.smear {m : Mach} {p : Place} {n : Nat} (h : m.Form) : (m.smear p n).Form := by
  unfold Mach.smear
  split
  · exact h
  · split
    · rename_i x1 free1 m1 e1
      have h1 : m1.Form := .of_pair h.takeBytes e1
      exact h1.placeWrite _ _

end Sys2Proof.Machine
end

section
/-! What the end of engine operations, collectives, the matrix unit and event records keep. -/

namespace Sys2Proof.Machine

variable {F C : Prop}

theorem Mach.Form.completeEngine {m : Mach} {n : Nat} {o : Op} {k : EngineK} (h : m.Form) : (m.completeEngine n o k).Form := by
  unfold Mach.completeEngine
  extract_lets dst m1 m2 srcs m3
  have h1 : m1.Form := h.foldl fun _ _ g1 => g1.smear
  have h2 : m2.Form := h.copyPieces
  have h3 : m3.Form := .ite (h2.foldl fun _ _ g1 => g1.blur) h2
  exact .ite h1.endEngine (.ite (.ite h.endEngine h) (.ite h (.ite h3.updOp h3.endEngine)))

theorem Mach.Form.moveUnit {m : Mach} {n u : Nat} (h : m.Form) : (m.moveUnit n u).Form := by
  unfold Mach.moveUnit
  split
  · exact h.stageTask
  · split
    · split
      · exact h
      · exact .ite h h.copyBytes.updOp
    · exact h.tileUnit
    · extract_lets src out
      clear_value src
      split
      · exact h
      · exact .ite h h.copyBytes.updOp
    · exact h

theorem Mach.Form.engineOp {m0 : Mach} {i : Instr} {plan : Mach → Issue → Lanes → Except Chk EnginePlan} (h : m0.Form) :
    (m0.engineOp i plan).Form := by
  unfold Mach.engineOp
  refine h.act (fun c act m g1 => ?_)
  split
  · exact g1
  · extract_lets m1 n ps m2 m3
    have h1 : m1.Form := g1.of_eq rfl rfl le_rfl
    have h2 : m2.Form := h1.send.startOp _ _ _ _ _
    have h3 : m3.Form := by
      unfold m3
      split
      · exact h2.askPeers
      · exact h2.askPeers
      · exact h2
    split
    · split
      · exact h3.completeEngine
      · exact h3
    · exact h3.updCore

theorem Mach.Form.writeRows {m : Mach} {k : StageK} {t : Nat} {out : Place} {bs : List Byte} (h : m.Form) :
    (StageK.writeRows k m t out bs).Form := by
  unfold Machine.StageK.writeRows
  exact .ite h.taskWrite (h.foldl fun _ _ g1 => g1.taskWrite)

theorem Mach.Form.completeStage {m : Mach} {n : Nat} {o : Op} {k : StageK} (h : m.Form) : (m.completeStage n o k).Form := by
  unfold Mach.completeStage
  extract_lets older out len fail rows flawed bad m1
  have h_fail {cause : Nat} {at_ : Nat} {pos : Nat} : (fail cause at_ pos).Form := by
    unfold fail
    extract_lets __src r
    exact h.smear.unlockOp.finishOp
  have h1 : m1.Form := h.writeRows
  split
  · exact h
  · split
    · exact .ite h.smear.endEngine h_fail
    · split
      · exact h
      · clear_value flawed
        split
        · exact h_fail
        · exact .endEngine (.ite h1.movePoison h1)

theorem Mach.Form.admitColls {m : Mach} {launch g : Nat} (h : m.Form) : (m.admitColls launch g).Form := by
  unfold Mach.admitColls
  extract_lets ops
  exact h.updLaunch

theorem Mach.Form.endColl {m : Mach} {n : Nat} {rec : List Byte} {bytes : Nat} (h : m.Form) : (m.endColl n rec bytes).Form := by
  unfold Mach.endColl
  split
  · exact h
  · split
    · extract_lets m1
      have h1 : m1.Form := .ite h (h.placeWrite _ _)
      exact h1.endEngine
    · exact h

theorem Mach.Form.piecesRead {m : Mach} {t : Nat} {bad : Bool} {ps : List (Place × Nat)} {reply : List Byte} (h : m.Form) :
    (m.piecesRead t bad ps reply).2.Form := by
  induction ps generalizing m reply with
  | nil => exact h
  | cons p ps ih =>
    unfold Mach.piecesRead
    extract_lets peer
    split
    rename_i bs m1 e1
    have h1 : m1.Form := by
      refine .of_pair ?_ e1
      split
      · exact h
      · exact h.taskRead
    exact ih h1

theorem Mach.Form.piecesWrite {m : Mach} {t : Nat} {ps : List (Place × Nat)} {bs : Cargo} (h : m.Form) :
    (m.piecesWrite t ps bs).Form := by
  induction ps generalizing m bs with
  | nil => exact h
  | cons p ps ih =>
    unfold Mach.piecesWrite
    extract_lets chunk m1
    have h1 : m1.Form := by
      unfold m1
      split
      · exact h.of_eq rfl rfl le_rfl
      · exact h.taskWrite.foldl fun _ _ g => .ite g.movePoison g
    exact ih h1

theorem Mach.Form.closeColl {m : Mach} {launch g : Nat} (h : m.Form) : (m.closeColl launch g).Form := by
  unfold Mach.closeColl
  exact h.updLaunch.admitColls

theorem Mach.Form.readSources {m : Mach} {os : List (Nat × Op × CollK)} (h : m.Form) : (m.readSources os).2.Form := by
  induction os generalizing m with
  | nil => exact h
  | cons o os ih => exact ih h.piecesRead

theorem Mach.Form.finishColl {m : Mach} {launch g : Nat} {ms : List (Nat × Op × CollK)} (h : m.Form) :
    (m.finishColl launch g ms).Form := by
  unfold Mach.finishColl
  exact (h.foldl fun _ _ g1 => g1.endColl).closeColl

theorem Mach.Form.commitColl {m : Mach} {launch g : Nat} {k : Collective} (h : m.Form) : (m.commitColl launch g k).Form := by
  unfold Mach.commitColl
  extract_lets ms from_
  split
  · rename_i x1 cs1 m1 e1
    have h1 : m1.Form := .of_pair h.readSources e1
    extract_lets m2 m3
    have h2 : m2.Form := h1.foldl fun _ _ g1 => g1.piecesWrite
    have h3 : m3.Form := h2.foldl fun _ _ g1 => g1.foldl fun _ _ g2 => g2.blur
    exact .ite h3.updLaunch h3.finishColl

theorem Mach.Form.collBack {m : Mach} {ms : List (Nat × Op × CollK)} (h : m.Form) : (m.collBack ms).2.Form :=
  .foldl_pair h fun _ _ g => g.backOver

theorem Mach.Form.failColl {m : Mach} {launch g cause : Nat} {failed : List Nat} (h : m.Form) :
    (m.failColl launch g cause failed).Form := by
  unfold Mach.failColl
  split
  · exact h
  · split
    · exact h
    · extract_lets ms mask late m1 m2 m3
      have h1 : m1.Form := h.updLaunch
      have h2 : m2.Form := h1.foldl fun _ _ g1 => .ite g1 (g1.foldl fun _ _ g2 => g2.smear)
      have h3 : m3.Form := h2.foldl fun _ _ g1 => g1.endColl
      exact h3.closeColl

theorem Mach.Form.lateColl {m : Mach} {n : Nat} {k : CollK} {cause : Nat} {mask : DWord} (h : m.Form) :
    (m.lateColl n k cause mask).Form := by
  unfold Mach.lateColl
  exact (h.foldl fun _ _ g1 => g1.smear).endColl

theorem Mach.Form.firstUse {m : Mach} {tk : Nat} {slots : List Nat} (h : m.Form) : (m.firstUse tk slots).Form := by
  unfold Mach.firstUse
  refine h.foldl fun m k g1 => ?_
  split
  · exact g1
  · split
    · exact g1
    · extract_lets m1
      have h1 : m1.Form := g1.updCore
      exact h1.updTeam

theorem Mach.Form.writeVa {m : Mach} {asid va fuel : Nat} {bs : List Byte} (h : m.Form) : (m.writeVa asid va fuel bs).2.Form := by
  induction fuel generalizing m va bs with
  | zero => exact h
  | succ fuel ih =>
    unfold Mach.writeVa
    split
    · exact h
    · split
      · rename_i l m1 e1
        have h1 : m1.Form := .of_pair h.translateServiced e1
        extract_lets k m2
        have h2 : m2.Form := by
          unfold m2
          split
          · exact h1.of_eq rfl rfl le_rfl
          · exact h1.placeWrite _ _
        exact ih h2
      · rename_i m1 e1
        exact .of_pair h.translateServiced e1
      · rename_i m1 e1
        exact .of_pair h.translateServiced e1

set_option maxRecDepth 600 in
theorem Mach.Form.spillSlot {m : Mach} {core p : Nat} (h : m.Form) : (m.spillSlot core p).Form := by
  unfold Mach.spillSlot
  extract_lets o clear
  have h_clear {m : Mach} (g : m.Form) : (clear m).Form := g.updCore
  split
  · exact h_clear h
  · split
    · exact h_clear h
    · extract_lets twin own
      have h1 : twin.2.Form := by
        unfold twin
        split
        · exact h.writeVa
        · exact h
      have h2 : own.2.Form := h1.writeVa
      split
      · rename_i x1 m1 c1 a1 e1
        exact (h_clear h2).askKill
      · rename_i x1 m1 e1
        exact (h_clear h2).updTeam

theorem Mach.Form.loadSlot {m : Mach} {tk w k p : Nat} (h : m.Form) : (m.loadSlot tk w k p).Form := by
  unfold Mach.loadSlot
  split
  · extract_lets own
    have h_own {m : Mach} (g : m.Form) : (own m).Form := g.updCore
    split
    · split
      · rename_i x1 twin1 m1 e1
        have h1 : m1.Form := by
          refine .of_pair ?_ e1
          split
          · exact h.readVa
          · exact h
        split
        · rename_i twin1 x2 c1 a1 fst1 m2 e2
          have h2 : m2.Form := .of_pair h1.readVa e2
          exact h2.askKill
        · rename_i twin1 twin2 x2 c1 a1 m2 hc1 e2
          have h2 : m2.Form := .of_pair h1.readVa e2
          exact h2.askKill
        · rename_i twin1 x2 bs21 bad21 bs1 bad1 m2 e2
          have h2 : m2.Form := .of_pair h1.readVa e2
          extract_lets m3
          have h3 : m3.Form := h2.consume.updCore
          exact (h_own h3).updTeam
    · exact h_own h.updCore
  · exact h

theorem Mach.Form.dropAcc {m : Mach} {tk : Nat} (h : m.Form) : (m.dropAcc tk).Form := by
  unfold Mach.dropAcc
  split
  · exact h
  · extract_lets m1
    have h1 : m1.Form := h.of_eq rfl rfl le_rfl
    exact h1.updTeam

theorem Mach.Form.updToken {m : Mach} {tk k : Nat} {f : Token → Token} (h : m.Form) : (m.updToken tk k f).Form := by
  unfold Mach.updToken
  exact h.updTeam

theorem Mach.Form.completeAccAcq {m : Mach} {n : Nat} {o : Op} {k : Nat} (h : m.Form) : (m.completeAccAcq n o k).Form := by
  unfold Mach.completeAccAcq
  extract_lets ended
  exact .ite h.finishOp h

theorem Mach.Form.acqDone {m : Mach} {tk k t : Nat} (h : m.Form) : (m.acqDone tk k t).Form := by
  unfold Mach.acqDone
  exact h.foldl fun _ _ g1 => g1.finishOp

theorem Mach.Form.thenFirstUse {m after : Mach} {ks : List Nat} (ha : after.Form) : (m.thenFirstUse ks after).Form := by
  unfold Mach.thenFirstUse
  split
  · exact .ite ha.firstUse ha
  · exact ha

theorem Mach.Form.completeAccStore {m : Mach} {n : Nat} {o : Op} {rows : List (Nat × List Byte)} (h : m.Form) :
    (m.completeAccStore n o rows).Form := by
  unfold Mach.completeAccStore
  exact .ite h ((h.foldl fun _ _ g1 => g1.taskWrite).endEngine)

theorem Mach.Form.mma {m : Mach} {i : Instr} {r : MmaReq} (h : m.Form) : (m.mma i r).Form :=
  .thenFirstUse h.engineOp

theorem Mach.Form.askUnit {m : Mach} {n : Nat} {k : MmaK} {pa len : Nat} (h : m.Form) : (m.askUnit n k pa len).Form := by
  unfold Mach.askUnit
  split
  · exact h
  · extract_lets m1
    have h1 : m1.Form := h.updOp
    exact h1.of_eq rfl rfl le_rfl

theorem Mach.Form.takeUnit {m : Mach} {n : Nat} {o : Op} {k : MmaK} {pa len : Nat} (h : m.Form) :
    (m.takeUnit n o k pa len).Form := by
  unfold Mach.takeUnit
  exact h.updOp

theorem Mach.Form.endUnit {m : Mach} {n : Nat} {o : Op} {k : MmaK} {rs : List FaultRec} (h : m.Form) :
    (m.endUnit n o k rs).Form := by
  unfold Mach.endUnit
  exact h.unlockOp.updOp.dropFlag

theorem Mach.Form.completeMmaRead {m : Mach} {n : Nat} {o : Op} {k : MmaK} (h : m.Form) : (m.completeMmaRead n o k).Form := by
  unfold Mach.completeMmaRead
  extract_lets x asid priv places ads stall ask read adapters
  have h_read {m : Mach} {p : Option Place} {len : Nat} (g : m.Form) : (read m p len).2.Form := by
    unfold read
    split
    · exact g.taskRead
    · exact g
  split
  · exact h.takeUnit
  · exact h
  · split
    · exact h
    · clear_value stall ask
      split
      · exact h.stallOn
      · exact h.askUnit
      · split
        rename_i m1 e1
        have h1 : m1.Form := .of_pair (h_read h) e1
        split
        rename_i m2 e2
        have h2 : m2.Form := .of_pair (h_read h1) e2
        extract_lets faults bad
        split
        rename_i m3 e3
        have h3 : m3.Form := by
          refine .of_pair ?_ e3
          split
          · exact h2
          · exact h2.takeFree
        exact h3.consume.endUnit

theorem Mach.Form.wakeSleepers {m : Mach} {tk : Nat} (h : m.Form) : (m.wakeSleepers tk).Form := by
  unfold Mach.wakeSleepers
  exact h.of_eq rfl rfl le_rfl

theorem Mach.Form.trimReplicas {m : Mach} {die : Nat} (h : m.Form) : (m.trimReplicas die).Form := by
  unfold Mach.trimReplicas
  refine h.foldl fun m e g1 => ?_
  split
  · exact g1
  · extract_lets peers
    split
    · exact g1
    · split
      · rename_i x1 pa1 m1 e1
        have h1 : m1.Form := .of_pair g1.anyOf e1
        exact h1.l2Evict
      · rename_i x1 m1 e1
        have h1 : m1.Form := .of_pair g1.anyOf e1
        exact h1

theorem Mach.Form.writeRplctl {m : Mach} {die : Nat} {v : Word} (h : m.Form) : (m.writeRplctl die v).Form := by
  unfold Mach.writeRplctl
  extract_lets m1
  have h1 : m1.Form := h.of_eq rfl rfl le_rfl
  exact .ite h1.trimReplicas h1.dropReplicas

theorem State.Kept.writeScrbctl {s : State} {stack : Nat} {v : Word} (h : s.Kept F C) : (s.writeScrbctl stack v).Kept F C := by
  unfold State.writeScrbctl
  exact h.of_eq rfl rfl

theorem State.Kept.mgmtWrite {s : State} {die port off : Nat} {v : Word} (h : s.Kept F C) :
    (s.mgmtWrite die port off v).Kept F C := by
  unfold State.mgmtWrite
  exact .ite (.ite (h.of_eq rfl rfl) (.ite (h.withM (fun hF => (h.form hF).of_eq rfl rfl le_rfl) rfl) h))
      (.ite (.ite (h.withM (fun hF => (h.form hF).writeRplctl) rfl) (.ite h.writeScrbctl h)) h)

theorem Mach.Form.beginSave {m : Mach} {tk : Nat} (h : m.Form) : (m.beginSave tk).Form := by
  unfold Mach.beginSave
  exact h.updTeam.wakeSleepers

theorem State.Kept.putRec {s : State} {n : Nat} {q : EvQueue} {r : EvRec} (h : s.Kept F C) : (s.putRec n q r).Kept F C := by
  unfold State.putRec
  extract_lets size bs s1
  have h1 : s1.Kept F C := h.updM fun g1 => g1.placeWrite _ _
  exact h1.updHub rfl

theorem State.Kept.drainRecs {s : State} {n : Nat} {rs : List EvRec} (h : s.Kept F C) : (s.drainRecs n rs).Kept F C := by
  induction rs generalizing s with
  | nil => exact h
  | cons r rs ih =>
    unfold State.drainRecs
    split
    · exact h
    · exact .ite (ih h.putRec) h

theorem State.Kept.flushQueue {s : State} {n : Nat} (h : s.Kept F C) : (s.flushQueue n).Kept F C := by
  unfold State.flushQueue
  exact h.drainRecs

theorem State.Kept.post {s : State} {n : Nat} {r : EvRec} (h : s.Kept F C) : (s.post n r).Kept F C := by
  unfold State.post
  extract_lets n2 s1
  have h1 : s1.Kept F C := h.flushQueue
  split
  · exact h1.updHub rfl
  · exact .ite h1.putRec (h1.updHub rfl)

theorem State.Kept.event {s : State} {qs : List Nat} {typ : Nat} {data : DWord} (h : s.Kept F C) :
    (s.event qs typ data).Kept F C := by
  unfold State.event
  extract_lets s1 r
  have h1 : s1.Kept F C := h.updHub rfl
  exact h1.foldl fun _ _ g1 => g1.post

theorem State.Kept.capacityChange {s : State} {u : UnitRef} (h : s.Kept F C) : (s.capacityChange u).Kept F C := by
  unfold State.capacityChange
  extract_lets s1 seq word s2
  have h1 : s1.Kept F C := h.updHub rfl
  have h2 : s2.Kept F C := h1.updM fun g1 => g1.of_eq rfl rfl le_rfl
  exact h2.event

theorem Hub.requestLease_freq (x : Hub) (u : UnitRef) : (x.requestLease u).2.freq = x.freq := by
  unfold Hub.requestLease
  split <;> rfl

theorem Hub.seekLeases_freq (x : Hub) : x.seekLeases.freq = x.freq := by
  unfold Hub.seekLeases
  extract_lets limit
  split
  · rfl
  · refine List.foldlRecOn (motive := fun y : Hub => y.freq = x.freq) _ _ rfl fun y hy e _ => ?_
    dsimp only
    split_ifs
    · exact hy
    · exact (Hub.requestLease_freq _ _).trans hy
    · exact hy
    · exact (Hub.requestLease_freq _ _).trans hy

theorem State.Kept.charge {s : State} {u : UnitRef} {n : Nat} (h : s.Kept F C) : (s.charge u n).Kept F C := by
  unfold State.charge
  extract_lets new s1 s2
  have h1 : s1.Kept F C := h.updHub rfl
  have h2 : s2.Kept F C := .ite h1.event h1
  exact .ite h (h2.updHub (Hub.seekLeases_freq _))

theorem Mach.Form.dropTask {m : Mach} {t launch : Nat} {d : Desc} {cause : Nat} {addr : DWord} (h : m.Form) :
    (m.dropTask t launch d cause addr).Form := by
  unfold Mach.dropTask
  extract_lets m1
  have h1 : m1.Form := .ite h.resolveFuture h
  exact h1.updLaunch

theorem Mach.Form.stopTasks {m : Mach} {tk launch : Nat} {keep : Bool} {cause : Nat} {addr : DWord} (h : m.Form) :
    (m.stopTasks tk launch keep cause addr).Form := by
  unfold Mach.stopTasks
  extract_lets ts live images old m1 m2 m3 m4
  have h1 : m1.Form := h.updTeam
  have h2 : m2.Form := h1.foldl fun _ _ g1 => g1.dropTask
  have h3 : m3.Form := .ite h.updTeam (h2.foldl fun _ _ g1 => g1.dropTask)
  have h4 : m4.Form := h3.updLaunch
  exact h4.of_eq rfl rfl le_rfl

theorem Mach.Form.stopOps {m : Mach} {tk : Nat} {cells : Bool} (h : m.Form) : (m.stopOps tk cells).Form := by
  refine h.of_ops rfl fun o ho => ?_
  obtain ⟨x, hx, rfl⟩ := List.mem_map.1 ho
  exact h.ops x (List.mem_of_mem_filter hx)

theorem Mach.Form.stopSteal {m : Mach} {tk launch : Nat} {keep : Bool} {cause : Nat} {addr : DWord} (h : m.Form) :
    (m.stopSteal tk launch keep cause addr).Form := by
  unfold Mach.stopSteal
  split
  · exact h
  · extract_lets m1
    have h1 : m1.Form := by
      unfold m1
      split
      · split
        · extract_lets m2
          have h1 : m2.Form := h.of_eq rfl rfl le_rfl
          exact .ite h1.updTeam h1.dropTask
        · exact h
      · exact h
    exact h1.updTeam

end Sys2Proof.Machine
end

section
/-! What kills, decay, launches and domains keep. -/

namespace Sys2Proof.Machine

variable {F C : Prop}

theorem Mach.Form.stopTeam {m : Mach} {tk : Nat} {keep cells : Bool} {cause : Nat} {addr : DWord} {res : Residency} (h : m.Form) :
    (m.stopTeam tk keep cells cause addr res).Form := by
  unfold Mach.stopTeam
  split
  · exact h
  · extract_lets m1 m2
    have h1 : m1.Form := h.stopSteal.stopTasks.stopOps.dropAcc
    have h2 : m2.Form := h1.of_eq rfl rfl le_rfl
    exact h2.updTeam

theorem Mach.Form.failContexts {m : Mach} {launch : Nat} {ixs : List Nat} (h : m.Form) : (m.failContexts launch ixs).Form := by
  unfold Mach.failContexts
  exact h.updLaunch

theorem Mach.Form.failMember {m : Mach} {launch cl : Nat} (h : m.Form) : (m.failMember launch cl).Form := by
  unfold Mach.failMember
  split
  · exact h
  · exact h.foldl fun _ _ g1 => .ite g1.failColl g1

theorem Mach.Form.failAbsent {m : Mach} {launch : Nat} (h : m.Form) : (m.failAbsent launch).Form := by
  unfold Mach.failAbsent
  split
  · exact h
  · exact h.foldl fun _ _ g1 => .ite g1 g1.failColl

theorem Mach.Form.stopGang {m : Mach} {launch gang : Nat} {keep : Bool} {cause : Nat} {addr : DWord} {victim : Option Nat}
    (h : m.Form) :
    (m.stopGang launch gang keep cause addr victim).Form := by
  unfold Mach.stopGang
  extract_lets tks ts m1 m2 m3
  have h1 : m1.Form := h.failContexts
  have h2 : m2.Form := by
    unfold m2
    refine h1.foldl fun m tk g1 => ?_
    split
    · exact g1.stopTeam
    · exact g1
  have h3 : m3.Form := h2.foldl fun _ _ g1 => g1.failMember
  exact .ite h3.updLaunch h3

theorem State.Kept.killGang {s : State} {ln g : Nat} (h : s.Kept F C) : (s.killGang ln g).Kept F C := by
  unfold State.killGang
  extract_lets left m1 m2 ended
  have h1 (hF : F) : m1.Form := h.form hF
  have h2 (hF : F) : m2.Form := (h1 hF).of_eq rfl rfl le_rfl
  split
  · split
    · exact h.withM h2 rfl
    · extract_lets m3 m4 s1
      have h3 (hF : F) : m3.Form := (h2 hF).stopGang
      have h4 (hF : F) : m4.Form := (h3 hF).updLaunch
      have h5 : s1.Kept F C := h.withM (fun hF => (h4 hF).wakeScopes) rfl
      split
      · split
        · exact h5.charge
        · exact h5
      · exact h5
  · exact h.withM h2 rfl

theorem Mach.Form.seatWarps {m : Mach} {tk : Nat} (h : m.Form) : (m.seatWarps tk).Form := by
  unfold Mach.seatWarps
  extract_lets m1
  have h1 : m1.Form := h.of_eq rfl rfl le_rfl
  exact h1.foldl fun _ _ g1 => g1.settle

theorem State.Kept.closeInbox {s : State} {ln : Nat} (h : s.Kept F C) : (s.closeInbox ln).Kept F C := by
  unfold State.closeInbox
  split
  · exact h
  · split
    · exact h
    · extract_lets gen m1 m2
      have h2 (hF : F) : m2.Form := (h.form hF).updLaunch.foldl fun _ _ g => g.dropTask
      exact .updHub (h.withM h2 rfl) rfl

theorem Mach.Form.writeLcr {m : Mach} {l : Launch} (h : m.Form) : (m.writeLcr l).Form := by
  unfold Mach.writeLcr
  split
  · split
    · split
      · rename_i x1 m1 e1
        have h1 : m1.Form := .of_pair h.writeVa e1
        exact h1
      · rename_i x1 val1 m1 e1
        have h1 : m1.Form := .of_pair h.writeVa e1
        exact h
    · exact h
  · exact h

theorem State.Kept.endLaunch {s : State} {ln : Nat} (h : s.Kept F C) : (s.endLaunch ln).Kept F C := by
  unfold State.endLaunch
  split
  · exact h
  · extract_lets tks m1 m2 s1 s2 s3
    have h1 (hF : F) : m1.Form := (h.form hF).foldl fun _ _ g1 => g1.stopTeam
    have h2 (hF : F) : m2.Form := (h1 hF).failAbsent
    have h3 : s1.Kept F C := .closeInbox (h.withM h2 rfl)
    have h4 : s2.Kept F C := h3.updM fun g1 => g1.writeLcr
    have h5 : s3.Kept F C := by
      refine h4.updM fun g1 => ?_
      exact g1.of_map rfl rfl (fun _ => rfl) le_rfl
    exact h5.event

theorem State.Kept.stopLaunch {s : State} {ln status : Nat} (h : s.Kept F C) : (s.stopLaunch ln status).2.Kept F C := by
  unfold State.stopLaunch
  split
  · exact h
  · split
    · exact h
    · extract_lets tks m1 m2 m3
      have h1 (hF : F) : m1.Form := (h.form hF).failContexts
      have h2 (hF : F) : m2.Form := (h1 hF).foldl fun _ _ g1 => g1.stopTeam
      have h3 (hF : F) : m3.Form := (h2 hF).updLaunch
      exact .closeInbox (h.withM (fun hF => (h3 hF).failAbsent) rfl)

theorem State.Kept.rebindTeam {s : State} {tk : Nat} (h : s.Kept F C) : (s.rebindTeam tk).Kept F C := by
  unfold State.rebindTeam
  split
  · extract_lets cands
    clear_value cands
    split
    · exact h
    · exact (h.updM fun g1 => g1.updTeam).capacityChange
  · exact h

theorem State.Kept.rebindGang {s : State} {launch gang : Nat} (h : s.Kept F C) : (s.rebindGang launch gang).Kept F C := by
  unfold State.rebindGang
  split
  · exact h
  · extract_lets tks others
    split
    · exact (h.updM fun g1 => g1.foldl fun _ _ g2 => g2.updTeam).capacityChange
    · exact h

theorem State.Kept.rebindAll {s : State} {tks : List Nat} (h : s.Kept F C) : (s.rebindAll tks).Kept F C := by
  unfold State.rebindAll
  refine h.foldl fun s tk g1 => ?_
  split
  · exact .ite g1 (.ite g1.rebindTeam g1.rebindGang)
  · exact g1

theorem State.Kept.rebind {s : State} (h : s.Kept F C) : s.rebind.Kept F C := by
  unfold State.rebind
  exact h.rebindAll

theorem Mach.Form.mapSlots {m : Mach} {tk : Nat} (h : m.Form) : (m.mapSlots tk).Form := by
  unfold Mach.mapSlots
  split
  · extract_lets ks held own kept lost m1 free c empty mp
    have h1 : m1.Form := h.foldl fun _ _ g1 => g1.spillSlot
    exact h1.updTeam
  · exact h

theorem State.Kept.enterCore {s : State} {tk : Nat} {newcomer : Bool} (h : s.Kept F C) : (s.enterCore tk newcomer).Kept F C := by
  unfold State.enterCore
  split
  · exact h
  · extract_lets part first s1
    have h1 : s1.Kept F C := h.updM fun g1 => g1.mapSlots.updTeam.seatWarps
    exact .ite (h1.updM fun g1 => g1.updCore) h1

theorem State.Kept.takeCore {s : State} {tk : Nat} {newcomer : Bool} (h : s.Kept F C) : (s.takeCore tk newcomer).Kept F C := by
  unfold State.takeCore
  split
  · exact .ite h.enterCore (h.updM fun g1 => g1.updTeam)
  · exact h

theorem State.Kept.admitChosen {s : State} {core : Nat} (h : s.Kept F C) : (s.admitChosen core).Kept F C := by
  unfold State.admitChosen
  extract_lets ts order
  refine h.foldl fun s tk g1 => ?_
  extract_lets c
  exact .ite g1.takeCore g1

theorem State.Kept.preempt {s : State} {tk : Nat} {deadline : Option Nat} (h : s.Kept F C) :
    (s.preempt tk deadline).Kept F C := by
  unfold State.preempt
  split
  · exact h
  · split
    · exact h
    · split
      · extract_lets cap limit
        exact h.updM fun g1 => g1.updTeam.wakeSleepers
      · exact h.updM fun g1 => g1.beginSave
      · exact h.updM fun g1 => g1.stopGang

theorem Mach.Form.newImage {m : Mach} {t : Team} {phys : Bool} {addr n : Nat} (h : m.Form) :
    (m.newImage t phys addr n).2.Form := by
  unfold Mach.newImage
  extract_lets locks
  split
  · rename_i x1 x2 m1 e1
    have h1 : m1.Form := .of_pair h.takeFree e1
    exact h1.of_eq rfl rfl le_rfl

theorem Mach.Form.unseat {m : Mach} {tk : Nat} {i : SavedImage} (h : m.Form) : (m.unseat tk i).Form := by
  unfold Mach.unseat
  extract_lets m1
  have h1 : m1.Form := h.of_eq rfl rfl le_rfl
  exact h1.updTeam

set_option maxRecDepth 600 in
theorem Mach.Form.saveTeam {m : Mach} {tk : Nat} (h : m.Form) : (m.saveTeam tk).Form := by
  unfold Mach.saveTeam
  split
  · split
    · rename_i x1 i1 m1 e1
      have h1 : m1.Form := .of_pair h.newImage e1
      split
      · rename_i x2 c1 a1 m2 e2
        have h2 : m2.Form := .of_pair h1.writeVa e2
        exact h2.askKill
      · rename_i x2 m2 e2
        have h2 : m2.Form := .of_pair h1.writeVa e2
        exact h2.unseat
  · exact h

theorem Mach.Form.scramble {m : Mach} {tk : Nat} (h : m.Form) : (m.scramble tk).Form := by
  unfold Mach.scramble
  extract_lets mine m1 m2
  have h1 : m1.Form := h.foldl fun _ _ g1 => g1.strayFrame
  have h2 : m2.Form := h1.foldl fun _ _ g1 => .updTask (g1.of_eq rfl rfl le_rfl)
  split
  · rename_i x1 free1 m3 e1
    have h3 : m3.Form := .of_pair h2.takeBytes e1
    extract_lets x
    exact .lsWrite (.updTeam (h3.of_eq rfl rfl le_rfl))

theorem State.Kept.restoreTeam {s : State} {tk : Nat} {stands : Bool} (h : s.Kept F C) : (s.restoreTeam tk stands).Kept F C := by
  unfold State.restoreTeam
  split
  · exact h
  · extract_lets newcomer asid s1 s2
    have h1 : s1.Kept F C := h.updM fun g1 => g1.readBad
    have h2 : s2.Kept F C := .ite h1 (h1.updM fun g1 => g1.scramble)
    exact (h2.updM fun g1 => g1.updCore).enterCore

theorem State.Kept.considerTeam {s : State} {b : State} {core tk : Nat} (h : s.Kept F C) :
    (s.considerTeam b core tk).Kept F C := by
  unfold State.considerTeam
  split
  · extract_lets need dl s1
    have h1 : s1.Kept F C := h.updM fun g1 => g1.updTeam
    split
    · exact h
    · split
      · exact h.takeCore
      · split
        · exact h
        · exact (h1.foldl fun _ _ g1 => g1.preempt).admitChosen
  · exact h

theorem State.Kept.decideCore {s : State} {b : State} {core : Nat} (h : s.Kept F C) : (s.decideCore b core).Kept F C := by
  unfold State.decideCore
  exact .ite (h.admitChosen.foldl fun _ _ g1 => g1.considerTeam) h

theorem State.Kept.evictTeams {s : State} (h : s.Kept F C) : s.evictTeams.Kept F C := by
  unfold State.evictTeams
  extract_lets ts
  exact h.foldl fun _ _ g1 => g1.preempt

theorem State.Kept.resetCredits {s : State} {core : Nat} (h : s.Kept F C) : (s.resetCredits core).Kept F C := by
  unfold State.resetCredits
  extract_lets ps credit
  exact h.updM fun g1 => g1.updCore

theorem State.Kept.boundary {s : State} (h : s.Kept F C) : s.boundary.Kept F C := by
  unfold State.boundary
  extract_lets n s1 s2 cores s3 old s4 s5
  have h1 : s1.Kept F C := h.updHub rfl
  have h2 : s2.Kept F C := h1.rebind.evictTeams
  have h3 : s3.Kept F C := h2.updM fun g1 => g1.of_eq rfl rfl le_rfl
  have h4 : s4.Kept F C := h3.foldl fun _ _ g1 => g1.decideCore
  have h5 : s5.Kept F C := h4.updM fun g1 => g1.of_eq rfl rfl le_rfl
  exact .ite h (h5.foldl fun _ _ g1 => g1.resetCredits)

theorem Mach.Form.answer {m : Mach} {n : Nat} {o : Op} {d v : Nat} (h : m.Form) : (m.answer n o d v).Form := by
  unfold Mach.answer
  exact h.landRegs.finishOp

theorem Mach.Form.dropTlb {m : Mach} {p : TlbEntry → Bool} (h : m.Form) : (m.dropTlb p).Form := by
  unfold Mach.dropTlb
  exact h.of_eq rfl rfl le_rfl

theorem State.Kept.completeCtxSave {s : State} {n : Nat} {o : Op} {team : Option Nat} {region d : Nat} (h : s.Kept F C) :
    (s.completeCtxSave n o team region d).Kept F C := by
  unfold State.completeCtxSave
  split
  · exact h.updM fun g1 => g1.answer
  · split
    · split
      · exact h
      · extract_lets len s1
        have h1 : s1.Kept F C := by
          unfold s1
          refine h.updM fun g1 => ?_
          split
          · rename_i x1 i1 m1 e1
            have h1 : m1.Form := .of_pair g1.newImage e1
            exact ((h1.placeWrite _ _).unseat).answer
        exact h1.admitChosen
    · exact h.updM fun g1 => g1.answer
    · exact h.updM fun g1 => g1.answer
    · exact h.updM fun g1 => g1.answer
    · exact h.updM fun g1 => g1.answer
    · exact h.updM fun g1 => g1.answer
    · exact h.updM fun g1 => g1.answer

theorem State.Kept.completeCtxLoad {s : State} {n : Nat} {o : Op} {tk region d : Nat} (h : s.Kept F C) :
    (s.completeCtxLoad n o tk region d).Kept F C := by
  unfold State.completeCtxLoad
  extract_lets code stands bad s1
  have h1 : s1.Kept F C := .ite h.restoreTeam h
  exact h1.updM fun g1 => .answer (.ite g1.readBad g1)

theorem State.Kept.completeLeaseTst {s : State} {n : Nat} {o : Op} {u : UnitRef} {d : Nat} (h : s.Kept F C) :
    (s.completeLeaseTst n o u d).Kept F C := by
  unfold State.completeLeaseTst
  split
  · split
    · rename_i x1 x2 m1 e1
      have h1 (hF : F) : m1.Form := .of_pair ((h.form hF).takeFree) e1
      exact h.withM (fun hF => (h1 hF).answer) rfl
  · exact h.updM fun g1 => g1.answer

theorem Hub.passScore_freq (x : Hub) (l : Lease) (fail : Bool) : (x.passScore l fail).freq = x.freq := by
  unfold Hub.passScore
  split <;> rfl

theorem State.Kept.completeLeaseRel {s : State} {n : Nat} {o : Op} {lease : Nat} {fail : Bool} {d : Nat} (h : s.Kept F C) :
    (s.completeLeaseRel n o lease fail d).Kept F C := by
  unfold State.completeLeaseRel
  split
  · rename_i l _
    split
    · exact (h.updHub (Hub.passScore_freq s.sys.hub l fail)).updM fun g => g.answer
    · exact h.updM fun g => g.answer
  · exact h.updM fun g => g.answer

theorem Mach.Form.landOwn {m : Mach} {o : Op} {ws : List (Nat × Nat × Word)} (h : m.Form) : (m.landOwn o ws).Form := by
  unfold Mach.landOwn
  exact .ite h h.updFrame

theorem State.Kept.perform {s : State} {n : Nat} {o : Op} {sv : Serve} (h : s.Kept F C) : (s.perform n o sv).Kept F C := by
  unfold State.perform
  extract_lets on
  have h_on {f : Mach → Mach} (hf : ∀ m, m.Form → (f m).Form) : (on f).Kept F C := by
    unfold on
    refine h.updM fun g1 => ?_
    split
    · extract_lets m1
      have h1 : m1.Form := hf _ g1
      exact h1.of_eq rfl rfl le_rfl
    · exact hf _ g1
  split
  · exact h_on ((fun _ g1 => .finishOp (.landOwn (.ite g1 g1.orFpstat))))
  · exact h_on ((fun _ g1 => g1.completeLoad))
  · exact h_on ((fun _ g1 => g1.completeAtomic))
  · exact h_on ((fun _ g1 => g1.completeTile))
  · exact h_on ((fun _ g1 => g1.completePurge))
  · exact h_on ((fun _ g1 => g1.completeResolve))
  · exact h_on ((fun _ g1 => g1.completeFinOpen))
  · exact h_on ((fun _ g1 => g1.completeSpawnR))
  · exact h_on ((fun _ g1 => g1.completeRdet))
  · exact h.updM fun g1 => g1.completeCombine
  · exact h_on ((fun _ g1 => g1.completeRclose))
  · exact h_on ((fun _ g1 => g1.completeAccAcq))
  · exact h_on ((fun _ g1 => g1.completeMmaRead))
  · exact h
  · exact h
  · exact h
  · exact h
  · exact h
  · exact h.completeCtxSave
  · exact h.completeCtxLoad
  · exact h_on ((fun _ g1 => (g1.placeWrite _ _).finishOp))
  · exact h.completeLeaseTst
  · exact h.completeLeaseRel
  · exact h_on ((fun _ g1 => g1.dropTlb.finishOp))
  · exact h_on ((fun _ g1 => g1.answer))
  · exact h.mgmtWrite.updM fun g1 => g1.finishOp

theorem State.Kept.completeOp {s : State} {n : Nat} {o : Op} {sv : Serve} (h : s.Kept F C) : (s.completeOp n o sv).Kept F C := by
  unfold State.completeOp
  extract_lets m1 ts s1
  have h1 (hF : F) : m1.Form := h.form hF
  have h2 : s1.Kept F C := h.perform
  split
  · exact h
  · split
    · exact h.withM (fun hF => (h1 hF).meetGate) rfl
    · split
      · exact h2
      · split
        · rename_i x1 here1 m2 e1
          have h3 (hF : F) : m2.Form := .of_pair ((h1 hF).backOver) e1
          exact .ite h2 (h.withM h3 rfl)

theorem Mach.Form.engineEnds {m done : Mach} {n : Nat} {o : Op} (h : m.Form) (hd : done.Form) : (m.engineEnds n o done).Form :=
  h.crossed hd

theorem Mach.Form.engineDone {m : Mach} {n : Nat} (h : m.Form) : (m.engineDone n).Form := by
  unfold Mach.engineDone
  split
  · exact h
  · split
    · exact .ite h.meetGate (h.engineEnds h.completeEngine)
    · exact h.engineEnds h.completeStage
    · exact h.engineEnds h.completeAccStore
    · exact h

theorem Mach.Form.raiseAt {m : Mach} {t w : Nat} {k : Task} {p : Path} {cause : Cause} {addr : DWord} (h : m.Form) :
    (m.raiseAt t w k p cause addr).Form := by
  unfold Mach.raiseAt
  extract_lets q rest m1
  have h1 : m1.Form := h.updTask
  split
  · exact h1.raise.settle
  · exact h1

theorem Mach.Form.endWait {m : Mach} {t : Nat} {k : Task} {cause : Cause} {addr : DWord} {p : Option Path} (h : m.Form) :
    (m.endWait t k cause addr p).Form := by
  unfold Mach.endWait
  split
  · exact h.raiseAt
  · split
    · extract_lets pc __src
      exact h.endTask.settle
  · split
    · exact h
    · extract_lets m1 m2 m3
      have h1 : m1.Form := h.updTask
      have h2 : m2.Form := h1.updTeam
      have h3 : m3.Form := h2.updWarp
      exact h3.raiseAt
  · exact h

theorem Mach.Form.markFault {m : Mach} {n : Nat} {o : Op} {r : FaultRec} (h : m.Form) : (m.markFault n o r).Form := by
  unfold Mach.markFault
  split
  · exact .ite h h.updTask
  · exact h

theorem Mach.Form.loseLanes {m : Mach} {n : Nat} {o : Op} {lost : List Nat} {k : Option OpKind} (h : m.Form) :
    (m.loseLanes n o lost k).Form := by
  unfold Mach.loseLanes
  extract_lets r
  split
  · exact h
  · split
    · exact h.markFault.updOp
    · exact h.finishOp

theorem Mach.Form.noteLost {m : Mach} {t : Nat} (h : m.Form) : (m.noteLost t).Form := by
  unfold Mach.noteLost
  exact h.updTask

theorem Mach.Form.loseOp {m : Mach} {p : Nat → Bool} {n : Nat} {o : Op} (h : m.Form) : (m.loseOp p n o).Form := by
  unfold Mach.loseOp
  extract_lets gone asid r
  split
  · extract_lets left
    exact h.loseLanes
  · extract_lets left
    exact h.loseLanes
  · exact .ite h (.ite h.finishOp h.finishOp.noteLost)
  · split
    · rename_i x1 free1 m1 e1
      have h1 : m1.Form := .of_pair h.takeBytes e1
      exact h1.markFault.updOp
  · exact h.finishOp
  · exact h.endUnit
  · exact h.updOp
  · exact h.updOp
  · exact .ite h h.resolveFuture.finishOp
  · exact h.of_sub rfl (List.filter_subset_self _) le_rfl
  · exact h

theorem Mach.Form.loseStores {m : Mach} {p : PStore → Bool} (h : m.Form) : (m.loseStores p).Form := by
  unfold Mach.loseStores
  extract_lets lost m1
  have h1 : m1.Form := h.of_eq rfl rfl le_rfl
  refine (h1.foldl fun m s g1 => ?_).sendDue
  extract_lets m2
  have h2 : m2.Form := g1.updWarp.noteLost
  split
  · exact h2.noteLost
  · exact h2

theorem State.Kept.begin {s : State} {h0 : CmdHdr} {ranges : List (Nat × Nat)} (h : s.Kept F C) :
    (s.begin h0 ranges).Kept F C := by
  unfold State.begin
  exact h.updHub rfl

theorem State.Kept.complete {s : State} {h0 : CmdHdr} {opcode : Nat} {st : Status} {result : Nat} (h : s.Kept F C) :
    (s.complete h0 opcode st result).Kept F C := by
  unfold State.complete
  extract_lets q s1
  have h1 : s1.Kept F C := h.updHub rfl
  exact .ite h1 h1.post

end Sys2Proof.Machine
end

section
/-! What launches, contexts, mappings, peer requests and moved pages keep. -/

namespace Sys2Proof.Machine

variable {F C : Prop}

theorem State.Kept.dropCommands {s : State} {p : Nat → Bool} (h : s.Kept F C) : (s.dropCommands p).Kept F C := by
  unfold State.dropCommands
  refine (h.foldl fun s c g1 => ?_).updHub rfl
  split
  · split
    · rename_i x1 x2 m1 e1
      have h1 (hF : F) : m1.Form := .of_pair ((g1.form hF).takeFree) e1
      extract_lets st
      exact .complete (g1.withM h1 rfl)
  · exact g1

theorem State.Kept.unnameQueues {s : State} {p : Nat → Bool} (h : s.Kept F C) : (s.unnameQueues p).Kept F C := by
  unfold State.unnameQueues
  exact h.updM fun g1 => g1.of_eq rfl rfl le_rfl

theorem State.Kept.admissible {s : State} {h0 : CmdHdr} {record : Nat} {l : Launch} {d : Desc} {m : Mach} (h : s.Kept F C)
    (e : s.admissible h0 record = some (l, d, m)) (hF : F) : m.Form := by
  unfold State.admissible at e
  obtain ⟨-, e⟩ := Option.ite_none_left_eq_some.1 e
  split at e
  · cases e
  · rename_i e1
    obtain ⟨-, e⟩ := Option.ite_none_right_eq_some.1 e
    cases e
    exact .of_pair (h.form hF).readVa e1

theorem Mach.Form.addTeam {m : Mach} {n : Nat} {l : Launch} {e : Nat × Nat × Nat} (h : m.Form) : (m.addTeam n l e).Form := by
  unfold Mach.addTeam
  extract_lets t tk
  exact h.of_eq rfl rfl (Nat.le_add_right _ _)

theorem State.Kept.admitLaunch {s : State} {n : Nat} {l : Launch} {root : Desc} {gs : List (Nat × List Nat)} (h : s.Kept F C) :
    (s.admitLaunch n l root gs).Kept F C := by
  unfold State.admitLaunch
  extract_lets gen s1 l2 es s2 s3
  have h1 : s1.Kept F C := h.updHub rfl
  have h2 : s2.Kept F C := h1.updM fun g1 => .foldl (g1.of_eq rfl rfl le_rfl) fun _ _ g2 => g2.addTeam
  have h3 : s3.Kept F C := by
    unfold s3
    refine h2.updM fun g1 => ?_
    split
    · rename_i x1 x2 m1 e1
      have h3 : m1.Form := .of_pair g1.fresh e1
      exact .pushHot (h3.of_eq rfl rfl le_rfl)
  refine h3.foldl fun s e g1 => ?_
  extract_lets tk
  exact .ite g1.takeCore g1

theorem State.Kept.admitFreed {s : State} {cores : List Nat} (h : s.Kept F C) : (s.admitFreed cores).Kept F C := by
  unfold State.admitFreed
  exact h.foldl fun _ _ g1 => g1.admitChosen

theorem State.Kept.finishLaunch {s : State} {ln : Nat} (h : s.Kept F C) : (s.finishLaunch ln).Kept F C := by
  unfold State.finishLaunch
  exact .ite h.endLaunch.admitFreed h

theorem State.Kept.cancelLaunch {s : State} {ln status : Nat} (h : s.Kept F C) : (s.cancelLaunch ln status).2.Kept F C := by
  unfold State.cancelLaunch
  extract_lets cores
  split
  · rename_i x1 r1 s1 e1
    have h1 : s1.Kept F C := .of_pair h.stopLaunch e1
    exact h1.admitFreed

theorem State.Kept.cancelAll {s : State} {p : Launch → Bool} (h : s.Kept F C) : (s.cancelAll p).Kept F C := by
  unfold State.cancelAll
  exact h.foldl fun _ _ g1 => g1.cancelLaunch

theorem State.Kept.dropContexts {s : State} {p : Nat → Ctx → Bool} (h : s.Kept F C) : (s.dropContexts p).Kept F C := by
  unfold State.dropContexts
  refine h.updM fun g1 => ?_
  extract_lets gone m1
  have h1 : m1.Form := g1.dropTlb
  exact h1.of_eq rfl rfl le_rfl

theorem State.Kept.clearAll {s : State} {p : Nat → Bool} (h : s.Kept F C) : (s.clearAll p).Kept F C := by
  unfold State.clearAll
  exact h.dropCommands.dropContexts.updHub rfl

theorem State.Kept.forgetCommand {s : State} {h0 : CmdHdr} (h : s.Kept F C) : (s.forgetCommand h0).Kept F C := by
  unfold State.forgetCommand
  exact h.updHub rfl

theorem State.Kept.warm {s : State} (h : s.Kept F C) : s.warm.Kept F C := by
  unfold State.warm
  extract_lets s1 __src
  have h1 : s1.Kept F C := h.clearAll
  exact h1.of_eq rfl rfl

theorem Hub.reset_clockOk : Hub.reset.ClockOk := ⟨by decide, by decide, rfl⟩

theorem State.Kept.restart {s : State} {record : Bool} (h : s.Kept F C) : (s.restart record).Kept F C :=
  ⟨fun hF => ⟨s.wf_restart record (h.form hF).mem, fun _ ho => absurd ho List.not_mem_nil⟩, fun _ => Hub.reset_clockOk⟩

theorem State.Kept.startAdmin {s : State} (h : s.Kept F C) : s.startAdmin.Kept F C := by
  unfold State.startAdmin
  extract_lets h2 s1
  have h1 : s1.Kept F C := h.updHub rfl
  exact .ite h (.ite (h.updHub rfl) (.ite (h1.foldl fun _ _ g1 => g1.post) (h.updHub rfl)))

theorem State.Kept.closeAdmin {s : State} (h : s.Kept F C) : s.closeAdmin.Kept F C := by
  unfold State.closeAdmin
  extract_lets s1 s2
  have h1 : s1.Kept F C := h.cancelAll
  have h2 : s2.Kept F C := h1.clearAll.updHub rfl
  exact .ite (.ite h2.startAdmin h2) h1

theorem State.Kept.stopAdmin {s : State} (h : s.Kept F C) : s.stopAdmin.Kept F C := by
  unfold State.stopAdmin
  exact (h.updHub rfl).closeAdmin

theorem Mach.Form.markEvicted {m : Mach} {core : Nat} (h : m.Form) : (m.markEvicted core).Form := by
  unfold Mach.markEvicted
  refine h.foldl fun m t g1 => ?_
  split
  · rename_i x1 x2 m1 e1
    have h1 : m1.Form := .of_pair g1.takeFree e1
    exact .ite h1.updTeam h1

theorem Mach.Form.flushRange {m : Mach} {pa n : Nat} (h : m.Form) : (m.flushRange pa n).Form := by
  unfold Mach.flushRange
  extract_lets inside ls m1
  have h1 : m1.Form := h.of_eq rfl rfl le_rfl
  exact h1.foldl fun _ _ g1 => g1.packBlock

theorem Mach.Form.dropL1d {m : Mach} {pa n : Nat} (h : m.Form) : (m.dropL1d pa n).Form := by
  unfold Mach.dropL1d
  exact h.of_eq rfl rfl le_rfl

theorem Mach.Form.placePages {m : Mach} {a : MapAttr} {pa size : Nat} {new : List Pin} (h : m.Form) :
    (m.placePages a pa size new).Form := by
  unfold Mach.placePages
  extract_lets m1 m2
  have h1 : m1.Form := .ite h.flushRange h
  have h2 : m2.Form := .ite h1.dropL1d h1
  exact h2.of_eq rfl rfl le_rfl

theorem State.Kept.mapNow {s : State} {asid : Nat} {a : MapAttr} {va pa size : Nat} (h : s.Kept F C) :
    (s.mapNow asid a va pa size).Kept F C := by
  unfold State.mapNow
  split
  rename_i mem used e
  have h1 (hF : F) : Memory.wf mem = true := by
    have h2 := s.wf_mapEntries asid a va pa size (h.form hF).mem
    rwa [e] at h2
  exact .updHub (h.withM (fun hF => ((h.form hF).setMem (h1 hF)).placePages) rfl) rfl

theorem Mach.Form.unpin {m : Mach} {p : Pin} (h : m.Form) : (m.unpin p).Form := by
  unfold Mach.unpin
  exact .ite (h.foldl fun _ _ g1 => g1.packBlock) h.flushRange

theorem Mach.Form.dropPins {m : Mach} {frames : List Nat} (h : m.Form) : (m.dropPins frames).Form := by
  unfold Mach.dropPins
  extract_lets all named pinned uncached cmps ended m1
  have h1 : m1.Form := h.foldl fun _ _ g1 => g1.unpin
  exact h1.of_eq rfl rfl le_rfl

theorem Mach.Form.unmap {m : Mach} {asid va size : Nat} (h : m.Form) : (m.unmap asid va size).Form := by
  unfold Mach.unmap
  extract_lets ls m1 m2
  have h1 : m1.Form := h.setMem (Memory.wf_foldl _ (fun _ _ g => Memory.wf_writeN _ _ _ g) _ _ h.mem)
  have h2 : m2.Form := h1.of_eq rfl rfl le_rfl
  exact h2.dropTlb.dropPins

theorem Mach.Form.discardPart {m : Mach} {l : Leaf} {va n : Nat} (h : m.Form) : (m.discardPart l va n).Form := by
  unfold Mach.discardPart
  extract_lets lo hi pa len m1
  have h1 : m1.Form := h.forget
  exact .ite (h1.of_eq rfl rfl le_rfl) h

theorem Mach.Form.replyTo {m : Mach} {module : Nat} {bs : List Byte} {poison : Bool} (h : m.Form) :
    (m.replyTo module bs poison).Form := by
  unfold Mach.replyTo
  exact h.of_eq rfl rfl le_rfl

theorem Mach.Form.peerWrite {m : Mach} {pa : Nat} {bs : List Byte} {bad : Bool} (h : m.Form) : (m.peerWrite pa bs bad).Form := by
  unfold Mach.peerWrite
  exact (h.placeWrite _ _).movePoison

theorem Mach.Form.serveHome {m : Mach} {r : PeerIn} (h : m.Form) : (m.serveHome r).Form := by
  unfold Mach.serveHome
  extract_lets rs bytes bad m1
  have h1 : m1.Form := h.foldl fun _ _ g1 => g1.l2Home
  split
  · exact h1.replyTo
  · exact h1.replyTo
  · exact h1.peerWrite.replyTo
  · exact (h1.foldl fun _ _ g1 => g1.peerWrite).replyTo
  · extract_lets m2
    have h2 : m2.Form := by
      unfold m2
      split
      · exact h1.placeWrite _ _
      · exact h1
    exact h2.replyTo

theorem Mach.Form.servePeer {m : Mach} {r : PeerIn} (h : m.Form) : (m.servePeer r).Form := by
  unfold Mach.servePeer
  extract_lets m1
  have h1 : m1.Form := h.of_eq rfl rfl le_rfl
  split
  · exact h1.serveHome
  · split
    · rename_i x1 free1 m2 e1
      have h2 : m2.Form := .of_pair h1.takeBytes e1
      exact h2.replyTo

theorem Mach.Form.drainPeers {m : Mach} {shut : List Nat} {rs : List PeerIn} (h : m.Form) : (m.drainPeers shut rs).Form := by
  induction rs generalizing m shut with
  | nil => exact h
  | cons r rs ih => exact .ite (ih h) (.ite (ih h.meetGate) (.ite (ih h) (ih h.servePeer)))

theorem Mach.Form.drain {m : Mach} (h : m.Form) : m.drain.Form := by
  unfold Mach.drain
  exact h.drainPeers.retryCells.resolveLost

theorem Mach.Form.refuseFrom {m : Mach} {module n : Nat} (h : m.Form) : (m.refuseFrom module n).Form := by
  unfold Mach.refuseFrom
  extract_lets out
  exact h.of_eq rfl rfl le_rfl

theorem Mach.Form.putDomain {m : Mach} {die k : Nat} {d : Domain} (h : m.Form) : (m.putDomain die k d).Form := by
  unfold Mach.putDomain
  exact h.of_eq rfl rfl le_rfl

theorem State.Kept.unpinSlices {s : State} {die : Nat} {mask : DWord} (h : s.Kept F C) : (s.unpinSlices die mask).Kept F C := by
  unfold State.unpinSlices
  extract_lets hit s1
  have h1 : s1.Kept F C := h.updM fun g => g.of_wf
      (Memory.wf_foldl _ (fun _ _ g => Memory.wf_writeN _ _ _ g) _ _ g.mem) rfl le_rfl
  exact h1.foldl fun _ _ g1 => g1.event

theorem Mach.Form.enterWriteback {m : Mach} {die k newBase newLim : Nat} {newMask : DWord} {partner : Option Nat} (h : m.Form) :
    (m.enterWriteback die k newBase newLim newMask partner).Form := by
  unfold Mach.enterWriteback
  extract_lets d m1 mine
  have h1 : m1.Form := h.putDomain
  exact h1.of_eq rfl rfl le_rfl

theorem State.Kept.startSplit {s : State} {die k newEntry base : Nat} {mask : DWord} (h : s.Kept F C) :
    (s.startSplit die k newEntry base mask).Kept F C := by
  unfold State.startSplit
  extract_lets s1 d rest b s2
  have h1 : s1.Kept F C := h.unpinSlices
  have h2 : s2.Kept F C := h1.updM fun g1 => .ite g1.enterWriteback g1.enterWriteback.putDomain
  exact h2.updHub rfl

theorem State.Kept.startMerge {s : State} {die k absorb : Nat} {mask : DWord} (h : s.Kept F C) :
    (s.startMerge die k absorb mask).Kept F C := by
  unfold State.startMerge
  extract_lets d s1
  have h1 : s1.Kept F C := by
    unfold s1
    refine h.updM fun g1 => ?_
    split
    · exact g1.enterWriteback
    · extract_lets e
      exact g1.enterWriteback.enterWriteback
  exact h1.updHub rfl

theorem Mach.Form.switchEntry {m : Mach} {die k : Nat} {old : Domain} (h : m.Form) : (m.switchEntry die k old).Form := by
  unfold Mach.switchEntry
  extract_lets d e m1 gone
  have h1 : m1.Form := h.putDomain
  exact h1.of_eq rfl rfl le_rfl

theorem Mach.Form.dropRange {m : Mach} {pa n : Nat} (h : m.Form) : (m.dropRange pa n).Form := by
  unfold Mach.dropRange
  extract_lets mine
  exact h.of_eq rfl rfl le_rfl

theorem Mach.Form.seal {m : Mach} {old new size : Nat} {pages : List (Nat × Nat)} {rest : Nat} (h : m.Form) :
    (m.seal old new size pages rest).Form := by
  unfold Mach.seal
  extract_lets m1
  have h1 : m1.Form := h.dropRange
  exact h1.of_eq rfl rfl (Nat.le_add_right _ _)

theorem State.Kept.startMoves {s : State} {stack base : Nat} (h : s.Kept F C) : (s.startMoves stack base).Kept F C := by
  unfold State.startMoves
  refine h.foldl fun s f g1 => ?_
  split
  · exact g1.updM fun g2 => g2.seal
  · exact (g1.updM fun g2 => g2.foldl fun _ _ g3 => g3.unmap).event

theorem Mach.Form.startCopy {m : Mach} {stack lim : Nat} (h : m.Form) : (m.startCopy stack lim).Form := by
  unfold Mach.startCopy
  extract_lets base
  exact .ite h.seal h

theorem Mach.Form.purgeRange {m : Mach} {pa n : Nat} (h : m.Form) : (m.purgeRange pa n).Form := by
  unfold Mach.purgeRange
  extract_lets m1
  have h1 : m1.Form := h.flushRange.dropL1d
  exact h1.of_eq rfl rfl le_rfl

theorem Mach.Form.copyFrame {m : Mach} {old new size : Nat} (h : m.Form) : (m.copyFrame old new size).Form := by
  have h1 : ((m.purgeRange old size).purgeRange new size).Form := h.purgeRange.purgeRange
  exact h1.of_wf (m.wf_copyFrame old new size h.mem) rfl le_rfl

theorem Mach.Form.remap {m : Mach} {old new size : Nat} {pages : List (Nat × Nat)} (h : m.Form) :
    (m.remap old new size pages).Form :=
  h.of_wf (m.wf_remap old new size pages h.mem) rfl le_rfl

theorem Mach.Form.retarget {m : Mach} {old new size : Nat} (h : m.Form) : (m.retarget old new size).Form := by
  unfold Mach.retarget
  exact h.of_map rfl rfl (fun _ => rfl) le_rfl

theorem State.Kept.passGate {s : State} {a1 : Gated} (h : s.Kept F C) : (s.passGate a1).Kept F C := by
  unfold State.passGate
  split
  · exact h.updM fun g1 => g1.performStore
  · split
    · exact h
    · exact .ite (h.updM fun g1 => g1.engineDone) h.completeOp
  · exact h.updM fun g1 => g1.retryCell
  · refine h.updM fun g1 => ?_
    split
    · exact g1
    · exact .ite g1.meetGate g1.servePeer

theorem Mach.Form.nextBlock {m : Mach} {u : Migration} {n : Nat} (h : m.Form) : (m.nextBlock u n).Form := by
  unfold Mach.nextBlock
  extract_lets skip
  exact .ite h.dropRange.seal h

theorem State.Kept.moveLane {s : State} {u : UnitRef} (h : s.Kept F C) : (s.moveLane u).Kept F C := by
  unfold State.moveLane
  extract_lets s1
  have h1 : s1.Kept F C := h.updHub rfl
  exact .ite (h1.updM fun g1 => g1.of_eq rfl rfl le_rfl) h1

end Sys2Proof.Machine
end

section
/-! What moved units, links, drains, retired units, the host and the passing of time keep. -/

namespace Sys2Proof.Machine

variable {F C : Prop}

theorem State.Kept.bringIn {s : State} {u : UnitRef} {spare : Nat} (h : s.Kept F C) : (s.bringIn u spare).Kept F C := by
  unfold State.bringIn
  extract_lets put s1
  have h1 : s1.Kept F C := h.updHub rfl
  have h_put {m : Mach} {u : UnitRef} {p : Nat} (g : m.Form) : (put m u p).Form := g.of_eq rfl rfl le_rfl
  split
  · refine .updHub (h1.updM fun g => (h_put g).foldl fun _ _ g => h_put g) ?_
    exact List.foldlRecOn (motive := fun y : Hub => y.freq = s1.sys.hub.freq) _ _ rfl fun y hy i _ => hy
  · exact h1.moveLane
  · exact h1.moveLane
  · exact h1.updM h_put

theorem State.Kept.saveScores {s : State} (h : s.Kept F C) : s.saveScores.Kept F C := by
  unfold State.saveScores
  exact h.of_eq rfl rfl

theorem State.Kept.splitOut {s : State} {n : Nat} {l : Lease} (h : s.Kept F C) : (s.splitOut n l).Kept F C := by
  unfold State.splitOut
  split
  · exact h
  · extract_lets mask
    exact .ite h (h.startSplit.updHub rfl)

theorem State.Kept.setConn {s : State} {module : Nat} {c : Conn} (h : s.Kept F C) : (s.setConn module c).Kept F C := by
  unfold State.setConn
  exact .ite h (.event (.capacityChange (h.updM fun g1 => g1.of_eq rfl rfl le_rfl)))

theorem Mach.Form.losePeer {m : Mach} {p : Nat} (h : m.Form) : (m.losePeer p).Form := by
  unfold Mach.losePeer
  extract_lets m1
  have h1 : m1.Form := h.foldl fun _ _ g1 => .ite g1.loseOp g1
  exact h1.loseStores.resolveLost

theorem State.Kept.loseConn {s : State} {p : Nat} (h : s.Kept F C) : (s.loseConn p).Kept F C := by
  unfold State.loseConn
  exact h.setConn.updM fun g1 => g1.losePeer

theorem State.Kept.dropLinkless {s : State} {p : Nat} (h : s.Kept F C) : (s.dropLinkless p).Kept F C := by
  unfold State.dropLinkless
  exact .ite h.loseConn h

theorem State.Kept.drainCores {s : State} {u : UnitRef} (h : s.Kept F C) : (s.drainCores u).Kept F C := by
  unfold State.drainCores
  exact .ite h (h.foldl fun _ _ g1 => g1.foldl fun _ _ g2 => g2.preempt)

theorem State.Kept.beginDrain {s : State} {n : Nat} {l : Lease} (h : s.Kept F C) : (s.beginDrain n l).Kept F C := by
  unfold State.beginDrain
  extract_lets s1 s2 s3
  have h1 : s1.Kept F C := h.updHub rfl
  have h2 : s2.Kept F C := h1.capacityChange.drainCores
  have h3 : s3.Kept F C := .ite h2.splitOut h2
  split
  · exact .ite h3.setConn h3
  · exact h3

theorem Mach.Form.flushSlots {m : Mach} {core : Nat} (h : m.Form) : (m.flushSlots core).Form := by
  unfold Mach.flushSlots
  exact h.foldl fun _ _ g1 => .ite g1.spillSlot g1

theorem Mach.Form.testCore {m : Mach} {core : Nat} (h : m.Form) : (m.testCore core).Form := by
  unfold Mach.testCore
  exact h.updCore

theorem Mach.Form.testSlice {m : Mach} {die slice : Nat} (h : m.Form) : (m.testSlice die slice).Form := by
  unfold Mach.testSlice
  exact h.foldl fun _ _ g1 => g1.l2Evict

theorem Mach.Form.testUnit {m : Mach} {u : UnitRef} (h : m.Form) : (m.testUnit u).Form := by
  unfold Mach.testUnit
  exact .ite h.testSlice (h.foldl fun _ _ g1 => g1.flushSlots.testCore)

theorem State.Kept.evacuate {s : State} {n : Nat} {l : Lease} {spare : Nat} (h : s.Kept F C) :
    (s.evacuate n l spare).Kept F C := by
  unfold State.evacuate
  split
  · exact h
  · split
    · exact (h.updM fun g1 => g1.startCopy).updHub rfl
    · extract_lets old
      exact .updHub (h.updM fun g1 => g1.of_eq rfl rfl le_rfl) rfl

theorem State.Kept.endLease {s : State} {n : Nat} {u : UnitRef} {retired : Bool} (h : s.Kept F C) :
    (s.endLease n u retired).Kept F C := by
  unfold State.endLease
  extract_lets s1
  have h1 : s1.Kept F C := .saveScores (h.updHub rfl)
  exact h1.event.updHub (Hub.seekLeases_freq _)

theorem State.Kept.backIn {s : State} {u : UnitRef} (h : s.Kept F C) : (s.backIn u).Kept F C := by
  unfold State.backIn
  exact (h.updHub rfl).capacityChange

theorem State.Kept.mergeBack {s : State} {n : Nat} {l : Lease} (h : s.Kept F C) : (s.mergeBack n l).Kept F C := by
  unfold State.mergeBack
  split
  · exact h
  · exact h.startMerge.updHub rfl

theorem State.Kept.appendRecord {s : State} {u : UnitRef} {phys : Nat} {spare : Option Nat} {reason score : Nat}
    (h : s.Kept F C) :
    (s.appendRecord u phys spare reason score).Kept F C := by
  unfold State.appendRecord
  extract_lets log r r2 __src __src2
  exact h.of_eq rfl rfl

theorem State.Kept.loseLane {s : State} {u : UnitRef} (h : s.Kept F C) : (s.loseLane u).Kept F C := by
  unfold State.loseLane
  split
  · exact h
  · exact .ite (.dropLinkless (h.updM fun g1 => g1.of_eq rfl rfl le_rfl)) (.ite h.setConn h)

theorem State.Kept.loseUnit {s : State} {u : UnitRef} (h : s.Kept F C) : (s.loseUnit u).Kept F C := by
  unfold State.loseUnit
  extract_lets s1 cores tks s2
  have h1 : s1.Kept F C := h.updHub rfl
  have h2 : s2.Kept F C := h1.updM fun g1 => g1.foldl fun _ _ g2 => g2.updTeam
  exact .rebindAll (.ite h2.loseLane h2)

theorem State.Kept.retireDone {s : State} {n : Nat} {u : UnitRef} (h : s.Kept F C) : (s.retireDone n u).Kept F C := by
  unfold State.retireDone
  extract_lets seq
  exact h.capacityChange.event.endLease

theorem State.Kept.finishRetire {s : State} {n : Nat} {u : UnitRef} {spare : Bool} (h : s.Kept F C) :
    (s.finishRetire n u spare).Kept F C := by
  unfold State.finishRetire
  exact .retireDone (.ite (h.updHub rfl) h.loseUnit)

theorem State.Kept.shrink {s : State} {n : Nat} {l : Lease} (h : s.Kept F C) : (s.shrink n l).Kept F C := by
  unfold State.shrink
  extract_lets stack range
  exact .ite h
      (.ite h.startMoves (.ite (.finishRetire (h.updM fun g1 => g1.of_eq rfl rfl le_rfl)) ((h.updM fun g1 => g1.startCopy).updHub rfl)))

theorem State.Kept.replaceUnit {s : State} {l : Lease} (h : s.Kept F C) : (s.replaceUnit l).2.Kept F C := by
  unfold State.replaceUnit
  extract_lets u spare s1
  have h1 : s1.Kept F C := h.appendRecord
  clear_value spare
  split
  · exact h1
  · exact h1.bringIn

theorem State.Kept.countCorrected {s : State} {u : UnitRef} {n : Nat} (h : s.Kept F C) : (s.countCorrected u n).Kept F C := by
  unfold State.countCorrected
  extract_lets key old s1 s2
  have h1 : s1.Kept F C := h.updHub rfl
  have h2 : s2.Kept F C := h1.foldl fun _ _ g1 => g1.charge
  exact .ite h2.charge h2

theorem State.Kept.condemn {s : State} {u : UnitRef} (h : s.Kept F C) : (s.condemn u).Kept F C := by
  unfold State.condemn
  split
  · exact h
  · split
    rename_i n x e
    have h1 : (s.updHub fun _ => x).Kept F C := h.updHub (by rw [← Hub.requestLease_freq s.sys.hub u, e])
    dsimp only
    split
    · exact h1
    · split
      · exact h1.beginDrain
      · exact h1.updHub rfl
      · exact h1.updHub rfl
      · exact h1.updHub rfl
      · exact h1

theorem State.Kept.poisonLine {s : State} {line : Nat} (h : s.Kept F C) : (s.poisonLine line).Kept F C := by
  unfold State.poisonLine
  exact .event (h.updM fun g1 => g1.of_eq rfl rfl le_rfl)

theorem State.Kept.poisonBlock {s : State} {pa : Nat} (h : s.Kept F C) : (s.poisonBlock pa).Kept F C := by
  unfold State.poisonBlock
  exact h.foldl fun _ _ g1 => g1.poisonLine

theorem Mach.Form.storageError {m : Mach} {tk addr : Nat} (h : m.Form) : (m.storageError tk addr).Form := by
  unfold Mach.storageError
  split
  · exact h.askKill
  · exact h

theorem State.Kept.coreError {s : State} {u : UnitRef} {team : Option Nat} {addr : Nat} (h : s.Kept F C) :
    (s.coreError u team addr).Kept F C := by
  unfold State.coreError
  split
  · exact .ite (h.updM fun g1 => g1.storageError) h.condemn
  · exact h.condemn

theorem State.Kept.tryPatches {s : State} {ps : List (Bool × PatchImage)} (h : s.Kept F C) : (s.tryPatches ps).Kept F C := by
  induction ps generalizing s with
  | nil => exact h
  | cons p ps ih =>
    unfold State.tryPatches
    extract_lets ok s1
    have h1 : s1.Kept F C := h.event
    exact .ite (h1.of_eq rfl rfl) (ih h1)

theorem State.Kept.applyRecord {s : State} {r : Retirement} (h : s.Kept F C) : (s.applyRecord r).Kept F C := by
  unfold State.applyRecord
  split
  · extract_lets stack s1
    have h1 : s1.Kept F C := .ite (h.updM fun g1 => g1.of_eq rfl rfl le_rfl) h
    exact h1.updHub rfl
  · extract_lets old
    exact h.bringIn.updHub rfl

theorem State.Kept.startupRetire {s : State} {u : UnitRef} (h : s.Kept F C) : (s.startupRetire u).Kept F C := by
  unfold State.startupRetire
  split
  · exact h
  · extract_lets spare s1 s2
    have h1 : s1.Kept F C := h.appendRecord
    have h2 : s2.Kept F C := by
      unfold s2
      clear_value spare
      split
      · exact h1.bringIn
      · exact h1.updHub rfl
    exact h2.event

theorem State.Kept.linkEvent {s : State} {l : HostLink} (h : s.Kept F C) : (s.linkEvent l).Kept F C := by
  unfold State.linkEvent
  exact h.event

theorem State.Kept.startup {s : State} {bad moved : List UnitRef} {link : HostLink} (h : s.Kept F C) :
    (s.startup bad moved link).Kept F C := by
  unfold State.startup
  extract_lets f m1
  have h1 (hF : F) : m1.Form := h.form hF
  split
  · exact h.updHub rfl
  · extract_lets s1 s2 s3 __src __src2 s4 s5 s6 s7 m2 s8 s9
    have h2 : s1.Kept F C := h.updHub rfl
    have h3 : s2.Kept F C := h2.withM (fun hF => (h1 hF).of_eq rfl rfl le_rfl) rfl
    have h4 : s3.Kept F C := h3.tryPatches
    have h5 : s4.Kept F C := h4.of_eq rfl rfl
    have h6 : s5.Kept F C := h5.foldl fun _ _ g1 => g1.applyRecord
    have h7 : s6.Kept F C := h6.foldl fun _ _ g1 => g1.charge.moveLane
    have h8 : s7.Kept F C := h7.foldl fun _ _ g1 => g1.startupRetire
    have h9 (hF : F) : m2.Form := h8.form hF
    have h10 : s8.Kept F C := h8.withM (fun hF => (h9 hF).of_eq rfl rfl le_rfl) rfl
    have h11 : s9.Kept F C := h10.updHub rfl
    exact .ite h11 h11.linkEvent

/-- A clock step keeps all but the clock, which it sets. -/
theorem State.Kept.stepClock {s : State} {freq : Nat} (h : s.Kept F C) (hf : C → 18 ≤ freq ∧ freq ≤ 36 ∧ freq % 3 = 0) :
    (s.stepClock freq).Kept F C := by
  have h1 : (s.updHub fun x => { x with freq := freq }).Kept F C := ⟨h.form, hf⟩
  exact h1.event

theorem State.Kept.report {s : State} {t : Nat} (h : s.Kept F C) : (s.report t).Kept F C := by
  unfold State.report
  exact h.updHub rfl

theorem State.Kept.haltLaunches {s : State} (h : s.Kept F C) : s.haltLaunches.Kept F C := by
  unfold State.haltLaunches
  extract_lets ls
  exact h.foldl fun _ _ g1 => (g1.updM fun g2 => g2.updLaunch).endLaunch

theorem Mach.Form.hostHolds {m : Mach} {ls : List Nat} (h : m.Form) : (m.hostHolds ls).Form := by
  unfold Mach.hostHolds
  exact h.of_eq rfl rfl le_rfl

theorem Mach.Form.hostRead {m : Mach} {pa size : Nat} (h : m.Form) : (m.hostRead pa size).Form := by
  unfold Mach.hostRead
  split
  · split
    · rename_i x1 free1 m1 e1
      have h1 : m1.Form := .of_pair h.takeBytes e1
      exact h1.of_eq rfl rfl le_rfl
  · extract_lets ls bad bs m1
    have h1 : m1.Form := (h.foldl fun _ _ g1 => g1.l2Home).hostHolds
    exact h1.of_eq rfl rfl le_rfl

theorem Mach.Form.hostWrite {m : Mach} {pa : Nat} {bs : List Byte} (h : m.Form) : (m.hostWrite pa bs).Form := by
  unfold Mach.hostWrite
  refine .hostHolds (.placeWrite ?_ _ _)
  exact h.of_eq rfl rfl le_rfl

theorem State.Kept.consumeEntries {s : State} {n k : Nat} {q : CmdQueue} (h : s.Kept F C) :
    (s.consumeEntries n q k).Kept F C := by
  induction k generalizing s q with
  | zero => exact h
  | succ k ih =>
    unfold State.consumeEntries
    extract_lets e bytes p q' s1
    have h1 : s1.Kept F C := (h.updHub rfl).updM fun g => g.placeWrite _ _
    exact ih h1

theorem State.Kept.barWrite {s : State} {off : Nat} {v : DWord} (h : s.Kept F C) : (s.barWrite off v).Kept F C := by
  unfold State.barWrite
  exact .ite h
      (.ite (.ite h (h.updHub rfl)) (.ite (.ite h (h.updHub rfl)) (.ite (.ite h.startAdmin (.ite h.stopAdmin (h.updHub rfl))) h)))

theorem State.Kept.setHdm {s : State} {gib : Nat} (h : s.Kept F C) : (s.setHdm gib).Kept F C := by
  unfold State.setHdm
  exact .ite (h.updHub rfl) h

theorem Mach.Form.waitOps {m : Mach} {ns : Nat} (h : m.Form) : (m.waitOps ns).Form := by
  unfold Mach.waitOps
  exact h.of_map rfl rfl (fun _ => rfl) le_rfl

theorem State.Kept.pass {s : State} {clocks ns : Nat} (h : s.Kept F C) : (s.pass clocks ns).Kept F C := by
  unfold State.pass
  extract_lets m1 now ns2 m2
  have h1 (hF : F) : m1.Form := h.form hF
  have h2 (hF : F) : m2.Form := (h1 hF).waitOps
  exact h.withM (fun hF => (h2 hF).of_eq rfl rfl le_rfl) rfl

end Sys2Proof.Machine
end

section
/-! What every instruction, command and event keeps. -/

namespace Sys2Proof.Machine

variable {F C : Prop}

theorem State.Kept.intOp {s : State} {i : Instr} {t : Ty} {sat : Bool} {g : ℤ → ℤ → ℤ → ℤ} (h : s.Kept F C) :
    Out.Kept F C (intOp i t sat g s) := by
  unfold Machine.intOp
  exact h.on fun g1 => g1.alu

theorem State.Kept.wordOp {s : State} {i : Instr} {g : Args → Word} (h : s.Kept F C) : Out.Kept F C (wordOp i g s) := by
  unfold Machine.wordOp
  exact h.on fun g1 => g1.alu

theorem State.Kept.pairOp {s : State} {i : Instr} {g : Args → DWord} (h : s.Kept F C) : Out.Kept F C (pairOp i g s) := by
  unfold Machine.pairOp
  exact h.on fun g1 => g1.alu

theorem State.Kept.fpOp {s : State} {i : Instr} {g : Args → FRes} (h : s.Kept F C) : Out.Kept F C (fpOp i g s) := by
  unfold Machine.fpOp
  exact h.on fun g1 => g1.alu

theorem State.Kept.fpLong {s : State} {i : Instr} {g : Args → FRes} (h : s.Kept F C) : Out.Kept F C (fpLong i g s) := by
  unfold Machine.fpLong
  exact h.on fun g1 => g1.longAlu

theorem State.Kept.halfOp {s : State} {i : Instr} {g : (DWord → Nat) → Args → FRes} (h : s.Kept F C) :
    Out.Kept F C (halfOp i g s) := by
  unfold Machine.halfOp
  exact h.on fun g1 => g1.alu

theorem State.Kept.shuffle {s : State} {i : Instr} {k : Count 5} {src : Nat → Nat → Option Nat} (h : s.Kept F C) :
    Out.Kept F C (shuffle i k src s) := by
  unfold Machine.shuffle
  exact h.on fun g1 => g1.alu

theorem State.Kept.execPf {s : State} {c : Ctl} {hint : Hint} {a : Reg} {off : BitVec 24} (h : s.Kept F C) :
    Out.Kept F C (execPf c hint a off s) := by
  unfold Machine.execPf
  refine h.on fun g1 => g1.act (fun x act m g2 => g2.foldl fun m l g3 => ?_)
  split
  · extract_lets n m1
    have h1 : m1.Form := g3.fetchLine.retain
    exact .ite h1.homeLine h1
  · exact g3

theorem State.Kept.execPft {s : State} {c : Ctl} {hint : Hint} {a b : Reg} {rowsM1 : BitVec 6} {rowb : BitVec 4}
    (h : s.Kept F C) :
    Out.Kept F C (execPft c hint a b rowsM1 rowb s) := by
  unfold Machine.execPft
  refine h.on fun g1 => g1.act (fun x act m g2 => ?_)
  extract_lets base stride foot
  split
  · extract_lets page
    exact g2.foldl fun _ _ g3 => g3.fetchLine.retain
  · exact g2

theorem State.Kept.execRctx {s : State} {c : Ctl} {op : SumOp} {t : Ty} {scope : Scope} {ctx : BitVec 4} {d a b e : Reg}
    (h : s.Kept F C) :
    Out.Kept F C (execRctx c op t scope ctx d a b e s) := by
  unfold Machine.execRctx
  refine h.on fun g1 => ?_
  extract_lets i args
  refine g1.act (fun x act m g2 => ?_)
  extract_lets r bind
  split
  · extract_lets isOpen status k m1
    have h1 : m1.Form := .ite g2.updLaunch.dropRoots g2
    exact h1.updFrame
  · exact g2

theorem State.Kept.execRdet {s : State} {c : Ctl} {t : Ty} {ctx : BitVec 4} {a b e : Reg} (h : s.Kept F C) :
    Out.Kept F C (execRdet c t ctx a b e s) := by
  unfold Machine.execRdet
  refine h.on fun g1 => g1.long (fun x act m g2 => ?_)
  extract_lets vals elem k
  exact g2.send

theorem State.Kept.execReductionElementApply {s : State} (h : s.Kept F C) : Out.Kept F C (execReductionElementApply s) := by
  unfold Machine.execReductionElementApply
  refine h.on fun g1 => ?_
  split
  · split
    · exact g1
    · extract_lets full size pa old
      split
      · exact g1
      · split
        · exact g1
        · split
          · exact .ite g1.sendRoot g1
          · exact g1.homeWrite.elementDone

theorem State.Kept.execAcqRp {s : State} {c : Ctl} {t : Ty} {scope : Scope} {d a : Reg} {off : BitVec 24} (h : s.Kept F C) :
    Out.Kept F C (execAcqRp c t scope d a off s) := by
  unfold Machine.execAcqRp
  refine h.on fun g1 => ?_
  extract_lets i spec
  refine g1.long (fun x act m g2 => ?_)
  extract_lets as
  exact g2.useTlb.send

theorem State.Kept.execBar {s : State} {c : Ctl} {b : BitVec 4} {a : Reg} (h : s.Kept F C) : Out.Kept F C (execBar c b a s) := by
  unfold Machine.execBar
  refine h.on fun g1 => g1.issue (fun x act m g2 => ?_)
  split
  · exact g2
  · extract_lets g m1
    have h1 : m1.Form := g2.arrive
    exact h1

theorem State.Kept.execBarArr {s : State} {c : Ctl} {b : BitVec 4} {d a : Reg} (h : s.Kept F C) :
    Out.Kept F C (execBarArr c b d a s) := by
  unfold Machine.execBarArr
  refine h.on fun g1 => g1.act (fun x act m g2 => ?_)
  extract_lets g
  exact g2.arrive.updFrame

theorem State.Kept.execBarWait {s : State} {c : Ctl} {b : BitVec 4} {a : Reg} (h : s.Kept F C) :
    Out.Kept F C (execBarWait c b a s) := by
  unfold Machine.execBarWait
  refine h.on fun g1 => g1.issue (fun x act m g2 => ?_)
  split
  · exact g2
  · extract_lets g
    exact g2

theorem State.Kept.execBbInit {s : State} {c : Ctl} {a : Reg} (h : s.Kept F C) : Out.Kept F C (execBbInit c a s) := by
  unfold Machine.execBbInit
  refine h.on fun g1 => g1.act (fun x act m g2 => ?_)
  extract_lets off m1
  have h1 : m1.Form := g2.updTeam
  exact h1.cellWrite.wakeCell.leaveCell

theorem State.Kept.execBbExp {s : State} {c : Ctl} {d a b : Reg} (h : s.Kept F C) : Out.Kept F C (execBbExp c d a b s) := by
  unfold Machine.execBbExp
  refine h.on fun g1 => g1.act (fun x act m g2 => ?_)
  extract_lets off m1 gen
  have h1 : m1.Form := g2.asCell
  exact h1.cellAdd.leaveCell.updFrame

theorem State.Kept.execBbWait {s : State} {c : Ctl} {scope : Scope} {a b : Reg} (h : s.Kept F C) :
    Out.Kept F C (execBbWait c scope a b s) := by
  unfold Machine.execBbWait
  refine h.on fun g1 => g1.issue (fun x act m g2 => ?_)
  split
  · exact g2
  · extract_lets off g m1
    have h1 : m1.Form := g2.asCell
    split
    · exact h1.acquire.acquire
    · exact h1

theorem State.Kept.execPathSelection {s : State} (h : s.Kept F C) : Out.Kept F C (execPathSelection s) := by
  unfold Machine.execPathSelection
  refine h.on fun g1 => ?_
  split
  · split
    · exact g1
    · split
      · exact g1
      · extract_lets m1
        have h1 : m1.Form := g1.of_eq rfl rfl le_rfl
        split
        · exact h1.landTask.settle.updTask.enter
        · exact h1.enter
        · exact h1

theorem State.Kept.execRet {s : State} {c : Ctl} (h : s.Kept F C) : Out.Kept F C (execRet c s) := by
  unfold Machine.execRet
  refine h.on fun g1 => ?_
  extract_lets links
  refine g1.issue (fun x act m g2 => ?_)
  extract_lets ls caller
  split
  · exact g2.returnTo.updTask
  · exact (g2.foldl fun _ _ g3 => g3.giveResults).returnTo

theorem State.Kept.execUnwindTo {s : State} {c : Ctl} {sb : Reg} (h : s.Kept F C) : Out.Kept F C (execUnwindTo c sb s) := by
  unfold Machine.execUnwindTo
  refine h.on fun g1 => ?_
  extract_lets links
  refine g1.issue (fun x act m g2 => ?_)
  extract_lets ls m1
  have h1 : m1.Form := g2.foldl fun _ _ g3 => g3.giveResults.padResults
  exact h1.returnTo

theorem State.Kept.execExit {s : State} {c : Ctl} (h : s.Kept F C) : Out.Kept F C (execExit c s) := by
  unfold Machine.execExit
  extract_lets last
  refine h.on fun g1 => g1.issue (fun x act m g2 => ?_)
  split
  · exact g2.finishTask
  · extract_lets m1 m2
    have h1 : m1.Form := g2.updTask
    have h2 : m2.Form := h1.of_eq rfl rfl le_rfl
    exact h2.freeFrames

theorem State.Kept.execWflag {s : State} {c : Ctl} {mask : BitVec 12} (h : s.Kept F C) : Out.Kept F C (execWflag c mask s) := by
  unfold Machine.execWflag
  refine h.on fun g1 => ?_
  extract_lets i ready late
  clear_value late
  split
  · exact .settle (.deliver (.tookCycle (g1.of_eq rfl rfl le_rfl)))
  · exact g1.act (fun _ _ _ g2 => g2.observe)

theorem State.Kept.execSpawn {s : State} {c : Ctl} {d a : Reg} (h : s.Kept F C) : Out.Kept F C (execSpawn c d a s) := by
  unfold Machine.execSpawn
  refine h.on fun g1 => ?_
  extract_lets addr
  refine g1.act (fun x act m g2 => ?_)
  split
  · exact g2
  · extract_lets m1 code m2
    have h1 : m1.Form := g2.descBytes
    have h2 : m2.Form := by
      unfold m2
      split
      · split
        · rename_i x1 x2 m3 e1
          have h2 : m3.Form := .of_pair h1.fresh e1
          extract_lets m4
          have h3 : m4.Form := h2.of_eq rfl rfl le_rfl
          exact h3.pushHot.updLaunch
      · exact h1
    exact h2.updFrame

theorem State.Kept.execSpawnR {s : State} {c : Ctl} {d a b : Reg} (h : s.Kept F C) : Out.Kept F C (execSpawnR c d a b s) := by
  unfold Machine.execSpawnR
  refine h.on fun g1 => ?_
  extract_lets addr handle
  refine g1.long (fun x act m g2 => ?_)
  extract_lets peer m1
  have h1 : m1.Form := g2.descBytes
  split
  · exact h1.of_eq rfl rfl le_rfl
  · exact g2

theorem State.Kept.execJoinWake {s : State} (h : s.Kept F C) : Out.Kept F C (execJoinWake s) := by
  unfold Machine.execJoinWake
  refine h.on fun g1 => ?_
  extract_lets cell hit ts
  exact .ite g1 (.ite (.ite g1 g1.addWaiter) (g1.foldl fun _ _ g2 => g2.wakeJoins))

theorem State.Kept.execResolve {s : State} {c : Ctl} {d a b : Reg} (h : s.Kept F C) : Out.Kept F C (execResolve c d a b s) := by
  unfold Machine.execResolve
  refine h.on fun g1 => g1.long (fun x act m g2 => ?_)
  extract_lets cell m1
  have h1 : m1.Form := by
    unfold m1
    clear_value cell
    split
    · exact g2.send
    · exact g2
  exact h1

theorem State.Kept.execTaskEnd {s : State} {c : Ctl} {v : Option Reg} (h : s.Kept F C) : Out.Kept F C (execTaskEnd c v s) := by
  unfold Machine.execTaskEnd
  refine h.on fun g1 => g1.issue (fun x act m g2 => ?_)
  split
  · exact g2
  · exact g2.finishTask

theorem State.Kept.execFinClose {s : State} {c : Ctl} {sc : FsRef} (h : s.Kept F C) : Out.Kept F C (execFinClose c sc s) := by
  unfold Machine.execFinClose
  refine h.on fun g1 => g1.act (fun x act m g2 => ?_)
  extract_lets n m1
  have h1 : m1.Form := g2.updLaunch
  exact h1.wakeScopes

theorem State.Kept.execFinWait {s : State} {c : Ctl} {sc : FsRef} (h : s.Kept F C) : Out.Kept F C (execFinWait c sc s) := by
  unfold Machine.execFinWait
  refine h.on fun g1 => g1.issue (fun x act m g2 => ?_)
  extract_lets n
  split
  · exact g2
  · split
    · dsimp only
      exact g2.acquire
    · exact g2

theorem State.Kept.execStagingStart {s : State} (h : s.Kept F C) : Out.Kept F C (execStagingStart s) := by
  unfold Machine.execStagingStart
  refine h.on fun g1 => ?_
  extract_lets tk
  split
  · exact .ite g1 g1.startStaging
  · exact g1

theorem State.Kept.execLsShortage {s : State} (h : s.Kept F C) : Out.Kept F C (execLsShortage s) := by
  unfold Machine.execLsShortage
  refine h.on fun g1 => ?_
  extract_lets tk ts resumable idle pool
  split
  · extract_lets short queued want waiter
    split
    · exact g1
    · split
      · exact .ite g1.restoreBuffer g1.execLsShortage_spillOne
      · exact .ite g1.execLsShortage_spillOne g1
  · exact g1

theorem State.Kept.execTaskStart {s : State} (h : s.Kept F C) : Out.Kept F C (execTaskStart s) := by
  unfold Machine.execTaskStart
  refine h.on fun g1 => ?_
  split
  · split
    · split
      · exact g1
      · split
        · extract_lets m1 m2
          have h1 : m1.Form := g1.updTask
          have h2 : m2.Form := h1.updWarp
          exact h2.landTask.settle
        · split
          · exact g1
          · split
            · exact g1
            · extract_lets m1 need m2
              have h1 : m1.Form := g1.unqueue.updTask
              have h2 : m2.Form := h1.updWarp.updTask
              exact .ite h1.updWarp.startTask (h2.of_eq rfl rfl (Nat.le_add_right _ _))
    · exact g1

theorem State.Kept.execFrameGrant {s : State} (h : s.Kept F C) : Out.Kept F C (execFrameGrant s) := by
  unfold Machine.execFrameGrant
  refine h.on fun g1 => ?_
  extract_lets tk
  split
  · exact .ite g1.grant g1
  · exact g1

theorem State.Kept.execFrameStarved {s : State} (h : s.Kept F C) : Out.Kept F C (execFrameStarved s) := by
  unfold Machine.execFrameStarved
  refine h.on fun g1 => ?_
  extract_lets tk kills
  split
  · exact g1
  · split
    · exact g1
    · split
      · exact g1.spillFull
      · split
        · exact g1
        · split
          · rename_i x1 m1 e1
            have h1 : m1.Form := .of_pair g1.spillFrames e1
            exact h1
          · rename_i x1 m1 e1
            have h1 : m1.Form := .of_pair g1.spillFrames e1
            exact .ite h1 h1.spillFull

theorem State.Kept.execStealRequest {s : State} (h : s.Kept F C) : Out.Kept F C (execStealRequest s) := by
  unfold Machine.execStealRequest
  refine h.on fun g1 => ?_
  split
  · split
    · exact g1
    · extract_lets left step
      exact .ite g1.updTeam g1

theorem State.Kept.execStealRequestReceive {s : State} (h : s.Kept F C) : Out.Kept F C (execStealRequestReceive s) := by
  unfold Machine.execStealRequestReceive
  refine h.on fun g1 => ?_
  extract_lets tk answer
  have h_answer {m : Mach} {r : Option Nat} (g : m.Form) : (answer m r).Form := g.updTeam
  split
  · exact g1
  · split
    · split
      · exact h_answer g1
      · extract_lets cand cross
        split
        · exact h_answer g1
        · split
          · rename_i x1 x2 m1 e1
            have h1 : m1.Form := .of_pair g1.stagedBytes e1
            split
            · exact h_answer h1
            · extract_lets m2
              have h2 : m2.Form := .ite h1 g1
              exact h_answer h2.unqueue.updTask
    · exact g1

theorem State.Kept.execStealReply {s : State} (h : s.Kept F C) : Out.Kept F C (execStealReply s) := by
  unfold Machine.execStealReply
  refine h.on fun g1 => ?_
  extract_lets tk k
  split
  · exact g1
  · split
    · split
      · exact g1
      · extract_lets m1
        have h1 : m1.Form := by
          unfold m1
          split
          · extract_lets sameGang entry
            exact .pushHot (g1.of_eq rfl rfl (Nat.le_add_right _ _))
          · exact g1
        exact h1.updTeam
    · exact g1.updTeam
    · exact g1

theorem State.Kept.execStealBackoff {s : State} (h : s.Kept F C) : Out.Kept F C (execStealBackoff s) := by
  unfold Machine.execStealBackoff
  refine h.on fun g1 => ?_
  extract_lets tk
  split
  · exact g1
  · exact .ite g1.updTeam g1

theorem State.Kept.execStealIdleThreshold {s : State} (h : s.Kept F C) : Out.Kept F C (execStealIdleThreshold s) := by
  unfold Machine.execStealIdleThreshold
  refine h.on fun g1 => ?_
  extract_lets tk
  exact g1.updTeam

theorem State.Kept.execCgrp {s : State} {c : Ctl} {scope : Scope} {g : BitVec 5} {d a b : Reg} (h : s.Kept F C) :
    Out.Kept F C (execCgrp c scope g d a b s) := by
  unfold Machine.execCgrp
  refine h.on fun g1 => g1.act (fun x act m g2 => ?_)
  extract_lets members grp fine status m1
  have h1 : m1.Form := .ite g2.updLaunch g2
  exact h1.updFrame

theorem State.Kept.execCollectiveCommit {s : State} (h : s.Kept F C) : Out.Kept F C (execCollectiveCommit s) := by
  unfold Machine.execCollectiveCommit
  refine h.on fun g1 => ?_
  split
  · split
    · exact g1
    · split
      · extract_lets ms
        split
        · exact g1
        · split
          · exact .ite g1.finishColl g1
          · split
            · split
              · rename_i x1 here1 m1 e1
                have h1 : m1.Form := .of_pair g1.collBack e1
                exact .ite h1.commitColl h1
            · exact g1
      · exact g1

theorem State.Kept.execCollectiveTimeout {s : State} (h : s.Kept F C) : Out.Kept F C (execCollectiveTimeout s) := by
  unfold Machine.execCollectiveTimeout
  refine h.on fun g1 => ?_
  split
  · split
    · exact g1
    · split
      · exact .ite g1.failColl g1
      · exact g1

theorem State.Kept.collective {s : State} {i : Instr} {req : Mach → Issue → Lanes → CollReq} (h : s.Kept F C) :
    Out.Kept F C (s.collective i req) := by
  unfold State.collective
  extract_lets lost
  refine h.on fun g1 => ?_
  extract_lets before m1 n
  have h1 : m1.Form := g1.engineOp
  clear_value before
  split
  · split
    · split
      · split
        · rename_i x1 v1 m2 e1
          have h2 : m2.Form := .of_pair h1.takeWord e1
          exact h2.endColl
      · split
        · exact .lateColl (h1.of_eq rfl rfl le_rfl)
        · extract_lets m2 dead
          have h2 : m2.Form := h1.admitColls
          exact .ite h2 h2.failColl
    · exact h1
  · exact h1

theorem State.Kept.execAccFirstuse {s : State} (h : s.Kept F C) : Out.Kept F C (execAccFirstuse s) := by
  unfold Machine.execAccFirstuse
  refine h.on fun g1 => ?_
  split
  · split
    · exact g1
    · split
      · exact g1
      · extract_lets m1
        have h1 : m1.Form := g1.updTeam
        split
        · extract_lets o
          exact .ite h1 (.loadSlot (.ite h1.spillSlot h1))
        · exact h1

theorem State.Kept.execAccAcq {s : State} {c : Ctl} {slot : BitVec 6} (h : s.Kept F C) : Out.Kept F C (execAccAcq c slot s) := by
  unfold Machine.execAccAcq
  refine h.on fun g1 => g1.long (fun x x m g2 => ?_)
  extract_lets k ops
  dsimp only
  exact g2.firstUse.updToken

theorem State.Kept.execAccLd {s : State} {c : Ctl} {slot : BitVec 6} {quad : BitVec 3} {d : Reg} (h : s.Kept F C) :
    Out.Kept F C (execAccLd c slot quad d s) := by
  unfold Machine.execAccLd
  refine h.on fun g1 => g1.long (fun x act m g2 => ?_)
  extract_lets m1 p
  have h1 : m1.Form := g2.firstUse
  exact h1

theorem State.Kept.execAccZero {s : State} {c : Ctl} {slot : BitVec 6} {q : BitVec 2} {sh : Bool} (h : s.Kept F C) :
    Out.Kept F C (execAccZero c slot q sh s) := by
  unfold Machine.execAccZero
  refine h.on fun g1 => g1.act (fun x x m g2 => ?_)
  extract_lets m1 p
  have h1 : m1.Form := g2.firstUse
  split
  · extract_lets out
    exact h1.updCore

theorem State.Kept.execAccQ {s : State} {c : Ctl} {slot : BitVec 6} {d : Reg} (h : s.Kept F C) :
    Out.Kept F C (execAccQ c slot d s) := by
  unfold Machine.execAccQ
  refine h.on fun g1 => g1.act (fun x act m g2 => ?_)
  extract_lets k tok holder owned v m1
  have h1 : m1.Form := by
    unfold m1
    split
    · exact g2.updCore
    · exact g2
  exact h1.updFrame

theorem State.Kept.execAccSlotUpdate {s : State} (h : s.Kept F C) : Out.Kept F C (execAccSlotUpdate s) := by
  unfold Machine.execAccSlotUpdate
  refine h.on fun g1 => ?_
  extract_lets n
  split
  · exact g1
  · split
    · split
      · exact g1
      · split
        · extract_lets p d cells update m1 m2
          have h1 : m1.Form := .ite g1 g1.updCore
          have h2 : m2.Form := h1.updTeam
          exact h2.of_sub rfl (List.filter_subset_self _) le_rfl
    · exact g1

theorem State.Kept.execCvtPk {s : State} {c : Ctl} {d a b : Reg} (h : s.Kept F C) : Out.Kept F C (execCvtPk c d a b s) := by
  unfold Machine.execCvtPk
  refine h.on fun g1 => g1.long (fun x act m g2 => ?_)
  extract_lets rs bad
  exact g2.consume

theorem State.Kept.execMovsWrite {s : State} {c : Ctl} {r : SReg} {idx : BitVec 6} {a : Reg} (h : s.Kept F C) :
    Out.Kept F C (execMovsWrite c r idx a s) := by
  unfold Machine.execMovsWrite
  refine h.on fun g1 => g1.act (fun x act m g2 => ?_)
  extract_lets w
  split
  · exact g2.updTask
  · exact g2.updTask
  · exact g2.updTeam
  · exact g2.updTeam
  · exact g2

theorem State.Kept.execCtxSave {s : State} {c : Ctl} {d a b : Reg} (h : s.Kept F C) : Out.Kept F C (execCtxSave c d a b s) := by
  unfold Machine.execCtxSave
  refine h.on fun g1 => g1.long (fun x act m g2 => ?_)
  extract_lets team
  dsimp only
  clear_value team
  split
  · exact g2.beginSave
  · exact g2

theorem State.Kept.execLeaseTst {s : State} {c : Ctl} {d a : Reg} {pat : BitVec 24} (h : s.Kept F C) :
    Out.Kept F C (execLeaseTst c d a pat s) := by
  unfold Machine.execLeaseTst
  refine h.on fun g1 => g1.long (fun x act m g2 => ?_)
  extract_lets v
  exact g2

theorem State.Kept.execLeaseRel {s : State} {c : Ctl} {d a : Reg} (h : s.Kept F C) : Out.Kept F C (execLeaseRel c d a s) := by
  unfold Machine.execLeaseRel
  refine h.on fun g1 => g1.long (fun x act m g2 => ?_)
  extract_lets v
  exact g2

theorem State.Kept.execTlbInv {s : State} {c : Ctl} {a b : Reg} (h : s.Kept F C) : Out.Kept F C (execTlbInv c a b s) := by
  unfold Machine.execTlbInv
  refine h.on fun g1 => g1.long (fun x act m g2 => ?_)
  extract_lets v
  exact g2

theorem State.Kept.execBezelRd {s : State} {c : Ctl} {d a : Reg} {off : BitVec 24} (h : s.Kept F C) :
    Out.Kept F C (execBezelRd c d a off s) := by
  unfold Machine.execBezelRd
  refine h.on fun g1 => g1.long (fun x act m g2 => ?_)
  extract_lets v
  exact g2

theorem State.Kept.execBezelWr {s : State} {c : Ctl} {a b : Reg} {off : BitVec 24} (h : s.Kept F C) :
    Out.Kept F C (execBezelWr c a b off s) := by
  unfold Machine.execBezelWr
  refine h.on fun g1 => g1.long (fun x act m g2 => ?_)
  extract_lets v
  exact g2

theorem State.Kept.execGangRelaunch {s : State} (h : s.Kept F C) : Out.Kept F C (execGangRelaunch s) := by
  unfold Machine.execGangRelaunch
  refine h.on fun g1 => ?_
  split
  · extract_lets tks m1
    have h1 : m1.Form := g1.updLaunch
    split
    · exact g1
    · split
      · exact g1
      · refine h1.foldl fun m tk g2 => ?_
        extract_lets m2
        have h2 : m2.Form := .ite g2.seatWarps g2
        exact h2.updTeam.refill

theorem State.Kept.execDrainDone {s : State} (h : s.Kept F C) : Out.Kept F C (execDrainDone s) := by
  unfold Machine.execDrainDone
  refine h.on fun g1 => ?_
  extract_lets tk
  exact .ite g1.beginSave g1

theorem State.Kept.execDrainLimit {s : State} (h : s.Kept F C) : Out.Kept F C (execDrainLimit s) := by
  unfold Machine.execDrainLimit
  refine h.on fun g1 => ?_
  extract_lets tk
  exact .ite g1.beginSave g1

theorem State.Kept.execSaveComplete {s : State} (h : s.Kept F C) : Out.Kept F C (execSaveComplete s) := by
  unfold Machine.execSaveComplete
  extract_lets tk
  split
  · exact h
  · split
    · exact (h.updM fun g1 => g1.saveTeam).admitChosen
    · exact h

theorem State.Kept.execRestoreComplete {s : State} (h : s.Kept F C) : Out.Kept F C (execRestoreComplete s) := by
  unfold Machine.execRestoreComplete
  extract_lets tk asid
  split
  · exact .ite h.restoreTeam h
  · exact h

theorem State.Kept.execOperationComplete {s : State} {op : Nat} {serve : Serve} (h : s.Kept F C) :
    Out.Kept F C (execOperationComplete op serve s) := by
  unfold Machine.execOperationComplete
  split
  · exact h.completeOp
  · exact h

theorem State.Kept.execWatchdog {s : State} (h : s.Kept F C) : Out.Kept F C (execWatchdog s) := by
  unfold Machine.execWatchdog
  refine h.on fun g1 => ?_
  extract_lets t limit
  split
  · exact g1
  · extract_lets runs
    exact .ite g1 g1.endWait

theorem State.Kept.execRecoveryCapExpiry {s : State} (h : s.Kept F C) : Out.Kept F C (execRecoveryCapExpiry s) := by
  unfold Machine.execRecoveryCapExpiry
  refine h.on fun g1 => ?_
  extract_lets n
  split
  · exact .ite g1.loseOp g1
  · extract_lets hit
    exact .ite g1.endWait g1
  · exact g1.loseStores

/-- A command keeps what its effect keeps. -/
theorem State.Kept.command_self {s : State} {h0 : CmdHdr} {opcode : Nat} {onPart : Bool} {named : Option Nat} {chk : Status}
    {eff : State → State × Nat} (h : s.Kept F C) (he : (eff s).1.Kept F C) :
    Out.Kept F C (s.command h0 opcode onPart named chk eff) := by
  unfold State.command
  split
  · exact h
  · split
    · exact he.complete
    · exact h.complete
    · exact h.complete

theorem State.Kept.command {s : State} {h0 : CmdHdr} {opcode : Nat} {onPart : Bool} {named : Option Nat} {chk : Status}
    {eff : State → State × Nat} (h : s.Kept F C) (he : ∀ s, s.Kept F C → (eff s).1.Kept F C) :
    Out.Kept F C (s.command h0 opcode onPart named chk eff) :=
  h.command_self (he s h)

theorem State.Kept.execQueueCreate {s : State} {h0 : CmdHdr} {num kind logn vector base : Nat} {bind : Bool} (h : s.Kept F C) :
    Out.Kept F C (execQueueCreate h0 num kind logn vector base bind s) := by
  unfold Machine.execQueueCreate
  refine h.command (fun s g1 => ?_)
  dsimp only
  split
  · exact g1.updHub rfl
  · exact g1.updHub rfl

theorem State.Kept.execQueueDestroy {s : State} {h0 : CmdHdr} {num kind : Nat} (h : s.Kept F C) :
    Out.Kept F C (execQueueDestroy h0 num kind s) := by
  unfold Machine.execQueueDestroy
  extract_lets hub absent chk
  split
  · exact h.begin
  · refine h.command (fun s g1 => ?_)
    split
    · dsimp only
      exact g1.dropCommands.updHub rfl
    · dsimp only
      exact (g1.updHub rfl).unnameQueues

theorem State.Kept.execPartCreate {s : State} {h0 : CmdHdr} {q : Quota} (h : s.Kept F C) :
    Out.Kept F C (execPartCreate h0 q s) := by
  unfold Machine.execPartCreate
  refine h.command (fun s g1 => ?_)
  dsimp only
  exact g1.updHub rfl

theorem State.Kept.execPartSet {s : State} {h0 : CmdHdr} {q : Quota} (h : s.Kept F C) : Out.Kept F C (execPartSet h0 q s) := by
  unfold Machine.execPartSet
  refine h.command (fun s g1 => ?_)
  dsimp only
  exact g1.updHub rfl

theorem State.Kept.execCtxCreate {s : State} {h0 : CmdHdr} {root : Nat} (h : s.Kept F C) :
    Out.Kept F C (execCtxCreate h0 root s) := by
  unfold Machine.execCtxCreate
  extract_lets chk
  refine h.command (fun s g1 => ?_)
  split
  · dsimp only
    exact g1.updM fun g2 => g2.of_eq rfl rfl le_rfl
  · exact g1

theorem State.Kept.execLeasePolicy {s : State} {h0 : CmdHdr} {threshold inflight interval : Nat} (h : s.Kept F C) :
    Out.Kept F C (execLeasePolicy h0 threshold inflight interval s) := by
  unfold Machine.execLeasePolicy
  refine h.command_self ?_
  dsimp only
  exact h.updHub (Hub.seekLeases_freq _)

theorem State.Kept.execRetireRead {s : State} {h0 : CmdHdr} {first buffer count : Nat} (h : s.Kept F C) :
    Out.Kept F C (execRetireRead h0 first buffer count s) := by
  unfold Machine.execRetireRead
  extract_lets rs
  refine h.command (fun s g1 => ?_)
  dsimp only
  exact g1.updM fun g2 => g2.placeWrite _ _

theorem State.Kept.execAttest {s : State} {h0 : CmdHdr} {nonce buffer : Nat} (h : s.Kept F C) :
    Out.Kept F C (execAttest h0 nonce buffer s) := by
  unfold Machine.execAttest
  refine h.command (fun s g1 => ?_)
  extract_lets body
  dsimp only
  exact g1.updM fun g2 => g2.placeWrite _ _

theorem State.Kept.execPatchStage {s : State} {h0 : CmdHdr} {addr len : Nat} {slotB : Bool} (h : s.Kept F C) :
    Out.Kept F C (execPatchStage h0 addr len slotB s) := by
  unfold Machine.execPatchStage
  extract_lets image chk
  exact h.command (fun _ g1 => g1.of_eq rfl rfl)

theorem State.Kept.execLaunch {s : State} {h0 : CmdHdr} {record : Nat} (h : s.Kept F C) :
    Out.Kept F C (execLaunch h0 record s) := by
  unfold Machine.execLaunch
  extract_lets r slots room chk
  refine h.command_self ?_
  have hr {l : Launch} {root : Desc} {m : Mach} (e : r = some (l, root, m)) (hF : F) : m.Form := h.admissible e hF
  clear_value r slots
  split
  · exact .admitLaunch (h.withM (hr rfl) rfl)
  · exact h

theorem State.Kept.execCancel {s : State} {h0 : CmdHdr} {number : Nat} (h : s.Kept F C) :
    Out.Kept F C (execCancel h0 number s) := by
  unfold Machine.execCancel
  refine h.command (fun s g1 => ?_)
  split
  · rename_i x1 r1 s1 e1
    have h1 : s1.Kept F C := .of_pair g1.cancelLaunch e1
    exact h1

theorem State.Kept.ending {s : State} {h0 : CmdHdr} {opcode : Nat} {chk : Status} {p : Launch → Bool} {ready : State → Bool}
    {eff : State → State} (h : s.Kept F C) (he : ∀ s, s.Kept F C → (eff s).Kept F C) :
    Out.Kept F C (s.ending h0 opcode chk p ready eff) := by
  unfold State.ending
  split
  · extract_lets s1
    have h1 : s1.Kept F C := h.cancelAll
    split
    · exact h1.begin
    · exact (he s1 h1).complete
  · exact h.command fun _ g => g

theorem State.Kept.execPartDestroy {s : State} {h0 : CmdHdr} (h : s.Kept F C) : Out.Kept F C (execPartDestroy h0 s) := by
  unfold Machine.execPartDestroy
  refine h.ending (fun s g1 => ?_)
  extract_lets gone
  exact g1.unnameQueues.dropContexts.updHub rfl

theorem State.Kept.execResetWarm {s : State} {h0 : CmdHdr} (h : s.Kept F C) : Out.Kept F C (execResetWarm h0 s) := by
  unfold Machine.execResetWarm
  split
  · exact h
  · split
    · exact h.complete
    · extract_lets s1
      have h1 : s1.Kept F C := h.cancelAll
      split
      · exact h1.warm.forgetCommand.updHub rfl
      · exact h1.begin

theorem State.Kept.execResetFull {s : State} {h0 : CmdHdr} (h : s.Kept F C) : Out.Kept F C (execResetFull h0 s) := by
  unfold Machine.execResetFull
  split
  · exact h
  · split
    · exact h.complete
    · exact h.restart

theorem State.Kept.execAdminQueueStop {s : State} (h : s.Kept F C) : Out.Kept F C (execAdminQueueStop s) := by
  unfold Machine.execAdminQueueStop
  split
  · exact h
  · split
    · exact h.stopAdmin
    · split
      · exact h.closeAdmin
      · exact h

theorem State.Kept.execInboxDeliver {s : State} (h : s.Kept F C) : Out.Kept F C (execInboxDeliver s) := by
  unfold Machine.execInboxDeliver
  extract_lets ln
  split
  · exact h
  · split
    · refine h.updM fun g1 => ?_
      split
      · rename_i x1 x2 m1 e1
        have h1 : m1.Form := .of_pair g1.fresh e1
        extract_lets m2
        have h2 : m2.Form := .pushCold (h1.of_eq rfl rfl le_rfl)
        exact h2.updLaunch
    · exact h

theorem State.Kept.execPeerTask {s : State} {module handle : Nat} {desc : List Byte} (h : s.Kept F C) :
    Out.Kept F C (execPeerTask module handle desc s) := by
  unfold Machine.execPeerTask
  refine h.on fun g1 => ?_
  extract_lets __src d code m1
  have h1 : m1.Form := .ite g1.updLaunch g1
  exact h1.of_eq rfl rfl le_rfl

theorem State.Kept.execMapPages {s : State} {h0 : CmdHdr} {asid attrs va pa size : Nat} (h : s.Kept F C) :
    Out.Kept F C (execMapPages h0 asid attrs va pa size s) := by
  unfold Machine.execMapPages
  extract_lets a named new s1 chk s2
  have h1 : s1.Kept F C := h.updM fun g1 => g1.of_eq rfl rfl le_rfl
  have h2 : s2.Kept F C := h.updM fun g1 => .markEvicted (g1.of_eq rfl rfl le_rfl)
  split
  · split
    · exact h
    · split
      · exact h1.mapNow.complete
      · exact h1.complete
  · split
    · exact h2.begin
    · exact h.command (fun _ g1 => g1.mapNow)

theorem State.Kept.execUnmapPages {s : State} {h0 : CmdHdr} {asid va size : Nat} (h : s.Kept F C) :
    Out.Kept F C (execUnmapPages h0 asid va size s) := by
  unfold Machine.execUnmapPages
  extract_lets named busy chk rs
  split
  · split
    · exact h
    · exact h.complete
  · split
    · exact (h.updM fun g1 => g1.unmap).begin
    · refine h.command (fun s g1 => ?_)
      dsimp only
      exact g1.updM fun g2 => g2.unmap

theorem State.Kept.execDiscardRange {s : State} {h0 : CmdHdr} {asid va size : Nat} (h : s.Kept F C) :
    Out.Kept F C (execDiscardRange h0 asid va size s) := by
  unfold Machine.execDiscardRange
  extract_lets ctx
  refine h.command (fun s g1 => ?_)
  dsimp only
  exact g1.updM fun g2 => g2.foldl fun _ _ g3 => g3.discardPart

theorem State.Kept.execPeerMemoryRequest {s : State} {module pa : Nat} {req : PeerReq} (h : s.Kept F C) :
    Out.Kept F C (execPeerMemoryRequest module pa req s) := by
  unfold Machine.execPeerMemoryRequest
  refine h.on fun g1 => ?_
  split
  · exact g1
  · extract_lets r
    exact .drain (g1.of_eq rfl rfl (Nat.le_add_right _ _))

theorem State.Kept.execPeerHoldExpiry {s : State} (h : s.Kept F C) : Out.Kept F C (execPeerHoldExpiry s) := by
  unfold Machine.execPeerHoldExpiry
  refine h.on fun g1 => ?_
  split
  · exact g1
  · extract_lets held
    clear_value held
    split
    · exact g1.refuseFrom
    · exact g1

theorem State.Kept.domainCommand {s : State} {h0 : CmdHdr} {opcode die : Nat} {chk : Status} {start : State → State}
    (h : s.Kept F C) (hs : ∀ s, s.Kept F C → (start s).Kept F C) : Out.Kept F C (s.domainCommand h0 opcode die chk start) := by
  unfold State.domainCommand
  extract_lets free
  split
  · split
    · exact h.complete
    · exact h
  · split
    · split
      · exact (hs s h).begin
      · exact h
    · exact h.command fun _ g => g

theorem State.Kept.execDomainWritebackDone {s : State} (h : s.Kept F C) : Out.Kept F C (execDomainWritebackDone s) := by
  unfold Machine.execDomainWritebackDone
  refine h.on fun g1 => ?_
  split
  · extract_lets d ls m1 m2
    have h1 : m1.Form := g1.of_eq rfl rfl le_rfl
    have h2 : m2.Form := h1.foldl fun _ _ g2 => g2.packBlock
    exact .ite g1 h2.putDomain

theorem State.Kept.execDomainSwitchDone {s : State} (h : s.Kept F C) : Out.Kept F C (execDomainSwitchDone s) := by
  unfold Machine.execDomainSwitchDone
  refine h.on fun g1 => ?_
  split
  · extract_lets d
    split
    · exact g1
    · split
      · exact g1.switchEntry.drain
      · extract_lets e
        split
        · exact g1
        · split
          · split
            · extract_lets m1 z
              have h1 : m1.Form := g1.switchEntry.switchEntry
              exact h1.putDomain.drain
          · exact g1.switchEntry.switchEntry.drain

theorem State.Kept.execStaleGenReturn {s : State} (h : s.Kept F C) : Out.Kept F C (execStaleGenReturn s) := by
  unfold Machine.execStaleGenReturn
  refine h.on fun g1 => ?_
  extract_lets d
  exact .ite g1.putDomain g1

theorem State.Kept.execDomainReplayDone {s : State} (h : s.Kept F C) : Out.Kept F C (execDomainReplayDone s) := by
  unfold Machine.execDomainReplayDone
  split
  · extract_lets d s1 over_
    have h1 : s1.Kept F C := h.updM fun g1 => g1.putDomain
    split
    · exact .ite (h1.updHub rfl) h1
    · exact h

theorem State.Kept.execMigrationSwitch {s : State} (h : s.Kept F C) : Out.Kept F C (execMigrationSwitch s) := by
  unfold Machine.execMigrationSwitch
  split
  · exact h
  · extract_lets s1
    have h1 : s1.Kept F C := by
      unfold s1
      refine h.updM fun g1 => ?_
      extract_lets m1
      have h1 : m1.Form := .ite g1 g1.remap.copyFrame.retarget
      exact h1.of_eq rfl rfl le_rfl
    exact (h1.foldl fun _ _ g1 => g1.passGate).updM fun g1 => g1.nextBlock.drain

theorem State.Kept.execLeaseNow {s : State} {h0 : CmdHdr} {u : UnitRef} (h : s.Kept F C) :
    Out.Kept F C (execLeaseNow h0 u s) := by
  unfold Machine.execLeaseNow
  extract_lets known
  refine h.command_self ?_
  split
  rename_i n hub e
  have e1 : hub.freq = s.sys.hub.freq := by rw [← Hub.requestLease_freq s.sys.hub u, e]
  exact State.Kept.updHub (f := fun _ => hub) h e1

theorem State.Kept.execLeaseStart {s : State} (h : s.Kept F C) : Out.Kept F C (execLeaseStart s) := by
  unfold Machine.execLeaseStart
  split
  · exact .ite h.beginDrain h
  · exact h

theorem State.Kept.execLeaseDrainDone {s : State} (h : s.Kept F C) : Out.Kept F C (execLeaseDrainDone s) := by
  unfold Machine.execLeaseDrainDone
  extract_lets n
  split
  · exact h
  · split
    · exact h
    · split
      · exact .ite h.splitOut h.drainCores
      · split
        · exact h.evacuate
        · exact (h.updM fun g1 => g1.testUnit).updHub rfl

theorem State.Kept.execLeaseTestDone {s : State} {lease : Nat} {r : TestResult} (h : s.Kept F C) :
    Out.Kept F C (execLeaseTestDone lease r s) := by
  unfold Machine.execLeaseTestDone
  split
  · exact h
  · extract_lets only
    split
    · exact h
    · split
      · exact h
      · exact h.updHub (Hub.passScore_freq _ _ _)

theorem State.Kept.execLeaseReturn {s : State} (h : s.Kept F C) : Out.Kept F C (execLeaseReturn s) := by
  unfold Machine.execLeaseReturn
  extract_lets n
  split
  · exact h
  · extract_lets busy s1
    have h1 : s1.Kept F C := by
      unfold s1
      split
      · exact .ite h.setConn h
      · exact h
    split
    · exact h
    · split
      · exact h.mergeBack
      · exact h1.backIn.endLease

theorem State.Kept.execLeaseRetire {s : State} (h : s.Kept F C) : Out.Kept F C (execLeaseRetire s) := by
  unfold Machine.execLeaseRetire
  extract_lets n
  split
  · exact h
  · extract_lets u busy stack s1
    have h1 : s1.Kept F C := h.appendRecord.startMoves
    split
    · exact h
    · split
      · exact .ite h.shrink h.finishRetire
      · split
        · split
          · exact h.appendRecord.finishRetire
          · exact h1.updHub rfl
        · split
          · rename_i x1 spare1 s2 e1
            have h2 : s2.Kept F C := .of_pair h.replaceUnit e1
            split
            · exact h2.mergeBack
            · exact h2.finishRetire

theorem State.Kept.execUncorrectableError {s : State} {u : UnitRef} {p : ErrPlace} (h : s.Kept F C) :
    Out.Kept F C (execUncorrectableError u p s) := by
  unfold Machine.execUncorrectableError
  extract_lets s1
  have h1 : s1.Kept F C := h.charge
  split
  · exact .ite h1.poisonLine h1.poisonBlock
  · exact h1.poisonBlock
  · exact h1.coreError
  · exact h1.coreError

theorem State.Kept.execHourlyScoreDecay {s : State} (h : s.Kept F C) : Out.Kept F C (execHourlyScoreDecay s) := by
  unfold Machine.execHourlyScoreDecay
  split
  · exact h
  · exact (h.updHub rfl).saveScores

theorem State.Kept.execScrubPass {s : State} {stack channel corrected : Nat} {bad : List Nat} (h : s.Kept F C) :
    Out.Kept F C (execScrubPass stack channel corrected bad s) := by
  unfold Machine.execScrubPass
  extract_lets h2 u key forced due s1 s2
  have h1 : s1.Kept F C := h.countCorrected
  have h3 : s2.Kept F C := h1.foldl fun _ _ g1 => g1.charge.poisonBlock
  split
  · exact h
  · exact h3.updHub rfl

theorem State.Kept.execPowerOn {s : State} {bad moved : List UnitRef} {link : HostLink} (h : s.Kept F C) :
    Out.Kept F C (execPowerOn bad moved link s) := by
  unfold Machine.execPowerOn
  split
  · exact h.restart.startup
  · exact h

/-- A multiple of 3 above 18 is 21 at least: a step down stays at 18 or above. -/
theorem State.Kept.execThermalStepDown {s : State} (h : s.Kept F C) : Out.Kept F C (execThermalStepDown s) := by
  unfold Machine.execThermalStepDown
  extract_lets t s1
  have h1 : s1.Kept F C := h.report
  split
  · exact h
  · refine .next ?_
    split
    · rename_i hc
      refine h1.stepClock fun hC => ?_
      obtain ⟨-, hi, h3⟩ := h1.clock hC
      have lo : 18 < s1.sys.hub.freq := by simpa using (Bool.and_eq_true_iff.1 hc).2
      omega
    · exact h1

/-- A multiple of 3 below 36 is 33 at most: a step up stays at 36 or below. -/
theorem State.Kept.execThermalStepUp {s : State} (h : s.Kept F C) : Out.Kept F C (execThermalStepUp s) := by
  unfold Machine.execThermalStepUp
  split
  · exact h
  · extract_lets s1 s2
    have h1 : s1.Kept F C := h.report
    have h2 : s2.Kept F C := h1.updHub rfl
    split
    · refine .next ?_
      split
      · rename_i hi
        refine h2.stepClock fun hC => ?_
        obtain ⟨lo, -, h3⟩ := h2.clock hC
        omega
      · exact h2
    · exact h1

theorem State.Kept.execThermalHalt {s : State} (h : s.Kept F C) : Out.Kept F C (execThermalHalt s) := by
  unfold Machine.execThermalHalt
  split
  · exact h
  · extract_lets s1
    have h1 : s1.Kept F C := h.report
    exact .ite (h1.haltLaunches.updHub rfl) h1

theorem State.Kept.execMtimeRecord {s : State} (h : s.Kept F C) : Out.Kept F C (execMtimeRecord s) := by
  unfold Machine.execMtimeRecord
  split
  · exact h
  · exact h.of_eq rfl rfl

theorem State.Kept.execHostLinkTrain {s : State} {link : HostLink} (h : s.Kept F C) :
    Out.Kept F C (execHostLinkTrain link s) := by
  unfold Machine.execHostLinkTrain
  extract_lets old s1 s2
  have h1 : s1.Kept F C := h.updHub rfl
  have h2 : s2.Kept F C := .ite h1 h1.capacityChange
  split
  · exact h
  · exact .ite h2 h2.linkEvent

theorem State.Kept.execHostSnoop {s : State} {line : Nat} {data : Option (List Byte)} (h : s.Kept F C) :
    Out.Kept F C (execHostSnoop line data s) := by
  unfold Machine.execHostSnoop
  refine h.on fun g => ?_
  split
  · exact g
  · split
    · exact g.of_wf (Memory.wf_writeN _ _ _ g.mem) rfl le_rfl
    · exact g.of_eq rfl rfl le_rfl

theorem State.Kept.execHostHdmAccess {s : State} {pa size : Nat} {data : Option (List Byte)} (h : s.Kept F C) :
    Out.Kept F C (execHostHdmAccess pa size data s) := by
  unfold Machine.execHostHdmAccess
  split
  · trivial
  · split
    · exact h
    · split
      · split
        · exact h
        · exact h.updM fun g1 => g1.hostRead
      · split
        · exact h
        · exact h.updM fun g1 => g1.hostWrite

theorem State.Kept.execPeerLinkUp {s : State} (h : s.Kept F C) : Out.Kept F C (execPeerLinkUp s) := by
  unfold Machine.execPeerLinkUp
  split
  · split
    · exact h
    · extract_lets old s1
      have h1 : s1.Kept F C := .setConn (h.updM fun g1 => g1.of_eq rfl rfl le_rfl)
      refine .next ?_
      clear_value old
      split
      · exact h1.dropLinkless
      · exact h1

theorem State.Kept.execPeerLinkRecovering {s : State} (h : s.Kept F C) : Out.Kept F C (execPeerLinkRecovering s) := by
  unfold Machine.execPeerLinkRecovering
  split
  · exact h.setConn
  · exact h

theorem State.Kept.execPeerLinkDown {s : State} (h : s.Kept F C) : Out.Kept F C (execPeerLinkDown s) := by
  unfold Machine.execPeerLinkDown
  extract_lets p
  split
  · exact h
  · exact .loseConn (h.updM fun g1 => g1.of_eq rfl rfl le_rfl)

theorem State.Kept.execPowerGate {s : State} (h : s.Kept F C) : Out.Kept F C (execPowerGate s) := by
  unfold Machine.execPowerGate
  refine h.on fun g1 => ?_
  split
  · exact .ite (g1.of_eq rfl rfl le_rfl) g1

theorem State.Kept.execReplicaEvict {s : State} (h : s.Kept F C) : Out.Kept F C (execReplicaEvict s) := by
  unfold Machine.execReplicaEvict
  refine h.on fun g1 => ?_
  extract_lets key
  exact .ite (g1.of_eq rfl rfl le_rfl) g1

theorem State.Kept.execTailWrite {s : State} {queue : Nat} {tail : Word} (h : s.Kept F C) :
    Out.Kept F C (execTailWrite queue tail s) := by
  unfold Machine.execTailWrite
  split
  · exact h
  · extract_lets s1 ahead
    have h1 : s1.Kept F C := h.updM fun g1 => g1.placeWrite _ _
    split
    · exact h1
    · split
      · exact (h1.updHub rfl).event
      · exact h1.consumeEntries

theorem State.Kept.execEventHeadWrite {s : State} {queue : Nat} {head : Word} (h : s.Kept F C) :
    Out.Kept F C (execEventHeadWrite queue head s) := by
  unfold Machine.execEventHeadWrite
  split
  · exact h
  · exact (h.updM fun g1 => g1.placeWrite _ _).flushQueue

theorem State.Kept.execRegisterWrite {s : State} {reg : RegAddr} {value : DWord} (h : s.Kept F C) :
    Out.Kept F C (execRegisterWrite reg value s) := by
  unfold Machine.execRegisterWrite
  split
  · exact h.setHdm
  · exact h.barWrite
  · exact h.mgmtWrite

/-- Every instruction and every event keeps the form and the clock. -/
theorem State.Kept.exec {s : State} {i : Instr} (h : s.Kept F C) : Out.Kept F C (exec i s) := by
  cases i
  case powerOn => exact h.execPowerOn
  case undervoltage => exact show Out.Kept F C (execUndervoltage s) from h.restart.updHub rfl
  case hostLinkTrain => exact h.execHostLinkTrain
  case peerLinkUp => exact h.execPeerLinkUp
  case peerLinkRecovering => exact h.execPeerLinkRecovering
  case peerLinkDown => exact h.execPeerLinkDown
  case thermalStepDown => exact h.execThermalStepDown
  case thermalStepUp => exact h.execThermalStepUp
  case thermalHalt => exact h.execThermalHalt
  case mtimeRecord => exact h.execMtimeRecord
  case hourlyScoreDecay => exact h.execHourlyScoreDecay
  case adminQueueStart => exact show Out.Kept F C (execAdminQueueStart s) from h.startAdmin
  case adminQueueStop => exact h.execAdminQueueStop
  case registerWrite => exact h.execRegisterWrite
  case scrubForce => exact show Out.Kept F C (execScrubForce s) from h.updHub rfl
  case rplctlWrite => exact show Out.Kept F C (execRplctlWrite _ _ s) from h.on fun g1 => g1.writeRplctl
  case tailWrite => exact h.execTailWrite
  case eventHeadWrite => exact h.execEventHeadWrite
  case unknownCommand => exact show Out.Kept F C (execUnknownCommand _ _ s) from h.command fun _ g1 => g1
  case queueCreate => exact h.execQueueCreate
  case queueDestroy => exact h.execQueueDestroy
  case partCreate => exact h.execPartCreate
  case partSet => exact h.execPartSet
  case partDestroy => exact h.execPartDestroy
  case ctxCreate =>
    unfold Machine.exec
    exact h.execCtxCreate
  case ctxDestroy => exact show Out.Kept F C (execCtxDestroy _ _ s) from h.ending fun _ g1 => g1.dropContexts
  case mapPages => exact h.execMapPages
  case unmapPages => exact h.execUnmapPages
  case discardRange => exact h.execDiscardRange
  case launch => exact h.execLaunch
  case cancel => exact h.execCancel
  case leasePolicy => exact h.execLeasePolicy
  case leaseNow => exact h.execLeaseNow
  case retireRead => exact h.execRetireRead
  case attest => exact h.execAttest
  case domainSplit => exact show Out.Kept F C (execDomainSplit _ _ _ _ _ _ s) from h.domainCommand fun _ g1 => g1.startSplit
  case domainMerge => exact show Out.Kept F C (execDomainMerge _ _ _ _ _ s) from h.domainCommand fun _ g1 => g1.startMerge
  case patchStage => exact h.execPatchStage
  case resetWarm => exact h.execResetWarm
  case resetFull => exact h.execResetFull
  case mgmtRead => exact show Out.Kept F C (execMgmtRead _ _ _ s) from h.command fun _ g1 => g1
  case mgmtWrite => exact show Out.Kept F C (execMgmtWrite _ _ _ _ s) from h.command fun _ g1 => g1.mgmtWrite
  case correctedError => exact show Out.Kept F C (execCorrectedError _ _ s) from .ite h.countCorrected h.charge
  case uncorrectableError => exact h.execUncorrectableError
  case scrubPass => exact h.execScrubPass
  case scrubYield => exact show Out.Kept F C (execScrubYield _ _ s) from h.updHub rfl
  case leaseStart => exact h.execLeaseStart
  case leaseDrainDone => exact h.execLeaseDrainDone
  case leaseTestDone => exact h.execLeaseTestDone
  case leaseReturn => exact h.execLeaseReturn
  case leaseRetire => exact h.execLeaseRetire
  case migrationSwitch => exact h.execMigrationSwitch
  case peerHoldExpiry => exact h.execPeerHoldExpiry
  case domainWritebackDone => exact h.execDomainWritebackDone
  case domainSwitchDone => exact h.execDomainSwitchDone
  case domainReplayDone => exact h.execDomainReplayDone
  case staleGenReturn => exact h.execStaleGenReturn
  case wake => exact show Out.Kept F C (execWake s) from h.on fun g1 => g1.of_eq rfl rfl le_rfl
  case wakeRelease => exact show Out.Kept F C (execWakeRelease s) from h.on fun g1 => g1.of_eq rfl rfl le_rfl
  case replicaEvict => exact h.execReplicaEvict
  case hostSnoop => exact h.execHostSnoop
  case hostHdmAccess => exact h.execHostHdmAccess
  case peerMemoryRequest => exact h.execPeerMemoryRequest
  case peerReply => exact show Out.Kept F C (execPeerReply _ _ s) from h.on fun g1 => g1.updOp
  case peerTask => exact h.execPeerTask
  case peerFuture => exact show Out.Kept F C (execPeerFuture _ _ _ _ s) from h.on fun g1 => g1.postCell
  case inboxDeliver => exact h.execInboxDeliver
  case accountingWindow => exact show Out.Kept F C (execAccountingWindow s) from h.boundary
  case drainDone => exact h.execDrainDone
  case drainLimit => exact h.execDrainLimit
  case saveComplete => exact h.execSaveComplete
  case restoreComplete => exact h.execRestoreComplete
  case gangKill => exact show Out.Kept F C (execGangKill s) from h.killGang.admitFreed
  case gangRelaunch => exact h.execGangRelaunch
  case launchCompletion => exact show Out.Kept F C (execLaunchCompletion s) from h.finishLaunch
  case accFirstuse => exact h.execAccFirstuse
  case stagingStart => exact h.execStagingStart
  case stagingComplete => exact show Out.Kept F C (execStagingComplete s) from h.on fun g1 => g1.stageTask
  case lsShortage => exact h.execLsShortage
  case taskStart => exact h.execTaskStart
  case stealRequest => exact h.execStealRequest
  case stealRequestReceive => exact h.execStealRequestReceive
  case stealReply => exact h.execStealReply
  case stealBackoff => exact h.execStealBackoff
  case stealIdleThreshold => exact h.execStealIdleThreshold
  case frameStarved => exact h.execFrameStarved
  case frameGrant => exact h.execFrameGrant
  case pathSelection => exact h.execPathSelection
  case operationComplete => exact h.execOperationComplete
  case storeAck => exact show Out.Kept F C (execStoreAck s) from h.on fun g1 => g1.ackStore
  case engineComplete => exact show Out.Kept F C (execEngineComplete s) from h.on fun g1 => g1.engineDone
  case collectiveCommit => exact h.execCollectiveCommit
  case collectiveTimeout => exact h.execCollectiveTimeout
  case reductionElementApply => exact h.execReductionElementApply
  case accSlotUpdate => exact h.execAccSlotUpdate
  case joinWake => exact h.execJoinWake
  case demandZeroFill => exact show Out.Kept F C (execDemandZeroFill s) from h.on fun g1 => .ite g1.demandFill g1
  case watchdog => exact h.execWatchdog
  case recoveryCapExpiry => exact h.execRecoveryCapExpiry
  case sleepExpiry => exact show Out.Kept F C (execSleepExpiry s) from h.on fun g1 => g1.updWarp
  case nop => exact show Out.Kept F C (execNop _ s) from h.on fun g1 => g1.act fun _ _ _ g2 => g2
  case bra => exact show Out.Kept F C (execBra _ _ s) from h.on fun g1 => g1.transfer
  case braAny => exact show Out.Kept F C (execBraAny _ _ _ s) from h.on fun g1 => g1.transfer
  case braAll => exact show Out.Kept F C (execBraAll _ _ _ s) from h.on fun g1 => g1.transfer
  case jmp => exact show Out.Kept F C (execJmp _ _ s) from h.on fun g1 => g1.transfer
  case call => exact show Out.Kept F C (execCall _ _ _ _ _ s) from h.on fun g1 => g1.callOp
  case callI => exact show Out.Kept F C (execCallI _ _ _ _ _ s) from h.on fun g1 => g1.callOp
  case ret => exact h.execRet
  case unwindTo => exact h.execUnwindTo
  case exit => exact h.execExit
  case yield => exact show Out.Kept F C (execYield _ s) from h.on fun g1 => g1.issue fun _ _ _ g2 => g2
  case setpri => exact show Out.Kept F C (execSetpri _ _ s) from h.on fun g1 => g1.act fun _ _ _ g2 => g2.updTask
  case wflag => exact h.execWflag
  case trap => exact show Out.Kept F C (execTrap _ _ _ s) from h.on fun g1 => g1.act fun _ _ _ g2 => g2
  case iadd => exact show Out.Kept F C (execIadd _ _ _ _ _ _ s) from h.intOp
  case isub => exact show Out.Kept F C (execIsub _ _ _ _ _ _ s) from h.intOp
  case imul => exact show Out.Kept F C (execImul _ _ _ _ _ _ s) from h.intOp
  case imulhi => exact show Out.Kept F C (execImulhi _ _ _ _ _ s) from h.intOp
  case imad => exact show Out.Kept F C (execImad _ _ _ _ _ _ _ s) from h.intOp
  case ineg => exact show Out.Kept F C (execIneg _ _ _ _ s) from h.intOp
  case iabs => exact show Out.Kept F C (execIabs _ _ _ _ s) from h.intOp
  case imin => exact show Out.Kept F C (execImin _ _ _ _ _ s) from h.intOp
  case imax => exact show Out.Kept F C (execImax _ _ _ _ _ s) from h.intOp
  case iaddW => exact show Out.Kept F C (execIaddW _ _ _ _ _ _ s) from h.intOp
  case isubW => exact show Out.Kept F C (execIsubW _ _ _ _ _ _ s) from h.intOp
  case imulW => exact show Out.Kept F C (execImulW _ _ _ _ _ s) from h.pairOp
  case imadW => exact show Out.Kept F C (execImadW _ _ _ _ _ _ s) from h.pairOp
  case lea => exact show Out.Kept F C (execLea _ _ _ _ _ _ _ s) from h.pairOp
  case mov => exact show Out.Kept F C (execMov _ _ _ s) from h.wordOp
  case movW => exact show Out.Kept F C (execMovW _ _ _ s) from h.pairOp
  case movi => exact show Out.Kept F C (execMovi _ _ _ s) from h.wordOp
  case moviL => exact show Out.Kept F C (execMoviL _ _ _ _ s) from h.on fun g1 => g1.alu
  case iaddi => exact show Out.Kept F C (execIaddi _ _ _ _ _ _ s) from h.intOp
  case idiv => exact show Out.Kept F C (execIdiv _ _ _ _ _ _ s) from h.on fun g1 => g1.longAlu
  case irem => exact show Out.Kept F C (execIrem _ _ _ _ _ s) from h.on fun g1 => g1.longAlu
  case sad => exact show Out.Kept F C (execSad _ _ _ _ _ _ s) from h.intOp
  case and => exact show Out.Kept F C (execAnd _ _ _ _ s) from h.wordOp
  case or => exact show Out.Kept F C (execOr _ _ _ _ s) from h.wordOp
  case xor => exact show Out.Kept F C (execXor _ _ _ _ s) from h.wordOp
  case not => exact show Out.Kept F C (execNot _ _ _ s) from h.wordOp
  case lmix => exact show Out.Kept F C (execLmix _ _ _ _ _ _ _ s) from h.wordOp
  case shl => exact show Out.Kept F C (execShl _ _ _ _ s) from h.wordOp
  case shr => exact show Out.Kept F C (execShr _ _ _ _ s) from h.wordOp
  case sar => exact show Out.Kept F C (execSar _ _ _ _ s) from h.wordOp
  case rot => exact show Out.Kept F C (execRot _ _ _ _ s) from h.wordOp
  case shlW => exact show Out.Kept F C (execShlW _ _ _ _ s) from h.pairOp
  case shrW => exact show Out.Kept F C (execShrW _ _ _ _ _ s) from h.pairOp
  case bfe => exact show Out.Kept F C (execBfe _ _ _ _ _ _ s) from h.wordOp
  case bfi => exact show Out.Kept F C (execBfi _ _ _ _ _ _ s) from h.wordOp
  case popc => exact show Out.Kept F C (execPopc _ _ _ s) from h.wordOp
  case clz => exact show Out.Kept F C (execClz _ _ _ s) from h.wordOp
  case brev => exact show Out.Kept F C (execBrev _ _ _ s) from h.wordOp
  case icmp => exact show Out.Kept F C (execIcmp _ _ _ _ _ _ s) from h.wordOp
  case icmpW => exact show Out.Kept F C (execIcmpW _ _ _ _ _ _ s) from h.wordOp
  case fcmp => exact show Out.Kept F C (execFcmp _ _ _ _ _ s) from h.on fun g1 => g1.alu
  case sel => exact show Out.Kept F C (execSel _ _ _ _ _ _ s) from h.on fun g1 => g1.alu
  case ballot => exact show Out.Kept F C (execBallot _ _ _ s) from h.on fun g1 => g1.alu
  case shfl => exact show Out.Kept F C (execShfl _ _ _ _ s) from h.shuffle
  case shflUp => exact show Out.Kept F C (execShflUp _ _ _ _ s) from h.shuffle
  case shflDown => exact show Out.Kept F C (execShflDown _ _ _ _ s) from h.shuffle
  case shflXor => exact show Out.Kept F C (execShflXor _ _ _ _ s) from h.shuffle
  case bcast => exact show Out.Kept F C (execBcast _ _ _ _ s) from h.on fun g1 => g1.alu
  case wred => exact show Out.Kept F C (execWred _ _ _ _ _ _ s) from h.on fun g1 => g1.alu
  case wscan => exact show Out.Kept F C (execWscan _ _ _ _ _ _ _ s) from h.on fun g1 => g1.alu
  case fadd => exact show Out.Kept F C (execFadd _ _ _ _ _ s) from h.fpOp
  case fsub => exact show Out.Kept F C (execFsub _ _ _ _ _ s) from h.fpOp
  case fmul => exact show Out.Kept F C (execFmul _ _ _ _ _ s) from h.fpOp
  case ffma => exact show Out.Kept F C (execFfma _ _ _ _ _ _ s) from h.fpOp
  case fmin => exact show Out.Kept F C (execFmin _ _ _ _ s) from h.fpOp
  case fmax => exact show Out.Kept F C (execFmax _ _ _ _ s) from h.fpOp
  case fabs => exact show Out.Kept F C (execFabs _ _ _ s) from h.wordOp
  case fneg => exact show Out.Kept F C (execFneg _ _ _ s) from h.wordOp
  case ffloor => exact show Out.Kept F C (execFfloor _ _ _ s) from h.fpOp
  case fceil => exact show Out.Kept F C (execFceil _ _ _ s) from h.fpOp
  case ftrunc => exact show Out.Kept F C (execFtrunc _ _ _ s) from h.fpOp
  case frint => exact show Out.Kept F C (execFrint _ _ _ _ s) from h.fpOp
  case fclass => exact show Out.Kept F C (execFclass _ _ _ s) from h.wordOp
  case fscale => exact show Out.Kept F C (execFscale _ _ _ _ _ s) from h.fpOp
  case ffrac => exact show Out.Kept F C (execFfrac _ _ _ _ s) from h.fpOp
  case frcp => exact show Out.Kept F C (execFrcp _ _ _ _ s) from h.fpLong
  case frsq => exact show Out.Kept F C (execFrsq _ _ _ _ s) from h.fpLong
  case fsqrt => exact show Out.Kept F C (execFsqrt _ _ _ _ s) from h.fpLong
  case fdiv => exact show Out.Kept F C (execFdiv _ _ _ _ _ s) from h.fpLong
  case fexp2 => exact show Out.Kept F C (execFexp2 _ _ _ s) from h.fpLong
  case flog2 => exact show Out.Kept F C (execFlog2 _ _ _ s) from h.fpLong
  case fsin => exact show Out.Kept F C (execFsin _ _ _ s) from h.fpLong
  case fcos => exact show Out.Kept F C (execFcos _ _ _ s) from h.fpLong
  case ftanh => exact show Out.Kept F C (execFtanh _ _ _ s) from h.fpLong
  case hadd => exact show Out.Kept F C (execHadd _ _ _ _ _ _ s) from h.halfOp
  case hsub => exact show Out.Kept F C (execHsub _ _ _ _ _ _ s) from h.halfOp
  case hmul => exact show Out.Kept F C (execHmul _ _ _ _ _ _ s) from h.halfOp
  case hfma => exact show Out.Kept F C (execHfma _ _ _ _ _ _ _ s) from h.halfOp
  case hmin => exact show Out.Kept F C (execHmin _ _ _ _ _ s) from h.halfOp
  case hmax => exact show Out.Kept F C (execHmax _ _ _ _ _ s) from h.halfOp
  case hdot2 => exact show Out.Kept F C (execHdot2 _ _ _ _ _ _ _ s) from h.fpOp
  case hcmp => exact show Out.Kept F C (execHcmp _ _ _ _ _ _ s) from h.on fun g1 => g1.alu
  case cvt => exact show Out.Kept F C (execCvt _ _ _ _ _ _ _ s) from h.fpOp
  case cvtW => exact show Out.Kept F C (execCvtW _ _ _ _ _ _ _ s) from h.on fun g1 => g1.alu
  case icvt => exact show Out.Kept F C (execIcvt _ _ _ _ _ _ _ s) from h.on fun g1 => g1.alu
  case cvtX2 => exact show Out.Kept F C (execCvtX2 _ _ _ _ _ _ _ _ s) from h.on fun g1 => g1.alu
  case cvtX4 => exact show Out.Kept F C (execCvtX4 _ _ _ _ _ _ _ _ _ _ s) from h.on fun g1 => g1.alu
  case cvtEl => exact show Out.Kept F C (execCvtEl _ _ _ _ _ s) from h.fpOp
  case cvtPk => exact h.execCvtPk
  case ld => exact show Out.Kept F C (execLd _ _ _ _ _ s) from h.on fun g1 => g1.load
  case ldX4 => exact show Out.Kept F C (execLdX4 _ _ _ _ _ s) from h.on fun g1 => g1.load
  case st => exact show Out.Kept F C (execSt _ _ _ _ _ s) from h.on fun g1 => g1.store
  case ldl => exact show Out.Kept F C (execLdl _ _ _ _ _ s) from h.on fun g1 => g1.load
  case ldlX4 => exact show Out.Kept F C (execLdlX4 _ _ _ _ _ s) from h.on fun g1 => g1.load
  case stl => exact show Out.Kept F C (execStl _ _ _ _ _ s) from h.on fun g1 => g1.store
  case ldw => exact show Out.Kept F C (execLdw _ _ _ _ _ s) from h.on fun g1 => g1.load
  case ldwX4 => exact show Out.Kept F C (execLdwX4 _ _ _ _ _ s) from h.on fun g1 => g1.load
  case stw => exact show Out.Kept F C (execStw _ _ _ _ _ s) from h.on fun g1 => g1.store
  case pf => exact h.execPf
  case tld => exact show Out.Kept F C (execTld _ _ _ _ s) from h.on fun g1 => g1.tile
  case tst => exact show Out.Kept F C (execTst _ _ _ _ s) from h.on fun g1 => g1.tile
  case pft => exact h.execPft
  case dcinv => exact show Out.Kept F C (execDcinv _ s) from h.on fun g1 => g1.act fun _ _ _ g2 => g2.updCore
  case icinv => exact show Out.Kept F C (execIcinv _ s) from h.on fun g1 => g1.act fun _ _ _ g2 => g2.updCore
  case dsc => exact show Out.Kept F C (execDsc _ _ _ s) from h.on fun g1 => g1.purge
  case cwb => exact show Out.Kept F C (execCwb _ _ _ s) from h.on fun g1 => g1.purge
  case aadd => exact show Out.Kept F C (execAadd _ _ _ _ _ _ s) from h.on fun g1 => g1.atomic
  case amin => exact show Out.Kept F C (execAmin _ _ _ _ _ _ s) from h.on fun g1 => g1.atomic
  case amax => exact show Out.Kept F C (execAmax _ _ _ _ _ _ s) from h.on fun g1 => g1.atomic
  case alog => exact show Out.Kept F C (execAlog _ _ _ _ _ _ _ s) from h.on fun g1 => g1.atomic
  case axchg => exact show Out.Kept F C (execAxchg _ _ _ _ _ _ s) from h.on fun g1 => g1.atomic
  case acas => exact show Out.Kept F C (execAcas _ _ _ _ _ _ _ s) from h.on fun g1 => g1.atomic
  case afadd => exact show Out.Kept F C (execAfadd _ _ _ _ _ _ _ s) from h.on fun g1 => g1.atomic
  case afmin => exact show Out.Kept F C (execAfmin _ _ _ _ _ _ s) from h.on fun g1 => g1.atomic
  case afmax => exact show Out.Kept F C (execAfmax _ _ _ _ _ _ s) from h.on fun g1 => g1.atomic
  case rctx => exact h.execRctx
  case rdet => exact h.execRdet
  case rclose => exact show Out.Kept F C (execRclose _ _ _ s) from h.on fun g1 => g1.long fun _ _ _ g2 => g2
  case fence => exact show Out.Kept F C (execFence _ _ s) from h.on fun g1 => g1.act fun _ _ _ g2 => g2.released.acquire
  case acq => exact show Out.Kept F C (execAcq _ _ s) from h.on fun g1 => g1.act fun _ _ _ g2 => g2.acquire
  case rel => exact show Out.Kept F C (execRel _ _ s) from h.on fun g1 => g1.act fun _ _ _ g2 => g2.released
  case acqRp => exact h.execAcqRp
  case bar => exact h.execBar
  case barArr => exact h.execBarArr
  case barWait => exact h.execBarWait
  case bbInit => exact h.execBbInit
  case bbExp => exact h.execBbExp
  case bbWait => exact h.execBbWait
  case spawn => exact h.execSpawn
  case spawnR => exact h.execSpawnR
  case join => exact show Out.Kept F C (execJoin _ _ _ s) from h.on fun g1 => g1.joinOp
  case joinT => exact show Out.Kept F C (execJoinT _ _ _ s) from h.on fun g1 => g1.joinOp
  case resolve => exact h.execResolve
  case taskEnd => exact h.execTaskEnd
  case finOpen => exact show Out.Kept F C (execFinOpen _ _ _ _ s) from h.on fun g1 => g1.long fun _ _ _ g2 => g2
  case finClose => exact h.execFinClose
  case finWait => exact h.execFinWait
  case capq => exact show Out.Kept F C (execCapq _ _ _ s) from h.on fun g1 => g1.act fun _ _ _ g2 => g2.updFrame
  case bcopy => exact show Out.Kept F C (execBcopy _ _ _ _ _ _ _ _ s) from h.on fun g1 => g1.engineOp
  case bcopy2d => exact show Out.Kept F C (execBcopy2d _ _ _ _ _ _ _ _ _ s) from h.on fun g1 => g1.engineOp
  case gath => exact show Out.Kept F C (execGath _ _ _ _ _ _ _ _ _ _ s) from h.on fun g1 => g1.engineOp
  case scat => exact show Out.Kept F C (execScat _ _ _ _ _ _ _ _ _ _ s) from h.on fun g1 => g1.engineOp
  case stage => exact show Out.Kept F C (execStage _ _ _ _ _ s) from h.on fun g1 => g1.engineOp
  case cgrp => exact h.execCgrp
  case cag => exact show Out.Kept F C (execCag _ _ _ _ _ _ _ _ _ s) from h.collective
  case crs => exact show Out.Kept F C (execCrs _ _ _ _ _ _ _ _ _ _ _ s) from h.collective
  case ca2a => exact show Out.Kept F C (execCa2a _ _ _ _ _ _ _ _ _ s) from h.collective
  case cbar => exact show Out.Kept F C (execCbar _ _ _ _ s) from h.collective
  case mma => exact show Out.Kept F C (execMma _ _ _ _ _ _ s) from h.on fun g1 => g1.mma
  case mmaC => exact show Out.Kept F C (execMmaC _ _ _ _ _ s) from h.on fun g1 => g1.mma
  case mmaS => exact show Out.Kept F C (execMmaS _ _ _ _ _ _ s) from h.on fun g1 => g1.mma
  case mmaDs => exact show Out.Kept F C (execMmaDs _ _ _ _ _ _ s) from h.on fun g1 => g1.mma
  case mmaG => exact show Out.Kept F C (execMmaG _ _ _ _ _ _ _ _ s) from h.on fun g1 => g1.mma
  case mmaGc => exact show Out.Kept F C (execMmaGc _ _ _ _ _ _ _ s) from h.on fun g1 => g1.mma
  case accAcq => exact h.execAccAcq
  case accRel =>
    exact show Out.Kept F C (execAccRel _ _ s) from h.on fun g1 => g1.act fun _ _ _ g2 => g2.acqDone.firstUse.updToken
  case accLd => exact h.execAccLd
  case accSt => exact show Out.Kept F C (execAccSt _ _ _ _ _ _ _ _ s) from h.on fun g1 => g1.engineOp.thenFirstUse
  case accZero => exact h.execAccZero
  case accQ => exact h.execAccQ
  case movsRead => exact show Out.Kept F C (execMovsRead _ _ _ _ s) from h.on fun g1 => g1.alu
  case movsWrite => exact h.execMovsWrite
  case sleep => exact show Out.Kept F C (execSleep _ _ s) from h.on fun g1 => g1.act fun _ _ _ g2 => .ite g2 g2.updWarp
  case ctxSave => exact h.execCtxSave
  case ctxLoad => exact show Out.Kept F C (execCtxLoad _ _ _ _ s) from h.on fun g1 => g1.long fun _ _ _ g2 => g2
  case frecRd => exact show Out.Kept F C (execFrecRd _ _ s) from h.on fun g1 => g1.long fun _ _ _ g2 => g2
  case leaseTst => exact h.execLeaseTst
  case leaseRel => exact h.execLeaseRel
  case tlbInv => exact h.execTlbInv
  case bezelRd => exact h.execBezelRd
  case bezelWr => exact h.execBezelWr
  case powerGate => exact h.execPowerGate

end Sys2Proof.Machine
end

section
/-! What a turn and a step keep. -/

namespace Sys2Proof.Machine

variable {F C : Prop}

theorem Mach.Form.fetch {m : Mach} {c : Issue} (h : m.Form) : (m.fetch c).1.Form := h.fetchInto

theorem Mach.Form.withTwin {m : Mach} {u : Mach} {t core : Nat} (h : m.Form) : (m.withTwin u t core).Form := by
  unfold Mach.withTwin
  exact .updCore (h.of_eq rfl rfl le_rfl)

theorem Mach.Form.mismatch {m : Mach} {tk w : Nat} (h : m.Form) : (m.mismatch tk w).Form := by
  unfold Mach.mismatch
  split
  · exact h.askKill
  · exact h

theorem State.Kept.leaderIssue {s : State} {c : Issue} {k : Task} {i : Instr} (h : s.Kept F C) :
    Out.Kept F C (leaderIssue c k i s) := by
  unfold Machine.leaderIssue
  extract_lets cls
  split
  · exact h
  · split
    · rename_i t e
      have ht : t.Kept F C := by
        have h1 : Out.Kept F C (Machine.exec i s) := h.exec
        rwa [e] at h1
      split
      · exact h.withM (fun hF => (h.form hF).mismatch) rfl
      · extract_lets m1 m2
        have h1 (hF : F) : m1.Form := (ht.form hF).withTwin
        have h2 (hF : F) : m2.Form := .ite (h1 hF).updTask (h1 hF)
        exact ht.withM (fun hF => (h2 hF).updTask) rfl
    · exact h.exec

theorem State.Kept.issueInstr {s : State} {c : Issue} {i : Instr} (h : s.Kept F C) : Out.Kept F C (issueInstr c i s) := by
  unfold Machine.issueInstr
  split
  · exact h.leaderIssue
  · exact h.exec

theorem Mach.Form.shadowTurn {m : Mach} {tk w : Nat} (h : m.Form) : (m.shadowTurn tk w).Form := by
  unfold Mach.shadowTurn
  split
  · split
    · extract_lets m1 m2 m3
      have h1 : m1.Form := h.spendCycle
      have h2 : m2.Form := h1.updWarp
      have h3 : m3.Form := h2.of_eq rfl rfl (Nat.le_add_right _ _)
      exact .ite h3.mismatch h3.updTask
    · exact h
  · exact h

theorem Mach.Form.upset {m : Mach} {frame reg lane : Nat} {twin : Bool} {v : Word} (h : m.Form) :
    (m.upset frame reg lane twin v).Form := by
  unfold Mach.upset
  split
  · exact .ite h.updFrame h
  · exact h

theorem Mach.Form.upsetAcc {m : Mach} {core key : Nat} {twin : Bool} {v : Word} (h : m.Form) :
    (m.upsetAcc core key twin v).Form := by
  unfold Mach.upsetAcc
  extract_lets o put
  exact .ite h.updCore h

theorem Mach.Form.countElig {m : Mach} {held : List (Nat × Nat)} {n : Nat} (h : m.Form) : (m.countElig held n).Form := by
  unfold Mach.countElig
  split
  · exact h
  · refine h.foldl fun m c g1 => ?_
    extract_lets ps
    exact g1.updCore

theorem State.Kept.stepIssue {s : State} (h : s.Kept F C) : Out.Kept F C (stepIssue s) := by
  unfold Machine.stepIssue
  split
  · rename_i c _
    have hf (hF : F) : (s.m.fetch c).1.Form := (h.form hF).fetch
    split
    · rename_i m i e
      rw [e] at hf
      exact State.Kept.issueInstr (h.withM hf rfl)
    · rename_i m f e
      rw [e] at hf
      exact h.withM (fun hF => (hf hF).tookCycle.raise.settle) rfl
  · split
    · exact State.Kept.exec (h.of_eq rfl rfl)
    · exact h

theorem State.Kept.stepFocus {s : State} {tk w : Nat} {refetch : Bool} (h : s.Kept F C) :
    Out.Kept F C (stepFocus s tk w refetch) := by
  unfold Machine.stepFocus
  exact State.Kept.stepIssue (h.withM (fun hF => (h.form hF).of_eq rfl rfl le_rfl) rfl)

theorem State.Kept.issueTurn {s : State} {held : List (Nat × Nat)} {tk w : Nat} {refetch : Bool} (h : s.Kept F C) :
    Out.Kept F C (issueTurn s held tk w refetch) := by
  unfold Machine.issueTurn
  split
  · exact h
  · split
    · exact h
    · split
      · exact h.stepFocus
      · split
        · exact h
        · split
          · exact h
          · split
            · exact h.withM (fun hF => (h.form hF).shadowTurn) rfl
            · exact h.stepFocus

theorem State.Kept.shadowAct {s : State} {held : List (Nat × Nat)} {tk w : Nat} (h : s.Kept F C) :
    (shadowAct s held tk w).Kept F C := by
  unfold Machine.shadowAct
  split
  · exact h
  · exact .ite (h.withM (fun hF => (h.form hF).shadowTurn) rfl) h

theorem State.Kept.act {s : State} {held : List (Nat × Nat)} {a : Act} (h : s.Kept F C) : Out.Kept F C
    (Machine.act s held a) := by
  cases a with
  | issue tk w all =>
    simp only [Machine.act]
    split
    · exact h.issueTurn
    · exact h
  | shadow tk w => exact .ite h.shadowAct h
  | upset frame reg lane twin v => exact h.updM fun g => g.upset
  | upsetAcc core key twin v => exact h.updM fun g => g.upsetAcc
  | event i x y z =>
    simp only [Machine.act]
    split
    · exact h
    · exact State.Kept.exec (h.of_eq rfl rfl)
  | command n =>
    simp only [Machine.act]
    split
    · exact h.exec
    · exact h
  | perform core store => exact h.updM fun g => g.performStore
  | unit op n => exact h.updM fun g => g.moveUnit

theorem State.Kept.turnTime {s : State} {t : Turn} (h : s.Kept F C) : (s.turnTime t).Kept F C := by
  unfold State.turnTime
  extract_lets n
  exact ((h.updM fun g1 => g1.countElig).pass).boundary

theorem State.Kept.step {s : State} (h : s.Kept F C) : Out.Kept F C (Machine.step s) := by
  unfold Machine.step
  split
  · rename_i t ts _
    have ht : ({ s with agenda := ts } : State).Kept F C := h.of_eq rfl rfl
    exact ht.turnTime.act
  · split
    · split
      · exact h
      · exact h.turnTime.act
    · split
      · exact h.exec
      · exact h

end Sys2Proof.Machine
end

namespace Sys2Proof.Machine

/-! ## Memories in canonical form that read alike -/

theorem Sparse.mem_of_get? {α : Type} {t : Sparse α} {k : Nat} {v : α} (h : Sparse.get? t k = some v) : (k, v) ∈ t := by
  induction t with
  | nil => cases h
  | cons e t ih =>
    rw [Sparse.get?_cons] at h
    split at h
    · rename_i hk
      cases h
      exact hk ▸ List.mem_cons_self
    · exact List.mem_cons_of_mem _ (ih h)

theorem Sparse.pairwise_of_above {α : Type} {lo : Nat} {t : Sparse α} (h : Sparse.above lo t = true) :
    (∀ e ∈ t, lo < e.1) ∧ t.Pairwise fun a b => a.1 < b.1 := by
  induction t generalizing lo with
  | nil => simp
  | cons e t ih =>
    simp only [Sparse.above, Bool.and_eq_true, decide_eq_true_eq] at h
    obtain ⟨hlo, ht⟩ := h
    obtain ⟨hall, hpair⟩ := ih ht
    exact ⟨List.forall_mem_cons.2 ⟨hlo, fun x hx => hlo.trans (hall x hx)⟩, List.pairwise_cons.2 ⟨hall, hpair⟩⟩

/-- A canonical table's keys rise strictly. -/
theorem Sparse.pairwise_of_wf {α : Type} {t : Sparse α} (h : Sparse.wf t = true) : t.Pairwise fun a b => a.1 < b.1 := by
  cases t with
  | nil => exact .nil
  | cons e t => exact List.pairwise_cons.2 (Sparse.pairwise_of_above h)

/-- Reading alike, one canonical memory lists no cell that another does not. -/
theorem Memory.subset_of_read {a b : List Host.Cell} (ha : Memory.wf a = true) (h : ∀ n, Memory.read a n = Memory.read b n) :
    a ⊆ b := by
  rintro ⟨n, v⟩ hc
  have hread : Memory.read b n = v := (h n).symm.trans (Memory.listed a ha n v hc)
  have hne : v ≠ Memory.blank := ((Memory.wf_iff a).1 ha).2 _ hc
  refine Sparse.mem_of_get? (α := Byte) ?_
  unfold Memory.read Sparse.getD at hread
  cases e : Sparse.get? (α := Byte) b n with
  | none => exact absurd (by rw [← hread, e]; rfl) hne
  | some w => rw [← hread, e]; rfl

theorem Memory.ext {a b : List Host.Cell} (ha : Memory.wf a = true) (hb : Memory.wf b = true)
    (h : ∀ n, Memory.read a n = Memory.read b n) : a = b := by
  have hpa := Sparse.pairwise_of_wf (α := Byte) ((Memory.wf_iff a).1 ha).1
  have hpb := Sparse.pairwise_of_wf (α := Byte) ((Memory.wf_iff b).1 hb).1
  have nodup {t : List Host.Cell} (hp : t.Pairwise fun x y => x.1 < y.1) : t.Nodup :=
    hp.imp fun hlt heq => (heq ▸ hlt).false
  have hperm : a.Perm b := (List.perm_ext_iff_of_nodup (nodup hpa) (nodup hpb)).2 fun c =>
    ⟨fun g => Memory.subset_of_read ha h g, fun g => Memory.subset_of_read hb (fun n => (h n).symm) g⟩
  exact hperm.eq_of_pairwise (fun x y _ _ hxy hyx => absurd (hxy.trans hyx) (lt_irrefl _)) hpa hpb

end Sys2Proof.Machine

section
open Sys2Proof Sys2Proof.Machine

/-- Settles O59: every operation of the model keeps the form (`State.Kept.step`), and sorted lists of the same cells are equal. -/
theorem stepKeepsMachineForm : Obligations.StepKeepsMachineForm := by
  refine ⟨fun s t hst hs => ?_, fun a b => Memory.ext⟩
  have hkept : Out.Kept True False (step s) := State.Kept.step ⟨fun _ => hs, False.elim⟩
  rw [hst] at hkept
  exact hkept.form trivial

end

namespace Sys2Proof.Machine

/-! ## What raising a fault leaves under way -/

@[simp] theorem Mach.ops_foldl {α : Type} {f : Mach → α → Mach} (hf : ∀ m x, (f m x).ops = m.ops) (l : List α) (m : Mach) :
    (l.foldl f m).ops = m.ops := by
  induction l generalizing m with
  | nil => rfl
  | cons x l ih => exact (ih _).trans (hf m x)

@[simp] theorem Mach.ops_homeWrite (m : Mach) (pa : Nat) (bs : List Byte) : (m.homeWrite pa bs).ops = m.ops :=
  (Mach.homeWrite_spec m pa bs).2.1

@[simp] theorem Mach.ops_resolveCell (m : Mach) (pa st : Nat) (v : DWord) : (m.resolveCell pa st v).2.ops = m.ops := by
  unfold Mach.resolveCell
  split
  · exact m.ops_homeWrite _ _
  · rfl

@[simp] theorem Mach.ops_forgetRemote (m : Mach) (r : RemoteCell) : (m.forgetRemote r).ops = m.ops := rfl

@[simp] theorem Mach.ops_demandFill (m : Mach) (asid va : Nat) : (m.demandFill asid va).ops = m.ops := by
  unfold Mach.demandFill
  split
  · split <;> rfl
  · rfl

@[simp] theorem Mach.ops_translateServiced (m : Mach) (asid va : Nat) (k : AccKind) :
    (m.translateServiced asid va k).2.ops = m.ops := by
  unfold Mach.translateServiced
  split
  · exact m.ops_demandFill _ _
  · rfl

@[simp] theorem Mach.ops_cellFor (m : Mach) (asid va : Nat) : (m.cellFor asid va).2.ops = m.ops := by
  have h := m.ops_translateServiced asid va { write := true }
  unfold Mach.cellFor
  split <;> rename_i e <;> rw [e] at h <;> exact h

@[simp] theorem Mach.ops_actOn (m : Mach) (pa : Nat) (c : CellOp) : (m.actOn pa c).ops = m.ops := by
  unfold Mach.actOn
  extract_lets answer
  split
  · exact m.ops_resolveCell _ _ _
  · have h1 := m.ops_homeWrite (pa + 9) [Memory.read m.mem (pa + 9) ||| 1]
    split
    · exact (Mach.ops_resolveCell _ _ _ _).trans h1
    · exact h1
  · split <;> simp [answer]

theorem Mach.ops_cellNow {m n : Mach} {c : CellOp} (h : m.cellNow c = some n) : n.ops = m.ops := by
  have hc := m.ops_cellFor c.asid c.va
  unfold Mach.cellNow at h
  extract_lets early at h
  split at h
  · cases h
  · split at h <;> rename_i e <;> rw [e] at hc
    · split at h
      · cases h
      · cases h
        exact (Mach.ops_actOn _ _ _).trans hc
    · cases h
      split <;> exact hc

@[simp] theorem Mach.ops_cellWaits (m : Mach) (g : Gated) (c : CellOp) : (m.cellWaits g c).ops = m.ops := by
  unfold Mach.cellWaits
  split <;> rfl

@[simp] theorem Mach.ops_postCell (m : Mach) (c : CellOp) : (m.postCell c).ops = m.ops := by
  unfold Mach.postCell
  split
  · rename_i e
    exact Mach.ops_cellNow e
  · exact Mach.ops_cellWaits _ _ _

@[simp] theorem Mach.ops_resolveFuture (m : Mach) (t asid : Nat) (d : Desc) (b : Bool) (v : DWord) :
    (m.resolveFuture t asid d b v).ops = m.ops := by
  unfold Mach.resolveFuture
  split
  · rfl
  · split
    · rfl
    · exact m.ops_postCell _

@[simp] theorem Mach.ops_freeFrames (m : Mach) (t : Nat) : (m.freeFrames t).ops = m.ops := (m.freeFrames_rest t).2.2

@[simp] theorem Mach.ops_wakePaths (m : Mach) (t : Nat) (p : Path → Bool) (f : Path → Path) : (m.wakePaths t p f).ops = m.ops := by
  unfold Mach.wakePaths
  split
  · rfl
  · split
    · extract_lets left k
      split
      · rfl
      · exact Mach.ops_settle _ _ _
      · rfl
    · rfl

@[simp] theorem Mach.ops_acquire (m : Mach) (core : Nat) (s : Scope) : (m.acquire core s).ops = m.ops := by
  unfold Mach.acquire
  split <;> rfl

@[simp] theorem Mach.ops_endWaits (m : Mach) (tk : Nat) (w : Wait → Bool) : (m.endWaits tk w).ops = m.ops :=
  Mach.ops_foldl (fun m _ => m.ops_wakePaths _ _ _) _ _

@[simp] theorem Mach.ops_wakeScopes (m : Mach) (ln : Nat) : (m.wakeScopes ln).ops = m.ops := by
  unfold Mach.wakeScopes
  split
  · rfl
  · refine Mach.ops_foldl (fun m t => ?_) _ _
    extract_lets ready
    split <;> simp

@[simp] theorem Mach.ops_endTask (m : Mach) (t : Nat) (e : Ending) : (m.endTask t e).ops = m.ops := by
  unfold Mach.endTask
  split
  · rfl
  · split
    · rfl
    · extract_lets asid m1 m2 m3 m4
      have h1 : m1.ops = m.ops := by
        unfold m1
        cases e <;> simp
      have h4 : m4.ops = m.ops := by simp [m4, m3, m2, h1]
      split <;> exact (Mach.ops_freeFrames _ _).trans h4

@[simp] theorem Mach.ops_leaveClause (m : Mach) (c : Issue) (ps : List Path) : (m.leaveClause c ps).ops = m.ops := rfl

@[simp] theorem Mach.ops_deliver (m : Mach) (c : Issue) (r : FaultRec) : (m.deliver c r).ops = m.ops := by
  unfold Mach.deliver
  split
  · exact m.ops_endTask _ _
  · extract_lets m1 vec
    have h1 (r : FaultRec) : (m1.dieOf c r).ops = m.ops := m1.ops_endTask _ _
    split
    · exact h1 _
    · split
      · exact h1 _
      · split
        · split
          · exact Mach.ops_leaveClause _ _ _
          · rfl
        · exact h1 _

@[simp] theorem Mach.ops_raise (m : Mach) (c : Issue) (f : Fail) : (m.raise c f).ops = m.ops := by
  unfold Mach.raise
  split <;> simp

/-! ## What a failing check of R191 leaves of an instruction -/

/-- Where the issuing path fails a check of R191 for i, the machine n that comes of m is m with that fault raised (R64, R191). -/
def Mach.RaisesFirst (i : Instr) (m n : Mach) : Prop :=
  ∀ c f, m.Form → m.issuing = some c → checks c (Instr.shape i) (c.active i) = some f →
    n = ((m.tookCycle c).raise c f).settle c.tk c.w

/-- An instruction of the ISA changes the machine alone, and raises its first failing check. -/
def Out.Raises (i : Instr) (s : State) (o : Out) : Prop :=
  ∃ n, o = .next { s with m := n } ∧ Mach.RaisesFirst i s.m n

namespace Mach.RaisesFirst

variable {i : Instr} {m n : Mach}

theorem issue {stay : Issue → Lanes → Lanes} {chk : Issue → Lanes → Chk} {eff : Issue → Lanes → Mach → Flow × Mach} :
    RaisesFirst i m (m.issue i stay chk eff) := by
  intro c f _ hc hf
  unfold Issue.active at hf
  simp only [Mach.issue, hc, hf]

/-- No operation goes under way with the fault: what operations there are had their numbers before. -/
theorem ops_lt (h : RaisesFirst i m n) (hm : m.Form) {c : Issue} {f : Fail} (hc : m.issuing = some c)
    (hf : checks c (Instr.shape i) (c.active i) = some f) {o : Nat × Op} (ho : o ∈ n.ops) : o.1 < m.serial := by
  rw [h c f hm hc hf] at ho
  exact hm.ops o (by simpa [Mach.tookCycle, Mach.spendCycle] using ho)

theorem thenFirstUse {ks : List Nat} (h : RaisesFirst i m n) : RaisesFirst i m (m.thenFirstUse ks n) := by
  intro c f hm hc hf
  have hany : (n.ops.any fun o => m.serial ≤ o.1) = false :=
    List.any_eq_false.2 fun o ho => by simpa using h.ops_lt hm hc hf ho
  rw [← h c f hm hc hf]
  simp [Mach.thenFirstUse, hc, hany]

theorem act {chk : Issue → Lanes → Chk} {eff : Issue → Lanes → Mach → Mach} : RaisesFirst i m (m.act i chk eff) := issue

theorem alu {g : Lanes → (Nat → Args) → Nat → Res} : RaisesFirst i m (m.alu i g) := act

theorem long {counted : Bool} {chk : Issue → Lanes → Chk} {kind : Issue → Lanes → Mach → OpKind × Mach} :
    RaisesFirst i m (m.long i counted chk kind) := act

theorem longAlu {g : Args → Res} : RaisesFirst i m (m.longAlu i g) := long

theorem transfer {go : Issue → Lanes → List (Nat × DWord)} : RaisesFirst i m (m.transfer i go) := issue

theorem callOp {exact mk : Bool} {f : BitVec 5} {w : Reg} {go : Issue → Nat → DWord} :
    RaisesFirst i m (m.callOp i exact mk f w go) := by
  unfold Mach.callOp
  exact issue

theorem load {spc : Spc} {f : MemF} {a : Reg} {off : BitVec 24} {size words : Nat} :
    RaisesFirst i m (m.load i spc f a off size words) := by
  unfold Mach.load
  exact long

theorem store {spc : Spc} {f : MemF} {a : Reg} {off : BitVec 24} : RaisesFirst i m (m.store i spc f a off) := by
  unfold Mach.store
  exact act

theorem tile {t : TileF} {load : Bool} {a b : Reg} : RaisesFirst i m (m.tile i t load a b) := by
  unfold Mach.tile
  exact long

theorem purge {discard : Bool} : RaisesFirst i m (m.purge i discard) := by
  unfold Mach.purge
  exact long

theorem atomic {f : AtomF} {fn : AtomFn} {a : Reg} {off : Int} : RaisesFirst i m (m.atomic i f fn a off) := by
  unfold Mach.atomic
  exact long

theorem joinOp {trapping : Bool} {d a : Reg} : RaisesFirst i m (m.joinOp i trapping d a) := by
  unfold Mach.joinOp
  exact issue

theorem engineOp {plan : Mach → Issue → Lanes → Except Chk EnginePlan} : RaisesFirst i m (m.engineOp i plan) := by
  unfold Mach.engineOp
  exact act

theorem mma {r : MmaReq} : RaisesFirst i m (m.mma i r) := thenFirstUse engineOp

end Mach.RaisesFirst

theorem Out.Raises.on {i : Instr} {s : State} {f : Mach → Mach} (h : ∀ m, Mach.RaisesFirst i m (f m)) :
    Out.Raises i s (s.on f) :=
  ⟨_, rfl, h s.m⟩

theorem intOp_raises {i : Instr} {t : Ty} {sat : Bool} {g : Int → Int → Int → Int} {s : State} :
    Out.Raises i s (intOp i t sat g s) := .on fun _ => .alu

theorem wordOp_raises {i : Instr} {g : Args → Word} {s : State} : Out.Raises i s (wordOp i g s) := .on fun _ => .alu

theorem pairOp_raises {i : Instr} {g : Args → DWord} {s : State} : Out.Raises i s (pairOp i g s) := .on fun _ => .alu

theorem fpOp_raises {i : Instr} {g : Args → FRes} {s : State} : Out.Raises i s (fpOp i g s) := .on fun _ => .alu

theorem fpLong_raises {i : Instr} {g : Args → FRes} {s : State} : Out.Raises i s (fpLong i g s) := .on fun _ => .longAlu

theorem shuffle_raises {i : Instr} {k : Count 5} {src : Nat → Nat → Option Nat} {s : State} :
    Out.Raises i s (shuffle i k src s) := .on fun _ => .alu

theorem halfOp_raises {i : Instr} {g : (DWord → Nat) → Args → FRes} {s : State} : Out.Raises i s (halfOp i g s) := .on fun _ => .alu

theorem State.collective_raises {s : State} {i : Instr} {req : Mach → Issue → Lanes → CollReq} :
    Out.Raises i s (s.collective i req) := by
  refine ⟨_, rfl, fun c f hm hc hf => ?_⟩
  have hr : Mach.RaisesFirst i s.m (s.m.engineOp i fun m x act => m.collPlan x act (req m x act)) := .engineOp
  have hnone : (s.m.engineOp i fun m x act => m.collPlan x act (req m x act)).ops.get? (s.m.serial + 1) = none := by
    by_contra hne
    obtain ⟨o, ho⟩ := Option.ne_none_iff_exists'.1 hne
    have := hr.ops_lt hm hc hf (Sparse.mem_of_get? ho)
    omega
  rw [← hr c f hm hc hf]
  simp only [hc, hnone]

theorem execWflag_raises {s : State} {c : Ctl} {mask : BitVec 12} : Out.Raises (.wflag c mask) s (execWflag c mask s) := by
  refine ⟨_, rfl, fun x f hm hx hf => ?_⟩
  have hne : (checks x (Instr.shape (.wflag c mask)) (activeLanes x.f x.p.lanes c.guard) = none) = False := by
    exact eq_false fun h => absurd (h.symm.trans hf) (by simp)
  beta_reduce
  extract_lets i ready late
  have hlate : late = none := by
    simp only [late, hx, i]
    simp [hne]
  rw [hlate]
  exact Mach.RaisesFirst.act x f hm hx hf

theorem exec_raises {s : State} {i : Instr} (h : i.enc ≠ none) : Out.Raises i s (exec i s) := by
  unfold exec
  cases i
  case powerOn | undervoltage | hostLinkTrain | peerLinkUp | peerLinkRecovering | peerLinkDown | thermalStepDown |
      thermalStepUp | thermalHalt | mtimeRecord | hourlyScoreDecay | adminQueueStart | adminQueueStop | registerWrite |
      scrubForce | rplctlWrite | tailWrite | eventHeadWrite | unknownCommand | queueCreate | queueDestroy | partCreate |
      partSet | partDestroy | ctxCreate | ctxDestroy | mapPages | unmapPages | discardRange | launch | cancel |
      leasePolicy | leaseNow | retireRead | attest | domainSplit | domainMerge | patchStage | resetWarm | resetFull |
      mgmtRead | mgmtWrite | correctedError | uncorrectableError | scrubPass | scrubYield | leaseStart |
      leaseDrainDone | leaseTestDone | leaseReturn | leaseRetire | migrationSwitch | peerHoldExpiry |
      domainWritebackDone | domainSwitchDone | domainReplayDone | staleGenReturn | wake | wakeRelease | replicaEvict |
      hostSnoop | hostHdmAccess | peerMemoryRequest | peerReply | peerTask | peerFuture | inboxDeliver |
      accountingWindow | drainDone | drainLimit | saveComplete | restoreComplete | gangKill | gangRelaunch |
      launchCompletion | accFirstuse | stagingStart | stagingComplete | lsShortage | taskStart | stealRequest |
      stealRequestReceive | stealReply | stealBackoff | stealIdleThreshold | frameStarved | frameGrant | pathSelection |
      operationComplete | storeAck | engineComplete | collectiveCommit | collectiveTimeout | reductionElementApply |
      accSlotUpdate | joinWake | demandZeroFill | watchdog | recoveryCapExpiry | sleepExpiry | powerGate => exact absurd rfl h
  case nop | setpri | trap | pf | pft | dcinv | icinv | fence | acq | rel | barArr | bbInit | bbExp | spawn | finClose |
      capq | cgrp | accRel | accZero | accQ | movsWrite | sleep => exact .on fun _ => .act
  case bra | braAny | braAll | jmp => exact .on fun _ => .transfer
  case call | callI => exact .on fun _ => .callOp
  case ret | unwindTo | exit | yield | bar | barWait | bbWait | taskEnd | finWait => exact .on fun _ => .issue
  case wflag => exact execWflag_raises
  case iadd | isub | imul | imulhi | imad | ineg | iabs | imin | imax | iaddW | isubW | iaddi | sad => exact intOp_raises
  case imulW | imadW | lea | movW | shlW | shrW => exact pairOp_raises
  case mov | movi | and | or | xor | not | lmix | shl | shr | sar | rot | bfe | bfi | popc | clz | brev | icmp | icmpW |
      fabs | fneg | fclass => exact wordOp_raises
  case moviL | fcmp | sel | ballot | bcast | wred | wscan | hcmp | cvtW | icvt | cvtX2 | cvtX4 | movsRead => exact .on fun _ => .alu
  case idiv | irem => exact .on fun _ => .longAlu
  case shfl | shflUp | shflDown | shflXor => exact shuffle_raises
  case fadd | fsub | fmul | ffma | fmin | fmax | ffloor | fceil | ftrunc | frint | fscale | ffrac | hdot2 | cvt |
      cvtEl => exact fpOp_raises
  case frcp | frsq | fsqrt | fdiv | fexp2 | flog2 | fsin | fcos | ftanh => exact fpLong_raises
  case hadd | hsub | hmul | hfma | hmin | hmax => exact halfOp_raises
  case cvtPk | rdet | rclose | acqRp | spawnR | resolve | finOpen | accAcq | accLd | ctxSave | ctxLoad | frecRd |
      leaseTst | leaseRel | tlbInv | bezelRd | bezelWr => exact .on fun _ => .long
  case ld | ldX4 | ldl | ldlX4 | ldw | ldwX4 => exact .on fun _ => .load
  case st | stl | stw => exact .on fun _ => .store
  case tld | tst => exact .on fun _ => .tile
  case dsc | cwb => exact .on fun _ => .purge
  case aadd | amin | amax | alog | axchg | acas | afadd | afmin | afmax => exact .on fun _ => .atomic
  case rctx => exact .on fun _ => .act
  case join | joinT => exact .on fun _ => .joinOp
  case bcopy | bcopy2d | gath | scat | stage => exact .on fun _ => .engineOp
  case cag | crs | ca2a | cbar => exact State.collective_raises
  case mma | mmaC | mmaS | mmaDs | mmaG | mmaGc => exact .on fun _ => .mma
  case accSt => exact .on fun _ => .thenFirstUse .engineOp

end Sys2Proof.Machine

section
open Sys2Proof Sys2Proof.Machine

/-- Settles O58: the ISA's instructions change the machine alone (`exec_raises`), and every operation of the model keeps the clock
in its range (`State.Kept.step`). -/
theorem hubChangesByEventsOnly : Obligations.HubChangesByEventsOnly := by
  refine ⟨fun s t i hi ht => ?_, fun s i hi => ?_, fun s i c f hi hc hf hm => ?_, fun s t hst h1 h2 h3 => ?_⟩
  · obtain ⟨n, hn, -⟩ := exec_raises (s := s) hi
    cases hn.symm.trans ht
    exact ⟨rfl, rfl, rfl⟩
  · obtain ⟨n, hn, -⟩ := exec_raises (s := s) hi
    exact ⟨_, hn⟩
  · obtain ⟨n, hn, hr⟩ := exec_raises (s := s) hi
    rw [hn, hr c f hm hc hf]
    rfl
  · have hkept : Out.Kept False True (step s) := State.Kept.step ⟨False.elim, fun _ => ⟨h1, h2, h3⟩⟩
    rw [hst] at hkept
    exact hkept.clock trivial

end

section
/-! What posting event records and writing bytes leave of hub and machine. -/

namespace Sys2Proof.Machine

/-! ## Bytes at their home -/

/-- The machine without its bytes: memory and its poison, what the slices hold, and what writes have sent to the host and to peers. -/
def Mach.offBytes (m : Mach) : Mach :=
  { m.offSlices with mem := [], poison := [], hostCopies := [], hostOut := [], peerOut := [] }

/-- Two machines that differ in their bytes alone. -/
def Mach.SameButBytes (m n : Mach) : Prop := n.offBytes = m.offBytes

namespace Mach.SameButBytes

variable {a b c : Mach}

theorem refl (m : Mach) : m.SameButBytes m := rfl
theorem trans (h : a.SameButBytes b) (g : b.SameButBytes c) : a.SameButBytes c := Eq.trans g h
theorem of_slices (h : a.SameButSlices b) : a.SameButBytes b := by
  have e : b.offSlices = a.offSlices := h
  unfold Mach.SameButBytes Mach.offBytes
  rw [e]

theorem ctxs (h : a.SameButBytes b) : b.ctxs = a.ctxs := congrArg (·.ctxs) h
theorem mtime (h : a.SameButBytes b) : b.mtime = a.mtime := congrArg (·.mtime) h

end Mach.SameButBytes

theorem Mach.homeWrite_bytes (m : Mach) (pa : Nat) (bs : List Byte) : m.SameButBytes (m.homeWrite pa bs) := by
  unfold Mach.homeWrite
  extract_lets ls whole
  refine Mach.SameButBytes.trans ?_ (.of_slices (Mach.SameButSlices.foldl Mach.dirtyLine Mach.dirtyLine_slices ls _))
  rfl

theorem Mach.clearWaitheads_bytes (m : Mach) (pa n : Nat) : m.SameButBytes (m.clearWaitheads pa n) := rfl

/-- A write at a device address changes bytes alone. -/
theorem Mach.devWrite_bytes (m : Mach) (pa : Nat) (bs : List Byte) : m.SameButBytes (m.placeWrite (.dev pa) bs) := by
  cases e : (Place.dev pa).peer? with
  | some peer =>
    simp only [Mach.placeWrite, e]
    rfl
  | none =>
    simp only [Mach.placeWrite, e]
    exact (m.homeWrite_bytes pa bs).trans (Mach.clearWaitheads_bytes _ _ _)

/-! ## Event records -/

/-- The hub without its event records: its event queues, the records before they exist, the vectors raised and the sequence number. -/
def Hub.offRecords (h : Hub) : Hub := { h with eqs := [], early := [], msix := [], eventSeq := 0 }

/-- Where the records of an event queue stand. -/
def EvQueue.ring (q : EvQueue) : Nat × Nat := (q.base, q.logn)

/-- What posting event records keeps: all but the hub's records and the bytes they are written to, and which event queues there are
and where. -/
structure State.SameButRecords (s t : State) : Prop where
  hub : t.sys.hub.offRecords = s.sys.hub.offRecords
  rings : ∀ n, (t.sys.hub.eqs.get? n).map EvQueue.ring = (s.sys.hub.eqs.get? n).map EvQueue.ring
  bytes : s.m.SameButBytes t.m
  flash : t.sys.flash = s.sys.flash
  rom : t.sys.rom = s.sys.rom
  agenda : t.agenda = s.agenda
  subj : t.subj = s.subj

namespace State.SameButRecords

variable {s t u : State}

theorem refl (s : State) : s.SameButRecords s := ⟨rfl, fun _ => rfl, .refl _, rfl, rfl, rfl, rfl⟩

theorem trans (h : s.SameButRecords t) (g : t.SameButRecords u) : s.SameButRecords u :=
  ⟨g.hub.trans h.hub, fun n => (g.rings n).trans (h.rings n), h.bytes.trans g.bytes, g.flash.trans h.flash, g.rom.trans h.rom,
    g.agenda.trans h.agenda, g.subj.trans h.subj⟩

theorem updHub {f : Hub → Hub} (h : (f s.sys.hub).offRecords = s.sys.hub.offRecords) (he : (f s.sys.hub).eqs = s.sys.hub.eqs) :
    s.SameButRecords (s.updHub f) :=
  ⟨h, fun n => by rw [State.updHub_hub, he], .refl _, rfl, rfl, rfl, rfl⟩

/-- A queue of records changes, and stands where it stood. -/
theorem putQueue {f : Hub → Hub} {n : Nat} {p q : EvQueue} (hq : s.sys.hub.eqs.get? n = some p) (hr : q.ring = p.ring)
    (h : (f s.sys.hub).offRecords = s.sys.hub.offRecords) (he : (f s.sys.hub).eqs = s.sys.hub.eqs.put n q) :
    s.SameButRecords (s.updHub f) := by
  refine ⟨h, fun j => ?_, .refl _, rfl, rfl, rfl, rfl⟩
  rw [State.updHub_hub, he, Sparse.get?_put]
  split
  · rename_i e
    rw [e, hq, Option.map_some, Option.map_some, hr]
  · rfl

theorem foldl {α : Type} {f : State → α → State} (hf : ∀ (s : State) x, s.SameButRecords (f s x)) (l : List α) (s : State) :
    s.SameButRecords (l.foldl f s) := by
  induction l generalizing s with
  | nil => exact refl s
  | cons x l ih => exact (hf s x).trans (ih _)

theorem phase (h : s.SameButRecords t) : t.sys.hub.phase = s.sys.hub.phase := congrArg (·.phase) h.hub
theorem freq (h : s.SameButRecords t) : t.sys.hub.freq = s.sys.hub.freq := congrArg (·.freq) h.hub
theorem temp (h : s.SameButRecords t) : t.sys.hub.temp = s.sys.hub.temp := congrArg (·.temp) h.hub
theorem coolSince (h : s.SameButRecords t) : t.sys.hub.coolSince = s.sys.hub.coolSince := congrArg (·.coolSince) h.hub
theorem hotSince (h : s.SameButRecords t) : t.sys.hub.hotSince = s.sys.hub.hotSince := congrArg (·.hotSince) h.hub

end State.SameButRecords

theorem State.putRec_same {s : State} {n : Nat} {p q : EvQueue} {r : EvRec} (hp : s.sys.hub.eqs.get? n = some p)
    (hq : q.ring = p.ring) : s.SameButRecords (s.putRec n q r) := by
  unfold State.putRec
  extract_lets size bs s1
  have h1 : s.SameButRecords s1 := ⟨rfl, fun _ => rfl, Mach.devWrite_bytes _ _ _, rfl, rfl, rfl, rfl⟩
  have hp1 : s1.sys.hub.eqs.get? n = some p := hp
  exact h1.trans (.putQueue (q := { q with tail := q.tail + 1, dropped := 0 }) hp1 hq rfl rfl)

theorem State.drainRecs_same (n : Nat) (rs : List EvRec) (s : State) : s.SameButRecords (s.drainRecs n rs) := by
  induction rs generalizing s with
  | nil => exact .refl s
  | cons r rs ih =>
    unfold State.drainRecs
    split
    · exact .refl s
    · rename_i q hq
      split
      · exact .trans (State.putRec_same (q := { q with waiting := rs }) hq rfl) (ih _)
      · exact .refl s

theorem State.flushQueue_same (s : State) (n : Nat) : s.SameButRecords (s.flushQueue n) := s.drainRecs_same n _

theorem State.post_same (s : State) (n : Nat) (r : EvRec) : s.SameButRecords (s.post n r) := by
  unfold State.post
  extract_lets k s1
  have h1 : s.SameButRecords s1 := s.flushQueue_same k
  split
  · exact h1.trans (.updHub rfl rfl)
  · rename_i q hq
    split
    · exact h1.trans (State.putRec_same hq rfl)
    · refine h1.trans (.putQueue hq ?_ rfl rfl)
      split <;> rfl

theorem State.event_same (s : State) (qs : List Nat) (typ : Nat) (data : DWord) : s.SameButRecords (s.event qs typ data) := by
  unfold State.event
  extract_lets s1 r
  have h1 : s.SameButRecords s1 := .updHub rfl rfl
  exact h1.trans (.foldl (fun s q => s.post_same q r) qs s1)

/-! With no event queue a record waits for the first one (R65). -/

theorem State.post_early {s : State} (h : s.sys.hub.eqs = []) (n : Nat) (r : EvRec) :
    s.post n r = s.updHub fun h => { h with early := h.early ++ [r] } := by
  simp [State.post, State.flushQueue, State.drainRecs, h]

end Sys2Proof.Machine
end

/-! Reports of the junction temperature, and recorded module time (R20, R23, R67). -/

namespace Sys2Proof.Machine

/-! ## What the end of a launch leaves of the hub -/

/-- The hub without its event records and inbox generations. -/
def Hub.offLaunches (h : Hub) : Hub := { h.offRecords with inboxGens := [] }

theorem State.SameButRecords.offLaunches {s t : State} (h : s.SameButRecords t) :
    t.sys.hub.offLaunches = s.sys.hub.offLaunches := by
  unfold Hub.offLaunches
  rw [h.hub]

theorem State.closeInbox_offLaunches (s : State) (n : Nat) : (s.closeInbox n).sys.hub.offLaunches = s.sys.hub.offLaunches := by
  unfold State.closeInbox
  split
  · rfl
  · split <;> rfl

theorem State.endLaunch_offLaunches (s : State) (n : Nat) : (s.endLaunch n).sys.hub.offLaunches = s.sys.hub.offLaunches := by
  unfold State.endLaunch
  split
  · rfl
  · exact (State.event_same _ _ _ _).offLaunches.trans (State.closeInbox_offLaunches _ _)

theorem State.haltLaunches_offLaunches (s : State) : s.haltLaunches.sys.hub.offLaunches = s.sys.hub.offLaunches := by
  unfold State.haltLaunches
  extract_lets ls
  induction ls generalizing s with
  | nil => rfl
  | cons n ls ih => exact (ih _).trans (State.endLaunch_offLaunches _ n)

/-! ## Temperature -/

theorem State.stepClock_same (s : State) (freq : Nat) :
    (s.updHub fun h => { h with freq := freq }).SameButRecords (s.stepClock freq) := State.event_same _ _ _ _

theorem msPast_iff (since : Option Nat) (now : Nat) : msPast since now = true ↔ ∃ t, since = some t ∧ t + 1000000 ≤ now := by
  cases since <;> simp [msPast]

variable {s : State}

theorem State.running_iff : s.running = true ↔ s.sys.hub.phase = .running := by simp [State.running]

theorem exec_thermalStepDown (h : s.sys.hub.phase = .running) : exec .thermalStepDown s = .next
    (if (95 ≤ s.subj.x ∧ s.subj.x ≤ 105 ∨ s.subj.y ≠ 0) ∧ 18 < s.sys.hub.freq then
      (s.report s.subj.x).stepClock (s.sys.hub.freq - 3) else s.report s.subj.x) := by
  have hrun := State.running_iff.2 h
  have he : exec .thermalStepDown s = execThermalStepDown s := rfl
  rw [he, execThermalStepDown]
  simp [hrun, State.report, Hub.report]

theorem exec_thermalStepUp (h : s.sys.hub.phase = .running) : exec .thermalStepUp s = .next
    (if msPast (s.sys.hub.report s.subj.x s.m.mtime).coolSince s.m.mtime = true then
      if s.sys.hub.freq < 36 then
        ((s.report s.subj.x).updHub fun h => { h with coolSince := some s.m.mtime }).stepClock (s.sys.hub.freq + 3)
      else (s.report s.subj.x).updHub fun h => { h with coolSince := some s.m.mtime }
    else s.report s.subj.x) := by
  have hrun := State.running_iff.2 h
  have he : exec .thermalStepUp s = execThermalStepUp s := rfl
  rw [he, execThermalStepUp]
  rw [if_neg (by simp [hrun])]
  exact (apply_ite Host.Outcome.next _ _ _).symm

theorem exec_thermalHalt (h : s.sys.hub.phase = .running) : exec .thermalHalt s = .next
    (if msPast (s.sys.hub.report s.subj.x s.m.mtime).hotSince s.m.mtime = true then
      (s.report s.subj.x).haltLaunches.updHub fun h => { h with phase := .thermalHalt } else s.report s.subj.x) := by
  have hrun := State.running_iff.2 h
  have he : exec .thermalHalt s = execThermalHalt s := rfl
  rw [he, execThermalHalt]
  simp only [hrun]
  rfl

theorem Flash.stored_writeService (f : Flash) (r : Rom) (v : Service) : (f.writeService r v).stored = v := by
  unfold Flash.writeService Flash.stored
  cases f.newestB <;> rfl

theorem exec_thermal_idle (h : s.sys.hub.phase ≠ .running) :
    exec .thermalStepDown s = .next s ∧ exec .thermalStepUp s = .next s ∧ exec .thermalHalt s = .next s := by
  have hrun : s.running = false := by simpa [State.running] using h
  refine ⟨show execThermalStepDown s = _ from ?_, show execThermalStepUp s = _ from ?_, show execThermalHalt s = _ from ?_⟩
  · simp [execThermalStepDown, hrun]
  · simp [execThermalStepUp, hrun]
  · simp [execThermalHalt, hrun]

end Sys2Proof.Machine

section
open Sys2Proof Sys2Proof.Machine

/-- Settles O45: what each report brings (`exec_thermalStepDown`, `exec_thermalStepUp`, `exec_thermalHalt`); its event record and the
end of launches leave the clock and the counts as they are. -/
theorem temperatureAndModuleTime : Obligations.TemperatureAndModuleTime := by
  refine ⟨fun s h => ⟨⟨_, exec_thermalStepDown h, ?_⟩, ⟨_, exec_thermalStepUp h, ?_⟩, ⟨_, exec_thermalHalt h, ?_⟩⟩,
    fun s h => exec_thermal_idle h, msPast_iff, fun s => ?_⟩
  · split
    · have hs := (s.report s.subj.x).stepClock_same (s.sys.hub.freq - 3)
      exact ⟨hs.phase.trans h, hs.temp, hs.coolSince, hs.hotSince, hs.freq⟩
    · exact ⟨h, rfl, rfl, rfl, rfl⟩
  · by_cases hc : msPast (s.sys.hub.report s.subj.x s.m.mtime).coolSince s.m.mtime = true
    · rw [if_pos hc]
      by_cases hf : s.sys.hub.freq < 36
      · have hs := ((s.report s.subj.x).updHub fun h => { h with coolSince := some s.m.mtime }).stepClock_same (s.sys.hub.freq + 3)
        rw [if_pos hf]
        exact ⟨hs.phase.trans h, hs.temp, hs.hotSince, hs.coolSince.trans (if_pos hc).symm, hs.freq.trans (if_pos ⟨hc, hf⟩).symm⟩
      · rw [if_neg hf]
        exact ⟨h, rfl, rfl, (if_pos hc).symm, (if_neg fun g => hf g.2).symm⟩
    · rw [if_neg hc]
      exact ⟨h, rfl, rfl, (if_neg hc).symm, (if_neg fun g => hc g.1).symm⟩
  · have hs := (s.report s.subj.x).haltLaunches_offLaunches
    by_cases hc : msPast (s.sys.hub.report s.subj.x s.m.mtime).hotSince s.m.mtime = true
    · rw [if_pos hc]
      exact ⟨congrArg (·.temp) hs, congrArg (·.freq) hs, (if_pos hc).symm⟩
    · rw [if_neg hc]
      exact ⟨rfl, rfl, h.trans (if_neg hc).symm⟩
  · have he : exec .mtimeRecord s = execMtimeRecord s := rfl
    rw [he, execMtimeRecord]
    by_cases hlt : s.m.mtime < s.sys.hub.lastRecord + 60000000000
    · exact ⟨s, if_pos hlt, ⟨rfl, rfl⟩, fun _ => rfl, fun hle => absurd hlt (by omega)⟩
    · exact ⟨_, if_neg hlt, ⟨rfl, rfl⟩, fun h => absurd h hlt, fun _ => ⟨Flash.stored_writeService _ _ _, rfl, rfl⟩⟩

end

/-! Start-up, undervoltage, resets and the admin queues (R21, R24, R66, R73, R439). -/

namespace Sys2Proof.Machine

/-! ## What start-up sets and what it leaves -/

/-- The hub without what start-up finds out about units and patches: scores, retired units, spares, leases asked for, the patch, and
the records of all that. -/
def Hub.offUnits (h : Hub) : Hub :=
  { h with scores := [], retired := [], outOfService := [], usedSpares := [], leases := [], lastLease := 0, patch := none
           patchB := false, early := [], eventSeq := 0 }

/-- The machine without the units that serve it. -/
def Mach.offUnits (m : Mach) : Mach := { m with phys := [], freed := [] }

/-- No event queue yet, and what finding out about units and patches keeps. -/
structure State.FindsUnits (s t : State) : Prop where
  hub : t.sys.hub.offUnits = s.sys.hub.offUnits
  mach : t.m.offUnits = s.m.offUnits

namespace State.FindsUnits

variable {s t u : State}

theorem refl (s : State) : s.FindsUnits s := ⟨rfl, rfl⟩

theorem trans (h : s.FindsUnits t) (g : t.FindsUnits u) : s.FindsUnits u := ⟨g.hub.trans h.hub, g.mach.trans h.mach⟩

theorem eqs (h : s.FindsUnits t) : t.sys.hub.eqs = s.sys.hub.eqs := congrArg (·.eqs) h.hub
theorem ena (h : s.FindsUnits t) : t.sys.hub.ena = s.sys.hub.ena := congrArg (·.ena) h.hub
theorem freq (h : s.FindsUnits t) : t.sys.hub.freq = s.sys.hub.freq := congrArg (·.freq) h.hub
theorem policy (h : s.FindsUnits t) : t.sys.hub.policy = s.sys.hub.policy := congrArg (·.policy) h.hub
theorem hdm (h : s.FindsUnits t) : t.sys.hub.hdm = s.sys.hub.hdm := congrArg (·.hdm) h.hub
theorem mem (h : s.FindsUnits t) : t.m.mem = s.m.mem := congrArg (·.mem) h.mach
theorem launches (h : s.FindsUnits t) : t.m.launches = s.m.launches := congrArg (·.launches) h.mach
theorem ctxs (h : s.FindsUnits t) : t.m.ctxs = s.m.ctxs := congrArg (·.ctxs) h.mach
theorem device (h : s.FindsUnits t) : t.m.device = s.m.device := congrArg (·.device) h.mach
theorem mtime (h : s.FindsUnits t) : t.m.mtime = s.m.mtime := congrArg (·.mtime) h.mach

/-- A run of changes each of which keeps the rest while there is no event queue. -/
theorem foldl {α : Type} {f : State → α → State} (hf : ∀ (s : State) x, s.sys.hub.eqs = [] → s.FindsUnits (f s x)) (l : List α)
    (hs : s.sys.hub.eqs = []) : s.FindsUnits (l.foldl f s) := by
  induction l generalizing s with
  | nil => exact refl s
  | cons x l ih =>
    have h := hf s x hs
    exact h.trans (ih (h.eqs.trans hs))

end State.FindsUnits

variable {s : State}

theorem State.event_finds (h : s.sys.hub.eqs = []) (typ : Nat) (data : DWord) : s.FindsUnits (s.event [0] typ data) := by
  unfold State.event
  extract_lets s1 r
  have h1 : s1.sys.hub.eqs = [] := h
  have h2 : s.FindsUnits s1 := ⟨rfl, rfl⟩
  rw [List.foldl_cons, List.foldl_nil, State.post_early h1]
  exact h2.trans ⟨rfl, rfl⟩

theorem Hub.requestLease_offUnits (h : Hub) (u : UnitRef) : (h.requestLease u).2.offUnits = h.offUnits := by
  unfold Hub.requestLease
  split
  · rfl
  · simp only [Hub.offUnits]

theorem Hub.seekLeases_offUnits (h : Hub) : h.seekLeases.offUnits = h.offUnits := by
  unfold Hub.seekLeases
  extract_lets limit
  split
  · rfl
  · refine List.foldlRecOn (motive := fun k : Hub => k.offUnits = h.offUnits) _ _ rfl fun k hk e _ => ?_
    extract_lets u v
    split
    · exact hk
    · exact (k.requestLease_offUnits v).trans hk

theorem State.charge_finds (h : s.sys.hub.eqs = []) (u : UnitRef) (n : Nat) : s.FindsUnits (s.charge u n) := by
  unfold State.charge
  split
  · exact .refl s
  · extract_lets new s1 s2
    have h2 : s.FindsUnits s2 := by
      unfold s2
      have h1 : s.FindsUnits s1 := ⟨rfl, rfl⟩
      split
      · exact h1.trans (State.event_finds (s := s1) h _ _)
      · exact h1
    exact h2.trans ⟨Hub.seekLeases_offUnits _, rfl⟩

theorem State.moveLane_finds (s : State) (u : UnitRef) : s.FindsUnits (s.moveLane u) := by
  unfold State.moveLane
  extract_lets s1
  split <;> exact ⟨rfl, rfl⟩

theorem State.bringIn_finds (s : State) (u : UnitRef) (spare : Nat) : s.FindsUnits (s.bringIn u spare) := by
  unfold State.bringIn
  extract_lets put s1
  have h1 : s.FindsUnits s1 := ⟨rfl, rfl⟩
  have hm (m : Mach) : ((List.range 4).foldl (fun m i => put m ⟨0, u.die, 4 * u.unit + i⟩ (4 * spare + i)) m).offUnits = m.offUnits :=
    List.foldlRecOn (motive := fun n : Mach => n.offUnits = m.offUnits) _ _ rfl fun n hn i _ => hn
  have hh (h : Hub) : ((List.range 4).foldl (fun h i => h.setScore ⟨0, u.die, 4 * u.unit + i⟩ 0) h).offUnits = h.offUnits :=
    List.foldlRecOn (motive := fun k : Hub => k.offUnits = h.offUnits) _ _ rfl fun k hk i _ => hk
  split
  · exact h1.trans ⟨hh _, hm _⟩
  · exact h1.trans (s1.moveLane_finds u)
  · exact h1.trans (s1.moveLane_finds u)
  · exact h1.trans ⟨rfl, rfl⟩

theorem State.applyRecord_finds (s : State) (r : Retirement) : s.FindsUnits (s.applyRecord r) := by
  unfold State.applyRecord
  split
  · extract_lets stack s1
    have h1 : s.FindsUnits s1 := by
      unfold s1
      split <;> exact ⟨rfl, rfl⟩
    exact h1.trans ⟨rfl, rfl⟩
  · extract_lets old
    exact (s.bringIn_finds r.u r.spare).trans ⟨rfl, rfl⟩

theorem State.startupRetire_finds (h : s.sys.hub.eqs = []) (u : UnitRef) : s.FindsUnits (s.startupRetire u) := by
  unfold State.startupRetire
  split
  · exact .refl s
  · extract_lets spare s1 s2
    have h2 : s.FindsUnits s2 := by
      unfold s2
      have h1 : s.FindsUnits s1 := ⟨rfl, rfl⟩
      cases spare with
      | some p => exact h1.trans (s1.bringIn_finds u p)
      | none => exact h1.trans ⟨rfl, rfl⟩
    exact h2.trans (State.event_finds (h2.eqs.trans h) _ _)

theorem State.tryPatches_finds (ps : List (Bool × PatchImage)) {s : State} (h : s.sys.hub.eqs = []) :
    s.FindsUnits (s.tryPatches ps) := by
  induction ps generalizing s with
  | nil => exact .refl s
  | cons p ps ih =>
    unfold State.tryPatches
    extract_lets ok s1
    have h1 : s.FindsUnits s1 := State.event_finds h _ _
    split
    · exact h1.trans ⟨rfl, rfl⟩
    · exact h1.trans (ih (h1.eqs.trans h))

/-! ## Start-up -/

/-- What the start-up sequence finds out about units and patches, from the state that has taken over what the store holds. -/
def State.found (s : State) (f : Flash) (bad moved : List UnitRef) : State :=
  let s := s.tryPatches f.slots
  let s := { s with sys := { s.sys with flash := { s.sys.flash.findNewest with log := f.records } } }
  let s := f.records.foldl (fun s r => s.applyRecord r) s
  let s := moved.foldl (fun s u => (s.charge u (scoreOf .laneMoved)).moveLane u) s
  bad.foldl (fun s u => s.startupRetire u) s

theorem State.found_finds (h : s.sys.hub.eqs = []) (f : Flash) (bad moved : List UnitRef) : s.FindsUnits (s.found f bad moved) := by
  unfold State.found
  extract_lets s1 y z s2 s3 s4
  have h1 : s.FindsUnits s1 := State.tryPatches_finds _ h
  have h2 : s.FindsUnits s2 := h1.trans ⟨rfl, rfl⟩
  have h3 : s.FindsUnits s3 := h2.trans (.foldl (fun s r _ => s.applyRecord_finds r) _ (h2.eqs.trans h))
  have h4 : s.FindsUnits s4 := h3.trans (.foldl (fun s u hs => (State.charge_finds hs _ _).trans (State.moveLane_finds _ u)) _
    (h3.eqs.trans h))
  exact h4.trans (.foldl (fun s u hs => State.startupRetire_finds hs u) _ (h4.eqs.trans h))

/-- What the store holds comes into force. -/
def State.takeStore (s : State) (c : Settings) (v : Service) : State :=
  { (s.updHub fun h => { h with scores := v.scores, policy := c.policy, hdm := c.hdm }) with
    m := { s.m with mtime := v.mtime, device := c.module, phys := s.sys.flash.identity.phys } }

/-- The module runs, with its domains as start-up sets them. -/
def State.setGoing (s : State) (v : Service) (link : HostLink) : State :=
  ({ s with m := { s.m with domains := s.startupDomains } } : State).updHub fun h => { h with
      hostLink := some link, memoryActive := true, phase := .running, lastHour := v.mtime, lastRecord := v.mtime }

theorem State.startup_good {c : Settings} {v : Service} (hv : s.sys.flash.verifies s.sys.rom = true)
    (hc : s.sys.flash.config = some c) (hs : s.sys.flash.service = some v) (bad moved : List UnitRef) (link : HostLink) :
    s.startup bad moved link =
      let u := ((s.takeStore c v).found s.sys.flash bad moved).setGoing v link
      if fullLink link then u else u.linkEvent link := by
  simp only [State.startup, hv, hc, hs, if_true, Option.bind_some, Option.map_some]
  rfl

theorem State.startup_bad (hv : s.sys.flash.verifies s.sys.rom = false) (bad moved : List UnitRef) (link : HostLink) :
    s.startup bad moved link = s.updHub fun h => { h with phase := .fatal } := by
  simp [State.startup, hv]

/-! ## The commands a module no longer holds -/

/-- The hub without its event records and the commands it has not completed. -/
def Hub.offCommands (h : Hub) : Hub := { h.offRecords with pending := [] }

/-- What completing commands keeps: all but those commands, the hub's records and the bytes they are written to. -/
structure State.SameButCommands (s t : State) : Prop where
  hub : t.sys.hub.offCommands = s.sys.hub.offCommands
  rings : ∀ n, (t.sys.hub.eqs.get? n).map EvQueue.ring = (s.sys.hub.eqs.get? n).map EvQueue.ring
  pending : t.sys.hub.pending ⊆ s.sys.hub.pending
  bytes : s.m.SameButBytes t.m
  flash : t.sys.flash = s.sys.flash
  rom : t.sys.rom = s.sys.rom

namespace State.SameButCommands

variable {s t u : State}

theorem refl (s : State) : s.SameButCommands s := ⟨rfl, fun _ => rfl, List.Subset.refl _, .refl _, rfl, rfl⟩

theorem trans (h : s.SameButCommands t) (g : t.SameButCommands u) : s.SameButCommands u :=
  ⟨g.hub.trans h.hub, fun n => (g.rings n).trans (h.rings n), List.Subset.trans g.pending h.pending, h.bytes.trans g.bytes,
    g.flash.trans h.flash, g.rom.trans h.rom⟩

theorem of_records (h : s.SameButRecords t) : s.SameButCommands t := by
  refine ⟨?_, h.rings, ?_, h.bytes, h.flash, h.rom⟩
  · unfold Hub.offCommands
    rw [h.hub]
  · have hp : t.sys.hub.pending = s.sys.hub.pending := congrArg (·.pending) h.hub
    exact hp ▸ List.Subset.refl _

theorem foldl {α : Type} {f : State → α → State} (hf : ∀ (s : State) x, s.SameButCommands (f s x)) (l : List α) (s : State) :
    s.SameButCommands (l.foldl f s) := by
  induction l generalizing s with
  | nil => exact refl s
  | cons x l ih => exact (hf s x).trans (ih _)

/-- Some of the commands are no longer held. -/
theorem dropPending (s : State) (p : Pend → Bool) :
    s.SameButCommands (s.updHub fun b => { b with pending := b.pending.filter p }) :=
  ⟨rfl, fun _ => rfl, List.filter_subset_self _, .refl _, rfl, rfl⟩

end State.SameButCommands

theorem State.complete_same (s : State) (h : CmdHdr) (op : Nat) (st : Status) (r : Nat) :
    s.SameButCommands (s.complete h op st r) := by
  unfold State.complete
  extract_lets q s1
  have h1 : s.SameButCommands s1 := .dropPending s _
  split
  · exact h1
  · exact h1.trans (.of_records (s1.post_same _ _))

theorem State.dropCommands_same (s : State) (p : Nat → Bool) : s.SameButCommands (s.dropCommands p) := by
  unfold State.dropCommands
  refine .trans (.foldl (fun s c => ?_) _ s) (.dropPending _ _)
  split
  · have h1 : s.SameButCommands { s with m := s.m.takeFree.2 } := ⟨rfl, fun _ => rfl, List.Subset.refl _, rfl, rfl, rfl⟩
    exact h1.trans (State.complete_same _ _ _ _ _)
  · exact .refl s

theorem State.dropCommands_kept {s : State} {p : Nat → Bool} {c : Pend} (h : c ∈ (s.dropCommands p).sys.hub.pending) :
    p c.queue = false := by
  simpa using (List.mem_filter.1 h).2

/-- With none to drop nothing changes. -/
theorem State.dropCommands_none {s : State} {p : Nat → Bool} (h : ∀ c ∈ s.sys.hub.pending, p c.queue = false) :
    s.dropCommands p = s := by
  have hnone : s.sys.hub.pending.filter (fun c => p c.queue) = [] := List.filter_eq_nil_iff.2 fun c hc => by simp [h c hc]
  have hall : s.sys.hub.pending.filter (fun c => !p c.queue) = s.sys.hub.pending := List.filter_eq_self.2 fun c hc => by simp [h c hc]
  unfold State.dropCommands
  rw [hnone, List.foldl_nil]
  simp only [State.updHub, hall]

theorem State.dropContexts_all (s : State) : (s.dropContexts fun _ _ => true).m.ctxs = [] := by
  refine List.filter_eq_nil_iff.2 fun c hc => ?_
  simp only [Bool.not_eq_true', Bool.not_eq_false, List.contains_iff_mem]
  simpa using ⟨c.2, hc⟩

theorem Sparse.get?_sift {α : Type} (t : Sparse α) (p : Nat → Bool) (n : Nat) :
    Sparse.get? (t.sift fun k _ => p k) n = if p n then Sparse.get? t n else none := by
  induction t with
  | nil => simp [Sparse.sift]
  | cons e t ih =>
    unfold Sparse.sift at ih ⊢
    rw [List.filter_cons]
    by_cases hn : n = e.1
    · subst hn
      by_cases hp : p e.1 <;> simp [hp, Sparse.get?_cons, ih]
    · by_cases hp : p e.1 <;> simp [hp, hn, Sparse.get?_cons, ih]

theorem State.cancelAll_none {s : State} (h : s.m.launches = []) (p : Launch → Bool) : s.cancelAll p = s := by
  simp [State.cancelAll, h]

/-! ## Restarting -/

theorem State.byte_restart (s : State) (b : Bool) (a : Nat) :
    (s.restart b).byte a = if regionOf a = .host then s.byte a else 0 := by
  have h : Sparse.get? (α := Byte) (s.restart b).m.mem a = if inHost a then Sparse.get? (α := Byte) s.m.mem a else none :=
    Sparse.get?_sift (α := Byte) s.m.mem inHost a
  unfold State.byte Memory.read Sparse.getD
  rw [h]
  by_cases hr : regionOf a = .host <;> simp [inHost, hr, Memory.blank]

theorem State.startupDomains_congr {s t : State} (h : t.sys.hub.retired = s.sys.hub.retired) :
    t.startupDomains = s.startupDomains := by
  unfold State.startupDomains
  rw [h]

/-- A link report while no event queue exists. -/
theorem State.linkReport_finds (h : s.sys.hub.eqs = []) (link : HostLink) :
    s.FindsUnits (if fullLink link then s else s.linkEvent link) := by
  split
  · exact .refl s
  · exact State.event_finds h _ _

theorem State.linkReport_same (s : State) (link : HostLink) :
    s.SameButRecords (if fullLink link then s else s.linkEvent link) := by
  split
  · exact .refl s
  · exact s.event_same _ _ _

/-- What a module has started up with: the memory, launches and contexts of s, and what its store holds. -/
structure State.Started (s t : State) (c : Settings) (v : Service) (link : HostLink) : Prop where
  mem : t.m.mem = s.m.mem
  launches : t.m.launches = s.m.launches
  ctxs : t.m.ctxs = s.m.ctxs
  ena : t.sys.hub.ena = s.sys.hub.ena
  freq : t.sys.hub.freq = s.sys.hub.freq
  phase : t.sys.hub.phase = .running
  active : t.sys.hub.memoryActive = true
  hostLink : t.sys.hub.hostLink = some link
  policy : t.sys.hub.policy = c.policy
  hdm : t.sys.hub.hdm = c.hdm
  device : t.m.device = c.module
  mtime : t.m.mtime = v.mtime
  domains : t.m.domains = t.startupDomains

theorem State.startup_started {c : Settings} {v : Service} (he : s.sys.hub.eqs = []) (hv : s.sys.flash.verifies s.sys.rom = true)
    (hc : s.sys.flash.config = some c) (hs : s.sys.flash.service = some v) (bad moved : List UnitRef) (link : HostLink) :
    s.Started (s.startup bad moved link) c v link := by
  rw [State.startup_good hv hc hs]
  extract_lets u
  have hf : (s.takeStore c v).FindsUnits ((s.takeStore c v).found s.sys.flash bad moved) :=
    State.found_finds (s := s.takeStore c v) he _ _ _
  have hr := State.linkReport_finds (s := u) (hf.eqs.trans he) link
  have hd := (u.linkReport_same link).hub
  exact {
    mem := hr.mem.trans hf.mem
    launches := hr.launches.trans hf.launches
    ctxs := hr.ctxs.trans hf.ctxs
    ena := hr.ena.trans hf.ena
    freq := hr.freq.trans hf.freq
    phase := congrArg (·.phase) hr.hub
    active := congrArg (·.memoryActive) hr.hub
    hostLink := congrArg (·.hostLink) hr.hub
    policy := hr.policy.trans hf.policy
    hdm := hr.hdm.trans hf.hdm
    device := hr.device.trans hf.device
    mtime := hr.mtime.trans hf.mtime
    domains := (congrArg (·.domains) hr.mach).trans (State.startupDomains_congr (congrArg (·.retired) hd)).symm }

theorem exec_powerOn (h : s.sys.hub.phase = .off ∨ s.sys.hub.phase = .startup) (bad moved : List UnitRef) (link : HostLink) :
    exec (.powerOn bad moved link) s = .next ((s.restart false).startup bad moved link) := by
  have he : exec (.powerOn bad moved link) s = execPowerOn bad moved link s := rfl
  rw [he, execPowerOn, if_pos (by simpa using h)]

theorem Flash.verifies_stored {f : Flash} {r : Rom} (h : f.verifies r = true) :
    ∃ c v, f.config = some c ∧ f.service = some v := by
  unfold Flash.verifies at h
  simp only [Bool.and_eq_true, Option.isSome_iff_exists] at h
  obtain ⟨⟨_, c, hc⟩, v, hv⟩ := h
  exact ⟨c, v, hc, hv⟩

/-! ## Resets and the admin queues -/

theorem Sparse.sift_zero {α : Type} (t : Sparse α) : (t.sift fun n _ => !decide (n ≠ 0)) = t.filter fun q => q.1 = 0 := by
  simp [Sparse.sift]

/-- What clearing the queues p holds of leaves, with partitions and contexts gone. -/
structure State.Cleared (p : Nat → Bool) (s t : State) : Prop where
  hub : ({ t.sys.hub.offCommands with cqs := [] } : Hub) = { s.sys.hub.offCommands with cqs := [], parts := [], newQuotas := [] }
  cqs : t.sys.hub.cqs = s.sys.hub.cqs.sift fun n _ => !p n
  rings : ∀ n, (t.sys.hub.eqs.get? n).map EvQueue.ring = if p n then none else (s.sys.hub.eqs.get? n).map EvQueue.ring
  pending : ∀ c ∈ t.sys.hub.pending, c ∈ s.sys.hub.pending ∧ p c.queue = false
  ctxs : t.m.ctxs = []
  mtime : t.m.mtime = s.m.mtime
  quiet : (∀ c ∈ s.sys.hub.pending, p c.queue = false) →
    t.sys.hub.eqs = (s.sys.hub.eqs.sift fun n _ => !p n) ∧ ∀ a, t.byte a = s.byte a

theorem State.clearAll_cleared (s : State) (p : Nat → Bool) : s.Cleared p (s.clearAll p) := by
  have h := s.dropCommands_same p
  have hcqs : (s.dropCommands p).sys.hub.cqs = s.sys.hub.cqs := congrArg (·.cqs) h.hub
  exact {
    hub := by
      have e : ({ (s.clearAll p).sys.hub.offCommands with cqs := [] } : Hub) =
        { (s.dropCommands p).sys.hub.offCommands with cqs := [], parts := [], newQuotas := [] } := rfl
      rw [e, h.hub]
    cqs := congrArg (fun q => Sparse.sift q fun n _ => !p n) hcqs
    rings := fun n => by
      have hs : (s.clearAll p).sys.hub.eqs.get? n = if (!p n) = true then (s.dropCommands p).sys.hub.eqs.get? n else none :=
        Sparse.get?_sift _ (fun n => !p n) n
      rw [hs]
      by_cases hp : p n <;> simp [hp, h.rings]
    pending := fun c hc => ⟨h.pending hc, State.dropCommands_kept hc⟩
    ctxs := State.dropContexts_all _
    mtime := h.bytes.mtime
    quiet := fun hq => by
      have hn := State.dropCommands_none hq
      have heqs : (s.clearAll p).sys.hub.eqs = (s.dropCommands p).sys.hub.eqs.sift fun n _ => !p n := rfl
      have hbyte (a : Nat) : (s.clearAll p).byte a = (s.dropCommands p).byte a := rfl
      exact ⟨heqs.trans (by rw [hn]), fun a => (hbyte a).trans (by rw [hn])⟩ }

namespace State.Cleared

variable {p : Nat → Bool} {s t : State}

theorem parts (h : s.Cleared p t) : t.sys.hub.parts = [] := congrArg (·.parts) h.hub
theorem ena (h : s.Cleared p t) : t.sys.hub.ena = s.sys.hub.ena := congrArg (·.ena) h.hub
theorem phase (h : s.Cleared p t) : t.sys.hub.phase = s.sys.hub.phase := congrArg (·.phase) h.hub
theorem scores (h : s.Cleared p t) : t.sys.hub.scores = s.sys.hub.scores := congrArg (·.scores) h.hub
theorem admcq (h : s.Cleared p t) : t.sys.hub.admcq = s.sys.hub.admcq := congrArg (·.admcq) h.hub
theorem admeq (h : s.Cleared p t) : t.sys.hub.admeq = s.sys.hub.admeq := congrArg (·.admeq) h.hub

theorem no_queue (h : s.Cleared p t) {n : Nat} (hn : p n = true) : t.sys.hub.eqs.get? n = none := by
  simpa [hn] using h.rings n

end State.Cleared

theorem Flash.log_writeService (f : Flash) (r : Rom) (v : Service) : (f.writeService r v).log = f.log := by
  unfold Flash.writeService
  split <;> rfl

theorem exec_resetWarm {h : CmdHdr} (hm : s.mayReset h = true) (hp : s.precheck h false none = .ok) (hl : s.m.launches = []) :
    exec (.resetWarm h) s = .next ((s.warm.forgetCommand h).updHub fun b =>
      { b with phase := if b.phase = .thermalHalt then .running else b.phase }) := by
  have he : exec (.resetWarm h) s = execResetWarm h s := rfl
  rw [he, execResetWarm]
  simp [hm, hp, State.cancelAll_none hl, hl]

theorem exec_resetFull {h : CmdHdr} (hm : s.mayReset h = true) (hp : s.precheck h false none = .ok) :
    exec (.resetFull h) s = .next (s.restart true) := by
  have he : exec (.resetFull h) s = execResetFull h s := rfl
  rw [he, execResetFull]
  simp [hm, hp]

/-- The admin queues as ADMCQ and ADMEQ place them. -/
def State.withAdmin (s : State) : State := s.updHub fun h => { h with
  ena := true, ready := true
  cqs := h.cqs.put 0 ⟨none, h.admcq.toNat % 16, adminBase h.admcq, 0, false⟩
  eqs := h.eqs.put 0 ⟨none, h.admeq.toNat % 16, adminBase h.admeq, 255, 0, 0, []⟩
  early := [] }

theorem State.startAdmin_good (hp : s.sys.hub.phase = .running) (he : s.sys.hub.ena = false) (hr : s.sys.hub.ready = false)
    (hc : lognOk s.sys.hub.admcq = true) (hq : lognOk s.sys.hub.admeq = true) : s.withAdmin.SameButRecords s.startAdmin := by
  have hs : s.startAdmin = s.sys.hub.early.foldl (fun s r => s.post 0 r) s.withAdmin := by
    simp [State.startAdmin, hp, he, hr, hc, hq, State.withAdmin]
  rw [hs]
  exact .foldl (fun s r => s.post_same 0 r) _ _

theorem State.startAdmin_bad (hp : s.sys.hub.phase = .running) (he : s.sys.hub.ena = false) (hr : s.sys.hub.ready = false)
    (h : lognOk s.sys.hub.admcq = false ∨ lognOk s.sys.hub.admeq = false) :
    s.startAdmin = s.updHub fun h => { h with ena := true } := by
  rcases h with h | h <;> simp [State.startAdmin, hp, he, hr, h]

theorem State.startAdmin_again (hp : s.sys.hub.phase = .running) (he : s.sys.hub.ena = false) (hr : s.sys.hub.ready = true) :
    s.startAdmin = s.updHub fun h => { h with again := true } := by
  simp [State.startAdmin, hp, he, hr]

/-- The admin queues and every other are gone. -/
def State.shut (s : State) : State := (s.clearAll fun _ => true).updHub fun h => { h with ready := false, again := false }

theorem State.closeAdmin_shut (hl : s.m.launches = []) :
    s.closeAdmin = if s.sys.hub.again then s.shut.startAdmin else s.shut := by
  simp only [State.closeAdmin, State.cancelAll_none hl, hl, if_true]
  rfl

/-- What is left once the admin queues are shut. -/
structure State.IsShut (s t : State) : Prop where
  phase : t.sys.hub.phase = s.sys.hub.phase
  ena : t.sys.hub.ena = s.sys.hub.ena
  admcq : t.sys.hub.admcq = s.sys.hub.admcq
  admeq : t.sys.hub.admeq = s.sys.hub.admeq
  ready : t.sys.hub.ready = false
  again : t.sys.hub.again = false
  cqs : t.sys.hub.cqs = []
  eqs : t.sys.hub.eqs = []
  pending : t.sys.hub.pending = []
  parts : t.sys.hub.parts = []
  ctxs : t.m.ctxs = []
  quiet : s.sys.hub.pending = [] → ∀ a, t.byte a = s.byte a

theorem State.shut_isShut (s : State) : s.IsShut s.shut := by
  have h := s.clearAll_cleared fun _ => true
  exact {
    phase := h.phase
    ena := h.ena
    admcq := h.admcq
    admeq := h.admeq
    ready := rfl
    again := rfl
    cqs := h.cqs.trans (by simp [Sparse.sift])
    eqs := List.filter_eq_nil_iff.2 fun _ _ => by simp
    pending := List.eq_nil_iff_forall_not_mem.2 fun c hc => by simpa using (h.pending c hc).2
    parts := h.parts
    ctxs := h.ctxs
    quiet := fun hn => (h.quiet fun c hc => by simp [hn] at hc).2 }

theorem exec_adminQueueStop (hp : s.sys.hub.phase = .running) (hl : s.m.launches = []) : exec .adminQueueStop s = .next
    (if s.sys.hub.ena then (s.updHub fun h => { h with ena := false, again := false }).shut
    else if s.sys.hub.ready then (if s.sys.hub.again then s.shut.startAdmin else s.shut) else s) := by
  have he : exec .adminQueueStop s = execAdminQueueStop s := rfl
  have hstop : s.stopAdmin = (s.updHub fun h => { h with ena := false, again := false }).shut :=
    (State.closeAdmin_shut (s := s.updHub fun h => { h with ena := false, again := false }) hl).trans (if_neg (by simp))
  rw [he, execAdminQueueStop, if_neg (by simp [hp]), hstop, State.closeAdmin_shut hl]
  split
  · rfl
  · split <;> rfl

end Sys2Proof.Machine

section
open Sys2Proof Sys2Proof.Machine

/-- Settles O46: what start-up finds out about units leaves memory and settings (`State.startup_started`), and clearing the queues
leaves what `State.Cleared` names. -/
theorem startUpAndResets : Obligations.StartUpAndResets := by
  refine ⟨fun s bad moved link h => ⟨_, exec_powerOn h bad moved link, ?_⟩,
    fun s => ⟨_, rfl, rfl, rfl, fun a => s.byte_restart false a⟩,
    fun s h hm hp hl => ⟨_, exec_resetWarm hm hp hl, ?_⟩, fun s h hm hp => ⟨_, exec_resetFull hm hp, rfl, rfl,
      Flash.stored_writeService _ _ _, ?_, ?_, rfl, fun a => s.byte_restart true a⟩,
    fun s hp he hr => ?_, fun s hp he hr => ⟨fun hc hq => ?_, fun h => ?_⟩, fun s hp h hl => ?_, fun s hp he hr ha hl => ?_⟩
  · have he : (s.restart false).sys.hub.eqs = [] := rfl
    cases hv : s.sys.flash.verifies s.sys.rom with
    | false =>
      rw [State.startup_bad (s := s.restart false) hv]
      exact ⟨fun a => s.byte_restart false a, rfl, rfl, rfl, fun _ => rfl, fun c v hne => absurd hne (by simp)⟩
    | true =>
      have hgood {c : Settings} {v : Service} (hc : s.sys.flash.config = some c) (hs : s.sys.flash.service = some v) :=
        State.startup_started (s := s.restart false) he hv hc hs bad moved link
      obtain ⟨c, v, hc, hs⟩ := Flash.verifies_stored hv
      have h := hgood hc hs
      refine ⟨fun a => ?_, h.launches, h.ctxs, h.ena, fun hne => absurd hne (by simp), fun c v _ hc hs => ?_⟩
      · rw [← s.byte_restart false a, State.byte, State.byte, h.mem]
      · have h := hgood hc hs
        exact ⟨h.phase, h.active, h.hostLink, h.freq, h.policy, h.hdm, h.device, h.mtime, h.domains⟩
  · have hc := s.clearAll_cleared fun n => n ≠ 0
    refine ⟨hc.parts, hc.ctxs, hc.ena, hc.cqs.trans (Sparse.sift_zero _), fun n hn => hc.no_queue (by simpa using hn), ?_, ?_,
      fun hq => ?_, fun p hp => ?_⟩
    · exact (Flash.stored_writeService _ _ _).trans (by rw [hc.scores, hc.mtime])
    · exact congrArg (fun b : Phase => if b = .thermalHalt then .running else b) hc.phase
    · obtain ⟨heqs, hbyte⟩ := hc.quiet fun c g => by simpa using hq c g
      exact ⟨heqs.trans (Sparse.sift_zero _), hbyte⟩
    · obtain ⟨hp1, hp2⟩ := List.mem_filter.1 hp
      exact ⟨by simpa using (hc.pending p hp1).2, fun ⟨hq, he⟩ => by simp [hq, he] at hp2⟩
  · exact Flash.log_writeService _ _ _
  · exact congrArg Service.mtime (Flash.stored_writeService _ _ _)
  · exact congrArg Host.Outcome.next (State.startAdmin_again hp he hr)
  · have h := State.startAdmin_good hp he hr hc hq
    have hring := h.rings 0
    rw [show s.withAdmin.sys.hub.eqs.get? 0 = _ from Sparse.get?_put_self _ _ _, Option.map_some, Option.map_eq_some_iff] at hring
    obtain ⟨q, hq0, hqr⟩ := hring
    refine ⟨_, rfl, congrArg (·.ena) h.hub, congrArg (·.ready) h.hub, ?_, q, hq0, congrArg Prod.fst hqr, congrArg Prod.snd hqr⟩
    exact (congrArg (·.cqs.get? 0) h.hub).trans (Sparse.get?_put_self _ _ _)
  · exact congrArg Host.Outcome.next (State.startAdmin_bad hp he hr h)
  · rw [exec_adminQueueStop hp hl]
    by_cases he : s.sys.hub.ena = true
    · have hs := (s.updHub fun h => { h with ena := false, again := false }).shut_isShut
      rw [if_pos he]
      exact ⟨_, rfl, hs.ena, hs.ready, hs.cqs, hs.eqs, hs.pending, hs.parts, hs.ctxs, hs.quiet⟩
    · obtain ⟨hr, ha⟩ := h.resolve_left he
      have hs := s.shut_isShut
      rw [if_neg he, if_pos hr, if_neg (by simp [ha])]
      exact ⟨_, rfl, hs.ena.trans (by simpa using he), hs.ready, hs.cqs, hs.eqs, hs.pending, hs.parts, hs.ctxs, hs.quiet⟩
  · have hs := s.shut_isShut
    have hp' := hs.phase.trans hp
    have he' := hs.ena.trans he
    rw [exec_adminQueueStop hp hl, if_neg (by simp [he]), if_pos hr, if_pos ha]
    refine ⟨_, rfl, ?_⟩
    cases hgood : lognOk s.sys.hub.admcq && lognOk s.sys.hub.admeq with
    | true =>
      obtain ⟨hc, hq⟩ := Bool.and_eq_true_iff.1 hgood
      have h := State.startAdmin_good hp' he' hs.ready (hs.admcq ▸ hc) (hs.admeq ▸ hq)
      refine ⟨congrArg (·.ena) h.hub, (congrArg (·.again) h.hub).trans hs.again, (congrArg (·.parts) h.hub).trans hs.parts,
        h.bytes.ctxs.trans hs.ctxs, fun n hn => ⟨?_, ?_⟩, congrArg (·.ready) h.hub⟩
      · refine (congrArg (·.cqs.get? n) h.hub).trans ((Sparse.get?_put_ne _ hn _).trans ?_)
        rw [hs.cqs, Sparse.get?_nil]
      · have hring := h.rings n
        rw [show s.shut.withAdmin.sys.hub.eqs.get? n = _ from Sparse.get?_put_ne _ hn _, hs.eqs] at hring
        simpa using hring
    | false =>
      have hbad : lognOk s.shut.sys.hub.admcq = false ∨ lognOk s.shut.sys.hub.admeq = false := by
        rw [hs.admcq, hs.admeq]
        exact Bool.and_eq_false_iff.1 hgood
      rw [State.startAdmin_bad hp' he' hs.ready hbad]
      exact ⟨rfl, hs.again, hs.parts, hs.ctxs, fun n _ => ⟨congrArg (·.get? n) hs.cqs, congrArg (·.get? n) hs.eqs⟩, hs.ready⟩

end

/-! The machine at reset, and after its first step (R24, R42). -/

namespace Sys2Proof.Machine

/-- With no unit retired the domains stand as R42 gives them. -/
theorem State.startupDomains_fresh {s : State} (h : s.sys.hub.retired = []) : s.startupDomains = startDomains := by
  have hid : startDomains.mapv (fun _ d => { d with mask := d.mask &&& ~~~0 }) = startDomains := by decide
  unfold State.startupDomains
  rw [h]
  simpa using hid

theorem startDomains_active : ∀ stack < 16, startDomains.getD (8 * (stack / 4) + stack % 4) Domain.inactive =
    ⟨48 * stack, 48 * stack + 47, BitVec.ofNat 64 ((2 ^ 16 - 1) * 2 ^ (16 * (stack % 4))), false, .active, 48 * stack,
      48 * stack + 47, BitVec.ofNat 64 ((2 ^ 16 - 1) * 2 ^ (16 * (stack % 4))), none, 0, []⟩ := by decide

theorem startDomains_inactive : ∀ die < 4, ∀ k < 8, 4 ≤ k →
    (startDomains.getD (8 * die + k) Domain.inactive).st = .inactive := by decide

/-- The first step runs the start-up sequence with no unit failing. -/
theorem step_reset : step State.reset = .next ((State.reset.restart false).startup [] [] ⟨16, false⟩) :=
  exec_powerOn (s := State.reset) (Or.inr rfl) _ _ _

theorem reset_started : (State.reset.restart false).Started ((State.reset.restart false).startup [] [] ⟨16, false⟩)
    ⟨0, 0, ⟨Config.defaultThreshold, 1, 0⟩⟩ ⟨[], 0⟩ ⟨16, false⟩ :=
  State.startup_started (s := State.reset.restart false) rfl Flash.shipped_verifies Flash.shipped_config Flash.shipped_service _ _ _

theorem reset_retired : ((State.reset.restart false).startup [] [] ⟨16, false⟩).sys.hub.retired = [] := by
  rw [State.startup_good (s := State.reset.restart false) Flash.shipped_verifies Flash.shipped_config Flash.shipped_service]
  rfl

end Sys2Proof.Machine

section
open Sys2Proof Sys2Proof.Machine

/-- Settles O60: the store as shipped verifies, so the first step starts the module up, with no unit retired. -/
theorem resetState : Obligations.ResetState := by
  have h := reset_started
  have hdom := h.domains.trans (State.startupDomains_fresh reset_retired)
  refine ⟨rfl, rfl, rfl, rfl, fun _ => rfl, fun _ => rfl, rfl, rfl, rfl, rfl, fun _ => rfl, reset_form, rfl,
    _, step_reset, h.phase, h.active, fun stack hs => ?_, fun die k hd h4 h8 => ?_⟩
  · unfold Mach.domain
    rw [hdom]
    exact startDomains_active stack hs
  · unfold Mach.domain
    rw [hdom]
    exact startDomains_inactive die hd k h8 h4

end

/-! The host's writes (R66). -/

namespace Sys2Proof.Machine

/-- A running module whose ENA has been set again while its queues wait for launches to end: ENA reads 1 (`Hub.enaBit`), with the
queues themselves not enabled. -/
def enaAgain : State := State.reset.updHub fun h => { h with phase := .running, again := true }

end Sys2Proof.Machine

section
open Sys2Proof Sys2Proof.Machine

/-- Refutes O47: in `enaAgain` ENA has been written to 1 and reads 1, while the hub's own flag `ena` is false; a write of ADMCQ is
ignored there (R66), where the statement, which asks for the flag alone, has it taken. -/
theorem not_hostWrites : ¬ Obligations.HostWrites := by
  unfold Obligations.HostWrites
  intro h
  obtain ⟨-, -, hreg, -⟩ := h
  have hkept : exec (.registerWrite (.bar0 0x10) 0x1000) enaAgain = .next enaAgain := rfl
  have htaken := (hreg enaAgain 0x1000 rfl).1
  rw [hkept] at htaken
  have hcq := congrArg (fun o : Out => match o with
    | .next t => t.sys.hub.admcq
    | _ => 0) htaken
  exact absurd hcq (by decide)

end

/-! A peer's read whose number a domain names as returned (R31, R50). -/

namespace Sys2Proof.Machine

/-- A running module with module 1 connected, in which a domain lists the number 0, the next to be given out, among the requests it
returns to their senders (R50). -/
def returnsNext : State :=
  (State.reset.updHub fun h => { h with phase := .running }).updM fun m =>
    { m with peers := [(1, .up)], domains := [(0, { Domain.inactive with stale := [0] })] }

theorem returnsNext_asks : returnsNext.PeerAsks 1 0 1 where
  idle := ⟨rfl, rfl, fun _ h => by cases h⟩
  up := rfl
  stays := rfl
  first := rfl
  last := rfl

/-- The request gets number 0 and is returned unexecuted: it waits. -/
theorem returnsNext_waits : exec (.peerMemoryRequest 1 0 (.read 1)) returnsNext =
    .next (returnsNext.updM fun m => { m with peerIn := [⟨0, 1, 0, .read 1, 0⟩], serial := 1 }) := rfl

end Sys2Proof.Machine

section
open Sys2Proof Sys2Proof.Machine

/-- Refutes O50: `State.PeerAsks` does not ask that no domain returns the request's number. In `returnsNext` one does (R50), so the
read is not answered, where the statement has no request wait. The number is one not given out before, which a state with
`Mach.Form` may list as well, for the form speaks of operations alone. -/
theorem not_peersFabricMigration : ¬ Obligations.PeersFabricMigration := by
  unfold Obligations.PeersFabricMigration
  intro h
  obtain ⟨-, -, -, hread, -⟩ := h
  obtain ⟨t, ht, -, -, hidle, -⟩ := hread returnsNext 1 0 1 returnsNext_asks rfl
  cases returnsNext_waits.symm.trans ht
  cases hidle

end

section
/-! What messages at gated routers leave of the machine, and writes at device addresses. -/

namespace Sys2Proof.Machine

/-! ## Messages at gated routers -/

/-- Two machines that differ in the messages held for gated routers alone (R39). -/
def Mach.SameButMsgs (m n : Mach) : Prop := { n with heldMsgs := [] } = { m with heldMsgs := [] }

namespace Mach.SameButMsgs

variable {a b c : Mach}

theorem refl (m : Mach) : m.SameButMsgs m := rfl
theorem trans (h : a.SameButMsgs b) (g : b.SameButMsgs c) : a.SameButMsgs c := Eq.trans g h
theorem mem (h : a.SameButMsgs b) : b.mem = a.mem := congrArg (·.mem) h
theorem cores (h : a.SameButMsgs b) : b.cores = a.cores := congrArg (·.cores) h
theorem teams (h : a.SameButMsgs b) : b.teams = a.teams := congrArg (·.teams) h
theorem warps (h : a.SameButMsgs b) : b.warps = a.warps := congrArg (·.warps) h
theorem tasks (h : a.SameButMsgs b) : b.tasks = a.tasks := congrArg (·.tasks) h
theorem frames (h : a.SameButMsgs b) : b.frames = a.frames := congrArg (·.frames) h
theorem ops (h : a.SameButMsgs b) : b.ops = a.ops := congrArg (·.ops) h

theorem foldl {α : Type} {f : Mach → α → Mach} (hf : ∀ m x, Mach.SameButMsgs m (f m x)) (l : List α) (m : Mach) :
    m.SameButMsgs (l.foldl f m) := by
  induction l generalizing m with
  | nil => exact refl m
  | cons x l ih => exact (hf m x).trans (ih _)

end Mach.SameButMsgs

theorem Mach.sendMsg_msgs (m : Mach) (n : Nat) (reply : Bool) (src dst : Nat) : m.SameButMsgs (m.sendMsg n reply src dst) := by
  unfold Mach.sendMsg
  extract_lets msg
  split <;> rfl

theorem Mach.invalidate_msgs (m : Mach) (n : Nat) (rs : List (Place × Nat)) : m.SameButMsgs (m.invalidate n rs) := by
  refine .foldl (fun m e => ?_) _ m
  split
  · exact m.sendMsg_msgs _ _ _ _
  · exact .refl m

theorem Mach.replied_msgs (m : Mach) (n core : Nat) (ps : List Place) : m.SameButMsgs (m.replied n core ps).2 := by
  unfold Mach.replied
  split
  · exact .refl m
  · exact .foldl (fun m d => m.sendMsg_msgs _ _ _ _) _ m

theorem Mach.backOver_msgs (m : Mach) (n core : Nat) (ps : List Place) (rs : List (Place × Nat)) :
    m.SameButMsgs (m.backOver n core ps rs).2 := by
  unfold Mach.backOver
  extract_lets m1
  have h1 : m.SameButMsgs m1 := m.invalidate_msgs n rs
  split
  · exact h1
  · exact h1.trans (m1.replied_msgs n core ps)

/-! ## Bytes at device addresses -/

namespace Mach.SameButBytes

variable {a b : Mach}

theorem cores (h : a.SameButBytes b) : b.cores = a.cores := congrArg (·.cores) h
theorem teams (h : a.SameButBytes b) : b.teams = a.teams := congrArg (·.teams) h
theorem warps (h : a.SameButBytes b) : b.warps = a.warps := congrArg (·.warps) h
theorem tasks (h : a.SameButBytes b) : b.tasks = a.tasks := congrArg (·.tasks) h
theorem frames (h : a.SameButBytes b) : b.frames = a.frames := congrArg (·.frames) h
theorem ops (h : a.SameButBytes b) : b.ops = a.ops := congrArg (·.ops) h

end Mach.SameButBytes

/-- Address a lies in WAITHEAD of a cell with waiters that n bytes at pa meet (R131, R132). -/
def Mach.InWaithead (m : Mach) (pa n a : Nat) : Prop :=
  ∃ cell ∈ m.waitedCells, cell < pa + n ∧ pa < cell + 16 ∧ cell + 10 ≤ a ∧ a < cell + 16

theorem Memory.read_zeroHeads (cells : List Nat) (mem : List Host.Cell) (a : Nat) :
    ((∃ c ∈ cells, c + 10 ≤ a ∧ a < c + 16) →
      Memory.read (cells.foldl (fun mem c => Memory.writeN mem (c + 10) (List.replicate 6 0)) mem) a = 0) ∧
    ((¬∃ c ∈ cells, c + 10 ≤ a ∧ a < c + 16) →
      Memory.read (cells.foldl (fun mem c => Memory.writeN mem (c + 10) (List.replicate 6 0)) mem) a = Memory.read mem a) := by
  induction cells generalizing mem with
  | nil => simp
  | cons c cells ih =>
    obtain ⟨hzero, hkept⟩ := ih (Memory.writeN mem (c + 10) (List.replicate 6 0))
    have hhead := Memory.read_writeN mem (c + 10) a (List.replicate 6 0)
    rw [List.length_replicate] at hhead
    simp only [List.foldl_cons, List.mem_cons, exists_eq_or_imp, not_or]
    by_cases htail : ∃ c ∈ cells, c + 10 ≤ a ∧ a < c + 16
    · exact ⟨fun _ => hzero htail, fun h => absurd htail h.2⟩
    · rw [hkept htail]
      refine ⟨fun h => ?_, fun h => hhead.trans (if_neg fun g => h.1 (by omega))⟩
      have hc := h.resolve_right htail
      have hlt : a - (c + 10) < 6 := by omega
      rw [hhead, if_pos (by omega), List.getD_eq_getElem?_getD, List.getElem?_replicate, if_pos hlt, Option.getD_some]

theorem Mach.read_clearWaitheads (m : Mach) (pa n a : Nat) :
    (m.InWaithead pa n a → Memory.read (m.clearWaitheads pa n).mem a = 0) ∧
    (¬m.InWaithead pa n a → Memory.read (m.clearWaitheads pa n).mem a = Memory.read m.mem a) := by
  have hmet : m.InWaithead pa n a ↔
      ∃ c ∈ m.waitedCells.filter fun c => c < pa + n && pa < c + 16, c + 10 ≤ a ∧ a < c + 16 := by
    simp [Mach.InWaithead, and_assoc]
  rw [hmet]
  exact Memory.read_zeroHeads _ m.mem a

/-- What a write to local memory leaves in each byte (R132). -/
theorem Mach.read_devWrite (m : Mach) {pa : Nat} (hp : (Place.dev pa).peer? = none) (bs : List Byte) (a : Nat) :
    (m.InWaithead pa bs.length a → Memory.read (m.placeWrite (.dev pa) bs).mem a = 0) ∧
    (¬m.InWaithead pa bs.length a → Memory.read (m.placeWrite (.dev pa) bs).mem a =
      if pa ≤ a ∧ a < pa + bs.length then bs.getD (a - pa) 0 else Memory.read m.mem a) := by
  obtain ⟨hmem, -, -, -, htasks, -⟩ := m.homeWrite_spec pa bs
  have hw : m.placeWrite (.dev pa) bs = (m.homeWrite pa bs).clearWaitheads pa bs.length := by simp only [Mach.placeWrite, hp]
  have hin : (m.homeWrite pa bs).InWaithead pa bs.length a ↔ m.InWaithead pa bs.length a := by
    unfold Mach.InWaithead Mach.waitedCells
    rw [htasks]
  have h := (m.homeWrite pa bs).read_clearWaitheads pa bs.length a
  rw [hin, hmem, Memory.read_writeN] at h
  rw [hw]
  exact h

end Sys2Proof.Machine
end

section
/-! A store reaches its home and is acknowledged (R47, R132, R205, R206). -/

namespace Sys2Proof.Machine

theorem Mach.core_updCore (m : Mach) (core : Nat) (f : Core → Core) : (m.updCore core f).core core = f (m.core core) := by
  simp [Mach.updCore, Mach.core, Sparse.getD]

/-- The stores of a core once those of a number are done. -/
def markDone (id : Nat) (l : List PStore) : List PStore := l.map fun x => if x.id = id then { x with done := true } else x

theorem find?_markDone {id : Nat} {l : List PStore} {st : PStore} (h : (l.find? fun y => y.id = id) = some st) :
    ((markDone id l).find? fun y => y.id = id) = some { st with done := true } := by
  have hid : st.id = id := by simpa using List.find?_some h
  have hcomp : ((fun y : PStore => decide (y.id = id)) ∘ fun x => if x.id = id then { x with done := true } else x) =
      fun y => decide (y.id = id) := by
    funext x
    simp only [Function.comp]
    split <;> rfl
  rw [markDone, List.find?_map, hcomp, h, Option.map_some, if_pos hid]

/-- Those of other numbers are as they were. -/
theorem filter_markDone (id : Nat) (l : List PStore) :
    ((markDone id l).filter fun y => y.id ≠ id) = l.filter fun y => y.id ≠ id := by
  unfold markDone
  induction l with
  | nil => rfl
  | cons x l ih =>
    rw [List.map_cons, List.filter_cons, List.filter_cons, ih]
    by_cases hx : x.id = id <;> simp [hx]

/-- What a home changes as it performs a store: bytes, the marks and replicas of their lines, and that the store is done. -/
structure Mach.Performs (m n : Mach) (core id pa : Nat) (bs : List Byte) : Prop where
  heads : ∀ a, m.InWaithead pa bs.length a → Memory.read n.mem a = 0
  bytes : ∀ a, ¬m.InWaithead pa bs.length a → Memory.read n.mem a =
    if pa ≤ a ∧ a < pa + bs.length then bs.getD (a - pa) 0 else Memory.read m.mem a
  stores : (n.core core).stores = markDone id (m.core core).stores
  warps : n.warps = m.warps
  frames : n.frames = m.frames
  teams : n.teams = m.teams
  tasks : n.tasks = m.tasks

/-- Setting RELCORE marks leaves all but the marks (R215). -/
theorem Mach.markRelcore_rest (m : Mach) (rel : Option Nat) (p : Place) (k : Nat) :
    { m.markRelcore rel p k with relcore := [] } = { m with relcore := [] } := by
  unfold Mach.markRelcore
  split
  · split <;> rfl
  · rfl

/-- A store that nothing holds back is performed. -/
theorem Mach.performStore_performs {m : Mach} {core id pa : Nat} {st : PStore}
    (hst : ((m.core core).stores.find? fun y => y.id = id) = some st) (hpa : st.place = .dev pa) (hlocal : st.place.peer? = none)
    (hnew : st.done = false) (hserved : m.served id true [st.place] = true)
    (hfirst : m.storeBefore core id [(st.place, st.bytes.length)] = false)
    (hfree : m.relcoreFree st.relcore st.place st.bytes.length = true) (hgate : m.atGate [(st.place, st.bytes.length)] = false) :
    m.Performs (m.performStore core id) core id pa st.bytes := by
  unfold Mach.performStore
  split
  · rename_i hnone
    cases hst.symm.trans hnone
  rename_i s hs
  obtain rfl : st = s := Option.some.inj (hst.symm.trans hs)
  extract_lets r old m1 m2 m3
  rw [if_neg (by simp [r, hgate]), if_neg (by simp [r, hnew, hlocal, hserved, hfirst, hfree])]
  rw [hpa] at hlocal
  have h0 := m.invalidate_msgs id r
  have hm1 : m1 = (m.invalidate id r).placeWrite (.dev pa) st.bytes := by rw [← hpa]
  have h1 : (m.invalidate id r).SameButBytes m1 := hm1 ▸ Mach.devWrite_bytes _ _ _
  have h3 : { m3 with relcore := [] } = { m2 with relcore := [] } := m2.markRelcore_rest _ _ _
  have hin (a : Nat) : (m.invalidate id r).InWaithead pa st.bytes.length a ↔ m.InWaithead pa st.bytes.length a := by
    unfold Mach.InWaithead Mach.waitedCells
    rw [h0.tasks]
  have hread (a : Nat) := (m.invalidate id r).read_devWrite hlocal st.bytes a
  simp only [hin, h0.mem, ← hm1] at hread
  have hmem : m3.mem = m1.mem := congrArg (·.mem) h3
  have hcores : m3.cores = m.cores := (congrArg (·.cores) h3).trans (h1.cores.trans h0.cores)
  refine ⟨fun a h => ?_, fun a h => ?_, ?_, ?_, ?_, ?_, ?_⟩
  · exact (congrArg (Memory.read · a) hmem).trans ((hread a).1 h)
  · exact (congrArg (Memory.read · a) hmem).trans ((hread a).2 h)
  · rw [Mach.core_updCore, Mach.core, hcores]
    rfl
  · exact (congrArg (·.warps) h3).trans (h1.warps.trans h0.warps)
  · exact (congrArg (·.frames) h3).trans (h1.frames.trans h0.frames)
  · exact (congrArg (·.teams) h3).trans (h1.teams.trans h0.teams)
  · exact (congrArg (·.tasks) h3).trans (h1.tasks.trans h0.tasks)

/-- What an acknowledged store leaves: the store's path and count, with all else of what its home left. -/
structure Mach.Acked (m n : Mach) (core id : Nat) (st : PStore) : Prop where
  mem : n.mem = m.mem
  stores : (n.core core).stores = (m.core core).stores.filter fun y => y.id ≠ id
  warp : ∀ x, m.warps.get? (warpKey st.team st.warp) = some x →
    n.warps.get? (warpKey st.team st.warp) = some { x with unacked := x.unacked - 1 }
  frames : n.frames = m.frames
  teams : n.teams = m.teams
  tasks : n.tasks = m.tasks

/-- A store that its home has performed, whose acknowledgement reaches its core, is over. -/
theorem Mach.ackStore_acked {m done : Mach} {core id : Nat} {st : PStore} (hdone : m.performStore core id = done)
    (hst : ((done.core core).stores.find? fun y => y.id = id) = some st) (hd : st.done = true)
    (hheld : done.holds id false = false) (hback : (done.replied id core [st.place]).1 = true) :
    done.Acked (m.ackStore core id) core id st := by
  have hr := done.replied_msgs id core [st.place]
  unfold Mach.ackStore
  simp only [hdone, hst, hd, hheld, Bool.true_or, Bool.not_false, Bool.and_self, if_true, hback, Bool.not_true, Bool.false_eq_true,
    if_false]
  generalize (done.replied id core [st.place]).2 = n at hr ⊢
  have hrest (k : Mach) (hk : k = n ∨ ∃ rs, k = { n with replicas := rs }) : done.Acked
      (((k.updCore core fun c => { c with stores := c.stores.filter fun x => x.id ≠ id }).updWarp st.team st.warp fun x =>
        { x with unacked := x.unacked - 1 }).sendDue) core id st := by
    have e : k.mem = n.mem ∧ k.cores = n.cores ∧ k.warps = n.warps ∧ k.frames = n.frames ∧ k.teams = n.teams ∧
        k.tasks = n.tasks := by
      rcases hk with rfl | ⟨rs, rfl⟩ <;> exact ⟨rfl, rfl, rfl, rfl, rfl, rfl⟩
    obtain ⟨emem, ecores, ewarps, eframes, eteams, etasks⟩ := e
    refine ⟨emem.trans hr.mem, ?_, fun x hx => ?_, eframes.trans hr.frames, eteams.trans hr.teams, etasks.trans hr.tasks⟩
    · show ((k.updCore core fun c => { c with stores := c.stores.filter fun x => x.id ≠ id }).core core).stores = _
      rw [Mach.core_updCore, Mach.core, ecores, hr.cores]
      rfl
    · show Sparse.get? (Sparse.upd k.warps _ _) _ = _
      rw [Sparse.get?_upd_self, ewarps, hr.warps, hx, Option.map_some]
  split
  · exact hrest _ (.inr ⟨_, rfl⟩)
  · exact hrest n (.inl rfl)

end Sys2Proof.Machine

open Sys2Proof Sys2Proof.Machine

/-- Settles O13: the home performs the store (`Mach.performStore_performs`), and its acknowledgement ends it (`Mach.ackStore_acked`). -/
theorem storeAckPerformsStore : Obligations.StoreAckPerformsStore := by
  intro s st pa hst hpa hlocal hnew hserved hfirst hfree hgate done hheld hback zeroed
  have hp := Mach.performStore_performs hst hpa hlocal hnew hserved hfirst hfree hgate
  have hst' : ((done.core s.subj.x).stores.find? fun y => y.id = s.subj.y) = some { st with done := true } := by
    rw [hp.stores]
    exact find?_markDone hst
  have ha := Mach.ackStore_acked rfl hst' rfl hheld hback
  refine ⟨s.updM fun m => m.ackStore s.subj.x s.subj.y, rfl, rfl, rfl, fun a h => ?_, fun a h => ?_, ?_, fun x hx => ?_,
    ha.frames.trans hp.frames, ha.teams.trans hp.teams, ha.tasks.trans hp.tasks⟩
  · exact (congrArg (Memory.read · a) ha.mem).trans (hp.heads a h)
  · exact (congrArg (Memory.read · a) ha.mem).trans (hp.bytes a h)
  · exact ha.stores.trans ((congrArg _ hp.stores).trans (filter_markDone _ _))
  · exact ha.warp x (hp.warps ▸ hx)

end

section
/-! A CANCEL of a number that no launch holds, where a team still names it (R77, R96). -/

namespace Sys2Proof.Machine

/-- A launch with every field of its record 0. -/
def blankLaunch : Launch := (launchRecOf []).launch 0 0

/-- A running module with launch 2 alone listed, its team on core 0 chosen and waiting; a team there still names launch 1. -/
def staleTeam : State :=
  (State.reset.updHub fun h => { h with phase := .running, ena := true, eqs := [(0, ⟨none, 4, 0, 0, 0, 0, []⟩)] }).updM fun m =>
    { m with
      launches := [(2, blankLaunch)]
      teams := [(256, blankLaunch.team 1 0 0 0 0), (512, { blankLaunch.team 2 0 0 0 0 with chosen := true })] }

/-- The header of a QUIET command of the admin queue. -/
def quietHeader : CmdHdr := ⟨0, 0, false, true, 0, 0, 0, false⟩

theorem staleTeam_runs : CommandRuns staleTeam quietHeader true none where
  begins := by decide
  passes := by decide

/-- The commands' effect on the chosen team: CANCEL gives the core of the stale team away, and the team that waits takes it. -/
theorem staleTeam_cancel : ((staleTeam.cancelLaunch 1 6).2.m.team? 512).map (·.res) = some .resident := by decide

end Sys2Proof.Machine
end

section
open Sys2Proof Sys2Proof.Machine

/-- Refutes O43: where no launch has the number, CANCEL still offers the cores of the teams that name it to chosen teams. In
`staleTeam` one is resident after it, where the statement has the command complete and change nothing else. -/
theorem not_launchesPoliciesRecords : ¬ Obligations.LaunchesPoliciesRecords := by
  unfold Obligations.LaunchesPoliciesRecords
  intro h
  obtain ⟨-, hcancel, -⟩ := h
  obtain ⟨hruns, hnone, -⟩ := hcancel staleTeam quietHeader 1 staleTeam_runs
  have hsame := congrArg (fun o : Out => match o with
    | .next t => (t.m.team? 512).map Team.res
    | _ => none) (hruns.symm.trans (hnone rfl))
  have hres : (staleTeam.m.team? 512).map (·.res) = some .waitingNew := rfl
  exact absurd (staleTeam_cancel.symm.trans (hsame.trans hres)) (by decide)

end

section
/-! Domain entries as they change (R50, R51, R78). -/

namespace Sys2Proof.Machine

/-! ## DOMAIN_SPLIT and DOMAIN_MERGE -/

theorem State.domainCommand_begins {s : State} {h : CmdHdr} {opcode die : Nat} {chk : Status} {start : State → State}
    (hb : s.begun h = false) (hr : CommandRuns s h false none) (hc : chk = .ok) (hf : s.sys.hub.splitting.get? die = none) :
    s.domainCommand h opcode die chk start = .next ((start s).begin h []) := by
  simp [State.domainCommand, hb, hr.begins, hr.passes, hc, hf]

theorem State.domainCommand_ends {s : State} {h : CmdHdr} {opcode die : Nat} {chk : Status} {start : State → State}
    (hb : s.begun h = true) (hf : s.sys.hub.splitting.get? die = none) :
    s.domainCommand h opcode die chk start = .next (s.complete h opcode .ok 0) := by
  simp [State.domainCommand, hb, hf]

/-! ## Entries and machines -/

@[simp] theorem Mach.domain_putDomain (m : Mach) (die k : Nat) (d : Domain) : (m.putDomain die k d).domain die k = d := by
  simp [Mach.domain, Mach.putDomain, Sparse.getD]

theorem Mach.domain_putDomain_ne (m : Mach) {die j k : Nat} (h : j ≠ k) (d : Domain) :
    (m.putDomain die k d).domain die j = m.domain die j := by
  have hk : 8 * die + j ≠ 8 * die + k := by omega
  simp [Mach.domain, Mach.putDomain, Sparse.getD, Sparse.get?_put_ne _ hk]

/-- With nothing of a peer and no held future operation waiting, `drain` applies nothing. -/
theorem Mach.drain_idle {m : Mach} (h : m.PeersIdle) : m.drain = m := by
  have hlost : m.remoteCells.filter (fun r => m.conn r.module = .down) = [] :=
    List.filter_eq_nil_iff.2 fun r hr => by simp [h.lost r hr]
  simp [Mach.drain, h.requests, Mach.drainPeers, Mach.retryCells, h.late, Mach.resolveLost, hlost]

theorem Mach.packBlock_dirty (m : Mach) (b : Nat) (cmp : Bool) : (m.packBlock b cmp).dirty = m.dirty := by
  unfold Mach.packBlock
  extract_lets zero
  split_ifs <;> rfl

theorem Mach.foldl_packBlock_dirty (bs : List Nat) (m : Mach) :
    (bs.foldl (fun m b => m.packBlock b (m.cmpAt (b * 512))) m).dirty = m.dirty := by
  induction bs generalizing m with
  | nil => rfl
  | cons b bs ih => exact (ih _).trans (m.packBlock_dirty b _)

/-! ## SWITCH -/

/-- Whether entry e is what the entry old becomes at its switch (R50): its new range and mask, GEN toggled; INACTIVE with no slice. -/
structure Domain.Became (e old : Domain) : Prop where
  gen : e.gen = !old.gen
  mask : e.mask = old.newMask
  rest : if old.newMask = 0 then e.st = .inactive ∧ e.base = 0 ∧ e.lim = 0
    else e.st = .replay ∧ e.base = old.newBase ∧ e.lim = old.newLim

/-- What `switchEntry` leaves: the entry has become what it was to be, and the other entries, memory and peers stay. -/
structure Mach.Switches (m n : Mach) (die k : Nat) : Prop where
  entry : (n.domain die k).Became (m.domain die k)
  others : ∀ j, j ≠ k → n.domain die j = m.domain die j
  mem : n.mem = m.mem
  idle : m.PeersIdle → n.PeersIdle

theorem Mach.switchEntry_switches (m : Mach) (die k : Nat) (old : Domain) : m.Switches (m.switchEntry die k old) die k where
  entry := by
    unfold Mach.switchEntry
    extract_lets d e n gone
    show (n.domain die k).Became d
    rw [m.domain_putDomain]
    split_ifs with h
    · exact ⟨rfl, rfl, by rw [if_pos h]; exact ⟨if_pos h, rfl, rfl⟩⟩
    · exact ⟨rfl, rfl, by rw [if_neg h]; exact ⟨if_neg h, rfl, rfl⟩⟩
  others j hj := m.domain_putDomain_ne hj _
  mem := rfl
  idle h := ⟨h.late, h.requests, h.lost⟩

/-- Both entries of a pair switch, in either order. -/
theorem Mach.Switches.pair {m n o : Mach} {die j k : Nat} (hjk : j ≠ k) (h : m.Switches n die j) (g : n.Switches o die k) :
    (o.domain die j).Became (m.domain die j) ∧ (o.domain die k).Became (m.domain die k) :=
  ⟨g.others j hjk ▸ h.entry, h.others k hjk.symm ▸ g.entry⟩

/-- The requests an entry returns are no part of what it becomes. -/
theorem Domain.Became.stale {e old : Domain} (h : e.Became old) (l : List Nat) : ({ e with stale := l } : Domain).Became old :=
  ⟨h.gen, h.mask, h.rest⟩

/-- What a pair of entries leaves as it switches: both have become what they were to be, memory as it was, nothing for peers. -/
structure Mach.PairSwitches (m n : Mach) (die j k : Nat) : Prop where
  one : (n.domain die j).Became (m.domain die j)
  other : (n.domain die k).Became (m.domain die k)
  mem : n.mem = m.mem
  idle : m.PeersIdle → n.PeersIdle

theorem Mach.PairSwitches.symm {m n : Mach} {die j k : Nat} (h : m.PairSwitches n die j k) : m.PairSwitches n die k j :=
  ⟨h.other, h.one, h.mem, h.idle⟩

theorem Mach.switchPair (m : Mach) (die : Nat) {j k : Nat} (hjk : j ≠ k) (x y : Domain) :
    m.PairSwitches ((m.switchEntry die j x).switchEntry die k y) die j k :=
  have h := m.switchEntry_switches die j x
  have g := (m.switchEntry die j x).switchEntry_switches die k y
  ⟨(h.pair hjk g).1, (h.pair hjk g).2, g.mem.trans h.mem, fun i => g.idle (h.idle i)⟩

/-- The requests the second entry returns besides are added once both have switched. -/
theorem Mach.PairSwitches.putStale {m n : Mach} {die j k : Nat} (hjk : j ≠ k) (h : m.PairSwitches n die j k) (l : List Nat) :
    m.PairSwitches (n.putDomain die k { n.domain die k with stale := l }) die j k where
  one := by rw [n.domain_putDomain_ne hjk]; exact h.one
  other := by rw [n.domain_putDomain]; exact h.other.stale l
  mem := h.mem
  idle i := ⟨(h.idle i).late, (h.idle i).requests, (h.idle i).lost⟩

/-! ## The steps of an entry -/

/-- Writing back the dirty lines of the range leaves none of them dirty; only what the slices hold changes, and the entry. -/
theorem exec_domainWritebackDone {s : State} (h : (s.m.domain s.subj.x s.subj.y).st = .writeback) :
    ∃ n, s.m.SameButSlices n ∧ (∀ l ∈ n.dirty, (s.m.domain s.subj.x s.subj.y).holds (l * 128) = false) ∧
      exec .domainWritebackDone s = .next (s.updM fun _ => n.putDomain s.subj.x s.subj.y
        { s.m.domain s.subj.x s.subj.y with st := .switch, since := n.serial }) := by
  let ls := s.m.dirty.filter fun l => (s.m.domain s.subj.x s.subj.y).holds (l * 128)
  let m1 : Mach := { s.m with dirty := s.m.dirty.filter fun l => !ls.contains l }
  let n := ((ls.map (· / 4)).eraseDups).foldl (fun m b => m.packBlock b (m.cmpAt (b * 512))) m1
  refine ⟨n, Mach.SameButSlices.trans (b := m1) rfl (Mach.SameButSlices.foldl _ (fun m _ => m.packBlock_slices _ _) _ _),
    fun l hl => ?_, ?_⟩
  · have hl : l ∈ m1.dirty := Mach.foldl_packBlock_dirty _ m1 ▸ hl
    obtain ⟨hin, hnot⟩ := List.mem_filter.1 hl
    simpa [ls, hin] using hnot
  · show execDomainWritebackDone s = _
    unfold execDomainWritebackDone State.on
    simp only [h]
    rfl

/-- An entry that changes alone. -/
theorem exec_domainSwitchDone_alone {s : State} (h : (s.m.domain s.subj.x s.subj.y).st = .switch)
    (hp : (s.m.domain s.subj.x s.subj.y).partner = none) : exec .domainSwitchDone s =
      .next (s.updM fun m => (m.switchEntry s.subj.x s.subj.y (m.domain s.subj.x s.subj.y)).drain) := by
  show execDomainSwitchDone s = _
  unfold execDomainSwitchDone State.on
  simp [h, hp, State.updM]

/-- Of a pair, an entry waits in SWITCH for the other. -/
theorem exec_domainSwitchDone_waits {s : State} {p : Nat} (h : (s.m.domain s.subj.x s.subj.y).st = .switch)
    (hp : (s.m.domain s.subj.x s.subj.y).partner = some p) (hw : (s.m.domain s.subj.x p).st = .writeback) :
    exec .domainSwitchDone s = .next s := by
  show execDomainSwitchDone s = _
  unfold execDomainSwitchDone State.on
  simp [h, hp, hw]

/-- Of a pair, both switch together once neither is in WRITEBACK. -/
theorem exec_domainSwitchDone_pair {s : State} {p : Nat} (h : (s.m.domain s.subj.x s.subj.y).st = .switch)
    (hp : (s.m.domain s.subj.x s.subj.y).partner = some p) (hne : p ≠ s.subj.y)
    (hw : (s.m.domain s.subj.x p).st ≠ .writeback) :
    ∃ n, s.m.PairSwitches n s.subj.x s.subj.y p ∧ exec .domainSwitchDone s = .next (s.updM fun _ => n.drain) := by
  show ∃ n, _ ∧ execDomainSwitchDone s = _
  unfold execDomainSwitchDone State.on
  by_cases hs : (s.m.domain s.subj.x p).st = .switch
  · by_cases hz : (s.m.domain s.subj.x s.subj.y).newMask = 0
    · simp only [h, hp, hs, hz]
      exact ⟨_, ((s.m.switchPair s.subj.x hne.symm _ _).putStale hne.symm _), rfl⟩
    · simp only [h, hp, hs, hz]
      exact ⟨_, ((s.m.switchPair s.subj.x hne _ _).putStale hne _).symm, rfl⟩
  · simp only [h, hp, hs, hw]
    exact ⟨_, s.m.switchPair s.subj.x hne.symm _ _, rfl⟩

/-- An entry in REPLAY with nothing left to return becomes active. -/
theorem exec_domainReplayDone {s : State} (h : (s.m.domain s.subj.x s.subj.y).st = .replay)
    (hs : (s.m.domain s.subj.x s.subj.y).stale = []) :
    let n := s.m.putDomain s.subj.x s.subj.y { s.m.domain s.subj.x s.subj.y with st := .active }
    exec .domainReplayDone s = .next
      (if !(n.domains.any fun e => e.1 / 8 = s.subj.x && (e.2.st matches .writeback | .switch | .replay)) then
        (s.updM fun _ => n).updHub fun h => { h with splitting := h.splitting.del s.subj.x }
      else s.updM fun _ => n) := by
  intro n
  exact if_pos (by simp [h, hs])

/-- No entry of a die that are each active or INACTIVE changes. -/
theorem not_changing_of_still {t : Sparse Domain} {die : Nat}
    (h : ∀ e ∈ t, e.1 / 8 = die → e.2.st = .active ∨ e.2.st = .inactive) :
    (!(t.any fun e => e.1 / 8 = die && (e.2.st matches .writeback | .switch | .replay))) = true := by
  rw [Bool.not_eq_true', List.any_eq_false]
  intro e he hc
  obtain ⟨hd, hst⟩ := Bool.and_eq_true_iff.1 hc
  obtain ha | ha := h e he (by simpa using hd) <;> simp [ha] at hst

theorem domainReplayDone_ends {s : State} (h : (s.m.domain s.subj.x s.subj.y).st = .replay)
    (hs : (s.m.domain s.subj.x s.subj.y).stale = []) : ∃ t, exec .domainReplayDone s = .next t ∧
      t.m = s.m.putDomain s.subj.x s.subj.y { s.m.domain s.subj.x s.subj.y with st := .active } ∧
      ((∀ e ∈ t.m.domains, e.1 / 8 = s.subj.x → e.2.st = .active ∨ e.2.st = .inactive) →
        t.sys.hub.splitting.get? s.subj.x = none) := by
  refine ⟨_, exec_domainReplayDone h hs, ?_, fun hall => ?_⟩
  · split_ifs <;> rfl
  · rw [if_pos (not_changing_of_still ?_)]
    · simp [Sparse.get?_del]
    · intro e he
      refine hall e ?_
      split_ifs <;> exact he

end Sys2Proof.Machine
end

section
open Sys2Proof Sys2Proof.Machine

/-- Settles O44, state by state of the entry; what a switch makes of an entry is `Domain.Became`. -/
theorem domainsChange : Obligations.DomainsChange := by
  unfold Obligations.DomainsChange
  refine ⟨fun s h die k x base mask hb hr hok hf => (State.domainCommand_begins hb hr (if_pos hok) hf : execDomainSplit .. = _),
    fun s h die k absorb mask hb hr hok hf => (State.domainCommand_begins hb hr (if_pos hok) hf : execDomainMerge .. = _),
    fun s h die k x base mask hb hf => ⟨(State.domainCommand_ends hb hf : execDomainSplit .. = _),
      (State.domainCommand_ends hb hf : execDomainMerge .. = _)⟩, fun s => ?_⟩
  refine ⟨fun hst => ?_, fun hst hp hm hi => ?_, fun p hst hp hne hi => ⟨exec_domainSwitchDone_waits hst hp, fun hw => ?_⟩,
    fun hst => ?_, fun hst hnil => ?_⟩
  · obtain ⟨n, hn, hdirty, hexec⟩ := exec_domainWritebackDone hst
    refine ⟨_, hexec, fun a => congrArg (Memory.read · a) hn.mem, hdirty, ?_⟩
    exact (n.domain_putDomain _ _ _).trans (by rw [hn.serial])
  · have hsw := s.m.switchEntry_switches s.subj.x s.subj.y (s.m.domain s.subj.x s.subj.y)
    obtain ⟨hgen, hmask, hrest⟩ := hsw.entry
    obtain ⟨hrep, hbase, hlim⟩ := if_neg hm ▸ hrest
    refine ⟨_, exec_domainSwitchDone_alone hst hp, ?_⟩
    rw [State.updM, Mach.drain_idle (hsw.idle hi)]
    exact ⟨fun a => congrArg (Memory.read · a) hsw.mem, hrep, hgen, hbase, hlim, hmask⟩
  · obtain ⟨n, hn, hexec⟩ := exec_domainSwitchDone_pair hst hp hne hw
    refine ⟨_, hexec, ?_⟩
    rw [Mach.drain_idle (hn.idle hi)]
    exact ⟨fun a => congrArg (Memory.read · a) hn.mem, ⟨hn.one.gen, hn.one.mask, hn.one.rest⟩,
      ⟨hn.other.gen, hn.other.mask, hn.other.rest⟩⟩
  · show execStaleGenReturn s = _
    simp [execStaleGenReturn, State.on, State.updM, hst]
  · obtain ⟨t, hexec, hm, hover⟩ := domainReplayDone_ends hst hnil
    refine ⟨t, hexec, ?_, fun a => ?_, hover⟩
    · rw [hm, Mach.domain_putDomain]
    · exact congrArg (Memory.read · a) (congrArg (·.mem) hm)

end

section
/-! Errors, the scores they raise and the lines they poison (R54-R57, R144, R145, R155). -/

namespace Sys2Proof.Machine

/-! ## Event records leave poison as it is -/

theorem natBytes_length (n v : Nat) : (natBytes n v).length = n := by
  induction n generalizing v with
  | zero => rfl
  | succ n ih => exact congrArg (· + 1) (ih _)

theorem EvRec.bytes_length (r : EvRec) (dropped : Nat) (phase : Bool) : (r.bytes dropped phase).length = 32 := by
  simp [EvRec.bytes, natBytes_length]

/-- A write at a device address of less than a line covers no line whole: poison stays (R155). -/
theorem Mach.devWrite_poison (m : Mach) (pa : Nat) {bs : List Byte} (h : bs.length < 128) :
    (m.placeWrite (.dev pa) bs).poison = m.poison := by
  have hhome : (m.homeWrite pa bs).poison = m.poison := by
    unfold Mach.homeWrite
    extract_lets ls whole
    have hwhole : whole = [] := List.filter_eq_nil_iff.2 fun l _ => by simp; omega
    refine (Mach.SameButSlices.foldl Mach.dirtyLine Mach.dirtyLine_slices ls _).poison.trans ?_
    simp [hwhole]
  cases e : (Place.dev pa).peer? with
  | some peer => simp only [Mach.placeWrite, e]
  | none =>
    simp only [Mach.placeWrite, e]
    exact hhome

theorem State.putRec_poison (s : State) (n : Nat) (q : EvQueue) (r : EvRec) : (s.putRec n q r).m.poison = s.m.poison :=
  Mach.devWrite_poison _ _ (by rw [EvRec.bytes_length]; omega)

theorem State.drainRecs_poison (n : Nat) (rs : List EvRec) (s : State) : (s.drainRecs n rs).m.poison = s.m.poison := by
  induction rs generalizing s with
  | nil => rfl
  | cons r rs ih =>
    unfold State.drainRecs
    split
    · rfl
    · split
      · exact (ih _).trans (s.putRec_poison _ _ _)
      · rfl

theorem State.post_poison (s : State) (n : Nat) (r : EvRec) : (s.post n r).m.poison = s.m.poison := by
  unfold State.post
  extract_lets k s1
  have h1 : s1.m.poison = s.m.poison := s.drainRecs_poison k _
  split
  · exact h1
  · split
    · exact (s1.putRec_poison _ _ _).trans h1
    · exact h1

theorem State.event_poison (s : State) (qs : List Nat) (typ : Nat) (data : DWord) : (s.event qs typ data).m.poison = s.m.poison := by
  unfold State.event
  extract_lets s1 r
  suffices h : ∀ s : State, (qs.foldl (fun s q => s.post q r) s).m.poison = s.m.poison from h s1
  intro s
  induction qs generalizing s with
  | nil => rfl
  | cons q qs ih => exact (ih _).trans (s.post_poison q r)

/-! ## Charging a unit -/

/-- The hub without its leases. -/
def Hub.offLeases (h : Hub) : Hub := { h with leases := [], lastLease := 0 }

theorem Hub.requestLease_offLeases (h : Hub) (u : UnitRef) : (h.requestLease u).2.offLeases = h.offLeases := by
  unfold Hub.requestLease
  split
  · rfl
  · simp only [Hub.offLeases]

theorem Hub.foldl_offLeases {α : Type} {f : Hub → α → Hub} (hf : ∀ h x, (f h x).offLeases = h.offLeases) (l : List α) (h : Hub) :
    (l.foldl f h).offLeases = h.offLeases := by
  induction l generalizing h with
  | nil => rfl
  | cons x l ih => exact (ih _).trans (hf h x)

theorem Hub.seekLeases_offLeases (h : Hub) : h.seekLeases.offLeases = h.offLeases := by
  unfold Hub.seekLeases
  extract_lets limit
  split_ifs
  · rfl
  · refine Hub.foldl_offLeases (fun h e => ?_) _ _
    extract_lets u v
    split_ifs
    · rfl
    · exact h.requestLease_offLeases v

/-- What errors leave as it is: which units have retired, and the machine but for its bytes. -/
structure State.Errs (s t : State) : Prop where
  retired : t.sys.hub.retired = s.sys.hub.retired
  bytes : s.m.SameButBytes t.m

namespace State.Errs

variable {s t u : State}

theorem refl (s : State) : s.Errs s := ⟨rfl, .refl _⟩
theorem trans (h : s.Errs t) (g : t.Errs u) : s.Errs u := ⟨g.retired.trans h.retired, h.bytes.trans g.bytes⟩
theorem of_records (h : s.SameButRecords t) : s.Errs t := ⟨congrArg (·.retired) h.hub, h.bytes⟩

theorem foldl {α : Type} {f : State → α → State} (hf : ∀ (s : State) x, s.Errs (f s x)) (l : List α) (s : State) :
    s.Errs (l.foldl f s) := by
  induction l generalizing s with
  | nil => exact refl s
  | cons x l ih => exact (hf s x).trans (ih _)

/-- Whether a score stands still turns on the retired units alone. -/
theorem still (h : s.Errs t) (x : UnitRef) : t.sys.hub.scoreStill x = s.sys.hub.scoreStill x := by
  unfold Hub.scoreStill Hub.unitGone Hub.linkGone
  rw [h.retired]

theorem team (h : s.Errs t) (tk : Nat) : t.m.team? tk = s.m.team? tk := congrArg (·.get? tk) h.bytes.teams

end State.Errs

@[simp] theorem Hub.score_setScore (h : Hub) (u : UnitRef) (n : Nat) : (h.setScore u n).score u = n := by
  simp [Hub.score, Hub.setScore, Sparse.getD_norm]

theorem Hub.score_congr {h g : Hub} (e : g.scores = h.scores) (u : UnitRef) : g.score u = h.score u := by
  unfold Hub.score
  rw [e]

/-- What a charge to a unit whose score moves comes to: the new score, and, of 16 or more, the event. -/
theorem State.charge_moves {s : State} {u : UnitRef} (h : s.sys.hub.scoreStill u = false) (n : Nat) :
    ∃ t, (s.updHub fun h => h.setScore u (min (h.score u + n) 65535)).SameButRecords t ∧ t.m.poison = s.m.poison ∧
      s.charge u n = t.updHub Hub.seekLeases := by
  unfold State.charge
  rw [h]
  by_cases h16 : 16 ≤ n
  · simp only [h16, if_true]
    exact ⟨_, State.event_same _ _ _ _, State.event_poison _ _ _ _, rfl⟩
  · simp only [h16, if_false]
    exact ⟨_, .refl _, rfl, rfl⟩

theorem State.charge_errs (s : State) (u : UnitRef) (n : Nat) : s.Errs (s.charge u n) := by
  cases h : s.sys.hub.scoreStill u with
  | true => rw [State.charge, if_pos h]; exact .refl s
  | false =>
    obtain ⟨t, ht, -, he⟩ := State.charge_moves h n
    rw [he]
    exact ⟨(congrArg (·.retired) t.sys.hub.seekLeases_offLeases).trans (congrArg (·.retired) ht.hub), ht.bytes⟩

theorem State.charge_poison (s : State) (u : UnitRef) (n : Nat) : (s.charge u n).m.poison = s.m.poison := by
  cases h : s.sys.hub.scoreStill u with
  | true => rw [State.charge, if_pos h]
  | false =>
    obtain ⟨t, -, hp, he⟩ := State.charge_moves h n
    exact he ▸ hp

theorem State.charge_score {s : State} {u : UnitRef} (h : s.sys.hub.scoreStill u = false) (n : Nat) :
    (s.charge u n).sys.hub.score u = min (s.sys.hub.score u + n) 65535 := by
  obtain ⟨t, ht, -, he⟩ := State.charge_moves h n
  rw [he]
  calc t.sys.hub.seekLeases.score u
    _ = t.sys.hub.score u := Hub.score_congr (congrArg (·.scores) t.sys.hub.seekLeases_offLeases) u
    _ = (s.sys.hub.setScore u (min (s.sys.hub.score u + n) 65535)).score u := Hub.score_congr (congrArg (·.scores) ht.hub) u
    _ = _ := Hub.score_setScore _ _ _

theorem scoreOf_eq_scoreRise (k : ScoreEvent) : scoreOf k = scoreRise k := by cases k <;> rfl

/-! ## Corrected errors of a channel -/

theorem State.countCorrected_errs (s : State) (u : UnitRef) (n : Nat) : s.Errs (s.countCorrected u n) := by
  unfold State.countCorrected
  extract_lets key old s1 s2
  have h1 : s.Errs s1 := ⟨rfl, .refl _⟩
  have h2 : s.Errs s2 := h1.trans (.foldl (fun s _ => s.charge_errs u _) _ _)
  split_ifs
  · exact h2.trans (s2.charge_errs u _)
  · exact h2

/-- One corrected error raises the score by 8, the 64th of the hour by 256 more. -/
theorem State.countCorrected_one {s : State} {u : UnitRef} (h : s.sys.hub.scoreStill u = false) :
    (s.countCorrected u 1).sys.hub.score u = min (s.sys.hub.score u + 8 +
      if s.sys.hub.corrected.getD ((4 * u.die + u.unit / 32) * 64 + u.unit % 32) 0 = 63 then 256 else 0) 65535 := by
  unfold State.countCorrected
  extract_lets key old s1 s2
  have h1 : s1.sys.hub.scoreStill u = false := h
  have h2 : s2.sys.hub.score u = min (s.sys.hub.score u + 8) 65535 := State.charge_score h1 8
  have h3 : s2.sys.hub.scoreStill u = false := ((s1.charge_errs u 8).still u).trans h1
  by_cases h63 : old = 63
  · rw [if_pos (by simp [h63]), if_pos h63, State.charge_score h3, h2]
    show min (min _ _ + 256) _ = _
    omega
  · rw [if_neg (by simp; omega), if_neg h63, h2]

/-! ## Poison -/

theorem mem_insertNat {n k : Nat} {l : List Nat} : k ∈ insertNat n l ↔ k = n ∨ k ∈ l := by
  unfold insertNat
  by_cases h : n ∈ l
  · simp [h]
    rintro rfl
    exact h
  · simp [h]

theorem State.poisonLine_score (s : State) (l : Nat) (u : UnitRef) : (s.poisonLine l).sys.hub.score u = s.sys.hub.score u :=
  Hub.score_congr (congrArg (·.scores) (State.event_same _ _ _ _).hub) u

theorem State.mem_poisonLine (s : State) (l k : Nat) : k ∈ (s.poisonLine l).m.poison ↔ k = l ∨ k ∈ s.m.poison := by
  rw [State.poisonLine, State.event_poison]
  exact mem_insertNat

theorem State.poisonLine_errs (s : State) (l : Nat) : s.Errs (s.poisonLine l) :=
  .trans (t := s.updM fun m => { m with poison := insertNat l m.poison }) ⟨rfl, rfl⟩ (.of_records (State.event_same _ _ _ _))

theorem State.poisonBlock_errs (s : State) (pa : Nat) : s.Errs (s.poisonBlock pa) := .foldl (fun s _ => s.poisonLine_errs _) _ _

theorem State.poisonBlock_score (s : State) (pa : Nat) (u : UnitRef) : (s.poisonBlock pa).sys.hub.score u = s.sys.hub.score u := by
  simp only [State.poisonBlock, List.range_succ, List.range_zero, List.nil_append, List.cons_append, List.foldl_cons, List.foldl_nil,
    State.poisonLine_score]

theorem State.mem_poisonBlock (s : State) (pa k : Nat) : k ∈ (s.poisonBlock pa).m.poison ↔ k / 4 = pa / 512 ∨ k ∈ s.m.poison := by
  simp only [State.poisonBlock, List.range_succ, List.range_zero, List.nil_append, List.cons_append, List.foldl_cons, List.foldl_nil,
    State.mem_poisonLine]
  have hk : k / 4 = pa / 512 ↔ k = pa / 512 * 4 + 0 ∨ k = pa / 512 * 4 + 1 ∨ k = pa / 512 * 4 + 2 ∨ k = pa / 512 * 4 + 3 := by omega
  rw [hk]
  tauto

/-! ## Storage of teams -/

theorem Mach.mem_kills_askKill (m : Mach) (launch gang : Nat) (r : FaultRec) :
    ∃ k ∈ (m.askKill launch gang r).kills, k.launch = launch ∧ k.gang = gang := by
  unfold Mach.askKill
  split_ifs with h
  · obtain ⟨k, hk, hkl⟩ := List.any_eq_true.1 h
    exact ⟨k, hk, by simpa using hkl⟩
  · exact ⟨_, List.mem_append_right _ (List.mem_singleton_self _), rfl, rfl⟩

/-- An error in what a team holds asks for its gang's kill. -/
theorem State.coreError_held {s : State} {tk : Nat} {x : Team} (h : s.m.team? tk = some x) (hx : x.holds = true) (u : UnitRef)
    (addr : Nat) : ∃ k ∈ (s.coreError u (some tk) addr).m.kills, k.launch = x.launch ∧ k.gang = x.gang := by
  simp only [State.coreError, Option.bind_some, h, Option.map_some, hx, if_true, State.updM_m, Mach.storageError]
  exact Mach.mem_kills_askKill _ _ _ _

theorem State.coreError_idle {s : State} {tk : Nat} {x : Team} (h : s.m.team? tk = some x) (hx : x.holds = false) (u : UnitRef)
    (addr : Nat) : s.coreError u (some tk) addr = s.condemn u := by
  simp [State.coreError, h, hx]

/-! ## Scrubbing -/

/-- Whether a scrub pass over a channel takes place (R55-R57): due by its period or forced, on a stack that does not yield. -/
def State.Scrubs (s : State) (stack channel : Nat) : Prop :=
  (((s.sys.hub.scrb stack).getLsbD 0 = true ∧
    s.sys.hub.scrubAt.getD (stack * 64 + channel) 0 + s.sys.hub.scrubPeriod stack channel ≤ s.m.mtime) ∨
      stack ∈ s.sys.hub.forced) ∧ stack ∉ s.sys.hub.yielding

theorem State.scrubs_iff (s : State) (stack channel : Nat) :
    (!(((s.sys.hub.scrb stack).getLsbD 0 && s.sys.hub.scrubAt.getD (stack * 64 + channel) 0 +
      s.sys.hub.scrubPeriod stack channel ≤ s.m.mtime) || s.sys.hub.forced.contains stack) ||
      s.sys.hub.yielding.contains stack) = true ↔ ¬s.Scrubs stack channel := by
  unfold State.Scrubs
  generalize (s.sys.hub.scrb stack).getLsbD 0 = on
  by_cases hy : stack ∈ s.sys.hub.yielding
  · simp [hy]
  · cases on <;> simp [hy]

theorem exec_scrubPass_idle {s : State} {stack channel : Nat} (h : ¬s.Scrubs stack channel) (corrected : Nat) (bad : List Nat) :
    exec (.scrubPass stack channel corrected bad) s = .next s :=
  show execScrubPass _ _ _ _ s = _ from if_pos ((s.scrubs_iff stack channel).2 h)

/-- A scrub pass that takes place. -/
theorem exec_scrubPass {s : State} {stack channel corrected : Nat} {bad : List Nat}
    (h : s.Scrubs stack channel) :
    let u : UnitRef := ⟨3, stack / 4, 32 * (stack % 4) + channel⟩
    exec (.scrubPass stack channel corrected bad) s = .next
      (((bad.filter fun pa => regionOf pa = .hbm && stackOf pa = stack).foldl (fun s pa =>
        (s.charge u 16384).poisonBlock pa) (s.countCorrected u corrected)).updHub fun h => { h with
          scrubAt := h.scrubAt.norm (stack * 64 + channel) s.m.mtime 0
          tested := match h.scrubTest u with
            | some n => if stack ∈ s.sys.hub.forced then h.tested.put n ⟨false, bad ≠ [], corrected, 0, 0, true⟩ else h.tested
            | none => h.tested
          forced := if channel = 31 then h.forced.filter (· ≠ stack) else h.forced }) := by
  intro u
  show execScrubPass _ _ _ _ s = _
  unfold execScrubPass
  extract_lets hub key forced due s1 s2
  rw [if_neg (fun g => (s.scrubs_iff stack channel).1 g h)]
  have hm : s2.m.mtime = s.m.mtime := ((s.countCorrected_errs u corrected).trans
    (.foldl (fun s pa => (s.charge_errs u _).trans (State.poisonBlock_errs _ pa)) _ _)).bytes.mtime
  rw [hm]
  simp only [forced, List.contains_iff_mem]
  rfl

/-- The stacks that yield once a demand has been reported (R56, R57). -/
theorem mem_yields {limit demand stack k : Nat} {ys : List Nat} :
    (k ∈ if limit < demand then insertNat stack ys else if demand < limit then ys.filter (· ≠ stack) else ys) ↔
      if k = stack then limit < demand ∨ (limit = demand ∧ k ∈ ys) else k ∈ ys := by
  obtain h | h | h := Nat.lt_trichotomy limit demand
  · simp [h, mem_insertNat]
    tauto
  · simp [h]
  · have hne : limit ≠ demand := h.ne'
    simp [h, h.not_gt, hne]
    tauto

end Sys2Proof.Machine
end

section
open Sys2Proof Sys2Proof.Machine

/-- Settles O48, event by event: what a charge does to a score, and what poison, a kill or a condemned unit an error leaves. -/
theorem errorsAndScores : Obligations.ErrorsAndScores := by
  unfold Obligations.ErrorsAndScores
  refine ⟨fun s u k hs hk => ⟨s.charge u (scoreOf k), show execCorrectedError u k s = _ by rw [execCorrectedError, if_neg hk], ?_⟩,
    fun s u hs => ⟨s.countCorrected u 1, rfl, State.countCorrected_one hs⟩,
    fun s u pa hs => ⟨⟨(s.charge u 16384).poisonBlock pa, rfl, ?_, fun l => ?_⟩, ?_⟩, fun s u tk off x hx => ?_, fun s u core => rfl,
    fun s stack channel corrected bad => ⟨fun hrun hy => exec_scrubPass ⟨hrun, hy⟩, fun h => exec_scrubPass_idle ?_ _ _⟩,
    fun s stack demand => ⟨_, rfl, fun k => ?_⟩, fun s stack demand => ⟨_, rfl, fun k => Sparse.getD_norm _ _ _ _ _⟩,
    fun s => ⟨_, rfl, fun k => mem_insertNat⟩, fun s hs => ⟨_, if_neg (by omega), rfl, ?_, rfl, rfl⟩⟩
  · rw [State.charge_score hs, scoreOf_eq_scoreRise]
  · rw [State.poisonBlock_score, State.charge_score hs]
  · rw [State.mem_poisonBlock, State.charge_poison]
  · by_cases h2 : u.kind = 2
    · refine ⟨(s.charge u 16384).poisonLine (lineOf pa), ?_, ?_, fun l => ?_⟩
      · exact congrArg Host.Outcome.next (if_pos h2)
      · rw [State.poisonLine_score, State.charge_score hs]
      · rw [State.mem_poisonLine, State.charge_poison, if_pos h2]
        rfl
    · refine ⟨(s.charge u 16384).poisonBlock pa, ?_, ?_, fun l => ?_⟩
      · exact congrArg Host.Outcome.next (if_neg h2)
      · rw [State.poisonBlock_score, State.charge_score hs]
      · rw [State.mem_poisonBlock, State.charge_poison, if_neg h2]
  · have hc : (s.charge u 16384).m.team? tk = some x := ((s.charge_errs u 16384).team tk).trans hx
    exact ⟨fun h => ⟨⟨_, rfl, State.coreError_held hc h u off⟩, _, rfl, State.coreError_held hc h (coreUnit off) 0⟩,
      fun h => ⟨congrArg Host.Outcome.next (State.coreError_idle hc h u off),
        congrArg Host.Outcome.next (State.coreError_idle hc h (coreUnit off) 0)⟩⟩
  · unfold State.Scrubs
    tauto
  · exact mem_yields
  · exact congrArg Service.scores (Flash.stored_writeService _ _ _)

end

section
/-! Groups and collectives as they issue (R62, R378-R380). -/

namespace Sys2Proof.Machine

/-! ## Launches and gangs as an instruction issues -/

/-- Two machines with the same launches, whose teams are of the same launches, on the same cores and in the same residency. -/
structure Mach.SameGangs (m n : Mach) : Prop where
  launches : n.launches = m.launches
  teams : (n.teams.map fun e => (e.2.launch, e.2.core, e.2.res)) = m.teams.map fun e => (e.2.launch, e.2.core, e.2.res)

namespace Mach.SameGangs

variable {a b c m n : Mach}

theorem of_eq (h : n.launches = m.launches) (g : n.teams = m.teams) : m.SameGangs n := ⟨h, congrArg _ g⟩
theorem refl (m : Mach) : m.SameGangs m := ⟨rfl, rfl⟩
theorem trans (h : a.SameGangs b) (g : b.SameGangs c) : a.SameGangs c := ⟨g.launches.trans h.launches, g.teams.trans h.teams⟩

theorem updTeam (m : Mach) (tk : Nat) {f : Team → Team}
    (hf : ∀ t, ((f t).launch, (f t).core, (f t).res) = (t.launch, t.core, t.res)) : m.SameGangs (m.updTeam tk f) := by
  refine ⟨rfl, ?_⟩
  show List.map _ (m.teams.upd tk f) = _
  induction m.teams with
  | nil => rfl
  | cons e t ih =>
    unfold Sparse.upd
    split_ifs
    · exact congrArg (· :: _) (hf e.2)
    · exact congrArg (_ :: ·) ih

theorem settle (m : Mach) (tk w : Nat) : m.SameGangs (m.settle tk w) := by
  unfold Mach.settle
  split
  · exact refl m
  split
  · exact of_eq rfl rfl
  split
  · split
    · exact of_eq rfl rfl
    · exact refl m
  · split
    · exact of_eq rfl rfl
    split
    · exact refl m
    split
    · split
      · extract_lets m1 m2
        have h2 : m.SameGangs m2 := of_eq rfl rfl
        exact (h2.trans (updTeam m2 tk (by intro; rfl))).trans (of_eq rfl rfl)
      · exact refl m
    · exact of_eq rfl rfl

theorem leaveClause (m : Mach) (x : Issue) (ps : List Path) : m.SameGangs (m.leaveClause x ps) := by
  unfold Mach.leaveClause
  extract_lets m1
  have h1 : m.SameGangs m1 := of_eq rfl rfl
  exact h1.trans (updTeam m1 x.tk (by intro; rfl))

theorem goOn (m : Mach) (x : Issue) (k : Nat) (l : Lanes) (ps : List Path) : m.SameGangs (m.goOn x k l ps) := by
  unfold Mach.goOn
  extract_lets rest pc
  split
  · exact leaveClause m x _
  · split
    · exact leaveClause m x _
    · exact of_eq rfl rfl

theorem startOp (m : Mach) (x : Issue) (h : Shape) (l : Lanes) (counted : Bool) (k : OpKind) :
    m.SameGangs (m.startOp x h l counted k) := by
  unfold Mach.startOp
  extract_lets flag op m1 m2
  have h2 : m.SameGangs m2 := by
    rcases hf : flag with _ | f <;> simp only [m2, hf] <;> exact of_eq rfl rfl
  split
  · exact h2.trans (of_eq rfl rfl)
  · exact h2

theorem of_msgs (h : m.SameButMsgs n) : m.SameGangs n := of_eq (congrArg (·.launches) h) h.teams

theorem tookCycle (m : Mach) (x : Issue) : m.SameGangs (m.tookCycle x) := by
  unfold Mach.tookCycle
  extract_lets m1
  have h1 : m.SameGangs m1 := of_eq rfl rfl
  exact h1.trans (of_eq rfl rfl)

theorem issuedWith (m : Mach) (x : Issue) (i : Instr) : m.SameGangs (m.issuedWith x i) := by
  unfold Mach.issuedWith Mach.issued Mach.latched
  have h1 : m.SameGangs (m.updTask x.t fun k => { k with watch := 0, lastIssue := m.serial }) := of_eq rfl rfl
  exact (h1.trans (tookCycle _ x)).trans (of_eq rfl rfl)

/-- Whether a gang is gone turns on its teams' launch, cores and residency. -/
theorem gangDead (h : m.SameGangs n) (launch cl : Nat) : n.gangDead launch cl = m.gangDead launch cl := by
  have hany (m : Mach) : m.gangDead launch cl = !(m.teams.map fun e => (e.2.launch, e.2.core, e.2.res)).any fun t =>
      t.1 = launch && clusterOf t.2.1 = cl && t.2.2 ≠ .ended := by
    simp [Mach.gangDead, List.any_map, Function.comp_def]
  rw [hany, hany, h.teams]

end Mach.SameGangs

/-! ## An engine operation as it goes under way -/

theorem Mach.send_msgs (m : Mach) (n core : Nat) (ps : List Place) : m.SameButMsgs (m.send n core ps) :=
  .foldl (fun m _ => m.sendMsg_msgs _ _ _ _) _ m

theorem Mach.serial_send (m : Mach) (n core : Nat) (ps : List Place) : (m.send n core ps).serial = m.serial :=
  congrArg (·.serial) (m.send_msgs n core ps)

theorem Mach.ops_goOn (m : Mach) (c : Issue) (n : Nat) (l : Lanes) (ps : List Path) : (m.goOn c n l ps).ops = m.ops := by
  unfold Mach.goOn
  extract_lets rest pc
  split
  · rfl
  · split <;> rfl

theorem Mach.ops_startOp (m : Mach) (c : Issue) (h : Shape) (l : Lanes) (counted : Bool) (k : OpKind) :
    (m.startOp c h l counted k).ops = m.ops.put m.serial
      ⟨c.tk, c.w, c.t, c.p.frame, c.core, selectFlag c.hdr h.ctl.fs, l, c.p.pc, counted, none, false, false, false, 0, k⟩ := by
  unfold Mach.startOp
  extract_lets flag op m1 m2
  have h2 : m2.ops = m1.ops := by
    rcases hf : flag with _ | f
    · simp only [m2, hf]
    · simp only [m2, hf]
      rfl
  split <;> exact h2

theorem Mach.ops_askPeers (m : Mach) (n : Nat) (ps : List Place) : (m.askPeers n ps).ops = m.ops := rfl

theorem Mach.serial_issuedWith (m : Mach) (c : Issue) (i : Instr) : (m.issuedWith c i).serial = m.serial + 1 := by
  simp only [Mach.issuedWith, Mach.issued, Mach.latched, Mach.tookCycle, Mach.updTask_serial, Mach.updWarp_serial]

variable {s : State} {c : Issue} {i : Instr} {p : EnginePlan}

theorem State.engined_gangs (s : State) (c : Issue) (i : Instr) (p : EnginePlan) : s.m.SameGangs (s.engined c i p).m := by
  unfold State.engined
  extract_lets m0 m1 n m2
  have h1 : s.m.SameGangs m1 := .trans (.issuedWith s.m c i) ⟨rfl, rfl⟩
  have h2 : s.m.SameGangs (m1.send n c.core (p.places.map (·.1))) := h1.trans (.of_msgs (m1.send_msgs n c.core _))
  have h3 : s.m.SameGangs m2 := (h2.trans (.startOp _ c (Instr.shape i) (c.active i) false p.kind)).trans ⟨rfl, rfl⟩
  exact h3.trans (.trans (b := m2.updCore c.core _) ⟨rfl, rfl⟩ (.trans (.goOn _ c _ _ _) (.settle _ c.tk c.w)))

/-- The operation under way has the number that follows the instruction's own, and the plan's kind. -/
theorem State.engined_op (s : State) (c : Issue) (i : Instr) (p : EnginePlan) :
    ∃ o, (s.engined c i p).m.ops.get? (s.m.serial + 1) = some o ∧ o.kind = p.kind := by
  simp only [State.engined, State.goesOn, Mach.ops_settle, Mach.ops_goOn, Mach.updCore_ops, Mach.ops_askPeers, Mach.ops_startOp,
    Mach.serial_send, State.start, Mach.serial_issuedWith]
  exact ⟨_, Sparse.get?_put_self _ _ _, rfl⟩

/-- An operation under way leaves everything alone (R217, R371). -/
theorem State.engined_quiet (s : State) (c : Issue) (i : Instr) (p : EnginePlan) : Quiet s (s.engined c i p) := by
  unfold State.engined
  extract_lets m0 m1 n m2
  have h1 : Still m0 m1 := .of_eq rfl rfl rfl rfl rfl rfl rfl
  have h2 : Still m0 m2 := ((h1.trans (Still.send m1 n c.core _)).trans (Still.startOp _ c _ _ _ _)).trans (Still.askPeers _ n _)
  exact .goesOn (h2.trans (Still.updCore m2 c.core _ fun _ => rfl))

/-- A collective that passes its checks goes under way. -/
theorem State.engineOp_coll {plan : Mach → Issue → Lanes → Except Chk EnginePlan} {k : CollK} (h : Issues s i c)
    (ha : c.active i ≠ 0) (hp : plan s.m c (c.active i) = .ok p) (hk : p.kind = .coll k) (he : p.empty = false)
    (hw : s.m.engineWait c i p = .ok) :
    s.m.engineOp i plan = (s.engined c i p).m := by
  have hgo := State.act_goesOn (s := s) (f := fun m => m.engineOp i plan) rfl h ha (by simp [hp, hw])
  have hm : s.m.engineOp i plan = _ := congrArg (fun o : Out => match o with
    | .next t => t.m
    | _ => s.m) hgo
  rw [hm]
  unfold State.engined
  simp [hp, hk, he, peerReads, Mach.askPeers]

/-! ## What a collective asks for -/

/-- The plan of a collective that passes its checks. -/
theorem Mach.collPlan_ok {m : Mach} {act : Lanes} {r : CollReq} (h : m.collPlan c act r = .ok p) :
    ∃ k, p.kind = .coll k ∧ k.group = r.g ∧ k.member = clusterOf c.core ∧ k.kind = r.kind ∧ p.empty = false := by
  unfold Mach.collPlan at h
  extract_lets grp at h
  obtain ⟨sn, dn⟩ := r.bytes ((grp.map fun g => g.list.length).getD 0)
  dsimp only at h
  iterate 4 (split at h; · cases h)
  split at h
  · cases h
  · split at h
    · split at h
      · cases h
      · cases h
        exact ⟨_, rfl, rfl, rfl, rfl, rfl⟩
    · cases h

/-- The collectives are all issued alike, each with its own request. -/
theorem exec_collective {r : CollReq} (s : State) (h : collRequest c (c.active i) i = some r) :
    ∃ req, exec i s = s.collective i req ∧ req s.m c (c.active i) = r := by
  unfold collRequest at h
  split at h
  · exact ⟨_, rfl, Option.some.inj h⟩
  · exact ⟨_, rfl, Option.some.inj h⟩
  · exact ⟨_, rfl, Option.some.inj h⟩
  · exact ⟨_, rfl, Option.some.inj h⟩
  · cases h

/-- A collective that passes its checks: what becomes of the machine m' in which its part is under way. -/
theorem State.collective_goes {req : Mach → Issue → Lanes → CollReq} (h : Issues s i c) (ha : c.active i ≠ 0)
    (hp : s.m.collPlan c (c.active i) (req s.m c (c.active i)) = .ok p) (hw : s.m.engineWait c i p = .ok) :
    let r := req s.m c (c.active i)
    let n := s.m.serial + 1
    ∃ k, p.kind = .coll k ∧ s.collective i req = .next ((s.engined c i p).updM fun m' =>
      match s.m.collGroup c r.g with
      | none => ({ m' with free := m'.free + 1 } : Mach).endColl n (statusRecord 1 0 0)
          (if r.kind = .barrier then 0 else (Config.freeWord m'.free).toNat)
      | some grp =>
        match (m'.launches.get? c.launch).bind fun l => l.takeOwed r.g (clusterOf c.core) with
        | some ((cause, mask), l) => ({ m' with launches := m'.launches.put c.launch l } : Mach).lateColl n k cause mask
        | none =>
          let m' := m'.admitColls c.launch r.g
          let dead := grp.list.filter fun cl => s.lostClusters.contains cl || s.m.gangDead c.launch cl
          if dead = [] then m' else m'.failColl c.launch r.g 1 dead) := by
  intro r n
  obtain ⟨k, hk, hg, hm, hkind, he⟩ := Mach.collPlan_ok hp
  obtain ⟨o, ho, hok⟩ := s.engined_op c i p
  have hgo := State.engineOp_coll (plan := fun m x act => m.collPlan x act (req m x act)) h ha hp hk he hw
  have hdead : ∀ cl, ((s.engined c i p).m.admitColls c.launch (req s.m c (c.active i)).g).gangDead c.launch cl =
      s.m.gangDead c.launch cl := (s.engined_gangs c i p).gangDead c.launch
  refine ⟨k, hk, ?_⟩
  unfold State.collective State.on
  simp only [h.path, hgo, ho, hok, hk, hg, hm, hkind, hdead]
  rfl

/-! ## A part of a collective that ends -/

/-- What an operation's end at the local store leaves: every byte of memory, and what operations there are. -/
structure Mach.LocalOnly (m n : Mach) : Prop where
  mem : ∀ a, Memory.read n.mem a = Memory.read m.mem a
  ops : n.ops = m.ops

namespace Mach.LocalOnly

variable {a b c : Mach}

theorem of_eq {m n : Mach} (h : n.mem = m.mem) (g : n.ops = m.ops) : m.LocalOnly n := ⟨fun x => by rw [h], g⟩
theorem trans (h : a.LocalOnly b) (g : b.LocalOnly c) : a.LocalOnly c := ⟨fun x => (g.mem x).trans (h.mem x), g.ops.trans h.ops⟩

theorem placeWrite (m : Mach) (tk off : Nat) (bs : List Byte) : m.LocalOnly (m.placeWrite (.ls tk off) bs) := by
  show m.LocalOnly ((m.lsWrite tk off bs).movePoison (.ls tk off) bs.length false)
  obtain ⟨hm, ho, -⟩ := Mach.movePoison_rest (m.lsWrite tk off bs) (.ls tk off) bs.length false
  exact of_eq hm ho

theorem wakeCell (m : Mach) (tk off : Nat) : m.LocalOnly (m.wakeCell tk off) := by
  unfold Mach.wakeCell
  extract_lets gen ready deep m1
  have h1 : m.LocalOnly m1 := ⟨(Still.endWaits m tk ready).mem, m.ops_endWaits tk ready⟩
  split
  · exact h1.trans ⟨(Still.acquire m1 _ _).mem, m1.ops_acquire _ _⟩
  · exact h1

theorem asCell (m : Mach) (t tk off : Nat) : m.LocalOnly (m.asCell t tk off) := by
  unfold Mach.asCell
  split <;> exact of_eq rfl rfl

theorem leaveCell (m : Mach) (t tk off : Nat) : m.LocalOnly (m.leaveCell t tk off) := by
  unfold Mach.leaveCell
  split
  · have hwrite (m : Mach) (bs cs : List Byte) (q : Nat) : m.LocalOnly ((m.lsWrite tk off bs).placeWrite (.ls tk q) cs) := by
      have h1 : m.LocalOnly (m.lsWrite tk off bs) := of_eq rfl rfl
      exact h1.trans (placeWrite (m.lsWrite tk off bs) tk q cs)
    exact .trans (b := { m with free := m.free + 1 + 16 + 16 }) (of_eq rfl rfl) (hwrite _ _ _ _)
  · exact of_eq rfl rfl

theorem cellAdd (m : Mach) (tk off : Nat) (n : Word) (arm : Bool) : m.LocalOnly (m.cellAdd tk off n arm) := by
  unfold Mach.cellAdd
  extract_lets pend armed
  exact .trans (b := m.cellWrite tk off _) (of_eq rfl rfl) (wakeCell _ tk off)

theorem deliverBytes (m : Mach) (t tk off bytes : Nat) (scope : Scope) : m.LocalOnly (m.deliverBytes t tk off bytes scope) := by
  unfold Mach.deliverBytes
  extract_lets m1
  have h1 : m.LocalOnly m1 := by
    unfold m1
    split <;> exact of_eq rfl rfl
  exact ((h1.trans (asCell m1 t tk off)).trans (cellAdd _ tk off _ _)).trans (leaveCell _ t tk off)

end Mach.LocalOnly

/-- The end of an engine operation: it is over, and no byte of memory changes. -/
theorem Mach.endEngine_spec (m : Mach) {n : Nat} {o : Op} (ho : m.ops.get? n = some o) (scope : Scope) (dst : List (Place × Nat))
    (cell : Option Nat) (bytes : Nat) (faults : List FaultRec) :
    (m.endEngine n o scope dst cell bytes faults).ops.get? n = none ∧
      ∀ a, Memory.read (m.endEngine n o scope dst cell bytes faults).mem a = Memory.read m.mem a := by
  unfold Mach.endEngine
  extract_lets m1 m2
  have h1 : m.LocalOnly ((m1.unlockOp o.core n).flagAcq o scope) := by
    have h1 : m.LocalOnly m1 := by
      unfold m1
      split <;> exact .of_eq rfl rfl
    refine (h1.trans (.of_eq rfl rfl : m1.LocalOnly (m1.unlockOp o.core n))).trans ?_
    unfold Mach.flagAcq
    split <;> exact .of_eq rfl rfl
  obtain ⟨hmem, -, hops⟩ := Mach.finishOp_spec ((m1.unlockOp o.core n).flagAcq o scope) n faults
  have hover : m2.ops.get? n = none := hops o (by rw [h1.ops, ho])
  have hbytes a : Memory.read m2.mem a = Memory.read m.mem a := (hmem a).trans (h1.mem a)
  split
  · have h3 := Mach.LocalOnly.deliverBytes m2 o.task o.team ‹_› bytes scope
    exact ⟨h3.ops ▸ hover, fun a => (h3.mem a).trans (hbytes a)⟩
  · exact ⟨hover, hbytes⟩

/-- The end of a member's part of a collective: it is over, and no byte of memory changes. -/
theorem Mach.endColl_spec (m : Mach) {n : Nat} {o : Op} {k : CollK} (ho : m.ops.get? n = some o) (hk : o.kind = .coll k)
    (rec : List Byte) (bytes : Nat) : (m.endColl n rec bytes).ops.get? n = none ∧
      ∀ a, Memory.read (m.endColl n rec bytes).mem a = Memory.read m.mem a := by
  unfold Mach.endColl
  simp only [ho, hk]
  have h1 : m.LocalOnly (if o.gone then m else m.placeWrite (.ls o.team k.block) rec) := by
    split
    · exact .of_eq rfl rfl
    · exact .placeWrite m o.team k.block rec
  obtain ⟨hover, hmem⟩ := Mach.endEngine_spec _ (h1.ops ▸ ho) k.scope k.dst (if k.bb then some (k.block + 16) else none) bytes []
  exact ⟨hover, fun a => (hmem a).trans (h1.mem a)⟩

/-! ## Groups -/

theorem Mach.teams_issuedWith (m : Mach) (c : Issue) (i : Instr) : (m.issuedWith c i).teams = m.teams := by
  simp only [Mach.issuedWith, Mach.issued, Mach.latched, Mach.tookCycle, Mach.spendCycle, Mach.updTask_teams, Mach.updCore_teams,
    Mach.updWarp_teams]

theorem Mach.ops_issuedWith (m : Mach) (c : Issue) (i : Instr) : (m.issuedWith c i).ops = m.ops := by
  simp only [Mach.issuedWith, Mach.issued, Mach.latched, Mach.tookCycle, Mach.spendCycle, Mach.updTask_ops, Mach.updCore_ops,
    Mach.updWarp_ops]

theorem Mach.gangOn_issuedWith (m : Mach) (c : Issue) (i : Instr) : (m.issuedWith c i).gangOn = m.gangOn := by
  unfold Mach.gangOn
  rw [m.teams_issuedWith]

theorem Mach.collsOn_issuedWith (m : Mach) (c : Issue) (i : Instr) : (m.issuedWith c i).collsOn = m.collsOn := by
  unfold Mach.collsOn Mach.team?
  rw [m.teams_issuedWith, m.ops_issuedWith]

/-- `cgrp` (R378). -/
theorem exec_cgrp {s : State} {c : Issue} {ct : Ctl} {scope : Scope} {g : BitVec 5} {d a b : Reg}
    (h : Issues s (.cgrp ct scope g d a b) c) (ha : c.active (.cgrp ct scope g d a b) ≠ 0) :
    let i : Instr := .cgrp ct scope g d a b
    let lane := lowLane (c.active i)
    let grp : Group := ⟨c.f.pair a.toNat lane, (c.f.reg b.toNat lane).toNat % 2 ^ 16, scope⟩
    let code : Word := if s.m.collsOn c.launch g.toNat ≠ [] then 1
      else if 2 ≤ grp.list.length ∧ ∀ cl ∈ grp.list, s.m.gangOn c.launch cl = true then 0 else 2
    let m := s.start c i
    let m := if code = 0 then m.updLaunch c.launch fun l => { l with
      groups := l.groups.put g.toNat grp, owed := l.owed.del g.toNat } else m
    exec i s = .next (s.goesOn c i (m.updFrame c.p.frame fun f =>
      f.setLanes d.toNat (laneList (c.active i)) fun _ => code)) := by
  intro i lane grp code m0 m
  refine (State.act_goesOn (f := fun m => _) rfl h ha rfl : execCgrp ct scope g d a b s = _).trans ?_
  rw [State.start, Mach.collsOn_issuedWith, Mach.gangOn_issuedWith]
  have hfine : (decide (2 ≤ grp.list.length) && grp.list.all (s.m.gangOn c.launch)) = true ↔
      2 ≤ grp.list.length ∧ ∀ cl ∈ grp.list, s.m.gangOn c.launch cl = true := by
    simp [List.all_eq_true]
  by_cases hbusy : s.m.collsOn c.launch g.toNat ≠ []
  · simp only [m, m0, code, if_pos hbusy]
    rfl
  · by_cases hok : 2 ≤ grp.list.length ∧ ∀ cl ∈ grp.list, s.m.gangOn c.launch cl = true
    · simp only [m, m0, code, if_neg hbusy, if_pos hok]
      simp only [grp, lane, i] at hfine hok
      simp only [if_pos (hfine.2 hok)]
      rfl
    · simp only [m, m0, code, if_neg hbusy, if_neg hok]
      simp only [grp, lane, i] at hfine hok
      simp only [if_neg (mt hfine.1 hok)]
      rfl

end Sys2Proof.Machine
end

section
open Sys2Proof Sys2Proof.Machine

/-- Settles O35: a collective that passes its checks is under way (`State.engined`) before it finds its collective, takes the status
owed to it, or ends at once (`State.collective_goes`). -/
theorem groupsAndCollectives : Obligations.GroupsAndCollectives := by
  unfold Obligations.GroupsAndCollectives
  refine ⟨fun s ct scope g d a b c h ha => exec_cgrp h ha, fun s i c r p hr h ha hp hw => ?_⟩
  obtain ⟨req, hexec, rfl⟩ := exec_collective s hr
  obtain ⟨k, hk, hgo⟩ := State.collective_goes h ha hp hw
  have hlaunches := (s.engined_gangs c i p).launches
  have hquiet := s.engined_quiet c i p
  refine ⟨fun g hg howed hdead => ?_, fun g k' l l' cause mask hg hk' hl howed => ?_, fun hg => ?_⟩
  · have htake : ((s.engined c i p).m.launches.get? c.launch).bind (fun l => l.takeOwed (req s.m c (c.active i)).g
        (clusterOf c.core)) = none := by
      rw [hlaunches]
      cases hl : s.m.launches.get? c.launch with
      | none => rfl
      | some l => exact howed l hl
    have hnone : g.list.filter (fun cl => s.lostClusters.contains cl || s.m.gangDead c.launch cl) = [] :=
      List.filter_eq_nil_iff.2 fun cl hcl => by simp [hdead cl hcl]
    refine ⟨hexec.trans (hgo.trans ?_), ⟨hquiet.sys, hquiet.agenda, hquiet.still.trans (Still.updLaunch _ _ _)⟩⟩
    simp only [State.updM, hg, htake, hnone, if_true]
  · cases hk.symm.trans hk'
    refine hexec.trans (hgo.trans ?_)
    simp only [State.updM, hg, hlaunches, hl, Option.bind_some, howed]
  · obtain ⟨o, ho, hok⟩ := s.engined_op c i p
    have hrun := hexec.trans hgo
    simp only [hg] at hrun
    have hend := fun bytes => Mach.endColl_spec
      { (s.engined c i p).m with free := (s.engined c i p).m.free + 1 } ho (hok.trans hk) (statusRecord 1 0 0) bytes
    exact ⟨hrun, _, hrun, (hend _).1, fun a => ((hend _).2 a).trans (hquiet.still.mem a)⟩

end

section
/-! A copy into the region where the launch's state may be saved (R219, R272). -/

namespace Sys2Proof.Machine

/-- A launch whose spill area is the 4 KiB at virtual address 0 of ASID 1. -/
def spillLaunch : Launch := { blankLaunch with asid := 1, spillSize := 4096 }

/-- A copy of 8 bytes from 0x1000 to 0x40000000, of a task of that launch. -/
def copyK : EngineK := ⟨[(.dev 0x1000, .dev 0x40000000, 8)], [], false, .co, none, 8, false, false⟩

/-- The copy under way. -/
def copyOp : Op := ⟨256, 0, 7, 0, 0, none, 0, 0, false, none, false, false, false, 0, .engine copyK⟩

/-- Memory with v at 0x1000, and page tables at 0x10000 that map virtual address 0 to 0x40000000 with a leaf of 1 GiB. -/
def spillMemory (v : Byte) : List Host.Cell :=
  [⟨0x1000, v⟩, ⟨0x10000, 1⟩, ⟨0x10001, 0x10⟩, ⟨0x10002, 1⟩, ⟨0x11000, 1⟩, ⟨0x11001, 0x20⟩, ⟨0x11002, 1⟩, ⟨0x12000, 0x0B⟩,
    ⟨0x12003, 0x40⟩]

/-- A running module with the copy under way as its operation 5. -/
def copyInto (v : Byte) : State :=
  { (State.reset.updHub fun h => { h with phase := .running }).updM fun m =>
      { m with
        mem := spillMemory v
        ctxs := [(1, ⟨0, 0x10000⟩)]
        launches := [(1, spillLaunch)]
        teams := [(256, { spillLaunch.team 1 0 0 0 0 with res := .resident })]
        tasks := [(7, Task.queued 256 (descOf []) 7)]
        ops := [(5, copyOp)]
        serial := 8 } with
    subj := ⟨5, 0, 0⟩ }

theorem Mach.sendMsg_open {m : Mach} (hg : m.gated = []) (hh : m.heldMsgs = []) (n : Nat) (reply : Bool) (src dst : Nat) :
    m.sendMsg n reply src dst = m := by
  have hshut : ((routeOf src dst).map fun s => routerAt s reply).filter m.gated.contains = [] :=
    List.filter_eq_nil_iff.2 fun r _ => by simp [hg]
  simp [Mach.sendMsg, hshut, hh]

/-- With no router gated and no message held, what comes back over the meshes does so at once. -/
theorem Mach.backOver_open {m : Mach} (hr : m.replicas = []) (hg : m.gated = []) (hh : m.heldMsgs = []) (n core : Nat)
    (ps : List Place) (rs : List (Place × Nat)) : m.backOver n core ps rs = (true, m) := by
  have hreply : m.reply n core ps = m := by
    unfold Mach.reply
    induction m.legs core ps with
    | nil => rfl
    | cons d ds ih => rw [List.foldl_cons, Mach.sendMsg_open hg hh, ih]
  have hinv : m.invalidate n rs = m := by simp [Mach.invalidate, hr]
  simp [Mach.backOver, hinv, Mach.holds, hh, Mach.replied, hreply]

/-- A level of the tables of which a range of virtual addresses meets the first entry alone, and that a table. -/
theorem Mach.leavesFrom_table {m : Mach} {hi table shift n e : Nat} {ok : Bool} {rest : List (Nat × Nat × Bool)}
    (hone : min n ((hi + 2 ^ shift - 1) / 2 ^ shift) = 1) (he : m.read64 table = e)
    (ht : (!pteLeaf e && pteV e && pteTableOk e && !rest.isEmpty) = true) :
    m.leavesFrom 0 hi table 0 ((shift, n, ok) :: rest) = m.leavesFrom 0 hi (pteAddr e) 0 rest := by
  simp only [Bool.and_eq_true, Bool.not_eq_true'] at ht
  simp [Mach.leavesFrom, hone, he, ht]

/-- A level of the tables of which a range of virtual addresses meets the first entry alone, and that a leaf. -/
theorem Mach.leavesFrom_leaf {m : Mach} {hi table shift n e : Nat} {ok : Bool} {rest : List (Nat × Nat × Bool)}
    (hone : min n ((hi + 2 ^ shift - 1) / 2 ^ shift) = 1) (he : m.read64 table = e)
    (ht : (pteLeaf e && ok && pteLeafOk e (2 ^ shift) && pteV e) = true) :
    m.leavesFrom 0 hi table 0 ((shift, n, ok) :: rest) = [⟨0, table, e, 2 ^ shift⟩] := by
  simp only [Bool.and_eq_true] at ht
  simp [Mach.leavesFrom, hone, he, ht]

/-- What the page tables of `spillMemory` map, in every memory that holds them. -/
theorem Mach.leaves_spill {m : Mach} (hc : m.ctxs.get? 1 = some ⟨0, 0x10000⟩) (h0 : m.read64 0x10000 = 0x11001)
    (h1 : m.read64 0x11000 = 0x12001) (h2 : m.read64 0x12000 = 0x4000000B) :
    m.leaves 1 0 4096 = [⟨0, 0x12000, 0x4000000B, 2 ^ 30⟩] := by
  unfold Mach.leaves levels
  simp only [hc]
  rw [Nat.zero_add, Mach.leavesFrom_table (by norm_num) h0 (by decide), show pteAddr 0x11001 = 0x11000 by decide,
    Mach.leavesFrom_table (by norm_num) h1 (by decide), show pteAddr 0x12001 = 0x12000 by decide,
    Mach.leavesFrom_leaf (by norm_num) h2 (by decide)]

theorem Memory.readN_congr {a b : List Host.Cell} {n : Nat} (pa : Nat)
    (h : ∀ i < n, Memory.read a (pa + i) = Memory.read b (pa + i)) :
    Memory.readN a pa n = Memory.readN b pa n := by
  induction n generalizing pa with
  | zero => rfl
  | succ n ih =>
    refine congrArg₂ List.cons (h 0 (by omega)) (ih (pa + 1) fun i hi => ?_)
    simpa only [Nat.add_assoc, Nat.add_comm 1 i] using h (i + 1) (by omega)

theorem Memory.readN_length (mem : List Host.Cell) (pa n : Nat) : (Memory.readN mem pa n).length = n := by
  induction n generalizing pa with
  | zero => rfl
  | succ n ih => exact congrArg (· + 1) (ih (pa + 1))

/-- The machine of `copyInto` with another memory. -/
def copyMach (mem : List Host.Cell) : Mach := { (copyInto 0).m with mem := mem }

theorem spillMemory_entries (v : Byte) : bytesNat (Memory.readN (spillMemory v) 0x10000 8) = 0x11001 ∧
    bytesNat (Memory.readN (spillMemory v) 0x11000 8) = 0x12001 ∧
    bytesNat (Memory.readN (spillMemory v) 0x12000 8) = 0x4000000B := by
  simp [spillMemory, Memory.readN, Memory.read, Sparse.getD, Sparse.get?, bytesNat, Memory.blank]

theorem copyMach_ownSpill {v : Byte} {mem : List Host.Cell}
    (h : ∀ a, a < 0x40000000 ∨ 0x40000008 ≤ a → Memory.read mem a = Memory.read (spillMemory v) a) (pa : Nat) :
    (copyMach mem).ownSpill 7 (.dev pa) 8 = (Place.dev pa).meets 8 (.dev 0x40000000) 4096 := by
  have hread (pa e : Nat) (hpa : pa < 0x3FFFFFF8) (he : bytesNat (Memory.readN (spillMemory v) pa 8) = e) :
      (copyMach mem).read64 pa = e := by
    refine Eq.trans (congrArg bytesNat (Memory.readN_congr pa fun i hi => h _ (Or.inl ?_))) he
    omega
  obtain ⟨h1, h2, h3⟩ := spillMemory_entries v
  have hleaves : (copyMach mem).leaves 1 0 4096 = [⟨0, 0x12000, 0x4000000B, 2 ^ 30⟩] :=
    Mach.leaves_spill rfl (hread _ _ (by omega) h1) (hread _ _ (by omega) h2) (hread _ _ (by omega) h3)
  have hlaunch : ((copyMach mem).tasks.get? 7).bind (fun k => (copyMach mem).launchOf k.team) = some spillLaunch := rfl
  unfold Mach.ownSpill
  simp only [hlaunch, show spillLaunch.asid = 1 from rfl, show spillLaunch.spillBase.toNat = 0 from rfl,
    show spillLaunch.spillSize = 4096 from rfl, hleaves]
  simp [show pteAddr 0x4000000B = 0x40000000 by decide]

theorem copyInto_mach (v : Byte) : (copyInto v).m = copyMach (spillMemory v) := rfl

theorem copyInto_ownSpill (v : Byte) (pa : Nat) :
    (copyInto v).m.ownSpill 7 (.dev pa) 8 = (Place.dev pa).meets 8 (.dev 0x40000000) 4096 :=
  copyMach_ownSpill (fun _ _ => rfl) pa

/-- A task's copy from outside its launch's spill area into it leaves free bytes there (R272). -/
theorem Mach.read_copyBytes_spilled {m : Mach} {t src dst n : Nat} (hs : m.ownSpill t (.dev src) n = false)
    (hd : m.ownSpill t (.dev dst) n = true) (hp : (Place.dev dst).peer? = none) (hw : m.waitedCells = []) {a : Nat}
    (ha : dst ≤ a ∧ a < dst + n) :
    Memory.read (m.copyBytes t (.dev src) (.dev dst) n).mem a = Config.freeByte (m.free + (a - dst)) := by
  have hread : m.taskRead t (.dev src) n = (m.homeRead src n, m) := by
    have hstray : ((List.range n).any fun i => m.strayPool t ((Place.dev src).plus i)) = false :=
      List.any_eq_false.2 fun i _ => by simp [Place.plus, Mach.strayPool]
    simp only [Mach.taskRead, hs, hstray]
    rfl
  have hlen : (m.homeRead src n).length = n := Memory.readN_length m.mem src n
  have hwrite : m.taskWrite t (.dev dst) (m.homeRead src n) =
      ({ m with free := m.free + n } : Mach).placeWrite (.dev dst) (m.takeBytes n).1 := by
    simp only [Mach.taskWrite, hlen, hd, if_true]
    rfl
  have hout : ¬({ m with free := m.free + n } : Mach).InWaithead dst (m.takeBytes n).1.length a := by
    rintro ⟨c, hc, -⟩
    rw [show ({ m with free := m.free + n } : Mach).waitedCells = m.waitedCells from rfl, hw] at hc
    cases hc
  unfold Mach.copyBytes
  simp only [hread, hwrite, (Mach.movePoison_rest _ _ _ _).1]
  rw [(Mach.read_devWrite _ hp _ a).2 hout]
  have hi : a - dst < n := by omega
  simp [Mach.takeBytes, ha, hi, List.getD_eq_getElem?_getD]

theorem copyInto_ends (v : Byte) : (copyInto v).m.EngineEnds 5 copyOp where
  here := rfl
  back := congrArg Prod.fst (Mach.backOver_open rfl rfl rfl _ _ _ _)

theorem copyInto_may (v : Byte) : (copyInto v).m.engineMay 5 copyOp copyK.rows = true := rfl

/-- Nothing of a copy into local memory changes the operations under way. -/
theorem Mach.ops_copyBytes_dev (m : Mach) (t src dst n : Nat) : (m.copyBytes t (.dev src) (.dev dst) n).ops = m.ops := by
  have hread : (m.taskRead t (.dev src) n).2.ops = m.ops := by
    unfold Mach.taskRead
    extract_lets bs
    split_ifs <;> rfl
  have hwrite (m : Mach) (bs : List Byte) : (m.taskWrite t (.dev dst) bs).ops = m.ops := by
    simp only [Mach.taskWrite]
    split_ifs
    · exact (Mach.devWrite_bytes _ dst _).ops
    · exact (Mach.devWrite_bytes m dst bs).ops
  unfold Mach.copyBytes
  simp only [(Mach.movePoison_rest _ _ _ _).2.1, hwrite, hread]

/-- Eight bytes between two local places are copied as one unit. -/
theorem Mach.copyPieces_unit {m : Mach} {src dst : Nat} (hs : (Place.dev src).peer? = none) (hd : (Place.dev dst).peer? = none)
    (t : Nat) (bad : Bool) (reply : List Byte) : m.copyPieces t [] bad 0 [(.dev src, .dev dst, 8)] reply =
      if m.poisoned (.dev src) 8 then m.copyBytes t (.dev src) (.dev dst) 8
      else (m.copyBytes t (.dev src) (.dev dst) 8).movePoison (.dev dst) 8 false := by
  simp [Mach.copyPieces, Mach.copyPiece, hs, hd, Place.plus]

/-- A copy with nothing lost, sent, held or at a peer copies and ends. -/
theorem Mach.completeEngine_now {m : Mach} {n : Nat} {o : Op} {k : EngineK} (hl : k.lost = false) (hs : k.sent = false)
    (hmay : m.engineMay n o k.rows = true) (hw : o.awaitsPeer (k.rows.map (·.1)) = false) (ho : k.overlap = false)
    (hp : ∀ r ∈ k.rows, r.2.1.peer? = none) : m.completeEngine n o k =
      (m.copyPieces o.task k.doneUnits o.replyBad 0 k.rows (o.reply.getD [])).endEngine n o k.scope
        (k.rows.map fun r => (r.2.1, r.2.2)) k.cell k.bytes [] := by
  have hlocal : (k.rows.map fun r => (r.2.1, r.2.2)).any (fun d => d.1.peer?.isSome) = false := by
    rw [List.any_map]
    exact List.any_eq_false.2 fun r hr => by simp [hp r hr]
  simp only [Mach.completeEngine, hl, hs, hmay, hw, ho, hlocal]
  rfl

/-- The end of the copy finds the bytes copied. -/
theorem copyInto_completes (v : Byte) : ∃ n : Mach, (copyInto v).m.completeEngine 5 copyOp copyK =
      n.endEngine 5 copyOp .co [(.dev 0x40000000, 8)] none 8 [] ∧ n.ops.get? 5 = some copyOp ∧
      n.mem = ((copyInto v).m.copyBytes 7 (.dev 0x1000) (.dev 0x40000000) 8).mem := by
  refine ⟨_, Mach.completeEngine_now rfl rfl (copyInto_may v) rfl rfl (by decide), ?_⟩
  obtain ⟨hmem, hops, -⟩ := Mach.movePoison_rest ((copyInto v).m.copyBytes 7 (.dev 0x1000) (.dev 0x40000000) 8)
    (.dev 0x40000000) 8 false
  have hcopied := (copyInto v).m.ops_copyBytes_dev 7 0x1000 0x40000000 8
  rw [show copyK.rows = [(.dev 0x1000, .dev 0x40000000, 8)] from rfl, show copyK.doneUnits = [] from rfl,
    Mach.copyPieces_unit rfl rfl]
  split_ifs
  · exact ⟨hcopied ▸ rfl, rfl⟩
  · exact ⟨hops.trans hcopied ▸ rfl, hmem⟩

/-- The copy leaves a free byte at its destination, whatever stands at its source. -/
theorem copyInto_leaves (v : Byte) : ∃ t, exec .engineComplete (copyInto v) = .next t ∧ t.byte 0x40000000 = Config.freeByte 0 := by
  obtain ⟨n, hdone, hops, hmem⟩ := copyInto_completes v
  obtain ⟨hover, hbytes⟩ := n.endEngine_spec hops .co [(.dev 0x40000000, 8)] none 8 []
  refine ⟨_, rfl, ?_⟩
  have hend : (copyInto v).m.engineDone 5 = n.endEngine 5 copyOp .co [(.dev 0x40000000, 8)] none 8 [] := by
    have hgo : (copyInto v).m.goesOn (n.endEngine 5 copyOp .co [(.dev 0x40000000, 8)] none 8 []) 5 = false := by
      unfold Mach.goesOn
      rw [hover, (copyInto_ends v).here]
      rfl
    show (copyInto v).m.engineEnds 5 copyOp ((copyInto v).m.completeEngine 5 copyOp copyK) = _
    rw [hdone, Mach.engineEnds, Mach.crossed, hgo, Mach.backOver_open rfl rfl rfl]
    rfl
  show Memory.read ((copyInto v).m.engineDone 5).mem 0x40000000 = _
  rw [hend, hbytes, hmem, Mach.read_copyBytes_spilled ((copyInto_ownSpill v _).trans (by decide))
    ((copyInto_ownSpill v _).trans (by decide)) rfl rfl (by omega)]
  rfl

/-- The copy's source lies outside the spill area, whatever its destination comes to hold. -/
theorem copyInto_plain (v : Byte) : (copyInto v).m.PlainSource 7 0x1000 0x40000000 8 := by
  intro mem h
  refine (copyMach_ownSpill (v := v) (mem := mem) (fun a ha => h a ?_) 0x1000).trans (by decide)
  omega

end Sys2Proof.Machine
end

section
open Sys2Proof Sys2Proof.Machine

/-- Refutes O54: the copy of `copyInto` meets every condition of the statement's first clause, and its destination lies in its launch's
own spill area, where what a task writes is unspecified (R272); `Mach.PlainSource` keeps its source alone out of it. It leaves the same
free byte there whether the source holds 1 or 2, where the statement has it leave the source's. -/
theorem not_enginesCollectivesReductions : ¬ Obligations.EnginesCollectivesReductions := by
  unfold Obligations.EnginesCollectivesReductions
  intro h
  obtain ⟨hcopy, -⟩ := h
  have hv (v : Byte) : (copyInto v).byte 0x1000 = Config.freeByte 0 := by
    obtain ⟨t, ht, hfree⟩ := copyInto_leaves v
    obtain ⟨u, hu, -, hbytes⟩ := hcopy (copyInto v) copyOp copyK 0x1000 0x40000000 8 (copyInto_ends v) rfl rfl rfl rfl rfl rfl rfl
      rfl rfl rfl (by omega) (copyInto_may v) rfl (fun c hc => by cases hc) (copyInto_plain v)
    cases ht.symm.trans hu
    exact (hbytes 0x40000000).symm.trans hfree
  have h1 : (copyInto 1).byte 0x1000 = 1 := rfl
  have h2 : (copyInto 2).byte 0x1000 = 2 := rfl
  exact absurd (h1.symm.trans ((hv 1).trans ((hv 2).symm.trans h2))) (by decide)

end

section
/-! Commands that begin and pass steps 1 to 3 of R72: what they come to, and where their records go (R71-R74, R82, R83). -/

namespace Sys2Proof.Machine

variable {s : State} {h : CmdHdr}

/-! ## Effect and completion -/

/-- A command that acts at once and passes its own check. -/
theorem State.command_ok {onPart : Bool} {named : Option Nat} {chk : Status} (hr : CommandRuns s h onPart named) (hc : chk = .ok)
    (opcode : Nat) (eff : State → State × Nat) :
    s.command h opcode onPart named chk eff = .next ((eff s).1.complete h opcode .ok (eff s).2) := by
  simp [State.command, hr.begins, hr.passes, hc]

/-- A command that is INVALID at steps 1 to 3 completes without effect. -/
theorem State.command_invalid {onPart : Bool} {named : Option Nat} (hb : s.mayBegin h = true)
    (hp : s.precheck h onPart named = .invalid) (opcode : Nat) (chk : Status) (eff : State → State × Nat) :
    s.command h opcode onPart named chk eff = .next (s.complete h opcode .invalid 0) := by
  simp [State.command, hb, hp]

/-- With no launch to stop, nothing is cancelled. -/
theorem State.cancelAll_unmet {p : Launch → Bool} (hl : ∀ l ∈ s.m.launches, p l.2 = false) : s.cancelAll p = s := by
  have hnone : s.m.launches.filter (fun l => p l.2) = [] := List.filter_eq_nil_iff.2 fun l g => by simp [hl l g]
  rw [State.cancelAll, hnone, List.foldl_nil]

/-- A command that ends launches has its effect at once where none of them is left and nothing else is waited for. -/
theorem State.ending_ok {chk : Status} {p : Launch → Bool} {ready : State → Bool} (hr : CommandRuns s h false none)
    (hc : chk = .ok) (hl : ∀ l ∈ s.m.launches, p l.2 = false) (hready : ready s = true) (opcode : Nat) (eff : State → State) :
    s.ending h opcode chk p ready eff = .next ((eff s).complete h opcode .ok 0) := by
  have hany : (s.m.launches.any fun l => p l.2) = false := List.any_eq_false.2 fun l g => by simp [hl l g]
  rw [State.ending, if_pos (by simp [hr.begins, hr.passes, hc]), State.cancelAll_unmet hl]
  simp only [hany, hready, Bool.not_true, Bool.or_self, Bool.false_eq_true, if_false]

/-! ## Records -/

/-- A record for a queue that has room and holds none back is written. -/
theorem State.post_room {n : Nat} {q : EvQueue} (hq : s.sys.hub.eqs.get? n = some q) (hw : q.waiting = [])
    (hroom : q.room s.m = true) (r : EvRec) : s.post n r = s.putRec n q r := by
  have hflush : s.flushQueue n = s := by simp [State.flushQueue, hq, hw, State.drainRecs]
  simp [State.post, hq, hflush, hw, hroom]

/-- A record of a queue at a peer's aperture goes to that peer (R31): no byte of memory changes. -/
theorem State.byte_putRec_peer {n peer : Nat} {q : EvQueue}
    (hp : (Place.dev (q.base + 128 + q.tail % 2 ^ q.logn * 32)).peer? = some peer) (r : EvRec) (a : Nat) :
    (s.putRec n q r).byte a = s.byte a := by
  simp only [State.putRec, State.byte, State.updHub_m, State.updM_m, Mach.placeWrite, hp]

/-! ## Commands that R73 does not have -/

theorem exec_unknownCommand {opcode : Nat} (hb : s.mayBegin h = true) (ho : opcode ≠ 0x58) :
    exec (.unknownCommand h opcode) s = .next (s.complete h opcode .invalid 0) := by
  have he : exec (.unknownCommand h opcode) s = execUnknownCommand h opcode s := rfl
  have hcheck : s.precheck { h with resv := h.resv || decide (opcode ≠ 0x58) } false none = .invalid := by
    simp [State.precheck, ho]
  exact he.trans (State.command_invalid (h := { h with resv := h.resv || decide (opcode ≠ 0x58) }) hb hcheck _ _ _)

/-- An event queue in the aperture of peer 0. -/
def peerQueue : EvQueue := ⟨none, 4, 0x1000000000000, 255, 0, 0, []⟩

/-- A running module whose event queue 0 is `peerQueue`. -/
def recordsAtPeer : State :=
  State.reset.updHub fun h => { h with phase := .running, ena := true, eqs := [(0, peerQueue)] }

/-- The record of a command that is INVALID leaves every byte of memory as it was. -/
theorem byte_recordsAtPeer (h : CmdHdr) (hq : recordsAtPeer.recordQueue h = 0) (opcode a : Nat) :
    (recordsAtPeer.complete h opcode .invalid 0).byte a = recordsAtPeer.byte a := by
  unfold State.complete
  extract_lets n s
  have hqueue : s.sys.hub.eqs.get? n = some peerQueue := congrArg recordsAtPeer.sys.hub.eqs.get? hq
  rw [if_neg (by simp), State.post_room hqueue rfl (show peerQueue.room recordsAtPeer.m = true by decide)]
  exact State.byte_putRec_peer (peer := 0) rfl _ a

end Sys2Proof.Machine
end

section
open Sys2Proof Sys2Proof.Machine

/-- Refutes O40: nothing in the statement keeps the event queue out of a peer's aperture, where QUEUE_CREATE puts none (R74) but a
state may list one. In `recordsAtPeer` the record goes to the peer (R31), and no byte of memory changes, where the statement has
OPCODE of the record stand in memory. -/
theorem not_unknownCommandReportsInvalid : ¬ Obligations.UnknownCommandReportsInvalid := by
  unfold Obligations.UnknownCommandReportsInvalid
  intro h
  obtain ⟨t, ht, hbytes, -⟩ := h recordsAtPeer quietHeader 0x99 peerQueue rfl (by decide) rfl rfl (by decide)
    (fun cell hc => by cases hc)
  cases (exec_unknownCommand rfl (by decide)).symm.trans ht
  have hopcode := (byte_recordsAtPeer quietHeader rfl 0x99 (0x1000000000000 + 128 + 2)).symm.trans (hbytes _)
  exact absurd hopcode (by decide)

end

section
/-! Commands on queues, partitions and contexts (R73, R74, R90, R438). -/

namespace Sys2Proof.Machine

variable {s : State} {h : CmdHdr}

theorem State.get?_unnameQueues (s : State) (p : Nat → Bool) (n : Nat) : (s.unnameQueues p).m.launches.get? n =
    (s.m.launches.get? n).map fun l => if p l.evq then { l with evq := 0 } else l := by
  rw [State.unnameQueues, State.updM_m, Sparse.get?_mapv]

/-- A command queue with no begun command goes, and an event queue at once (R73, R74). -/
theorem exec_queueDestroy {num kind : Nat} (hr : CommandRuns s h false none) (hn : num ≠ 0)
    (hk : kind = 0 ∧ (s.sys.hub.cqs.get? num).isSome = true ∧ (∀ p ∈ s.sys.hub.pending, p.queue = num → p.begun = false) ∨
      kind = 1 ∧ (s.sys.hub.eqs.get? num).isSome = true) :
    exec (.queueDestroy h num kind) s = .next ((if kind = 0 then (s.dropCommands (· = num)).updHub fun b =>
        { b with cqs := b.cqs.del num }
      else (s.updHub fun b => { b with eqs := b.eqs.del num }).unnameQueues (· = num)).complete h 0x02 .ok 0) := by
  have he : exec (.queueDestroy h num kind) s = execQueueDestroy h num kind s := rfl
  rw [he, execQueueDestroy]
  rcases hk with ⟨rfl, hcq, hidle⟩ | ⟨rfl, heq⟩
  · have hbegun : (s.sys.hub.pending.any fun p => decide (p.queue = num) && p.begun) = false :=
      List.any_eq_false.2 fun p hp => by simpa using hidle p hp
    simp only [hbegun, Bool.and_false, Bool.false_eq_true, if_false]
    exact State.command_ok hr (by simp [hn, Option.isNone_eq_false_iff.2 hcq]) _ _
  · simp only [one_ne_zero, decide_false, Bool.and_false, Bool.false_and, Bool.false_eq_true, if_false]
    exact State.command_ok hr (by simp [hn, Option.isNone_eq_false_iff.2 heq]) _ _

/-- The lowest free ASID is free, with none free below it (R438). -/
theorem Mach.freeAsid_eq {m : Mach} {a : Nat} (h1 : 1 ≤ a) (h2 : a ≤ 2047) (hfree : m.ctxs.get? a = none)
    (hlow : ∀ b, 1 ≤ b → b < a → (m.ctxs.get? b).isSome = true) : m.freeAsid = some a := by
  obtain ⟨k, rfl⟩ := Nat.exists_eq_add_of_le' h1
  have hfind : (List.range 2047).find? ((fun a => (m.ctxs.get? a).isNone) ∘ (· + 1)) = some k :=
    List.find?_range_eq_some.2 ⟨by simp [hfree], List.mem_range.2 (by omega), fun b hb => by
      simpa using hlow (b + 1) (by omega) (by omega)⟩
  rw [Mach.freeAsid, List.find?_map, hfind, Option.map_some]

theorem exec_ctxCreate {root a : Nat} (hr : CommandRuns s h false none) (halign : root % 4096 = 0) (hhbm : s.m.inHbm root = true)
    (hpart : (s.sys.hub.parts.get? h.part).isSome = true) (ha : s.m.freeAsid = some a) : exec (.ctxCreate h root) s =
    .next ((s.updM fun m => { m with ctxs := m.ctxs.put a ⟨h.part, root⟩ }).complete h 0x18 .ok a) := by
  have he : exec (.ctxCreate h root) s = execCtxCreate h root s := rfl
  rw [he, execCtxCreate]
  refine (State.command_ok hr (by simp [halign, hhbm, Option.isNone_eq_false_iff.2 hpart, ha]) _ _).trans ?_
  simp only [ha]

end Sys2Proof.Machine
end

section
open Sys2Proof Sys2Proof.Machine

/-- Settles O41: each command acts at once (`State.command_ok`), those that end launches with none left to end
(`State.ending_ok`). -/
theorem queuesPartitionsContexts : Obligations.QueuesPartitionsContexts := by
  refine ⟨fun s h num kind logn vector base bind hr hchk => ?_,
    fun s h num kind hr hn hk => ⟨exec_queueDestroy hr hn hk, fun n l hl => ?_⟩,
    fun s h q hr hq => ⟨fun hnew => ?_, fun hold => ?_⟩, ?_,
    fun s h root a hr halign hhbm hpart h1 h2 hfree hlow =>
      exec_ctxCreate hr halign hhbm hpart (Mach.freeAsid_eq h1 h2 hfree hlow),
    fun s h asid c hr hc hpart hl => ?_⟩
  · exact show execQueueCreate h num kind logn vector base bind s = _ from State.command_ok hr hchk _ _
  · rw [State.get?_unnameQueues, hl]
    by_cases e : l.evq = num <;> simp [e]
  · exact show execPartCreate h q s = _ from State.command_ok hr (by simp [hq, hnew]) _ _
  · exact show execPartSet h q s = _ from State.command_ok hr (by simp [hq, hold]) _ _
  · intro s h hr hpart hl hidle gone
    exact show execPartDestroy h s = _ from
      State.ending_ok hr (if_pos hpart) (fun l g => by simpa using hl l g) (by simpa using hidle) _ _
  · exact show execCtxDestroy h asid s = _ from
      State.ending_ok hr (by simp [hc, hpart]) (fun l g => by simpa using hl l g) rfl _ _

end

section
/-! Pages mapped, unmapped, discarded and filled (R75, R76, R198, R201, R203). -/

namespace Sys2Proof.Machine

variable {s : State} {h : CmdHdr}

theorem State.mapStatus_ok {asid va pa size : Nat} {a : MapAttr} (hok : s.mapOk asid a va pa size = true)
    (htables : (s.mapEntries asid a va pa size).2 ≤ Config.tableCount) (hpins : s.m.pinsFit a (s.m.newPins a pa size) = true) :
    s.mapStatus asid a va pa size = .ok := by
  simp [State.mapStatus, hok, Nat.not_lt.2 htables, hpins]

/-- A MAP that passes its checks waits only for a local-store block that a team still holds (R201). -/
theorem exec_mapPages {asid attrs va pa size : Nat} (hb : s.begun h = false)
    (hr : CommandRuns s h true ((s.m.ctxs.get? asid).map (·.part))) (hok : s.mapStatus asid (mapAttrOf attrs) va pa size = .ok) :
    let a := mapAttrOf attrs
    let new := s.m.newPins a pa size
    let wait := s.updM fun m => ({ m with pinning := m.pinning ++ new } : Mach).markEvicted a.tgt
    exec (.mapPages h asid attrs va pa size) s = .next
      (if a.home = 1 ∧ new ≠ [] ∧ wait.m.blockBusy a.tgt = true then wait.begin h []
      else (s.mapNow asid a va pa size).complete h 0x20 .ok 0) := by
  intro a new wait
  have he : exec (.mapPages h asid attrs va pa size) s = execMapPages h asid attrs va pa size s := rfl
  have hrun := State.command_ok hr hok 0x20 fun s => (s.mapNow asid a va pa size, 0)
  rw [he, execMapPages]
  simp only [hb, Bool.false_eq_true, if_false, hr.begins, hr.passes, hok, decide_true, Bool.true_and, Bool.and_eq_true,
    decide_eq_true_eq, and_assoc]
  rw [apply_ite Host.Outcome.next]
  exact if_congr Iff.rfl rfl (hok ▸ hrun)

theorem exec_unmapPages {asid va size : Nat} (hb : s.begun h = false)
    (hr : CommandRuns s h true ((s.m.ctxs.get? asid).map (·.part))) (hok : s.unmapOk asid va size = true)
    (hframes : ∀ l ∈ s.m.leaves asid va size, s.m.frameBusy (pteAddr l.entry) l.size = false)
    (hlocks : s.m.lockBusy asid va size = false) :
    exec (.unmapPages h asid va size) s = .next ((s.updM fun m => m.unmap asid va size).complete h 0x21 .ok 0) := by
  have he : exec (.unmapPages h asid va size) s = execUnmapPages h asid va size s := rfl
  have hfree : (((s.m.leaves asid va size).map fun l => (pteAddr l.entry, l.size)).any fun r => s.m.frameBusy r.1 r.2) = false := by
    simpa using hframes
  rw [he, execUnmapPages]
  simp only [hb, hfree, hlocks, Bool.or_self, Bool.and_false, Bool.false_eq_true, if_false]
  exact State.command_ok hr (if_pos hok) _ _

theorem exec_discardRange {asid va size : Nat} {c : Ctx} (hr : CommandRuns s h true (some c.part))
    (hc : s.m.ctxs.get? asid = some c) (hva : va + size ≤ 2 ^ 57) : exec (.discardRange h asid va size) s =
    .next ((s.updM fun m => (m.leaves asid va size).foldl (fun m l => m.discardPart l va size) m).complete h 0x22 .ok 0) := by
  have he : exec (.discardRange h asid va size) s = execDiscardRange h asid va size s := rfl
  rw [he, execDiscardRange, hc]
  exact State.command_ok hr (by simpa using hva) _ _

/-- Memory once a demand-zero page is filled: V set in its entry, and zeros over the rest of the frame (R203). -/
theorem Mach.read_demandFill {m : Mach} {asid va e at_ size : Nat} (hw : m.walk asid va = .leaf e at_ size) (hv : pteV e = false)
    (a : Nat) : Memory.read (m.demandFill asid va).mem a =
      if at_ ≤ a ∧ a < at_ + 8 then (natBytes 8 (e + 1)).getD (a - at_) 0
      else if pteAddr e ≤ a ∧ a < pteAddr e + size then 0 else Memory.read m.mem a := by
  have hmem : (m.demandFill asid va).mem = Memory.writeN (Memory.clear m.mem (pteAddr e) size) at_ (natBytes 8 (e + 1)) := by
    simp [Mach.demandFill, hw, hv, Mach.setMem]
  rw [hmem, Memory.read_writeN, natBytes_length, Memory.read_clear]

theorem exec_demandZeroFill (hd : (s.subj.x, s.subj.y) ∈ s.m.demand) :
    exec .demandZeroFill s = .next (s.updM fun m => m.demandFill s.subj.x s.subj.y) := by
  have he : exec .demandZeroFill s = execDemandZeroFill s := rfl
  rw [he, execDemandZeroFill, State.on, if_pos (List.contains_iff_mem.2 hd)]
  rfl

end Sys2Proof.Machine
end

section
open Sys2Proof Sys2Proof.Machine

/-- Settles O42: a MAP that waits and one that does not (`exec_mapPages`), and what filling a page writes (`Mach.read_demandFill`),
whose entry lies outside its frame. -/
theorem pagesMappedAndUnmapped : Obligations.PagesMappedAndUnmapped := by
  refine ⟨?_, fun s h asid va size hb hr hok hframes hlocks => exec_unmapPages hb hr hok hframes hlocks,
    fun s h asid va size c hr hc hva => exec_discardRange hr hc hva, fun s e at_ size hd hw hv hapart => ?_⟩
  · intro s h asid attrs va pa size a new r hb hr hok htables hpins wait
    have hmap := exec_mapPages hb hr (State.mapStatus_ok hok htables hpins)
    split
    · rename_i hwait
      exact hmap.trans (congrArg Host.Outcome.next (if_pos hwait))
    · rename_i hnow
      exact hmap.trans (congrArg Host.Outcome.next (if_neg hnow))
  · refine ⟨_, exec_demandZeroFill hd, rfl, rfl, fun a => (Mach.read_demandFill hw hv a).trans ?_⟩
    by_cases hentry : at_ ≤ a ∧ a < at_ + 8
    · have hout := hapart (a - at_) (by omega)
      rw [if_pos hentry, if_neg (by omega), if_pos hentry]
    · rw [if_neg hentry, if_neg hentry]
      rfl

end

section
/-! SUPPORT. Matrix operations and `acc.st` at issue (R109, R400, R407): the operation goes under way, then its slots have had
their first use. -/

namespace Sys2Proof.Machine

variable {s : State} {c : Issue} {i : Instr} {p : EnginePlan}

/-- Whether an operation is of the matrix unit, or an `acc.st`: neither asks a peer for anything as it issues. -/
def OpKind.ofSlots : OpKind → Bool
  | .mma _ => true
  | .accStore _ => true
  | _ => false

/-- An operation on slots that passes its checks goes under way (R371, R400). -/
theorem State.engineOp_ofSlots {plan : Mach → Issue → Lanes → Except Chk EnginePlan} (h : Issues s i c)
    (ha : c.active i ≠ 0) (hp : plan s.m c (c.active i) = .ok p) (hk : p.kind.ofSlots = true) (he : p.empty = false)
    (hw : s.m.engineWait c i p = .ok) :
    s.m.engineOp i plan = (s.engined c i p).m := by
  have hgo := State.act_goesOn (s := s) (f := fun m => m.engineOp i plan) rfl h ha (by simp [hp, hw])
  have hm : s.m.engineOp i plan = _ := congrArg (fun o : Out => match o with
    | .next t => t.m
    | _ => s.m) hgo
  rw [hm]
  unfold State.engined
  cases hkind : p.kind with
  | mma k => simp [hp, hkind, he, peerReads, Mach.askPeers]
  | accStore rows => simp [hp, hkind, he, peerReads, Mach.askPeers]
  | _ => simp [hkind, OpKind.ofSlots] at hk

/-- The plan of a matrix operation that passes its checks (R400). -/
theorem Mach.mmaPlan_ok {m : Mach} {act : Lanes} {r : MmaReq} (h : m.mmaPlan c act r = .ok p) :
    p.kind.ofSlots = true ∧ p.empty = false := by
  unfold Mach.mmaPlan at h
  extract_lets k spans table place base ids at h
  split at h
  · split at h
    · cases h
    · split at h
      · cases h
      · split at h
        · cases h
        · split at h
          · cases h
          · cases h
            exact ⟨rfl, rfl⟩
  · cases h

/-- The plan of an `acc.st` that passes its checks (R406, R407). -/
theorem Mach.accStPlan_ok {m : Mach} {act : Lanes} {slot : Nat} {q : BitVec 2} {sh sat : Bool} {ty : AccT} {a : Reg}
    {stride : BitVec 16} (h : m.accStPlan c act slot q sh sat ty a stride = .ok p) :
    p.kind.ofSlots = true ∧ p.empty = false := by
  unfold Mach.accStPlan at h
  split at h
  · extract_lets p k at h
    split at h
    · cases h
    · split at h
      · cases h
      · cases h
        exact ⟨rfl, rfl⟩
  · cases h

/-- The matrix forms are all issued alike, each with its own request (R396-R399). -/
theorem exec_matrix {r : MmaReq} (s : State) (h : mmaReq i = some r) : exec i s = s.on fun m => m.mma i r := by
  unfold mmaReq at h
  split at h
  all_goals cases h
  all_goals rfl

/-- After an operation has gone under way the instruction's slots have their first use (R111). -/
theorem Mach.thenFirstUse_engined (h : s.m.issuing = some c) (ks : List Nat) :
    s.m.thenFirstUse ks (s.engined c i p).m = (s.engined c i p).m.firstUse c.tk ks := by
  obtain ⟨o, ho, -⟩ := s.engined_op c i p
  have hany : ((s.engined c i p).m.ops.any fun o => s.m.serial ≤ o.1) = true :=
    List.any_eq_true.mpr ⟨_, Sparse.mem_of_get? ho, by simp⟩
  simp [Mach.thenFirstUse, h, hany]

/-- First use writes no byte of memory and no register: it touches cores and teams (R109, R111). -/
theorem Mach.firstUse_rest (m : Mach) (tk : Nat) (ks : List Nat) :
    (m.firstUse tk ks).mem = m.mem ∧ (m.firstUse tk ks).frames = m.frames := by
  unfold Mach.firstUse
  induction ks generalizing m with
  | nil => exact ⟨rfl, rfl⟩
  | cons k ks ih =>
    refine ⟨(ih _).1.trans ?_, (ih _).2.trans ?_⟩
    all_goals
      dsimp only
      split
      · rfl
      · split <;> rfl

/-- A register reads as it did where nothing that Still names has changed. -/
theorem Still.reg {s t : State} (h : Still s.m t.m) (fr k n : Nat) : t.reg fr k n = s.reg fr k n := by
  have e := congrArg (Option.map fun r => Sparse.getD (α := Word) r (32 * k + n) 0) (h.regs fr)
  simpa [State.reg, Frame.reg, Option.map_map, Function.comp_def] using congrArg (·.getD 0) e

/-- An operation on slots that passes its checks goes under way, its slots have had their first use, and it changes no byte
and no register as it issues. -/
theorem State.slotOp_goes {plan : Mach → Issue → Lanes → Except Chk EnginePlan} {ks : List Nat}
    (hx : exec i s = s.on fun m => m.thenFirstUse ks (m.engineOp i plan)) (h : Issues s i c) (ha : c.active i ≠ 0)
    (hp : plan s.m c (c.active i) = .ok p) (hk : p.kind.ofSlots = true ∧ p.empty = false)
    (hw : s.m.engineWait c i p = .ok) :
    let t := (s.engined c i p).updM fun m => m.firstUse c.tk ks
    exec i s = .next t ∧ (∀ a, t.byte a = s.byte a) ∧ ∀ fr k n, t.reg fr k n = s.reg fr k n := by
  intro t
  have hq := s.engined_quiet c i p
  obtain ⟨hmem, hframes⟩ := Mach.firstUse_rest (s.engined c i p).m c.tk ks
  refine ⟨?_, ?_, ?_⟩
  · have hm : s.m.thenFirstUse ks (s.m.engineOp i plan) = (s.engined c i p).m.firstUse c.tk ks := by
      rw [State.engineOp_ofSlots h ha hp hk.1 hk.2 hw, Mach.thenFirstUse_engined h.path]
    rw [hx]
    exact congrArg (fun m => Host.Outcome.next { s with m := m }) hm
  · intro a
    calc t.byte a
      _ = (s.engined c i p).byte a := congrArg (Memory.read · a) hmem
      _ = s.byte a := hq.still.mem a
  · intro fr k n
    calc t.reg fr k n
      _ = (s.engined c i p).reg fr k n := by simp [t, State.reg, State.updM, hframes]
      _ = s.reg fr k n := hq.still.reg fr k n

end Sys2Proof.Machine
end

section
open Sys2Proof Sys2Proof.Machine

/-- Settles O34: a matrix form, or `acc.st`, is issued as an engine operation whose slots are then first used. -/
theorem matrixOperationsGoUnderWay : Obligations.MatrixOperationsGoUnderWay := by
  unfold Obligations.MatrixOperationsGoUnderWay
  constructor
  · intro s i c r p hr h ha hp hw
    exact State.slotOp_goes (exec_matrix s hr) h ha hp (Mach.mmaPlan_ok hp) hw
  · intro s ct slot q sh sat ty a stride c p i h ha hp hw
    exact State.slotOp_goes rfl h ha hp (Mach.accStPlan_ok hp) hw

end

section
/-! SUPPORT. The core clock moves with a turn's time alone (R97): stopping and seating teams, ending operations, and firmware's
writes leave it. -/

namespace Sys2Proof.Machine

/-- From a to m the core clock has not moved. -/
def Mach.SameClock (a m : Mach) : Prop := m.clock = a.clock

namespace Mach.SameClock

variable {a m n : Mach}

theorem refl (m : Mach) : m.SameClock m := rfl

theorem of_bytes (h : a.SameClock m) (g : m.SameButBytes n) : a.SameClock n := (congrArg (·.clock) g : n.clock = m.clock).trans h

theorem ite {c : Prop} [Decidable c] (h : a.SameClock m) (g : a.SameClock n) : a.SameClock (if c then m else n) := by
  split
  · exact h
  · exact g

theorem of_pair {α : Type} {r : α × Mach} {x : α} (h : a.SameClock r.2) (e : r = (x, m)) : a.SameClock m := by
  subst e
  exact h

theorem foldl {α : Type} {f : Mach → α → Mach} {l : List α} (h : a.SameClock m)
    (hf : ∀ m x, a.SameClock m → a.SameClock (f m x)) : a.SameClock (l.foldl f m) := by
  induction l generalizing m with
  | nil => exact h
  | cons x l ih => exact ih (hf m x h)

theorem updTeam {tk : Nat} {f : Team → Team} (h : a.SameClock m) : a.SameClock (m.updTeam tk f) := h

/-! ## Memory, local stores, firmware's writes -/

theorem demandFill {asid va : Nat} (h : a.SameClock m) : a.SameClock (m.demandFill asid va) := by
  unfold Mach.demandFill
  repeat' split
  all_goals exact h

theorem translateServiced {asid va : Nat} {k : AccKind} (h : a.SameClock m) : a.SameClock (m.translateServiced asid va k).2 := by
  unfold Mach.translateServiced
  split
  · exact h.demandFill
  · exact h

theorem homeWrite {pa : Nat} {bs : List Byte} (h : a.SameClock m) : a.SameClock (m.homeWrite pa bs) := h.of_bytes (m.homeWrite_bytes pa bs)

theorem lsWrite {tk off : Nat} {bs : List Byte} (h : a.SameClock m) : a.SameClock (m.lsWrite tk off bs) := h
theorem cellWrite {tk off : Nat} {bs : List Byte} (h : a.SameClock m) : a.SameClock (m.cellWrite tk off bs) := h

theorem movePoison {p : Place} {n : Nat} {bad : Bool} (h : a.SameClock m) : a.SameClock (m.movePoison p n bad) := by
  unfold Mach.movePoison
  cases p with
  | dev pa => exact h.ite h
  | ls tk off => exact h.ite h

theorem placeWrite {p : Place} {bs : List Byte} (h : a.SameClock m) : a.SameClock (m.placeWrite p bs) := by
  cases p with
  | dev pa => exact h.of_bytes (m.devWrite_bytes pa bs)
  | ls tk off => exact (h.lsWrite (tk := tk) (off := off) (bs := bs)).movePoison (p := .ls tk off) (bad := false)

theorem writeVa {asid va fuel : Nat} {bs : List Byte} (h : a.SameClock m) : a.SameClock (m.writeVa asid va fuel bs).2 := by
  induction fuel generalizing m va bs with
  | zero => exact h
  | succ fuel ih =>
    unfold Mach.writeVa
    split
    · exact h
    · split
      · rename_i l m1 e1
        have h1 : a.SameClock m1 := .of_pair h.translateServiced e1
        refine ih ?_
        split
        · exact h1
        · exact h1.placeWrite
      all_goals
        rename_i e1
        exact .of_pair h.translateServiced e1

/-! ## Futures -/

theorem cellFor {asid va : Nat} (h : a.SameClock m) : a.SameClock (m.cellFor asid va).2 := by
  unfold Mach.cellFor
  split
  all_goals
    rename_i e1
    exact .of_pair h.translateServiced e1

theorem resolveCell {pa state : Nat} {v : DWord} (h : a.SameClock m) : a.SameClock (m.resolveCell pa state v).2 := by
  unfold Mach.resolveCell
  split
  · exact h.homeWrite
  · exact h

theorem actOn {pa : Nat} {c : CellOp} (h : a.SameClock m) : a.SameClock (m.actOn pa c) := by
  unfold Mach.actOn
  extract_lets answer
  split
  · exact h.resolveCell
  · have h1 := h.homeWrite (pa := pa + 9) (bs := [Memory.read m.mem (pa + 9) ||| 1])
    exact .ite h1.resolveCell h1
  · exact .ite (resolveCell h) h

theorem cellNow {c : CellOp} (h : a.SameClock m) (e : m.cellNow c = some n) : a.SameClock n := by
  unfold Mach.cellNow at e
  extract_lets early at e
  have hc := h.cellFor (asid := c.asid) (va := c.va)
  split at e
  · cases e
  · split at e
    · rename_i e1
      have h1 := of_pair hc e1
      split at e
      · cases e
      · cases e
        exact h1.actOn
    · rename_i e1
      have h1 := of_pair hc e1
      cases e
      split <;> exact h1

theorem holdCell {id : Nat} {c : CellOp} (h : a.SameClock m) : a.SameClock (m.holdCell id c) := by
  unfold Mach.holdCell Mach.cellWaits
  split <;> exact h

theorem postCell {c : CellOp} (h : a.SameClock m) : a.SameClock (m.postCell c) := by
  unfold Mach.postCell
  split
  · rename_i e1
    exact h.cellNow e1
  · exact h.holdCell (id := m.serial)

theorem resolveFuture {t asid : Nat} {d : Desc} {faulted : Bool} {v : DWord} (h : a.SameClock m) :
    a.SameClock (m.resolveFuture t asid d faulted v) := by
  unfold Mach.resolveFuture
  split
  · exact h
  · split
    · exact h
    · exact h.postCell

/-! ## Warps, paths and waits -/

theorem settle {tk w : Nat} (h : a.SameClock m) : a.SameClock (m.settle tk w) := by
  unfold Mach.settle
  repeat' split
  all_goals exact h

theorem wakePaths {t : Nat} {p : Path → Bool} {f : Path → Path} (h : a.SameClock m) : a.SameClock (m.wakePaths t p f) := by
  unfold Mach.wakePaths
  split
  · exact h
  · split
    · extract_lets left k'
      split
      · exact h
      · exact settle h
      · exact h
    · exact h

theorem acquire {core : Nat} {s : Scope} (h : a.SameClock m) : a.SameClock (m.acquire core s) := by
  unfold Mach.acquire
  exact .ite h h

theorem endWaits {tk : Nat} {w : Wait → Bool} (h : a.SameClock m) : a.SameClock (m.endWaits tk w) := by
  unfold Mach.endWaits
  exact h.foldl fun _ _ g => g.wakePaths

theorem seatWarps {tk : Nat} (h : a.SameClock m) : a.SameClock (m.seatWarps tk) := by
  unfold Mach.seatWarps
  extract_lets m1
  exact foldl (m := m1) h fun _ _ g => g.settle

/-! ## Kills that are asked for -/

theorem askKill {launch gang : Nat} {r : FaultRec} (h : a.SameClock m) : a.SameClock (m.askKill launch gang r) := by
  unfold Mach.askKill
  exact .ite h h

/-! ## Operations that end -/

theorem freeFrames {t : Nat} (h : a.SameClock m) : a.SameClock (m.freeFrames t) := by
  unfold Mach.freeFrames
  extract_lets live stays offs m1
  show a.SameClock m1
  unfold m1
  split
  · exact h.ite h
  · exact h

theorem dropFlag {n : Nat} {o : Op} {faults : List FaultRec} (h : a.SameClock m) : a.SameClock (m.dropFlag n o faults) := by
  unfold Mach.dropFlag
  extract_lets m1
  have h1 : a.SameClock m1 := by
    unfold m1
    split
    · exact .ite h h
    · exact h
  split
  · exact h1.settle
  · exact h1.settle
  · exact h1

theorem finishOp {n : Nat} {faults : List FaultRec} (h : a.SameClock m) : a.SameClock (m.finishOp n faults) := by
  unfold Mach.finishOp
  split
  · exact h
  · extract_lets m1 m2
    have h2 : a.SameClock m2 := ite (m := m1.updWarp _ _ _) (n := m1) h h
    exact h2.freeFrames.dropFlag

theorem asCell {t tk off : Nat} (h : a.SameClock m) : a.SameClock (m.asCell t tk off) := by
  unfold Mach.asCell
  split
  · exact cellWrite h
  · exact h

theorem leaveCell {t tk off : Nat} (h : a.SameClock m) : a.SameClock (m.leaveCell t tk off) := by
  unfold Mach.leaveCell
  split
  · exact placeWrite (lsWrite h)
  · exact h

theorem wakeCell {tk off : Nat} (h : a.SameClock m) : a.SameClock (m.wakeCell tk off) := by
  unfold Mach.wakeCell
  extract_lets gen ready deep m1
  have h1 : a.SameClock m1 := h.endWaits
  clear_value deep
  split
  · exact h1.acquire
  · exact h1

theorem deliverBytes {t tk off bytes : Nat} {scope : Scope} (h : a.SameClock m) : a.SameClock (m.deliverBytes t tk off bytes scope) := by
  unfold Mach.deliverBytes
  extract_lets m1
  have h1 : a.SameClock m1 := ite (m := m.updTeam _ _) h h
  exact h1.asCell.cellWrite.wakeCell.leaveCell

theorem endEngine {n : Nat} {o : Op} {scope : Scope} {dst : List (Place × Nat)} {cell : Option Nat} {bytes : Nat}
    {faults : List FaultRec} (h : a.SameClock m) : a.SameClock (m.endEngine n o scope dst cell bytes faults) := by
  unfold Mach.endEngine
  extract_lets m1 m2
  have h1 : a.SameClock (m1.unlockOp o.core n) := ite (m := m.l1dDrop _ _) h h
  have h3 : a.SameClock m2 := by
    refine finishOp ?_
    unfold Mach.flagAcq
    split <;> exact h1
  split
  · exact h3.deliverBytes
  · exact h3

/-! ## Collectives that fail -/

theorem smear {p : Place} {n : Nat} (h : a.SameClock m) : a.SameClock (m.smear p n) := by
  unfold Mach.smear
  split
  · exact h
  · exact placeWrite h

theorem endColl {n bytes : Nat} {rec : List Byte} (h : a.SameClock m) : a.SameClock (m.endColl n rec bytes) := by
  unfold Mach.endColl
  split
  · exact h
  · split
    · exact endEngine (.ite h h.placeWrite)
    · exact h

theorem closeColl {launch g : Nat} (h : a.SameClock m) : a.SameClock (m.closeColl launch g) := by
  unfold Mach.closeColl Mach.admitColls
  exact h

theorem failColl {launch g cause : Nat} {failed : List Nat} (h : a.SameClock m) : a.SameClock (m.failColl launch g cause failed) := by
  unfold Mach.failColl
  split
  · exact h
  · split
    · exact h
    · extract_lets ms mask late m1 m2 m3
      have h2 : a.SameClock m2 := foldl (m := m1) h fun _ _ g1 => .ite g1 (g1.foldl fun _ _ g2 => g2.smear)
      have h3 : a.SameClock m3 := h2.foldl fun _ _ g1 => g1.endColl
      exact h3.closeColl

theorem failMember {launch cl : Nat} (h : a.SameClock m) : a.SameClock (m.failMember launch cl) := by
  unfold Mach.failMember
  split
  · exact h
  · exact h.foldl fun _ _ g1 => .ite g1.failColl g1

theorem failContexts {launch : Nat} {ixs : List Nat} (h : a.SameClock m) : a.SameClock (m.failContexts launch ixs) :=
  h

/-! ## Accumulator slots -/

set_option maxRecDepth 600 in
theorem spillSlot {core p : Nat} (h : a.SameClock m) : a.SameClock (m.spillSlot core p) := by
  unfold Mach.spillSlot
  extract_lets o clear
  have h_clear {m : Mach} (g : a.SameClock m) : a.SameClock (clear m) := g
  split
  · exact h_clear h
  · split
    · exact h_clear h
    · extract_lets twin own
      have h1 : a.SameClock twin.2 := by
        unfold twin
        split
        · exact h.writeVa
        · exact h
      have h2 : a.SameClock own.2 := h1.writeVa
      split
      · exact (h_clear h2).askKill
      · exact (h_clear h2).updTeam

theorem mapSlots {tk : Nat} (h : a.SameClock m) : a.SameClock (m.mapSlots tk) := by
  unfold Mach.mapSlots
  split
  · extract_lets ks held own kept lost m1 free c empty mp
    exact updTeam (h.foldl fun _ _ g1 => g1.spillSlot : a.SameClock m1)
  · exact h

/-! ## Stopped teams -/

theorem dropTask {t launch cause : Nat} {d : Desc} {addr : DWord} (h : a.SameClock m) :
    a.SameClock (m.dropTask t launch d cause addr) := by
  unfold Mach.dropTask
  exact h.resolveFuture.ite h

theorem stopTasks {tk launch cause : Nat} {keep : Bool} {addr : DWord} (h : a.SameClock m) :
    a.SameClock (m.stopTasks tk launch keep cause addr) := by
  unfold Mach.stopTasks
  extract_lets ts live images old m1 m2 m3 m4
  have h2 : a.SameClock m2 := foldl (m := m1) h fun _ _ g1 => g1.dropTask
  exact ite (m := m.updTeam _ _) h (h2.foldl fun _ _ g1 => g1.dropTask)

theorem stopOps {tk : Nat} {cells : Bool} (h : a.SameClock m) : a.SameClock (m.stopOps tk cells) := h

theorem stopSteal {tk launch cause : Nat} {keep : Bool} {addr : DWord} (h : a.SameClock m) :
    a.SameClock (m.stopSteal tk launch keep cause addr) := by
  unfold Mach.stopSteal
  split
  · exact h
  · extract_lets m1
    have h1 : a.SameClock m1 := by
      unfold m1
      split
      · split
        · extract_lets m2
          exact ite (m := m2.updTeam _ _) h (dropTask (m := m2) h)
        · exact h
      · exact h
    exact h1

theorem dropAcc {tk : Nat} (h : a.SameClock m) : a.SameClock (m.dropAcc tk) := by
  unfold Mach.dropAcc
  split
  · exact h
  · exact h

end Mach.SameClock

end Sys2Proof.Machine
end

section
/-! SUPPORT. What an accounting window's boundary leaves of the clock and of the hub's terms (R96), and how a gang is stopped
(R104, R157). -/

namespace Sys2Proof.Machine

/-! ## Stopping teams -/

namespace Mach.SameClock

variable {a m : Mach}

theorem stopTeam {tk cause : Nat} {keep cells : Bool} {addr : DWord} {res : Residency} (h : a.SameClock m) :
    a.SameClock (m.stopTeam tk keep cells cause addr res) := by
  unfold Mach.stopTeam
  split
  · exact h
  · rename_i t _
    exact (h.stopSteal (tk := tk) (launch := t.launch) (keep := keep) (cause := cause) (addr := addr)).stopTasks.stopOps.dropAcc

theorem stopGang {launch gang cause : Nat} {keep : Bool} {addr : DWord} {victim : Option Nat} (h : a.SameClock m) :
    a.SameClock (m.stopGang launch gang keep cause addr victim) := by
  unfold Mach.stopGang
  extract_lets tks ts m1 m2 m3
  have h2 : a.SameClock m2 := by
    refine foldl (m := m1) h fun m tk g => ?_
    split
    · exact g.stopTeam
    · exact g
  have h3 : a.SameClock m3 := h2.foldl fun _ _ g => g.failMember
  exact ite (m := m3.updLaunch _ _) h3 h3

end Mach.SameClock

/-! ## The clock and the hub's terms -/

/-- What a window boundary sets of the hub: the number of the window, weights and quotas, those to come, and the cores that
rest since they came back from a lease (R90, R91, R96, R150). -/
def Hub.terms (h : Hub) : Nat × Sparse Quota × Sparse Quota × List Nat := (h.window, h.parts, h.newQuotas, h.resting)

/-- From a to s the clock has not moved and the hub's terms stand. -/
structure State.SameTerms (a s : State) : Prop where
  clock : s.m.clock = a.m.clock
  terms : s.sys.hub.terms = a.sys.hub.terms

namespace State.SameTerms

variable {a b s t : State}

theorem refl (s : State) : s.SameTerms s := ⟨rfl, rfl⟩

theorem trans (h : a.SameTerms b) (g : b.SameTerms s) : a.SameTerms s := ⟨g.clock.trans h.clock, g.terms.trans h.terms⟩

theorem of_records (h : a.SameTerms s) (g : s.SameButRecords t) : a.SameTerms t := by
  have e : t.sys.hub.offRecords.terms = s.sys.hub.offRecords.terms := congrArg Hub.terms g.hub
  exact h.trans ⟨congrArg (·.clock) g.bytes, e⟩

theorem updM {f : Mach → Mach} (h : a.SameTerms s) (hf : (f s.m).clock = s.m.clock) : a.SameTerms (s.updM f) :=
  h.trans ⟨hf, rfl⟩

theorem ite {c : Prop} [Decidable c] (h : a.SameTerms s) (g : a.SameTerms t) : a.SameTerms (if c then s else t) := by
  split
  · exact h
  · exact g

theorem foldl {α : Type} {f : State → α → State} {l : List α} (h : a.SameTerms s)
    (hf : ∀ s x, a.SameTerms s → a.SameTerms (f s x)) : a.SameTerms (l.foldl f s) := by
  induction l generalizing s with
  | nil => exact h
  | cons x l ih => exact ih (hf s x h)

theorem capacityChange {u : UnitRef} (h : a.SameTerms s) : a.SameTerms (s.capacityChange u) := by
  unfold State.capacityChange
  extract_lets s1 seq word s2
  have h1 : a.SameTerms s1 := h.trans ⟨rfl, rfl⟩
  have h2 : a.SameTerms s2 := h1.updM rfl
  exact h2.of_records (State.event_same _ _ _ _)

theorem rebindTeam {tk : Nat} (h : a.SameTerms s) : a.SameTerms (s.rebindTeam tk) := by
  unfold State.rebindTeam
  split
  · extract_lets cands
    clear_value cands
    split
    · exact h
    · exact capacityChange (h.updM rfl)
  · exact h

theorem rebindGang {launch gang : Nat} (h : a.SameTerms s) : a.SameTerms (s.rebindGang launch gang) := by
  unfold State.rebindGang
  split
  · exact h
  · extract_lets tks others
    split
    · refine capacityChange (h.updM ?_)
      exact List.foldlRecOn (motive := fun n : Mach => n.clock = s.m.clock) _ _ rfl fun _ h _ _ => h
    · exact h

theorem rebind (h : a.SameTerms s) : a.SameTerms s.rebind := by
  unfold State.rebind State.rebindAll
  refine h.foldl fun s tk g => ?_
  split
  · exact .ite g (.ite g.rebindTeam g.rebindGang)
  · exact g

theorem preempt {tk : Nat} {deadline : Option Nat} (h : a.SameTerms s) : a.SameTerms (s.preempt tk deadline) := by
  unfold State.preempt
  split
  · exact h
  · split
    · exact h
    · split
      · exact h.updM rfl
      · exact h.updM rfl
      · exact h.updM ((Mach.SameClock.refl s.m).stopGang)

theorem evictTeams (h : a.SameTerms s) : a.SameTerms s.evictTeams := by
  unfold State.evictTeams
  exact h.foldl fun _ _ g => g.preempt

theorem enterCore {tk : Nat} {newcomer : Bool} (h : a.SameTerms s) : a.SameTerms (s.enterCore tk newcomer) := by
  unfold State.enterCore
  split
  · exact h
  · extract_lets part first s1
    have h1 : a.SameTerms s1 := h.updM ((Mach.SameClock.refl s.m).mapSlots.updTeam.seatWarps)
    exact .ite (h1.updM rfl) h1

theorem takeCore {tk : Nat} {newcomer : Bool} (h : a.SameTerms s) : a.SameTerms (s.takeCore tk newcomer) := by
  unfold State.takeCore
  split
  · exact .ite h.enterCore (h.updM rfl)
  · exact h

theorem admitChosen {core : Nat} (h : a.SameTerms s) : a.SameTerms (s.admitChosen core) := by
  unfold State.admitChosen
  exact h.foldl fun _ _ g => .ite g.takeCore g

theorem considerTeam {core tk : Nat} (h : a.SameTerms s) : a.SameTerms (s.considerTeam b core tk) := by
  unfold State.considerTeam
  split
  · extract_lets need dl s1
    have h1 : a.SameTerms s1 := h.updM rfl
    split
    · exact h
    · split
      · exact h.takeCore
      · split
        · exact h
        · exact (h1.foldl fun _ _ g => g.preempt).admitChosen
  · exact h

theorem decideCore {core : Nat} (h : a.SameTerms s) : a.SameTerms (s.decideCore b core) := by
  unfold State.decideCore
  exact .ite (h.admitChosen.foldl fun _ _ g => g.considerTeam) h

theorem resetCredits {core : Nat} (h : a.SameTerms s) : a.SameTerms (s.resetCredits core) := by
  unfold State.resetCredits
  exact h.updM rfl

end State.SameTerms

/-- What a boundary starts from: the new weights and quotas taken, the window numbered, no core resting (R91, R96, R150). -/
def State.windowed (s : State) : State :=
  s.updHub fun h => { h.takeQuotas with window := s.m.clock / 2 ^ 20, resting := [] }

/-- A boundary that is due leaves the clock, and the terms it starts from. -/
theorem State.boundary_terms {s : State} (h : s.sys.hub.window < s.m.clock / 2 ^ 20) : s.windowed.SameTerms s.boundary := by
  unfold State.boundary
  extract_lets n b s2 cores s3 old s4 s5
  rw [if_neg (Nat.not_le.mpr h)]
  have h2 : s.windowed.SameTerms s2 := (State.SameTerms.refl s.windowed).rebind.evictTeams
  have h3 : s.windowed.SameTerms s3 := h2.updM rfl
  have h4 : s.windowed.SameTerms s4 := h3.foldl fun _ _ g => g.decideCore
  have h5 : s.windowed.SameTerms s5 := h4.updM rfl
  exact h5.foldl fun _ _ g => g.resetCredits

/-- A boundary that is not due does nothing (R96). -/
theorem State.boundary_early {s : State} (h : s.m.clock / 2 ^ 20 ≤ s.sys.hub.window) : s.boundary = s := if_pos h

end Sys2Proof.Machine
end

section
/-! SUPPORT. How a step chooses what moves (R96-R98, R156, R168, R169, R274). -/

namespace Sys2Proof.Machine

/-! ## The turn a step takes -/

/-- A step takes its turn: once its time has passed, its act happens (R97). -/
theorem State.Takes.step {s u : State} {turn : Turn} (h : s.Takes u turn) : step s = act u turn.held turn.act := by
  rcases h with ⟨ts, hs, rfl⟩ | ⟨hs, hr, ⟨tk, w⟩, hf, rfl, rfl⟩
  · simp only [Machine.step, hs]
  · simp only [Machine.step, hs, hf, hr, Bool.not_true, Bool.false_eq_true, if_false]

/-- What issues does not turn on whether the fetch after it is to be made anew. -/
theorem Mach.issuing_refetch (m : Mach) (f : Option (Nat × Nat)) (all : Bool) :
    ({ m with focus := f, refetch := all } : Mach).issuing = ({ m with focus := f } : Mach).issuing := rfl

/-- A core's turn has the warp issue that R97 chooses, unless the core has used its clock and that warp stands at an
instruction (R97, R169). -/
theorem act_issue {u : State} {held : List (Nat × Nat)} {tk w : Nat} {all : Bool} {x : Team} {d : Claim} (hr : u.running = true)
    (hx : u.m.team? tk = some x) (hheld : (tk, w) ∉ held) (hready : u.m.warpReady tk w = true)
    (hd : u.m.chosen held x.core = some d) (hs : d.shadow = false) :
    act u held (.issue tk w all) =
      if u.m.cycleUsed x.core && ({ u.m with focus := some (d.tk, d.w) } : Mach).issuing.isSome then .next u
      else stepFocus u d.tk d.w all := by
  have hc : held.contains (tk, w) = false := by simpa using hheld
  simp only [act, hr, if_true, issueTurn, hx, hc, Bool.false_eq_true, if_false, hready, Bool.not_true, hd, hs]

/-! ## The passing of clocks -/

theorem Mach.countElig_clock (m : Mach) (held : List (Nat × Nat)) (n : Nat) : (m.countElig held n).clock = m.clock := by
  unfold Mach.countElig
  split
  · rfl
  · exact List.foldlRecOn (motive := fun k : Mach => k.clock = m.clock) _ _ rfl fun _ h _ _ => h

/-- A boundary, due or not, leaves the clock and brings the window up to it (R96). -/
theorem State.boundary_window (s : State) :
    s.boundary.m.clock = s.m.clock ∧ s.m.clock / 2 ^ 20 ≤ s.boundary.sys.hub.window := by
  rcases Nat.lt_or_ge s.sys.hub.window (s.m.clock / 2 ^ 20) with h | h
  · have hb := State.boundary_terms h
    exact ⟨hb.clock, (congrArg (·.1) hb.terms).ge⟩
  · rw [State.boundary_early h]
    exact ⟨rfl, h⟩

/-- The clock after a turn's time: it has run on by no more than is left of the accounting window (R96, R97). -/
theorem State.turnTime_clock (s : State) (t : Turn) :
    ∃ n, n ≤ 2 ^ 20 - s.m.clock % 2 ^ 20 ∧ (s.turnTime t).m.clock = s.m.clock + n := by
  unfold State.turnTime
  extract_lets n
  refine ⟨n, ?_, (State.boundary_window _).1.trans ?_⟩
  · unfold n
    split
    · exact Nat.min_le_right _ _
    · exact Nat.zero_le _
  · have hrun : (s.updM fun m => m.countElig t.held n).running = s.running := rfl
    have hclock : (s.updM fun m => m.countElig t.held n).m.clock = s.m.clock := s.m.countElig_clock t.held n
    show (if (s.updM fun m => m.countElig t.held n).running then (s.updM fun m => m.countElig t.held n).m.clock + n
      else (s.updM fun m => m.countElig t.held n).m.clock) = _
    rw [hrun, hclock]
    cases hr : s.running <;> simp [n, hr]

/-- No turn's time passes the end of an accounting window without its boundary (R96). -/
theorem State.turnTime_window (s : State) (t : Turn) : (s.turnTime t).m.clock / 2 ^ 20 ≤ (s.turnTime t).sys.hub.window := by
  unfold State.turnTime
  extract_lets n
  obtain ⟨hclock, hwindow⟩ := State.boundary_window ((s.updM fun m => m.countElig t.held n).pass n t.ns)
  rw [hclock]
  exact hwindow

/-- Clocks do not pass a core whose eligible warps have not used theirs, and one at a time while any is eligible (R97, R98). -/
theorem Mach.clocksMay_busy {m : Mach} {held : List (Nat × Nat)} {core : Nat} (n : Nat) (hb : core ∈ m.busyCores)
    (hc : m.claims held core ≠ []) :
    m.clocksMay held n ≤ 1 ∧ (m.cycleUsed core = false → m.clocksMay held n = 0) := by
  unfold Mach.clocksMay
  extract_lets busy
  have hmem : core ∈ busy := List.mem_filter.mpr ⟨hb, by simpa using hc⟩
  have hne : busy ≠ [] := List.ne_nil_of_mem hmem
  constructor
  · split
    · exact Nat.zero_le _
    · exact Nat.min_le_right _ _
  · intro hu
    have hany : (busy.any fun c => !m.cycleUsed c) = true := List.any_eq_true.mpr ⟨core, hmem, by simp [hu]⟩
    rw [if_pos hany]

/-- With its core's clock unused and no shadow to issue, the warp in focus issues (R97). -/
theorem Mach.nextAct_unused {m : Mach} {tk w : Nat} (hs : m.shadowReady tk w = false)
    (hu : ∀ x, m.team? tk = some x → m.cycleUsed x.core = false) : m.nextAct tk w = .issue tk w m.refetch := by
  have hused : ((m.team? tk).any fun t => m.cycleUsed t.core) = false := by
    cases h : m.team? tk with
    | none => rfl
    | some x => exact hu x h
  simp [Mach.nextAct, hused, hs]

/-! ## The choice of a core -/

/-- A fold that keeps the lesser of two by a key ends with an element whose key is least. -/
theorem foldl_least {α β : Type} [LinearOrder β] (key : α → β) (l : List α) (c : α) :
    let r := l.foldl (fun a b => if key b < key a then b else a) c
    r ∈ c :: l ∧ ∀ e ∈ c :: l, key r ≤ key e := by
  induction l generalizing c with
  | nil => simp
  | cons x l ih =>
    rw [List.foldl_cons]
    obtain ⟨hmem, hleast⟩ := ih (if key x < key c then x else c)
    have hfirst := hleast _ (List.mem_cons_self ..)
    constructor
    · rcases List.mem_cons.mp hmem with h | h
      · rw [h]
        split <;> simp
      · exact List.mem_cons_of_mem _ (List.mem_cons_of_mem _ h)
    · intro e he
      rcases List.mem_cons.mp he with rfl | he
      · refine hfirst.trans ?_
        split
        · exact le_of_lt ‹_›
        · exact le_rfl
      rcases List.mem_cons.mp he with rfl | he
      · refine hfirst.trans ?_
        split
        · exact le_rfl
        · exact not_lt.mp ‹_›
      · exact hleast _ (List.mem_cons_of_mem _ he)

/-- The keys of a claim in their order: positive credit, then the higher PRIO, then the oldest issue (R97, R178). -/
def Mach.claimKey (m : Mach) (core : Nat) (a : Claim) : Bool ×ₗ ℕᵒᵈ ×ₗ ℕ :=
  toLex (!decide ((m.core core).credit.getD (m.claimPart a) 0 ≠ 0), toLex (OrderDual.toDual (m.claimPrio a), m.claimAge a))

theorem Mach.comesBefore_eq (m : Mach) (core : Nat) (a b : Claim) :
    m.comesBefore core a b = decide (m.claimKey core a < m.claimKey core b) := by
  unfold Mach.comesBefore Mach.claimKey
  extract_lets rich
  show (if rich a ≠ rich b then rich a else _) =
    decide (toLex (!rich a, toLex (OrderDual.toDual (m.claimPrio a), m.claimAge a)) <
      toLex (!rich b, toLex (OrderDual.toDual (m.claimPrio b), m.claimAge b)))
  simp only [Prod.Lex.toLex_lt_toLex, OrderDual.toDual_lt_toDual, EmbeddingLike.apply_eq_iff_eq]
  generalize rich a = x
  generalize rich b = y
  cases x <;> cases y
  case false.true | true.false => simp
  all_goals
    by_cases hp : m.claimPrio a = m.claimPrio b
    · simp [hp]
    · simp [hp]

/-- The warp chosen is eligible, and no eligible one comes before it (R97, R178). -/
theorem Mach.chosen_first {m : Mach} {held : List (Nat × Nat)} {core : Nat} {d : Claim} (h : m.chosen held core = some d) :
    d ∈ m.claims held core ∧ ∀ e ∈ m.claims held core, m.comesBefore core e d = false := by
  unfold Mach.chosen at h
  split at h
  · cases h
  · rename_i c cs hc
    rw [hc, ← Option.some.inj h]
    obtain ⟨hmem, hleast⟩ := foldl_least (m.claimKey core) cs c
    simp only [m.comesBefore_eq core, decide_eq_true_eq, decide_eq_false_iff_not, not_lt]
    exact ⟨hmem, hleast⟩

/-! ## Fetching -/

/-- A word that stands whole at a path's PC is fetched: the instruction it decodes to, or ILLEGAL (R192, R274). -/
theorem Mach.fetchAt_word {m : Mach} {c : Issue} {w v : Nat}
    (hw : m.codeWord c.core c.asid c.p.pc.toNat c.priv = .ok w)
    (hv : m.codeWords c.core c.asid c.p.pc.toNat c.priv (itemLen w / 4) = .ok v)
    (hpos : c.p.pc.toNat % 32 ≠ 28) (hkind : w % 4 ≠ 3) (hfit : c.p.pc.toNat % 32 + itemLen w ≤ 32) :
    (∀ i, decode v = .ok i → m.fetchAt c = .ok i) ∧
      ∀ r, decode v = .error r → m.fetchAt c = .error { cause := .illegal, oppos := unusedField v, lanes := c.guarded v } := by
  have hlegal : ¬(c.p.pc.toNat % 32 = 28 || w % 4 = 3 || c.p.pc.toNat % 32 + itemLen w > 32) = true := by
    simp [hpos, hkind, hfit]
  constructor
  · intro i hi
    simp [Mach.fetchAt, hw, hlegal, hv, hi]
  · intro r hr
    simp [Mach.fetchAt, hw, hlegal, hv, hr]

/-! ## Shadow mode -/

/-- In a launch in shadow mode the leader issues with its shadow beside it (R156). -/
theorem issueInstr_shadowed {s : State} {c : Issue} {k : Task} (i : Instr) (h : s.m.shadowed c.tk = true)
    (hk : s.m.tasks.get? c.t = some k) : issueInstr c i s = leaderIssue c k i s := by
  simp [issueInstr, h, hk]

theorem issueInstr_plain {s : State} {c : Issue} (i : Instr) (h : s.m.shadowed c.tk = false) : issueInstr c i s = exec i s := by
  simp [issueInstr, h]

end Sys2Proof.Machine
end

section
open Sys2Proof Sys2Proof.Machine

/-- Settles O57: each clause is one lemma about the part of a step it speaks of. -/
theorem stepRunsDecodedInstruction : Obligations.StepRunsDecodedInstruction := by
  unfold Obligations.StepRunsDecodedInstruction
  refine ⟨?_, ?_, ?_, fun m tk w => Mach.nextAct_unused, fun m c w v => Mach.fetchAt_word, fun m held core d => Mach.chosen_first,
    fun m held core n => Mach.clocksMay_busy n, ?_⟩
  · intro s u turn tk w all x d ht hturn hr hx hheld hready hd hs v
    have hstep : step s = _ := ht.step.trans (hturn ▸ act_issue hr hx hheld hready hd hs)
    have hiss : v.m.issuing = ({ u.m with focus := some (d.tk, d.w) } : Mach).issuing := Mach.issuing_refetch _ _ _
    refine ⟨fun c m i hu hc hf hsh => ?_, fun c m e hu hc hf => ?_, fun hn => ?_, fun hu hn => ?_⟩
    · rw [hstep, hu, Bool.false_and, if_neg Bool.false_ne_true]
      show stepIssue v = _
      simp only [stepIssue, hc, hf]
      exact issueInstr_plain i hsh
    · rw [hstep, hu, Bool.false_and, if_neg Bool.false_ne_true]
      show stepIssue v = _
      simp only [stepIssue, hc, hf]
      rfl
    · rw [hstep, ← hiss, hn, Option.isSome_none, Bool.and_false, if_neg Bool.false_ne_true]
      show stepIssue v = _
      simp only [stepIssue, hn]
      rfl
    · rw [hstep, ← hiss, hu, Option.isSome_iff_ne_none.mpr hn]
      rfl
  · intro s u turn i x y z ht hturn henc hcmd
    rw [ht.step, hturn]
    simp [act, henc, hcmd]
  · intro s turn u
    obtain ⟨n, hn, hclock⟩ := s.turnTime_clock turn
    have hu : u.m.clock = s.m.clock + n := hclock
    exact ⟨by omega, by omega, s.turnTime_window turn⟩
  · intro s c k i hsh hk
    have hi := issueInstr_shadowed i hsh hk
    refine ⟨fun hc hq => ?_, fun hc hq => ?_, fun t hc hq ht hiss hd => ?_⟩
    · rw [hi]
      simp [leaderIssue, hc, hq]
    · rw [hi]
      simp [leaderIssue, hc, hq]
    · rw [hi]
      have hdiff : (k.diverged || !s.m.agrees c i) = true := by simpa using hd
      simp [leaderIssue, hc, hq, ht, hiss, hdiff]

end

section
/-! A gang kill with a team listed twice (R96, R157). -/

namespace Sys2Proof.Machine

/-- A module in which gang 0 of launch 1 is to be killed, and whose table of teams lists the gang's one team twice: first as it
waits, then as chosen by a boundary. A team is looked up as its first entry says. -/
def listedTwice : State :=
  { State.reset with subj := ⟨1, 0, 0⟩ }.updM fun m => { m with
    launches := [(1, blankLaunch)]
    teams := [(256, blankLaunch.team 1 0 0 0 0), (256, { blankLaunch.team 1 0 0 0 0 with chosen := true })]
    kills := [⟨1, 0, strangerRecord 0 1 0 0⟩] }

/-- The kill ends the team, and then offers its core to the chosen teams; the second entry names the team among them, and it is
RESTORING. -/
theorem listedTwice_restoring :
    (((listedTwice.killGang 1 0).admitFreed (listedTwice.m.launchCores 1)).m.team? 256).map (·.res) = some .restoring := by decide

end Sys2Proof.Machine
end

section
open Sys2Proof Sys2Proof.Machine

/-- Refutes O51: the clause about gang kills asks nothing of the table of teams, which may list a number twice. In `listedTwice` the
team of a killed gang that does not start again is RESTORING after the kill, where the statement has it ENDED. -/
theorem not_residencyAndGangs : ¬ Obligations.ResidencyAndGangs := by
  unfold Obligations.ResidencyAndGangs
  intro h
  obtain ⟨-, -, -, -, -, hkill, -⟩ := h
  obtain ⟨t, ht, ⟨y, hy, hres⟩, -⟩ := hkill listedTwice blankLaunch ⟨1, 0, strangerRecord 0 1 0 0⟩ 256
    (blankLaunch.team 1 0 0 0 0) rfl rfl rfl rfl rfl (by decide)
  cases ht
  have hend : (((listedTwice.killGang 1 0).admitFreed (listedTwice.m.launchCores 1)).m.team? 256).map (·.res) = some .ended :=
    congrArg (Option.map (·.res)) hy |>.trans (congrArg some hres)
  exact absurd (listedTwice_restoring.symm.trans hend) (by decide)

end

section
/-! The staging engine, buffers that come back, task start and first use of a slot (R103, R111, R120, R124-R130). -/

namespace Sys2Proof.Machine

/-! ## Reading for the hub and the staging engine -/

/-- From a to m teams, tasks and launches are as they were. -/
structure Mach.SameTables (a m : Mach) : Prop where
  teams : m.teams = a.teams
  tasks : m.tasks = a.tasks
  launches : m.launches = a.launches

namespace Mach.SameTables

variable {a m : Mach}

theorem refl (m : Mach) : m.SameTables m := ⟨rfl, rfl, rfl⟩

theorem trans {b : Mach} (h : a.SameTables b) (g : b.SameTables m) : a.SameTables m :=
  ⟨g.teams.trans h.teams, g.tasks.trans h.tasks, g.launches.trans h.launches⟩

theorem of_msgs (h : a.SameButMsgs m) : a.SameTables m := ⟨h.teams, h.tasks, congrArg (·.launches) h⟩

theorem of_pair {α : Type} {r : α × Mach} {x : α} (h : a.SameTables r.2) (e : r = (x, m)) : a.SameTables m := by
  subst e
  exact h

theorem ite {n : Mach} {c : Prop} [Decidable c] (h : a.SameTables m) (g : a.SameTables n) : a.SameTables (if c then m else n) := by
  split
  · exact h
  · exact g

theorem translateServiced (m : Mach) (asid va : Nat) (k : AccKind) : m.SameTables (m.translateServiced asid va k).2 := by
  unfold Mach.translateServiced Mach.demandFill
  repeat' split
  all_goals exact ⟨rfl, rfl, rfl⟩

theorem readVa {asid va : Nat} {poison : Bool} {fuel n : Nat} (m : Mach) : m.SameTables (m.readVa asid va poison fuel n).2 := by
  induction fuel generalizing m va poison n with
  | zero => exact refl m
  | succ fuel ih =>
    unfold Mach.readVa
    split
    · exact refl m
    · split
      · rename_i m1 e1
        have h1 : m.SameTables m1 := .of_pair (translateServiced m _ _ _) e1
        extract_lets k
        split
        · rename_i e2
          have h2 := h1.trans (.of_pair (ih _) e2)
          dsimp only
          split <;> exact ⟨h2.teams, h2.tasks, h2.launches⟩
        · exact h1.trans (ih _)
      all_goals
        rename_i e1
        exact .of_pair (translateServiced m _ _ _) e1

theorem readTte (m : Mach) (l : Launch) (typ : Nat) : m.SameTables (m.readTte l typ).2 := by
  unfold Mach.readTte
  extract_lets va
  split
  · rename_i e1
    exact .of_pair (readVa m) e1
  · rename_i e1
    split <;> exact .of_pair (readVa m) e1

theorem askFetch (m : Mach) (t : Nat) (x : Task) (core peer k pa n : Nat) : m.SameTables (m.askFetch t x core peer k pa n) :=
  ite (refl m) ⟨rfl, rfl, rfl⟩

theorem closureLine (m : Mach) (t : Nat) (x : Task) (core asid : Nat) : m.SameTables (m.closureLine t x core asid).2 := by
  unfold Mach.closureLine
  extract_lets va
  split
  · rename_i m1 e1
    have h1 : m.SameTables m1 := .of_pair (translateServiced m _ _ _) e1
    split
    · split
      · exact h1
      · exact h1.trans (askFetch m1 ..)
    · exact h1
  · rename_i e1
    exact .of_pair (translateServiced m _ _ _) e1

theorem askRows (m : Mach) (t : Nat) (x : Task) (core asid : Nat) (line : List Byte) (os : List (Nat × Oper)) :
    m.SameTables (m.askRows t x core asid line os).2 := by
  induction os generalizing m with
  | nil => exact refl m
  | cons k os ih =>
    unfold Mach.askRows
    extract_lets p
    split
    rename_i here m1 e1
    have h1 : m.SameTables m1 := by
      refine .of_pair ?_ e1
      split
      · rename_i m2 e2
        have h2 : m.SameTables m2 := .of_pair (translateServiced m _ _ _) e2
        split
        · split
          · exact h2
          · exact h2.trans (askFetch m2 ..)
        · exact h2
      · rename_i e2
        exact .of_pair (translateServiced m _ _ _) e2
    exact h1.trans (ih m1)

theorem roundTrip (m : Mach) (n core : Nat) (ps : List Place) : m.SameTables (m.roundTrip n core ps).2 := by
  unfold Mach.roundTrip
  split
  · exact refl m
  · extract_lets m1
    have h1 : m.SameTables m1 := .of_msgs (m.send_msgs n core ps)
    split
    · exact h1
    · exact h1.trans (.of_msgs (m1.replied_msgs n core ps))

theorem stageRead (m : Mach) (t k core launch tk asid : Nat) (p : StagePlan) :
    m.SameTables (m.stageRead t k core launch tk asid p).2 := by
  unfold Mach.stageRead
  extract_lets foot
  split
  · rename_i e1
    exact .of_pair (translateServiced m _ _ _) e1
  · rename_i e1
    exact .of_pair (translateServiced m _ _ _) e1
  · rename_i m1 e1
    have h1 : m.SameTables m1 := .of_pair (translateServiced m _ _ _) e1
    extract_lets ps
    split
    · exact h1
    split
    · exact h1
    split
    · exact h1
    split
    rename_i m2 e2
    have h2 : m.SameTables m2 := h1.trans (.of_pair (roundTrip m1 ..) e2)
    split
    · exact h2
    split
    extract_lets flawed
    clear_value flawed
    split <;> exact h2

end Mach.SameTables

/-! ## Starting and ending the staging of a task -/

theorem Mach.launchOf_eq {m : Mach} {tk : Nat} {tm : Team} (h : m.team? tk = some tm) :
    m.launchOf tk = m.launches.get? tm.launch := by
  simp [Mach.launchOf, h]

/-- The units that buffers hold, and the pool they are of, turn on teams, tasks and launches. -/
theorem Mach.SameTables.units {a m : Mach} (h : a.SameTables m) (tk : Nat) :
    m.heldUnits tk = a.heldUnits tk ∧ m.poolUnits tk = a.poolUnits tk := by
  simp only [Mach.heldUnits, Mach.tasksOf, Mach.poolUnits, Mach.launchOf, Mach.team?, h.teams, h.tasks, h.launches, and_self]

/-- The first task that can be read and fits starts (R124). -/
theorem Mach.startStaging_fits {m m' : Mach} {tk k u : Nat} {l : Launch} {rest : List Nat} {x : Task} {e : TtEntry}
    (hx : m.tasks.get? k = some x) (he : m.readTte l x.desc.typ = (.ok e, m'))
    (hu : (if e.lsdem = 0 then some 0 else firstFit (m.heldUnits tk) (m.poolUnits tk).1 (m.poolUnits tk).2 e.lsdem) = some u) :
    m.startStaging tk l (k :: rest) = m'.updTask k fun x => { x with
      tte := some e, buf := if e.lsdem = 0 then none else some (u * 256, e.lsdem * 256)
      st := if e.noper = 0 then .ready else .staging } := by
  have hsame : m.SameTables m' := .of_pair (Mach.SameTables.readTte m l x.desc.typ) he
  obtain ⟨hheld, hpool⟩ := hsame.units tk
  rw [← hheld, ← hpool] at hu
  simp only [Mach.startStaging, hx, he, hu]

/-- A task whose one declaration is read is staged (R124). -/
theorem Mach.stageOpers_one {m n : Mach} {t core launch asid k : Nat} {x : Task} {o : Oper} {line : List Byte} {bad b : Bool}
    {rows : List (List Byte)}
    (hp : planOk (planOf line o x.desc.x x.desc.y x.desc.z (x.buf.getD (0, 0)).1) o (x.buf.getD (0, 0)).2 = true)
    (hr : m.stageRead t k core launch x.team asid (planOf line o x.desc.x x.desc.y x.desc.z (x.buf.getD (0, 0)).1) =
      (.done rows b, n)) :
    m.stageOpers t x core launch asid line bad [(k, o)] =
      (true, (n.stageWrite x.team (planOf line o x.desc.x x.desc.y x.desc.z (x.buf.getD (0, 0)).1).dst rows (b || bad)).updTask t
        fun x' => { x' with opers := k + 1, staged := x'.staged +
          (planOf line o x.desc.x x.desc.y x.desc.z (x.buf.getD (0, 0)).1).rows *
            (planOf line o x.desc.x x.desc.y x.desc.z (x.buf.getD (0, 0)).1).rowlen }) := by
  simp only [Mach.stageOpers, hp, hr, Bool.not_true, Bool.false_eq_true, if_false]

/-- Poison that moves into a local store changes no task. -/
theorem Mach.tasks_movePoison_ls (m : Mach) (tk off n : Nat) (b : Bool) : (m.movePoison (.ls tk off) n b).tasks = m.tasks := by
  rcases n with _ | n <;> rfl

theorem Mach.tasks_stageWrite (m : Mach) (tk dst : Nat) (rows : List (List Byte)) (poison : Bool) :
    (m.stageWrite tk dst rows poison).tasks = m.tasks := by
  unfold Mach.stageWrite
  refine List.foldlRecOn (motive := fun (p : Nat × Mach) => p.2.tasks = m.tasks) _ _ rfl fun p hp r _ => ?_
  exact ((Mach.tasks_movePoison_ls _ _ _ _ _).trans (Mach.tasks_movePoison_ls _ _ _ _ _)).trans hp

/-- A task in staging whose one declaration is read is READY (R124). -/
theorem Mach.tasks_stageTask_one {m m1 m2 n : Mach} {k : Nat} {x : Task} {tm : Team} {l : Launch} {e : TtEntry} {o : Oper}
    {line : List Byte} {bad b : Bool} {rows : List (List Byte)} (hx : m.tasks.get? k = some x) (hst : x.st = .staging)
    (htm : m.team? x.team = some tm) (he : x.tte = some e) (ho : e.opers = [o]) (h0 : x.opers = 0) (hres : tm.res ≠ .ended)
    (hdy : m.dying x.team = false) (hl : m.launches.get? tm.launch = some l)
    (hline : m.closureLine k x tm.core l.asid = (.ok (line, bad), m1))
    (hask : m1.askRows k x tm.core l.asid line [(0, o)] = (true, m2))
    (hp : planOk (planOf line o x.desc.x x.desc.y x.desc.z (x.buf.getD (0, 0)).1) o (x.buf.getD (0, 0)).2 = true)
    (hr : m2.stageRead k 0 tm.core tm.launch x.team l.asid (planOf line o x.desc.x x.desc.y x.desc.z (x.buf.getD (0, 0)).1) =
      (.done rows b, n)) :
    (m.stageTask k true).tasks.get? k = some { x with st := .ready, opers := 1, staged := x.staged +
      (planOf line o x.desc.x x.desc.y x.desc.z (x.buf.getD (0, 0)).1).rows *
        (planOf line o x.desc.x x.desc.y x.desc.z (x.buf.getD (0, 0)).1).rowlen } := by
  have hsame : m.SameTables n := ((Mach.SameTables.of_pair (.closureLine m ..) hline).trans (.of_pair (.askRows m1 ..) hask)).trans
    (.of_pair (.stageRead m2 ..) hr)
  have hleft : List.drop x.opers (e.opers.zipIdx.map fun o => (o.2, o.1)) = [(0, o)] := by simp [ho, h0]
  simp only [Mach.stageTask, hx, hst, htm, he, hres, hdy, hl, hleft, hline, hask, Mach.stageOpers_one hp hr, decide_false,
    Bool.or_self, Bool.false_eq_true, if_false, if_true, Bool.not_true, Bool.and_false, Bool.and_self]
  simp [Mach.updTask, Mach.tasks_stageWrite, hsame.tasks, hx, hst, he]

/-- The staging engine of a core with nothing in the way tries the tasks in R124's order. -/
theorem execStagingStart_tries {s : State} {tm : Team} {l : Launch} (htm : s.m.team? s.subj.x = some tm)
    (hl : s.m.launchOf s.subj.x = some l) (hruns : tm.runs = true) (hdy : s.m.dying s.subj.x = false)
    (h8 : s.m.stagingOn tm.core < 8) (hops : s.m.stageOpsOn tm.core = false) :
    execStagingStart s = .next (s.updM fun m => m.startStaging s.subj.x l (s.m.stagingOrder l tm.deque)) := by
  simp [execStagingStart, State.on, State.updM, htm, hl, hruns, hdy, hops, Nat.not_le.mpr h8]

/-! ## Task start (R128) -/

/-- No path of the task stands in a spilled frame: nothing is to be brought back (R270). -/
theorem Mach.landTask_at_home {m : Mach} {tk t : Nat} {x : Task} (hx : m.tasks.get? t = some x)
    (hp : ∀ p ∈ x.paths, m.spilledNeed p.frame = none) : m.landTask tk t = m := by
  simp only [Mach.landTask, hx]
  refine List.foldlRecOn (motive := fun n => n = m) _ _ rfl fun n hn p hmem => ?_
  simp [hn, hp p hmem]

/-- A warp with a running task whose path can be selected is active. -/
theorem Mach.settle_running {m : Mach} {tk w v t : Nat} {y : Warp} {x : Task} (hy : m.warps.get? (warpKey tk w) = some y)
    (hst : y.st ≠ .free) (ht : y.task = some t) (hx : m.tasks.get? t = some x) (hrun : x.st = .running v)
    (hsel : x.paths.any Path.selectable = true) : m.settle tk w = m.updWarp tk w fun y => { y with st := .active } := by
  have hown : ((m.warps.get? (warpKey tk w)).filter (·.st ≠ .free)).bind (·.task) = some t := by
    simp [hy, ht, hst, Option.filter_some]
  unfold Mach.settle
  rw [hown]
  simp [hx, hrun, hsel]

/-- The machine in which a warp has a RESUMABLE task of its team. -/
def Mach.resumed (m : Mach) (tk w t : Nat) : Mach :=
  (m.updTask t fun k => { k with st := .running w }).updWarp tk w fun y => { y with st := .active, task := some t, sleepUntil := 0 }

/-- An idle warp whose team has a RESUMABLE task at home takes it (R128). -/
theorem execTaskStart_resumes {s : State} {tm : Team} {y : Warp} {k : Nat} {x z : Task} (htm : s.m.team? s.subj.x = some tm)
    (hy : s.m.warps.get? (warpKey s.subj.x s.subj.y) = some y) (hidle : y.st = .idle) (hruns : tm.runs = true)
    (hdy : s.m.dying s.subj.x = false)
    (hfirst : earliest ((s.m.tasksOf s.subj.x).filter fun e => e.2.st = .resumable && e.2.bufImage.isNone) = some (k, z))
    (hx : s.m.tasks.get? k = some x) (hhome : ∀ p ∈ x.paths, s.m.spilledNeed p.frame = none)
    (hsel : x.paths.any Path.selectable = true) : execTaskStart s = .next (s.updM fun m =>
      (m.resumed s.subj.x s.subj.y k).updWarp s.subj.x s.subj.y fun y => { y with st := .active }) := by
  have hx' : (s.m.resumed s.subj.x s.subj.y k).tasks.get? k = some { x with st := .running s.subj.y } :=
    (Sparse.get?_upd_self ..).trans (congrArg _ hx)
  have hy' : (s.m.resumed s.subj.x s.subj.y k).warps.get? (warpKey s.subj.x s.subj.y) =
      some { y with st := .active, task := some k, sleepUntil := 0 } := (Sparse.get?_upd_self ..).trans (congrArg _ hy)
  have hland := Mach.landTask_at_home (tk := s.subj.x) hx' hhome
  have hsettle := Mach.settle_running hy' (by simp) rfl hx' rfl hsel
  unfold Mach.resumed at hland hsettle ⊢
  simp only [execTaskStart, State.on, State.updM, htm, hy, hidle, hruns, hdy, hfirst, hland, hsettle]
  rfl

/-- A change of one entry that a test of entries does not see. -/
theorem Sparse.any_upd {α : Type} {f : α → α} {p : Nat × α → Bool} (h : ∀ j x, p (j, f x) = p (j, x)) (t : Sparse α)
    (k : Nat) : (t.upd k f).any p = t.any p := by
  induction t with
  | nil => rfl
  | cons e t ih =>
    rw [Sparse.upd]
    split <;> simp [h, ih]

theorem Mach.launchOf_updTeam {f : Team → Team} (h : ∀ x, (f x).launch = x.launch) (m : Mach) (tk n : Nat) :
    (m.updTeam tk f).launchOf n = m.launchOf n := by
  unfold Mach.launchOf Mach.team? Mach.updTeam
  by_cases e : n = tk
  · subst e
    cases hn : m.teams.get? n <;> simp [hn, h]
  · simp [Sparse.get?_upd_ne _ e]

/-- Whether a request fits turns on a task's team and paths only. -/
theorem Mach.fits_updTask {f : Task → Task} (hteam : ∀ x, (f x).team = x.team) (hpaths : ∀ x, (f x).allPaths = x.allPaths)
    (m : Mach) (t tk n : Nat) : (m.updTask t f).fits tk n = m.fits tk n := by
  have hwaits : (m.updTask t f).requestWaits tk = m.requestWaits tk := by
    unfold Mach.requestWaits Mach.tasksOf
    rw [show (m.updTask t f).tasks = m.tasks.upd t f from rfl, List.any_filter, List.any_filter, Sparse.any_upd]
    · rfl
    · intro j x
      simp only [hteam, hpaths]
  have hof : ∀ j, ((m.updTask t f).tasks.get? j).any (fun x => x.team = tk) = (m.tasks.get? j).any fun x => x.team = tk := by
    intro j
    rw [show (m.updTask t f).tasks = m.tasks.upd t f from rfl, Sparse.get?_upd]
    split <;> cases m.tasks.get? j <;> simp [hteam]
  have hused : (m.updTask t f).granulesUsed tk = m.granulesUsed tk := by
    unfold Mach.granulesUsed
    simp only [hof]
    rfl
  unfold Mach.fits
  rw [hwaits, hused]
  rfl

theorem Mach.refill_no_kept {m : Mach} {tk : Nat} {tm : Team} (htm : m.team? tk = some tm) (hk : tm.kept = []) (cap fuel : Nat) :
    m.refill tk cap fuel = m := by
  cases fuel with
  | zero => rfl
  | succ fuel => simp [Mach.refill, htm, hk]

/-- A task leaves the deque of a team that keeps no descriptor (R159). -/
theorem Mach.unqueue_no_kept {m : Mach} {tk t : Nat} {tm : Team} (htm : m.team? tk = some tm) (hk : tm.kept = []) :
    m.unqueue tk t = ({ m with ops := m.ops.sift fun _ o => !(o.task = t && o.kind matches .fetch ..) } : Mach).updTeam tk fun k =>
      { k with deque := k.deque.filter (· ≠ t) } := by
  have htm' : (({ m with ops := m.ops.sift fun _ o => !(o.task = t && o.kind matches .fetch ..) } : Mach).updTeam tk fun k =>
      { k with deque := k.deque.filter (· ≠ t) }).team? tk = some { tm with deque := tm.deque.filter (· ≠ t) } :=
    (Sparse.get?_upd_self ..).trans (congrArg _ htm)
  exact Mach.refill_no_kept htm' hk _ _

/-- Registers of all lanes filled from a register on. -/
theorem Frame.reg_fillOne (f : Frame) (r q k : Nat) (v : Word) (ls : List Nat) (hls : ∀ n ∈ ls, n < 32) (hk : k < 32) :
    (ls.foldl (fun f n => f.setBoth r n v) f).reg q k = if q = r ∧ k ∈ ls then v else f.reg q k := by
  induction ls generalizing f with
  | nil => simp
  | cons n ls ih =>
    have hset : (f.setBoth r n v).reg q k = (f.setReg r n v).reg q k := rfl
    rw [List.foldl_cons, ih _ fun n h => hls n (List.mem_cons_of_mem _ h), hset,
      Frame.reg_setReg _ _ _ _ _ _ (hls n List.mem_cons_self) hk]
    by_cases hq : q = r <;> by_cases hn : k = n <;> simp [hq, hn]

theorem Frame.reg_fillFrom (f : Frame) (ls : List Nat) (vs : List Word) (i q k : Nat) (hls : ∀ n ∈ ls, n < 32) (hk : k ∈ ls) :
    ((vs.zipIdx i).foldl (fun f v => ls.foldl (fun f n => f.setBoth v.2 n v.1) f) f).reg q k =
      if i ≤ q ∧ q < i + vs.length then vs.getD (q - i) 0 else f.reg q k := by
  induction vs generalizing f i with
  | nil => simp
  | cons v vs ih =>
    rw [List.zipIdx_cons, List.foldl_cons, ih, Frame.reg_fillOne _ _ _ _ _ _ hls (hls k hk), List.length_cons]
    by_cases hlt : i + 1 ≤ q ∧ q < i + 1 + vs.length
    · rw [if_pos hlt, if_pos ⟨by omega, by omega⟩, show q - i = (q - (i + 1)) + 1 by omega, List.getD_cons_succ]
    · by_cases hq : q = i
      · subst hq
        simp [hk]
      · rw [if_neg hlt, if_neg fun h => hq h.1, if_neg (by omega)]

/-- What a register reads after the first registers of all lanes are filled. -/
theorem Frame.reg_fill (f : Frame) (vs : List Word) (q k : Nat) (hk : k < 32) :
    (f.fill (List.range 32) vs).reg q k = if q < vs.length then vs.getD q 0 else f.reg q k := by
  unfold Frame.fill
  rw [Frame.reg_fillFrom f _ vs 0 q k (fun n h => List.mem_range.mp h) (List.mem_range.mpr hk)]
  simp

/-- A task as it begins at its entry, in the frame given (R128). -/
def Task.entered (e : TtEntry) (fr clock : Nat) (x : Task) : Task :=
  { x with
    paths := [atClause 0xFFFFFFFF e.entry fr], prio := e.prio, fpstat := 0, flags := [], demote := 0, latch := [], trail := []
    diverged := false, swapFail := [], lost := 0, rel := 0, watch := 0, startClock := clock }

/-- A frame with the entry registers in every lane, of the leader and of its shadow (R128, R156). -/
def Frame.entered (f : Frame) (vs : List Word) : Frame :=
  { f.fill (List.range 32) vs with twin := (f.fill (List.range 32) vs).regs }

theorem Frame.reg_entered (f : Frame) (vs : List Word) (q k : Nat) (hk : k < 32) :
    (f.entered vs).reg q k = if q < vs.length then vs.getD q 0 else f.reg q k := Frame.reg_fill f vs q k hk

/-- The machine in which a warp has begun a task, in a fresh frame with the entry registers given (R128). -/
def Mach.begun (m : Mach) (tk w t : Nat) (e : TtEntry) (vs : List Word) : Mach :=
  (((m.newFrame t (8 * (e.frame + 1)) 1 [] none).2.updFrame m.serial (·.entered vs)).updTask t
    (Task.entered e m.serial m.clock)).updWarp tk w fun y => { y with st := .active, sleepUntil := 0 }

theorem Mach.begun_rest (m : Mach) (tk w t : Nat) (e : TtEntry) (vs : List Word) :
    (m.begun tk w t e vs).tasks = m.tasks.upd t (Task.entered e m.serial m.clock) ∧ (m.begun tk w t e vs).teams = m.teams ∧
      (m.begun tk w t e vs).mem = m.mem := by
  simp only [Mach.begun, Mach.updWarp, Mach.updTask, Mach.updFrame, Mach.newFrame, and_self]

/-- What a register of the fresh frame reads. -/
theorem Mach.begun_reg (m : Mach) (tk w t : Nat) (e : TtEntry) (vs : List Word) (r n : Nat) (hn : n < 32) :
    (((m.begun tk w t e vs).frames.get? m.serial).map fun f => f.reg r n).getD 0 = vs.getD r 0 := by
  have hframe : (m.begun tk w t e vs).frames.get? m.serial =
      some (Frame.entered ⟨t, 8 * (e.frame + 1), [], [], 1, [], [], none, none, []⟩ vs) := by
    simp [Mach.begun, Mach.updWarp, Mach.updTask, Mach.updFrame, Mach.newFrame]
  rw [hframe, Option.map_some, Option.getD_some, Frame.reg_entered _ _ _ _ hn]
  split
  · rfl
  · rename_i hr
    exact (List.getD_eq_default _ _ (Nat.not_lt.mp hr)).symm

/-- A task starts whose header meets its table entry (R128, R129). -/
theorem Mach.startTask_begins {m : Mach} {tk w t : Nat} {x : Task} {tm : Team} {l : Launch} {e : TtEntry} {h : Header}
    (hx : m.tasks.get? t = some x) (htm : m.team? tk = some tm) (hl : m.launchOf tk = some l) (he : x.tte = some e)
    (hh : m.headerAt tm.core l.asid e.entry.toNat x.priv = .ok h) (hfn : h.fn = true) (hframe : h.frame = e.frame)
    (hnarg : h.narg = 8) (hnres : h.nres ≤ 8) : m.startTask tk w t = m.begun tk w t e x.entryRegs := by
  simp only [Mach.startTask, hx, htm, hl, he, hh, hfn, hframe, hnarg, Nat.not_lt.mpr hnres, Bool.not_true, Bool.false_eq_true,
    if_false, ne_eq, not_true_eq_false]
  rfl

/-- What a team's charge and frames leave free turns on no operation and no deque. -/
theorem Mach.fits_deque (m : Mach) (O : Sparse Op) {f : Team → Team} (h : ∀ x, (f x).launch = x.launch) (tk j n : Nat) :
    (({ m with ops := O } : Mach).updTeam tk f).fits j n = m.fits j n := by
  have hcharge : (({ m with ops := O } : Mach).updTeam tk f).granulesCharge j = m.granulesCharge j := by
    unfold Mach.granulesCharge
    rw [Mach.launchOf_updTeam h]
    rfl
  unfold Mach.fits
  rw [hcharge]
  rfl

/-- The header of a function turns on no operation, team, task or warp. -/
theorem Mach.headerAt_tables (m : Mach) (O : Sparse Op) (T : Sparse Team) (K : Sparse Task) (W : Sparse Warp) (core asid va : Nat)
    (priv : Bool) : ({ m with ops := O, teams := T, tasks := K, warps := W } : Mach).headerAt core asid va priv =
      m.headerAt core asid va priv := rfl

/-- The machine in which a task has left its deque and a warp is about to begin it. -/
def Mach.taken (m : Mach) (tk w t : Nat) : Mach :=
  ((m.unqueue tk t).updTask t fun k => { k with st := .running w }).updWarp tk w fun y => { y with st := .active, task := some t }

section
variable {m : Mach} {tk w t : Nat} {tm : Team} (htm : m.team? tk = some tm) (hk : tm.kept = [])
include htm hk

theorem Mach.taken_tasks : (m.taken tk w t).tasks = m.tasks.upd t fun k => { k with st := .running w } := by
  unfold Mach.taken
  rw [Mach.unqueue_no_kept htm hk]
  rfl

theorem Mach.taken_team : (m.taken tk w t).team? tk = some { tm with deque := tm.deque.filter (· ≠ t) } := by
  unfold Mach.taken
  rw [Mach.unqueue_no_kept htm hk]
  exact (Sparse.get?_upd_self ..).trans (congrArg _ htm)

theorem Mach.taken_launchOf : (m.taken tk w t).launchOf tk = m.launchOf tk := by
  unfold Mach.taken
  rw [Mach.unqueue_no_kept htm hk]
  exact Mach.launchOf_updTeam (f := fun k => { k with deque := k.deque.filter (· ≠ t) }) (fun _ => rfl) _ tk tk

theorem Mach.taken_headerAt (core asid va : Nat) (priv : Bool) :
    (m.taken tk w t).headerAt core asid va priv = m.headerAt core asid va priv := by
  unfold Mach.taken
  rw [Mach.unqueue_no_kept htm hk]
  exact Mach.headerAt_tables m ..

theorem Mach.taken_rest : (m.taken tk w t).serial = m.serial ∧ (m.taken tk w t).clock = m.clock ∧
    (m.taken tk w t).mem = m.mem := by
  unfold Mach.taken
  rw [Mach.unqueue_no_kept htm hk]
  exact ⟨rfl, rfl, rfl⟩

end

/-- An idle warp of a resident team starts the READY task nearest the hot end, if no RESUMABLE one is at home (R128). -/
theorem execTaskStart_starts {s : State} {tm : Team} {y : Warp} {k : Nat} {x : Task} {e : TtEntry}
    (htm : s.m.team? s.subj.x = some tm) (hy : s.m.warps.get? (warpKey s.subj.x s.subj.y) = some y) (hidle : y.st = .idle)
    (hres : tm.res = .resident) (hkept : tm.kept = []) (hdy : s.m.dying s.subj.x = false)
    (hnone : earliest ((s.m.tasksOf s.subj.x).filter fun e => e.2.st = .resumable && e.2.bufImage.isNone) = none)
    (hfind : tm.deque.find? (fun n => (s.m.tasks.get? n).any fun z => z.st = .ready) = some k)
    (hx : s.m.tasks.get? k = some x) (he : x.tte = some e) (hfits : s.m.fits s.subj.x (e.frame + 1) = true) :
    execTaskStart s = .next (s.updM fun m => (m.taken s.subj.x s.subj.y k).startTask s.subj.x s.subj.y k) := by
  have hruns : tm.runs = true := by simp [Team.runs, hres]
  have hx' : ((s.m.unqueue s.subj.x k).updTask k fun k => { k with st := .running s.subj.y }).tasks.get? k =
      some { x with st := .running s.subj.y } := by
    rw [Mach.unqueue_no_kept htm hkept]
    simp [Mach.updTask, Mach.updTeam, hx]
  have hfits' : ((s.m.unqueue s.subj.x k).updTask k fun k => { k with st := .running s.subj.y }).fits s.subj.x (e.frame + 1) =
      true := by
    rw [Mach.fits_updTask, Mach.unqueue_no_kept htm hkept, Mach.fits_deque, hfits] <;> intro <;> rfl
  simp only [execTaskStart, State.on, State.updM, htm, hy, hidle, hruns, hdy, hnone, hres, hfind, hx', he, Option.bind_some,
    Option.map_some, Option.getD_some, hfits']
  rfl

/-! ## First use of a slot (R111) -/

theorem Mach.dying_updTeam_self {m : Mach} {tk : Nat} {tm : Team} {f : Team → Team} (htm : m.team? tk = some tm)
    (hlaunch : (f tm).launch = tm.launch) (hgang : (f tm).gang = tm.gang) : (m.updTeam tk f).dying tk = m.dying tk := by
  have htm' : (m.updTeam tk f).team? tk = some (f tm) := (Sparse.get?_upd_self ..).trans (congrArg _ htm)
  unfold Mach.dying
  rw [htm', htm]
  simp only [hlaunch, hgang]
  rfl

/-- An element of a slot after another or the same is zeroed. -/
theorem Core.elem_zeroSlot (c : Core) (p q : Nat) {row col : Nat} (hr : row < 32) (hc : col < 32) :
    (c.zeroSlot p).elem q row col = if q = p then 0 else c.elem q row col := by
  have hslot : (1024 * q + 32 * row + col) / 1024 = q := by omega
  unfold Core.elem Core.zeroSlot Sparse.getD
  rw [Sparse.get?_sift c.acc (fun k => k / 1024 ≠ p), hslot]
  by_cases h : q = p <;> simp [h]

/-- A slot with no saved image is zeroed, and its entry names the team (R111). -/
theorem Mach.loadSlot_fresh {m : Mach} {tk w k p : Nat} {tm : Team} {l : Launch} (htm : m.team? tk = some tm)
    (hl : m.launchOf tk = some l) (hs : k ∉ tm.savedAcc) :
    m.loadSlot tk w k p = (m.updCore tm.core (·.zeroSlot p)).updCore tm.core fun c =>
      { c with owner := c.owner.put p (tm.owns k) } := by
  simp [Mach.loadSlot, htm, hl, hs]

/-- The team once firmware has taken up its first use of a slot. -/
def Team.heard (k : Nat) (t : Team) : Team := { t with accWanted := t.accWanted.filter fun e => e.1 ≠ k }

/-- The first use of a slot no team holds, which has no saved image. -/
theorem execAccFirstuse_fresh {s : State} {tm : Team} {l : Launch} {w p : Nat} (htm : s.m.team? s.subj.x = some tm)
    (hl : s.m.launchOf s.subj.x = some l) (hw : tm.accWanted.find? (fun e => e.1 = s.subj.y) = some (s.subj.y, w))
    (hp : tm.slotMap.get? s.subj.y = some p) (hruns : tm.runs = true) (hdy : s.m.dying s.subj.x = false)
    (hv : ((s.m.core tm.core).ownerOf p).v = false) (hs : s.subj.y ∉ tm.savedAcc) :
    execAccFirstuse s = .next (s.updM fun m => ((m.updTeam s.subj.x (Team.heard s.subj.y)).updCore tm.core (·.zeroSlot p)).updCore
      tm.core fun c => { c with owner := c.owner.put p (tm.owns s.subj.y) }) := by
  have hnot : (s.m.core tm.core).ownerOf p ≠ tm.owns s.subj.y := fun h =>
    absurd (hv.symm.trans (congrArg AccOwner.v h)) Bool.false_ne_true
  have hdy' : (s.m.updTeam s.subj.x (Team.heard s.subj.y)).dying s.subj.x = false :=
    (Mach.dying_updTeam_self htm rfl rfl).trans hdy
  have htm' : (s.m.updTeam s.subj.x (Team.heard s.subj.y)).team? s.subj.x = some (tm.heard s.subj.y) :=
    (Sparse.get?_upd_self ..).trans (congrArg _ htm)
  have hl' : (s.m.updTeam s.subj.x (Team.heard s.subj.y)).launchOf s.subj.x = some l :=
    (Mach.launchOf_updTeam (f := Team.heard s.subj.y) (fun _ => rfl) ..).trans hl
  have hcore : (s.m.updTeam s.subj.x (Team.heard s.subj.y)).core tm.core = s.m.core tm.core := rfl
  have hload := Mach.loadSlot_fresh (w := w) (p := p) htm' hl' hs
  unfold Team.heard at hdy' hcore hload ⊢
  simp only [execAccFirstuse, State.on, State.updM, htm, hw, hp, hruns, hdy', hcore, hnot, hv, Bool.not_false, Bool.and_self,
    Bool.false_eq_true, if_false, hload]
  rfl

/-! ## A buffer comes back (R127) -/

theorem earliest_mem {ts : List (Nat × Task)} {e : Nat × Task} (h : earliest ts = some e) : e ∈ ts := by
  cases ts with
  | nil => cases h
  | cons t rest =>
    cases h
    refine List.foldlRecOn (motive := fun b => b ∈ t :: rest) _ _ List.mem_cons_self fun b hb x hx => ?_
    split
    · exact List.mem_cons_of_mem _ hx
    · exact hb

/-- Poisoned bytes of an image ask for a kill and change nothing else. -/
theorem Mach.readBad_kills (m : Mach) (tk va : Nat) (bad : Bool) : ∃ K, m.readBad tk va bad = { m with kills := K } := by
  unfold Mach.readBad
  split
  · unfold Mach.askKill
    split
    · exact ⟨_, rfl⟩
    · exact ⟨_, rfl⟩
  · exact ⟨_, rfl⟩

/-- How an address translates turns on no task, launch or kill. -/
theorem Mach.translateServiced_tables (m : Mach) (T : Sparse Task) (L : Sparse Launch) (K : List Kill) (asid va : Nat) (k : AccKind) :
    (({ m with tasks := T, launches := L, kills := K } : Mach).translateServiced asid va k).1 = (m.translateServiced asid va k).1 := by
  have hfill (page : Nat) : ({ m with tasks := T, launches := L, kills := K } : Mach).demandFill asid page =
      { m.demandFill asid page with tasks := T, launches := L, kills := K } := by
    unfold Mach.demandFill
    rw [show ({ m with tasks := T, launches := L, kills := K } : Mach).walk asid page = m.walk asid page from rfl]
    split
    · split <;> rfl
    · rfl
  unfold Mach.translateServiced
  rw [show ({ m with tasks := T, launches := L, kills := K } : Mach).translate asid va k = m.translate asid va k from rfl]
  cases m.translate asid va k with
  | stall page =>
    simp only [hfill]
    rfl
  | ok | bad => rfl

theorem Mach.imageIntact_tables (m : Mach) (T : Sparse Task) (L : Sparse Launch) (K : List Kill) (asid va base fuel n : Nat) :
    ({ m with tasks := T, launches := L, kills := K } : Mach).imageIntact asid va base fuel n = m.imageIntact asid va base fuel n := by
  induction fuel generalizing va base n with
  | zero => rfl
  | succ fuel ih =>
    simp only [Mach.imageIntact, Mach.translateServiced_tables, ih]
    rfl

/-- The machine in which a task's buffer has no image any more, an image of the launch given is freed, and kills are asked for. -/
def Mach.unspilled (m : Mach) (k launch off : Nat) (K : List Kill) : Mach :=
  { m with
    tasks := m.tasks.upd k fun x => { x with bufImage := none }
    launches := m.launches.upd launch fun l => l.dropImages [off]
    kills := K }

theorem mem_foldl_insertNat {g : Nat} (ks l : List Nat) : g ∈ ks.foldl (fun l k => insertNat k l) l ↔ g ∈ ks ∨ g ∈ l := by
  induction ks generalizing l with
  | nil => simp
  | cons k ks ih => rw [List.foldl_cons, ih, mem_insertNat, List.mem_cons]; tauto

/-- Of the units inside a buffer those of its image are in the list that comes back. -/
theorem mem_refilled {g off n unit : Nat} (h : inBuffer off n unit g = true) (ks l : List Nat) :
    g ∈ ks.foldl (fun l k => insertNat k l) (l.filter fun g => !inBuffer off n unit g) ↔ g ∈ ks := by
  simp [mem_foldl_insertNat, h]

/-- What the local stores read after one takes an image back. -/
theorem Mach.read_refillBuffer {m : Mach} {tk : Nat} {tm : Team} (htm : m.team? tk = some tm) (off : Nat) (i : Image) (j a : Nat) :
    (((m.refillBuffer tk off i).team? j).map fun t => Memory.read t.ls a).getD 0 =
      if j = tk ∧ off ≤ a ∧ a < off + i.bytes.length then i.bytes.getD (a - off) 0
      else ((m.team? j).map fun t => Memory.read t.ls a).getD 0 := by
  simp only [Mach.team?, Mach.refillBuffer, Mach.updTeam] at htm ⊢
  by_cases hj : j = tk
  · simp [hj, htm, Memory.read_writeN]
  · simp [hj]

/-- The byte-barrier cells and the poison of a buffer are those of the image it takes back. -/
theorem Mach.marks_refillBuffer {m : Mach} {tk : Nat} {tm : Team} (htm : m.team? tk = some tm) (off : Nat) (i : Image) :
    ∃ y, (m.refillBuffer tk off i).team? tk = some y ∧
      (∀ g, inBuffer off i.bytes.length 16 g = true → (g ∈ y.spoilt ↔ g ∈ i.spoilt)) ∧
      ∀ g, inBuffer off i.bytes.length 128 g = true → (g ∈ y.lsPoison ↔ g ∈ i.poison) :=
  ⟨_, (Sparse.get?_upd_self ..).trans (congrArg _ htm), fun _ hg => mem_refilled hg _ _, fun _ hg => mem_refilled hg _ _⟩

section
variable {m : Mach} {k tk off : Nat} {x : Task} {tm : Team} {l : Launch} {buf : Nat × Nat} (hx : m.tasks.get? k = some x)
  (hteam : x.team = tk) (htm : m.team? tk = some tm) (hl : m.launchOf tk = some l) (hbuf : x.buf = some buf)
  (hoff : x.bufImage = some off)
include hx hteam htm hl hbuf hoff

/-- The bytes of a freed image come back; or free ones, or none where there is no image (R127, R272). -/
theorem Mach.restoreBuffer_cases : ∃ K,
    (l.images.find? (fun i => i.off = off) = none ∧ m.restoreBuffer k = m.unspilled k tm.launch off K) ∨
    ∃ i, l.images.find? (fun i => i.off = off) = some i ∧ m.restoreBuffer k =
      if m.imageIntact l.asid (l.spillBase.toNat + off) i.base (i.size / 65536 + 2) i.size
      then (m.unspilled k tm.launch off K).refillBuffer tk buf.1 i
      else ((m.unspilled k tm.launch off K).takeBytes i.bytes.length).2.lsWrite tk buf.1
        ((m.unspilled k tm.launch off K).takeBytes i.bytes.length).1 := by
  have hown : ((m.team? tk).bind fun tm => (m.launches.get? tm.launch).map fun l => (tm.launch, l)) = some (tm.launch, l) := by
    rw [Mach.launchOf_eq htm] at hl
    simp [htm, hl]
  have hfreed : ((m.updTask k fun x => { x with bufImage := none }).updLaunch tm.launch fun l => l.dropImages [off]) =
    m.unspilled k tm.launch off m.kills := rfl
  unfold Mach.restoreBuffer
  simp only [hx, hbuf, hoff, hown, hteam, hfreed]
  cases hi : l.images.find? (fun i => i.off = off) with
  | none => exact ⟨m.kills, .inl ⟨rfl, rfl⟩⟩
  | some i =>
    obtain ⟨K, hK⟩ := (m.unspilled k tm.launch off m.kills).readBad_kills tk (l.spillBase.toNat + off)
      ((m.unspilled k tm.launch off m.kills).imageBad l.asid (l.spillBase.toNat + off) (i.size / 65536 + 2) i.size)
    have hK' : _ = m.unspilled k tm.launch off K := hK
    have hintact : (m.unspilled k tm.launch off K).imageIntact l.asid (l.spillBase.toNat + off) i.base
      (i.size / 65536 + 2) i.size = _ := Mach.imageIntact_tables m ..
    refine ⟨K, .inr ⟨i, rfl, ?_⟩⟩
    simp only [hK', hintact]

/-- A buffer that comes back leaves memory as it is, and its task with no image. -/
theorem Mach.restoreBuffer_rest : (m.restoreBuffer k).tasks.get? k = some { x with bufImage := none } ∧
    (m.restoreBuffer k).mem = m.mem := by
  obtain ⟨K, ⟨-, h⟩ | ⟨i, -, h⟩⟩ := Mach.restoreBuffer_cases hx hteam htm hl hbuf hoff
  · rw [h]
    simp [Mach.unspilled, hx]
  · rw [h]
    split
    · simp [Mach.unspilled, Mach.refillBuffer, Mach.updTeam, hx]
    · simp [Mach.unspilled, Mach.takeBytes, Mach.lsWrite, Mach.updTeam, hx]

/-- An image as it was written fills the buffer again (R127). -/
theorem Mach.restoreBuffer_intact {i : Image} (hi : l.images.find? (fun i => i.off = off) = some i)
    (hintact : m.imageIntact l.asid (l.spillBase.toNat + off) i.base (i.size / 65536 + 2) i.size = true) :
    ∃ K, m.restoreBuffer k = (m.unspilled k tm.launch off K).refillBuffer tk buf.1 i := by
  obtain ⟨K, ⟨hn, -⟩ | ⟨i', hi', h⟩⟩ := Mach.restoreBuffer_cases hx hteam htm hl hbuf hoff
  · exact absurd (hi.symm.trans hn) (by simp)
  · obtain rfl : i = i' := Option.some.inj (hi.symm.trans hi')
    exact ⟨K, h.trans (if_pos hintact)⟩

end

/-- A team with an idle warp, nothing READY or in staging, and only spilled RESUMABLE tasks has the buffer of the one waiting
longest restored, if its range is free (R127). -/
theorem execLsShortage_restores {s : State} {tm : Team} {l : Launch} {k : Nat} {x : Task} {buf : Nat × Nat}
    (htm : s.m.team? s.subj.x = some tm) (hl : s.m.launchOf s.subj.x = some l) (hruns : tm.runs = true)
    (hidle : ∃ w ∈ s.m.warpsOf s.subj.x, w.2.st = .idle)
    (hts : ∀ e ∈ s.m.tasksOf s.subj.x, e.2.st ≠ .ready ∧ e.2.st ≠ .staging)
    (himg : ∀ e ∈ (s.m.tasksOf s.subj.x).filter fun e => e.2.st = .resumable, e.2.bufImage ≠ none)
    (hops : s.m.stageOpsOn tm.core = false)
    (hfirst : earliest ((s.m.tasksOf s.subj.x).filter fun e => e.2.st = .resumable) = some (k, x)) (hbuf : x.buf = some buf)
    (hfree : s.m.rangeFree s.subj.x buf = true) : execLsShortage s = .next (s.updM fun m => m.restoreBuffer k) := by
  have hidle' : ((s.m.warpsOf s.subj.x).any fun w => w.2.st = .idle) = true := by simpa using hidle
  have hready : ((s.m.tasksOf s.subj.x).any fun e => e.2.st = .ready) = false := by
    simpa using fun j x h => (hts (j, x) h).1
  have hstaging : ((s.m.tasksOf s.subj.x).any fun e => e.2.st = .staging) = false := by
    simpa using fun j x h => (hts (j, x) h).2
  have hspilled : (((s.m.tasksOf s.subj.x).filter fun e => e.2.st = .resumable).any fun e => e.2.bufImage.isNone) = false :=
    List.any_eq_false.mpr fun e he => by simpa using himg e he
  simp only [execLsShortage, State.on, State.updM, htm, hl, hruns, hidle', hready, hstaging, hspilled, hops, hfirst, hbuf,
    Option.all_some, hfree]
  rfl

end Sys2Proof.Machine
end

section
open Sys2Proof Sys2Proof.Machine

/-- Settles O52: one lemma about each event as it goes in the case a clause speaks of, and what the machine it leaves reads. -/
theorem stagingAndTaskStart : Obligations.StagingAndTaskStart := by
  unfold Obligations.StagingAndTaskStart
  refine ⟨?_, ?_, ?_, ?_, ?_, ?_⟩
  · intro s tm l k u rest x e m tk htm hl hruns hdy h8 hops horder hx he hu
    have hsame : s.m.SameTables m := .of_pair (.readTte s.m l x.desc.typ) he
    refine ⟨_, execStagingStart_tries htm hl hruns hdy h8 hops, ?_⟩
    show (s.m.startStaging tk l (s.m.stagingOrder l tm.deque)).tasks.get? k = _
    rw [horder, Mach.startStaging_fits hx he hu]
    simp [Mach.updTask, hsame.tasks, hx]
  · intro s x tm l e o line bad b m m' n rows k hx hst htm he ho h0 hres hdy hl hline hask buf p hp hr
    exact ⟨_, rfl, Mach.tasks_stageTask_one hx hst htm he ho h0 hres hdy hl hline hask hp hr⟩
  · intro s tm l k off x buf tk ts waiting htm hl hruns hidle hts himg hops hfirst hx hbuf hoff hfree
    have hmem : (k, x) ∈ ts := List.mem_of_mem_filter (earliest_mem hfirst)
    have hteam : x.team = tk := by simpa [ts, Mach.tasksOf] using (List.mem_filter.mp hmem).2
    obtain ⟨htask, hbytes⟩ := Mach.restoreBuffer_rest hx hteam htm hl hbuf hoff
    refine ⟨_, execLsShortage_restores htm hl hruns hidle hts himg hops hfirst hbuf hfree, htask,
      fun a => congrArg (Memory.read · a) hbytes, fun i hi hintact => ?_⟩
    obtain ⟨K, hrun⟩ := Mach.restoreBuffer_intact hx hteam htm hl hbuf hoff hi hintact
    have htm' : (s.m.unspilled k tm.launch off K).team? tk = some tm := htm
    simp only [State.lsByte, State.updM, hrun]
    exact ⟨Mach.read_refillBuffer htm' buf.1 i, Mach.marks_refillBuffer htm' buf.1 i⟩
  · intro s tm y k x tk htm hy hidle hruns hdy hfirst hx hhome hsel
    refine ⟨_, execTaskStart_resumes htm hy hidle hruns hdy hfirst hx hhome hsel, ?_, ?_, fun a => rfl⟩
    · simp [State.updM, Mach.resumed, Mach.updTask, Mach.updWarp, hx]
    · simp [State.updM, Mach.resumed, Mach.updTask, Mach.updWarp, hy, tk]
  · intro s tm l y k x e h tk htm hl hy hidle hres hkept hdy hnone hfind hx he hfits hh hfn hframe hnarg hnres
    refine ⟨_, execTaskStart_starts htm hy hidle hres hkept hdy hnone hfind hx he hfits, ?_⟩
    have hx' : (s.m.taken tk s.subj.y k).tasks.get? k = some { x with st := .running s.subj.y } := by
      rw [Mach.taken_tasks htm hkept, Sparse.get?_upd_self, hx]
      rfl
    have htm' := Mach.taken_team (w := s.subj.y) (t := k) htm hkept
    obtain ⟨hserial, hclock, hmem⟩ := Mach.taken_rest (w := s.subj.y) (t := k) htm hkept
    have hrun : (s.m.taken tk s.subj.y k).startTask tk s.subj.y k = (s.m.taken tk s.subj.y k).begun tk s.subj.y k e x.entryRegs :=
      Mach.startTask_begins (x := { x with st := .running s.subj.y }) hx' htm' ((Mach.taken_launchOf htm hkept).trans hl) he
        ((Mach.taken_headerAt htm hkept ..).trans hh) hfn hframe hnarg hnres
    obtain ⟨htasks, hteams, hmem'⟩ := (s.m.taken tk s.subj.y k).begun_rest tk s.subj.y k e x.entryRegs
    simp only [State.updM, State.byte, State.reg, Mach.team?]
    rw [hrun, htasks, hteams, hmem', hmem, ← hserial, ← hclock, Sparse.get?_upd_self, hx']
    exact ⟨rfl, congrArg (Option.map (·.deque)) htm', fun a => rfl, fun r n hn => Mach.begun_reg _ _ _ _ _ _ r n hn⟩
  · intro s tm l w p tk k htm hl hw hp hruns hdy hv hs
    refine ⟨_, execAccFirstuse_fresh htm hl hw hp hruns hdy hv hs, ?_⟩
    simp only [State.updM, Mach.core_updCore]
    refine ⟨?_, fun row col hr hc => ?_, fun q row col hq hr hc => ?_, fun a => rfl⟩
    · simp [Core.ownerOf, Sparse.getD, k]
    · exact (Core.elem_zeroSlot _ p p hr hc).trans (if_pos rfl)
    · exact (Core.elem_zeroSlot _ p q hr hc).trans (if_neg hq)

end

section
/-! ## Tasks and futures: what their instructions issue and how their operations end

What `issuedWith` and the end of an operation leave unchanged, an equation for the issue of each instruction, and how an operation
that goes to no place ends. -/

namespace Sys2Proof.Machine

@[simp] theorem Mach.mem_issuedWith (m : Mach) (c : Issue) (i : Instr) :
    (m.issuedWith c i).mem = m.mem := by
  simp only [Mach.issuedWith, Mach.issued, Mach.latched, Mach.tookCycle, Mach.spendCycle, Mach.updTask_mem,
    Mach.updCore_mem, Mach.updWarp_mem]

@[simp] theorem Mach.poison_issuedWith (m : Mach) (c : Issue) (i : Instr) :
    (m.issuedWith c i).poison = m.poison := by
  simp only [Mach.issuedWith, Mach.issued, Mach.latched, Mach.tookCycle, Mach.spendCycle, Mach.updTask_poison,
    Mach.updCore_poison, Mach.updWarp_poison]

@[simp] theorem Mach.launches_issuedWith (m : Mach) (c : Issue) (i : Instr) :
    (m.issuedWith c i).launches = m.launches := by
  simp only [Mach.issuedWith, Mach.issued, Mach.latched, Mach.tookCycle, Mach.spendCycle, Mach.updTask_launches,
    Mach.updCore_launches, Mach.updWarp_launches]

@[simp] theorem Mach.clock_issuedWith (m : Mach) (c : Issue) (i : Instr) :
    (m.issuedWith c i).clock = m.clock := by
  simp only [Mach.issuedWith, Mach.issued, Mach.latched, Mach.tookCycle, Mach.spendCycle, Mach.updTask_clock,
    Mach.updCore_clock, Mach.updWarp_clock]

/-- What a task's own access reads takes free values at most. -/
theorem Mach.taskRead_rest (m : Mach) (t : Nat) (p : Place) (n : Nat) : ∃ F, (m.taskRead t p n).2 = { m with free := F } := by
  unfold Mach.taskRead
  extract_lets bs
  split
  · exact ⟨_, rfl⟩
  · split
    · exact ⟨_, rfl⟩
    · exact ⟨_, rfl⟩

theorem Mach.spawnCode_eq {m : Mach} {tk launch : Nat} {l : Launch} {tm : Team} (hl : m.launches.get? launch = some l)
    (htm : m.team? tk = some tm) (k : Desc) : m.spawnCode tk launch k =
      if (l.scope k.scope).st = .free then 2 else if l.dequeCap ≤ tm.deque.length then 1 else 0 := by
  unfold Mach.spawnCode
  rw [hl, htm]
  rfl

theorem exec_spawn {s : State} {c : Issue} {ct : Ctl} {d a : Reg} {k : Desc} {l : Launch} {tm : Team} :
    let i : Instr := .spawn ct d a
    let act := c.active i
    Issues s i c → act ≠ 0 → s.m.launches.get? c.launch = some l → s.m.team? c.tk = some tm →
    s.m.descChk c act (c.f.reg a.toNat (lowLane act)).toNat = .ok k → s.m.descFutureChk c act k = .ok →
    s.m.releaseChk c act .dv = .ok →
    let m := ((s.start c i).descBytes c (c.f.reg a.toNat (lowLane act)).toNat).2
    let free := (l.scope k.scope).st = .free
    let full := l.dequeCap ≤ tm.deque.length
    let code : Word := if free then 2 else if full then 1 else 0
    let queued : Mach :=
      ({ m with serial := m.serial + 1, tasks := m.tasks.put m.serial (Task.queued c.tk k m.serial) }.updTeam c.tk
        fun t => { t with deque := m.serial :: t.deque }).updLaunch c.launch fun l => l.scopeInc k.scope
    exec i s = .next (s.goesOn c i ((if code = 0 then queued else m).updFrame c.p.frame
      fun f => f.setLanes d.toNat (laneList act) fun _ => code)) := by
  intro i act h ha hl htm hdesc hfut hrel m free full code queued
  obtain ⟨F, hF⟩ : ∃ F, m = { s.start c i with free := F } := (s.start c i).taskRead_rest _ _ _
  have hcode : m.spawnCode c.tk c.launch k = if free then 2 else if full then 1 else 0 := by
    refine Mach.spawnCode_eq ?_ ?_ k <;> rw [hF]
    · show (s.start c i).launches.get? c.launch = some l
      rw [State.start, Mach.launches_issuedWith]
      exact hl
    · exact (congrArg (·.get? c.tk) (s.m.teams_issuedWith c i)).trans htm
  refine (State.act_goesOn (f := fun m => _) rfl h ha ?_ : execSpawn ct d a s = _).trans ?_
  · simp only [act, i] at hdesc hfut hrel
    simp only [hdesc, hfut, hrel]
  · simp only [act, i] at hdesc
    simp only [hdesc]
    simp only [i, act, m] at hcode
    simp only [hcode, code]
    by_cases hfree : free
    · simp only [if_pos hfree]; rfl
    · by_cases hfull : full
      · simp only [if_neg hfree, if_pos hfull]; rfl
      · simp only [if_neg hfree, if_neg hfull]; rfl

theorem exec_spawnR {s : State} {c : Issue} {ct : Ctl} {d a b : Reg} {k : Desc} :
    let i : Instr := .spawnR ct d a b
    let act := c.active i
    let h := (c.f.pair b.toNat (lowLane act)).toNat
    let peer := h / 2 ^ 16 % 8
    LongIssues s i c → s.m.descChk c act (c.f.reg a.toNat (lowLane act)).toNat = .ok k →
    h / 2 ^ 19 % 2 ^ 13 = 0 → h < 2 ^ 48 → peer ≠ s.m.device → s.m.conn peer ≠ .down → s.m.conn peer ≠ .absent →
    s.m.descFutureChk c act k = .ok → s.m.releaseChk c act .sy = .ok →
    let m := ((s.start c i).descBytes c (c.f.reg a.toNat (lowLane act)).toNat).2
    exec i s = .next (s.underWay c i false (.spawnR k peer d.toNat)
      { m with peerOut := m.peerOut ++ [PeerMsg.task peer m.serial] }) := by
  intro i act h peer hi hdesc hres hhi hdev hdown habsent hfut hrel m
  have hok : (h / 2 ^ 19 % 2 ^ 13 ≠ 0 || h / 2 ^ 48 ≠ 0) = false ∧
      (peer = s.m.device || s.m.conn peer = .down || s.m.conn peer = .absent) = false := by
    exact ⟨by simpa using ⟨hres, hhi⟩, by simp [hdev, hdown, habsent]⟩
  refine (State.long_underWay (f := fun m => _) rfl hi ?_ : execSpawnR ct d a b s = _).trans ?_
  · simp only [act, i] at hdesc hfut hrel
    simp only [h, peer, act, i] at hok
    simp only [hdesc, hfut, hrel, hok]
    rfl
  · simp only [act, i] at hdesc
    simp only [hdesc]
    rfl

theorem exec_resolve {s : State} {c : Issue} {ct : Ctl} {d a b : Reg} {pa : Nat} :
    let i : Instr := .resolve ct d a b
    let act := c.active i
    LongIssues s i c → s.m.joinChk c act (c.f.pair a.toNat (lowLane act)).toNat true = .ok pa →
    s.m.releaseChk c act .dv = .ok →
    exec i s = .next (s.underWay c i false (.resolve (some pa) (c.f.pair b.toNat (lowLane act)) d.toNat)
      ((s.start c i).send (s.start c i).serial c.core [.dev pa])) := by
  intro i act hi hjoin hrel
  simp only [act, i] at hjoin hrel
  refine (State.long_underWay (f := fun m => _) rfl hi ?_ : execResolve ct d a b s = _).trans ?_
  · simp only [joinAddr, hjoin, hrel]
  · simp only [joinAddr, hjoin]
    rfl

theorem Mach.finishOp_over (m : Mach) (n : Nat) (fs : List FaultRec) : (m.finishOp n fs).ops.get? n = none := by
  rcases h : m.ops.get? n with _ | o
  · simp [Mach.finishOp, h]
  · exact (m.finishOp_spec n fs).2.2 o h

/-- An operation whose messages have all arrived, and whose replies cross the mesh, ends as its kind says (R35, R39, R185). -/
theorem exec_operationComplete_ends {s : State} {n : Nat} {o : Op} {sv : Serve} {m : Mach} (ho : s.m.ops.get? n = some o)
    (ha : s.m.Arrived n) (hg : s.m.atGate (s.m.targetsOf o) = false)
    (hb : (s.m.backOver n o.core (o.kind.homes ++ (s.m.targetsOf o).map (·.1)) (s.m.targetsOf o)).1 = true)
    (hp : s.perform n o sv = { s with m := m.finishOp n [] }) :
    exec (.operationComplete n sv) s = .next { s with m := m.finishOp n [] } := by
  have hheld : (s.m.holds n false || s.m.returned n) = false := by
    simp only [Mach.holds, Mach.returned, Bool.or_eq_false_iff, List.any_eq_false]
    exact ⟨fun h hh => by simp [ha.held h hh], fun d hd => by simpa using ha.stale d hd⟩
  have hgo : s.m.goesOn (m.finishOp n []) n = false := by
    simp only [Mach.goesOn, ho, Mach.finishOp_over, Option.isSome_none]
  show execOperationComplete n sv s = _
  simp only [execOperationComplete, ho, State.completeOp, hheld, hg, hp, hgo, hb, Bool.false_eq_true, if_false, if_true]

theorem Completes.of_finishOp {s : State} {n : Nat} {sv : Serve} {m : Mach} {bytes : Nat → Byte}
    {fr : Nat} {ws : List (Nat × Nat × Word)} (he : exec (.operationComplete n sv) s = .next { s with m := m.finishOp n [] })
    (hmem : ∀ a, Memory.read m.mem a = bytes a) (hls : m.teams = s.m.teams)
    (hfr : m.frames = s.m.frames.upd fr fun f => ws.foldl (fun f w => f.setBoth w.1 w.2.1 w.2.2) f) :
    Completes s n sv bytes fr ws := by
  obtain ⟨h1, h2, -⟩ := m.finishOp_spec n []
  refine ⟨m, he, m.finishOp_over n [], fun a => (h1 a).trans (hmem a), fun q => (h2 q).trans ?_, fun k => ?_⟩
  · rw [Mach.team?, Mach.team?, hls]
  · rw [hfr, Sparse.get?_upd]
    by_cases hk : k = fr <;> simp only [hk, if_true, if_false, Option.map_id']

theorem Completes.of_landRegs {s : State} {n : Nat} {o : Op} {sv : Serve} {m : Mach} {bytes : Nat → Byte}
    {ws : List (Nat × Nat × Word)}
    (he : exec (.operationComplete n sv) s = .next { s with m := (m.landRegs o ws).finishOp n [] }) (hd : o.dead = false)
    (hmem : ∀ a, Memory.read m.mem a = bytes a) (hls : m.teams = s.m.teams) (hfr : m.frames = s.m.frames) :
    Completes s n sv bytes o.frame ws := by
  have hland : m.landRegs o ws = m.updFrame o.frame fun f => ws.foldl (fun f w => f.setBoth w.1 w.2.1 w.2.2) f := by
    simp only [Mach.landRegs, hd, Bool.false_eq_true, if_false]
  rw [hland] at he
  exact .of_finishOp he hmem hls (by rw [← hfr]; rfl)

theorem Mach.read_resolveCell (m : Mach) (pa st : Nat) (v : DWord) (a : Nat) : Memory.read (m.resolveCell pa st v).2.mem a =
    if m.cellState pa = 0 ∧ pa ≤ a ∧ a < pa + 16 then
      (natBytes 8 v.toNat ++ [BitVec.ofNat 8 st, Memory.read m.mem (pa + 9)] ++ List.replicate 6 0).getD (a - pa) 0
    else Memory.read m.mem a := by
  unfold Mach.resolveCell
  by_cases h : m.cellState pa = 0
  · simp only [h, if_true, true_and, (m.homeWrite_spec _ _).1, Memory.read_writeN, List.length_append, natBytes_length,
      List.length_cons, List.length_nil, List.length_replicate, Nat.reduceAdd]
  · simp only [h, if_false, false_and]

theorem Mach.resolveCell_bytes (m : Mach) (pa st : Nat) (v : DWord) : m.SameButBytes (m.resolveCell pa st v).2 := by
  unfold Mach.resolveCell
  split
  · exact m.homeWrite_bytes _ _
  · exact .refl m

theorem Mach.resolveCell_was (m : Mach) (pa st : Nat) (v : DWord) : (m.resolveCell pa st v).1 = decide (m.cellState pa = 0) := by
  unfold Mach.resolveCell
  split
  · next h => simp [h]
  · next h => simp [h]

/-- The home of a cell answers a `resolve` (R132, R367). -/
theorem exec_resolve_completes {s : State} {n : Nat} {o : Op} {sv : Serve} {pa d : Nat} {v : DWord} (ho : s.m.ops.get? n = some o)
    (hk : o.kind = .resolve (some pa) v d) (hgone : o.gone = false) (hdead : o.dead = false)
    (hserved : s.m.served n true [.dev pa] = true) (ha : s.m.Arrived n) (hgate : s.m.atGate [(.dev pa, 16)] = false)
    (hback : (s.m.backOver n o.core [.dev pa, .dev pa] [(.dev pa, 16)]).1 = true) (hpoison : s.m.poisoned (.dev pa) 16 = false) :
    Completes s n sv (fun a =>
        if s.m.cellState pa = 0 ∧ pa ≤ a ∧ a < pa + 16 then
          (natBytes 8 v.toNat ++ [1, s.byte (pa + 9)] ++ List.replicate 6 0).getD (a - pa) 0
        else s.byte a)
      o.frame ((laneList o.lanes).map fun l => (d, l, if s.m.cellState pa = 0 then 0 else 1)) := by
  have hsame := s.m.resolveCell_bytes pa 1 v
  have hts : s.m.targetsOf o = [(.dev pa, 16)] := by
    simp only [Mach.targetsOf, Mach.rdetSlot, hk, OpKind.targets, Option.toList_none, List.map_nil, List.append_nil]
  refine .of_landRegs (m := (s.m.resolveCell pa 1 v).2.dropCopies o.core [lineOf pa]) ?_ hdead (s.m.read_resolveCell pa 1 v)
    hsame.teams hsame.frames
  refine exec_operationComplete_ends ho ha (hts ▸ hgate) (by rw [hts, hk]; exact hback) ?_
  simp only [State.perform, hk, hgone, State.updM, Mach.completeResolve, hserved, hpoison, Mach.consume, Mach.resolveCell_was,
    Bool.not_true, Bool.false_eq_true, if_false, decide_eq_true_eq]

theorem Mach.launches_settle (m : Mach) (tk w : Nat) : (m.settle tk w).launches = m.launches :=
  (Mach.SameGangs.settle m tk w).launches

theorem Mach.launches_dropFlag (m : Mach) (n : Nat) (o : Op) (fs : List FaultRec) :
    (m.dropFlag n o fs).launches = m.launches := by
  unfold Mach.dropFlag
  extract_lets m1
  have h1 : m1.launches = m.launches := by
    unfold m1
    split
    · split <;> rfl
    · rfl
  split
  · exact (m1.launches_settle _ _).trans h1
  · exact (m1.launches_settle _ _).trans h1
  · exact h1

/-- Frames that end take their images out of the launch, no more. -/
theorem Mach.scope_freeFrames (m : Mach) (t k x : Nat) : ((m.freeFrames t).launches.get? k).map (fun l => l.scope x) =
    (m.launches.get? k).map fun l => l.scope x := by
  unfold Mach.freeFrames
  extract_lets live stays offs m1
  show (m1.launches.get? k).map _ = _
  unfold m1
  split
  · split
    · rfl
    · simp only [Mach.updLaunch_launches, Sparse.get?_upd]
      split
      · rw [Option.map_map]
        rfl
      · rfl
  · rfl

/-- The end of an operation leaves the finish scopes as they are. -/
theorem Mach.scope_finishOp (m : Mach) (n : Nat) (fs : List FaultRec) (k x : Nat) :
    ((m.finishOp n fs).launches.get? k).map (fun l => l.scope x) = (m.launches.get? k).map fun l => l.scope x := by
  unfold Mach.finishOp
  split
  · rfl
  · next o ho =>
    extract_lets m1 m2
    have h2 : m2.launches = m.launches := by
      unfold m2
      split <;> rfl
    show (((m2.freeFrames o.task).dropFlag n o fs).launches.get? k).map _ = _
    rw [Mach.launches_dropFlag, Mach.scope_freeFrames, h2]

theorem Mach.Arrived.holds {m : Mach} {n : Nat} (h : m.Arrived n) (reply : Bool) : m.holds n reply = false := by
  simp only [Mach.holds, List.any_eq_false]
  exact fun x hx => by simp [h.held x hx]

/-- What asks nothing of a place has its answer at once. -/
theorem Mach.Arrived.backOver_nowhere {m : Mach} {n : Nat} (h : m.Arrived n) (core : Nat) :
    (m.backOver n core [] []).1 = true := by
  have hno : (m.replicas.filter fun e => ([] : List (Place × Nat)).any fun r => r.1.meets r.2 (.dev (e.1 / 4 * 128)) 128) = [] :=
    List.filter_eq_nil_iff.mpr fun _ _ => by simp
  have hinv : m.invalidate n [] = m := by
    unfold Mach.invalidate
    rw [hno]
    rfl
  have hreply : m.reply n core [] = m := rfl
  simp only [Mach.backOver, hinv, h.holds, Mach.replied, hreply, Bool.false_eq_true, if_false, Bool.not_false]

theorem Mach.atGate_nil (m : Mach) : m.atGate [] = false := by
  simp [Mach.atGate]

/-- An operation that goes to no place ends as its kind says. -/
theorem exec_operationComplete_nowhere {s : State} {n : Nat} {o : Op} {sv : Serve} {m : Mach} (ho : s.m.ops.get? n = some o)
    (ha : s.m.Arrived n) (hhomes : o.kind.homes = []) (hts : s.m.targetsOf o = [])
    (hp : s.perform n o sv = { s with m := m.finishOp n [] }) :
    exec (.operationComplete n sv) s = .next { s with m := m.finishOp n [] } := by
  refine exec_operationComplete_ends ho ha (by rw [hts]; exact s.m.atGate_nil) ?_ hp
  rw [hts, hhomes]
  exact ha.backOver_nowhere o.core

/-- A launch with scope sc opened under p (R135). -/
def Launch.openScope (l : Launch) (sc p : Nat) : Launch :=
  { l.scopeInc p with scopes := (l.scopeInc p).scopes.put sc ⟨.opened, p, 0⟩ }

theorem Launch.scope_openScope (l : Launch) (sc p x : Nat) : (l.openScope sc p).scope x =
    if x = sc then ⟨.opened, p, 0⟩ else if x = p then { l.scope p with count := (l.scope p).count + 1 } else l.scope x := by
  simp only [Launch.openScope, Launch.scope, Launch.scopeInc, Sparse.getD, Sparse.get?_put]
  split_ifs <;> rfl

/-- Scope sc may open under p (R135). -/
def Launch.Opens (l : Launch) (sc p : Nat) : Prop := sc ≠ 0 ∧ (l.scope sc).st = .free ∧ (l.scope p).st ≠ .free

/-- The read of a descriptor moves no state that Still names. -/
theorem Still.taskRead (m : Mach) (t : Nat) (p : Place) (n : Nat) : Still m (m.taskRead t p n).2 := by
  obtain ⟨F, hF⟩ := m.taskRead_rest t p n
  rw [hF]
  exact .of_eq rfl rfl rfl rfl rfl rfl rfl

theorem exec_finOpen {s : State} {c : Issue} {ct : Ctl} {d a b : Reg} :
    let i : Instr := .finOpen ct d a b
    let lane := lowLane (c.active i)
    LongIssues s i c →
    exec i s = .next (s.underWay c i false
      (.finOpen ((c.f.reg a.toNat lane).toNat % 256) ((c.f.reg b.toNat lane).toNat % 256) d.toNat) (s.start c i)) := by
  intro i lane hi
  exact (State.long_underWay (f := fun m => _) rfl hi rfl : execFinOpen ct d a b s = _)

/-- What `fin.open` leaves of the machine before its answer is written (R135). -/
def Mach.openedScope (m : Mach) (launch sc p : Nat) (ok : Bool) : Mach :=
  if ok then m.updLaunch launch fun l => l.openScope sc p else m

theorem Mach.completeFinOpen_eq {m : Mach} {n : Nat} {o : Op} {sc p d : Nat} {t : Team} {l : Launch}
    (ht : m.team? o.team = some t) (hl : m.launches.get? t.launch = some l) (ok : Bool) (hok : ok = true ↔ l.Opens sc p) :
    m.completeFinOpen n o sc p d = ((m.openedScope t.launch sc p ok).landRegs o
      ((laneList o.lanes).map fun l => (d, l, if ok then 0 else 1))).finishOp n [] := by
  have hgot : ((m.launchOf o.team).any fun l => sc ≠ 0 && (l.scope sc).st = .free && (l.scope p).st ≠ .free) = ok := by
    rw [Mach.launchOf_eq ht, hl, Bool.eq_iff_iff, hok]
    simp [Launch.Opens, and_assoc]
  unfold Mach.completeFinOpen
  simp only [hgot, ht]
  cases ok <;> rfl

theorem Mach.launches_landRegs (m : Mach) (o : Op) (ws : List (Nat × Nat × Word)) : (m.landRegs o ws).launches = m.launches := by
  unfold Mach.landRegs
  split <;> rfl

/-- The scopes of the launch as `fin.open` has completed. -/
theorem Mach.scope_openedScope {m : Mach} {launch sc p : Nat} {ok : Bool} {l : Launch} (hl : m.launches.get? launch = some l)
    (x : Nat) : ((m.openedScope launch sc p ok).launches.get? launch).map (fun l => l.scope x) =
      some (if ok = false then l.scope x else if x = sc then ⟨.opened, p, 0⟩
        else if x = p then { l.scope p with count := (l.scope p).count + 1 } else l.scope x) := by
  cases ok
  · simp [Mach.openedScope, hl]
  · simp [Mach.openedScope, Mach.updLaunch_launches, hl, Launch.scope_openScope]

theorem exec_finOpen_completes {s : State} {n : Nat} {o : Op} {sv : Serve} {sc p d : Nat} {t : Team} {l : Launch} {ok : Bool}
    (ho : s.m.ops.get? n = some o) (hk : o.kind = .finOpen sc p d) (hgone : o.gone = false) (ha : s.m.Arrived n)
    (ht : s.m.team? o.team = some t) (hl : s.m.launches.get? t.launch = some l) (hok : ok = true ↔ l.Opens sc p) :
    exec (.operationComplete n sv) s = .next { s with m := ((s.m.openedScope t.launch sc p ok).landRegs o
      ((laneList o.lanes).map fun l => (d, l, if ok then 0 else 1))).finishOp n [] } := by
  have hts : s.m.targetsOf o = [] := by
    simp only [Mach.targetsOf, Mach.rdetSlot, hk, OpKind.targets, Option.toList_none, List.map_nil, List.append_nil]
  refine exec_operationComplete_nowhere ho ha (by rw [hk]; rfl) hts ?_
  simp only [State.perform, hk, hgone, State.updM, Mach.completeFinOpen_eq ht hl ok hok, Bool.false_eq_true, if_false]

theorem finOpen_completes {s : State} {n : Nat} {o : Op} {sv : Serve} {sc p d : Nat} {t : Team} {l : Launch} {ok : Bool}
    (ho : s.m.ops.get? n = some o) (hk : o.kind = .finOpen sc p d) (hgone : o.gone = false) (hdead : o.dead = false)
    (ha : s.m.Arrived n) (ht : s.m.team? o.team = some t) (hl : s.m.launches.get? t.launch = some l)
    (hok : ok = true ↔ l.Opens sc p) :
    Completes s n sv s.byte o.frame ((laneList o.lanes).map fun l => (d, l, if ok then 0 else 1)) := by
  refine .of_landRegs (exec_finOpen_completes ho hk hgone ha ht hl hok) hdead ?_ ?_ ?_ <;> cases ok <;> intros <;> rfl

theorem exec_finOpen_scope {s u : State} {n : Nat} {o : Op} {sv : Serve} {sc p d : Nat} {t : Team} {l : Launch} {ok : Bool}
    (ho : s.m.ops.get? n = some o) (hk : o.kind = .finOpen sc p d) (hgone : o.gone = false)
    (ha : s.m.Arrived n) (ht : s.m.team? o.team = some t) (hl : s.m.launches.get? t.launch = some l)
    (hok : ok = true ↔ l.Opens sc p) (hu : exec (.operationComplete n sv) s = .next u) (x : Nat) :
    (u.m.launches.get? t.launch).map (fun l => l.scope x) =
      some (if ok = false then l.scope x else if x = sc then ⟨.opened, p, 0⟩
        else if x = p then { l.scope p with count := (l.scope p).count + 1 } else l.scope x) := by
  rw [exec_finOpen_completes ho hk hgone ha ht hl hok] at hu
  cases hu
  rw [Mach.scope_finishOp, Mach.launches_landRegs, Mach.scope_openedScope hl]

/-- The answer to a `spawn.r` is reported once the cell of its future, if it has one, is set (R142). -/
theorem exec_spawnR_completes {s : State} {n : Nat} {o : Op} {sv : Serve} {k : Desc} {peer d : Nat} {bs : List Byte} {l : Launch}
    {m : Mach} (ho : s.m.ops.get? n = some o) (hk : o.kind = .spawnR k peer d) (hgone : o.gone = false) (ha : s.m.Arrived n)
    (hr : o.reply = some bs) (hl : s.m.launchOf o.team = some l)
    (hm : (if k.future = 0 ∨ bytesNat (bs.take 1) = 1 then some s.m else s.m.cellNow ⟨l.asid, k.future.toNat,
      if bytesNat (bs.take 1) = 0 then .remote peer else .resolve true (faultValue 19 0)⟩) = some m) :
    exec (.operationComplete n sv) s = .next { s with m := (m.landRegs o
      ((laneList o.lanes).map fun l => (d, l, .ofNat 32 (bytesNat (bs.take 1))))).finishOp n [] } := by
  have hts : s.m.targetsOf o = [] := by
    simp only [Mach.targetsOf, Mach.rdetSlot, hk, OpKind.targets, Option.toList_none, List.map_nil, List.append_nil]
  have hstale : Cause.staleHandle.code = 19 := rfl
  refine exec_operationComplete_nowhere ho ha (by rw [hk]; rfl) hts ?_
  simp only [State.perform, hk, hgone, State.updM, Mach.completeSpawnR, hr, hl, hstale, Option.map_some, Option.getD_some,
    Bool.or_eq_true, decide_eq_true_eq, hm, Bool.false_eq_true, if_false]

/-- A future operation that waits for no answer acts on its cell where no home holds it back. -/
theorem Mach.cellNow_acts {m : Mach} {c : CellOp} {pa : Nat} (hc : m.cellFor c.asid c.va = (some pa, m))
    (hw : m.placeWaits true (.dev pa) = false) (hact : ∀ p f v, c.act ≠ .answer p f v) : m.cellNow c = some (m.actOn pa c) := by
  unfold Mach.cellNow
  rcases ha : c.act with _ | _ | ⟨p, f, v⟩
  · simp only [hc, hw, Bool.false_eq_true, if_false]
  · simp only [hc, hw, Bool.false_eq_true, if_false]
  · exact absurd ha (hact p f v)

/-- The spawn of a cell's task is taken by a module (R142): CFLAGS.REMOTE. -/
theorem Mach.actOn_remote {m : Mach} {c : CellOp} {pa p : Nat} (hc : c.act = .remote p) (hup : m.conn p ≠ .down) :
    (∀ a, Memory.read (m.actOn pa c).mem a = if a = pa + 9 then Memory.read m.mem a ||| 1 else Memory.read m.mem a) ∧
    (m.actOn pa c).teams = m.teams ∧ (m.actOn pa c).frames = m.frames := by
  have hb := m.homeWrite_bytes (pa + 9) [Memory.read m.mem (pa + 9) ||| 1]
  have hconn : (m.homeWrite (pa + 9) [Memory.read m.mem (pa + 9) ||| 1]).conn p ≠ .down := by
    unfold Mach.conn
    rw [show (m.homeWrite (pa + 9) [Memory.read m.mem (pa + 9) ||| 1]).peers = m.peers from congrArg (·.peers) hb]
    exact hup
  unfold Mach.actOn
  simp only [hc, hconn, if_false]
  refine ⟨fun a => ?_, hb.teams, hb.frames⟩
  rw [(m.homeWrite_spec _ _).1, Memory.read_writeN]
  by_cases h : a = pa + 9
  · subst h
    simp
  · simp only [h, if_false]
    exact if_neg (by simp only [List.length_singleton]; omega)

end Sys2Proof.Machine
end

section
open Sys2Proof Sys2Proof.Machine

/-- Settles O26: the equation of `spawn`, whose answer is the code of the launch and the team as they stand. -/
theorem spawnQueuesTask : Obligations.SpawnQueuesTask := by
  unfold Obligations.SpawnQueuesTask
  intro s ct d a c k l tm i act h ha hl htm hdesc hfut hrel
  exact exec_spawn h ha hl htm hdesc hfut hrel

/-- Settles O27: the equation of each operation as it issues, and what its completion leaves of cells, scopes and registers. -/
theorem taskOperationsGoUnderWay : Obligations.TaskOperationsGoUnderWay := by
  unfold Obligations.TaskOperationsGoUnderWay
  refine ⟨?_, ?_, ?_, ?_, ?_, ?_⟩
  · intro s ct d a b c k i act h peer hi hdesc hres hhi hdev hdown habsent hfut hrel
    exact ⟨exec_spawnR hi hdesc hres hhi hdev hdown habsent hfut hrel,
      .underWay ((Still.taskRead ..).trans (.of_eq rfl rfl rfl rfl rfl rfl rfl))⟩
  · intro s ct d a b c pa i act hi hjoin hrel
    exact ⟨exec_resolve hi hjoin hrel, .underWay (.send ..)⟩
  · intro s ct d a b c i lane hi
    exact ⟨exec_finOpen hi, .underWay (.refl _)⟩
  · intro s n o sv pa d v ho hk hgone hdead hserved ha hgate hback hpoison
    exact exec_resolve_completes ho hk hgone hdead hserved ha hgate hback hpoison
  · intro s n o sv sc p d t l ho hk hgone hdead ha ht hl opens
    have hok (ok : Bool) (h : ok = decide opens) : ok = true ↔ l.Opens sc p := by rw [h]; exact decide_eq_true_iff
    have hands (ok : Bool) (h : ok = decide opens) := And.intro
      (finOpen_completes (sv := sv) ho hk hgone hdead ha ht hl (hok ok h))
      fun u (hu : exec (.operationComplete n sv) s = .next u) x => exec_finOpen_scope ho hk hgone ha ht hl (hok ok h) hu x
    by_cases h : opens
    · simpa only [h, if_true, not_true, if_false, Bool.true_eq_false] using hands true (by simp [h])
    · simpa only [h, if_true, not_false_eq_true, if_false, Bool.false_eq_true] using hands false (by simp [h])
  · intro s n o sv k peer d pa bs t l ho hk hgone hdead ha hr ht hl hcell hw code ws faulted
    have hl' : s.m.launchOf o.team = some l := by rw [Mach.launchOf_eq ht, hl]
    refine ⟨fun h => ?_, fun hf hc hup => ?_, fun hf hc => ?_⟩
    · exact .of_landRegs (exec_spawnR_completes ho hk hgone ha hr hl' (if_pos h)) hdead (fun _ => rfl) rfl rfl
    · obtain ⟨h1, h2, h3⟩ := Mach.actOn_remote (c := ⟨l.asid, k.future.toNat, .remote peer⟩) (pa := pa) rfl hup
      refine .of_landRegs (exec_spawnR_completes ho hk hgone ha hr hl' ?_) hdead h1 h2 h3
      rw [if_neg (not_or.mpr ⟨hf, by omega⟩), if_pos hc]
      exact Mach.cellNow_acts hcell hw fun _ _ _ => by simp
    · have hb := s.m.resolveCell_bytes pa 2 (faultValue 19 0)
      refine .of_landRegs (exec_spawnR_completes ho hk hgone ha hr hl' ?_) hdead (s.m.read_resolveCell pa 2 _) hb.teams hb.frames
      rw [if_neg (not_or.mpr ⟨hf, by omega⟩), if_neg (by omega)]
      exact Mach.cellNow_acts hcell hw fun _ _ _ => by simp

end

section
/-! ## Joins (R366): an issue that fails its check, and what a join reads of its cell -/

namespace Sys2Proof.Machine

theorem Issues.to {s : State} {i : Instr} {c : Issue} (h : Issues s i c) : IssuesTo s i c c.p.lanes :=
  ⟨h.path, h.legal, h.next, h.idle⟩

/-- An instruction that raises the fault its own check finds. -/
theorem State.issue_faults {s : State} {i : Instr} {c : Issue} {stay : Issue → Lanes → Lanes} {chk : Issue → Lanes → Chk}
    {eff : Issue → Lanes → Mach → Flow × Mach} {f : Mach → Mach} (hf : f s.m = s.m.issue i stay chk eff) (h : Issues s i c)
    (ha : c.active i ≠ 0) {x : Fail} (hc : chk c (c.active i) = .fail x) : s.on f = .next (s.faults c x) := by
  have hlegal := h.legal
  unfold Issue.active at ha hc hlegal
  simp only [State.on, hf, Mach.issue, h.path, hlegal, ha, if_false, hc]
  rfl

theorem Mach.cellState_of_mem {m n : Mach} (h : n.mem = m.mem) (pa : Nat) : n.cellState pa = m.cellState pa := by
  rw [Mach.cellState, Mach.cellState, h]

theorem Mach.cellValue_of_mem {m n : Mach} (h : n.mem = m.mem) (pa : Nat) : n.cellValue pa = m.cellValue pa := by
  simp only [Mach.cellValue, Mach.read64, h]

theorem Mach.poisoned_dev_of_eq {m n : Mach} (h : n.poison = m.poison) (pa k : Nat) :
    n.poisoned (.dev pa) k = m.poisoned (.dev pa) k := by
  simp only [Mach.poisoned, h]

theorem traps_eq_false {trapping : Bool} {st : Nat} (h : trapping = true → st < 2) : (trapping && decide (2 ≤ st)) = false := by
  cases trapping
  · rfl
  · simpa using h rfl

section Joins
variable {s : State} {i : Instr} {c : Issue} {trapping : Bool} {d a : Reg} {pa : Nat}
  (hi : Issues s i c) (ha : c.active i ≠ 0)
  (hc : s.m.joinChk c (c.active i) (c.f.pair a.toNat (lowLane (c.active i))).toNat false = .ok pa)
  (hh : s.m.joinHeld c pa = false)
include hi ha hc hh

theorem joinOp_traps (htr : trapping = true) (hst : 2 ≤ s.m.cellState pa) :
    s.on (fun m => m.joinOp i trapping d a) = .next (s.faults c
      { cause := .futureFaulted, oppos := 2, lanes := c.active i,
        addr := .ofNat 64 (c.f.pair a.toNat (lowLane (c.active i))).toNat }) := by
  refine State.issue_faults rfl hi ha ?_
  simp only [joinAddr, hc, hh, htr, hst, Bool.true_and, decide_true, Bool.false_eq_true, if_false, if_true]

theorem joinOp_reads (hst : trapping = true → s.m.cellState pa < 2) (hp : s.m.poisoned (.dev pa) 16 = false)
    (h0 : s.m.cellState pa ≠ 0) :
    s.on (fun m => m.joinOp i trapping d a) = .next (s.goesOn c i
      ((((s.start c i).dropCopies c.core [lineOf pa]).writeJoin c.p.frame (c.active i)
        (joinRegs trapping d.toNat (s.m.cellState pa) (s.m.cellValue pa))).acquire c.core .dv)) := by
  have hmem : ((s.start c i).dropCopies c.core [lineOf pa]).mem = s.m.mem := s.m.mem_issuedWith c i
  have hpois : (s.start c i).poisoned (.dev pa) 16 = false :=
    (Mach.poisoned_dev_of_eq (s.m.poison_issuedWith c i) _ _).trans hp
  refine State.issue_splits rfl hi.to (fun _ => ?_) ?_
  · simp only [joinAddr, hc, hh, traps_eq_false hst, Bool.false_eq_true, if_false]
  · simp only [ha, if_false, joinAddr, hc, hpois, Mach.consume, Bool.false_eq_true, Mach.cellState_of_mem hmem,
      Mach.cellValue_of_mem hmem, h0]

theorem joinOp_waits (hst : trapping = true → s.m.cellState pa < 2) (hp : s.m.poisoned (.dev pa) 16 = false)
    (h0 : s.m.cellState pa = 0) :
    s.on (fun m => m.joinOp i trapping d a) = .next (s.stops c (.waiting (.join pa
      (.ofNat 64 (c.f.pair a.toNat (lowLane (c.active i))).toNat) trapping d.toNat (c.active i)))
      (((s.start c i).dropCopies c.core [lineOf pa]).addWaiter pa)) := by
  have hmem : ((s.start c i).dropCopies c.core [lineOf pa]).mem = s.m.mem := s.m.mem_issuedWith c i
  have hpois : (s.start c i).poisoned (.dev pa) 16 = false :=
    (Mach.poisoned_dev_of_eq (s.m.poison_issuedWith c i) _ _).trans hp
  refine State.issue_stops rfl hi.to (fun _ => ?_) ?_
  · simp only [joinAddr, hc, hh, traps_eq_false hst, Bool.false_eq_true, if_false]
  · simp only [ha, if_false, joinAddr, hc, hpois, Mach.consume, Bool.false_eq_true, Mach.cellState_of_mem hmem, h0, if_true]

end Joins

end Sys2Proof.Machine
end

section
open Sys2Proof Sys2Proof.Machine

/-- Settles O28: `join` and `join.t` are one operation, whose four outcomes each have their lemma. -/
theorem joinsReadOrWait : Obligations.JoinsReadOrWait := by
  unfold Obligations.JoinsReadOrWait
  intro s ct trapping d a c pa i act va st v hi ha hc hh
  have hexec : exec i s = s.on fun m => m.joinOp i trapping d a := by cases trapping <;> rfl
  rw [hexec]
  exact ⟨fun htr hst => joinOp_traps hi ha hc hh htr hst, fun hp hst => ⟨joinOp_reads hi ha hc hh hst hp,
    joinOp_waits hi ha hc hh hst hp⟩⟩

end

section
/-! ## Ends of tasks, finish scopes and `capq` (R368-R370)

`capValue` reads the same before and after an issue, and the largest run it finds in a staging pool is the largest there is. -/

namespace Sys2Proof.Machine

theorem Sparse.filterMap_upd {α β : Type} {f : α → α} {g : Nat × α → Option β} (h : ∀ j x, g (j, f x) = g (j, x)) (t : Sparse α)
    (k : Nat) : (t.upd k f).filterMap g = t.filterMap g := by
  induction t with
  | nil => rfl
  | cons e t ih =>
    simp only [Sparse.upd]
    split <;> simp only [List.filterMap_cons, h, ih]

theorem Sparse.countP_upd {α : Type} {f : α → α} {p : Nat × α → Bool} (h : ∀ j x, p (j, f x) = p (j, x)) (t : Sparse α)
    (k : Nat) : (t.upd k f).countP p = t.countP p := by
  induction t with
  | nil => rfl
  | cons e t ih =>
    simp only [Sparse.upd]
    split <;> simp only [List.countP_cons, h, ih]

theorem Mach.tasks_issuedWith (m : Mach) (c : Issue) (i : Instr) : (m.issuedWith c i).tasks =
    (m.tasks.upd c.t fun k => { k with watch := 0, lastIssue := m.serial }).upd c.t
      fun k => { k with latch := latchAfter c.f c.p k.latch (Instr.shape i) } := by
  simp only [Mach.issuedWith, Mach.latched, Mach.updTask_tasks, Mach.issued_tasks]

theorem Mach.warps_issuedWith (m : Mach) (c : Issue) (i : Instr) : (m.issuedWith c i).warps =
    m.warps.upd (warpKey c.tk c.w) fun x => { x with lastIssue := m.serial } := by
  simp only [Mach.issuedWith, Mach.issued, Mach.latched, Mach.tookCycle, Mach.spendCycle, Mach.updTask_warps, Mach.updCore_warps]
  rfl

theorem Mach.heldUnits_issuedWith (m : Mach) (c : Issue) (i : Instr) (tk : Nat) :
    (m.issuedWith c i).heldUnits tk = m.heldUnits tk := by
  simp only [Mach.heldUnits, Mach.tasksOf, List.filterMap_filter, Mach.tasks_issuedWith]
  rw [Sparse.filterMap_upd, Sparse.filterMap_upd] <;> intros <;> rfl

theorem Mach.idleWarps_issuedWith (m : Mach) (c : Issue) (i : Instr) (tk : Nat) :
    ((m.issuedWith c i).warpsOf tk).countP (fun w => w.2.st = .idle) = (m.warpsOf tk).countP fun w => w.2.st = .idle := by
  simp only [Mach.warpsOf, List.countP_map, List.countP_filter, Mach.warps_issuedWith]
  rw [Sparse.countP_upd]
  intros
  rfl

theorem Mach.teamOf_issuedWith (m : Mach) (c : Issue) (i : Instr) (t tk : Nat) :
    ((m.issuedWith c i).tasks.get? t).any (fun k => k.team = tk) = (m.tasks.get? t).any fun k => k.team = tk := by
  simp only [Mach.tasks_issuedWith, Sparse.get?_upd]
  split_ifs <;> cases m.tasks.get? t <;> rfl

theorem Mach.granulesUsed_issuedWith (m : Mach) (c : Issue) (i : Instr) (tk : Nat) :
    (m.issuedWith c i).granulesUsed tk = m.granulesUsed tk := by
  simp only [Mach.granulesUsed, Mach.teamOf_issuedWith, Mach.frames_issuedWith]

theorem Mach.launchOf_issuedWith (m : Mach) (c : Issue) (i : Instr) (tk : Nat) :
    (m.issuedWith c i).launchOf tk = m.launchOf tk := by
  simp only [Mach.launchOf, Mach.team?, Mach.teams_issuedWith, Mach.launches_issuedWith]

/-- What `capq` reads does not change as it issues. -/
theorem Mach.capValue_issuedWith (m : Mach) (c : Issue) (i : Instr) (tk sel : Nat) :
    (m.issuedWith c i).capValue tk sel = m.capValue tk sel := by
  simp only [Mach.capValue, Mach.team?, Mach.teams_issuedWith, Mach.launchOf_issuedWith, Mach.granulesCharge,
    Mach.granulesUsed_issuedWith, Mach.heldUnits_issuedWith, Mach.poolUnits, ← List.countP_eq_length_filter,
    Mach.idleWarps_issuedWith, Mach.idleCount, Mach.clock_issuedWith]

theorem le_foldl_max {l : List Nat} {a k : Nat} : k ≤ l.foldl max a ↔ k ≤ a ∨ ∃ x ∈ l, k ≤ x := by
  induction l generalizing a with
  | nil => simp
  | cons x l ih => simp [ih, or_assoc]

/-- How far a run from u may reach: to hi, and to no range that begins at u or after. -/
theorem le_foldl_starts {held : List (Nat × Nat)} {hi u k : Nat} :
    k ≤ held.foldl (fun e h => if u ≤ h.1 then min e h.1 else e) hi ↔ k ≤ hi ∧ ∀ h ∈ held, u ≤ h.1 → k ≤ h.1 := by
  induction held generalizing hi with
  | nil => simp
  | cons h t ih =>
    rw [List.foldl_cons, ih, List.forall_mem_cons, ← and_assoc]
    split_ifs with hu <;> simp [hu]

/-- k units from u on are free below hi. -/
def RunFits (held : List (Nat × Nat)) (hi u k : Nat) : Prop := u + k ≤ hi ∧ ∀ h ∈ held, ¬(h.1 < u + k ∧ u < h.1 + h.2)

theorem le_runAt_iff {held : List (Nat × Nat)} {hi u k : Nat} (hpos : ∀ h ∈ held, 0 < h.2) (hk : 0 < k) :
    k ≤ runAt held hi u ↔ RunFits held hi u k := by
  unfold runAt RunFits
  split
  · next hin =>
    obtain ⟨h, hh, hu⟩ := List.any_eq_true.mp hin
    simp only [Bool.and_eq_true, decide_eq_true_eq] at hu
    exact iff_of_false (by omega) fun hfit => hfit.2 h hh ⟨by omega, hu.2⟩
  · next hout =>
    have hout' : ∀ h ∈ held, ¬(h.1 ≤ u ∧ u < h.1 + h.2) := by simpa using hout
    have hsub (e : Nat) : k ≤ e - u ↔ u + k ≤ e := by omega
    rw [hsub, le_foldl_starts]
    refine and_congr_right fun _ => forall₂_congr fun h hh => ?_
    have h1 := hout' h hh
    have h2 := hpos h hh
    omega

/-- A run that fits can be moved down to the start of the pool or the end of a held range. -/
theorem RunFits.down {held : List (Nat × Nat)} {lo hi u k : Nat} (hlo : lo ≤ u) (h : RunFits held hi u k) :
    ∃ v ∈ lo :: held.map (fun h => h.1 + h.2), RunFits held hi v k := by
  induction u, hlo using Nat.le_induction with
  | base => exact ⟨lo, by simp, h⟩
  | succ u hlo ih =>
    by_cases hend : ∃ h ∈ held, h.1 + h.2 = u + 1
    · obtain ⟨x, hx, he⟩ := hend
      exact ⟨u + 1, by rw [← he]; exact List.mem_cons_of_mem _ (List.mem_map_of_mem hx), h⟩
    · refine ih ⟨by have := h.1; omega, fun x hx hmeet => h.2 x hx ⟨by omega, ?_⟩⟩
      have : x.1 + x.2 ≠ u + 1 := fun e => hend ⟨x, hx, e⟩
      omega

theorem le_largestRun_iff {held : List (Nat × Nat)} {lo hi k : Nat} (hheld : ∀ h ∈ held, lo ≤ h.1 ∧ 0 < h.2) (hk : 0 < k) :
    k ≤ largestRun held lo hi ↔ ∃ u, lo ≤ u ∧ RunFits held hi u k := by
  have hpos : ∀ h ∈ held, 0 < h.2 := fun h hh => (hheld h hh).2
  have hstart : ∀ v ∈ lo :: held.map (fun h => h.1 + h.2), lo ≤ v := by
    simp only [List.forall_mem_cons, List.forall_mem_map]
    exact ⟨le_refl _, fun h hh => by have := hheld h hh; omega⟩
  simp only [largestRun, le_foldl_max, List.mem_map (f := fun u => runAt held hi u), exists_exists_and_eq_and,
    le_runAt_iff hpos hk]
  constructor
  · rintro (h | ⟨v, hv, hfit⟩)
    · omega
    · exact ⟨v, hstart v hv, hfit⟩
  · rintro ⟨u, hlo, hfit⟩
    exact .inr (hfit.down hlo)

theorem Mach.granulesUsed_eq_sum (m : Mach) (tk : Nat) : m.granulesUsed tk = ((m.frames.filter fun f => f.2.spilled.isNone &&
    (m.tasks.get? f.2.task).any fun k => k.team = tk).map fun f => f.2.demand / 8).sum := by
  rw [Mach.granulesUsed, List.sum_eq_foldl, List.foldl_map]
  rfl

/-- The largest run of a pool whose held ranges lie in it and are not empty is one that fits, and none that fits is larger. -/
theorem largestRun_is {held : List (Nat × Nat)} {lo hi : Nat} (hheld : ∀ h ∈ held, lo ≤ h.1 ∧ 0 < h.2) :
    (largestRun held lo hi = 0 ∨ ∃ u, lo ≤ u ∧ RunFits held hi u (largestRun held lo hi)) ∧
    ∀ k, (k = 0 ∨ ∃ u, lo ≤ u ∧ RunFits held hi u k) → k ≤ largestRun held lo hi := by
  refine ⟨?_, fun k hk => ?_⟩
  · rcases Nat.eq_zero_or_pos (largestRun held lo hi) with h | h
    · exact .inl h
    · exact .inr ((le_largestRun_iff hheld h).mp (le_refl _))
  · rcases Nat.eq_zero_or_pos k with h | h
    · omega
    · exact (le_largestRun_iff hheld h).mpr (hk.resolve_left (by omega))

/-- What `capq` reports is the quantity it selects. -/
theorem Mach.capValue_is {m : Mach} {tk : Nat} {t : Team} {l : Launch} (ht : m.team? tk = some t)
    (hl : m.launches.get? t.launch = some l) (sel : Nat) : CapacityIs m tk t l (m.capValue tk sel) sel := by
  have hlt : m.launchOf tk = some l := (Mach.launchOf_eq ht).trans hl
  unfold Mach.capValue
  simp only [ht, hlt]
  match sel with
  | 0 => simp only [CapacityIs, Team.slotsUsed]
  | 1 => simp only [CapacityIs, Mach.granulesCharge, hlt, Mach.granulesUsed_eq_sum, Launch.scale, Option.map_some,
    Option.getD_some]
  | 2 =>
    simp only [CapacityIs, Mach.poolUnits, hlt]
    exact fun hheld => largestRun_is hheld
  | 3 => simp only [CapacityIs, List.sum_eq_foldl, List.foldl_map]
  | 4 => simp only [CapacityIs, List.countP_eq_length_filter]
  | 5 => simp only [CapacityIs]
  | _ + 6 => simp only [CapacityIs, Mach.idleCount]

theorem exec_capq {s : State} {ct : Ctl} {sel : BitVec 4} {d : Reg} {c : Issue} :
    let i : Instr := .capq ct sel d
    Issues s i c → c.active i ≠ 0 →
    exec i s = .next (s.goesOn c i ((s.start c i).updFrame c.p.frame fun f =>
      f.setLanes d.toNat (laneList (c.active i)) fun _ => .ofNat 32 (s.m.capValue c.tk sel.toNat))) := by
  intro i hi ha
  rw [← s.m.capValue_issuedWith c i]
  exact (State.act_goesOn (f := fun m => _) rfl hi ha rfl : execCapq ct sel d s = _)

/-- The value `task.end` names. -/
def endValue (c : Issue) (act : Lanes) : Option Reg → DWord
  | some r => c.f.pair r.toNat (lowLane act)
  | none => 0

theorem exec_taskEnd {s : State} {ct : Ctl} {v : Option Reg} {c : Issue} :
    let i : Instr := .taskEnd ct v
    let act := c.active i
    IssuesTo s i c 0 → act ≠ 0 → s.m.ackChk c act .dv = .ok →
    exec i s = .next { s with m := ((s.start c i).finishTask c (endValue c act v)).settle c.tk c.w } := by
  intro i act hi ha hack
  refine (State.issue_gone (f := fun m => _) rfl ?_ (fun _ => hack) ?_ : execTaskEnd ct v s = _)
  · exact (congrArg (IssuesTo s i c) (if_neg ha)).mpr hi
  · cases v <;> exact if_neg ha

theorem exec_finClose {s : State} {ct : Ctl} {sc : FsRef} {c : Issue} :
    let i : Instr := .finClose ct sc
    let n := finScope c (c.active i) sc
    Issues s i c → c.active i ≠ 0 →
    exec i s = .next (s.goesOn c i (((s.start c i).updLaunch c.launch fun l =>
      if n ≠ 0 ∧ (l.scope n).st = .opened then
        { l with scopes := l.scopes.put n { l.scope n with st := .closing } }.settleScope 256 n
      else l).wakeScopes c.launch)) := by
  intro i n hi ha
  refine (State.act_goesOn (f := fun m => _) rfl hi ha rfl : execFinClose ct sc s = _).trans ?_
  simp only [Bool.and_eq_true, decide_eq_true_eq]
  rfl

section FinWait
variable {s : State} {ct : Ctl} {sc : FsRef} {c : Issue} {l : Launch}
  (hi : Issues s (.finWait ct sc) c) (ha : c.active (.finWait ct sc) ≠ 0) (hl : s.m.launches.get? c.launch = some l)
include hi ha hl

theorem exec_finWait_goesOn (hq : l.quiet (finScope c (c.active (.finWait ct sc)) sc) = true) :
    exec (.finWait ct sc) s = .next (s.goesOn c (.finWait ct sc) ((s.start c (.finWait ct sc)).acquire c.core .dv)) := by
  have hl' : (s.start c (.finWait ct sc)).launches.get? c.launch = some l := by rw [State.start, Mach.launches_issuedWith, hl]
  refine (State.issue_splits (f := fun m => _) rfl hi.to (fun _ => rfl) ?_ : execFinWait ct sc s = _)
  simp only [ha, if_false, hl', Option.any_some, hq, if_true]

theorem exec_finWait_waits (hq : l.quiet (finScope c (c.active (.finWait ct sc)) sc) = false) :
    exec (.finWait ct sc) s = .next (s.stops c (.waiting (.fin (finScope c (c.active (.finWait ct sc)) sc)))
      (s.start c (.finWait ct sc))) := by
  have hl' : (s.start c (.finWait ct sc)).launches.get? c.launch = some l := by rw [State.start, Mach.launches_issuedWith, hl]
  refine (State.issue_stops (f := fun m => _) rfl hi.to (fun _ => rfl) ?_ : execFinWait ct sc s = _)
  simp only [ha, if_false, hl', Option.any_some, hq, Bool.false_eq_true]

end FinWait

end Sys2Proof.Machine
end

section
open Sys2Proof Sys2Proof.Machine

/-- Settles O29: the equation of each instruction, and what `capq` reports shown to be the quantity it selects. -/
theorem taskEndScopesAndCapacity : Obligations.TaskEndScopesAndCapacity := by
  unfold Obligations.TaskEndScopesAndCapacity
  refine ⟨?_, ?_, ?_, ?_⟩
  · intro s ct v c i act hi ha hack value
    cases v <;> exact exec_taskEnd hi ha hack
  · intro s ct sc c i n hi ha
    exact exec_finClose hi ha
  · intro s ct sc c l i n hi ha hl t
    have hquiet : l.quiet n = true ↔ (l.scope n).st = .free ∨ ((l.scope n).st = .opened ∧ (l.scope n).count = 0) := by
      simp [Launch.quiet]
    by_cases hq : l.quiet n = true
    · simp only [t, if_pos (hquiet.mp hq)]
      exact ⟨exec_finWait_goesOn hi ha hl hq, .goesOn (.acquire ..)⟩
    · simp only [t, if_neg (hquiet.not.mp hq)]
      exact ⟨exec_finWait_waits hi ha hl (by simpa using hq), .stops _ (.refl _)⟩
  · intro s ct sel d c t l i hi ha ht hl
    exact ⟨_, Mach.capValue_is ht hl sel.toNat, exec_capq hi ha⟩

end

section
/-! ## Local stores: what an instruction's accesses to them leave

A machine whose tasks hold the staging buffers they held, and whose teams run the launches they ran, has no more stray places
(R120). A write to a local store is a change of its team. -/

namespace Sys2Proof.Machine

/-- A byte of a team's local store. -/
def Mach.lsByte (m : Mach) (k x : Nat) : Byte := ((m.team? k).map fun t => Memory.read t.ls x).getD 0

theorem State.lsByte_eq (s : State) (k x : Nat) : s.lsByte k x = s.m.lsByte k x := rfl

theorem Still.lsByte {m n : Mach} (h : Still m n) (k x : Nat) : n.lsByte k x = m.lsByte k x := by
  have e := congrArg (fun o : Option (List Host.Cell) => (o.map fun l => Memory.read l x).getD 0) (h.ls k)
  simpa only [Option.map_map, Function.comp_def, Mach.lsByte] using e

/-- A frame with the registers it had reads as it read. -/
theorem State.reg_of_regs {s t : State} {fr : Nat} (h : (t.m.frames.get? fr).map (·.regs) = (s.m.frames.get? fr).map (·.regs))
    (k n : Nat) : t.reg fr k n = s.reg fr k n := by
  have e := congrArg (fun o : Option (Sparse Word) => (o.map fun r => Sparse.getD r (32 * k + n) 0).getD 0) h
  simpa [State.reg, Frame.reg, Option.map_map, Function.comp_def] using e

theorem Mach.lsByte_updTeam_of_ls (m : Mach) (tk : Nat) (f : Team → Team) (hf : ∀ t, (f t).ls = t.ls) (k x : Nat) :
    (m.updTeam tk f).lsByte k x = m.lsByte k x := by
  simp only [Mach.lsByte, Mach.updTeam, Mach.team?, Sparse.get?_upd]
  split_ifs <;> simp [hf, Function.comp_def]

/-- A change of a team that writes bytes of its local store changes those bytes alone. -/
theorem Mach.lsByte_updTeam (m : Mach) (tk : Nat) (f : Team → Team) {off : Nat} {bs : List Byte}
    (hf : ∀ t, (f t).ls = Memory.writeN t.ls off bs) (k x : Nat) : (m.updTeam tk f).lsByte k x =
      if k = tk ∧ off ≤ x ∧ x < off + bs.length then ((m.team? k).map fun _ => bs.getD (x - off) 0).getD 0 else m.lsByte k x := by
  simp only [Mach.lsByte, Mach.updTeam, Mach.team?, Sparse.get?_upd]
  by_cases hk : k = tk
  · simp only [hk, if_true, true_and, Option.map_map, Function.comp_def, hf, Memory.read_writeN]
    split_ifs <;> rfl
  · simp only [hk, if_false, false_and]

theorem Mach.lsByte_movePoison (m : Mach) (tk off n : Nat) (bad : Bool) (k x : Nat) :
    (m.movePoison (.ls tk off) n bad).lsByte k x = m.lsByte k x := by
  unfold Mach.movePoison
  extract_lets step
  dsimp only
  split
  · rfl
  · rw [Mach.lsByte_updTeam_of_ls]
    exact fun _ => rfl

/-- A write to a local store changes the bytes it names alone. -/
theorem Mach.lsByte_placeWrite_ls (m : Mach) (tk off : Nat) (bs : List Byte) (k x : Nat)
    (hx : ¬(k = tk ∧ off ≤ x ∧ x < off + bs.length)) : (m.placeWrite (.ls tk off) bs).lsByte k x = m.lsByte k x :=
  calc ((m.lsWrite tk off bs).movePoison (.ls tk off) bs.length false).lsByte k x
      = (m.lsWrite tk off bs).lsByte k x := Mach.lsByte_movePoison ..
    _ = m.lsByte k x := by rw [Mach.lsWrite, Mach.lsByte_updTeam _ _ _ fun _ => rfl, if_neg hx]

/-- The tasks of n hold the buffers they held in m, and its teams run the launches they ran. -/
structure Mach.SamePools (m n : Mach) : Prop where
  tasks : ∀ t x, n.tasks.get? t = some x → ∃ y, m.tasks.get? t = some y ∧ x.team = y.team ∧ x.buf = y.buf
  launches : ∀ k, n.launchOf k = m.launchOf k

namespace Mach.SamePools
variable {a b c m n : Mach}

theorem of_tables (h : m.SameTables n) : m.SamePools n :=
  ⟨fun t x hx => ⟨x, h.tasks ▸ hx, rfl, rfl⟩,
    fun k => by rw [Mach.launchOf, Mach.launchOf, Mach.team?, Mach.team?, h.teams, h.launches]⟩

theorem of_eq (h : n.teams = m.teams) (g : n.tasks = m.tasks) (l : n.launches = m.launches) : m.SamePools n := of_tables ⟨h, g, l⟩

theorem refl (m : Mach) : m.SamePools m := of_eq rfl rfl rfl

theorem trans (h : a.SamePools b) (g : b.SamePools c) : a.SamePools c := by
  refine ⟨fun t x hx => ?_, fun k => (g.launches k).trans (h.launches k)⟩
  obtain ⟨y, hy, h1, h2⟩ := g.tasks t x hx
  obtain ⟨z, hz, h3, h4⟩ := h.tasks t y hy
  exact ⟨z, hz, h1.trans h3, h2.trans h4⟩

theorem foldl {α : Type} {f : Mach → α → Mach} (hf : ∀ m x, SamePools m (f m x)) (l : List α) (m : Mach) :
    m.SamePools (l.foldl f m) := by
  induction l generalizing m with
  | nil => exact refl m
  | cons x l ih => exact (hf m x).trans (ih _)

theorem updTask (m : Mach) (t : Nat) (f : Task → Task) (hf : ∀ k, (f k).team = k.team ∧ (f k).buf = k.buf) :
    m.SamePools (m.updTask t f) := by
  refine ⟨fun k x hx => ?_, fun _ => rfl⟩
  simp only [Mach.updTask, Sparse.get?_upd] at hx
  split_ifs at hx
  · obtain ⟨y, hy, rfl⟩ := Option.map_eq_some_iff.mp hx
    exact ⟨y, hy, hf y⟩
  · exact ⟨x, hx, rfl, rfl⟩

theorem putTask {t : Nat} {k k' : Task} (hk : m.tasks.get? t = some k) (h1 : k'.team = k.team) (h2 : k'.buf = k.buf) :
    m.SamePools { m with tasks := m.tasks.put t k' } := by
  refine ⟨fun j x hx => ?_, fun _ => rfl⟩
  simp only [Sparse.get?_put] at hx
  split_ifs at hx with h
  · subst h
    cases hx
    exact ⟨k, hk, h1, h2⟩
  · exact ⟨x, hx, rfl, rfl⟩

theorem delTask (m : Mach) (t : Nat) : m.SamePools { m with tasks := m.tasks.del t } := by
  refine ⟨fun j x hx => ?_, fun _ => rfl⟩
  simp only [Sparse.get?_del] at hx
  split_ifs at hx
  exact ⟨x, hx, rfl, rfl⟩

theorem updTeam (m : Mach) (tk : Nat) (f : Team → Team) (hf : ∀ t, (f t).launch = t.launch) : m.SamePools (m.updTeam tk f) :=
  ⟨fun _ x hx => ⟨x, hx, rfl, rfl⟩, fun k => m.launchOf_updTeam hf tk k⟩

theorem tookCycle (m : Mach) (c : Issue) : m.SamePools (m.tookCycle c) := of_eq rfl rfl rfl

theorem issuedWith (m : Mach) (c : Issue) (i : Instr) : m.SamePools (m.issuedWith c i) := by
  have h1 := updTask m c.t (fun k => { k with watch := 0, lastIssue := m.serial }) fun _ => ⟨rfl, rfl⟩
  exact (h1.trans (tookCycle _ c)).trans (updTask _ _ _ fun _ => ⟨rfl, rfl⟩)

theorem settle (m : Mach) (tk w : Nat) : m.SamePools (m.settle tk w) := by
  unfold Mach.settle
  split
  · exact refl m
  split
  · exact of_eq rfl rfl rfl
  split
  · split
    · exact (of_eq rfl rfl rfl : m.SamePools (m.updWarp tk w _)).trans (delTask _ _)
    · exact refl m
  · split
    · exact of_eq rfl rfl rfl
    split
    · exact refl m
    split
    · split
      · extract_lets m1 m2 m3
        have h1 : m.SamePools m1 := updTask m _ _ fun _ => ⟨rfl, rfl⟩
        have h2 : m1.SamePools m2 := of_eq rfl rfl rfl
        have h3 : m2.SamePools m3 := updTeam m2 _ _ fun _ => rfl
        exact ((h1.trans h2).trans h3).trans (of_eq rfl rfl rfl)
      · exact refl m
    · exact of_eq rfl rfl rfl

theorem wakePaths (m : Mach) (t : Nat) (p : Path → Bool) (f : Path → Path) : m.SamePools (m.wakePaths t p f) := by
  unfold Mach.wakePaths
  split
  · exact refl m
  · next k hk =>
    split
    · extract_lets left k' m1
      split
      · have h1 : m.SamePools m1 := (putTask (k' := { k' with st := .resumable, order := m.serial }) hk rfl rfl).trans
          (of_eq rfl rfl rfl)
        exact h1.trans (updTeam m1 _ _ fun _ => rfl)
      · exact (putTask (k' := k') hk rfl rfl).trans (settle _ _ _)
      · exact putTask (k' := k') hk rfl rfl
    · exact refl m

theorem endWaits (m : Mach) (tk : Nat) (w : Wait → Bool) : m.SamePools (m.endWaits tk w) :=
  foldl (fun m _ => wakePaths m _ _ _) _ m

theorem acquire (m : Mach) (core : Nat) (sc : Scope) : m.SamePools (m.acquire core sc) := by
  unfold Mach.acquire
  split <;> exact of_eq rfl rfl rfl

theorem wakeCell (m : Mach) (tk off : Nat) : m.SamePools (m.wakeCell tk off) := by
  unfold Mach.wakeCell
  extract_lets gen ready deep m1
  have h1 : m.SamePools m1 := endWaits m tk ready
  split
  · exact h1.trans (acquire m1 _ _)
  · exact h1

theorem placeWrite_ls (m : Mach) (tk off : Nat) (bs : List Byte) : m.SamePools (m.placeWrite (.ls tk off) bs) := by
  have h1 : m.SamePools (m.lsWrite tk off bs) := updTeam m tk _ fun _ => rfl
  show m.SamePools ((m.lsWrite tk off bs).movePoison (.ls tk off) bs.length false)
  unfold Mach.movePoison
  extract_lets step
  dsimp only
  split
  · exact h1
  · exact h1.trans (updTeam _ tk _ fun _ => rfl)

/-- A place that is not stray in m is not in n. -/
theorem strayPool (h : m.SamePools n) {t : Nat} {p : Place} (hm : m.strayPool t p = false) : n.strayPool t p = false := by
  rcases p with pa | ⟨tk, off⟩
  · rfl
  · unfold Mach.strayPool at hm ⊢
    rcases hx : n.tasks.get? t with _ | x
    · rfl
    · obtain ⟨y, hy, h1, h2⟩ := h.tasks t x hx
      simpa only [hy, h.launches, h1, h2] using hm

theorem strayCell (h : m.SamePools n) {t tk off : Nat} (hm : m.strayCell t tk off = false) : n.strayCell t tk off = false :=
  List.any_eq_false.mpr fun i hi => by
    rw [h.strayPool (by simpa using List.any_eq_false.mp hm i hi)]
    decide

end Mach.SamePools

end Sys2Proof.Machine
end

section
/-! ## Byte barriers (R359-R361) -/

namespace Sys2Proof.Machine

/-- A cell in no foreign part of a pool, which operations on cells alone have written, is found as its bytes stand. -/
theorem Mach.asCell_eq_self {m : Mach} {tsk tk off : Nat} {tm : Team} (ht : m.team? tk = some tm) (hs : off / 16 ∉ tm.spoilt)
    (hc : m.strayCell tsk tk off = false) : m.asCell tsk tk off = m := by
  simp [Mach.asCell, hc, ht, hs]

theorem Mach.frames_placeWrite_ls (m : Mach) (tk off : Nat) (bs : List Byte) :
    (m.placeWrite (.ls tk off) bs).frames = m.frames := by
  show ((m.lsWrite tk off bs).movePoison (.ls tk off) bs.length false).frames = m.frames
  unfold Mach.movePoison
  extract_lets step
  dsimp only
  split <;> rfl

theorem Mach.frames_leaveCell (m : Mach) (t tk off : Nat) : (m.leaveCell t tk off).frames = m.frames := by
  unfold Mach.leaveCell
  split
  · exact Mach.frames_placeWrite_ls ..
  · rfl

theorem Still.wakeCell (m : Mach) (tk off : Nat) : Still m (m.wakeCell tk off) := by
  unfold Mach.wakeCell
  extract_lets gen ready deep m1
  have h1 : Still m m1 := .endWaits m tk ready
  split
  · exact h1.trans (.acquire m1 _ _)
  · exact h1

/-- test() of an armed cell (R361): the phase is over where PEND is zero or negative. -/
theorem cellTest_armed (pend gen : Word) : cellTest pend gen true =
    let done := decide (pend = 0) || pend.msb
    natBytes 4 pend.toNat ++ natBytes 4 (if done then gen + 1 else gen).toNat ++ [if done then 0 else 1] ++
      List.replicate 7 0 := by
  have hdone : (true && (pend.getMsbD 0 || decide (pend = 0))) = (decide (pend = 0) || pend.msb) := by
    rw [Bool.true_and, Bool.or_comm]
    rfl
  unfold cellTest
  simp only [hdone]
  cases decide (pend = 0) || pend.msb <;> rfl

/-- A cell zeroed: no operation has delivered into it since (R219, R361). -/
def Mach.zeroCell (m : Mach) (tk off : Nat) : Mach :=
  (m.updTeam tk fun t => { t with wideCells := t.wideCells.filter (· ≠ off) }).cellWrite tk off (List.replicate 16 0)

theorem Mach.SamePools.zeroCell (m : Mach) (tk off : Nat) : m.SamePools (m.zeroCell tk off) := by
  have h1 : m.SamePools (m.updTeam tk fun t => { t with wideCells := t.wideCells.filter (· ≠ off) }) :=
    .updTeam m tk _ fun _ => rfl
  exact h1.trans (.updTeam _ tk _ fun _ => rfl)

theorem Mach.lsByte_zeroCell (m : Mach) (tk off k x : Nat) :
    (m.zeroCell tk off).lsByte k x = if k = tk ∧ off ≤ x ∧ x < off + 16 then 0 else m.lsByte k x := by
  have hkeep : (m.updTeam tk fun t => { t with wideCells := t.wideCells.filter (· ≠ off) }).lsByte k x = m.lsByte k x := by
    rw [Mach.lsByte_updTeam_of_ls]
    exact fun _ => rfl
  rw [Mach.zeroCell, Mach.cellWrite, Mach.lsByte_updTeam _ _ _ fun _ => rfl, hkeep]
  refine if_congr Iff.rfl ?_ rfl
  rcases Mach.team? _ k with _ | y
  · rfl
  · simp only [Option.map_some, Option.getD_some, List.getD_eq_getElem?_getD, List.getElem?_replicate]
    split_ifs <;> rfl

/-- The machine `bb.init` leaves, from the one it acts on (R361). -/
def Mach.initCell (m : Mach) (t tk off : Nat) : Mach := ((m.zeroCell tk off).wakeCell tk off).leaveCell t tk off

theorem Mach.initCell_rest (m : Mach) (t tk off : Nat) : (∀ a, Memory.read (m.initCell t tk off).mem a = Memory.read m.mem a) ∧
    ∀ k, ((m.initCell t tk off).frames.get? k).map (·.regs) = (m.frames.get? k).map (·.regs) := by
  have hwake := Still.wakeCell (m.zeroCell tk off) tk off
  refine ⟨fun a => ((Mach.LocalOnly.leaveCell _ t tk off).mem a).trans (hwake.mem a), fun k => ?_⟩
  rw [Mach.initCell, Mach.frames_leaveCell]
  exact hwake.regs k

theorem Mach.lsByte_initCell {m : Mach} {t tk off : Nat} (hc : m.strayCell t tk off = false) (k x : Nat) :
    (m.initCell t tk off).lsByte k x = if k = tk ∧ off ≤ x ∧ x < off + 16 then 0 else m.lsByte k x := by
  have hstray := ((Mach.SamePools.zeroCell m tk off).trans (.wakeCell _ tk off)).strayCell hc
  have hleave : m.initCell t tk off = (m.zeroCell tk off).wakeCell tk off := by
    rw [Mach.initCell, Mach.leaveCell, hstray, if_neg (by decide)]
  rw [hleave, (Still.wakeCell _ tk off).lsByte, Mach.lsByte_zeroCell]

theorem exec_bbInit {s : State} {ct : Ctl} {a : Reg} {c : Issue} (hi : Issues s (.bbInit ct a) c)
    (ha : c.active (.bbInit ct a) ≠ 0)
    (hc : s.m.cellChk c (c.active (.bbInit ct a)) a none = .ok) : exec (.bbInit ct a) s = .next (s.goesOn c (.bbInit ct a)
      ((s.start c (.bbInit ct a)).initCell c.t c.tk (c.f.reg a.toNat (lowLane (c.active (.bbInit ct a)))).toNat)) :=
  (State.act_goesOn (f := fun _ => _) rfl hi ha hc : execBbInit ct a s = _)

/-- What an instruction leaves as its path goes on, of what it itself leaves. -/
theorem Still.goesOn (s : State) (c : Issue) (i : Instr) (m : Mach) : Still m (s.goesOn c i m).m :=
  (Still.goOn m _ _ _ _).trans (.settle _ _ _)

theorem initCell_goesOn (s : State) (c : Issue) (i : Instr) (off : Nat) :
    let t := s.goesOn c i ((s.start c i).initCell c.t c.tk off)
    (∀ x, t.byte x = s.byte x) ∧ (∀ fr r n, t.reg fr r n = s.reg fr r n) ∧
      (s.m.strayCell c.t c.tk off = false → ∀ k x, t.lsByte k x =
        if k = c.tk ∧ off ≤ x ∧ x < off + 16 then 0 else s.lsByte k x) := by
  intro t
  have hstart : Still s.m (s.start c i) := .issuedWith s.m c i
  have hgoes : Still ((s.start c i).initCell c.t c.tk off) t.m := .goesOn s c i _
  obtain ⟨hmem, hregs⟩ := (s.start c i).initCell_rest c.t c.tk off
  refine ⟨fun x => ((hgoes.mem x).trans (hmem x)).trans (hstart.mem x), fun fr r n => ?_, fun hs k x => ?_⟩
  · exact State.reg_of_regs (((hgoes.regs fr).trans (hregs fr)).trans (hstart.regs fr)) r n
  · have hs' : (s.start c i).strayCell c.t c.tk off = false := (Mach.SamePools.issuedWith s.m c i).strayCell hs
    rw [State.lsByte_eq, hgoes.lsByte, Mach.lsByte_initCell hs', hstart.lsByte]
    rfl

theorem exec_bbExp {s : State} {ct : Ctl} {a b d : Reg} {c : Issue} :
    let i : Instr := .bbExp ct d a b
    Issues s i c → c.active i ≠ 0 → s.m.cellChk c (c.active i) a none = .ok →
    let off := (c.f.reg a.toNat (lowLane (c.active i))).toNat
    let m := (s.start c i).asCell c.t c.tk off
    exec i s = .next (s.goesOn c i (((m.cellAdd c.tk off (c.f.reg b.toNat (lowLane (c.active i))) true).leaveCell c.t c.tk
      off).updFrame c.p.frame fun f => f.setLanes d.toNat (laneList (c.active i)) fun _ => m.cellGen c.tk off)) := by
  intro i hi ha hc off m
  exact (State.act_goesOn (f := fun m => _) rfl hi ha hc : execBbExp ct d a b s = _)

section BbWait
variable {s : State} {ct : Ctl} {a b : Reg} {sc : Scope} {c : Issue} (hi : Issues s (.bbWait ct sc a b) c)
  (ha : c.active (.bbWait ct sc a b) ≠ 0) (hc : s.m.cellChk c (c.active (.bbWait ct sc a b)) a (some sc) = .ok)
include hi ha hc

theorem exec_bbWait {off : Nat} {g : Word} (hoff : (c.f.reg a.toNat (lowLane (c.active (.bbWait ct sc a b)))).toNat = off)
    (hg : c.f.reg b.toNat (lowLane (c.active (.bbWait ct sc a b))) = g) :
    exec (.bbWait ct sc a b) s = .next (
      let m := (s.start c (.bbWait ct sc a b)).asCell c.t c.tk off
      if m.cellGen c.tk off ≠ g then
        s.goesOn c (.bbWait ct sc a b) ((m.acquire c.core sc).acquire c.core (if m.wideCell c.tk off then .cl else .wp))
      else s.stops c (.waiting (.bb off g sc)) m) := by
  extract_lets m
  by_cases h : m.cellGen c.tk off ≠ g
  · rw [if_pos h]
    refine (State.issue_splits (f := fun m => _) rfl hi.to (fun _ => hc) ?_ : execBbWait ct sc a b s = _)
    simp only [hoff, hg]
    rw [if_neg ha, if_pos h]
  · rw [if_neg h]
    refine (State.issue_stops (f := fun m => _) rfl hi.to (fun _ => hc) ?_ : execBbWait ct sc a b s = _)
    simp only [hoff, hg]
    rw [if_neg ha, if_neg h]

end BbWait

end Sys2Proof.Machine
end

section
open Sys2Proof Sys2Proof.Machine

/-- Settles O20: the equation of each instruction, and what `bb.init` leaves of memory, registers and local stores. -/
theorem byteBarriers : Obligations.ByteBarriers := by
  unfold Obligations.ByteBarriers
  refine ⟨fun m tsk tk off tm ht hs hc => Mach.asCell_eq_self ht hs hc, fun s ct a b d sc c => ⟨?_, ?_, ?_⟩⟩
  · rintro i rfl hi ha hc
    exact ⟨exec_bbInit hi ha hc, rfl, initCell_goesOn s c _ _⟩
  · rintro i rfl hi ha hc off n m pend gen done cell
    refine (exec_bbExp hi ha hc).trans ?_
    rw [Mach.cellAdd, Bool.true_or, cellTest_armed]
    rfl
  · rintro i rfl hi ha hc off g m t
    refine ⟨exec_bbWait hi ha hc rfl rfl, fun tm ht hs hst => ?_⟩
    have ht' : (s.start c (.bbWait ct sc a b)).team? c.tk = some tm := by
      rw [State.start, Mach.team?, Mach.teams_issuedWith]
      exact ht
    have hm : m = s.start c (.bbWait ct sc a b) := Mach.asCell_eq_self ht' hs ((Mach.SamePools.issuedWith ..).strayCell hst)
    have hstill : Still (s.start c (.bbWait ct sc a b)) m := by
      rw [hm]
      exact .refl _
    unfold t
    split
    · exact .goesOn ((hstill.trans (.acquire ..)).trans (.acquire ..))
    · exact .stops _ hstill

end

section
/-! ## Stores: the store path and the local stores (R120, R206, R333, R336) -/

namespace Sys2Proof.Machine

/-- From m to n no byte of memory and no register changes, of the local stores only bytes that P names, and no staging buffer. -/
structure Mach.LsOnly (P : Nat → Nat → Prop) (m n : Mach) : Prop where
  mem : ∀ a, Memory.read n.mem a = Memory.read m.mem a
  regs : ∀ k, (n.frames.get? k).map (·.regs) = (m.frames.get? k).map (·.regs)
  ls : ∀ k x, ¬P k x → n.lsByte k x = m.lsByte k x
  pools : m.SamePools n

namespace Mach.LsOnly
variable {P : Nat → Nat → Prop} {a b c m n : Mach}

theorem of_still (h : Still m n) (g : m.SamePools n) : m.LsOnly P n := ⟨h.mem, h.regs, fun k x _ => h.lsByte k x, g⟩

theorem trans (h : a.LsOnly P b) (g : b.LsOnly P c) : a.LsOnly P c :=
  ⟨fun x => (g.mem x).trans (h.mem x), fun k => (g.regs k).trans (h.regs k), fun k x hx => (g.ls k x hx).trans (h.ls k x hx),
    h.pools.trans g.pools⟩

theorem placeWrite {tk off : Nat} {bs : List Byte} (h : ∀ x, off ≤ x → x < off + bs.length → P tk x) :
    m.LsOnly P (m.placeWrite (.ls tk off) bs) := by
  refine ⟨(Mach.LocalOnly.placeWrite m tk off bs).mem, fun k => by rw [Mach.frames_placeWrite_ls], fun k x hx => ?_,
    .placeWrite_ls m tk off bs⟩
  refine m.lsByte_placeWrite_ls tk off bs k x fun hin => hx ?_
  obtain ⟨rfl, h1, h2⟩ := hin
  exact h x h1 h2

end Mach.LsOnly

/-- The first byte of a team's staging pool (R120). -/
def Mach.poolStart (m : Mach) (tk : Nat) : Nat := ((m.launchOf tk).map (·.teamKib * 1024)).getD 0

/-- Where a task's store to a place goes, and the bytes it leaves there: as it names them, but for stray places of a pool (R120)
and those where its launch may be saved (R272). -/
def Mach.storeTarget (m : Mach) (t : Nat) (p : Place) (bs : List Byte) : Place × List Byte × Mach :=
  match p with
  | .ls tk _ =>
    if m.strayPool t p then
      let (q, m) := m.anyPool tk bs.length
      let (free, m) := m.takeBytes bs.length
      (q, free, m)
    else (p, bs, m)
  | .dev _ =>
    if m.ownSpill t p bs.length then
      let (free, m) := m.takeBytes bs.length
      (p, free, m)
    else (p, bs, m)

/-- A store enters the store path: one to the own local store is performed at once, any other goes to its home (R206). -/
def Mach.enterStore (m : Mach) (c : Issue) (lane : Nat) (p : Place) (bs : List Byte) : Mach :=
  if p.own c.tk then m.placeWrite p bs
  else
    let s : PStore := ⟨m.serial, c.tk, c.w, c.t, p, bs, false, m.relOf c.t c.core (laneBit lane), 0⟩
    let m := m.updCore c.core fun k =>
      let k := match p with
        | .dev pa => k.l1dStore pa bs
        | .ls .. => k
      { k with stores := k.stores ++ [s] }
    let m := m.updWarp c.tk c.w fun x => { x with unacked := x.unacked + 1 }
    let m := m.send m.serial c.core [p]
    let m := match p, p.peer? with
      | .dev pa, some peer => { m with peerOut := m.peerOut ++ [PeerMsg.write peer pa bs false] }
      | _, _ => m
    { m with serial := m.serial + 1 }

theorem Mach.putStore_eq (m : Mach) (c : Issue) (lane : Nat) (p : Place) (bs : List Byte) : m.putStore c lane p bs =
    (m.storeTarget c.t p bs).2.2.enterStore c lane (m.storeTarget c.t p bs).1 (m.storeTarget c.t p bs).2.1 := rfl

theorem Mach.storeTarget_rest (m : Mach) (t : Nat) (p : Place) (bs : List Byte) :
    ∃ F, (m.storeTarget t p bs).2.2 = { m with free := F } := by
  unfold Mach.storeTarget
  split <;> split <;> exact ⟨_, rfl⟩

/-- A store to a local store goes to its own bytes, or, where it is stray, to bytes of the pool. -/
theorem Mach.storeTarget_ls {m : Mach} {t : Nat} {p : Place} {bs : List Byte} {k off x : Nat}
    (h : (m.storeTarget t p bs).1 = .ls k off) (h1 : off ≤ x) (h2 : x < off + (m.storeTarget t p bs).2.1.length) :
    (∃ o, p = .ls k o ∧ o ≤ x ∧ x < o + bs.length) ∨ m.strayPool t p = true ∧ m.poolStart k ≤ x := by
  unfold Mach.storeTarget at h h2
  rcases p with pa | ⟨tk, o⟩
  · dsimp only at h
    split at h <;> cases h
  · dsimp only at h h2
    by_cases hs : m.strayPool t (.ls tk o) = true
    · rw [if_pos hs] at h
      cases h
      exact .inr ⟨hs, (Nat.le_add_right _ _).trans h1⟩
    · rw [if_neg hs] at h h2
      cases h
      exact .inl ⟨off, rfl, h1, h2⟩

theorem Mach.LsOnly.enterStore {P : Nat → Nat → Prop} {m : Mach} {c : Issue} {lane : Nat} {p : Place} {bs : List Byte}
    (h : ∀ k off x, p = .ls k off → off ≤ x → x < off + bs.length → P k x) : m.LsOnly P (m.enterStore c lane p bs) := by
  unfold Mach.enterStore
  split
  · next hown =>
    rcases p with pa | ⟨tk, o⟩
    · cases hown
    · exact .placeWrite fun x => h tk o x rfl
  · extract_lets st m1 m2 m3 m4
    have hs1 : Still m m1 := .updCore m _ _ fun k => by cases p <;> rfl
    have hs3 : Still m2 m3 := .send m2 _ _ _
    have ht3 : m2.SamePools m3 := .of_tables (.of_msgs (m2.send_msgs _ _ _))
    have h4 : Still m3 m4 ∧ m3.SamePools m4 := by
      unfold m4
      split
      · exact ⟨.of_eq rfl rfl rfl rfl rfl rfl rfl, .of_eq rfl rfl rfl⟩
      · exact ⟨.refl _, .refl _⟩
    have hm2 : Still m m2 ∧ m.SamePools m2 := ⟨hs1.trans (.updWarp ..), .of_eq rfl rfl rfl⟩
    exact .of_still (((hm2.1.trans hs3).trans h4.1).trans (.of_eq rfl rfl rfl rfl rfl rfl rfl))
      (((hm2.2.trans ht3).trans h4.2).trans (.of_eq rfl rfl rfl))

theorem Mach.LsOnly.putStore {P : Nat → Nat → Prop} {m : Mach} {c : Issue} {lane : Nat} {p : Place} {bs : List Byte}
    (hp : ∀ k o x, p = .ls k o → o ≤ x → x < o + bs.length → P k x)
    (hs : m.strayPool c.t p = true → ∀ k x, m.poolStart k ≤ x → P k x) : m.LsOnly P (m.putStore c lane p bs) := by
  obtain ⟨F, hF⟩ := m.storeTarget_rest c.t p bs
  have h1 : m.LsOnly P (m.storeTarget c.t p bs).2.2 := by
    rw [hF]
    exact .of_still (.of_eq rfl rfl rfl rfl rfl rfl rfl) (.of_eq rfl rfl rfl)
  rw [Mach.putStore_eq]
  refine h1.trans (.enterStore fun k off x hq h1 h2 => ?_)
  rcases Mach.storeTarget_ls hq h1 h2 with ⟨o, ho, h3, h4⟩ | ⟨hstray, hpool⟩
  · exact hp k o x ho h3 h4
  · exact hs hstray k x hpool

/-- Stores of several lanes to places that P names, stray places of m0 among them (R120). -/
theorem Mach.LsOnly.putStores {P : Nat → Nat → Prop} {m0 m : Mach} {c : Issue} {l : List (Nat × Place × List Byte)}
    (h0 : m0.SamePools m) (hp : ∀ y ∈ l, ∀ k o x, y.2.1 = .ls k o → o ≤ x → x < o + y.2.2.length → P k x)
    (hs : ∀ y ∈ l, m0.strayPool c.t y.2.1 = true → ∀ k x, m0.poolStart k ≤ x → P k x) : m.LsOnly P (m.putStores c l) := by
  induction l generalizing m with
  | nil => exact .of_still (.refl m) (.refl m)
  | cons y l ih =>
    have h1 : m.LsOnly P (m.putStore c y.1 y.2.1 y.2.2) := by
      refine .putStore (hp y (by simp)) fun hstray k x hx => hs y (by simp) ?_ k x ?_
      · by_contra hno
        rw [h0.strayPool (by simpa using hno)] at hstray
        cases hstray
      · simpa only [Mach.poolStart, h0.launches] using hx
    exact h1.trans (ih (h0.trans h1.pools) (fun z hz => hp z (List.mem_cons_of_mem _ hz))
      fun z hz => hs z (List.mem_cons_of_mem _ hz))

theorem Mach.SamePools.useTlb (m : Mach) (c : Issue) (spc : Spc) (as : List LaneAcc) : m.SamePools (m.useTlb c spc as) := by
  have hfill (m : Mach) (core asid va : Nat) : m.SamePools (m.fillTlb core asid va) := by
    unfold Mach.fillTlb
    split
    · split <;> exact .of_eq rfl rfl rfl
    · exact .refl m
  unfold Mach.useTlb
  split
  · exact .foldl (fun m _ => hfill m _ _ _) _ m
  · exact .refl m

theorem Mach.SamePools.released (m : Mach) (t : Nat) (l : Lanes) (sc : Scope) : m.SamePools (m.released t l sc) := by
  unfold Mach.released
  split
  · exact .refl m
  · exact .updTask m t _ fun _ => ⟨rfl, rfl⟩

theorem Mach.LsOnly.retain {P : Nat → Nat → Prop} (m : Mach) (core : Nat) (hint : Hint) (p : Place) :
    m.LsOnly P (m.retain core hint p) := by
  have hkeep (m : Mach) (f : Core → Core) (hf : ∀ k, (f k).acc = k.acc) : m.LsOnly P (m.updCore core f) :=
    .of_still (.updCore m _ _ hf) (.of_eq rfl rfl rfl)
  have hrank (ranks : Sparse Nat) : m.LsOnly P { m with l2rank := ranks } :=
    .of_still (.of_eq rfl rfl rfl rfl rfl rfl rfl) (.of_eq rfl rfl rfl)
  unfold Mach.retain
  split
  · exact .of_still (.refl m) (.refl m)
  · exact .of_still (.refl m) (.refl m)
  · exact .of_still (.refl m) (.refl m)
  · extract_lets l keys m1
    split
    · exact (hrank _).trans (hkeep m1 _ fun _ => rfl)
    · exact hrank _

theorem Mach.LsOnly.foldl {P : Nat → Nat → Prop} {α : Type} {f : Mach → α → Mach} (hf : ∀ m x, LsOnly P m (f m x)) (l : List α)
    (m : Mach) : m.LsOnly P (l.foldl f m) := by
  induction l generalizing m with
  | nil => exact .of_still (.refl m) (.refl m)
  | cons x l ih => exact (hf m x).trans (ih _)

/-- The value operand of a store is what it writes (R332). -/
theorem val_srcOf (f : Frame) (t : Ty) (b : Reg) (lane : Nat) : (Opd.val f (.srcOf t b) lane).toNat = storeValue f t b lane := by
  unfold Opd.srcOf storeValue
  split
  · rfl
  · show (BitVec.zeroExtend 64 (f.reg b.toNat lane)).toNat = _
    rw [BitVec.toNat_setWidth]
    exact Nat.mod_eq_of_lt (lt_trans (BitVec.isLt _) (by decide))

theorem exec_of_storeForm {s : State} {i : Instr} {sp : Spc} {f : MemF} {a b : Reg} {off : BitVec 24}
    (h : storeForm i = some (sp, f, a, b, off)) :
    exec i s = s.on (fun m => m.store i sp f a off) ∧ (Instr.shape i).b = .srcOf f.ty b := by
  cases i <;> cases h <;> exact ⟨rfl, rfl⟩

theorem exec_store {s : State} {i : Instr} {c : Issue} {sp : Spc} {f : MemF} {a b : Reg} {off : BitVec 24} {as : List LaneAcc}
    (hform : storeForm i = some (sp, f, a, b, off)) (hi : Issues s i c) (ha : c.active i ≠ 0)
    (hc : s.m.checkLanes c { spc := sp, size := tyWidth f.ty / 8, write := true } (some f.scope)
      (laneAddrs c (c.active i) sp a off.toInt) = .ok as)
    (ho : s.m.overtakes c.t none (as.map fun x => (x.place, tyWidth f.ty / 8)) = false)
    (hrel : f.ord = .rel → s.m.releaseChk c (c.active i) f.scope = .ok) :
    let m := if f.ord = .rel then (s.start c i).released c.t (c.active i) f.scope else s.start c i
    exec i s = .next (s.goesOn c i ((as.foldl (fun m x => m.retain c.core f.hint x.place) (m.useTlb c sp as)).putStores c
      (as.map fun x => (x.lane, x.place, natBytes (tyWidth f.ty / 8) (storeValue c.f f.ty b x.lane))))) := by
  intro m
  obtain ⟨hexec, hb⟩ := exec_of_storeForm (s := s) hform
  have hchk : s.m.storeChk c (c.active i) f (tyWidth f.ty / 8) as = .ok := by
    simp only [Mach.storeChk, ho, Bool.false_eq_true, if_false]
    split
    · next h => exact hrel h
    · rfl
  rw [hexec]
  refine (State.act_goesOn rfl hi ha ?_).trans ?_
  · simp only [accBytes, memScope, hc, hchk]
  · simp only [accBytes, memScope, hc, hb, val_srcOf]
    rfl

/-- The machine a store's lanes act on: its release, where it has one, has been done (R211). -/
theorem storeStart_lsOnly {P : Nat → Nat → Prop} (s : State) (c : Issue) (i : Instr) (f : MemF) :
    s.m.LsOnly P (if f.ord = .rel then (s.start c i).released c.t (c.active i) f.scope else s.start c i) := by
  have hstart : s.m.LsOnly P (s.start c i) := .of_still (.issuedWith s.m c i) (.issuedWith s.m c i)
  split
  · exact hstart.trans (.of_still (.released ..) (.released ..))
  · exact hstart

end Sys2Proof.Machine
end

section
open Sys2Proof Sys2Proof.Machine

/-- Settles O12: the equation of a store, and what its lanes' stores leave of memory, registers and local stores, one after the
other. -/
theorem storesEnterStorePath : Obligations.StoresEnterStorePath := by
  unfold Obligations.StoresEnterStorePath
  intro s i c sp f a b off as hform hi ha size hc ho hrel m m' t
  let P (k x : Nat) : Prop := (∃ y ∈ as, ∃ o, y.place = .ls k o ∧ o ≤ x ∧ x < o + size) ∨
    (∃ y ∈ as, s.m.strayPool c.t y.place = true) ∧ s.m.poolStart k ≤ x
  have hstart : s.m.LsOnly P m := storeStart_lsOnly s c i f
  have hready : s.m.LsOnly P (as.foldl (fun m x => m.retain c.core f.hint x.place) (m.useTlb c sp as)) :=
    (hstart.trans (.of_still (.useTlb ..) (.useTlb ..))).trans (.foldl (fun m x => .retain m _ _ _) as _)
  have hput : s.m.LsOnly P m' := by
    refine hready.trans (.putStores hready.pools ?_ ?_)
    · rintro _ hy k o x hplace h1 h2
      obtain ⟨y, hmem, rfl⟩ := List.mem_map.mp hy
      rw [natBytes_length] at h2
      exact .inl ⟨y, hmem, o, hplace, h1, h2⟩
    · rintro _ hy hstray k x hx
      obtain ⟨y, hmem, rfl⟩ := List.mem_map.mp hy
      exact .inr ⟨⟨y, hmem, hstray⟩, hx⟩
  have hgoes : Still m' t.m := .goesOn s c i m'
  refine ⟨exec_store hform hi ha hc ho hrel, rfl, rfl, fun x => (hgoes.mem x).trans (hput.mem x), fun fr r n => ?_,
    fun k x hx hpool => (hgoes.lsByte k x).trans (hput.ls k x ?_)⟩
  · exact State.reg_of_regs ((hgoes.regs fr).trans (hput.regs fr)) r n
  · rintro (⟨y, hy, o, hplace, hin⟩ | ⟨⟨y, hy, hstray⟩, hge⟩)
    · exact hx y hy o hplace hin
    · rcases hpool with hno | hlt
      · rw [hno y hy] at hstray
        cases hstray
      · exact absurd hlt (Nat.not_lt.mpr hge)

end

section
/-! ## Scheduling events: path selection, frame requests, limits of waits (R163, R164, R169, R179, R268, R269) -/

namespace Sys2Proof.Machine

theorem exec_pathSelection_standing {s : State} {k : Nat} {p : Path} (hmay : s.m.mayIssue s.subj.x s.subj.y = true)
    (hk : (s.m.warps.get? (warpKey s.subj.x s.subj.y)).bind (·.task) = some k) (hp : (s.m.tasks.get? k).bind (·.run) = some p)
    (hin : p.entered = true) :
    exec .pathSelection s = .next (s.updM fun m => { m with focus := some (s.subj.x, s.subj.y) }) := by
  obtain ⟨x, hx, hrun⟩ := Option.bind_eq_some_iff.mp hp
  have henter : ({ s.m with focus := some (s.subj.x, s.subj.y) } : Mach).enter s.subj.x s.subj.y k =
      { s.m with focus := some (s.subj.x, s.subj.y) } := by
    simp only [Mach.enter, hx, Option.bind_some, hrun, hin, if_true]
  show execPathSelection s = _
  simp only [execPathSelection, State.on, State.updM, hk, hmay, Bool.not_true, Bool.false_eq_true, if_false, hx, Option.map_some,
    hrun, henter]

theorem exec_pathSelection_selects {s : State} {k : Nat} {x : Task} (hmay : s.m.mayIssue s.subj.x s.subj.y = true)
    (hk : (s.m.warps.get? (warpKey s.subj.x s.subj.y)).bind (·.task) = some k) (hx : s.m.tasks.get? k = some x)
    (hrun : x.run = none) :
    exec .pathSelection s = .next (s.updM fun m => (((({ m with focus := some (s.subj.x, s.subj.y) } : Mach).landTask
      s.subj.x k).settle s.subj.x s.subj.y).updTask k Task.select).enter s.subj.x s.subj.y k) := by
  show execPathSelection s = _
  simp only [execPathSelection, State.on, State.updM, hk, hmay, Bool.not_true, Bool.false_eq_true, if_false, hx, Option.map_some,
    hrun]

theorem exec_frameGrant {s : State} {tm : Team} {r : Request} (hr : s.m.oldestRequest s.subj.x = some r)
    (htm : s.m.team? s.subj.x = some tm) (hruns : tm.runs = true) (hdy : s.m.dying s.subj.x = false)
    (hfit : s.m.granulesUsed s.subj.x + r.granules ≤ s.m.granulesCharge s.subj.x) :
    exec .frameGrant s = .next (s.updM fun m => m.grant s.subj.x r) := by
  show execFrameGrant s = _
  simp only [execFrameGrant, State.on, State.updM, hr, htm, hruns, hdy, hfit, Bool.not_false, Bool.and_self, decide_true, if_true]

section Starved
variable {s : State} {tm : Team} {r : Request} (hr : s.m.oldestRequest s.subj.x = some r)
  (htm : s.m.team? s.subj.x = some tm) (hruns : tm.runs = true) (hdy : s.m.dying s.subj.x = false)
  (hst : s.m.starved s.subj.x r = true)
include hr htm hruns hdy hst

theorem exec_frameStarved_full (hv : s.m.victim s.subj.x r = none) :
    exec .frameStarved s = .next (s.updM fun m => m.spillFull s.subj.x r 1) := by
  show execFrameStarved s = _
  simp only [execFrameStarved, State.on, State.updM, hr, htm, hruns, hdy, hst, hv, Option.any_some, Bool.not_true, Bool.or_self,
    Bool.false_eq_true, if_false]

theorem exec_frameStarved_spills {frs : List Nat} {m : Mach} (hv : s.m.victim s.subj.x r = some frs)
    (hops : (s.m.ops.any fun o => frs.contains o.2.frame && o.2.kind.writesRegs && !o.2.dead) = false)
    (hsp : s.m.spillFrames s.subj.x frs = (true, m)) : exec .frameStarved s = .next { s with m := m } := by
  show execFrameStarved s = _
  simp only [execFrameStarved, State.on, hr, htm, hruns, hdy, hst, hv, hops, hsp, Option.any_some, Bool.not_true, Bool.or_self,
    Bool.false_eq_true, if_false]

end Starved

theorem exec_watchdog {s : State} {x : Task} {tm : Team} (hx : s.m.tasks.get? s.subj.x = some x)
    (htm : s.m.team? x.team = some tm) (hruns : tm.runs = true) (hdy : s.m.dying x.team = false)
    (hall : s.m.allWait s.subj.x x = true) (hon : s.m.svctl.toNat % 2 ^ 12 ≠ 0)
    (hlim : s.m.svctl.toNat % 2 ^ 12 * 16000000 < x.watch) :
    exec .watchdog s = .next (s.updM fun m => m.endWait s.subj.x x .watchdog 0 x.lowestPath) := by
  have hno : ¬(s.m.svctl.toNat % 2 ^ 12 * 16000000 = 0) := by omega
  show execWatchdog s = _
  simp only [execWatchdog, State.on, State.updM, hx, htm, hruns, hdy, hall, hno, Nat.not_le.mpr hlim, Option.any_some,
    decide_false, Bool.not_true, Bool.or_self, Bool.false_eq_true, if_false]

theorem exec_recoveryCapExpiry_op {s : State} {o : Op} (ho : s.m.ops.get? s.subj.x = some o) (hcap : s.m.rcap < o.waitNs)
    (haw : s.m.awaitsRecovering o = true) :
    exec .recoveryCapExpiry s = .next (s.updM fun m => m.loseOp (fun p => m.conn p = .recovering) s.subj.x o) := by
  show execRecoveryCapExpiry s = _
  simp only [execRecoveryCapExpiry, State.on, State.updM, ho, hcap, haw, decide_true, Bool.and_self, if_true]

end Sys2Proof.Machine
end

section
/-! ## Stealing (R138-R140) -/

namespace Sys2Proof.Machine

theorem Mach.team_updTeam (m : Mach) (tk : Nat) (f : Team → Team) (n : Nat) :
    (m.updTeam tk f).team? n = if n = tk then (m.team? n).map f else m.team? n := Sparse.get?_upd ..

theorem stealStep_le {x y : Team} {n : Nat} (h : stealStep x y = some n) : n ≤ 3 := by
  unfold stealStep at h
  split_ifs at h <;> cases h <;> decide

theorem Mach.victimsLeft_step {m : Mach} {x : Team} {v n : Nat} (h : (v, n) ∈ m.victimsLeft x) : n ≤ 3 := by
  obtain ⟨e, -, he⟩ := List.mem_filterMap.mp h
  split at he
  · cases he
  · obtain ⟨k, hk, hn⟩ := Option.bind_eq_some_iff.mp he
    split at hn
    · cases hn
    · cases hn
      exact stealStep_le hk

theorem le_foldl_min {α : Type} {key : α → Nat} {l : List α} {a k : Nat} :
    k ≤ l.foldl (fun n x => min n (key x)) a ↔ k ≤ a ∧ ∀ x ∈ l, k ≤ key x := by
  induction l generalizing a with
  | nil => simp
  | cons x l ih => simp [ih, and_assoc]

/-- The step at which a thief asks is that of its nearest victims. -/
theorem foldl_min_eq {α : Type} {key : α → Nat} {l : List α} {a n : Nat} {e : α} (he : e ∈ l) (hn : key e = n) (ha : n ≤ a)
    (hleast : ∀ x ∈ l, n ≤ key x) : l.foldl (fun n x => min n (key x)) a = n :=
  le_antisymm (hn ▸ (le_foldl_min.mp (le_refl _)).2 e he) (le_foldl_min.mpr ⟨ha, hleast⟩)

theorem exec_stealRequest {s : State} {x : Team} {n : Nat} (hx : s.m.team? s.subj.x = some x)
    (hmay : s.m.mayAsk s.subj.x x = true) (hcore : s.coreOut x.core = false) (hv : (s.subj.y, n) ∈ s.m.victimsLeft x)
    (hleast : ∀ e ∈ s.m.victimsLeft x, n ≤ e.2) :
    exec .stealRequest s = .next (s.updM fun m => m.updTeam s.subj.x fun t =>
      { t with steal := { t.steal with victim := some s.subj.y, reply := none } }) := by
  have hstep : (s.m.victimsLeft x).foldl (fun n x => min n x.2) 9 = n :=
    foldl_min_eq hv rfl ((Mach.victimsLeft_step hv).trans (by decide)) hleast
  show execStealRequest s = _
  simp only [execStealRequest, State.on, State.updM, hx, hstep, hmay, hcore, List.contains_iff_mem.mpr hv, Bool.not_false,
    Bool.and_self, if_true]

/-- A victim's answer to a thief. -/
def Mach.answerThief (m : Mach) (tk : Nat) (r : Option Nat) : Mach :=
  m.updTeam tk fun t => { t with steal := { t.steal with reply := some r } }

/-- A task that leaves its victim for a thief (R140). -/
def Mach.handOver (m : Mach) (v n : Nat) : Mach :=
  (m.unqueue v n).updTask n fun x => { x with st := .inTransit, buf := none, tte := none, staged := 0, opers := 0 }

theorem Mach.team_answerThief (m : Mach) (tk : Nat) (r : Option Nat) (j : Nat) : (m.answerThief tk r).team? j =
    if j = tk then (m.team? j).map fun t => { t with steal := { t.steal with reply := some r } } else m.team? j :=
  Mach.team_updTeam ..

theorem Mach.team_handOver {m : Mach} {v n : Nat} {y : Team} (hy : m.team? v = some y) (hkept : y.kept = []) (j : Nat) :
    (m.handOver v n).team? j =
      if j = v then (m.team? j).map fun t => { t with deque := t.deque.filter (· ≠ n) } else m.team? j := by
  show (m.unqueue v n).team? j = _
  rw [Mach.unqueue_no_kept hy hkept]
  exact Mach.team_updTeam ..

/-- What a thief and its victim are left with, where the victim keeps no descriptor (R159). -/
theorem Mach.handOver_answered {m : Mach} {tk v n : Nat} {x y : Team} {k : Task} (hx : m.team? tk = some x)
    (hy : m.team? v = some y) (hkept : y.kept = []) (hk : m.tasks.get? n = some k) :
    let t := (m.handOver v n).answerThief tk (some n)
    t.tasks.get? n = some { k with st := .inTransit, buf := none, tte := none, staged := 0, opers := 0 } ∧
      (t.team? v).map (·.deque) = some (y.deque.filter (· ≠ n)) ∧
      (t.team? tk).map (·.steal) = some { x.steal with reply := some (some n) } ∧ t.mem = m.mem := by
  refine ⟨?_, ?_, ?_, ?_⟩
  · show ((m.unqueue v n).updTask n _).tasks.get? n = _
    rw [Mach.unqueue_no_kept hy hkept]
    exact (Sparse.get?_upd_self ..).trans (congrArg _ hk)
  · rw [Mach.team_answerThief, Mach.team_handOver hy hkept, if_pos rfl, hy]
    split_ifs <;> rfl
  · rw [Mach.team_answerThief, Mach.team_handOver hy hkept, if_pos rfl, hx]
    split_ifs <;> rfl
  · show (m.unqueue v n).mem = _
    rw [Mach.unqueue_no_kept hy hkept]
    rfl

/-- Of a task in staging, some bytes between those staged and all of its buffer have been copied; of another, those staged
(R140). -/
theorem Mach.stagedBytes_bounds (m : Mach) (k : Task) : k.staged ≤ (m.stagedBytes k).1 ∧
    (m.stagedBytes k).1 ≤ max k.staged ((k.buf.map (·.2)).getD 0) ∧ (k.st ≠ .staging → (m.stagedBytes k).1 = k.staged) := by
  unfold Mach.stagedBytes
  split
  · next h =>
    have hmod := Nat.mod_lt (Config.freeNat m.free) (Nat.succ_pos ((k.buf.map (·.2)).getD 0 - k.staged))
    refine ⟨Nat.le_add_right .., ?_, fun hne => absurd h hne⟩
    show k.staged + Config.freeNat m.free % ((k.buf.map (·.2)).getD 0 - k.staged + 1) ≤ _
    simp only [Nat.succ_eq_add_one] at hmod
    omega
  · exact ⟨le_refl _, le_max_left .., fun _ => rfl⟩

theorem Mach.stagedBytes_rest (m : Mach) (k : Task) : ∃ F, (m.stagedBytes k).2 = { m with free := F } := by
  unfold Mach.stagedBytes
  split <;> exact ⟨_, rfl⟩

section Receive
variable {s : State} {x : Team} {v : Nat} (hx : s.m.team? s.subj.x = some x) (hv : x.steal.victim = some v)
  (hr : x.steal.reply = none)
include hx hv hr

theorem exec_stealRequestReceive_refuses
    (hno : ∀ y, s.m.team? v = some y → y.runs = false ∨ s.coreOut y.core = true ∨
      ∀ n ∈ y.deque, ∀ k, s.m.tasks.get? n = some k → k.desc.loc = true) :
    exec .stealRequestReceive s = .next (s.updM fun m => m.answerThief s.subj.x none) := by
  show execStealRequestReceive s = _
  rcases hy : s.m.team? v with _ | y
  · simp only [execStealRequestReceive, State.on, State.updM, hx, hv, hr, hy]
    rfl
  · have hnone : (if y.runs && !s.m.dying v && !s.coreOut y.core then
        (y.deque.reverse.find? fun n => (s.m.tasks.get? n).any fun x => !x.desc.loc).bind fun n =>
          (s.m.tasks.get? n).map fun x => (n, x) else none) = none := by
      rcases hno y hy with hruns | hcore | hloc
      · simp only [hruns, Bool.false_and, Bool.false_eq_true, if_false]
      · simp only [hcore, Bool.not_true, Bool.and_false, Bool.false_eq_true, if_false]
      · have hcand : (y.deque.reverse.find? fun n => (s.m.tasks.get? n).any fun x => !x.desc.loc) = none := by
          refine List.find?_eq_none.mpr fun n hn => ?_
          rcases hk : s.m.tasks.get? n with _ | k
          · simp
          · simp [hloc n (List.mem_reverse.mp hn) k hk]
        simp only [hcand, Option.bind_none, ite_self]
    simp only [execStealRequestReceive, State.on, State.updM, hx, hv, hr, hy, hnone]
    rfl

section Gives
variable {y : Team} {n : Nat} {k : Task} (hy : s.m.team? v = some y) (hruns : y.runs = true) (hdy : s.m.dying v = false)
  (hcore : s.coreOut y.core = false)
  (hn : y.deque.reverse.find? (fun n => (s.m.tasks.get? n).any fun z => !z.desc.loc) = some n) (hk : s.m.tasks.get? n = some k)
include hy hruns hdy hcore hn hk

theorem exec_stealRequestReceive_gives (hdie : coreDie x.core = coreDie y.core) :
    exec .stealRequestReceive s = .next (s.updM fun m => (m.handOver v n).answerThief s.subj.x (some n)) := by
  show execStealRequestReceive s = _
  simp only [execStealRequestReceive, State.on, State.updM, hx, hv, hr, hy, hruns, hdy, hcore, hn, hk, hdie, Bool.not_false,
    Bool.and_self, if_true, Option.bind_some, Option.map_some, ne_eq, not_true, decide_false, Bool.false_and, Bool.false_eq_true,
    if_false]
  rfl

theorem exec_stealRequestReceive_far_refuses (hdie : coreDie x.core ≠ coreDie y.core)
    (hfar : x.xsteal.toNat % 2 ^ 16 * 256 < (s.m.stagedBytes k).1) :
    exec .stealRequestReceive s = .next (s.updM fun m => (m.stagedBytes k).2.answerThief s.subj.x none) := by
  show execStealRequestReceive s = _
  simp only [execStealRequestReceive, State.on, State.updM, hx, hv, hr, hy, hruns, hdy, hcore, hn, hk, hdie, hfar, Bool.not_false,
    Bool.and_self, if_true, Option.bind_some, Option.map_some, ne_eq, not_false_eq_true, decide_true]
  rfl

theorem exec_stealRequestReceive_far_gives (hdie : coreDie x.core ≠ coreDie y.core)
    (hnear : ¬x.xsteal.toNat % 2 ^ 16 * 256 < (s.m.stagedBytes k).1) : exec .stealRequestReceive s =
      .next (s.updM fun m => ((m.stagedBytes k).2.handOver v n).answerThief s.subj.x (some n)) := by
  show execStealRequestReceive s = _
  simp only [execStealRequestReceive, State.on, State.updM, hx, hv, hr, hy, hruns, hdy, hcore, hn, hk, hdie, hnear,
    Bool.not_false, Bool.and_self, if_true, Option.bind_some, Option.map_some, ne_eq, not_false_eq_true, decide_true,
    decide_false, Bool.and_false, Bool.false_eq_true, if_false]
  rfl

end Gives
end Receive

/-- A refusal changes the thief's team alone. -/
theorem Mach.answerThief_refused {m : Mach} {tk v : Nat} {x y : Team} (hx : m.team? tk = some x) (hy : m.team? v = some y) :
    ((m.answerThief tk none).team? v).map (·.deque) = some y.deque ∧
      ((m.answerThief tk none).team? tk).map (·.steal) = some { x.steal with reply := some none } := by
  constructor
  · rw [Mach.team_answerThief, hy]
    split_ifs <;> rfl
  · rw [Mach.team_answerThief, hx, if_pos rfl]
    rfl

/-- The stolen task as it arrives at team tk, thief of gang g (R140). -/
def Mach.arrivedTask (m : Mach) (tk gang : Nat) (k : Task) : Task :=
  { k with
    team := tk
    st := .queued
    entry := if ((m.team? k.team).any fun y => y.gang = gang) = true then k.entry else m.serial }

/-- A thief's deque with the stolen task at its hot end, and no steal under way. -/
def Mach.takenIn (m : Mach) (tk n : Nat) (k : Task) : Mach :=
  (({ m with tasks := (m.tasks.del n).put m.serial k, serial := m.serial + 1 } : Mach).pushHot tk m.serial).updTeam tk
    fun t => { t with steal := ⟨none, none, [], 0, false⟩ }

section Reply
variable {s : State} {x : Team} {v n : Nat} (hx : s.m.team? s.subj.x = some x) (hv : x.steal.victim = some v)
include hx hv

theorem exec_stealReply_waits (hr : x.steal.reply = some (some n))
    (hfull : ((s.m.launches.get? x.launch).map (·.dequeCap)).getD 0 ≤ x.slotsUsed) : exec .stealReply s = .next s := by
  show execStealReply s = _
  simp only [execStealReply, State.on, hx, hv, hr, hfull, if_true]

theorem exec_stealReply_arrives {k : Task} (hr : x.steal.reply = some (some n))
    (hroom : x.slotsUsed < ((s.m.launches.get? x.launch).map (·.dequeCap)).getD 0) (hk : s.m.tasks.get? n = some k) :
    exec .stealReply s = .next (s.updM fun m => m.takenIn s.subj.x n (m.arrivedTask s.subj.x x.gang k)) := by
  show execStealReply s = _
  simp only [execStealReply, State.on, State.updM, hx, hv, hr, Nat.not_le.mpr hroom, if_false, hk]
  rfl

theorem exec_stealReply_refused (hr : x.steal.reply = some none) :
    exec .stealReply s = .next (s.updM fun m => m.updTeam s.subj.x fun t =>
      { t with steal := { t.steal with victim := none, reply := none, tried := v :: t.steal.tried } }) := by
  show execStealReply s = _
  simp only [execStealReply, State.on, State.updM, hx, hv, hr]

end Reply

theorem Mach.takenIn_rest {m : Mach} {tk : Nat} {x : Team} (hx : m.team? tk = some x) (n : Nat) (k : Task) :
    (m.takenIn tk n k).tasks.get? m.serial = some k ∧
      ((m.takenIn tk n k).team? tk).map (fun y => (y.deque, y.steal)) =
        some (m.serial :: x.deque, ⟨none, none, [], 0, false⟩) := by
  constructor
  · show ((m.tasks.del n).put m.serial k).get? m.serial = _
    rw [Sparse.get?_put, if_pos rfl]
  · unfold Mach.takenIn Mach.pushHot
    rw [Mach.team_updTeam, if_pos rfl, Mach.team_updTeam, if_pos rfl]
    exact congrArg (fun o : Option Team => ((o.map _).map _).map _) hx

theorem exec_stealBackoff {s : State} {x : Team} (hx : s.m.team? s.subj.x = some x) (hv : x.steal.victim = none)
    (htried : x.steal.tried ≠ []) (hleft : s.m.victimsLeft x = []) :
    exec .stealBackoff s = .next (s.updM fun m => m.updTeam s.subj.x fun t =>
      { t with steal := ⟨none, none, [], m.clock + 256, t.steal.crossDie⟩ }) := by
  show execStealBackoff s = _
  simp only [execStealBackoff, State.on, State.updM, hx, hv, htried, hleft, Option.isNone_none, ne_eq, not_false_eq_true,
    decide_true, Bool.and_self, if_true]

theorem exec_stealIdleThreshold (s : State) : exec .stealIdleThreshold s = .next (s.updM fun m => m.updTeam s.subj.x fun t =>
    if m.crossDie t then { t with steal := { t.steal with crossDie := true } } else t) := rfl

end Sys2Proof.Machine
end

section
/-! ## The path a task selects (R169) -/

namespace Sys2Proof.Machine

/-- Without demotion marks no path of some lanes is demoted. -/
theorem demotePaths_unmarked {ps : List Path} (h : ∀ q ∈ ps, q.lanes ≠ 0) (done : List Path) :
    demotePaths 0 done ps = (0, done ++ ps) := by
  induction ps generalizing done with
  | nil => simp [demotePaths]
  | cons p ps ih =>
    have hp : (p.lanes &&& ~~~(0 : Lanes)) ≠ 0 := by
      rw [show ~~~(0 : Lanes) = BitVec.allOnes 32 from rfl, BitVec.and_allOnes]
      exact h p List.mem_cons_self
    rw [demotePaths, decide_eq_false hp, Bool.and_false, if_neg Bool.false_ne_true,
      ih fun q hq => h q (List.mem_cons_of_mem _ hq), List.append_assoc]
    rfl

/-- The order of selection: the PC, then the lowest lane (R169). -/
def Path.key (p : Path) : Nat ×ₗ Nat := toLex (p.pc.toNat, lowLane p.lanes)

theorem Path.before_iff (p q : Path) : p.before q = true ↔ p.key < q.key := by
  simp [Path.before, Path.key, Prod.Lex.toLex_lt_toLex, BitVec.toNat_inj]

theorem pickPath_least {ps : List Path} {p : Path} (hp : p ∈ ps) :
    ∃ r, pickPath ps = some r ∧ r ∈ ps ∧ r.pc.toNat ≤ p.pc.toNat := by
  rcases ps with _ | ⟨c, l⟩
  · cases hp
  · obtain ⟨hmem, hleast⟩ := foldl_least Path.key l c
    refine ⟨_, rfl, ?_⟩
    simp only [Path.before_iff]
    refine ⟨hmem, ?_⟩
    have hle := hleast p hp
    exact (Prod.Lex.le_iff.mp hle).elim le_of_lt fun h => le_of_eq h.1

theorem and_not_eq_zero_iff {a b : Lanes} : a &&& ~~~b = 0 ↔ ∀ i < 32, a.getLsbD i = true → b.getLsbD i = true := by
  constructor
  · intro h i hi ha
    have hbit : (a &&& ~~~b).getLsbD i = (0 : Lanes).getLsbD i := by rw [h]
    simpa [ha, hi] using hbit
  · intro h
    refine BitVec.eq_of_getLsbD_eq fun i hi => ?_
    cases ha : a.getLsbD i
    · simp [ha]
    · simp [ha, h i hi ha]

/-- Paths that join another add lanes to it, no more. -/
theorem foldl_join (l : List Path) (p : Path) : ∃ a, l.foldl Path.join p = { p with lanes := a } ∧ p.lanes &&& ~~~a = 0 := by
  induction l generalizing p with
  | nil => exact ⟨p.lanes, rfl, by simp⟩
  | cons q l ih =>
    obtain ⟨a, ha, hsub⟩ := ih (p.join q)
    refine ⟨a, ha, and_not_eq_zero_iff.mpr fun i hi hp => and_not_eq_zero_iff.mp hsub i hi ?_⟩
    simp [Path.join, hp]

theorem Task.run_satisfy (k : Task) (l : Lanes) : (k.satisfy l).run = k.run := rfl

/-- The path a task selects, where eligible ones are among its paths: one of those with the lowest PC, joined by others. -/
theorem Task.select_run {x : Task} {p : Path} (hd : x.demote = 0) (hlanes : ∀ q ∈ x.paths, q.lanes ≠ 0) (hp : p ∈ x.paths)
    (hst : p.st = .eligible) : ∃ q ∈ x.paths, q.st = .eligible ∧ q.pc.toNat ≤ p.pc.toNat ∧
      ∃ a, x.select.run = some { q with st := .eligible, lanes := a } ∧ q.lanes &&& ~~~a = 0 := by
  have hmem : p ∈ x.paths.filter fun p => p.st = .eligible := List.mem_filter.mpr ⟨hp, by simp [hst]⟩
  obtain ⟨q, hpick, hq, hle⟩ := pickPath_least hmem
  obtain ⟨hq1, hq2⟩ := List.mem_filter.mp hq
  obtain ⟨a, ha, hsub⟩ := foldl_join ((x.paths.filter fun r => r ≠ q).filter q.joins) { q with st := .eligible }
  refine ⟨q, hq1, by simpa using hq2, hle, a, ?_, hsub⟩
  unfold Task.select
  simp only [hd, demotePaths_unmarked hlanes, List.nil_append, if_neg (List.ne_nil_of_mem hmem), hpick, ha]
  split
  · rw [Task.run_satisfy]
  · rfl

end Sys2Proof.Machine
end

section
/-! ## The waiters of a resolved cell (R132, R133, R366) -/

namespace Sys2Proof.Machine

theorem Mach.consumeParked_rest (m : Mach) (k : Task) (p : Path) (bad : Bool) (addr : DWord) :
    (m.consumeParked k p bad addr).mem = m.mem ∧ (m.consumeParked k p bad addr).tasks = m.tasks ∧
      (m.consumeParked k p bad addr).frames = m.frames := by
  unfold Mach.consumeParked Mach.askKill
  split
  · split <;> exact ⟨rfl, rfl, rfl⟩
  · exact ⟨rfl, rfl, rfl⟩

/-- A path past its waiting instruction can be selected, or has not moved: the code it stands in cannot be read. -/
theorem Mach.pastWait_st (m : Mach) (t : Nat) (p : Path) : m.pastWait t p = p ∨ (m.pastWait t p).st = .eligible := by
  unfold Mach.pastWait
  split
  · exact .inl rfl
  · extract_lets asid
    split
    · exact .inl rfl
    · right
      dsimp only
      split <;> rfl

theorem Mach.wakePaths_none {m : Mach} {t : Nat} {k : Task} {sel : Path → Bool} (f : Path → Path) (hk : m.tasks.get? t = some k)
    (hs : k.paths.any sel = false) : m.wakePaths t sel f = m := by
  simp only [Mach.wakePaths, hk, hs, Bool.false_eq_true, if_false]

/-- The one path of a task without a warp wakes: the task is RESUMABLE (R130). -/
theorem Mach.wakePaths_one {m : Mach} {t : Nat} {k : Task} {p : Path} {sel : Path → Bool} (f : Path → Path)
    (hk : m.tasks.get? t = some k) (hp : k.paths = [p]) (hs : sel p = true) (hst : k.st = .parked ∨ k.st = .resumable) :
    (∃ z, (m.wakePaths t sel f).tasks.get? t = some z ∧ z.st = .resumable ∧ z.paths = [f p]) ∧
      (m.wakePaths t sel f).mem = m.mem ∧ (m.wakePaths t sel f).frames = m.frames := by
  have hany : k.paths.any sel = true := by simp [hp, hs]
  have hnew : (k.paths.map fun q => if sel q then f q else q) = [f p] := by simp [hp, hs]
  rcases hst with hst | hst
  · simp only [Mach.wakePaths, hk, hany, if_true, hst]
    exact ⟨⟨_, Sparse.get?_put_self .., rfl, hnew⟩, rfl, rfl⟩
  · simp only [Mach.wakePaths, hk, hany, if_true, hst, and_true]
    exact ⟨_, Sparse.get?_put_self .., rfl, hnew⟩

theorem Mach.acquire_dropCopies_rest (m : Mach) (core : Nat) (ls : List Nat) (sc : Scope) :
    ((m.dropCopies core ls).acquire core sc).mem = m.mem ∧ ((m.dropCopies core ls).acquire core sc).tasks = m.tasks ∧
      ((m.dropCopies core ls).acquire core sc).frames = m.frames := by
  unfold Mach.acquire
  split <;> exact ⟨rfl, rfl, rfl⟩

/-- What a trapping join of a cell with value v writes of a frame. -/
def Frame.joined (f : Frame) (act : Lanes) (d : Nat) (v : DWord) : Frame :=
  (joinRegs true d 1 v).foldl (fun f w => (laneList act).foldl (fun f n => f.setBoth w.1 n w.2) f) f

theorem Frame.reg_joined (f : Frame) (act : Lanes) (d : Nat) (v : DWord) (r n : Nat) (hn : n < 32) : (f.joined act d v).reg r n =
    if act.getLsbD n = true ∧ r = d then loWord v else if act.getLsbD n = true ∧ r = d + 1 then hiWord v else f.reg r n := by
  have hlanes : ∀ k ∈ laneList act, k < 32 := fun k hk => (mem_laneList.mp hk).1
  show ((laneList act).foldl _ ((laneList act).foldl _ f)).reg r n = _
  rw [Frame.reg_fillOne _ _ _ _ _ _ hlanes hn, Frame.reg_fillOne _ _ _ _ _ _ hlanes hn]
  simp only [mem_laneList, hn, true_and]
  by_cases ha : act.getLsbD n = true
  · by_cases h1 : r = d + 1
    · simp [ha, h1]
    · simp [ha, h1]
  · simp [ha]

/-- Whether a path waits on a cell. -/
def Path.joinsOn (cell : Nat) (p : Path) : Bool :=
  match p.st with
  | .waiting (.join c ..) => c = cell
  | _ => false

/-- A waiter as its join ends: to trap at its instruction, or past it (R132). -/
def Mach.pastJoin (m : Mach) (t st : Nat) (p : Path) : Path :=
  match p.st with
  | .waiting (.join _ _ trapping _ _) => if trapping && 2 ≤ st then { p with st := .eligible } else m.pastWait t p
  | _ => p

/-- A waiter of task k reads a cell of a state and a value (R366). -/
def Mach.readJoin (k : Task) (cell st : Nat) (v : DWord) (m : Mach) (p : Path) : Mach :=
  match p.st with
  | .waiting (.join c va trapping d act) =>
    if c = cell && !(trapping && 2 ≤ st) then
      let m := m.writeJoin p.frame act (joinRegs trapping d st v)
      match k.st with
      | .running w => m.consume k.team w (m.poisoned (.dev cell) 16) va.toNat
      | _ => m.consumeParked k p (m.poisoned (.dev cell) 16) va
    else m
  | _ => m

theorem Mach.wakeJoins_eq {m : Mach} {t cell : Nat} {k : Task} (hk : m.tasks.get? t = some k) : m.wakeJoins t cell =
    let n := k.paths.foldl (Mach.readJoin k cell (m.cellState cell) (m.cellValue cell)) m
    let core := ((n.team? k.team).map (·.core)).getD 0
    ((n.wakePaths t (Path.joinsOn cell) (n.pastJoin t (m.cellState cell))).dropCopies core [lineOf cell]).acquire core .dv := by
  unfold Mach.wakeJoins
  rw [hk]
  rfl

section WakeJoins
variable {m : Mach} {t cell : Nat} {k : Task} {p : Path} (hk : m.tasks.get? t = some k) (hp : k.paths = [p])
include hk hp

/-- A task without a warp, whose one path waits on a cell that is READY, takes its value (R132, R366). -/
theorem Mach.wakeJoins_reads {va : DWord} {d : Nat} {act : Lanes} (hw : p.st = .waiting (.join cell va true d act))
    (hst : k.st = .parked ∨ k.st = .resumable) (hc : m.cellState cell = 1) :
    (∃ z, (m.wakeJoins t cell).tasks.get? t = some z ∧ z.st = .resumable ∧ ∃ q, z.paths = [q] ∧ (q = p ∨ q.st = .eligible)) ∧
      (m.wakeJoins t cell).mem = m.mem ∧
      (m.wakeJoins t cell).frames = m.frames.upd p.frame fun f => f.joined act d (m.cellValue cell) := by
  let n := (m.writeJoin p.frame act (joinRegs true d 1 (m.cellValue cell))).consumeParked k p (m.poisoned (.dev cell) 16) va
  have hn : k.paths.foldl (Mach.readJoin k cell (m.cellState cell) (m.cellValue cell)) m = n := by
    rcases hst with hst | hst <;>
      simp only [hp, List.foldl_cons, List.foldl_nil, Mach.readJoin, hw, hc, hst, decide_true, Nat.not_ofNat_le_one, decide_false,
        Bool.and_false, Bool.not_false, Bool.and_self, if_true] <;> rfl
  obtain ⟨hmem, htasks, hframes⟩ := Mach.consumeParked_rest (m.writeJoin p.frame act (joinRegs true d 1 (m.cellValue cell))) k p
    (m.poisoned (.dev cell) 16) va
  have hpast : n.pastJoin t 1 p = n.pastWait t p := by
    simp only [Mach.pastJoin, hw, Nat.not_ofNat_le_one, decide_false, Bool.and_false, Bool.false_eq_true, if_false]
  obtain ⟨⟨z, hz, hzst, hzp⟩, hmem', hframes'⟩ := Mach.wakePaths_one (m := n) (sel := Path.joinsOn cell) (n.pastJoin t 1)
    (htasks ▸ hk) hp (by simp [Path.joinsOn, hw]) hst
  rw [Mach.wakeJoins_eq hk, hn, hc]
  obtain ⟨h1, h2, h3⟩ := Mach.acquire_dropCopies_rest (n.wakePaths t (Path.joinsOn cell) (n.pastJoin t 1))
    (((n.team? k.team).map (·.core)).getD 0) [lineOf cell] .dv
  refine ⟨⟨z, by rw [h2]; exact hz, hzst, _, hzp, ?_⟩, (h1.trans hmem').trans hmem, (h3.trans hframes').trans hframes⟩
  rw [hpast]
  exact n.pastWait_st t p

/-- A task whose one path waits on nothing is left alone. -/
theorem Mach.wakeJoins_none (hw : p.st = .eligible) : (m.wakeJoins t cell).tasks = m.tasks ∧ (m.wakeJoins t cell).mem = m.mem ∧
    (m.wakeJoins t cell).frames = m.frames := by
  have hn : k.paths.foldl (Mach.readJoin k cell (m.cellState cell) (m.cellValue cell)) m = m := by
    simp only [hp, List.foldl_cons, List.foldl_nil, Mach.readJoin, hw]
  rw [Mach.wakeJoins_eq hk, hn]
  dsimp only
  rw [Mach.wakePaths_none _ hk (by simp [hp, Path.joinsOn, hw])]
  obtain ⟨h1, h2, h3⟩ := m.acquire_dropCopies_rest (((m.team? k.team).map (·.core)).getD 0) [lineOf cell] .dv
  exact ⟨h2, h1, h3⟩

end WakeJoins

/-- What the waiters of a cell of value v have read, with k's one path p waiting for registers d and d + 1 of frame f. -/
structure Mach.JoinRead (m0 : Mach) (k : Nat) (p : Path) (f : Frame) (act : Lanes) (d : Nat) (v : DWord) (m : Mach) : Prop where
  mem : m.mem = m0.mem
  task : ∃ y, m.tasks.get? k = some y ∧ y.st = .resumable ∧ ∃ q, y.paths = [q] ∧ (q = p ∨ q.st = .eligible)
  frame : ∃ g, m.frames.get? p.frame = some g ∧ ∀ r n, n < 32 → g.reg r n = (f.joined act d v).reg r n

section JoinRead
variable {m0 m : Mach} {k cell d : Nat} {p : Path} {f : Frame} {act : Lanes} {va : DWord}
  (hw : p.st = .waiting (.join cell va true d act)) (hc : m0.cellState cell = 1)
include hw hc

theorem Mach.JoinRead.wakeJoins (h : m0.JoinRead k p f act d (m0.cellValue cell) m) :
    m0.JoinRead k p f act d (m0.cellValue cell) (m.wakeJoins k cell) := by
  obtain ⟨y, hy, hst, q, hq, hqp⟩ := h.task
  obtain ⟨g, hg, hregs⟩ := h.frame
  rcases hqp with rfl | hel
  · have hc' : m.cellState cell = 1 := (Mach.cellState_of_mem h.mem cell).trans hc
    obtain ⟨htask, hmem, hframes⟩ := Mach.wakeJoins_reads hy hq hw (.inr hst) hc'
    refine ⟨hmem.trans h.mem, htask, g.joined act d (m0.cellValue cell), ?_, fun r n hn => ?_⟩
    · rw [hframes, Sparse.get?_upd_self, hg, Mach.cellValue_of_mem h.mem]
      rfl
    · simp only [Frame.reg_joined _ _ _ _ _ _ hn, hregs r n hn]
      split_ifs <;> rfl
  · obtain ⟨h1, h2, h3⟩ := Mach.wakeJoins_none (cell := cell) hy hq hel
    exact ⟨h2.trans h.mem, ⟨y, by rw [h1]; exact hy, hst, q, hq, .inr hel⟩, g, by rw [h3]; exact hg, hregs⟩

theorem Mach.JoinRead.first {x : Task} (hx : m0.tasks.get? k = some x) (hst : x.st = .parked) (hp : x.paths = [p])
    (hf : m0.frames.get? p.frame = some f) : m0.JoinRead k p f act d (m0.cellValue cell) (m0.wakeJoins k cell) := by
  obtain ⟨htask, hmem, hframes⟩ := Mach.wakeJoins_reads hx hp hw (.inl hst) hc
  exact ⟨hmem, htask, _, by rw [hframes, Sparse.get?_upd_self, hf]; rfl, fun _ _ _ => rfl⟩

/-- A task is the one waiter of a cell, listed once or more often: waking the waiters has it read the cell. -/
theorem Mach.JoinRead.foldl {x : Task} (hx : m0.tasks.get? k = some x) (hst : x.st = .parked) (hp : x.paths = [p])
    (hf : m0.frames.get? p.frame = some f) {ts : List (Nat × Task)} (hne : ts ≠ []) (hts : ∀ e ∈ ts, e = (k, x)) :
    m0.JoinRead k p f act d (m0.cellValue cell) (ts.foldl (fun m e => m.wakeJoins e.1 cell) m0) := by
  rcases ts with _ | ⟨e, ts⟩
  · exact absurd rfl hne
  · rw [List.foldl_cons, hts e (by simp)]
    refine List.foldlRecOn (motive := fun m => m0.JoinRead k p f act d (m0.cellValue cell) m) _ _
      (.first hw hc hx hst hp hf) fun m hm e he => ?_
    rw [hts e (by simp [he])]
    exact hm.wakeJoins hw hc

end JoinRead

end Sys2Proof.Machine
end

section
/-! ## A resolved cell wakes its waiter (R132) -/

namespace Sys2Proof.Machine

/-- The tasks, of teams that have not ended, whose paths wait on a cell. -/
def Mach.joiners (m : Mach) (cell : Nat) : List (Nat × Task) :=
  m.tasks.filter fun e => e.2.paths.any (Path.joinsOn cell) && (m.team? e.2.team).any fun t => t.res ≠ .ended

theorem exec_joinWake {s : State} (hw : s.m.placeWaits true (.dev s.subj.x) = false) (h0 : s.m.cellState s.subj.x ≠ 0) :
    exec .joinWake s = .next (s.updM fun m => (m.joiners s.subj.x).foldl (fun m e => m.wakeJoins e.1 s.subj.x) m) := by
  show execJoinWake s = _
  simp only [execJoinWake, State.on, State.updM, hw, h0, Bool.false_eq_true, if_false]
  rfl

theorem Path.joinsOn_iff {cell : Nat} {p : Path} :
    p.joinsOn cell = true ↔ ∃ va tr d act, p.st = .waiting (.join cell va tr d act) := by
  unfold Path.joinsOn
  constructor
  · intro h
    split at h
    · next c va tr d act he =>
      cases of_decide_eq_true h
      exact ⟨va, tr, d, act, he⟩
    · cases h
  · rintro ⟨va, tr, d, act, he⟩
    simp [he]

/-- The one waiter of a cell, a parked task with one path, is the one task it wakes. -/
theorem Mach.joiners_one {m : Mach} {cell k : Nat} {x : Task} {tm : Team} {p : Path} (htm : m.team? x.team = some tm)
    (hres : tm.res ≠ .ended) (hp : x.paths = [p]) (hw : p.joinsOn cell = true) (hmem : (k, x) ∈ m.tasks)
    (hone : ∀ e ∈ m.tasks, (∃ q ∈ e.2.paths, ∃ va tr d act, q.st = .waiting (.join cell va tr d act)) → e = (k, x)) :
    m.joiners cell ≠ [] ∧ ∀ e ∈ m.joiners cell, e = (k, x) := by
  refine ⟨List.ne_nil_of_mem (a := (k, x)) (List.mem_filter.mpr ⟨hmem, ?_⟩), fun e he => ?_⟩
  · simp [hp, hw, htm, hres]
  · obtain ⟨hin, hjoin⟩ := List.mem_filter.mp he
    obtain ⟨q, hq, hqw⟩ := List.any_eq_true.mp (Bool.and_eq_true_iff.mp hjoin).1
    exact hone e hin ⟨q, hq, Path.joinsOn_iff.mp hqw⟩

end Sys2Proof.Machine
end

section
open Sys2Proof Sys2Proof.Machine

/-- Settles O53: the equation of each event in the case a clause speaks of, and what the machine it leaves reads. -/
theorem pathsWaitsStealing : Obligations.PathsWaitsStealing := by
  unfold Obligations.PathsWaitsStealing
  refine ⟨?_, ?_, ?_, ?_, ?_, ?_, ?_, ?_, ?_, ?_, ?_, ?_, ?_, ?_, ?_⟩
  · intro s k p hmay hk hp hin
    exact exec_pathSelection_standing hmay hk hp hin
  · intro s k x hmay hk hx hrun
    exact exec_pathSelection_selects hmay hk hx hrun
  · intro x p hd hlanes hp hst
    obtain ⟨q, hq, hqst, hle, a, hrun, hsub⟩ := Task.select_run hd hlanes hp hst
    exact ⟨_, hrun, rfl, hle, q, hq, hqst, rfl, rfl, hsub⟩
  · intro s tm r hr htm hruns hdy hfit
    exact exec_frameGrant hr htm hruns hdy hfit
  · intro s tm r hr htm hruns hdy hst
    exact ⟨fun hv => exec_frameStarved_full hr htm hruns hdy hst hv,
      fun frs m hv hops hsp => exec_frameStarved_spills hr htm hruns hdy hst hv hops hsp⟩
  · intro s k x tm p va d act f cell hx hst hp hw htm hres hf hmem hone hplace hc
    obtain ⟨hne, hall⟩ := Mach.joiners_one htm hres hp (Path.joinsOn_iff.mpr ⟨va, true, d, act, hw⟩) hmem hone
    have hread := Mach.JoinRead.foldl hw hc hx hst hp hf hne hall
    obtain ⟨y, hy, hyst, -⟩ := hread.task
    obtain ⟨g, hg, hregs⟩ := hread.frame
    refine ⟨_, exec_joinWake hplace (by rw [hc]; decide), ⟨y, hy, hyst⟩, fun a => congrArg (Memory.read · a) hread.mem,
      fun r n hn => ?_⟩
    have hkept : s.reg p.frame r n = f.reg r n := by simp only [State.reg, hf, Option.map_some, Option.getD_some]
    show ((((s.m.joiners cell).foldl (fun m e => m.wakeJoins e.1 cell) s.m).frames.get? p.frame).map _).getD 0 = _
    rw [hg, hkept]
    exact (hregs r n hn).trans (Frame.reg_joined f act d _ r n hn)
  · intro s x tm hx htm hruns hdy hall hon hlim
    exact exec_watchdog hx htm hruns hdy hall hon hlim
  · intro s o ho hcap haw
    exact exec_recoveryCapExpiry_op ho hcap haw
  · intro s x n hx hmay hcore hv hleast
    exact exec_stealRequest hx hmay hcore hv hleast
  · intro s x y v n k hx hv hr hy hruns hdy hcore hdie hn hk hkept
    obtain ⟨h1, h2, h3, h4⟩ := Mach.handOver_answered hx hy hkept hk
    exact ⟨_, exec_stealRequestReceive_gives hx hv hr hy hruns hdy hcore hn hk hdie, h1, h2, h3,
      fun a => congrArg (Memory.read · a) h4⟩
  · intro s x y v n k hx hv hr hy hruns hdy hcore hdie hn hk hkept copied
    refine ⟨s.m.stagedBytes_bounds k, ?_⟩
    obtain ⟨F, hF⟩ := s.m.stagedBytes_rest k
    by_cases hfar : x.xsteal.toNat % 2 ^ 16 * 256 < copied
    · refine ⟨_, exec_stealRequestReceive_far_refuses hx hv hr hy hruns hdy hcore hn hk hdie hfar, ?_⟩
      simp only [State.updM, State.byte, if_pos hfar, hF]
      exact ⟨fun a => rfl, rfl, Mach.answerThief_refused (m := { s.m with free := F }) hx hy⟩
    · refine ⟨_, exec_stealRequestReceive_far_gives hx hv hr hy hruns hdy hcore hn hk hdie hfar, ?_⟩
      obtain ⟨h1, h2, h3, h4⟩ := Mach.handOver_answered (m := { s.m with free := F }) hx hy hkept hk
      simp only [State.updM, State.byte, if_neg hfar, hF]
      exact ⟨fun a => congrArg (Memory.read · a) h4, h1, h2, h3⟩
  · intro s x v hx hv hr hno
    exact exec_stealRequestReceive_refuses hx hv hr hno
  · intro s x v n k hx hv cap
    refine ⟨fun hr hfull => exec_stealReply_waits hx hv hr hfull, fun hr hroom hk => ?_,
      fun hr => exec_stealReply_refused hx hv hr⟩
    obtain ⟨h1, h2⟩ := Mach.takenIn_rest hx n (s.m.arrivedTask s.subj.x x.gang k)
    exact ⟨_, exec_stealReply_arrives hx hv hr hroom hk, h1, h2⟩
  · intro s x hx hv htried hleft
    refine ⟨_, exec_stealBackoff hx hv htried hleft, ?_, fun a => rfl⟩
    exact (Sparse.get?_upd_self ..).trans (congrArg _ hx)
  · intro s x hx
    refine ⟨_, exec_stealIdleThreshold s, ?_, fun a => rfl⟩
    refine ((Sparse.get?_upd_self ..).trans (congrArg _ hx)).trans ?_
    cases hcross : s.m.crossDie x
    · simp [hcross]
    · simp [hcross]

end

section
/-! How a lease withdraws its unit, tests it, and gives it back or retires it (R146-R151, R160). -/

namespace Sys2Proof.Machine

/-! ## What teams, connections and capacity leave of hub and store -/

/-- The hub without its event records and its count of capacity changes. -/
def Hub.offCapacity (h : Hub) : Hub := { h.offRecords with capSeq := 0 }

/-- From a to s the hub has changed in its event records and its count of capacity changes alone, and the flash store not at all. -/
structure State.SameUnits (a s : State) : Prop where
  hub : s.sys.hub.offCapacity = a.sys.hub.offCapacity
  flash : s.sys.flash = a.sys.flash

namespace State.SameUnits

variable {a s t : State}

theorem refl (s : State) : s.SameUnits s := ⟨rfl, rfl⟩

theorem trans (h : a.SameUnits s) (g : s.SameUnits t) : a.SameUnits t := ⟨g.hub.trans h.hub, g.flash.trans h.flash⟩

theorem of_records (h : a.SameUnits s) (g : s.SameButRecords t) : a.SameUnits t :=
  h.trans ⟨congrArg (fun b : Hub => { b with capSeq := 0 }) g.hub, g.flash⟩

theorem updM {f : Mach → Mach} (h : a.SameUnits s) : a.SameUnits (s.updM f) := ⟨h.hub, h.flash⟩

theorem ite {c : Prop} [Decidable c] (h : a.SameUnits s) (g : a.SameUnits t) : a.SameUnits (if c then s else t) := by
  split
  · exact h
  · exact g

theorem foldl {α : Type} {f : State → α → State} {l : List α} (h : a.SameUnits s)
    (hf : ∀ s x, a.SameUnits s → a.SameUnits (f s x)) : a.SameUnits (l.foldl f s) := by
  induction l generalizing s with
  | nil => exact h
  | cons x l ih => exact ih (hf s x h)

theorem leases (h : a.SameUnits s) : s.sys.hub.leases = a.sys.hub.leases := congrArg (·.leases) h.hub
theorem outOfService (h : a.SameUnits s) : s.sys.hub.outOfService = a.sys.hub.outOfService := congrArg (·.outOfService) h.hub
theorem retired (h : a.SameUnits s) : s.sys.hub.retired = a.sys.hub.retired := congrArg (·.retired) h.hub
theorem scores (h : a.SameUnits s) : s.sys.hub.scores = a.sys.hub.scores := congrArg (·.scores) h.hub

theorem capacityChange {u : UnitRef} (h : a.SameUnits s) : a.SameUnits (s.capacityChange u) := by
  unfold State.capacityChange
  extract_lets s1 seq word s2
  have h1 : a.SameUnits s1 := h.trans ⟨rfl, rfl⟩
  have h2 : a.SameUnits s2 := h1.updM
  exact h2.of_records (State.event_same _ _ _ _)

theorem rebindTeam {tk : Nat} (h : a.SameUnits s) : a.SameUnits (s.rebindTeam tk) := by
  unfold State.rebindTeam
  split
  · extract_lets cands
    clear_value cands
    split
    · exact h
    · exact capacityChange h.updM
  · exact h

theorem rebindGang {launch gang : Nat} (h : a.SameUnits s) : a.SameUnits (s.rebindGang launch gang) := by
  unfold State.rebindGang
  split
  · exact h
  · extract_lets tks others
    split
    · exact capacityChange h.updM
    · exact h

theorem rebindAll {tks : List Nat} (h : a.SameUnits s) : a.SameUnits (s.rebindAll tks) := by
  unfold State.rebindAll
  refine h.foldl fun s tk g => ?_
  split
  · exact .ite g (.ite g.rebindTeam g.rebindGang)
  · exact g

theorem preempt {tk : Nat} {deadline : Option Nat} (h : a.SameUnits s) : a.SameUnits (s.preempt tk deadline) := by
  unfold State.preempt
  split
  · exact h
  · refine .ite h ?_
    split <;> exact h.updM

theorem drainCores {u : UnitRef} (h : a.SameUnits s) : a.SameUnits (s.drainCores u) :=
  .ite h (h.foldl fun _ _ g => g.foldl fun _ _ g => g.preempt)

theorem setConn {p : Nat} {c : Conn} (h : a.SameUnits s) : a.SameUnits (s.setConn p c) :=
  .ite h ((capacityChange h.updM).of_records (State.event_same _ _ _ _))

theorem dropLinkless {p : Nat} (h : a.SameUnits s) : a.SameUnits (s.dropLinkless p) := .ite h.setConn.updM h

theorem loseLane {u : UnitRef} (h : a.SameUnits s) : a.SameUnits (s.loseLane u) := by
  unfold State.loseLane
  split
  · exact h
  · exact .ite (dropLinkless h.updM) (.ite h.setConn h)

theorem unpinSlices {die : Nat} {mask : DWord} (h : a.SameUnits s) : a.SameUnits (s.unpinSlices die mask) := by
  unfold State.unpinSlices
  extract_lets hit s1
  have h1 : a.SameUnits s1 := h.updM
  exact h1.foldl fun _ _ g => g.of_records (State.event_same _ _ _ _)

theorem startMoves {stack base : Nat} (h : a.SameUnits s) : a.SameUnits (s.startMoves stack base) := by
  unfold State.startMoves
  refine h.foldl fun s f g => ?_
  split
  · exact g.updM
  · exact g.updM.of_records (State.event_same _ _ _ _)

end State.SameUnits

/-! ## Withdrawing a unit (R147, R148) -/

/-- Unit u is out of service under lease n, which drains it. -/
structure State.Withdrawn (s : State) (n : Nat) (u : UnitRef) : Prop where
  out : u ∈ s.sys.hub.outOfService
  lease : ∃ k, s.sys.hub.leases.get? n = some k ∧ k.u = u ∧ k.st = .draining

variable {s t : State} {n : Nat} {u : UnitRef} {l : Lease}

theorem State.Withdrawn.same (h : s.Withdrawn n u) (g : s.SameUnits t) : t.Withdrawn n u :=
  ⟨g.outOfService ▸ h.out, g.leases ▸ h.lease⟩

/-- A slice split out of its domain is withdrawn as before: its lease notes the entry it left. -/
theorem State.Withdrawn.splitOut (h : s.Withdrawn n l.u) (hl : l.st = .draining) : (s.splitOut n l).Withdrawn n l.u := by
  unfold State.splitOut
  split
  · exact h
  · rename_i k _
    extract_lets mask
    split
    · exact h
    · have g : s.SameUnits (s.unpinSlices l.u.die mask) := (State.SameUnits.refl s).unpinSlices
      exact ⟨(h.same g).out, { l with entry := some k }, Sparse.get?_put_self _ _ _, rfl, hl⟩

theorem State.beginDrain_withdrawn (s : State) (n : Nat) (l : Lease) : (s.beginDrain n l).Withdrawn n l.u := by
  unfold State.beginDrain
  extract_lets s1 s2 s3
  have h1 : s1.Withdrawn n l.u := by
    refine ⟨?_, { l with st := .draining }, Sparse.get?_put_self _ _ _, rfl, rfl⟩
    show l.u ∈ if s.sys.hub.outOfService.contains l.u then _ else _
    split <;> simp_all
  have h2 : s2.Withdrawn n l.u := h1.same (State.SameUnits.refl s1).capacityChange.drainCores
  have h3 : s3.Withdrawn n l.u := by
    unfold s3
    split
    · exact h2.splitOut (l := { l with st := .draining }) rfl
    · exact h2
  split
  · exact h3.same (.ite (State.SameUnits.refl s3).setConn (.refl s3))
  · exact h3

theorem exec_leaseStart (hl : s.sys.hub.leases.get? s.subj.x = some l) (h : s.leaseMayStart s.subj.x l = true) :
    exec .leaseStart s = .next (s.beginDrain s.subj.x l) := by
  have he : exec .leaseStart s = execLeaseStart s := rfl
  rw [he, execLeaseStart, hl]
  simp only [h, if_true]

/-! ## Drained units and their tests (R148, R149) -/

/-- A drained unit without a spare to move onto is tested, or goes on to retire. -/
theorem exec_leaseDrainDone (hl : s.sys.hub.leases.get? s.subj.x = some l) (hst : l.st = .draining)
    (hd : s.drainedUnit l.u = true) (hs : l.u.kind = 3 → s.findSpare l.u = none) :
    exec .leaseDrainDone s = .next ((s.updM fun m => m.testUnit l.u).updHub fun h => { h with
      leases := h.leases.put s.subj.x { l with st := if l.fail then .retiring else .testing, copying := false }
      forced := if l.u.kind = 3 then insertNat (chanStack l.u) h.forced else h.forced }) := by
  have he : exec .leaseDrainDone s = execLeaseDrainDone s := rfl
  have hnone : (if l.u.kind = 3 then s.findSpare l.u else none) = none := by simpa using hs
  rw [he, execLeaseDrainDone]
  simp only [hl, hst, hd, hnone, ne_eq, not_true_eq_false, if_false, Bool.not_true, Bool.false_eq_true]

/-- A channel whose stack's blocks have been copied is served by its spare. -/
theorem exec_leaseDrainDone_copied {p : Nat} (hl : s.sys.hub.leases.get? s.subj.x = some l) (hst : l.st = .draining)
    (hk : l.u.kind = 3) (hs : s.findSpare l.u = some p) (hc : l.copying = true) (hm : s.m.copying (chanStack l.u) = false) :
    exec .leaseDrainDone s = .next ((s.updM fun m => { m with phys := m.phys.put (unitCode l.u) p }).updHub fun h =>
      { h.setScore l.u 0 with
        leases := h.leases.put s.subj.x
          { l with st := .testing, copying := false, entry := some (s.m.physOf l.u), score := h.score l.u } }) := by
  have he : exec .leaseDrainDone s = execLeaseDrainDone s := rfl
  have hd : s.drainedUnit l.u = true := by simp [State.drainedUnit, hk]
  rw [he, execLeaseDrainDone]
  simp only [hl, hst, hd, hk, hs, ne_eq, not_true_eq_false, if_false, if_true, Bool.not_true, Bool.false_eq_true, State.evacuate, hm, hc]

theorem Mach.physOf_congr {m n : Mach} (h : n.phys = m.phys) (u : UnitRef) : n.physOf u = m.physOf u := by
  unfold Mach.physOf
  rw [h]

theorem Mach.physOf_put (m : Mach) (u : UnitRef) (p : Nat) :
    ({ m with phys := m.phys.put (unitCode u) p } : Mach).physOf u = p := by
  simp [Mach.physOf, Sparse.getD]

theorem Hub.score_passScore (h : Hub) (l : Lease) (fail : Bool) : (h.passScore l fail).score l.u =
    if fail = true ∨ (l.u.kind = 3 ∧ l.entry.isSome = true) then h.score l.u else h.score l.u / 4 := by
  unfold Hub.passScore
  by_cases hc : fail = true ∨ (l.u.kind = 3 ∧ l.entry.isSome = true)
  · rw [if_pos hc, if_pos (by simpa using hc)]
  · rw [if_neg hc, if_neg (by simpa using hc), Hub.score_setScore]

/-- The verdict on the result that counts: what the scrub pass of a read-only test found, or what the test reports. -/
theorem exec_leaseTestDone {r q : TestResult} (hl : s.sys.hub.leases.get? n = some l) (hst : l.st = .testing)
    (hq : (l.u.kind = 3 ∧ l.entry = none) → s.sys.hub.tested.get? n = some q) :
    let fail := if l.u.kind = 3 ∧ l.entry = none then TestResult.fails q 3 true else TestResult.fails r l.u.kind false
    exec (.leaseTestDone n r) s = .next (s.updHub fun h => { h.passScore l fail with
      leases := h.leases.put n { l with st := if fail then .retiring else .returning, fail := fail }
      tested := h.tested.del n }) := by
  have he : exec (.leaseTestDone n r) s = execLeaseTestDone n r s := rfl
  rw [he, execLeaseTestDone]
  by_cases ho : l.u.kind = 3 ∧ l.entry = none
  · simp only [hl, hst, ho.1, ho.2, hq ho, Option.isNone_none, decide_true, Bool.and_self, if_true, ne_eq, not_true_eq_false, if_false,
      and_self]
  · have hf : (decide (l.u.kind = 3) && l.entry.isNone) = false := by simpa [Option.isSome_iff_ne_none] using ho
    simp only [hl, hst, hf, ho, Bool.false_eq_true, if_false, ne_eq, not_true_eq_false]

theorem TestResult.fails_channel (r : TestResult) (only : Bool) :
    TestResult.fails r 3 only = true ↔ r.uncorrectable = true ∨ (if only then 64 else 16) < r.corrected := by
  simp [TestResult.fails]

theorem TestResult.fails_lane {kind : Nat} (hk : kind = 4 ∨ kind = 5) (r : TestResult) (only : Bool) :
    TestResult.fails r kind only = true ↔ r.trained = false ∨ r.bits < r.bitErrors * 10 ^ 12 := by
  rcases hk with rfl | rfl <;> simp [TestResult.fails]

theorem TestResult.fails_logic {kind : Nat} (hk : kind = 0 ∨ kind = 1 ∨ kind = 2) (r : TestResult) (only : Bool) :
    TestResult.fails r kind only = true ↔ r.mismatch = true ∨ r.uncorrectable = true := by
  rcases hk with rfl | rfl | rfl <;> simp [TestResult.fails]

/-! ## The end of a lease (R150, R151) -/

/-- What the end of a lease leaves of s: but for leases, event records and the count of capacity changes the hub as it was, the log and
what has left the pool too; and the scores are written to the store. -/
structure State.Ends (s t : State) : Prop where
  hub : t.sys.hub.offLeases.offCapacity = s.sys.hub.offLeases.offCapacity
  log : t.sys.flash.log = s.sys.flash.log
  stored : t.sys.flash.stored.scores = s.sys.hub.scores
  freed : t.m.freed = s.m.freed

namespace State.Ends

theorem outOfService (h : s.Ends t) : t.sys.hub.outOfService = s.sys.hub.outOfService := congrArg (·.outOfService) h.hub
theorem retired (h : s.Ends t) : t.sys.hub.retired = s.sys.hub.retired := congrArg (·.retired) h.hub
theorem resting (h : s.Ends t) : t.sys.hub.resting = s.sys.hub.resting := congrArg (·.resting) h.hub
theorem scores (h : s.Ends t) : t.sys.hub.scores = s.sys.hub.scores := congrArg (·.scores) h.hub

theorem takes (h : s.Ends t) (core : Nat) : t.sys.hub.takes core = s.sys.hub.takes core := by
  unfold Hub.takes Hub.coreIn
  rw [h.outOfService, h.resting]

/-- So does the end that comes after changes of teams, connections and capacity. -/
theorem after {a : State} (h : s.Ends t) (g : a.SameUnits s) (hf : s.m.freed = a.m.freed) : a.Ends t :=
  ⟨h.hub.trans (congrArg Hub.offLeases g.hub), h.log.trans (congrArg (·.log) g.flash), h.stored.trans g.scores, h.freed.trans hf⟩

end State.Ends

theorem State.event_freed (s : State) (qs : List Nat) (typ : Nat) (data : DWord) : (s.event qs typ data).m.freed = s.m.freed :=
  congrArg (·.freed) (s.event_same qs typ data).bytes

theorem State.capacityChange_freed (s : State) (u : UnitRef) : (s.capacityChange u).m.freed = s.m.freed := State.event_freed _ _ _ _

theorem State.endLease_ends (s : State) (n : Nat) (u : UnitRef) (retired : Bool) : s.Ends (s.endLease n u retired) := by
  unfold State.endLease
  extract_lets s1
  have h := s1.event_same [0] 0x0006 (unitData u (n + retired.toNat * 2 ^ 16))
  exact {
    hub := (congrArg Hub.offCapacity (Hub.seekLeases_offLeases _)).trans
      (congrArg (fun b : Hub => { b.offLeases with capSeq := 0 }) h.hub)
    log := (congrArg (·.log) h.flash).trans (Flash.log_writeService _ _ _)
    stored := (congrArg (·.stored.scores) h.flash).trans (congrArg Service.scores (Flash.stored_writeService _ _ _))
    freed := congrArg (·.freed) h.bytes }

/-- A unit back in service, its lease ended. -/
theorem State.backIn_ends (s : State) (n : Nat) (u : UnitRef) (retired : Bool) :
    (s.updHub fun h => h.serves u).Ends ((s.backIn u).endLease n u retired) :=
  (State.endLease_ends _ n u retired).after (State.SameUnits.refl _).capacityChange (State.capacityChange_freed _ u)

theorem State.retireDone_ends (s : State) (n : Nat) (u : UnitRef) : s.Ends (s.retireDone n u) := by
  unfold State.retireDone
  extract_lets seq
  have h : s.SameUnits (s.capacityChange u) := (State.SameUnits.refl s).capacityChange
  exact (State.endLease_ends _ n u true).after (h.of_records (State.event_same _ _ _ _))
    ((State.event_freed _ _ _ _).trans (s.capacityChange_freed u))

theorem Hub.serves_notMem (h : Hub) (u : UnitRef) : u ∉ (h.serves u).outOfService := by simp [Hub.serves]

theorem State.Ends.notOut (h : (s.updHub fun h => h.serves u).Ends t) : u ∉ t.sys.hub.outOfService := by
  rw [h.outOfService]
  exact Hub.serves_notMem _ _

/-- Cores that serve again rest until the next window boundary (R150). -/
theorem Hub.serves_takes (h : Hub) {u : UnitRef} {core : Nat} (hc : core ∈ leaseCores u) : (h.serves u).takes core = false := by
  simp [Hub.takes, Hub.serves, hc]

/-- A unit whose spare serves. -/
theorem State.finishRetire_spare (s : State) (n : Nat) (u : UnitRef) :
    (s.updHub fun h => h.serves u).Ends (s.finishRetire n u true) := State.retireDone_ends _ n u

/-- A hub that unit u has left for good. -/
def Hub.without (h : Hub) (u : UnitRef) : Hub := { h with
  retired := if h.retired.contains u then h.retired else h.retired ++ [u]
  outOfService := if h.outOfService.contains u then h.outOfService else h.outOfService ++ [u] }

theorem Hub.mem_without (h : Hub) (u : UnitRef) : u ∈ (h.without u).outOfService ∧ u ∈ (h.without u).retired := by
  unfold Hub.without
  constructor <;> dsimp only <;> split <;> simp_all

theorem State.loseUnit_same (s : State) (u : UnitRef) : (s.updHub fun h => h.without u).SameUnits (s.loseUnit u) := by
  unfold State.loseUnit
  extract_lets s1 cores tks s2
  have h2 : s1.SameUnits s2 := (State.SameUnits.refl s1).updM
  exact (State.SameUnits.ite h2.loseLane h2).rebindAll

/-- A channel takes no core with it. -/
theorem State.loseUnit_channel {s : State} {u : UnitRef} (hk : u.kind = 3) : s.loseUnit u = s.updHub fun h => h.without u := by
  have hc : leaseCores u = [] := by simp [leaseCores, hk]
  simp [State.loseUnit, State.rebindAll, hc, hk, Hub.without, State.updM, State.updHub]

/-- A unit that leaves for good: it has retired, and is out of service. -/
theorem State.finishRetire_lost (s : State) (n : Nat) (u : UnitRef) :
    u ∈ (s.finishRetire n u false).sys.hub.outOfService ∧ u ∈ (s.finishRetire n u false).sys.hub.retired ∧
      (s.finishRetire n u false).sys.flash.log = s.sys.flash.log := by
  have h : (s.loseUnit u).Ends (s.finishRetire n u false) := State.retireDone_ends _ n u
  have g := s.loseUnit_same u
  rw [h.outOfService, h.retired, h.log, g.outOfService, g.retired, g.flash]
  exact ⟨(s.sys.hub.mem_without u).1, (s.sys.hub.mem_without u).2, rfl⟩

/-! ## LEASE_RETURN (R150) -/

/-- The connection of a peer link that a lease has left without a lane is up again as the lease returns it. -/
def State.reconnect (s : State) (u : UnitRef) : State :=
  match s.loneLink u with
  | some p => if s.m.conn p = Conn.recovering then s.setConn p Conn.up else s
  | none => s

theorem State.reconnect_same (s : State) (u : UnitRef) : s.SameUnits (s.reconnect u) := by
  unfold State.reconnect
  split
  · exact .ite (State.SameUnits.refl s).setConn (.refl s)
  · exact .refl s

/-- A unit with no domain to go back into first is back in service. -/
theorem exec_leaseReturn (hl : s.sys.hub.leases.get? s.subj.x = some l) (hst : l.st = .returning)
    (hs : l.u.kind = 2 → s.sys.hub.splitting.get? l.u.die = none ∧ (l.moving = true ∨ s.m.mergeEntry l = none)) :
    exec .leaseReturn s = .next (((s.reconnect l.u).backIn l.u).endLease s.subj.x l.u false) := by
  have he : exec .leaseReturn s = execLeaseReturn s := rfl
  have hbusy : (decide (l.u.kind = 2) && (s.sys.hub.splitting.get? l.u.die).isSome) = false := by
    simpa using fun hk => (hs hk).1
  have hmerge : (decide (l.u.kind = 2) && !l.moving && (s.m.mergeEntry l).isSome) = false := by
    by_cases hk : l.u.kind = 2
    · rcases (hs hk).2 with h | h <;> simp [h]
    · simp [hk]
  rw [he, execLeaseReturn]
  simp only [hl, hst, hbusy, hmerge, ne_eq, not_true_eq_false, decide_false, Bool.or_self, Bool.false_eq_true, if_false]
  rfl

/-! ## LEASE_RETIRE: a unit with a spare of its own kind, or with none (R151) -/

/-- The signed record of a unit that retires from s (R85, R89). -/
def State.retirement (s : State) (u : UnitRef) (phys spare reason score : Nat) : Retirement :=
  let r : Retirement := ⟨s.sys.flash.records.length + 1, u, phys, spare, reason, score, s.m.mtime, []⟩
  { r with sig := signObject s.sys.rom.seed r.body }

theorem State.appendRecord_log (s : State) (u : UnitRef) (phys : Nat) (spare : Option Nat) (reason score : Nat) :
    (s.appendRecord u phys spare reason score).sys.flash.log =
      s.sys.flash.records ++ [s.retirement u phys (spare.getD 0xFFFF) reason score] := rfl

theorem State.bringIn_flash (s : State) (u : UnitRef) (p : Nat) : (s.bringIn u p).sys.flash = s.sys.flash := by
  have hlane (s : State) : (s.moveLane u).sys.flash = s.sys.flash := by
    unfold State.moveLane
    extract_lets s1
    split <;> rfl
  unfold State.bringIn
  extract_lets put s1
  have h1 : s1.sys.flash = s.sys.flash := rfl
  split
  · rw [State.updHub_flash, State.updM_sys, h1]
  · rw [hlane, h1]
  · rw [hlane, h1]
  · rw [State.updM_sys, h1]

/-- A spare slice takes the number of the slice it replaces. -/
theorem State.bringIn_slice (hk : u.kind = 2) (s : State) (p : Nat) : s.bringIn u p =
    (s.updHub fun h => h.setScore u 0).updM fun m => { m with phys := m.phys.put (unitCode u) p } := by
  simp [State.bringIn, hk]

theorem State.replaceUnit_none (h : s.findSpare l.u = none) :
    s.replaceUnit l = (false, s.appendRecord l.u (s.m.physOf l.u) none l.reason (s.sys.hub.score l.u)) := by
  simp only [State.replaceUnit, h]

theorem State.replaceUnit_spare {p : Nat} (h : s.findSpare l.u = some p) : s.replaceUnit l =
    (true, (s.appendRecord l.u (s.m.physOf l.u) (some p) l.reason (s.sys.hub.score l.u)).bringIn l.u p) := by
  simp only [State.replaceUnit, h]

theorem State.replaceUnit_fst (s : State) (l : Lease) : (s.replaceUnit l).1 = (s.findSpare l.u).isSome := by
  cases h : s.findSpare l.u with
  | none => rw [State.replaceUnit_none h]; rfl
  | some p => rw [State.replaceUnit_spare h]; rfl

theorem State.replaceUnit_log (s : State) (l : Lease) : (s.replaceUnit l).2.sys.flash.log =
    s.sys.flash.records ++ [s.retirement l.u (s.m.physOf l.u) ((s.findSpare l.u).getD 0xFFFF) l.reason (s.sys.hub.score l.u)] := by
  cases h : s.findSpare l.u with
  | none => rw [State.replaceUnit_none h, State.appendRecord_log]
  | some p => rw [State.replaceUnit_spare h, State.bringIn_flash, State.appendRecord_log]

/-- Bringing in a spare leaves the domains, and so the entry a slice goes back into. -/
theorem State.replaceUnit_mergeEntry (s : State) (l : Lease) : (s.replaceUnit l).2.m.mergeEntry l = s.m.mergeEntry l := by
  have hd : (s.replaceUnit l).2.m.domains = s.m.domains := by
    cases h : s.findSpare l.u with
    | none => rw [State.replaceUnit_none h]; rfl
    | some p =>
      rw [State.replaceUnit_spare h]
      exact congrArg (·.domains) (State.bringIn_finds _ l.u p).mach
  unfold Mach.mergeEntry Mach.domain
  rw [hd]

/-- A unit that is no channel retires: a spare slice with a domain to go into is merged first. -/
theorem exec_leaseRetire_unit (hl : s.sys.hub.leases.get? s.subj.x = some l) (hst : l.st = .retiring) (hm : l.moving = false)
    (hk : l.u.kind ≠ 3) (hs : l.u.kind = 2 → s.sys.hub.splitting.get? l.u.die = none) :
    exec .leaseRetire s = .next (
      if (s.findSpare l.u).isSome = true ∧ l.u.kind = 2 ∧ (s.m.mergeEntry l).isSome = true
        then (s.replaceUnit l).2.mergeBack s.subj.x l
      else (s.replaceUnit l).2.finishRetire s.subj.x l.u (s.findSpare l.u).isSome) := by
  have he : exec .leaseRetire s = execLeaseRetire s := rfl
  have hbusy : (decide (l.u.kind = 2) && (s.sys.hub.splitting.get? l.u.die).isSome) = false := by simpa using hs
  rw [he, execLeaseRetire]
  simp only [hl, hst, hbusy, hm, hk, ne_eq, not_true_eq_false, decide_false, Bool.false_and, Bool.or_self, Bool.false_eq_true, if_false,
    State.replaceUnit_mergeEntry, State.replaceUnit_fst]
  by_cases hc : (s.findSpare l.u).isSome = true ∧ l.u.kind = 2 ∧ (s.m.mergeEntry l).isSome = true
  · rw [if_pos hc, if_pos (by simpa [and_assoc] using hc)]
  · rw [if_neg hc, if_neg (by simpa [and_assoc] using hc)]

/-- What the start of a slice's merge leaves: units, scores and the log as they were, its lease waiting for the merge under way. -/
structure State.Merges (s t : State) (n : Nat) (l : Lease) : Prop where
  phys : t.m.phys = s.m.phys
  scores : t.sys.hub.scores = s.sys.hub.scores
  flash : t.sys.flash = s.sys.flash
  lease : t.sys.hub.leases.get? n = some { l with moving := true }
  splitting : (t.sys.hub.splitting.get? l.u.die).isSome = true

theorem State.mergeBack_merges (h : (s.m.mergeEntry l).isSome = true) (n : Nat) : s.Merges (s.mergeBack n l) n l := by
  obtain ⟨k, hk⟩ := Option.isSome_iff_exists.1 h
  have he : s.mergeBack n l = (s.startMerge l.u.die k 255 (.ofNat 64 (2 ^ l.u.unit))).updHub fun h =>
      { h with leases := h.leases.put n { l with moving := true } } := by
    simp only [State.mergeBack, hk]
  rw [he]
  exact ⟨rfl, rfl, rfl, Sparse.get?_put_self _ _ _, Option.isSome_iff_exists.2 ⟨k, Sparse.get?_put_self _ _ _⟩⟩

/-- A slice that has taken a spare's place and merges into its domain. -/
theorem State.replaceUnit_slice {p : Nat} (hk : l.u.kind = 2) (h : s.findSpare l.u = some p) :
    (s.replaceUnit l).2.m.physOf l.u = p ∧ (s.replaceUnit l).2.sys.hub.score l.u = 0 := by
  rw [State.replaceUnit_spare h, State.bringIn_slice hk]
  exact ⟨Mach.physOf_put _ _ _, Hub.score_setScore _ _ _⟩

/-- The second part of a retirement that has waited for its spare slice to be merged. -/
theorem exec_leaseRetire_merged (hl : s.sys.hub.leases.get? s.subj.x = some l) (hst : l.st = .retiring) (hm : l.moving = true)
    (hk : l.u.kind = 2) (hs : s.sys.hub.splitting.get? l.u.die = none) :
    exec .leaseRetire s = .next (s.finishRetire s.subj.x l.u true) := by
  have he : exec .leaseRetire s = execLeaseRetire s := rfl
  rw [he, execLeaseRetire]
  simp [hl, hst, hm, hk, hs]

/-! ## LEASE_RETIRE: channels (R151, R160) -/

section
variable (hl : s.sys.hub.leases.get? s.subj.x = some l) (hst : l.st = .retiring) (hk : l.u.kind = 3)
  (hs : s.sys.hub.stackMoves s.subj.x l.u = false)
include hl hst hk hs

/-- The record of an evacuated channel names the channel it left. -/
theorem exec_leaseRetire_evacuated {old : Nat} (hm : l.moving = false) (ho : l.entry = some old) :
    exec .leaseRetire s = .next ((s.appendRecord l.u old (some (s.m.physOf l.u)) l.reason l.score).finishRetire s.subj.x l.u true) := by
  have he : exec .leaseRetire s = execLeaseRetire s := rfl
  rw [he, execLeaseRetire]
  simp [hl, hst, hm, hk, hs, ho]

/-- The pages of the range that goes with a channel without a spare start to move. -/
theorem exec_leaseRetire_starts (hm : l.moving = false) (ho : l.entry = none) :
    exec .leaseRetire s = .next (((s.appendRecord l.u (s.m.physOf l.u) none l.reason (s.sys.hub.score l.u)).startMoves
      (chanStack l.u) (s.m.shrinkBase (chanStack l.u))).updHub fun h =>
        { h with leases := h.leases.put s.subj.x { l with moving := true, copying := false } }) := by
  have he : exec .leaseRetire s = execLeaseRetire s := rfl
  rw [he, execLeaseRetire]
  simp [hl, hst, hm, hk, hs, ho]

theorem exec_leaseRetire_shrinks (hm : l.moving = true) : exec .leaseRetire s = .next (s.shrink s.subj.x l) := by
  have he : exec .leaseRetire s = execLeaseRetire s := rfl
  rw [he, execLeaseRetire]
  simp [hl, hst, hm, hk, hs]

end

/-- What a channel on its way out waits for: a page of its range under way, or the copy of its stack's blocks. -/
def State.shrinkWaits (s : State) (stack : Nat) : Prop :=
  (∃ g ∈ s.m.migs, rangesMeet g.2.old g.2.size (s.m.shrinkBase stack) channelBytes = true) ∨ s.m.copying stack = true

theorem State.shrinkWaits_iff (s : State) (stack : Nat) :
    ((s.m.migs.any fun g => rangesMeet g.2.old g.2.size (s.m.shrinkBase stack) channelBytes) || s.m.copying stack) = true ↔
      s.shrinkWaits stack := by
  simp only [State.shrinkWaits, Bool.or_eq_true, List.any_eq_true]

theorem State.shrink_waits (h : s.shrinkWaits (chanStack l.u)) (n : Nat) : s.shrink n l = s :=
  if_pos ((s.shrinkWaits_iff _).2 h)

/-- With nothing to wait for: the pages left move, then the blocks are copied, then the range is freed. -/
theorem State.shrink_goesOn (h : ¬s.shrinkWaits (chanStack l.u)) (n : Nat) : s.shrink n l =
    if s.m.framesIn (s.m.shrinkBase (chanStack l.u)) channelBytes ≠ [] then
      s.startMoves (chanStack l.u) (s.m.shrinkBase (chanStack l.u))
    else if l.copying then
      (s.updM fun m => { m with freed := m.freed ++ [(s.m.shrinkBase (chanStack l.u), channelBytes)] }).finishRetire n l.u false
    else (s.updM fun m => m.startCopy (chanStack l.u) (s.m.shrinkBase (chanStack l.u))).updHub fun h =>
      { h with leases := h.leases.put n { l with copying := true } } :=
  if_neg (mt (s.shrinkWaits_iff _).1 h)

/-- A channel that leaves for good leaves the pool as it stands. -/
theorem State.finishRetire_freed (hk : u.kind = 3) (s : State) (n : Nat) : (s.finishRetire n u false).m.freed = s.m.freed := by
  have h : (s.loseUnit u).Ends (s.finishRetire n u false) := State.retireDone_ends _ n u
  rw [h.freed, State.loseUnit_channel hk, State.updHub_m]

theorem Mach.unmap_freed (m : Mach) (asid va size : Nat) : (m.unmap asid va size).freed = m.freed := by
  have hpins (m : Mach) (fs : List Nat) : (m.dropPins fs).freed = m.freed :=
    congrArg (·.freed) (Mach.SameButSlices.foldl Mach.unpin Mach.unpin_slices _ m)
  exact hpins _ _

/-- Unmapping pages and sealing others leaves the pool as it stands. -/
theorem State.startMoves_freed (s : State) (stack base : Nat) : (s.startMoves stack base).m.freed = s.m.freed := by
  unfold State.startMoves
  refine List.foldlRecOn (motive := fun t : State => t.m.freed = s.m.freed) _ _ rfl fun t ht f _ => ?_
  split
  · exact ht
  · refine (State.event_freed _ _ _ _).trans ?_
    exact List.foldlRecOn (motive := fun m : Mach => m.freed = s.m.freed) _ _ ht fun m hm p _ => (m.unmap_freed _ _ _).trans hm

end Sys2Proof.Machine
end

section
open Sys2Proof Sys2Proof.Machine

/-- Settles O49, event by event: what it makes of its lease, and what the end of a lease leaves (`State.Ends`). -/
theorem leasesRunTheirCourse : Obligations.LeasesRunTheirCourse := by
  unfold Obligations.LeasesRunTheirCourse
  refine ⟨fun s l hl h => ?_, fun s l hl hst hd hs => ?_, fun s l p hl hst hk hs hc hm => ?_, fun s n r q l hl hst => ?_,
    fun r kind => ⟨?_, fun hk only => TestResult.fails_lane hk r only, fun hk only => TestResult.fails_logic hk r only⟩,
    fun s l hl hst hs => ?_, fun s l hl hst hm hk hs => ?_, fun s l p hl hst hk hsp => ⟨fun hm hs he => ?_, fun hm => ?_⟩,
    fun s l hl hst hk hs => ⟨fun old hm ho => ?_, fun hm ho => ?_, fun hm => ⟨fun hw => ?_, fun hw hf => ?_, fun hw hf hc => ?_,
      fun hw hf hc => ?_⟩⟩⟩
  · have hw := s.beginDrain_withdrawn s.subj.x l
    exact ⟨_, exec_leaseStart hl h, hw.out, hw.lease⟩
  · exact ⟨_, exec_leaseDrainDone hl hst hd hs, _, Sparse.get?_put_self _ _ _, rfl, rfl⟩
  · exact ⟨_, exec_leaseDrainDone_copied hl hst hk hs hc hm, Mach.physOf_put _ _ _, Sparse.get?_put_self _ _ _⟩
  · intro only fail hq
    exact ⟨_, exec_leaseTestDone hl hst hq, Hub.score_passScore _ _ _, Sparse.get?_put_self _ _ _⟩
  · rintro rfl
    exact ⟨TestResult.fails_channel r false, TestResult.fails_channel r true⟩
  · have hrec := s.reconnect_same l.u
    have hends := (s.reconnect l.u).backIn_ends s.subj.x l.u false
    refine ⟨_, exec_leaseReturn hl hst hs, hends.notOut, fun c hc => ?_, hends.stored.trans hrec.scores⟩
    rw [hends.takes]
    exact Hub.serves_takes _ hc
  · intro r
    have hnot : ¬((s.findSpare l.u).isSome = true ∧ l.u.kind = 2 ∧ (s.m.mergeEntry l).isSome = true) := by
      rintro ⟨h1, h2, h3⟩
      rcases (hs h2).2 with h | h <;> simp_all
    have hx := exec_leaseRetire_unit hl hst hm hk fun h2 => (hs h2).1
    have hlog := s.replaceUnit_log l
    rw [if_neg hnot] at hx
    cases h : s.findSpare l.u with
    | none =>
      obtain ⟨hout, hret, hkept⟩ := (s.replaceUnit l).2.finishRetire_lost s.subj.x l.u
      rw [h, Option.isSome_none] at hx
      exact ⟨_, hx, hkept.trans hlog, fun hf => absurd hf (by simp), fun _ => ⟨hout, hret⟩⟩
    | some p =>
      have hends := (s.replaceUnit l).2.finishRetire_spare s.subj.x l.u
      rw [h, Option.isSome_some] at hx
      exact ⟨_, hx, hends.log.trans hlog, fun _ => hends.notOut, fun hf => absurd hf (by simp)⟩
  · intro r
    have hx := exec_leaseRetire_unit hl hst hm (by simp [hk]) fun _ => hsp
    rw [if_pos ⟨by simp [hs], hk, he⟩] at hx
    have hmerge := State.mergeBack_merges ((s.replaceUnit_mergeEntry l).symm ▸ he) s.subj.x
    obtain ⟨hphys, hscore⟩ := State.replaceUnit_slice hk hs
    have hlog := s.replaceUnit_log l
    rw [hs] at hlog
    exact ⟨_, hx, (Mach.physOf_congr hmerge.phys _).trans hphys, (Hub.score_congr hmerge.scores _).trans hscore,
      (congrArg (·.log) hmerge.flash).trans hlog, hmerge.lease, hmerge.splitting⟩
  · have hends := s.finishRetire_spare s.subj.x l.u
    exact ⟨_, exec_leaseRetire_merged hl hst hm hk hsp, hends.notOut, hends.log⟩
  · intro r
    have hends := State.finishRetire_spare (s.appendRecord l.u old (some (s.m.physOf l.u)) l.reason l.score) s.subj.x l.u
    exact ⟨_, exec_leaseRetire_evacuated hl hst hk hs hm ho, hends.notOut, Hub.score_congr hends.scores _, hends.log⟩
  · intro r
    have hmoves := (State.SameUnits.refl (s.appendRecord l.u (s.m.physOf l.u) none l.reason (s.sys.hub.score l.u))).startMoves
      (stack := chanStack l.u) (base := s.m.shrinkBase (chanStack l.u))
    exact ⟨_, exec_leaseRetire_starts hl hst hk hs hm ho, congrArg (·.log) hmoves.flash, Sparse.get?_put_self _ _ _,
      State.startMoves_freed _ _ _⟩
  · exact (exec_leaseRetire_shrinks hl hst hk hs hm).trans (congrArg _ (State.shrink_waits hw _))
  · rw [exec_leaseRetire_shrinks hl hst hk hs hm, State.shrink_goesOn hw, if_pos hf]
  · rw [exec_leaseRetire_shrinks hl hst hk hs hm, State.shrink_goesOn hw, if_neg (not_not.2 hf), if_neg (by simp [hc])]
  · have hx := exec_leaseRetire_shrinks hl hst hk hs hm
    rw [State.shrink_goesOn hw, if_neg (not_not.2 hf), if_pos hc] at hx
    obtain ⟨hout, hret, -⟩ := State.finishRetire_lost _ s.subj.x l.u
    exact ⟨_, hx, State.finishRetire_freed hk _ _, hret, hout⟩

end

section
/-! Special registers: what they read, and what a write of one changes (R154, R253, R296-R298, R326). -/

namespace Sys2Proof.Machine

/-! ## Reading a special register -/

theorem SReg.isPair_iff (r : SReg) : r.isPair = true ↔ r ∈ pairRegs := by
  cases r <;> decide

/-- What a special register reads, whether or not there is the task, the team, the launch or the handler it is of. -/
theorem State.sreg_eq (s : State) (c : Issue) (r : SReg) (idx lane : Nat) : s.sreg c r idx lane = specialValue s c idx lane r := by
  cases r with
  | prio => cases h : s.m.tasks.get? c.t <;> simp [State.sreg, specialValue, h]
  | fpstat => cases h : s.m.tasks.get? c.t <;> simp [State.sreg, specialValue, State.fpstat, h]
  | noteSeq | partition => cases h : s.m.launches.get? c.launch <;> simp [State.sreg, specialValue, h]
  | inbox => cases h : s.m.launches.get? c.launch <;> simp [State.sreg, specialValue, Launch.inboxHandle, h]
  | xsteal | trapvec => cases h : s.m.team? c.tk <;> simp [State.sreg, specialValue, h]
  | faultPc | faultCause | faultLanes | faultAddr =>
    cases h : s.m.handlerOf lane c.p.frame <;> simp [State.sreg, specialValue, h]
  | _ => rfl

theorem exec_movsRead {s : State} {c : Issue} {ct : Ctl} {r : SReg} {idx : BitVec 6} {d : Reg}
    (h : Issues s (.movsRead ct r idx d) c) :
    ∃ t, exec (.movsRead ct r idx d) s = .next t ∧ Writes s t c (.movsRead ct r idx d) fun _ _ n =>
      let v := specialValue s c idx.toNat n r
      if r ∈ pairRegs then res64 (.ofNat 64 v) else res32 (.ofNat 32 v) := by
  have hres : (fun (_ : Lanes) (_ : Nat → Args) n => s.sregRes r idx.toNat n) = fun _ _ n =>
      let v := specialValue s c idx.toNat n r
      if r ∈ pairRegs then res64 (.ofNat 64 v) else res32 (.ofNat 32 v) := by
    funext _ _ n
    simp only [State.sregRes, h.path, State.sreg_eq, SReg.isPair_iff]
  have he : exec (.movsRead ct r idx d) s =
      s.on fun m => m.alu (.movsRead ct r idx d) fun _ _ n => s.sregRes r idx.toNat n := rfl
  rw [he, hres]
  exact State.alu_regs _ h

/-! ## CAPACITY (R153, R154) -/

/-- The slices, or any units, of a dies of b each, counted die by die or in one run. -/
theorem countP_range_mul (p : Nat → Nat → Bool) (a : Nat) {b : Nat} (hb : 0 < b) :
    (List.range (a * b)).countP (fun n => p (n / b) (n % b)) = ((List.range a).map fun d => (List.range b).countP (p d)).sum := by
  induction a with
  | zero => simp
  | succ a ih =>
    have hlast : ((List.range b).map (a * b + ·)).countP (fun n => p (n / b) (n % b)) = (List.range b).countP (p a) := by
      rw [List.countP_map]
      refine List.countP_congr fun n hn => ?_
      have hn : n < b := List.mem_range.1 hn
      simp [Nat.mul_comm a b, Nat.mul_add_div hb, Nat.div_eq_of_lt hn, Nat.mod_eq_of_lt hn]
    rw [Nat.succ_mul, List.range_add, List.countP_append, ih, hlast, List.range_succ, List.map_append, List.sum_append]
    simp

theorem countP_range_le (p : Nat → Bool) (n : Nat) : (List.range n).countP p ≤ n :=
  List.countP_le_length.trans_eq List.length_range

/-- The clusters with a core of p among 64 clusters of four. -/
theorem countP_clusters (p : Nat → Bool) :
    ((List.range 64).filter fun c => ((List.range 256).filter p).any fun k => k / 4 = c).length =
      (List.range 64).countP fun q => (List.range 4).any fun k => p (4 * q + k) := by
  rw [← List.countP_eq_length_filter]
  refine List.countP_congr fun q hq => ?_
  have hq : q < 64 := List.mem_range.1 hq
  simp only [List.any_eq_true, List.mem_filter, List.mem_range, decide_eq_true_eq]
  constructor
  · rintro ⟨k, ⟨-, hp⟩, rfl⟩
    exact ⟨k % 4, Nat.mod_lt _ (by omega), by rwa [Nat.div_add_mod]⟩
  · rintro ⟨k, hk, hp⟩
    exact ⟨4 * q + k, ⟨by omega, hp⟩, by omega⟩

/-- The host link's bits of CAPACITY: its width and whether it runs slow. -/
def State.hostBits (s : State) : Nat := (s.sys.hub.hostLink.map fun l => hostWidth l * 2 + l.slow.toNat).getD 0

theorem State.hostBits_lt (s : State) : s.hostBits < 8 := by
  unfold State.hostBits
  cases s.sys.hub.hostLink with
  | none => simp
  | some l =>
    have hw : hostWidth l ≤ 2 := by
      unfold hostWidth
      split_ifs <;> omega
    have hs := Bool.toNat_le l.slow
    simp only [Option.map_some, Option.getD_some]
    omega

theorem Conn.code_lt (c : Conn) : c.code < 4 := by cases c <;> decide

/-- The peers' bits of CAPACITY: two for each module. -/
def State.peerBits (s : State) : Nat := ((List.range 8).map fun p => (s.m.conn p).code * 4 ^ p).sum

/-- Of eight peers' bits those of one are its state; there are 16 in all. -/
theorem State.peerBits_field (s : State) : s.peerBits < 2 ^ 16 ∧ ∀ p < 8, s.peerBits / 4 ^ p % 4 = (s.m.conn p).code := by
  have hcode (p : Nat) := (s.m.conn p).code_lt
  have h0 := hcode 0
  have h1 := hcode 1
  have h2 := hcode 2
  have h3 := hcode 3
  have h4 := hcode 4
  have h5 := hcode 5
  have h6 := hcode 6
  have h7 := hcode 7
  simp only [State.peerBits, List.range_succ, List.range_zero, List.nil_append, List.map_append, List.map_cons, List.map_nil,
    List.sum_append, List.sum_cons, List.sum_nil]
  refine ⟨by omega, fun p hp => ?_⟩
  interval_cases p <;> omega

/-- The counts the hub writes, each in its field: nothing carries into the next. -/
theorem State.capacityWord_toNat (s : State) : s.capacityWord.toNat =
    s.peerBits * 2 ^ 48 + s.hostBits * 2 ^ 44 +
      (512 - s.sys.hub.retired.countP fun u => u.kind = 3) * 2 ^ 31 +
      ((List.range 256).countP fun n => s.sliceServes (n / 64) (n % 64)) * 2 ^ 22 +
      ((List.range 256).countP s.sys.hub.coreIn) * 2 ^ 13 +
      ((List.range 64).countP fun q => (List.range 4).any fun k => s.sys.hub.coreIn (4 * q + k)) * 2 ^ 6 +
      min (s.sys.hub.outOfService.countP fun u => u.kind = 4) 63 := by
  have hpeers : ((List.range 8).map fun p => (s.m.conn p).code * 2 ^ (48 + 2 * p)).foldl (· + ·) 0 = s.peerBits * 2 ^ 48 := by
    rw [← List.sum_eq_foldl, State.peerBits, ← List.sum_map_mul_right]
    refine congrArg List.sum (List.map_congr_left fun p _ => ?_)
    rw [pow_add, pow_mul]
    ring
  have hhost : (s.sys.hub.hostLink.map fun l => hostWidth l * 2 ^ 45 + l.slow.toNat * 2 ^ 44).getD 0 = s.hostBits * 2 ^ 44 := by
    unfold State.hostBits
    cases s.sys.hub.hostLink with
    | none => rw [Option.map_none, Option.map_none, Option.getD_none, Nat.zero_mul]
    | some l => rw [Option.map_some, Option.map_some, Option.getD_some, Option.getD_some]; ring
  have hslices : ((List.range 4).map fun d => ((List.range 64).filter (s.sliceServes d)).length).foldl (· + ·) 0 =
      (List.range 256).countP fun n => s.sliceServes (n / 64) (n % 64) := by
    rw [← List.sum_eq_foldl]
    simp only [← List.countP_eq_length_filter]
    exact (countP_range_mul s.sliceServes 4 (b := 64) (by omega)).symm
  unfold State.capacityWord
  simp only [hpeers, hhost, hslices, countP_clusters]
  simp only [← List.countP_eq_length_filter]
  have hpeer := s.peerBits_field.1
  have hlink := s.hostBits_lt
  have hslice := countP_range_le (fun n => s.sliceServes (n / 64) (n % 64)) 256
  have hcore := countP_range_le s.sys.hub.coreIn 256
  have hcluster := countP_range_le (fun q => (List.range 4).any fun k => s.sys.hub.coreIn (4 * q + k)) 64
  rw [BitVec.toNat_ofNat, Nat.mod_eq_of_lt]
  omega

theorem State.capacityFields (s : State) : CapacityFields s := by
  have hword := s.capacityWord_toNat
  obtain ⟨hpeers, hpeer⟩ := s.peerBits_field
  have hlink := s.hostBits_lt
  have hslice := countP_range_le (fun n => s.sliceServes (n / 64) (n % 64)) 256
  have hcore := countP_range_le s.sys.hub.coreIn 256
  have hcluster := countP_range_le (fun q => (List.range 4).any fun k => s.sys.hub.coreIn (4 * q + k)) 64
  refine ⟨fun p hp => ?_, fun l hl => ?_, by omega, by omega, by omega, by omega, by omega⟩
  · have hhigh : s.capacityWord.toNat / 2 ^ 48 = s.peerBits := by omega
    rw [pow_add, ← Nat.div_div_eq_div_mul, hhigh, pow_mul]
    refine (hpeer p hp).trans ?_
    cases s.m.conn p <;> rfl
  · have hbits : s.capacityWord.toNat / 2 ^ 44 % 8 = s.hostBits := by omega
    have hhost : s.hostBits = hostWidth l * 2 + l.slow.toNat := by rw [State.hostBits, hl, Option.map_some, Option.getD_some]
    have hslow := Bool.toNat_le l.slow
    have hwidth : hostWidth l = if l.width = 8 then 1 else if l.width = 4 then 2 else 0 := rfl
    rw [← hwidth]
    constructor <;> omega

theorem nodup_eraseDups (l : List Nat) : l.eraseDups.Nodup := by
  induction hn : l.length using Nat.strong_induction_on generalizing l with
  | _ n ih =>
    cases l with
    | nil => simp
    | cons a l =>
      have hlen := List.length_filter_le (fun b => !b == a) l
      rw [List.eraseDups_cons, List.nodup_cons]
      exact ⟨by simp [List.mem_eraseDups], ih _ (by simp only [List.length_cons] at hn; omega) _ rfl⟩

/-- GCORES of a team whose gang's bound teams stand on the cores cs in service. -/
theorem State.gangCores_eq {s : State} {tk : Nat} {t : Team} (ht : s.m.team? tk = some t) {cs : List Nat} (hd : cs.Nodup)
    (hcs : ∀ c, c ∈ cs ↔ ∃ x ∈ s.m.teams, x.2.launch = t.launch ∧ x.2.gang = t.gang ∧ x.2.unbound = false ∧ x.2.core = c ∧
      s.sys.hub.coreIn c = true) : s.gangCores tk = cs.length := by
  simp only [State.gangCores, ht]
  refine List.Perm.length_eq ((List.perm_ext_iff_of_nodup (nodup_eraseDups _) hd).2 fun c => ?_)
  rw [hcs, List.mem_eraseDups, List.mem_map]
  simp only [List.mem_filter, Bool.and_eq_true, decide_eq_true_eq, Bool.not_eq_true']
  constructor
  · rintro ⟨x, ⟨hx, ⟨⟨hl, hg⟩, hu⟩, hc⟩, rfl⟩
    exact ⟨x, hx, hl, hg, hu, rfl, hc⟩
  · rintro ⟨x, hx, hl, hg, hu, rfl, hc⟩
    exact ⟨x, ⟨hx, ⟨⟨hl, hg⟩, hu⟩, hc⟩, rfl⟩

theorem State.capacityReads {s : State} {tk : Nat} {t : Team} {l : Launch} (ht : s.m.team? tk = some t)
    (hl : s.m.launches.get? t.launch = some l) : CapacityReads s tk t l := by
  have hof : s.capacityOf tk =
      l.capacity.toNat / 2 ^ 44 * 2 ^ 44 + s.gangCores tk * 2 ^ 41 + l.capacity.toNat % 2 ^ 41 := by
    simp only [State.capacityOf, Mach.launchOf, ht, Option.bind_some, hl, Option.map_some, Option.getD_some]
  refine ⟨fun cs hd hlen hcs => ?_, fun k hk hout hg => ?_⟩
  · have hg := State.gangCores_eq ht hd hcs
    omega
  · rw [BitVec.getLsbD]
    rcases hout with h | h
    · have hlow : s.capacityOf tk % 2 ^ 41 = l.capacity.toNat % 2 ^ 41 := by omega
      have hbit := congrArg (Nat.testBit · k) hlow
      simpa only [Nat.testBit_mod_two_pow, h, decide_true, Bool.true_and] using hbit
    · have hhigh : s.capacityOf tk / 2 ^ 44 = l.capacity.toNat / 2 ^ 44 := by omega
      have hbit := congrArg (Nat.testBit · (k - 44)) hhigh
      simpa only [Nat.testBit_div_two_pow, Nat.sub_add_cancel h] using hbit

/-! ## LEASE_STATE (R298) -/

theorem Hub.leaseState_none {h : Hub} {core : Nat}
    (hn : ∀ e ∈ h.leases, e.2.u ≠ coreUnit core ∧ e.2.u ≠ clusterUnit core) : h.leaseState core = 0 := by
  have hc : h.leases.find? (fun l => l.2.u = coreUnit core) = none := by simpa using fun n l hl => (hn (n, l) hl).1
  have hq : h.leases.find? (fun l => l.2.u = clusterUnit core) = none := by simpa using fun n l hl => (hn (n, l) hl).2
  simp [Hub.leaseState, Hub.leaseOf, hc, hq]

/-- The only lease of a unit is the one a search for the unit finds. -/
theorem Hub.find?_lease {h : Hub} {n : Nat} {l : Lease} (hm : (n, l) ∈ h.leases) (hu : ∀ e ∈ h.leases, e.2.u = l.u → e = (n, l)) :
    h.leases.find? (fun e => e.2.u = l.u) = some (n, l) := by
  cases he : h.leases.find? (fun e => e.2.u = l.u) with
  | none => simpa using List.find?_eq_none.1 he (n, l) hm
  | some e => rw [hu e (List.mem_of_find?_eq_some he) (by simpa using List.find?_some he)]

/-- The lease that LEASE_STATE of a core shows: its own, or with none its cluster's (log entry 60). -/
theorem Hub.leaseOf_eq {h : Hub} {core n : Nat} {l : Lease} (hm : (n, l) ∈ h.leases)
    (hu : ∀ e ∈ h.leases, e.2.u = l.u → e = (n, l))
    (hc : l.u = coreUnit core ∨ (l.u = clusterUnit core ∧ ∀ e ∈ h.leases, e.2.u ≠ coreUnit core)) :
    h.leaseOf core = some (n, l) := by
  have hf := Hub.find?_lease hm hu
  rcases hc with hc | ⟨hc, hn⟩
  · rw [hc] at hf
    rw [Hub.leaseOf, hf, Option.some_or]
  · rw [hc] at hf
    have hnone : h.leases.find? (fun l => l.2.u = coreUnit core) = none := by simpa using fun n l hl => hn (n, l) hl
    rw [Hub.leaseOf, hnone, Option.none_or, hf]

theorem Hub.leaseState_fields {h : Hub} {core n : Nat} {l : Lease} (hl : h.leaseOf core = some (n, l)) (hn : n < 2 ^ 16)
    (hk : l.u.kind < 2 ^ 8) : leaseFields (h.leaseState core) n l := by
  have hv : h.leaseState core = l.st.code * 2 ^ 29 + l.u.kind * 2 ^ 16 + n := by simp only [Hub.leaseState, hl]
  refine ⟨?_, by omega, by omega, by omega⟩
  have hst : h.leaseState core / 2 ^ 29 = l.st.code := by omega
  rw [hst]
  cases l.st <;> rfl

/-! ## Writing a special register -/

/-- A vector's address is bits 56 to 6 of the value written (R297). -/
theorem vecAddr_eq (p : DWord) : BitVec.ofNat 64 (vecAddr p) = p &&& 0x01FFFFFFFFFFFFC0 := by
  have hmask : (0x01FFFFFFFFFFFFC0 : DWord) = .ofNat 64 ((2 ^ 51 - 1) * 2 ^ 6) := rfl
  refine BitVec.eq_of_getLsbD_eq fun i hi => ?_
  rw [hmask, BitVec.getLsbD_and, BitVec.getLsbD_ofNat, BitVec.getLsbD_ofNat, vecAddr, Nat.testBit_mul_two_pow,
    Nat.testBit_mul_two_pow, Nat.testBit_mod_two_pow, Nat.testBit_div_two_pow, Nat.testBit_two_pow_sub_one]
  by_cases h6 : 6 ≤ i
  · simp [hi, h6, BitVec.getLsbD, Bool.and_comm]
  · simp [h6]

/-- The write of value w, or of pair p, to a special register by the issuing path: of a read-only one it does nothing (R296, R297). -/
def Mach.setSReg (m : Mach) (c : Issue) (r : SReg) (w : Word) (p : DWord) : Mach :=
  match r with
  | .prio => m.updTask c.t fun k => { k with prio := w.toNat % 8 }
  | .fpstat => m.updTask c.t fun k => { k with fpstat := w &&& 0x3F }
  | .xsteal => m.updTeam c.tk fun t => { t with xsteal := w }
  | .trapvec => m.updTeam c.tk fun t => { t with trapvec := p &&& 0x01FFFFFFFFFFFFC0 }
  | _ => m

theorem exec_movsWrite {s : State} {c : Issue} {ct : Ctl} {r : SReg} {idx : BitVec 6} {a : Reg}
    (h : Issues s (.movsWrite ct r idx a) c) (ha : c.active (.movsWrite ct r idx a) ≠ 0) :
    exec (.movsWrite ct r idx a) s = .next (s.goesOn c (.movsWrite ct r idx a)
      ((s.start c (.movsWrite ct r idx a)).setSReg c r
        (c.f.reg a.toNat (lowLane (c.active (.movsWrite ct r idx a))))
        (c.f.pair a.toNat (lowLane (c.active (.movsWrite ct r idx a)))))) := by
  have he : exec (.movsWrite ct r idx a) s = execMovsWrite ct r idx a s := rfl
  rw [he, execMovsWrite, State.act_goesOn rfl h ha rfl]
  cases r with
  | trapvec => simp only [vecAddr_eq, Mach.setSReg]
  | _ => rfl

variable (m : Mach) (c : Issue) (r : SReg) (w : Word) (p : DWord)

@[simp] theorem Mach.mem_setSReg : (m.setSReg c r w p).mem = m.mem := by cases r <;> rfl
@[simp] theorem Mach.frames_setSReg : (m.setSReg c r w p).frames = m.frames := by cases r <;> rfl
@[simp] theorem Mach.warps_setSReg : (m.setSReg c r w p).warps = m.warps := by cases r <;> rfl

/-- PRIO and FPSTAT are of the issuing path's task. -/
theorem Mach.tasks_setSReg (k : Nat) : (m.setSReg c r w p).tasks.get? k = (m.tasks.get? k).map fun x => { x with
    prio := if r = .prio ∧ k = c.t then w.toNat % 8 else x.prio
    fpstat := if r = .fpstat ∧ k = c.t then w &&& 0x3F else x.fpstat } := by
  cases r with
  | prio | fpstat => by_cases hk : k = c.t <;> simp [Mach.setSReg, Mach.updTask, hk]
  | _ => simp [Mach.setSReg]

/-- XSTEAL and TRAPVEC are of its team. -/
theorem Mach.team_setSReg (k : Nat) : (m.setSReg c r w p).team? k = (m.team? k).map fun x => { x with
    xsteal := if r = .xsteal ∧ k = c.tk then w else x.xsteal
    trapvec := if r = .trapvec ∧ k = c.tk then p &&& 0x01FFFFFFFFFFFFC0 else x.trapvec } := by
  cases r with
  | xsteal | trapvec => by_cases hk : k = c.tk <;> simp [Mach.setSReg, Mach.updTeam, Mach.team?, hk]
  | prio | fpstat => simp [Mach.setSReg, Mach.team?]
  | _ => simp [Mach.setSReg]

variable {m c}

theorem Mach.Runs.setSReg (h : m.Runs c) : (m.setSReg c r w p).Runs c := by
  obtain ⟨hw, k, hk, hst⟩ := h
  refine ⟨(m.warps_setSReg c r w p).symm ▸ hw, ?_⟩
  rw [Mach.tasks_setSReg, hk]
  exact ⟨_, rfl, hst⟩

theorem Mach.fpstatOf_setSReg (h : r ≠ .fpstat) : (m.setSReg c r w p).fpstatOf c.t = m.fpstatOf c.t := by
  simp [Mach.fpstatOf, Mach.tasks_setSReg, h, Function.comp_def]

theorem Mach.fpstatOf_setSReg_fpstat (h : ∃ k, m.tasks.get? c.t = some k) :
    (m.setSReg c .fpstat w p).fpstatOf c.t = w &&& 0x3F := by
  obtain ⟨k, hk⟩ := h
  simp [Mach.fpstatOf, Mach.tasks_setSReg, hk]

end Sys2Proof.Machine
end

section
open Sys2Proof Sys2Proof.Machine

/-- Settles O30: a read gives `specialValue` (`State.sreg_eq`), whose CAPACITY and LEASE_STATE have lemmas field by field; a write is
`Mach.setSReg` between two changes that keep what `Still` names. -/
theorem specialRegistersReadAndWritten : Obligations.SpecialRegistersReadAndWritten := by
  unfold Obligations.SpecialRegistersReadAndWritten
  refine ⟨fun s ct r idx d c h => exec_movsRead h, State.capacityFields, fun s tk t l => State.capacityReads,
    fun s core => ⟨Hub.leaseState_none, fun n l hn hk hm hu hc => Hub.leaseState_fields (Hub.leaseOf_eq hm hu hc) hn hk⟩,
    fun s ct r idx a c => ?_⟩
  intro i w p h ha
  have hissued : Still s.m (s.start c i) := Still.issuedWith s.m c i
  have hruns : (s.start c i).Runs c := (Mach.runs_issuing h.path).issuedWith i
  let m := (s.start c i).setSReg c r w p
  have hdone : Still m (s.goesOn c i m).m := (Still.goOn m c _ _ _).trans (Still.settle _ _ _)
  have hfp : (s.goesOn c i m).fpstat c.t = m.fpstatOf c.t := Mach.fpstatOf_finish (hruns.setSReg r w p) _ _ _
  refine ⟨_, exec_movsWrite h ha, rfl, rfl, fun x => ?_, fun fr k n => ?_, ?_, fun hr => ?_, fun k hk => ?_, fun k tm hk => ?_⟩
  · exact (hdone.mem x).trans (((s.start c i).mem_setSReg c r w p).symm ▸ hissued.mem x)
  · have hframes : (s.goesOn c i m).m.frames = s.m.frames := by simp [State.goesOn, m, State.start]
    rw [State.reg, State.reg, hframes]
  · rintro rfl -
    obtain ⟨k, hk, -⟩ := hruns.task
    exact hfp.trans (Mach.fpstatOf_setSReg_fpstat w p ⟨k, hk⟩)
  · exact hfp.trans ((Mach.fpstatOf_setSReg r w p hr).trans (Mach.fpstatOf_issuedWith s.m c i))
  · obtain ⟨y, hy, -, hky⟩ := hdone.tasks _ k hk
    rw [Mach.tasks_setSReg] at hy
    obtain ⟨z, hz, rfl⟩ := Option.map_eq_some_iff.1 hy
    obtain ⟨k', hk', -, hzk⟩ := hissued.tasks _ z hz
    exact ⟨k', hk', by simp [hky, hzk]⟩
  · have hstart := hissued.teams k
    have hend := hdone.teams k
    rw [hk, Option.map_some, Option.map_eq_some_iff] at hstart
    obtain ⟨x, hx, hxtm⟩ := hstart
    rw [Mach.team_setSReg, hx, Option.map_some, Option.map_some, Option.map_eq_some_iff] at hend
    obtain ⟨tm', htm', htm⟩ := hend
    simp only [Prod.mk.injEq] at hxtm htm
    exact ⟨tm', htm', by rw [htm.1, hxtm.1], by rw [htm.2, hxtm.2]⟩

end

section
/-! ## Division, special functions and `cvt.pk` as they issue (R314, R386, R392) -/

namespace Sys2Proof.Machine

/-- The remainder by 0 is the dividend (R314). -/
theorem iremRes_eq (t : Ty) (a b : DWord) : iremRes t a b = intRes t false ((extT t a).tmod (extT t b)) := by
  simp only [iremRes]
  split
  · next h => rw [h, Int.tmod_zero]
  · rfl

/-- The instructions of R314 and R386 are long-latency operations of their lane values. -/
theorem exec_longAlu {i : Instr} {g : Args → Res} (hg : longValue i = some g) (s : State) :
    exec i s = s.on fun m => m.longAlu i g := by
  cases i
  case irem ct t d a b =>
    cases hg
    have hrem : (fun v : Args => iremRes t v.a v.b) = fun v => intRes t false ((extT t v.a).tmod (extT t v.b)) :=
      funext fun v => iremRes_eq t v.a v.b
    rw [← hrem]
    rfl
  case idiv | frcp | frsq | fsqrt | fdiv | fexp2 | flog2 | fsin | fcos | ftanh =>
    cases hg
    rfl
  all_goals cases hg

/-- A long-latency register instruction goes under way with the words of its results, and its FPSTAT bits (R185, R246). -/
theorem State.longAlu_underWay {s : State} {i : Instr} {c : Issue} (g : Args → Res) (h : LongIssues s i c) :
    let rs := (laneList (c.active i)).map fun n => (n, g (argsOf c.f (Instr.shape i) n))
    s.on (fun m => m.longAlu i g) = .next (s.underWay c i false
      (.writes (rs.flatMap fun r => r.2.ws.zipIdx.map fun w => (Opd.base (Instr.shape i).d + w.2, r.1, w.1)) (fpOf rs))
      (s.start c i)) := by
  intro rs
  have e := State.long_underWay (f := fun m => m.longAlu i g) rfl h rfl
  exact e

theorem Mach.lsRead_of_teams {m n : Mach} (h : n.teams = m.teams) (tk off k : Nat) : n.lsRead tk off k = m.lsRead tk off k := by
  rw [Mach.lsRead, Mach.lsRead, Mach.team?, Mach.team?, h]

theorem Mach.poisoned_ls_of_teams {m n : Mach} (h : n.teams = m.teams) (tk off k : Nat) :
    n.poisoned (.ls tk off) k = m.poisoned (.ls tk off) k := by
  simp only [Mach.poisoned, Mach.team?, h]

/-- `cvt.pk` fixes as it issues what each lane receives of its block, and consumes poison in it (R392). -/
theorem exec_cvtPk {s : State} {ct : Ctl} {d a b : Reg} {c : Issue} :
    let i : Instr := .cvtPk ct d a b
    LongIssues s i c → s.m.cvtPkChk c (c.active i) a = .ok →
    let block (n : Nat) : Nat := (c.f.reg a.toNat n).toNat
    let rs := (laneList (c.active i)).map fun n =>
      (n, blockRes (s.m.lsRead c.tk (block n) 64) (c.f.reg b.toNat n).toNat)
    let bad := (laneList (c.active i)).any fun n => s.m.poisoned (.ls c.tk (block n)) 64
    exec i s = .next (s.underWay c i false
      (.writes (rs.map fun r => (d.toNat, r.1, .ofNat 32 r.2.bits)) (rs.foldl (fun w r => w ||| r.2.fp.word) 0))
      ((s.start c i).consume c.tk c.w bad 0)) := by
  intro i h hc block rs bad
  have hteams : (s.start c (.cvtPk ct d a b)).teams = s.m.teams := s.m.teams_issuedWith c _
  refine (State.long_underWay (f := fun m => _) rfl h hc : execCvtPk ct d a b s = _).trans ?_
  simp only [Mach.lsRead_of_teams hteams, Mach.poisoned_ls_of_teams hteams]
  rfl

end Sys2Proof.Machine
end

section
open Sys2Proof Sys2Proof.Machine

/-- Settles O9: each instruction is `Mach.longAlu` of its lane values; what `cvt.pk` reads, its issue has not changed. -/
theorem longArithmeticUnderWay : Obligations.LongArithmeticUnderWay := by
  unfold Obligations.LongArithmeticUnderWay
  refine ⟨fun s i c g hg h ha hr => ?_, fun s ct d a b c h hc => exec_cvtPk h hc⟩
  rw [exec_longAlu hg]
  exact State.longAlu_underWay g ⟨h, ha, hr⟩

end

section
/-! ## Returns and unwinds (R257, R262, R266) -/

namespace Sys2Proof.Machine

theorem getLsbD_laneBit (k : Nat) {n : Nat} (hn : n < 32) : (laneBit k).getLsbD n = decide (k = n) := by
  simp only [laneBit, BitVec.getLsbD_ofNat, hn, decide_true, Bool.true_and, Nat.testBit_two_pow]

/-- The members of a set of lanes. -/
theorem getLsbD_laneSet (ns : List Nat) {n : Nat} (hn : n < 32) : (laneSet ns).getLsbD n = decide (n ∈ ns) := by
  have hfold (l : Lanes) : (ns.foldl (fun l n => l ||| laneBit n) l).getLsbD n = (l.getLsbD n || decide (n ∈ ns)) := by
    induction ns generalizing l with
    | nil => simp
    | cons k ns ih =>
      rw [List.foldl_cons, ih, BitVec.getLsbD_or, getLsbD_laneBit k hn]
      simp [Bool.or_assoc, eq_comm]
  simpa [laneSet] using hfold 0

/-- The active lanes for which there is a link are all of them, where there is one for each. -/
theorem none_missing {act : Lanes} {f : Nat → Option Link} (h : ∀ n, act.getLsbD n = true → (f n).isSome) :
    act &&& ~~~laneSet (((laneList act).filterMap fun n => (f n).map fun l => (n, l)).map (·.1)) = 0 := by
  refine BitVec.eq_of_getLsbD_eq fun n hn => ?_
  rw [BitVec.getLsbD_and, BitVec.getLsbD_not, getLsbD_laneSet _ hn]
  cases ha : act.getLsbD n with
  | false => simp
  | true =>
    obtain ⟨l, hl⟩ := Option.isSome_iff_exists.mp (h n ha)
    have hmem : n ∈ ((laneList act).filterMap fun n => (f n).map fun l => (n, l)).map (·.1) :=
      List.mem_map.mpr ⟨(n, l), List.mem_filterMap.mpr ⟨n, mem_laneList.mpr ⟨hn, ha⟩, by simp [hl]⟩, rfl⟩
    simp [hmem]

/-- No result of the links ls, given from register s up, is still awaited (R187). -/
theorem Frame.no_result_awaited {f : Frame} {s : Nat} {ls : List (Nat × Link)}
    (h : ∀ l ∈ ls, ∀ r < l.2.nres, f.mark? (s + r) l.1 = none) :
    (ls.any fun l => (List.range l.2.nres).any fun r => (f.mark? (s + r) l.1).isSome) = false := by
  simp only [List.any_eq_false, List.mem_range, Bool.not_eq_true, Option.isSome_eq_false_iff, Option.isNone_iff_eq_none]
  exact h

/-- An instruction raises the fault its own check finds (R248). -/
theorem State.issue_raises {s : State} {i : Instr} {c : Issue} {stay : Issue → Lanes → Lanes} {chk : Issue → Lanes → Chk}
    {eff : Issue → Lanes → Mach → Flow × Mach} {f : Mach → Mach} (hf : f s.m = s.m.issue i stay chk eff)
    (hp : s.m.issuing = some c) (hl : checks c (Instr.shape i) (c.active i) = none) (ha : c.active i ≠ 0) {x : Fail}
    (hc : chk c (c.active i) = .fail x) : s.on f = .next (s.faults c x) := by
  unfold Issue.active at hl ha hc
  simp only [State.on, hf, Mach.issue, hp, hl, ha, if_false, hc]
  rfl

section Ret
variable {s : State} {ct : Ctl} {c : Issue}

/-- `ret` of a handler (R257). -/
theorem exec_ret_handler {h : Handler} (hi : IssuesTo s (.ret ct) c (c.p.lanes &&& ~~~c.active (.ret ct)))
    (hh : c.f.handler = some h) :
    let act := c.active (.ret ct)
    let ls := (laneList act).filterMap fun n => (c.f.links.get? n).map fun l => (n, l)
    exec (.ret ct) s = .next (s.splits c (.ret ct) act [] (((s.start c (.ret ct)).returnTo c act
      [⟨act, h.pc, h.clause, h.entered, (ls.head?.map (·.2.caller)).getD 0, .eligible, 0⟩]).updTask c.t fun k =>
        k.relatch act h.latch)) := by
  intro act ls
  refine (State.issue_splits (f := fun m => _) rfl hi (fun _ => ?_) ?_ : execRet ct s = _)
  · simp only [hh, Option.isSome_some, if_true]
  · simp only [hh]
    rfl

/-- `ret` to callers (R262). -/
theorem exec_ret_callers (hi : IssuesTo s (.ret ct) c (c.p.lanes &&& ~~~c.active (.ret ct))) (hh : c.f.handler = none)
    (hd : 1 < c.f.depth) :
    let act := c.active (.ret ct)
    let ls := (laneList act).filterMap fun n => (c.f.links.get? n).map fun l => (n, l)
    (∀ l ∈ ls, ∀ r < l.2.nres, c.f.mark? r l.1 = none) →
    exec (.ret ct) s = .next (s.splits c (.ret ct) act []
      ((ls.foldl (fun m l => m.giveResults c.p.frame 0 l) (s.start c (.ret ct))).returnTo c act (returnPaths ls))) := by
  intro act ls hm
  have hnone := c.f.no_result_awaited (s := 0) (by simpa only [Nat.zero_add] using hm)
  simp only [Nat.zero_add] at hnone
  refine (State.issue_splits (f := fun m => _) rfl hi (fun _ => ?_) ?_ : execRet ct s = _)
  · simp only [hh, Option.isSome_none, Bool.false_eq_true, if_false, Nat.not_le.mpr hd]
    exact if_neg (Bool.eq_false_iff.mp hnone)
  · simp only [hh]
    rfl

section Fails
variable (hp : s.m.issuing = some c) (hl : checks c (Instr.shape (.ret ct)) (c.active (.ret ct)) = none)
  (ha : c.active (.ret ct) ≠ 0) (hh : c.f.handler = none)
include hp hl ha hh

theorem exec_ret_depth (hd : c.f.depth ≤ 1) :
    exec (.ret ct) s = .next (s.faults c { cause := .frameDepth, lanes := c.active (.ret ct), detail := 2 }) := by
  refine (State.issue_raises (f := fun m => _) rfl hp hl ha ?_ : execRet ct s = _)
  simp only [hh, Option.isSome_none, Bool.false_eq_true, if_false, hd, if_true]

theorem exec_ret_unwaited (hd : 1 < c.f.depth) {n r : Nat} {l : Link} (hn : n < 32) (hact : (c.active (.ret ct)).getLsbD n = true)
    (hlink : c.f.links.get? n = some l) (hr : r < l.nres) (hmark : (c.f.mark? r n).isSome) :
    exec (.ret ct) s = .next (s.faults c { cause := .unwaited, lanes := c.active (.ret ct) }) := by
  have hmem : (n, l) ∈ (laneList (c.active (.ret ct))).filterMap fun n => (c.f.links.get? n).map fun l => (n, l) :=
    List.mem_filterMap.mpr ⟨n, mem_laneList.mpr ⟨hn, hact⟩, by simp [hlink]⟩
  refine (State.issue_raises (f := fun m => _) rfl hp hl ha ?_ : execRet ct s = _)
  simp only [hh, Option.isSome_none, Bool.false_eq_true, if_false, Nat.not_le.mpr hd]
  exact if_pos (List.any_eq_true.mpr ⟨_, hmem, List.any_eq_true.mpr ⟨r, List.mem_range.mpr hr, hmark⟩⟩)

end Fails
end Ret

/-- `unwind.to` (R266). -/
theorem exec_unwindTo {s : State} {ct : Ctl} {sb : Reg} {c : Issue} :
    let i : Instr := .unwindTo ct sb
    let act := c.active i
    let ls := (laneList act).filterMap fun n => (s.m.markedBelow n c.p.frame).map fun l => (n, l)
    IssuesTo s i c (c.p.lanes &&& ~~~act) → (∀ n, act.getLsbD n = true → (s.m.markedBelow n c.p.frame).isSome) →
    (∀ l ∈ ls, ∀ r < l.2.nres, c.f.mark? (sb.toNat + r) l.1 = none) →
    exec i s = .next (s.splits c i act [] ((ls.foldl (fun m l =>
      (m.giveResults c.p.frame sb.toNat l).padResults c.p.frame sb.toNat l) (s.start c i)).returnTo c act (returnPaths ls))) := by
  intro i act ls hi hmarked hm
  refine (State.issue_splits (f := fun m => _) rfl hi (fun _ => ?_) rfl : execUnwindTo ct sb s = _)
  have hnone := Frame.no_result_awaited hm
  have hmissing := none_missing hmarked
  simp only [act, i] at hmissing
  simp only [ls, act, i] at hnone
  simp only [hmissing, hnone, ne_eq, not_true_eq_false, Bool.false_eq_true, if_false]

end Sys2Proof.Machine
end

section
open Sys2Proof Sys2Proof.Machine

/-- Settles O23: the equation of `ret` in each case its check tells apart (R257, R262), and that of `unwind.to` (R266). -/
theorem returnsAndUnwinds : Obligations.ReturnsAndUnwinds := by
  unfold Obligations.ReturnsAndUnwinds
  refine ⟨fun s ct c => ?_, fun s ct c => ?_, fun s ct sb c => ?_⟩
  · intro i act ls hi _
    exact ⟨fun h hh => exec_ret_handler hi hh, fun hh hd hm => exec_ret_callers hi hh hd hm⟩
  · intro i act hp hl ha hh
    refine ⟨exec_ret_depth hp hl ha hh, ?_⟩
    rintro hd ⟨n, l, r, hact, hn, hlink, hr, hmark⟩
    exact exec_ret_unwaited hp hl ha hh hd hn hact hlink hr hmark
  · intro i act ls hi _ hmarked hm
    exact exec_unwindTo hi hmarked hm

end

section
/-! ## What a load's accesses leave of the machine (R45, R205, R333)

They change what slices and L1Ds hold; what a load reads turns on the rest, but where it may use a copy. -/

namespace Sys2Proof.Machine

/-- Two machines that differ in what their slices and the L1Ds of their cores hold alone. -/
structure Mach.SameButCaches (m n : Mach) : Prop where
  rest : { n.offSlices with cores := [] } = { m.offSlices with cores := [] }
  stores : ∀ k, (n.core k).stores = (m.core k).stores

namespace Mach.SameButCaches
variable {a b c m n : Mach}

theorem of_slices (h : m.SameButSlices n) : m.SameButCaches n :=
  ⟨congrArg (fun x : Mach => { x with cores := [] }) h, fun k => by rw [Mach.core, Mach.core, h.cores]⟩

theorem refl (m : Mach) : m.SameButCaches m := .of_slices (.refl m)

theorem trans (h : a.SameButCaches b) (g : b.SameButCaches c) : a.SameButCaches c :=
  ⟨g.rest.trans h.rest, fun k => (g.stores k).trans (h.stores k)⟩

theorem updCore (m : Mach) (k : Nat) (f : Core → Core) (hf : ∀ c, (f c).stores = c.stores) : m.SameButCaches (m.updCore k f) := by
  refine ⟨rfl, fun j => ?_⟩
  simp only [Mach.updCore, Mach.core, Sparse.getD, Sparse.get?_put]
  split
  · next h => subst h; exact hf _
  · rfl

theorem mem (h : m.SameButCaches n) : n.mem = m.mem := congrArg (·.mem) h.rest
theorem teams (h : m.SameButCaches n) : n.teams = m.teams := congrArg (·.teams) h.rest
theorem tasks (h : m.SameButCaches n) : n.tasks = m.tasks := congrArg (·.tasks) h.rest
theorem launches (h : m.SameButCaches n) : n.launches = m.launches := congrArg (·.launches) h.rest
theorem frames (h : m.SameButCaches n) : n.frames = m.frames := congrArg (·.frames) h.rest
theorem ops (h : m.SameButCaches n) : n.ops = m.ops := congrArg (·.ops) h.rest
theorem ctxs (h : m.SameButCaches n) : n.ctxs = m.ctxs := congrArg (·.ctxs) h.rest
theorem poison (h : m.SameButCaches n) : n.poison = m.poison := congrArg (·.poison) h.rest
theorem uncached (h : m.SameButCaches n) : n.uncached = m.uncached := congrArg (·.uncached) h.rest
theorem pins (h : m.SameButCaches n) : n.pins = m.pins := congrArg (·.pins) h.rest

/-! ### Changes of slices and L1Ds -/

theorem l1dDrop (m : Mach) (core : Nat) (ls : List Nat) : m.SameButCaches (m.l1dDrop core ls) := updCore m core _ fun _ => rfl

theorem acquire (m : Mach) (core : Nat) (s : Scope) : m.SameButCaches (m.acquire core s) := by
  unfold Mach.acquire
  split
  · exact updCore m core _ fun _ => rfl
  · exact refl m

theorem l1dFill (m : Mach) (core l : Nat) (bytes : List Byte) : m.SameButCaches (m.l1dFill core l bytes) := by
  unfold Mach.l1dFill
  extract_lets old
  have hvictim : m.SameButCaches
      (if (old.get? l).isSome || old.length < 1024 then (none, m) else m.l1dVictim core : Option Nat × Mach).2 := by
    split
    · exact refl m
    · exact of_slices (m.anyOf_slices _)
  generalize (if (old.get? l).isSome || old.length < 1024 then (none, m) else m.l1dVictim core : Option Nat × Mach) = r at *
  obtain ⟨out, m1⟩ := r
  cases out with
  | none => exact hvictim.trans (updCore m1 core _ fun _ => rfl)
  | some k => exact (hvictim.trans (l1dDrop m1 core [k])).trans (updCore _ core _ fun _ => rfl)

theorem addReplica (m : Mach) (die l : Nat) (bytes : List Byte) : m.SameButSlices (m.addReplica die l bytes) := by
  unfold Mach.addReplica
  extract_lets slice peers
  split
  next out m1 e =>
  have h1 : m.SameButSlices m1 := by
    obtain rfl : _ = m1 := congrArg Prod.snd e
    split
    · exact .refl m
    · exact m.anyOf_slices _
  extract_lets m2 m3
  have h2 : m.SameButSlices m2 := by
    unfold m2
    split
    · exact h1.trans (m1.l2Evict_slices _)
    · exact h1
  have h3 : m.SameButSlices m3 := h2.trans (m2.l2Fill_slices die slice l)
  split
  · exact h3
  · exact h3

theorem homeLine (m : Mach) (core l : Nat) (cache fill grant : Bool) : m.SameButCaches (m.homeLine core l cache fill grant) := by
  unfold Mach.homeLine
  extract_lets die bytes m1 m2 has
  have h1 : m.SameButSlices m1 := .trans (b := m.dropReplicas die [l]) rfl (Mach.l2Home_slices _ l)
  have h2 : m.SameButCaches m2 := by
    unfold m2
    split
    · exact of_slices (h1.trans (addReplica m1 die l bytes))
    · exact of_slices h1
  split
  · exact h2.trans (l1dFill m2 core l bytes)
  · split
    · exact h2.trans (l1dDrop m2 core [l])
    · exact h2

theorem holdHost (m : Mach) (core pa : Nat) : m.SameButCaches (m.holdHost core pa) := by
  unfold Mach.holdHost
  extract_lets die key m1
  have h1 : m.SameButSlices m1 := Mach.l2Fill_slices m _ _ _
  split
  · exact of_slices h1
  · exact of_slices h1

theorem readFor (m : Mach) (n core : Nat) (a : LaneAcc) (size : Nat) (atHome fill : Bool) (sv : Serve) :
    m.SameButCaches (m.readFor n core a size atHome fill sv).2 := by
  have hbytes : m.SameButCaches (m.takeBytes size).2 := ⟨rfl, fun _ => rfl⟩
  unfold Mach.readFor
  split
  · split
    · exact hbytes
    · exact refl m
  · next pa _ =>
    split
    iterate 3 exact hbytes
    · dsimp only
      split
      · exact holdHost m core _
      · exact refl m
    · split
      · exact hbytes
      · extract_lets l cache home
        have hhome : m.SameButCaches home.2 := homeLine m core l cache fill sv.grant
        split
        next bs m1 e =>
        rw [← congrArg Prod.snd e]
        split
        · exact hhome
        · split
          · exact refl m
          · split
            · dsimp only
              split
              · exact l1dFill m core l _
              · exact refl m
            · exact hhome
          · exact hhome

theorem readLanes (m : Mach) (n core size : Nat) (atHome fill : Bool) (sv : Serve) (as : List LaneAcc) (reply : List Byte) :
    m.SameButCaches (m.readLanes n core size atHome fill sv as reply).2 := by
  induction as generalizing m reply with
  | nil => exact refl m
  | cons a as ih =>
    unfold Mach.readLanes
    dsimp only
    split
    · exact ih m _
    · exact (readFor m n core a size atHome fill sv).trans (ih _ _)

/-! ### Reads that turn on neither -/

theorem overStores (h : m.SameButCaches n) (k core : Nat) (p : Place) (bs : List Byte) :
    n.overStores k core p bs = m.overStores k core p bs := by rw [Mach.overStores, Mach.overStores, h.stores]

theorem lsRead (h : m.SameButCaches n) (tk off k : Nat) : n.lsRead tk off k = m.lsRead tk off k := Mach.lsRead_of_teams h.teams tk off k

theorem launchOf (h : m.SameButCaches n) (tk : Nat) : n.launchOf tk = m.launchOf tk := by
  simp only [Mach.launchOf, Mach.team?, h.teams, h.launches]

theorem strayPool (h : m.SameButCaches n) (t : Nat) (p : Place) : n.strayPool t p = m.strayPool t p := by
  simp only [Mach.strayPool, h.tasks, h.launchOf]

theorem leavesFrom (h : m.SameButCaches n) (lo hi table base : Nat) (ls : List (Nat × Nat × Bool)) :
    n.leavesFrom lo hi table base ls = m.leavesFrom lo hi table base ls := by
  have hread (a : Nat) : n.read64 a = m.read64 a := by simp only [Mach.read64, h.mem]
  induction ls generalizing table base with
  | nil => rfl
  | cons x ls ih => simp only [Mach.leavesFrom, hread, ih]

theorem ownSpill (h : m.SameButCaches n) (t : Nat) (p : Place) (k : Nat) : n.ownSpill t p k = m.ownSpill t p k := by
  simp only [Mach.ownSpill, h.tasks, h.launchOf, Mach.leaves, h.ctxs, h.leavesFrom]

theorem sliceHolds (h : m.SameButCaches n) (pa : Nat) : n.sliceHolds pa = m.sliceHolds pa := by
  simp only [Mach.sliceHolds, Mach.pinAt, h.pins, h.uncached]

theorem poisoned (h : m.SameButCaches n) (p : Place) (k : Nat) : n.poisoned p k = m.poisoned p k := by
  simp only [Mach.poisoned, h.poison, Mach.team?, h.teams]

end Mach.SameButCaches

end Sys2Proof.Machine
end

section
/-! ## What a load reads and writes (R205, R206, R332, R333) -/

namespace Sys2Proof.Machine

/-! ### Numbers of bytes -/

theorem bytesNat_lt (bs : List Byte) : bytesNat bs < 2 ^ (8 * bs.length) := by
  induction bs with
  | nil => simp [bytesNat]
  | cons b bs ih =>
    have hb := b.isLt
    rw [bytesNat, List.length_cons, Nat.mul_succ, Nat.pow_add, Nat.mul_comm (2 ^ _)]
    omega

theorem bytesNat_drop (bs : List Byte) (n : Nat) : bytesNat (bs.drop n) = bytesNat bs / 2 ^ (8 * n) := by
  induction n generalizing bs with
  | zero => simp
  | succ n ih =>
    cases bs with
    | nil => simp [bytesNat]
    | cons b bs =>
      have hb : (b.toNat + 256 * bytesNat bs) / 2 ^ 8 = bytesNat bs := by have := b.isLt; omega
      rw [List.drop_succ_cons, ih, bytesNat, Nat.mul_succ, Nat.add_comm (8 * n), Nat.pow_add, ← Nat.div_div_eq_div_mul, hb]

theorem bytesNat_take (bs : List Byte) (n : Nat) : bytesNat (bs.take n) = bytesNat bs % 2 ^ (8 * n) := by
  induction n generalizing bs with
  | zero => simp [bytesNat, Nat.mod_one]
  | succ n ih =>
    cases bs with
    | nil => simp [bytesNat]
    | cons b bs =>
      have hb := b.isLt
      rw [List.take_succ_cons, bytesNat, bytesNat, ih, Nat.mul_succ, Nat.add_comm (8 * n), Nat.pow_add, Nat.mod_mul]
      have hlow : (b.toNat + 256 * bytesNat bs) % 2 ^ 8 = b.toNat := by omega
      have hhigh : (b.toNat + 256 * bytesNat bs) / 2 ^ 8 = bytesNat bs := by omega
      rw [hlow, hhigh]

/-! ### The words a load writes -/

theorem overlay_length (base : Nat) (line : List Byte) (pa : Nat) (bs : List Byte) : (overlay base line pa bs).length = line.length := by
  simp [overlay]

theorem Mach.overStores_length (m : Mach) (n core : Nat) (p : Place) (bs : List Byte) :
    (m.overStores n core p bs).length = bs.length := by
  refine List.foldlRecOn (motive := fun b : List Byte => b.length = bs.length) _ _ rfl fun b hb x _ => ?_
  split
  · exact hb
  · split
    · rw [overlay_length, hb]
    · split
      · rw [overlay_length, hb]
      · exact hb
    · exact hb

theorem loadBytes_length (m : Mach) (n core : Nat) (k : LoadK) (sv : Serve) (a : LaneAcc) :
    (loadBytes m n core k sv a).length ≤ k.size := by
  rw [loadBytes, Mach.overStores_length]
  split
  · unfold Mach.lsRead
    split
    · exact (Memory.readN_length ..).le
    · exact List.length_replicate.le
  · dsimp only
    split
    · exact List.length_take_le _ _
    · exact (Memory.readN_length ..).le

/-- What the model writes from D up is the value as R332 extends it, or its 32-bit words. -/
theorem loadWords_eq (k : LoadK) {bs : List Byte} (h : bs.length ≤ k.size) :
    loadWords k.size k.words k.sext bs = loadResult k bs := by
  have hlt : bytesNat bs < 2 ^ (8 * k.size) :=
    (bytesNat_lt bs).trans_le (Nat.pow_le_pow_right (by omega) (by omega))
  unfold loadWords loadResult
  dsimp only
  split
  · simp only [extBits, Nat.mod_eq_of_lt hlt, Bool.and_eq_true, decide_eq_true_eq]
  · refine List.map_congr_left fun j _ => BitVec.eq_of_toNat_eq ?_
    rw [bytesNat_take, bytesNat_drop, BitVec.toNat_ofNat, BitVec.toNat_ofNat, Nat.mod_mod, ← Nat.mul_assoc]

/-! ### One access -/

/-- A load's access that uses neither an L1D copy nor a replica. -/
def LoadK.far (k : LoadK) (a : LaneAcc) : Prop := k.atHome = true ∨ a.cache = false

theorem plainPlace_peer {m : Mach} {t n : Nat} {p : Place} (h : plainPlace m t p n) : p.peer? = none := by
  cases p with
  | ls => rfl
  | dev pa => rcases h with ⟨hr, -⟩ | hr <;> simp only [Place.peer?, hr]

theorem Mach.SameButCaches.place_plain {m n : Mach} (h : m.SameButCaches n) {t k : Nat} {p : Place} (hp : plainPlace m t p k) :
    plainPlace n t p k := by
  cases p with
  | ls tk off => exact (h.strayPool t _).trans hp
  | dev pa => exact hp.imp_left (And.imp_right (h.ownSpill t _ k).trans)

/-- What one access reads: `loadBytes`, where the core has let go of the lines it was to (R205, R206, R333). -/
theorem Mach.readFor_eq {m : Mach} {n core : Nat} {o : Op} (ho : m.ops.get? n = some o) {k : LoadK} {a : LaneAcc}
    (hp : plainPlace m o.task a.place k.size) (fill : Bool) (sv : Serve) :
    (m.readFor n core a k.size k.atHome fill sv).1 = loadBytes m n core k { sv with evict := [] } a := by
  obtain ⟨lane, va, place, cache⟩ := a
  have htask : ((m.ops.get? n).map (·.task)).getD 0 = o.task := by simp [ho]
  cases place with
  | ls tk off =>
    have hstray : m.strayPool o.task (.ls tk off) = false := hp
    simp only [Mach.readFor, htask, hstray, Bool.false_eq_true, if_false]
    rfl
  | dev pa =>
    rcases hp with ⟨hr, hown⟩ | hr
    · have hown' : m.ownSpill o.task (.dev pa) k.size = false := hown
      have hsame := Mach.SameButCaches.readFor m n core ⟨lane, va, .dev pa, cache⟩ k.size k.atHome fill sv
      simp only [Mach.readFor, htask, hr, hown', Bool.false_eq_true, if_false] at hsame ⊢
      rw [hsame.overStores]
      simp only [loadBytes, List.contains_nil, Bool.not_false, Bool.and_true]
      congr 1
      by_cases hfar : (k.atHome || !(cache && m.sliceHolds pa)) = true
      · have hnear : (!k.atHome && cache && m.sliceHolds pa) = false := by
          rw [← Bool.not_eq_true', Bool.and_assoc, Bool.not_and, Bool.not_not]
          exact hfar
        simp only [hfar, hnear, Bool.false_and, Bool.false_eq_true, if_true, if_false, Option.none_or]
        rfl
      · have hnear : (!k.atHome && cache && m.sliceHolds pa) = true := by
          simpa [Bool.and_assoc] using hfar
        simp only [hfar, hnear, Bool.true_and, if_true]
        cases (m.core core).l1d.get? (lineOf pa) with
        | some line => rfl
        | none =>
          cases m.replicaOf (coreDie core) (lineOf pa) with
          | some line => cases sv.replica <;> rfl
          | none => cases sv.replica <;> rfl
    · have hholds : m.sliceHolds pa = false := by simp [Mach.sliceHolds, hr]
      simp only [Mach.readFor, hr, loadBytes, hholds, Bool.and_false, Bool.false_eq_true, Bool.false_and, if_false, Option.none_or]
      rfl

/-- An access that uses no copy reads the same whatever slices and L1Ds hold. -/
theorem loadBytes_far {m n : Mach} (h : m.SameButCaches n) {k : LoadK} {a : LaneAcc} (hf : k.far a) (i core : Nat) (sv sv' : Serve) :
    loadBytes n i core k sv' a = loadBytes m i core k sv a := by
  have hnear : (!k.atHome && a.cache) = false := by rcases hf with hf | hf <;> simp [hf]
  simp only [loadBytes, hnear, h.overStores, h.lsRead, h.mem, Bool.false_and, Bool.false_eq_true, if_false, Option.none_or]

/-- A line that the core has let go of serves no access. -/
theorem loadBytes_l1dDrop (m : Mach) (n core : Nat) (k : LoadK) (sv : Serve) (a : LaneAcc) :
    loadBytes (m.l1dDrop core sv.evict) n core k { sv with evict := [] } a = loadBytes m n core k sv a := by
  have hsame := Mach.SameButCaches.l1dDrop m core sv.evict
  have hreplica (die l : Nat) : (m.l1dDrop core sv.evict).replicaOf die l = m.replicaOf die l := rfl
  have hl1d (l : Nat) : ((m.l1dDrop core sv.evict).core core).l1d.get? l =
      if sv.evict.contains l then none else (m.core core).l1d.get? l := by
    rw [Mach.l1dDrop, Mach.core_updCore, Sparse.get?_sift]
    cases sv.evict.contains l <;> rfl
  have hcopy (near : Bool) (l : Nat) : (if near = true then if sv.evict.contains l = true then none else (m.core core).l1d.get? l
      else none) = if (near && !sv.evict.contains l) = true then (m.core core).l1d.get? l else none := by
    cases near <;> cases sv.evict.contains l <;> rfl
  simp only [loadBytes, hsame.overStores, hsame.lsRead, hsame.mem, hsame.sliceHolds, hreplica, hl1d, hcopy, List.contains_nil,
    Bool.not_false, Bool.and_true]

/-! ### All lanes -/

section Lanes
variable {m : Mach} {n : Nat} {o : Op} (ho : m.ops.get? n = some o) {k : LoadK} (core : Nat) (fill : Bool) (sv : Serve)
include ho

theorem Mach.SameButCaches.readLanes_far {m' : Mach} (h : m.SameButCaches m') {as : List LaneAcc}
    (hp : ∀ a ∈ as, plainPlace m o.task a.place k.size) (hf : ∀ a ∈ as, k.far a) (reply : List Byte) :
    (m'.readLanes n core k.size k.atHome fill sv as reply).1 = as.map fun a => (a.lane, loadBytes m n core k sv a) := by
  induction as generalizing m' with
  | nil => rfl
  | cons a as ih =>
    have hpeer : a.place.peer?.isSome = false := by rw [plainPlace_peer (hp a List.mem_cons_self)]; rfl
    have hread := Mach.readFor_eq (core := core) (h.ops.symm ▸ ho) (h.place_plain (hp a List.mem_cons_self)) fill sv
    have hrest := ih (h.trans (.readFor m' n core a k.size k.atHome fill sv)) (fun x hx => hp x (List.mem_cons_of_mem a hx))
      fun x hx => hf x (List.mem_cons_of_mem a hx)
    simp only [Mach.readLanes, hpeer, Bool.false_eq_true, if_false, hread, hrest, List.map_cons,
      loadBytes_far h (hf a List.mem_cons_self) n core sv]

/-- What the lanes of a load read, one after the other (R206, R333). -/
theorem Mach.readLanes_eq (hp : ∀ a ∈ k.lanes, plainPlace m o.task a.place k.size)
    (hone : k.atHome = true ∨ (∀ a ∈ k.lanes, a.cache = false) ∨ k.lanes.length = 1) (reply : List Byte) :
    ((m.l1dDrop core sv.evict).readLanes n core k.size k.atHome fill sv k.lanes reply).1 =
      k.lanes.map fun a => (a.lane, loadBytes m n core k sv a) := by
  have hdrop := Mach.SameButCaches.l1dDrop m core sv.evict
  rcases hone with hh | hc | h1
  · exact hdrop.readLanes_far ho core fill sv hp (fun _ _ => .inl hh) reply
  · exact hdrop.readLanes_far ho core fill sv hp (fun a ha => .inr (hc a ha)) reply
  · obtain ⟨a, ha⟩ := List.length_eq_one_iff.mp h1
    have hpa := hp a (by simp [ha])
    have hpeer : a.place.peer?.isSome = false := by rw [plainPlace_peer hpa]; rfl
    have hread := Mach.readFor_eq (core := core) (hdrop.ops.symm ▸ ho) (hdrop.place_plain hpa) fill sv
    simp only [ha, Mach.readLanes, hpeer, Bool.false_eq_true, if_false, hread, loadBytes_l1dDrop, List.map_cons, List.map_nil]

end Lanes

/-- The machine as the accesses of load k, message n of the core of o, have left it (R45, R205, R334). -/
def Mach.afterReads (m : Mach) (n : Nat) (o : Op) (k : LoadK) (sv : Serve) : Mach :=
  ((m.l1dDrop o.core sv.evict).readLanes n o.core k.size k.atHome (k.hint ≠ .nl1) sv k.lanes (o.reply.getD [])).2

theorem Mach.SameButCaches.afterReads (m : Mach) (n : Nat) (o : Op) (k : LoadK) (sv : Serve) :
    m.SameButCaches (m.afterReads n o k sv) := (l1dDrop m o.core sv.evict).trans (readLanes _ n o.core _ _ _ _ _ _)

/-- The words load k, message n of a core, writes: (register, lane, word). -/
def loadLands (m : Mach) (n core : Nat) (k : LoadK) (sv : Serve) : List (Nat × Nat × Word) :=
  k.lanes.flatMap fun a => (loadResult k (loadBytes m n core k sv a)).zipIdx.map fun w => (k.d + w.2, a.lane, w.1)

/-- The machine as load k has written its words, before its operation is over (R334). -/
def Mach.loaded (m : Mach) (n : Nat) (o : Op) (k : LoadK) (sv : Serve) : Mach :=
  match k.acquire with
  | some s => ((m.afterReads n o k sv).landRegs o (loadLands m n o.core k sv)).acquire o.core s
  | none => (m.afterReads n o k sv).landRegs o (loadLands m n o.core k sv)

theorem Mach.loaded_rest (m : Mach) (n : Nat) {o : Op} (hd : o.dead = false) (k : LoadK) (sv : Serve) :
    (m.loaded n o k sv).mem = m.mem ∧ (m.loaded n o k sv).teams = m.teams ∧ (m.loaded n o k sv).frames =
      m.frames.upd o.frame fun f => (loadLands m n o.core k sv).foldl (fun f w => f.setBoth w.1 w.2.1 w.2.2) f := by
  have hreads := Mach.SameButCaches.afterReads m n o k sv
  have hland : (m.loaded n o k sv).mem = ((m.afterReads n o k sv).landRegs o (loadLands m n o.core k sv)).mem ∧
      (m.loaded n o k sv).teams = ((m.afterReads n o k sv).landRegs o (loadLands m n o.core k sv)).teams ∧
      (m.loaded n o k sv).frames = ((m.afterReads n o k sv).landRegs o (loadLands m n o.core k sv)).frames := by
    unfold Mach.loaded
    split
    · next s _ =>
      have hacq := Mach.SameButCaches.acquire ((m.afterReads n o k sv).landRegs o (loadLands m n o.core k sv)) o.core s
      exact ⟨hacq.mem, hacq.teams, hacq.frames⟩
    · exact ⟨rfl, rfl, rfl⟩
  simp only [hland, Mach.landRegs, hd, Bool.false_eq_true, if_false, Mach.updFrame, hreads.mem, hreads.teams, hreads.frames,
    and_self]

/-- A load that may be served, all of whose bytes are the manual's to say (R205, R333). -/
structure Mach.LoadServes (m : Mach) (n : Nat) (o : Op) (k : LoadK) : Prop where
  here : m.ops.get? n = some o
  served : m.served n false (k.lanes.map (·.place)) = true
  first : m.overtakes o.task (some n) o.kind.ranges = false
  marks : k.promote = true → ∀ a ∈ k.lanes, ∀ pa, a.place = .dev pa → ∀ core, m.relcore.get? (lineOf pa) = some core →
    m.drained core = true
  plain : ∀ a ∈ k.lanes, plainPlace m o.task a.place k.size ∧ m.poisoned a.place k.size = false
  copies : k.atHome = true ∨ (∀ a ∈ k.lanes, a.cache = false) ∨ k.lanes.length = 1

theorem Mach.completeLoad_eq {m : Mach} {n : Nat} {o : Op} {k : LoadK} (h : m.LoadServes n o k) (sv : Serve) :
    m.completeLoad n o k sv = (m.loaded n o k sv).finishOp n [] := by
  have hpeer : ∀ a ∈ k.lanes, a.place.peer?.isSome = false := fun a ha => by rw [plainPlace_peer (h.plain a ha).1]; rfl
  have hawaits : o.awaitsPeer (k.lanes.map (·.place)) = false := by
    simpa [Op.awaitsPeer] using fun _ a ha => by simpa using hpeer a ha
  have hbad : (k.lanes.filter fun a => (m.l1dDrop o.core sv.evict).poisoned a.place k.size ||
      (o.replyBad && a.place.peer?.isSome)) = [] := by
    refine List.filter_eq_nil_iff.mpr fun a ha => ?_
    simp [(Mach.SameButCaches.l1dDrop m o.core sv.evict).poisoned, (h.plain a ha).2, hpeer a ha]
  have hvals := Mach.readLanes_eq h.here o.core (k.hint ≠ .nl1) sv (fun a ha => (h.plain a ha).1) h.copies (o.reply.getD [])
  unfold Mach.completeLoad
  extract_lets ps marks m1 bad
  have hmarks : (k.promote && !marks) = false := by
    cases hpr : k.promote with
    | false => rfl
    | true =>
      simp only [Bool.true_and, Bool.not_eq_false', marks, List.all_eq_true]
      intro a ha
      split
      · next pa hpa =>
        cases hc : m.relcore.get? (lineOf pa) with
        | none => rfl
        | some core => exact h.marks hpr a ha pa hpa core hc
      · rfl
  have hnone : bad = [] := hbad
  simp only [ps, h.served, hawaits, h.first, hmarks, hnone, m1, hvals, Mach.consume, Bool.not_true, Bool.or_self,
    Bool.false_eq_true, if_false, ne_eq, not_true_eq_false, decide_false, List.flatMap_map, loadWords_eq k (loadBytes_length ..)]
  rfl

/-! ### Operations that end with their registers -/

theorem targetsOf_nil {m : Mach} {o : Op} (ht : o.kind.targets = []) (hr : ∀ ctx e k t vs, o.kind ≠ .rdet ctx e k t vs) :
    m.targetsOf o = [] := by
  have hslot : m.rdetSlot o = none := by
    unfold Mach.rdetSlot
    split
    · next hk => exact absurd hk (hr _ _ _ _ _)
    · rfl
  rw [Mach.targetsOf, ht, hslot]
  rfl

/-- The machine as a long-latency register instruction has landed (R185, R246). -/
def Mach.landed (m : Mach) (o : Op) (ws : List (Nat × Nat × Word)) (fp : Word) : Mach :=
  (m.orFpstat o.task fp).updFrame o.frame fun f => ws.foldl (fun f w => f.setReg w.1 w.2.1 w.2.2) f

theorem exec_writes_completes {s : State} {n : Nat} {o : Op} {sv : Serve} {ws : List (Nat × Nat × Word)} {fp : Word}
    (ho : s.m.ops.get? n = some o) (hk : o.kind = .writes ws fp) (hgone : o.gone = false) (hdead : o.dead = false)
    (ha : s.m.Arrived n) :
    exec (.operationComplete n sv) s = .next { s with m := (s.m.landed o ws fp).finishOp n [] } := by
  refine exec_operationComplete_nowhere ho ha (by rw [hk]; rfl) (targetsOf_nil (by rw [hk]; rfl) (by simp [hk])) ?_
  simp only [State.perform, hk, hgone, hdead, State.updM, Mach.landOwn, Bool.false_eq_true, if_false]
  rfl

theorem exec_load_completes {s : State} {n : Nat} {o : Op} (sv : Serve) {k : LoadK} (h : s.m.LoadServes n o k)
    (hk : o.kind = .load k) (hgone : o.gone = false) (ha : s.m.Arrived n)
    (hback : (s.m.backOver n o.core (k.lanes.map (·.place)) []).1 = true) :
    exec (.operationComplete n sv) s = .next { s with m := (s.m.loaded n o k sv).finishOp n [] } := by
  have hts : s.m.targetsOf o = [] := targetsOf_nil (by rw [hk]; rfl) (by simp [hk])
  have hhomes : o.kind.homes = k.lanes.map (·.place) := by
    simp only [hk, OpKind.homes, OpKind.spots, OpKind.ranges, List.map_map, Function.comp_def]
  refine exec_operationComplete_ends h.here ha (hts ▸ s.m.atGate_nil) ?_ ?_
  · rw [hts, hhomes, List.map_nil, List.append_nil]
    exact hback
  · simp only [State.perform, hk, hgone, State.updM, Mach.completeLoad_eq h, Bool.false_eq_true, if_false]

end Sys2Proof.Machine
end

section
open Sys2Proof Sys2Proof.Machine

/-- Settles O10: both operations end as `exec_operationComplete_ends` says; what the accesses of a load read, `Mach.readLanes_eq`
says, and that they change what slices and L1Ds hold alone, `Mach.SameButCaches.readLanes`. -/
theorem registerOperationLands : Obligations.RegisterOperationLands := by
  unfold Obligations.RegisterOperationLands
  refine ⟨fun s n o sv ws fp ho hk hgone hdead ha => ?_, ?_⟩
  · obtain ⟨hmem, hls, -⟩ := (s.m.landed o ws fp).finishOp_spec n []
    refine ⟨_, exec_writes_completes ho hk hgone hdead ha, Mach.finishOp_over _ n [], hmem, hls, fun k => ?_, fun k => ?_⟩
    · simp only [Mach.landed, Mach.updFrame, Mach.orFpstat, Mach.updTask, Sparse.get?_upd]
      split <;> simp
    · simp only [Mach.landed, Mach.updFrame, Mach.orFpstat, Mach.updTask, Sparse.get?_upd]
      split <;> simp
  · intro s n o sv k ho hk hgone hdead hserved hfirst hmarks ha hback hplain hcopies
    have hload : s.m.LoadServes n o k := ⟨ho, hserved, hfirst, hmarks, hplain, hcopies⟩
    obtain ⟨hmem, hteams, hframes⟩ := s.m.loaded_rest n hdead k sv
    exact .of_finishOp (exec_load_completes sv hload hk hgone ha hback) (fun a => congrArg (Memory.read · a) hmem) hteams hframes

end

section
/-! ## A team restored where another team holds one of its slots (R106, R110, R381)

`ctx.load` maps the team's slots; one of its own that another team's mapping has taken is spilled to the save region: memory changes. -/

namespace Sys2Proof.Machine

/-- An operation that goes to no place does at once what its kind says. -/
theorem exec_operationComplete_performs {s : State} {n : Nat} {o : Op} (sv : Serve) (ho : s.m.ops.get? n = some o) (ha : s.m.Arrived n)
    (hhomes : o.kind.homes = []) (hts : s.m.targetsOf o = []) :
    exec (.operationComplete n sv) s = .next (s.perform n o sv) := by
  have hheld : (s.m.holds n false || s.m.returned n) = false := by
    simp only [ha.holds, Mach.returned, Bool.false_or, List.any_eq_false]
    exact fun d hd => by simpa using ha.stale d hd
  show execOperationComplete n sv s = _
  simp only [execOperationComplete, ho, State.completeOp, hheld, hts, hhomes, s.m.atGate_nil, List.map_nil, List.append_nil,
    ha.backOver_nowhere, Bool.false_eq_true, if_false, if_true, ite_self]

/-! ### Firmware's writes -/

/-- A translation that stalls on no page is the page tables' own. -/
theorem Mach.translateServiced_ok {m : Mach} {asid va : Nat} {k : AccKind} {l : Loc} (h : m.translate asid va k = .ok l) :
    m.translateServiced asid va k = (.ok l, m) := by
  simp only [Mach.translateServiced, h]

/-- A write of firmware within one page of local memory. -/
theorem Mach.writeVa_within {m : Mach} {asid va : Nat} {l : Loc} {bs : List Byte} (h : m.translate asid va { write := true } = .ok l)
    (hp : (Place.dev l.pa).peer? = none) (hn : bs ≠ []) (hk : bs.length ≤ l.size - va % l.size) (fuel : Nat) :
    m.writeVa asid va (fuel + 2) bs = (none, m.placeWrite (.dev l.pa) bs) := by
  have hlocal : (match regionOf l.pa with
      | .peer p => { m with peerOut := m.peerOut ++ [PeerMsg.write p l.pa (bs.take bs.length) false] }
      | _ => m.placeWrite (.dev l.pa) (bs.take bs.length)) = m.placeWrite (.dev l.pa) bs := by
    rw [List.take_length]
    split
    · next p hr => simp [Place.peer?, hr] at hp
    · rfl
  simp only [Mach.writeVa, hn, if_false, Mach.translateServiced_ok h, min_eq_left hk, List.drop_length, if_true]
  exact congrArg (none, ·) hlocal

theorem Core.image_length (c : Core) (p : Nat) : (c.image p).length = 4096 := by
  simp only [Core.image, List.length_flatMap, natBytes_length, List.map_const', List.length_range, List.sum_replicate_nat]

/-- The first byte of a slot's image. -/
theorem Core.image_head (c : Core) (p : Nat) : (c.image p).getD 0 0 = .ofNat 8 (c.acc.getD (1024 * p) 0).toNat := by
  show ((List.range (1023 + 1)).flatMap fun i => natBytes 4 (c.acc.getD (1024 * p + i) 0).toNat).getD 0 0 = _
  rw [List.range_succ_eq_map, List.flatMap_cons]
  rfl

set_option maxRecDepth 600 in
/-- A slot that firmware spills, its launch not in shadow mode, is its owner's image in memory (R111). -/
theorem Mach.mem_spillSlot {m : Mach} {core p tk : Nat} {t : Team} {l : Launch} {loc : Loc}
    (ht : m.ctxTeam ((m.core core).ownerOf p) = some (tk, t)) (hl : m.launches.get? t.launch = some l) (hs : l.shadow = false)
    (hat : m.translate l.asid (l.imageVa t.ix ((m.core core).ownerOf p).lslot) { write := true } = .ok loc)
    (hp : (Place.dev loc.pa).peer? = none)
    (hk : 4096 ≤ loc.size - l.imageVa t.ix ((m.core core).ownerOf p).lslot % loc.size) :
    (m.spillSlot core p).mem = (m.placeWrite (.dev loc.pa) ((m.core core).image p)).mem := by
  have hlen := (m.core core).image_length p
  have hwrite := Mach.writeVa_within hat hp (List.ne_nil_of_length_pos (by omega)) (hlen.trans_le hk) 1
  unfold Mach.spillSlot
  generalize (m.core core).image p = bs, (m.core core).swapped.image p = bs' at hwrite ⊢
  simp only [ht, hl, hs, Bool.false_eq_true, if_false, hwrite, Option.or_none]
  rfl

/-! ### Becoming resident -/

theorem Still.seatWarps (m : Mach) (tk : Nat) : Still m (m.seatWarps tk) := by
  unfold Mach.seatWarps
  extract_lets m1
  have h1 : Still m m1 := .of_eq rfl rfl rfl rfl rfl rfl rfl
  exact h1.trans (Still.foldl _ (fun m w => Still.settle m _ _) _ _)

/-- The slots of its own that a team finds in the mappings of other teams (R110). -/
def Mach.lostSlots (m : Mach) (tk : Nat) (t : Team) (l : Launch) : List Nat :=
  (List.range l.accSlots).filterMap fun k =>
    ((List.range 64).find? fun p => (m.core t.core).ownerOf p = t.owns k).bind fun p =>
      if (m.heldSlots t.core tk).contains p then some p else none

theorem Mach.mem_mapSlots {m : Mach} {tk : Nat} {t : Team} {l : Launch} (ht : m.team? tk = some t) (hl : m.launchOf tk = some l) :
    (m.mapSlots tk).mem = ((m.lostSlots tk t l).foldl (fun m p => m.spillSlot t.core p) m).mem := by
  unfold Mach.mapSlots
  simp only [ht, hl]
  rfl

theorem State.byte_enterCore {s : State} {tk : Nat} {t : Team} (ht : s.m.team? tk = some t) (newcomer : Bool) (a : Nat) :
    (s.enterCore tk newcomer).byte a = Memory.read (s.m.mapSlots tk).mem a := by
  unfold State.enterCore
  simp only [ht]
  split
  · exact (Still.seatWarps _ tk).mem a
  · exact (Still.seatWarps _ tk).mem a

/-- A team whose image stands, and carries no poison, comes back with the bytes its slots' mapping leaves. -/
theorem State.byte_restoreTeam {s : State} {tk : Nat} {t : Team} {l : Launch} (ht : s.m.team? tk = some t) (hl : s.m.launchOf tk = some l)
    (hbad : t.image.any (s.m.savedBad l.asid) = false) (a : Nat) :
    (s.restoreTeam tk true).byte a =
      Memory.read ((s.m.updCore t.core fun c => { c with l1d := [] }).mapSlots tk).mem a := by
  have hread (va : Nat) : s.m.readBad tk va false = s.m := rfl
  unfold State.restoreTeam
  simp only [ht, hl, Option.map_some, Option.getD_some, State.updM, hbad, hread, if_true]
  exact State.byte_enterCore (s := { s with m := s.m.updCore t.core fun c => { c with l1d := [] } }) ht t.newcomer a

theorem Mach.read_answer (m : Mach) (n : Nat) (o : Op) (d v a : Nat) : Memory.read (m.answer n o d v).mem a = Memory.read m.mem a := by
  have hland (ws : List (Nat × Nat × Word)) : (m.landRegs o ws).mem = m.mem := by
    unfold Mach.landRegs
    split <;> rfl
  unfold Mach.answer
  rw [(Mach.finishOp_spec _ n []).1, hland]

/-- A `ctx.load` of a team whose charges fit, its image standing and unpoisoned, leaves the bytes its slots' mapping leaves. -/
theorem State.byte_completeCtxLoad {s : State} {n : Nat} {o : Op} {tk region d : Nat} {t : Team} {l : Launch} {i : SavedImage}
    (ht : s.m.team? tk = some t) (hl : s.m.launchOf tk = some l) (hres : t.res = .waitingSaved) (hcore : t.core = o.core)
    (hbound : t.unbound = false) (hdying : s.m.dying tk = false) (htakes : s.sys.hub.takes t.core = true)
    (hfits : s.fitsNow t.core t.chosen l.charge = true) (hi : t.image = some i) (hstands : s.m.homeRead region i.size = i.bytes)
    (hpoison : s.m.poisoned (.dev region) i.size = false) (hbad : s.m.savedBad l.asid i = false) (a : Nat) :
    (s.completeCtxLoad n o tk region d).byte a =
      Memory.read ((s.m.updCore t.core fun c => { c with l1d := [] }).mapSlots tk).mem a := by
  have hrestore := State.byte_restoreTeam ht hl (by simpa [hi] using hbad) a
  have hread (m : Mach) : m.readBad tk region false = m := rfl
  unfold State.completeCtxLoad
  simp only [ht, hl, hres, ← hcore, hbound, hdying, htakes, hfits, hi, hstands, hpoison, ne_eq, not_true_eq_false, decide_true,
    decide_false, Bool.or_self, Bool.false_eq_true, Bool.and_self, Option.any_some, if_true, if_false, hread]
  rw [← hrestore]
  exact Mach.read_answer _ _ _ _ _ _

/-! ### The module -/

/-- Launch 1: the spill area and page tables of `spillMemory`, one accumulator slot for each team. -/
def slotLaunch : Launch := { spillLaunch with accSlots := 1, spillSize := 16384 }

/-- The saved team 0 of the launch, on core 0; its image is empty. -/
def savedTeam : Team := { slotLaunch.team 1 0 0 0 0 with res := .waitingSaved, image := some ⟨true, 0x2000, 0, 0, 0, []⟩ }

/-- A resident team of core 0 whose mapping has taken physical slot 0, of which it has made no use yet. -/
def takingTeam : Team := { slotLaunch.team 1 1 1 0 0 with res := .resident, slotMap := [(0, 0)] }

/-- A `ctx.load` of team 0, issued by that other team. -/
def loadOp : Op := ⟨257, 0, 0, 0, 0, none, 0, 0, false, none, false, false, false, 0, .ctxLoad 256 0x2000 0⟩

/-- A running module with the `ctx.load` under way as its operation 5; physical slot 0 holds a word 1 of team 0. -/
def slotTaken : State :=
  (State.reset.updHub fun h => { h with phase := .running }).updM fun m =>
    { m with
      mem := spillMemory 1
      ctxs := [(1, ⟨0, 0x10000⟩)]
      launches := [(1, slotLaunch)]
      teams := [(256, savedTeam), (257, takingTeam)]
      cores := [(0, { Core.empty with acc := [(0, 1)], owner := [(0, ⟨true, 0, 1, 0⟩)] })]
      ops := [(5, loadOp)]
      serial := 8 }

/-- The core of `slotTaken` as the load has invalidated its L1D. -/
def slotMach : Mach := slotTaken.m.updCore 0 fun c => { c with l1d := [] }

theorem slotMach_lost : slotMach.lostSlots 256 savedTeam slotLaunch = [0] := by decide +kernel

theorem slotMach_imageVa : slotLaunch.imageVa savedTeam.ix ((slotMach.core 0).ownerOf 0).lslot = 0x1000 := by decide +kernel

theorem slotMach_translate :
    slotMach.translate slotLaunch.asid 0x1000 { write := true } = .ok ⟨0x40001000, 0, 0, 0, 2 ^ 30, false⟩ := by decide +kernel

theorem slotMach_owner : slotMach.ctxTeam ((slotMach.core 0).ownerOf 0) = some (256, savedTeam) := by decide +kernel

theorem slotMach_launch : slotMach.launches.get? savedTeam.launch = some slotLaunch := by decide +kernel

/-- The spill of physical slot 0 leaves its first byte in the team's save region. -/
theorem slotMach_spills : Memory.read (slotMach.mapSlots 256).mem 0x40001000 = 1 := by
  have hat : slotMach.translate slotLaunch.asid (slotLaunch.imageVa savedTeam.ix ((slotMach.core 0).ownerOf 0).lslot)
      { write := true } = .ok ⟨0x40001000, 0, 0, 0, 2 ^ 30, false⟩ := by rw [slotMach_imageVa, slotMach_translate]
  have hroom : 4096 ≤ 2 ^ 30 - slotLaunch.imageVa savedTeam.ix ((slotMach.core 0).ownerOf 0).lslot % 2 ^ 30 := by
    rw [slotMach_imageVa]; norm_num
  have hmem := Mach.mem_spillSlot slotMach_owner slotMach_launch rfl hat rfl hroom
  have hout : ¬slotMach.InWaithead 0x40001000 ((slotMach.core 0).image 0).length 0x40001000 := by
    rintro ⟨c, hc, -⟩
    rw [show slotMach.waitedCells = [] from rfl] at hc
    cases hc
  have hfirst : ((slotMach.core 0).image 0).getD 0 0 = 1 := (Core.image_head _ _).trans (by decide)
  rw [Mach.mem_mapSlots (t := savedTeam) (l := slotLaunch) rfl rfl, slotMach_lost, List.foldl_cons, List.foldl_nil,
    show savedTeam.core = 0 from rfl, hmem, (Mach.read_devWrite _ rfl _ _).2 hout, Core.image_length]
  simpa using hfirst

theorem slotTaken_arrived : slotTaken.m.Arrived 5 := ⟨by decide, by decide⟩

/-- The load ends with that byte in memory, where there was none. -/
theorem slotTaken_loads : ∃ u, exec (.operationComplete 5 ⟨false, false, []⟩) slotTaken = .next u ∧ u.byte 0x40001000 = 1 := by
  refine ⟨_, exec_operationComplete_performs (o := loadOp) _ rfl (slotTaken_arrived) rfl rfl, ?_⟩
  have hbyte := State.byte_completeCtxLoad (s := slotTaken) (n := 5) (o := loadOp) (tk := 256) (region := 0x2000) (d := 0)
    (t := savedTeam) (l := slotLaunch) (i := ⟨true, 0x2000, 0, 0, 0, []⟩) rfl rfl rfl rfl rfl (by decide) (by decide +kernel)
    (by decide +kernel) rfl rfl rfl rfl 0x40001000
  exact hbyte.trans slotMach_spills

end Sys2Proof.Machine
end

section
open Sys2Proof Sys2Proof.Machine

/-- Refutes O32: as `ctx.load` makes a team resident, a slot of its own that another team's mapping has taken is spilled to its save
region (R110), so that memory does not keep its bytes: `slotTaken` is such a module. -/
theorem not_systemInstructionsGoUnderWay : ¬ Obligations.SystemInstructionsGoUnderWay := by
  unfold Obligations.SystemInstructionsGoUnderWay
  rintro ⟨-, hcompletes⟩
  obtain ⟨-, hload⟩ := (hcompletes slotTaken 5 loadOp ⟨false, false, []⟩ rfl rfl rfl (slotTaken_arrived)).ctxLoad 256 0x2000 0 rfl
  obtain ⟨-, hloads⟩ := hload savedTeam slotLaunch rfl rfl rfl rfl rfl (by decide) (by decide +kernel)
  obtain ⟨u, hu, -, -, hkept⟩ := hloads (by decide +kernel)
  obtain ⟨v, hv, hspilled⟩ := slotTaken_loads
  obtain rfl : u = v := Host.Outcome.next.inj (hu.symm.trans hv)
  have hbyte : slotTaken.byte 0x40001000 = 1 := (hkept _).symm.trans hspilled
  exact absurd hbyte (by decide)

end
